-- ==== Sys2Proof/Word.lean ====
section
/-! DEFINITION. The word types of the Axleik 9 (R11, R17): widths only, and the keyed list that holds sparse data. -/

namespace Sys2Proof

/-- A 64-bit word: an instruction word, a uniform register, an address while it is computed. -/
abbrev Word := BitVec 64
/-- A 32-bit element of a vector register, a shape register or an accumulator tile (R17). -/
abbrev Elem := BitVec 32
/-- A byte of memory. -/
abbrev Byte := BitVec 8
/-- A lane mask: bit L stands for lane L (R14). -/
abbrev Mask := BitVec 32
/-- Sparse data by number, held with strictly rising keys. -/
abbrev Tab (α : Type) := List (Nat × α)

end Sys2Proof
end

