-- ==== Sys2Proof/Syntax.lean ====
section
/-! DEFINITION. The whole syntax: the field layouts of the six word formats (R78 to R83) and one constructor for each row of the opcode table. -/

namespace Sys2Proof

/-- TYPE, R84: the 25 types, and the seven codes 0x19 to 0x1F that R84 reserves. -/
inductive Ty where
  | b8 | b16 | b32 | b64 | b128 | s8 | s16 | s32 | s64 | z8 | z16 | z32 | z64
  | f16 | bf16 | f32 | f64 | f16x2 | bf16x2 | e4m3 | e5m2 | e3m2 | e2m3 | e2m1 | e8m0
  | rsv19 | rsv1A | rsv1B | rsv1C | rsv1D | rsv1E | rsv1F
deriving DecidableEq, Repr

/-- RND, R85: five modes and three reserved codes. -/
inductive Rnd where
  | rne | rz | ru | rd | rs | rsv5 | rsv6 | rsv7
deriving DecidableEq, Repr

/-- ORD, R85: five memory orders and three reserved codes. -/
inductive Ord' where
  | rlx | acq | rel | ar | sc | rsv5 | rsv6 | rsv7
deriving DecidableEq, Repr

/-- SCOPE, R85 and R15: six scopes, innermost first, and two reserved codes. -/
inductive Scope where
  | team | core | die | dev | fab | sys | rsv6 | rsv7
deriving DecidableEq, Repr

/-- KA, KB, KC, R85: the kind of a V3 source (for predicates, `vec` is plain and `uni` is negated, R120; for the
poison instructions the four codes name the four register classes, R164). -/
inductive Kind where
  | vec | uni | imm | rsv
deriving DecidableEq, Repr

/-- FL, R72: the flag a flag-setting instruction raises. -/
inductive FlagSel where
  | none | setA | setB | rsv
deriving DecidableEq, Repr

/-- The guard fields PRED and PNEG that every word carries (R75, R76). -/
structure Guard where
  pred : BitVec 4
  neg : Bool
deriving DecidableEq, Repr

/-- The V3 format, R78. -/
structure FV3 where
  g : Guard
  d : BitVec 8
  a : BitVec 8
  b : BitVec 8
  c : BitVec 8
  ka : Kind
  kb : Kind
  kc : Kind
  ty : Ty
  rnd : Rnd
  sat : Bool
  sub : BitVec 4
deriving DecidableEq, Repr

/-- The VI format, R79. -/
structure FVI where
  g : Guard
  d : BitVec 8
  a : BitVec 8
  ka : Kind
  ty : Ty
  rnd : Rnd
  sat : Bool
  sub : BitVec 4
  px : BitVec 4
  imm : BitVec 16
deriving DecidableEq, Repr

/-- The S format, R80. -/
structure FS where
  g : Guard
  d : BitVec 6
  a : BitVec 6
  b : BitVec 6
  c : BitVec 6
  ty : Ty
  sat : Bool
  imb : Bool
  sub : BitVec 4
  imm : BitVec 16
deriving DecidableEq, Repr

/-- The M format, R81. -/
structure FM where
  g : Guard
  d : BitVec 8
  a : BitVec 8
  b : BitVec 8
  dk : Bool
  ak : Bool
  ty : Ty
  ord : Ord'
  scope : Scope
  fl : FlagSel
  sk : Bool
  sub : BitVec 3
  off : BitVec 8
deriving DecidableEq, Repr

/-- The C format, R82; `rsv` is the reserved field [33:32]. -/
structure FC where
  g : Guard
  pa : BitVec 4
  jn : BitVec 3
  reg : BitVec 8
  kr : Kind
  rsv : BitVec 2
  lo : BitVec 32
deriving DecidableEq, Repr

/-- The X format, R83; `ext` is the word of the next slot. -/
structure FX where
  g : Guard
  d : BitVec 8
  a : BitVec 8
  b : BitVec 8
  ty : Ty
  ord : Ord'
  scope : Scope
  fl : FlagSel
  pb : BitVec 4
  sub : BitVec 3
  imm7 : BitVec 7
  ext : Word
deriving DecidableEq, Repr

/-- A Tuidon frame as it arrives (R375): the header fields and the payload of CHUNKS chunks of 32 bytes.
The reserved fields carry no meaning (R13). -/
structure Frame where
  src : BitVec 12
  dst : BitVec 12
  world : Bool
  scope : BitVec 3
  ord : BitVec 3
  opc : BitVec 8
  addr : BitVec 40
  oparg : BitVec 64
  rseq : BitVec 32
  seq : BitVec 32
  pmask : BitVec 128
  payload : List Byte
deriving DecidableEq, Repr

/-- The stored word that a soft error upsets (R425), or the control array an uncorrectable error strikes (R403): `taskControl` is a task's
split table, join registers, Parallax copies or flags; `context` its barrier tables, queue records or launch records. -/
inductive Site where
  | vreg (task reg lane : Nat) | ureg (task reg half : Nat) | pred (task reg lane : Nat) | shape (task reg el : Nat)
  | acc (task reg row col : Nat) | spad (core addr : Nat) | l1 (core addr : Nat) | l2 (addr : Nat) | deque (core idx word : Nat)
  | tlb (core idx : Nat) | dieTlb (die idx : Nat) | taskControl (task : Nat) | context (ctx : Nat)
deriving DecidableEq, Repr

/-- What the ECC of a sector read from HBM4E finds (R406). -/
inductive Ecc where
  | good | corrected | bad
deriving DecidableEq, Repr

/-- A device register of the maps that no row of the table writes by name (R13, R338, R361, R367, R374, R379, R392, R426). -/
inductive DevReg where
  | context (ctx word : Nat) | trbase | xdev | route (world : Bool) (dest : Nat) | pdom (dest : Nat)
  | carveOut (granule : Nat) | exportGranule (world : Bool) (granule : Nat) | group (n field : Nat) | devstat
deriving DecidableEq, Repr

/-- How a host request arrives (R370): at PF0, at PF1 in a selective IDE stream with the T bit, or at PF1 without it. -/
inductive HostReq where
  | pf0 | pf1 | pf1Open
deriving DecidableEq, Repr

/-- A request at a portal page other than a DMWr (R323, R324): a posted write, or a memory read of 8 bytes at an offset (DESIGN CHOICE,
log 80). -/
inductive PortalAccess where
  | write (queue : Nat)
  | read (queue offset : Nat)
deriving DecidableEq, Repr

/-- A mailbox or MCTP request (R421, R427, R434): the device log, a wear record, a register, or one whose contents the manual does not give. -/
inductive Mail where
  | readRegister (r : DevReg) | readLog | readWear (domain : Nat) | other (code : Nat)
deriving DecidableEq, Repr

/-- One instruction of the opcode table: the 171 program instructions with the fields of their format, and the 121 steps and
events of the device with the object each happens to and what the outside world chose. -/
inductive Instr where
  /-- BRA, R136. -/
  | bra (x : FC)
  /-- BRP, R136. -/
  | brp (x : FC)
  /-- BRX, R137. -/
  | brx (x : FC)
  /-- BRX_VECTOR, R137. -/
  | brxVector (x : FC)
  /-- SBRZ, R136. -/
  | sbrz (x : FC)
  /-- SBRNZ, R136. -/
  | sbrnz (x : FC)
  /-- CALL, R138. -/
  | call (x : FC)
  /-- RET, R138. -/
  | ret (x : FC)
  /-- JSET, R139. -/
  | jset (x : FC)
  /-- JWAIT, R140. -/
  | jwait (x : FC)
  /-- JDROP, R141. -/
  | jdrop (x : FC)
  /-- EXIT, R142. -/
  | exit (x : FC)
  /-- NOP, R143. -/
  | nop (x : FC)
  /-- SMOV, R103. -/
  | smov (x : FS)
  /-- SLI, R105. -/
  | sli (x : FX)
  /-- SADD, R103. -/
  | sadd (x : FS)
  /-- SSUB, R103. -/
  | ssub (x : FS)
  /-- SMUL, R103. -/
  | smul (x : FS)
  /-- SMULH, R103. -/
  | smulh (x : FS)
  /-- SMAD, R103. -/
  | smad (x : FS)
  /-- SAND, R103. -/
  | sand (x : FS)
  /-- SOR, R103. -/
  | sor (x : FS)
  /-- SXOR, R103. -/
  | sxor (x : FS)
  /-- SNOT, R103. -/
  | snot (x : FS)
  /-- SSHL, R103. -/
  | sshl (x : FS)
  /-- SSHR, R103. -/
  | sshr (x : FS)
  /-- SSAR, R103. -/
  | ssar (x : FS)
  /-- SMIN, R103. -/
  | smin (x : FS)
  /-- SMAX, R103. -/
  | smax (x : FS)
  /-- SCMP, R103. -/
  | scmp (x : FS)
  /-- SSEL, R103. -/
  | ssel (x : FS)
  /-- SPOPC, R103. -/
  | spopc (x : FS)
  /-- SCLZ, R103. -/
  | sclz (x : FS)
  /-- SBFE, R104. -/
  | sbfe (x : FS)
  /-- SBFI, R104. -/
  | sbfi (x : FS)
  /-- VMOV, R106. -/
  | vmov (x : FV3)
  /-- VLI, R105. -/
  | vli (x : FX)
  /-- VADD, R106. -/
  | vadd (x : FV3)
  /-- VSUB, R106. -/
  | vsub (x : FV3)
  /-- VMUL, R106. -/
  | vmul (x : FV3)
  /-- VMULH, R106. -/
  | vmulh (x : FV3)
  /-- VMAD, R106. -/
  | vmad (x : FV3)
  /-- VMADW, R107. -/
  | vmadw (x : FV3)
  /-- VADDC, R107. -/
  | vaddc (x : FV3)
  /-- VABS, R106. -/
  | vabs (x : FV3)
  /-- VNEG, R106. -/
  | vneg (x : FV3)
  /-- VMIN, R106. -/
  | vmin (x : FV3)
  /-- VMAX, R106. -/
  | vmax (x : FV3)
  /-- VAND, R106. -/
  | vand (x : FV3)
  /-- VOR, R106. -/
  | vor (x : FV3)
  /-- VXOR, R106. -/
  | vxor (x : FV3)
  /-- VNOT, R106. -/
  | vnot (x : FV3)
  /-- VSHL, R106. -/
  | vshl (x : FV3)
  /-- VSHR, R106. -/
  | vshr (x : FV3)
  /-- VSAR, R106. -/
  | vsar (x : FV3)
  /-- VROT, R106. -/
  | vrot (x : FV3)
  /-- VBFE, R104. -/
  | vbfe (x : FVI)
  /-- VBFI, R104. -/
  | vbfi (x : FVI)
  /-- VPOPC, R106. -/
  | vpopc (x : FV3)
  /-- VCLZ, R106. -/
  | vclz (x : FV3)
  /-- VBREV, R106. -/
  | vbrev (x : FV3)
  /-- VSEL, R106. -/
  | vsel (x : FV3)
  /-- VLEA, R108. -/
  | vlea (x : FV3)
  /-- FADD, R109. -/
  | fadd (x : FV3)
  /-- FSUB, R109. -/
  | fsub (x : FV3)
  /-- FMUL, R109. -/
  | fmul (x : FV3)
  /-- FFMA, R109. -/
  | ffma (x : FV3)
  /-- FMIN, R109. -/
  | fmin (x : FV3)
  /-- FMAX, R109. -/
  | fmax (x : FV3)
  /-- FABS, R109. -/
  | fabs (x : FV3)
  /-- FNEG, R109. -/
  | fneg (x : FV3)
  /-- FRCP, R110. -/
  | frcp (x : FV3)
  /-- FRSQ, R110. -/
  | frsq (x : FV3)
  /-- FSQRT, R109. -/
  | fsqrt (x : FV3)
  /-- FEXP2, R110. -/
  | fexp2 (x : FV3)
  /-- FLOG2, R110. -/
  | flog2 (x : FV3)
  /-- FSIN, R110. -/
  | fsin (x : FV3)
  /-- FCOS, R110. -/
  | fcos (x : FV3)
  /-- FRND, R111. -/
  | frnd (x : FV3)
  /-- FCLASS, R112. -/
  | fclass (x : FVI)
  /-- FDOT2, R113. -/
  | fdot2 (x : FV3)
  /-- CVT, R114. -/
  | cvt (x : FV3)
  /-- PACK, R116. -/
  | pack (x : FV3)
  /-- UNPK, R117. -/
  | unpk (x : FVI)
  /-- QNT, R118. -/
  | qnt (x : FV3)
  /-- VCMP, R119. -/
  | vcmp (x : FV3)
  /-- FCMP, R119. -/
  | fcmp (x : FV3)
  /-- PAND, R120. -/
  | pand (x : FV3)
  /-- POR, R120. -/
  | por (x : FV3)
  /-- PXOR, R120. -/
  | pxor (x : FV3)
  /-- PNOT, R120. -/
  | pnot (x : FV3)
  /-- PMOV, R120. -/
  | pmov (x : FV3)
  /-- PSETS, R121. -/
  | psets (x : FVI)
  /-- PSETS_IMM, R121. -/
  | psetsImm (x : FVI)
  /-- PGETS, R121. -/
  | pgets (x : FVI)
  /-- SHFL, R123. -/
  | shfl (x : FVI)
  /-- BCAST, R124. -/
  | bcast (x : FVI)
  /-- BALLOT, R125. -/
  | ballot (x : FV3)
  /-- VOTE, R125. -/
  | vote (x : FV3)
  /-- REDX, R126. -/
  | redx (x : FV3)
  /-- SCAN, R126. -/
  | scan (x : FV3)
  /-- MATCH, R127. -/
  | match (x : FV3)
  /-- LD, R152. -/
  | ld (x : FM)
  /-- ST, R152. -/
  | st (x : FM)
  /-- LDS, R153. -/
  | lds (x : FM)
  /-- STS, R153. -/
  | sts (x : FM)
  /-- LDN, R154. -/
  | ldn (x : FM)
  /-- STN, R154. -/
  | stn (x : FM)
  /-- PREF, R155. -/
  | pref (x : FM)
  /-- ATOM, R156. -/
  | atom (x : FM)
  /-- ATOMS, R158. -/
  | atoms (x : FM)
  /-- RED, R159. -/
  | red (x : FM)
  /-- FENCE, R160. -/
  | fence (x : FM)
  /-- MWAIT, R161. -/
  | mwait (x : FM)
  /-- SEAL, R162. -/
  | seal (x : FM)
  /-- UNSEAL, R163. -/
  | unseal (x : FM)
  /-- PTEST, R165. -/
  | ptest (x : FV3)
  /-- PCLR, R166. -/
  | pclr (x : FV3)
  /-- PSEL, R167. -/
  | psel (x : FV3)
  /-- PINJ, R168. -/
  | pinj (x : FV3)
  /-- SIGCHK, R170. -/
  | sigchk (x : FC)
  /-- SIGRD, R171. -/
  | sigrd (x : FS)
  /-- TRAP, R172. -/
  | trap (x : FC)
  /-- TRET, R173. -/
  | tret (x : FC)
  /-- SRD, R174. -/
  | srd (x : FVI)
  /-- SRD_VECTOR, R174. -/
  | srdVector (x : FVI)
  /-- SWR, R175. -/
  | swr (x : FVI)
  /-- SVC, R176. -/
  | svc (x : FC)
  /-- ERET, R177. -/
  | eret (x : FC)
  /-- HALT, R178. -/
  | halt (x : FC)
  /-- TLBI, R179. -/
  | tlbi (x : FM)
  /-- SPAWN, R188. -/
  | spawn (x : FX)
  /-- SPAWN_HEADER, R188. -/
  | spawnHeader (x : FX)
  /-- TEND, R189. -/
  | tend (x : FC)
  /-- TEND_VALUE, R189. -/
  | tendValue (x : FC)
  /-- YIELD, R191. -/
  | yield (x : FC)
  /-- ROLE, R192. -/
  | role (x : FX)
  /-- TFETCH, R193. -/
  | tfetch (x : FS)
  /-- TDONE, R194. -/
  | tdone (x : FS)
  /-- JOINF, R196. -/
  | joinf (x : FM)
  /-- FPROBE, R197. -/
  | fprobe (x : FM)
  /-- FSET, R198. -/
  | fset (x : FM)
  /-- FFAIL, R198. -/
  | ffail (x : FM)
  /-- SGADD, R200. -/
  | sgadd (x : FM)
  /-- SGWAIT, R200. -/
  | sgwait (x : FM)
  /-- QPUSH, R202. -/
  | qpush (x : FM)
  /-- QFLUSH, R204. -/
  | qflush (x : FM)
  /-- QSTAT, R204. -/
  | qstat (x : FM)
  /-- CPY, R206. -/
  | cpy (x : FX)
  /-- CPYL, R207. -/
  | cpyl (x : FM)
  /-- CPYG, R208. -/
  | cpyg (x : FX)
  /-- BARI, R211. -/
  | bari (x : FM)
  /-- BARA, R211. -/
  | bara (x : FM)
  /-- BARX, R211. -/
  | barx (x : FM)
  /-- BARP, R211. -/
  | barp (x : FM)
  /-- BARW, R211. -/
  | barw (x : FM)
  /-- QLD, R216. -/
  | qld (x : FM)
  /-- QST, R216. -/
  | qst (x : FM)
  /-- QSET, R216. -/
  | qset (x : FVI)
  /-- QGET, R216. -/
  | qget (x : FVI)
  /-- SKWIN, R217. -/
  | skwin (x : FVI)
  /-- MMA, R220. -/
  | mma (x : FX)
  /-- MTILE, R221. -/
  | mtile (x : FX)
  /-- MRSV, R227. -/
  | mrsv (x : FC)
  /-- MREL, R227. -/
  | mrel (x : FC)
  /-- ACLR, R225. -/
  | aclr (x : FV3)
  /-- AMOV_TO_VECTOR, R225. -/
  | amovToVector (x : FV3)
  /-- AMOV_TO_TILE, R225. -/
  | amovToTile (x : FV3)
  /-- AMOV_TILE, R225. -/
  | amovTile (x : FV3)
  /-- ALD, R226. -/
  | ald (x : FM)
  /-- AST, R226. -/
  | ast (x : FM)
  /-- FLAG_COMPLETION, R72: A flag-setting operation completes and lowers its completion flag. -/
  | flagCompletion (task op : Nat)
  /-- MTILE_STEP_RETIRE, R222: One MTILE step retires and xmstep advances. -/
  | mtileStepRetire (task : Nat)
  /-- WAIT_SATISFIED, R243: The condition of an instruction waiting inside itself holds and the split continues. -/
  | waitSatisfied (task split : Nat)
  /-- JOIN_COMPLETE, R140: A join whose expected lanes have all arrived merges its waiting splits at its target. -/
  | joinComplete (task join : Nat)
  /-- SPLIT_PLACEMENT, R232: Merged join splits, occupied joins and stack pops are placed into free table entries. -/
  | splitPlacement (task : Nat)
  /-- SPLIT_MERGE, R237: Splits standing at slot 1 of one clause with equal xsig merge. -/
  | splitMerge (task split : Nat)
  /-- ISSUE_GRANT, R239: Each issue port grants one ready split per cycle by the order of R241. -/
  | issueGrant
  /-- PROMOTION, R242: A split ready and not granted for 4,096 ck is promoted to class 4. -/
  | promotion (task split : Nat)
  /-- REFILL, R251: The top overflow block is read back into an empty deque. -/
  | refill (core : Nat)
  /-- TAKE_ENTRY, R253: A core with a free slot takes an entry from the inbox or its own deque, or sends a steal request. -/
  | takeEntry (core : Nat)
  /-- ADMIT, R254: An entry is admitted as a team into partitions with its scratchpad allocation. -/
  | admitEntry (core : Nat)
  /-- STAGING_COMPLETE, R255: The staging engine finishes writing a closure's operands and the slot becomes READY. -/
  | stagingComplete (team : Nat)
  /-- STAGING_FAULT, R255: A staging fault makes the team depart and completes its future. -/
  | stagingFault (team : Nat)
  /-- MERIDIAN_PUBLISH, R257: Every 256 ck each die publishes its depth, aged flag and tile counts. -/
  | meridianPublish
  /-- STEAL_REQUEST_SERVED, R252: A steal request arriving at a victim takes the coldest eligible entry or replies empty. -/
  | stealRequestServed (thief : Nat)
  /-- CROSS_DIE_STEAL, R259: A starved die sends a cross-die request to the chosen victim die's bridge. -/
  | crossDieSteal (core : Nat)
  /-- STEAL_REPLY, R260: A steal reply arrives and the taker self-invalidates before admission. -/
  | stealReply (thief : Nat)
  /-- WRITEBACK_REQUEST, R294: A core writes back its sectors dirty under epochs up to the requested generation. -/
  | writebackRequest (core : Nat) (gen : BitVec 16)
  /-- PARK, R266: A core writes a task's frame, releases and frees the slot. -/
  | park (task : Nat)
  /-- RESUME_ENTRY_CREATE, R267: The condition ending a park is met and a resume entry is created. -/
  | resumeEntryCreate (ctx frame : Nat)
  /-- RESUME, R268: A resume entry's frame is restored, after an acquire when on another core. -/
  | resume (core : Nat)
  /-- TEAM_FUTURE_COMPLETION, R190: When a team's last task ends its future is updated at the home slice. -/
  | teamFutureCompletion (team : Nat)
  /-- BARRIER_CREDIT, R212: A copy credit is applied to a barrier word and the word is checked for completion. -/
  | barrierCredit (credit : Nat)
  /-- COPY_COMPLETION, R205: A copy's last byte is written and its barrier credit or stamp is applied. -/
  | copyCompletion (copy : Nat)
  /-- QUEUE_SPAWN, R203: The queue engine spawns a tile of up to T present records onto the inbox. -/
  | queueSpawn (queue : Nat)
  /-- FLUSH_TIMER_EXPIRY, R203: A spawn-queue flush timer reaches TIMM1 + 1 with records present. -/
  | flushTimerExpiry (queue : Nat)
  /-- QUEUE_TILE_END, R203: A spawned tile's task ends, freeing its records in order. -/
  | queueTileEnd (queue start : Nat)
  /-- WATCHDOG_STOP, R416: A task's watchdog count reaches WDOG.CYCLES and the task is stopped. -/
  | watchdogStop (task : Nat)
  /-- HALT_TIMEOUT, R178: A HALT's time limit passes and execution continues. -/
  | haltTimeout (task split : Nat)
  /-- L1_EVICTION, R295: An L1 sector is evicted, written back if dirty and its HOLDER cleared. -/
  | l1Eviction (core sector : Nat)
  /-- L2_EVICTION, R404: L2 writes a sector to HBM4E, with the poison codeword when a word is poisoned. -/
  | l2Eviction (sector : Nat)
  /-- HBM_FILL, R406: A sector is filled from HBM4E with ECC and integrity-tag checks. -/
  | hbmFill (sector : Nat) (ctx : Option Nat) (ecc : Ecc) (tagBad : Bool)
  /-- CONTROL_ARRAY_ERROR, R403: An uncorrectable error in a control array drops an entry, kills a task or faults the context. -/
  | controlArrayError (site : Site)
  /-- TLB_MISS_WALK, R364: A last-level TLB miss starts or joins a page walk. -/
  | tlbMissWalk (die : Nat)
  /-- WALK_COMPLETE, R360: A walk finds its leaf, a fault, or a non-present entry. -/
  | walkComplete (die walk : Nat)
  /-- WALK_BOUND_EXCEEDED, R364: A walk not complete 4,096 ck after its miss lets waiting tasks park. -/
  | walkBoundExceeded (die walk : Nat)
  /-- PAGE_REQUEST_RESPONSE, R365: The resolver's RESP is acted on, rechecking or trapping the waiting accesses. -/
  | pageRequestResponse (ctx slot : Nat)
  /-- PORTAL_DMWR, R324: A DMWr to a portal accepts a packet, retries or is refused. -/
  | portalDmwr (queue offset : Nat) (words : List Word) (req : HostReq)
  /-- PORTAL_POSTED_WRITE, R324: A posted write to a portal page is dropped and recorded; a memory read is answered. -/
  | portalPostedWrite (access : PortalAccess)
  /-- NOP_PACKET, R331: A NOP packet starts and completes at once. -/
  | nopPacket (queue : Nat)
  /-- LAUNCH_ROOT, R334: Places a root closure on a die's inbox. -/
  | launchRoot (queue : Nat)
  /-- LAUNCH_TILE, R335: Sets up the tile dispenser and places a closure on every core of the placement. -/
  | launchTile (queue : Nat)
  /-- COPY, R331: The front end copies LEN bytes. -/
  | copy (queue : Nat)
  /-- SIGNAL, R331: The front end adds V to a signal as a release. -/
  | signal (queue : Nat)
  /-- WAIT, R331: The packet starts once its signal condition holds, as an acquire. -/
  | wait (queue : Nat)
  /-- WRITE_THEN_SIGNAL, R331: Writes 8 bytes and then releases a signal update. -/
  | writeThenSignal (queue : Nat)
  /-- FENCE_PACKET, R331: Waits for earlier packets and performs the launch write-back. -/
  | fencePacket (queue : Nat)
  /-- COLLECTIVE, R396: Starts a collective operation of a group across ranks. -/
  | collective (queue : Nat)
  /-- QUEUE_INIT_ENABLE, R331: Checks and enables a spawn-queue descriptor. -/
  | queueInitEnable (queue : Nat)
  /-- QUEUE_INIT_DISABLE, R331: Disables a spawn-queue descriptor. -/
  | queueInitDisable (queue : Nat)
  /-- TIMESTAMP, R331: Writes the xclk of the start cycle. -/
  | timestamp (queue : Nat)
  /-- LAUNCH_COMPLETE, R335: A launch with no team or tile left performs its write-back and completes. -/
  | launchComplete (ctx launch : Nat)
  /-- QUEUE_RECORD_WRITE, R322: Firmware writes a queue record; setting ENABLED zeroes the portal counts. -/
  | queueRecordWrite (queue : Nat) (w0 w1 : Word)
  /-- REGISTER_WRITE, R13: A write to a register with no row of its own. -/
  | registerWrite (reg : DevReg) (value : Word)
  /-- SLICE_EXPIRY, R342: A resident context's time slice expires. -/
  | sliceExpiry (ctx : Nat)
  /-- PREEMPT_PENDING, R342: The front end makes a resident context pending pre-emption. -/
  | preemptPending (ctx : Nat)
  /-- PREEMPT_WITHDRAW, R342: A pending pre-emption is withdrawn when its causes stop being runnable. -/
  | preemptWithdraw (ctx : Nat)
  /-- DISCARD_TEAM, R346: A discardable team of a pending context is discarded and its closure pushed back. -/
  | discardTeam (team : Nat)
  /-- QUIESCENCE_PARK, R348: A quiescent team parks its members into consecutive frames. -/
  | quiescencePark (team : Nat)
  /-- GRACE_EXPIRY, R349: The grace period ends with tasks still resident and the context faults. -/
  | graceExpiry (ctx : Nat)
  /-- SWITCH_OUT, R350: A context with no resident task is written back and its entries carried. -/
  | switchOut (ctx : Nat)
  /-- SWITCH_IN, R353: A context is checked, loaded, re-hashed and its carry lists attached. -/
  | switchIn (ctx : Nat) (dies : List Nat)
  /-- HOST_BAR4_WRITE, R371: A host write through BAR 4 is made at the home slice. -/
  | hostBar4Write (offset : Nat) (bytes : List Byte) (req : HostReq) (poisoned : Bool)
  /-- HOST_BAR4_READ, R371: A host read through BAR 4 returns the slice value, poisoned TLP if needed. -/
  | hostBar4Read (offset size : Nat) (req : HostReq)
  /-- HOST_COMPLETION, R372: A completion for a host read or AtomicOp arrives and is written. -/
  | hostCompletion (tag : Nat) (bytes : List Byte) (poisoned : Bool)
  /-- ATS_INVALIDATION, R372: An ATS Invalidation Request drops matching translations. -/
  | atsInvalidation (page : Nat) (pages : Nat)
  /-- PRI_RESPONSE, R372: A PRI response retries the translation or traps the waiting accesses. -/
  | priResponse (page : Nat) (code : Nat)
  /-- WRITE, R380: A received WRITE frame is applied at the home slice. -/
  | write (f : Frame)
  /-- READ, R380: A received READ frame is answered with data. -/
  | read (f : Frame)
  /-- ATOMIC, R380: A received ATOMIC frame applies one line group. -/
  | atomic (f : Frame)
  /-- QPUSH_FRAME, R381: A received QPUSH frame places records in a local queue and returns the accept mask. -/
  | qpushFrame (f : Frame)
  /-- WAITREG, R382: A received WAITREG frame is answered once its wait is satisfied. -/
  | waitreg (f : Frame)
  /-- QCTL, R376: A received QCTL frame performs QFLUSH or QSTAT on a local queue. -/
  | qctl (f : Frame)
  /-- REPL_REQ, R388: A replica request for a shared page is served at its home. -/
  | replReq (f : Frame)
  /-- OWN_REQ, R388: An ownership request for a shared page is served at its home. -/
  | ownReq (f : Frame)
  /-- INVAL, R388: A holder drops its replica of a page and answers. -/
  | inval (f : Frame)
  /-- FETCH, R388: The owner writes back a page and sends it. -/
  | fetch (f : Frame)
  /-- PAGE_DATA, R388: Page data arrive and are installed in a page-cache frame. -/
  | pageData (f : Frame)
  /-- GRANT, R388: Ownership is granted over an already valid replica. -/
  | grant (f : Frame)
  /-- FPC_EVICTION, R389: A device releases its oldest fabric-cache page when it needs a frame. -/
  | fpcEviction (ctx : Nat)
  /-- ORD_WRITE, R390: The sequencer numbers, applies and multicasts a write to an ordered page. -/
  | ordWrite (f : Frame)
  /-- ORD_UPDATE, R390: A replica holder applies an ordered update in number order. -/
  | ordUpdate (f : Frame)
  /-- LOOSE_UPDATE, R391: A replica holder applies a loose-page update. -/
  | looseUpdate (f : Frame)
  /-- COLL_PARAM, R396: A rank's collective parameters or abort arrive. -/
  | collParam (f : Frame)
  /-- COLL_DATA, R395: Collective data arrive and are combined. -/
  | collData (f : Frame)
  /-- COLLECTIVE_END_EARLY, R397: A collective is ended early and an abort is sent to the other ranks. -/
  | collectiveEndEarly (group cseq : Nat)
  /-- RESP, R377: An answer with data, status or accept mask arrives at the requester. -/
  | resp (f : Frame)
  /-- ACK, R377: An acknowledgement arrives and the request is performed. -/
  | ack (f : Frame)
  /-- NACK, R379: A negative answer arrives and the request's effect is replaced and recorded. -/
  | nack (f : Frame)
  /-- FRAME_DISCARD, R376: A frame with an unknown OPC is discarded and recorded. -/
  | frameDiscard (f : Frame)
  /-- FRAME_RETRANSMIT, R377: A request unanswered for 2^20 ck is sent again with the same SEQ. -/
  | frameRetransmit (request : Nat)
  /-- FLIT_REPLAY, R422: A die-to-die flit failing its CRC is replayed with every later flit. -/
  | flitReplay (link seq : Nat)
  /-- LINK_REPAIR, R423: A module over its replay limit is paused, drained, remapped and resumed. -/
  | linkRepair (link : Nat) (badLanes : List Nat)
  /-- ALMANAC_SAMPLE, R428: Each second every domain's margin is sampled and its guard band adjusted or marked. -/
  | almanacSample (margins : List (Nat × Nat))
  /-- CORE_SPARE, R429: A marked core is replaced by a spare at a repair pre-emption. -/
  | coreSpare (die core : Nat)
  /-- STEP_DOWN, R430: The device steps to a lower legal configuration after launches drain. -/
  | stepDown
  /-- CHANNEL_SPARE, R431: A marked HBM4E channel is copied to a spare and remapped. -/
  | channelSpare (channel : Nat)
  /-- DOMAIN_STOP, R432: A marked domain whose margin falls below 4 is stopped. -/
  | domainStop (domain : Nat)
  /-- DEVICE_FAIL, R433: A die with fewer than 64 healthy cores fails the device. -/
  | deviceFail (die : Nat)
  /-- POWER_CAP, R442: The power manager caps the core clock of all dies in 125 MHz steps. -/
  | powerCap (steps : Nat)
  /-- THERMAL_TRIP, R442: A junction at 115 °C at the lowest cap stops every clock. -/
  | thermalTrip (celsius : Nat)
  /-- HEARTBEAT_MISS, R434: The standby complex takes over when the active one misses heartbeats for 2^26 ck. -/
  | heartbeatMiss
  /-- LIVE_UPDATE_LOAD, R437: The standby loads and verifies a new image. -/
  | liveUpdateLoad (lo hi major minor version : Nat) (signed : Bool)
  /-- LIVE_UPDATE_FREEZE, R437: Packet starts drain and stop for the update. -/
  | liveUpdateFreeze
  /-- STATE_TABLE_IMPORT, R436: The standby imports the committed state table. -/
  | stateTableImport (converts : Bool)
  /-- TAKEOVER, R437: The standby becomes active and packet starts resume. -/
  | takeover
  /-- MAILBOX_REQUEST, R434: A BAR 0 mailbox or MCTP request is served by the active complex. -/
  | mailboxRequest (m : Mail)
  /-- GET_VERSION, R440: SPDM GET_VERSION is answered. -/
  | getVersion
  /-- GET_CAPABILITIES, R440: SPDM GET_CAPABILITIES is answered. -/
  | getCapabilities
  /-- NEGOTIATE_ALGORITHMS, R440: SPDM NEGOTIATE_ALGORITHMS selects SHA3-512 and ML-DSA-87. -/
  | negotiateAlgorithms (hashes signatures : List Nat)
  /-- GET_DIGESTS, R440: SPDM GET_DIGESTS is answered. -/
  | getDigests
  /-- GET_CERTIFICATE, R440: SPDM GET_CERTIFICATE returns the identity chain. -/
  | getCertificate (slot offset length : Nat)
  /-- CHALLENGE, R440: SPDM CHALLENGE is answered with a signature. -/
  | challenge (slot : Nat) (nonce : List Byte)
  /-- GET_MEASUREMENTS, R440: SPDM GET_MEASUREMENTS reports the measurement indices as they stand. -/
  | getMeasurements (index : Nat) (nonce : List Byte)
  /-- COLD_RESET, R441: A power-on reset runs the bring-up order. -/
  | coldReset
  /-- WARM_RESET, R441: A Conventional Reset or firmware request runs the bring-up order. -/
  | warmReset
  /-- ATS_TRANSLATION_COMPLETION, R372: The host's answer to an ATS translation request arrives, filling the link's ATS cache or, when no translation is returned, making the link send a PRI Page Request. -/
  | atsTranslationCompletion (page : Nat) (output : Option Nat)
  /-- SOFT_ERROR, R425: A soft error upsets a stored word, which is then either replaced by a whole-word write or found poisoned or corrected at its next read. -/
  | softError (site : Site) (bits : Nat)
  /-- MODULE_UNPOWERED, R427: Power to the module is lost, ending all volatile state while wear records, sparing map and fuses stay in flash and HOURS stops advancing. -/
  | moduleUnpowered
  /-- PRIORITY_FLOW_CONTROL, R373: An IEEE 802.1Qbb priority flow control frame arrives on an Ethernet port and pauses or resumes sending on the request or answer priority. -/
  | priorityFlowControl (port priority : Nat) (pause : Bool)
  /-- CONFIGURATION_REQUEST, R441: A PCIe configuration request from the host is answered, with Request Retry Status until bring-up step 7. -/
  | configurationRequest (offset : Nat) (write : Option Elem)
deriving DecidableEq, Repr

end Sys2Proof
end

