-- ==== Sys2Proof/Machine/State.lean ====
section
/-! DEFINITION. The state of one Axleik 9 as plain data: tasks, teams, cores, dies, memory, contexts, queues, host link, fabric and firmware; the reasons a step can stop; and the state after reset. -/

namespace Sys2Proof.Machine

/-! ### Memory (R286, R402) and the registers of a task (R17) -/

/-- A memory of bytes and of a poison bit a 32-bit word: cells with strictly rising addresses, none holding 0, which is what an
unlisted address reads as (DESIGN CHOICE, logs 2 and 3); `poi` lists the poisoned words (address / 4), rising. -/
structure Memory where
  cells : List Host.Cell
  poi : List Nat
deriving DecidableEq, Repr

/-- A vector register: 32 elements and a poison bit each (R17). Its shape tag is a function of the elements (R23). -/
structure VReg where
  e : List Elem
  poi : Mask
deriving DecidableEq, Repr

/-- A uniform register: 64 bits, a poison bit for [31:0] and one for [63:32] (R27). -/
structure UReg where
  v : Word
  lo : Bool
  hi : Bool
deriving DecidableEq, Repr

/-- A predicate: a bit and a poison bit for each lane (R28). -/
structure PReg where
  v : Mask
  poi : Mask
deriving DecidableEq, Repr

/-- A shape register: 16 elements and a poison bit each (R31). -/
structure QReg where
  e : List Elem
  poi : BitVec 16
deriving DecidableEq, Repr

/-- An accumulator tile: 32 rows of 32 elements and a poison mask a row (R32). -/
structure Tile where
  rows : List (List Elem)
  poi : List Mask
deriving DecidableEq, Repr

/-- A join register (R29, R233, R235): its arrivals are pairs of lanes and xsig in the order of the
JWAITs; `due`: an event has completed it (R140). -/
structure Join where
  valid : Bool
  occ : Bool
  expected : Mask
  arrivals : List (Mask × Elem)
  target : Word
  due : Bool
deriving DecidableEq, Repr

/-- What a trap writes (R129): cause, xsyn, xaddr, the kind of unit, and xepc where it is not the trapping instruction. -/
structure TrapInfo where
  cause : Nat
  syn : Word
  addr : Word
  kind : Nat
  epc : Option Word
deriving DecidableEq, Repr

/-- What a waiting split waits for (R146, R176, R178, R380): `cond`, the instruction's own condition; `page`, a walk,
and `request`, a page request (R365), with the kind of the access (R366) and the address it waits on (R270); `ats`, a translation of the
host (R372); `shared`, a page whose home is another device (R387); a service (R176); or a wake of a complex (R178). -/
inductive Hold where
  | cond
  | page (die walk access va : Nat)
  | request (ctx slot va : Nat)
  | ats (page va : Nat)
  | shared (home addr va : Nat)
  | service
  | halt (until' : Option Nat)
deriving DecidableEq, Repr

/-- The writes that an outstanding operation makes when it completes (R72, R73): the elements whose new value is known, the new
values, and the elements that a later instruction has written meanwhile. -/
inductive PendWrite where
  | v (r : Nat) (lanes : Mask) (new : VReg) (again : Mask)
  | u (r : Nat) (here : Bool) (new : UReg) (again : Bool)
  | p (r : Nat) (lanes : Mask) (new : PReg) (again : Mask)
  | q (r : Nat) (els : BitVec 16) (new : QReg) (again : BitVec 16)
  | a (r : Nat) (els : List Mask) (new : Tile) (again : List Mask)
deriving DecidableEq, Repr

/-- What kind of operation is outstanding: an access, one on registers only (MMA, R298), an MTILE, or a copy. -/
inductive OpKind where
  | access | mma | mtile | copy
deriving DecidableEq, Repr

/-- An outstanding operation of a task (R72, R150): the flag it lowers, whether it is a counted store, what it writes, and which
remote or host answers it still waits for. -/
structure PendOp where
  id : Nat
  kind : OpKind
  flag : Option Nat
  counted : Bool
  writes : List PendWrite
  answers : List Nat
deriving DecidableEq, Repr

/-- The registers of a task as an instruction read them when it issued, with the writes then outstanding (R72, R73): an instruction
that waits goes on with the operands it has read. -/
structure Snap where
  v : Tab VReg
  u : Tab UReg
  p : Tab PReg
  q : Tab QReg
  acc : Tab Tile
  pend : List PendOp
  free : Nat
deriving DecidableEq, Repr

/-- An instruction that a split waits in (R183): the instruction, whether it has passed its stopping point (R169), what it waits
for, the cycle in which it came to wait so, whether its walk exceeded the walk bound since (R364), its contributing lanes and its operands. `fetch`:
it is the clause itself that the split waits for; `found`: what walks and responses have found for pages it names: page, cause,
reason, detail (R360, R365); `before`: the split's xsig without the instruction. -/
structure Wait where
  fetch : Bool
  ins : Instr
  passed : Bool
  hold : Hold
  since : Nat
  overdue : Bool
  found : List (Nat × Nat × Nat × Nat)
  lanes : Mask
  regs : Snap
  before : Elem
deriving DecidableEq, Repr

/-- A split in a table entry or a stack position (R228). `fresh`: it has not issued from its clause since entering it;
`pa`: the physical address of the clause once its fetch has been translated;
`found`: what the resolution of pages found while its task was parked (R365); `resumed`: the instruction in the middle of which its task
was parked, which it goes on with at its next grant (R268). -/
structure Split where
  clause : Word
  slot : Nat
  fresh : Bool
  pa : Option Nat
  xact : Mask
  xsig : Elem
  pxact : Mask
  held : Bool
  fault : Option TrapInfo
  stamp : Nat
  promo : Nat
  promoted : Bool
  readyAt : Nat
  found : List (Nat × Nat × Nat × Nat)
  wait : Option Wait
  resumed : Option Wait
deriving DecidableEq, Repr

/-- An outstanding MTILE (R222): the instruction, its place, the registers it has read, the scratchpad of its core as it stood then
(a store made since may not be seen), the next step, the steps in all, and the result of the current block so far. -/
structure MTile where
  ins : FX
  clause : Word
  slot : Nat
  qa : QReg
  qb : QReg
  qs : QReg
  qt : QReg
  us : UReg
  ut : UReg
  spad : Memory
  step : Nat
  steps : Nat
  block : Tile
deriving DecidableEq, Repr

/-- A release record of a line, or a side record: die and core as one number, generation and scope; a FOREIGN record names a
device (R288, R384). -/
structure Record where
  foreign : Bool
  who : Nat
  gen : BitVec 16
  scope : Scope
deriving DecidableEq, Repr

/-- The state of a task slot (R256). -/
inductive SlotState where
  | staging | ready | running | waiting | retired | parking
deriving DecidableEq, Repr

/-- How a task ended (R132, R190). -/
inductive Ending where
  | normal | poison | killed | timeout | discarded | staging (poison : Bool)
deriving DecidableEq, Repr

/-- The wait for which a task parks (R265, R270): the entry of its split, KIND, WAITON, the request whose answer ends it, whether it is already over, and the
cycle in which the park began. -/
structure ParkOn where
  entry : Nat
  kind : Nat
  waitOn : Word
  request : Option Nat
  ready : Bool
  since : Nat
deriving DecidableEq, Repr

/-- A resident task (R17, R36, R228). `seen` and `seenMore`: the records of its relaxed loads; `tiles`: the tiles of
its partition's file that a0, a1, … name (DESIGN CHOICE, log 19); `window`: the scope of the open release
window of a FENCE.rel (R160); `hlanes`: the lanes that entered the handler (R232); `settled`: it has written its team's future by FSET
or FFAIL (R190); `mergedAt`: the cycle of the latest merge of its splits (R237); `parkOn`: what it parks for, once its park has begun. -/
structure Task where
  ctx : Nat
  core : Nat
  part : Nat
  slot : Nat
  team : Nat
  idx : Nat
  sizeM1 : Nat
  vblk : Nat
  sblk : Nat
  ablk : Nat
  acore : Bool
  tiles : List Nat
  prio : Nat
  lanekill : Bool
  idem : Bool
  entry : Word
  supervisor : Bool
  onComplex : Bool
  xtask : Word
  xdead : Mask
  exited : Mask
  xtile : Word
  xtagB : Nat
  xepc : Word
  xcause : Word
  xsyn : Word
  xaddr : Word
  xunit : Word
  xhnd : Word
  hlanes : Mask
  v : Tab VReg
  u : Tab UReg
  p : Tab PReg
  q : Tab QReg
  acc : Tab Tile
  joins : Tab Join
  pjoins : Tab Join
  splits : List (Option Split)
  stack : List Split
  pend : List PendOp
  cf : List Nat
  cfPrev : List Nat
  mtile : Option MTile
  state : SlotState
  fetches : Nat
  tileDone : Bool
  seen : List Record
  seenMore : Bool
  window : Option Scope
  wdog : Nat
  progressed : Bool
  committed : Bool
  fromResume : Bool
  ending : Option Ending
  endValue : Option UReg
  departed : Bool
  waitSince : Nat
  settled : Bool
  mergedAt : Option Nat
  parkOn : Option ParkOn
  free : Nat
deriving DecidableEq, Repr

/-! ### Work: closures, entries, teams (R186, R248, R254) -/

/-- A deque entry (R248): the 16 words of its image with their poison (two bits a word, 32 in all), and its side record;
`sidePoi`: the side record was read back poisoned (R408). -/
structure Entry where
  img : List Word
  poi : BitVec 32
  pushck : Word
  lv : Bool
  lrec : Nat
  gen : BitVec 16
  null : Bool
  pin : Bool
  who : Nat
  sidePoi : Bool
deriving DecidableEq, Repr

/-- A registered word of a team's barrier table (R210): its masks; the cycle of its last credit and of its last change by a task
(R212); and PHASE at the end of the cycle before its last change, with the cycle of that change (R211). -/
structure Barrier where
  offset : Nat
  arrived : BitVec 16
  members : BitVec 16
  credited : Option Nat
  changed : Option Nat
  before : Option (Nat × Bool)
deriving DecidableEq, Repr

/-- A team (R276): its closure and what its future is told, its allocation, windows, barrier table; `gone`: the members
that have departed; `tiles`: its tiles in flight (number, tile, members done with it) and the latest number; `value`: a value of a TEND
not yet written; `ender`: xtask of the task that ended last; `readers`: the sealed regions that its staging reads (R255, R304);
`discarded`: it has been discarded, and holds its allocation while copies write into it (R346). -/
structure Team where
  ctx : Nat
  core : Nat
  size : Nat
  entry : Entry
  future : Word
  settled : Bool
  leader : Word
  spadBase : Nat
  spadLen : Nat
  windows : Tab QReg
  barriers : List Barrier
  gone : List Nat
  dead : Nat
  poison : Bool
  killed : Bool
  timeout : Bool
  unsettled : Bool
  launch : Option Nat
  tileK : Nat
  tiles : List (Nat × Word × List Nat)
  queue : Option (Nat × Nat)
  value : Option UReg
  ender : Word
  readers : List Nat
  discarded : Bool
deriving DecidableEq, Repr

/-! ### Caches (R295) -/

/-- The state of a valid L1 sector (R295); I is the absence of the sector. -/
inductive SecState where
  | clean | sealed | dirty (epoch : BitVec 16)
deriving DecidableEq, Repr

/-- A sector of an L1: 32 bytes and a poison bit a word (R287, R295). -/
structure Sector where
  state : SecState
  data : List Byte
  poi : BitVec 8
deriving DecidableEq, Repr

/-- A TLB entry (R363), by the VA bits above its leaf size. -/
structure TlbEntry where
  ctx : Nat
  world : Bool
  level : Nat
  va : Nat
  out : Nat
  w : Bool
  x : Bool
  sec : Bool
  attr : Nat
deriving DecidableEq, Repr

/-- A partition of a core: the last issue cycle of each interval class (R128), when its matrix unit is free (R218), and the 32
generators once one has drawn (R47). -/
structure Part where
  lastIssue : Tab Nat
  matrixFree : Nat
  rng : Option (List Elem)
deriving DecidableEq, Repr

/-- A core (R17, R37, R247 to R258, R282, R290, R295, R363). `hand`: the entry it has taken and not yet admitted; `tookAt`: the
cycle of its latest take or request; `gaveAt`: that of the latest take from its deque by a thief; `pushing`: the
entries whose push waits for room (R251), each with whether it is pushed back, which keeps the core from taking another. -/
structure Core where
  xrgen : BitVec 16
  l1 : Tab Sector
  l1rec : Tab Record
  spad : Memory
  deque : List Entry
  overflow : Nat
  refilling : Bool
  hand : Option Entry
  tookAt : Option Nat
  gaveAt : Option Nat
  pushing : List (Bool × Entry)
  request : Option Nat
  reply : Option (Option Entry)
  tlb : List TlbEntry
  parts : Tab Part
deriving DecidableEq, Repr

/-- A walk in progress (R364): what it translates for, its first miss, whether it exceeded the bound, and what it found. -/
structure Walk where
  ctx : Nat
  world : Bool
  va : Nat
  since : Nat
  overdue : Bool
  started : Bool
deriving DecidableEq, Repr

/-- A compute die (R250, R257, R259, R363): starvation count by context, what it published, its TLB, walks, serial and inboxes; `took`: the contexts of which a core has taken an entry in this ck; `drew`: the ck of the
dispenser's latest draw (R262); `last`: the world
of the context that was resident last (R368). -/
structure Die where
  starve : Tab Nat
  depth : Tab Nat
  aged : List Nat
  tiles : Tab Nat
  crossRequest : Option Nat
  tlb : List TlbEntry
  walks : Tab Walk
  serial : Tab Nat
  inboxHead : Tab Nat
  inboxCount : Tab Nat
  took : List Nat
  drew : Option Nat
  last : Option Bool
deriving DecidableEq, Repr

/-! ### Engines (R203, R205) -/

/-- A place that bytes come from or go to: local memory, the scratchpad of a core, another device, the host, a device register, or a
constant zero. -/
inductive Place where
  | mem (pa : Nat)
  | spad (core off : Nat)
  | away (dev addr : Nat) (secure : Bool)
  | host (addr : Nat) (secure : Bool)
  | chip (addr : Nat)
  | zero
deriving DecidableEq, Repr

/-- How a copy ends (R205): nothing, a credit to barrier words (team and offset), a stamp, or a signal decrement. -/
inductive Completion where
  | none
  | barrier (words : List (Nat × Nat)) (bytes : Nat)
  | stamp (place : Place) (value : Word)
  | signal (place : Place)
deriving DecidableEq, Repr

/-- A run of bytes that a copy moves: its source, its destinations, and its bytes with their poison as they stood when the copy was
issued, or as they arrived. -/
structure Move where
  src : Place
  dsts : List Place
  len : Nat
  data : Option (List (Byte × Bool))
deriving DecidableEq, Repr

/-- A copy in progress (R205): its task and operation, the moves not yet made, its completion with the record it carries, the
regions it reads, whether it still reads, and whether R150 counts it. -/
structure Copy where
  task : Nat
  op : Nat
  ctx : Nat
  core : Nat
  moves : List Move
  completion : Completion
  record : Option Record
  readers : List Nat
  reading : Bool
  counted : Bool
deriving DecidableEq, Repr

/-- A barrier credit waiting to be applied (R212). -/
structure Credit where
  team : Nat
  offset : Nat
  bytes : Nat
deriving DecidableEq, Repr

/-- A spawn queue that its die's engine watches (R203, R273): presence and releaser of records from ISSUED on, timer start, tiles
in flight with their starts and whether each has ended, a flush request, whether it has stopped, the cycle of its latest spawn (R275). -/
structure SpawnQ where
  ctx : Nat
  die : Nat
  va : Word
  present : Tab Record
  timer : Option Nat
  tiles : List (Nat × Nat × Bool)
  flushTo : Nat
  stopped : Bool
  spawnedAt : Option Nat
deriving DecidableEq, Repr

/-- A sealed region (R303): its context, virtual base and length, physical pieces, and READERS. -/
structure Seal where
  ctx : Nat
  va : Word
  len : Nat
  pieces : List (Nat × Nat)
  readers : Nat
deriving DecidableEq, Repr

/-! ### Contexts, queues and launches (chapter 12) -/

/-- A parked task (R264 to R269): its frame, its team, KIND, WAITON, the request of its remote wait, whether the condition that ends the wait has been met, PIN, whether its resume entry has been created; and what the device keeps
beside the frame: its number, the waiting instructions of its splits with the operands they have read, its MTILE, its index in its team, the lanes of its handler,
whether it has settled its team's future, and what R160 has it remember. -/
structure Parked where
  tid : Nat
  frame : Nat
  team : Nat
  kind : Nat
  waitOn : Word
  request : Option Nat
  ready : Bool
  pin : Bool
  entered : Bool
  idx : Nat
  hlanes : Mask
  settled : Bool
  mtile : Option MTile
  waits : List (Nat × Wait)
  seen : List Record
  seenMore : Bool
  window : Option Scope
deriving DecidableEq, Repr

/-- The index space of a tile launch and the tiles not yet drawn, by logical die and slice (R261), and those in flight. -/
structure Tiles where
  nx : Nat
  ny : Nat
  nz : Nat
  ax : Nat
  ay : Nat
  az : Nat
  sh : Nat
  undrawn : List Nat
  reissued : List Nat
  inFlight : List Nat
deriving DecidableEq, Repr

/-- A launch record (R333 to R337): its packet, its closure and completion signal, its tiles, and TEAMS. -/
structure Launch where
  queue : Nat
  packet : Nat
  closure : Word
  csig : Word
  tiles : Option Tiles
  teams : Nat
deriving DecidableEq, Repr

/-- A context (R338 to R342, R361): its record and translation record as loaded, where it stands, and its dynamic state. `pending`: the
cycle it became pending pre-emption; `listed`: its place in the order of the run lists; `carry`: by die, the attached carry list as far
as it has not been taken, entries by the addresses of image and side record or as they were made at the switch-in (R353); `engineWaits`: pages that an engine waits for; `faultPage`: those of them whose requests were declined, with the level; `repair`: pre-empted for a
repair (R429, R430); `causes`: the contexts whose becoming runnable made it pending (R342). -/
structure Ctx where
  record : List Word
  translation : List Word
  resident : Bool
  dies : List Nat
  faulted : Bool
  pending : Option Nat
  sliceStart : Nat
  listed : Option Nat
  framesUsed : List Nat
  parked : List Parked
  launches : Tab Launch
  prqPos : Nat
  prqPosted : List (Nat × Nat × Nat)
  engineWaits : List Nat
  faultPage : List (Nat × Nat)
  carry : Tab (List (Nat × Nat × Option Entry))
  repair : Bool
  causes : List Nat
deriving DecidableEq, Repr

/-- A packet that has started and not completed (R331). -/
structure Packet where
  index : Nat
  words : List Word
  copy : Option Nat
  launch : Option Nat
  collective : Option Nat
deriving DecidableEq, Repr

/-- A hardware queue: its record words, portal counts, state with the code and ring position of its failed packet, and the packets in
progress (R322, R323); `waited`: how many waits of the next packet are satisfied (R328); `base`: the packets started before the queue was
last enabled. -/
structure HwQueue where
  w0 : Word
  w1 : Word
  accepted : Nat
  started : Nat
  completed : Nat
  faulted : Bool
  code : Nat
  failedAt : Nat
  active : List Packet
  waited : Nat
  base : Nat
deriving DecidableEq, Repr

/-! ### Host link and fabric (chapter 13) -/

/-- An answer that has arrived (R377, R379): a NACK reason, or data with its poisoned chunks and OPARG. -/
structure Answer where
  nack : Option Nat
  data : List Byte
  poi : BitVec 128
  arg : Word
deriving DecidableEq, Repr

/-- Where a loaded element goes: a lane of a vector register group, a uniform register, a half of a shape register, a quarter of a row
of a tile. -/
inductive Dest where
  | vec (r : Nat) (ty : Ty)
  | uni (r : Nat) (ty : Ty)
  | shape (r : Nat)
  | tile (r : Nat)
deriving DecidableEq, Repr

/-- What a request's answer is for (R380 to R382): elements of a load or an atomic (destination, lane, place in the answer), a store,
an accept mask, an answer kept for the split that waits for it, a chunk of a copy, a page (R388), an ordered update (R390), a
queue record in a ring of another device (R202), a collective, or nothing. -/
inductive ReqKind where
  | load (task op : Nat) (parts : List (Dest × Nat × Nat))
  | store (task op : Nat)
  | accept (task op reg : Nat) (lanes : List Mask)
  | kept (task issue : Nat) (parts : List (Nat × Nat))
  | copyRead (copy piece : Nat)
  | copyWrite (copy : Nat)
  | page (home addr : Nat)
  | hand (addr : Nat)
  | update (addr num : Nat)
  | record (task op queue pos : Nat) (r : Record)
  | coll (group cseq : Nat)
  | free
deriving DecidableEq, Repr

/-- A request sent to another device or the host and not yet answered (R372, R377), or answered and kept. -/
structure Request where
  kind : ReqKind
  frame : Option Frame
  host : Option Nat
  ctx : Nat
  since : Nat
  resends : Nat
  answer : Option Answer
deriving DecidableEq, Repr

/-- A stream's sequence numbers (R377): next to send, next to receive. -/
structure Stream where
  world : Bool
  answer : Bool
  peer : Nat
  sent : BitVec 32
  received : BitVec 32
deriving DecidableEq, Repr

/-- A write that has reached the sequencer of an ordered page and is numbered as the cycle ends (R390, R398): the writing device, where and
what it writes, and the SEQ to answer, or the task, operation and answer of a writer on this device. -/
structure OrdWrite where
  writer : Nat
  addr : Nat
  bytes : List Byte
  pmask : BitVec 128
  seq : BitVec 32
  op : Option (Nat × Nat × Nat)
deriving DecidableEq, Repr

/-- A request for a page at its home (R388): the device, whether for ownership, the SEQ to answer, the frame that will hold it, and
whether up to 256 replicas are allowed (R390), the cycle of its arrival. -/
structure PageReq where
  who : Nat
  own : Bool
  seq : BitVec 32
  frame : Nat
  many : Bool
  since : Nat
deriving DecidableEq, Repr

/-- An ordered write whose update is on its way (R390): its number, the devices that have not answered, the writer and the SEQ to
answer, or the task, operation and answer of a writer on this device. -/
structure Update where
  num : Nat
  awaiting : List Nat
  writer : Nat
  seq : BitVec 32
  op : Option (Nat × Nat × Nat)
deriving DecidableEq, Repr

/-- A shared, ordered or loose page as this device holds it (R386, R390, R391), by its home device and its address there. At the
home: OWNER and its frame, REPLICAS, the request being served, the devices it waits for, whether it waits for the FETCH, the requests
that wait behind it, the number of the next update, the updates on their way and the writes to number. At a holder: whether it is owned and valid, whether
others hold replicas, its frame and when that was installed, the next update to apply, the PAGE_DATA parts received, the request it has
made, and the owner's frame when the load is to be made there (R387). -/
structure Page where
  home : Nat
  addr : Nat
  world : Bool
  owner : Nat
  ownerFrame : Nat
  replicas : List Nat
  serving : Option PageReq
  awaiting : List Nat
  fetching : Bool
  waiting : List PageReq
  nextUpdate : Nat
  updates : List Update
  arriving : List OrdWrite
  owned : Bool
  valid : Bool
  shared : Bool
  frame : Option Nat
  installed : Nat
  applied : Nat
  parts : List Nat
  asked : Option Bool
  away : Option (Nat × Nat)
deriving DecidableEq, Repr

/-- A collective (R392 to R397): the packet of this rank once it has started, its words 4 and 7, where its buffers lie, the parameters
that the ranks have sent, the bytes that have arrived by rank and offset with their poison, the code with which it is aborted, and whether it is over. -/
structure Collective where
  group : Nat
  cseq : Nat
  packet : Option (Nat × Nat)
  ctx : Nat
  words : List Word
  src : List (Nat × Nat)
  dst : List (Nat × Nat)
  params : List (Nat × List Word)
  blocks : List (Nat × Nat × List (Byte × Bool))
  aborted : Option Nat
  ended : Bool
deriving DecidableEq, Repr

/-- What leaves the device, in order: frames, TLPs to the host, DMWr answers, configuration and SPDM answers, firmware notices. -/
inductive Out where
  | frame (port : Nat) (f : Frame)
  | hostRead (tag addr size : Nat) (secure : Bool)
  | hostWrite (addr : Nat) (bytes : List Byte) (secure poisoned : Bool)
  | hostAtomic (tag addr op size : Nat) (operand compare : Word) (secure poisoned : Bool)
  | chip (addr : Nat) (bytes : List Byte)
  | atsRequest (page : Nat) (secure : Bool)
  | priRequest (page : Nat) (secure : Bool)
  | invalidationDone
  | dmwr (status : Nat)
  | readAnswer (bytes : List Byte) (poisoned : Bool)
  | unsupported
  | wakeFirmware (code : Nat)
  | spdm (bytes : List Byte)
  | mail (w : Word)
  | config (retry : Bool) (value : Elem)
  | uncorrectable
deriving DecidableEq, Repr

/-- An error record (R418): type, cause, reason, detail, address, auxiliary word, context. -/
structure ErrRec where
  kind : Nat
  cause : Nat
  reason : Nat
  addr : Word
  aux : Word
  unit : Nat
deriving DecidableEq, Repr

/-- A task's wait on a future (R314): the future, the task and the entry of its split table, and the future as it stood after the first
update that satisfied the wait (R199). -/
structure Link where
  pa : Nat
  tid : Nat
  e : Nat
  got : Option (Nat × Nat)
deriving DecidableEq, Repr

/-- A wait of another device (R382): its frame, and the object as it stood after the first update that satisfied the wait. -/
structure RemoteWait where
  frame : Frame
  got : Option (Nat × Nat)
deriving DecidableEq, Repr

/-- The machine without its firmware: everything a task's instruction can reach. `ats`: the cache of translations of the host link (R372);
`atsAsked`: the pages whose translation it has asked for, whether an engine waits, and the world (R370); `atsRefused`: those refused to an engine.
`links`: the waits on futures (LINK: DESIGN CHOICE, log 9); `remoteWaits`: the waits of other devices (R382); `wanted`: the contexts that need a frame of their page cache (R389); `keys`: the number of the carve-out keys in use (R405); `collNext`: by group, the CSEQ after that of the collective that ended last
(R397); `posted`: the error records of this cycle, each with its context and its place in the order of R418; `upsets`: the words of L2 in which an error is still to be found, with the bits that it has left (R403); `held`: frames
whose port is paused (R373). -/
structure Mach where
  tasks : Tab Task
  teams : Tab Team
  cores : Tab Core
  dies : Tab Die
  mem : Memory
  holder : Tab Nat
  record : Tab Record
  seals : Tab Seal
  resident : List Nat
  ctxs : Tab Ctx
  queues : Tab HwQueue
  spawnqs : Tab SpawnQ
  copies : Tab Copy
  credits : List Credit
  requests : Tab Request
  streams : List Stream
  pages : List Page
  collectives : List Collective
  links : List Link
  remoteWaits : List RemoteWait
  wanted : List Nat
  held : List Frame
  ats : List (Nat × Nat)
  atsAsked : List (Nat × Bool × Bool)
  atsRefused : List Nat
  paused : List (Nat × Nat)
  trbase : Word
  xdev : BitVec 12
  routes : List (Bool × Nat × BitVec 16)
  pdoms : Tab Nat
  carveOuts : List Nat
  exports : List (Bool × Nat)
  groups : Tab (List Nat)
  logCores : Nat
  clk : Nat
  xclk : Word
  xclkNext : Option Word
  nextId : Nat
  keys : Nat
  collNext : Tab Nat
  serviceRecords : List (List Word)
  deviceLog : List ErrRec
  posted : List (Nat × Nat × List Word)
  upsets : List (Nat × Elem)
  out : List Out
deriving DecidableEq, Repr

/-! ### Firmware, ageing and links (chapters 14 and 15) -/

/-- A wear record (R427), by the number of its domain: 2048 KIND + 256 DIE + PHYS. `stopped`: R428 has stopped the domain since its latest
sample. HOURS and SPARE are computed from the device. -/
structure Wear where
  retired : Bool
  marked : Bool
  stopped : Bool
  voff : Fin 25
  margin : Nat
deriving DecidableEq, Repr

/-- DEVSTAT.STATE (R426). -/
inductive DevState where
  | boot | normal | service | failed
deriving DecidableEq, Repr

/-- A firmware image: the range of MAJOR that it accepts, its own MAJOR and MINOR (R435, R436) and its security version (R439). -/
structure FwImage where
  lo : Nat
  hi : Nat
  major : Nat
  minor : Nat
  version : Nat
deriving DecidableEq, Repr

/-- The firmware and what lasts across resets (R426 to R442): the state, the active complex (true: Phosphor), whether the standby runs; the
live update (0 none, 1 loaded, 2 frozen, 3 imported); wear records, the sparing map of cores (by die and logical core) and of channels;
the images of the complexes, MAJOR and MINOR of the table in use and its takeover count, the fused version; the latest heartbeat; power and
clocks, the clock cap in steps of 125 MHz; by module the cycles of its replays, its failed lanes, and the flit being repeated with its
count; whether SPDM algorithms are agreed; powered seconds; requests that wait for the takeover. -/
structure Firm where
  state : DevState
  active : Bool
  standby : Bool
  updating : Nat
  wear : Tab Wear
  sparing : Tab Nat
  channels : Tab Nat
  hesper : FwImage
  phosphor : FwImage
  table : Nat × Nat
  takeovers : Nat
  version : Nat
  heartbeat : Nat
  powered : Bool
  tripped : Bool
  cap : Nat
  linkReplays : Tab (List Nat)
  linkLanes : Tab (List Nat)
  unacked : Tab (Nat × Nat)
  agreed : Bool
  seconds : Nat
  mails : List Mail
deriving DecidableEq, Repr

/-- The state of the device: the machine, its firmware, the events still to happen (DESIGN CHOICE, log 1) and the grants of the cycle (R239). -/
structure State where
  m : Mach
  fw : Firm
  sched : List Instr
  grants : List (Nat × Nat)
  granted : Bool
deriving DecidableEq, Repr

/-- Why the machine stops. -/
inductive Fault where
  /-- Raised by every program instruction in a state in which no split is granted to issue it. Safe: the hardware has no such step. -/
  | noIssuingSplit
  /-- Raised by every step but a reset while the module has no power or a thermal trip has stopped every clock (R442). Safe: nothing
  happens then. -/
  | clocksStopped
deriving DecidableEq, Repr

/-- Why a step has no meaning. -/
inductive Refusal where
  /-- Raised by an instruction that has no meaning yet. Safe: nothing is claimed of it. -/
  | notModelled (mnemonic : String)
deriving DecidableEq, Repr

/-- The machine with nothing in it: no task exists (R40), memory lists nothing. -/
def Mach.empty : Mach where
  tasks := []
  teams := []
  cores := []
  dies := []
  mem := ⟨[], []⟩
  holder := []
  record := []
  seals := []
  resident := []
  ctxs := []
  queues := []
  spawnqs := []
  copies := []
  credits := []
  requests := []
  streams := []
  pages := []
  collectives := []
  links := []
  remoteWaits := []
  wanted := []
  held := []
  ats := []
  atsAsked := []
  atsRefused := []
  paused := []
  trbase := 0
  xdev := 0
  routes := []
  pdoms := []
  carveOuts := []
  exports := []
  groups := []
  logCores := 72
  clk := 0
  xclk := 0
  xclkNext := none
  nextId := 0
  keys := 0
  collNext := []
  serviceRecords := []
  deviceLog := []
  posted := []
  upsets := []
  out := []

/-- The firmware of a part as shipped (R4, R426, R427): nothing is worn, no core is spared; the images and their numbers are 0 (DESIGN CHOICE, log 14). -/
def Firm.shipped : Firm where
  state := .boot
  active := false
  standby := false
  updating := 0
  wear := []
  sparing := []
  channels := []
  hesper := ⟨0, 0, 0, 0, 0⟩
  phosphor := ⟨0, 0, 0, 0, 0⟩
  table := (0, 0)
  takeovers := 0
  version := 0
  heartbeat := 0
  powered := true
  tripped := false
  cap := 0
  linkReplays := []
  linkLanes := []
  unacked := []
  agreed := false
  seconds := 0
  mails := []

/-- The device right after a reset, before the bring-up order of R441 has run. -/
def State.reset : State where
  m := Mach.empty
  fw := Firm.shipped
  sched := []
  grants := []
  granted := false

end Sys2Proof.Machine
end

