-- ==== Sys2Proof/Machine/Assoc.lean ====
section
/-! DEFINITION. Keyed lists with rising keys, lane masks, and bytes in little-endian order (R11, R14). -/

namespace Sys2Proof.Machine

/-- The entry of a key. -/
def tabGet {α : Type} : Tab α → Nat → Option α
  | [], _ => none
  | (k, a) :: rest, key => if k == key then some a else tabGet rest key

/-- Put an entry at its place among rising keys. -/
def tabSet {α : Type} : Tab α → Nat → α → Tab α
  | [], key, a => [(key, a)]
  | (k, b) :: rest, key, a =>
    if k == key then (key, a) :: rest
    else if key < k then (key, a) :: (k, b) :: rest
    else (k, b) :: tabSet rest key a

/-- Remove a key. -/
def tabErase {α : Type} : Tab α → Nat → Tab α
  | [], _ => []
  | (k, b) :: rest, key => if k == key then rest else (k, b) :: tabErase rest key

/-- The entry of a key, or a default. -/
def tabGetD {α : Type} (t : Tab α) (key : Nat) (d : α) : α := (tabGet t key).getD d

/-- Change the entry of a key if there is one. -/
def tabMod {α : Type} (t : Tab α) (key : Nat) (f : α → α) : Tab α :=
  match tabGet t key with
  | some a => tabSet t key (f a)
  | none => t

/-- Insert a number into a rising list, once. -/
def insertNat : List Nat → Nat → List Nat
  | [], a => [a]
  | b :: rest, a => if a == b then b :: rest else if a < b then a :: b :: rest else b :: insertNat rest a

/-- Put an element before the first one that it may stand before. -/
def insertBy {α : Type} (le : α → α → Bool) (a : α) : List α → List α
  | [] => [a]
  | b :: rest => if le a b then a :: b :: rest else b :: insertBy le a rest

/-- A list in the order le; elements that are equal in it keep their order. -/
def sortBy {α : Type} (le : α → α → Bool) (l : List α) : List α := l.foldr (insertBy le) []

/-- The 32 lanes in ascending order. -/
def lanes32 : List Nat := List.range 32

/-- The mask of the lanes for which `f` holds. -/
def maskOf (f : Nat → Bool) : Mask := lanes32.foldl (fun acc l => if f l then acc ||| ((1 : Mask) <<< l) else acc) 0

/-- The lanes of a mask, ascending. -/
def lanesOf (k : Mask) : List Nat := lanes32.filter fun l => k.getLsbD l

/-- The lowest lane of a mask. -/
def lowestLane (k : Mask) : Option Nat := (lanesOf k).head?

/-- The number of lanes in a mask. -/
def popCount (k : Mask) : Nat := (lanesOf k).length

/-- Element l of a list of words; 0 beyond its end. -/
def at32 (l : List Elem) (i : Nat) : Elem := l.getD i 0

/-- Replace element i of a list. -/
def setAt {α : Type} (l : List α) (i : Nat) (a : α) : List α := l.set i a

/-- n little-endian bytes of a number (R11). -/
def toBytes : Nat → Nat → List Byte
  | 0, _ => []
  | n + 1, v => BitVec.ofNat 8 v :: toBytes n (v / 256)

/-- The number whose little-endian bytes these are (R11). -/
def ofBytes (bs : List Byte) : Nat := bs.foldr (fun b acc => b.toNat + 256 * acc) 0

/-- A bit field of a word as a number. -/
def fieldOf (w : Word) (low width : Nat) : Nat := (w.toNat / 2 ^ low) % 2 ^ width

/-- Sign extension of the low n bits of a number to an integer. -/
def sextInt (n v : Nat) : Int := if 2 ^ (n - 1) ≤ v % 2 ^ n then (v % 2 ^ n : Nat) - (2 ^ n : Nat) else (v % 2 ^ n : Nat)

/-- An integer as a 64-bit word, wrapped (R144). -/
def wordOfInt (x : Int) : Word := BitVec.ofInt 64 x

/-- Round up to a multiple. -/
def roundUpTo (a n : Nat) : Nat := (a + n - 1) / n * n

end Sys2Proof.Machine
end

