-- ==== Sys2Proof/Config.lean ====
section
/-! DEFINITION. What an implementation fixes and the free values: constants with no body, so that nothing can be proved of a value the spec leaves open. -/

namespace Sys2Proof.Config

/-- Free choice number k of the model: which of two allowed values a read finds (R73, R205, R222). DESIGN CHOICE, log 5. -/
opaque pick (k : Nat) : Bool
/-- The seed that firmware gives the generator of a lane (R47 says only that it is not zero). DESIGN CHOICE, log 6. -/
opaque rngSeed (core part lane : Nat) : BitVec 32
/-- The random core that a steal request is sent to (R258). DESIGN CHOICE, log 7. -/
opaque victim (k : Nat) : Nat
/-- A free word: LINK while a task waits (R195), data of on-chip and device reads, contents of injected words, a count out of its range. DESIGN CHOICE, log 9. -/
opaque freeWord (k : Nat) : Word
/-- A free number: which free frame a park takes (R269) and other unordered choices. DESIGN CHOICE, log 10. -/
opaque freeNat (k : Nat) : Nat
/-- The result of FEXP2, FLOG2, FSIN or FCOS where the interval arithmetic of the model cannot decide the 28 bits of R110. DESIGN CHOICE, log 17. -/
opaque undecided (op : Nat) (a : BitVec 32) : BitVec 32
/-- The ciphertext of a sector of a secure carve-out under key set n (R405). DESIGN CHOICE, log 73. -/
opaque ciphertext (keys sector : Nat) (plain : List Byte) : List Byte
/-- The 32-bit KMAC256 tag over a sector's ciphertext and address under key set n (R405). DESIGN CHOICE, log 73. -/
opaque kmacTag (keys sector : Nat) (cipher : List Byte) : BitVec 32
/-- A certificate chain, digest, signature or measurement that R439 and R440 name and give no bytes of. DESIGN CHOICE, log 15. -/
opaque secret (kind index : Nat) (input : List Byte) : List Byte
/-- The answer to a mailbox request whose contents the spec does not give (R434). DESIGN CHOICE, log 15. -/
opaque mailAnswer (code : Nat) : Word
/-- What the firmware's sections fix in the header of the state table: the length, the offsets of the sections, the digest (R435). DESIGN
CHOICE, log 82. -/
opaque tableWord (takeovers i : Nat) : Word

end Sys2Proof.Config
end

