-- ==== Sys2Proof/Machine/Float.lean ====
section
/-! DEFINITION. Number formats and exact arithmetic: formats, rounding, overflow, conversion, the functions of R110 and the order of sums (R41 to R59, R109 to R118). -/

namespace Sys2Proof.Machine

/-- What a format does at its top (R41, R48): infinities and NaN; NaN only (E4M3); every encoding a number (FP6, FP4). -/
inductive Top where
  | ieee | nanOnly | finite
deriving DecidableEq, Repr

/-- A floating-point format of R41: exponent bits, mantissa bits, bias and top. -/
structure Fmt where
  ebits : Nat
  mbits : Nat
  bias : Nat
  top : Top
deriving DecidableEq, Repr

def fmtF64 : Fmt := ⟨11, 52, 1023, .ieee⟩
def fmtF32 : Fmt := ⟨8, 23, 127, .ieee⟩
def fmtF16 : Fmt := ⟨5, 10, 15, .ieee⟩
def fmtBF16 : Fmt := ⟨8, 7, 127, .ieee⟩
def fmtE4M3 : Fmt := ⟨4, 3, 7, .nanOnly⟩
def fmtE5M2 : Fmt := ⟨5, 2, 15, .ieee⟩
def fmtE3M2 : Fmt := ⟨3, 2, 3, .finite⟩
def fmtE2M3 : Fmt := ⟨2, 3, 1, .finite⟩
def fmtE2M1 : Fmt := ⟨2, 1, 1, .finite⟩

/-- The format of a type's elements (R41); the packed pair types give their half's format. -/
def fmtOf : Ty → Fmt
  | .f64 => fmtF64
  | .f16 => fmtF16 | .f16x2 => fmtF16
  | .bf16 => fmtBF16 | .bf16x2 => fmtBF16
  | .e4m3 => fmtE4M3 | .e5m2 => fmtE5M2 | .e3m2 => fmtE3M2 | .e2m3 => fmtE2M3 | .e2m1 => fmtE2M1
  | _ => fmtF32

/-- An exact value: NaN, an infinity, or (−1)^neg × m × 2^e (a zero keeps its sign). -/
inductive Num where
  | nan
  | inf (neg : Bool)
  | fin (neg : Bool) (m : Nat) (e : Int)
deriving DecidableEq, Repr

/-- The width of a format in bits. -/
def Fmt.width (f : Fmt) : Nat := 1 + f.ebits + f.mbits
/-- The exponent of the lowest subnormal bit. -/
def Fmt.qmin (f : Fmt) : Int := 1 - (f.bias : Int) - f.mbits
/-- The largest finite magnitude as bits below the sign (R41). -/
def Fmt.maxBits (f : Fmt) : Nat :=
  match f.top with
  | .ieee => (2 ^ f.ebits - 1) * 2 ^ f.mbits - 1
  | .nanOnly => 2 ^ (f.ebits + f.mbits) - 2
  | .finite => 2 ^ (f.ebits + f.mbits) - 1
/-- The canonical NaN (R43); a format without NaN takes +0 (R49). -/
def Fmt.nanBits (f : Fmt) : Nat :=
  match f.top with
  | .ieee => (2 ^ f.ebits - 1) * 2 ^ f.mbits + 2 ^ (f.mbits - 1)
  | .nanOnly => 2 ^ (f.ebits + f.mbits) - 1
  | .finite => 0
/-- Sign bit over magnitude bits. -/
def Fmt.signed (f : Fmt) (neg : Bool) (mag : Nat) : Nat := mag + if neg then 2 ^ (f.ebits + f.mbits) else 0
/-- An infinity in the format, by R48's rule for an infinite input. -/
def Fmt.infBits (f : Fmt) (neg sat : Bool) : Nat :=
  if sat then f.signed neg f.maxBits
  else match f.top with
    | .ieee => f.signed neg (f.maxBits + 1)
    | .nanOnly => f.nanBits
    | .finite => f.signed neg f.maxBits

/-- The exact value of an encoding (R41). -/
def unpackF (f : Fmt) (bits : Nat) : Num :=
  let neg := bits / 2 ^ (f.ebits + f.mbits) % 2 == 1
  let mag := bits % 2 ^ (f.ebits + f.mbits)
  let ex := mag / 2 ^ f.mbits
  let man := mag % 2 ^ f.mbits
  if f.maxBits < mag then
    (if f.top == .ieee && man == 0 then .inf neg else .nan)
  else if ex == 0 then .fin neg man f.qmin
  else .fin neg (2 ^ f.mbits + man) (f.qmin + ex - 1)

/-- The value of an E8M0 encoding (R41). -/
def unpackE8 (bits : Nat) : Num := if bits % 256 == 255 then .nan else .fin false 1 ((bits % 256 : Nat) - 127)

/-- The exact value of an element of a floating-point or E8M0 type. -/
def unpackTy (t : Ty) (bits : Nat) : Num :=
  if t == .e8m0 then unpackE8 bits else unpackF (fmtOf t) (bits % 2 ^ (fmtOf t).width)

/-- Whether a magnitude truncated to T is raised by one quantum (R46, R47): `r` of `2^sh` parts lie below T's lowest bit. -/
def roundUp (mode : Rnd) (rho : BitVec 32) (neg : Bool) (t r sh : Nat) : Bool :=
  match mode with
  | .rne => 2 ^ sh < 2 * r || (2 * r == 2 ^ sh && 0 < r && t % 2 == 1)
  | .ru => !neg && 0 < r
  | .rd => neg && 0 < r
  | .rs => 2 ^ 32 ≤ r * 2 ^ 32 / 2 ^ sh + rho.toNat
  | _ => false

/-- m × 2^e as whole quanta of 2^q, rounded (R46). -/
def quanta (mode : Rnd) (rho : BitVec 32) (neg : Bool) (m : Nat) (e q : Int) : Nat :=
  if q ≤ e then m * 2 ^ (e - q).toNat
  else
    let sh := (q - e).toNat
    let t := m / 2 ^ sh
    t + if roundUp mode rho neg t (m % 2 ^ sh) sh then 1 else 0

/-- What an overflow gives (R48). -/
def Fmt.overflow (f : Fmt) (mode : Rnd) (neg sat : Bool) : Nat :=
  let toMax := sat || mode == .rz || (mode == .ru && neg) || (mode == .rd && !neg)
  if toMax then f.signed neg f.maxBits else f.infBits neg false

/-- A non-zero magnitude rounded into the format: once, at the subnormal quantum where it underflows (R46, R48). -/
def roundF (f : Fmt) (mode : Rnd) (rho : BitVec 32) (sat neg : Bool) (m : Nat) (e : Int) : Nat :=
  let lead := e + Nat.log2 m
  let q := max f.qmin (lead - f.mbits)
  let mag := (q - f.qmin).toNat * 2 ^ f.mbits + quanta mode rho neg m e q
  if f.maxBits < mag then f.overflow mode neg sat else f.signed neg mag

/-- An exact value into a format (R43, R46 to R49). -/
def packF (f : Fmt) (mode : Rnd) (rho : BitVec 32) (sat : Bool) : Num → Nat
  | .nan => f.nanBits
  | .inf neg => f.infBits neg sat
  | .fin neg m e => if m == 0 then f.signed neg 0 else roundF f mode rho sat neg m e

/-- An exact value into E8M0 (R49): the magnitude as a power of two, rounded as a linear value, then clamped. An infinity gives 0xFF, also
with `.sat`: R49 rules on E8M0, R48's row on max does not name it (DESIGN CHOICE, log 71). -/
def packE8 (mode : Rnd) (rho : BitVec 32) : Num → Nat
  | .nan => 0xFF
  | .inf _ => 0xFF
  | .fin _ m e =>
    if m == 0 then 0
    else
      let l := Nat.log2 m
      let k := e + l
      let r := m - 2 ^ l
      let up := match mode with
        | .rne => 2 ^ l < 2 * r || (2 * r == 2 ^ l && 0 < r && (k + 127) % 2 != 0)
        | .ru => 0 < r
        | .rs => 2 ^ 32 ≤ r * 2 ^ 32 / 2 ^ l + rho.toNat
        | _ => false
      let ex := k + if up then 1 else 0
      (max (-127) (min ex 127) + 127).toNat

/-- The width in bits of an element of a type. -/
def tyBits : Ty → Nat
  | .b8 => 8 | .s8 => 8 | .z8 => 8 | .e4m3 => 8 | .e5m2 => 8 | .e8m0 => 8
  | .b16 => 16 | .s16 => 16 | .z16 => 16 | .f16 => 16 | .bf16 => 16
  | .b64 => 64 | .s64 => 64 | .z64 => 64 | .f64 => 64
  | .b128 => 128
  | .e3m2 => 6 | .e2m3 => 6
  | .e2m1 => 4
  | _ => 32

/-- Whether a type's operands are signed (R51). -/
def signedTy (t : Ty) : Bool := [Ty.s8, .s16, .s32, .s64].contains t

/-- The integer value of the low bits of an operand (R51). -/
def intVal (t : Ty) (bits : Nat) : Int :=
  let n := tyBits t
  let b := bits % 2 ^ n
  if signedTy t && 2 ^ (n - 1) ≤ b then (b : Int) - 2 ^ n else b

/-- The least and the greatest value of an integer type (R51). -/
def intRange (t : Ty) : Int × Int :=
  let n := tyBits t
  if signedTy t then (-(2 ^ (n - 1) : Nat), (2 ^ (n - 1) : Nat) - 1) else (0, (2 ^ n : Nat) - 1)

/-- An exact integer clamped to a type's range (R51). -/
def clampTy (t : Ty) (x : Int) : Int := max (intRange t).1 (min x (intRange t).2)

/-- An exact integer wrapped to n bits (R51). -/
def wrapBits (n : Nat) (x : Int) : Nat := (x % (2 ^ n : Nat)).toNat

/-- An exact result in the type's width: wrapped, or clamped with `.sat` (R51). -/
def narrow (t : Ty) (sat : Bool) (x : Int) : Nat := wrapBits (tyBits t) (if sat then clampTy t x else x)

/-- An exact value rounded to an integer in a mode (R46, R47). -/
def roundInt (mode : Rnd) (rho : BitVec 32) (neg : Bool) (m : Nat) (e : Int) : Int :=
  let t := quanta mode rho neg m e 0
  if neg then -(t : Int) else t

/-- Floating point or E8M0 to an integer type: always saturating; NaN gives 0 (R49). -/
def numToInt (t : Ty) (mode : Rnd) (rho : BitVec 32) : Num → Int
  | .nan => 0
  | .inf neg => if neg then (intRange t).1 else (intRange t).2
  | .fin neg m e => clampTy t (roundInt mode rho neg m e)

/-- An exact integer as an exact value. -/
def intNum (x : Int) : Num := .fin (x < 0) x.natAbs 0

/-- A narrow integer result extended to its place: to 32 bits for narrow types (R114). -/
def placeInt (t : Ty) (x : Int) : Nat := wrapBits (if tyBits t == 64 then 64 else 32) x

/-- CVT and PACK: one element of type `st` converted to `dt` (R115), placed as R114 gives. -/
def convert (dt st : Ty) (mode : Rnd) (rho : BitVec 32) (sat : Bool) (bits : Nat) : Nat :=
  if isI dt then
    if isI st then
      let x := intVal st bits
      placeInt dt (intVal dt (narrow dt sat x))
    else placeInt dt (numToInt dt mode rho (unpackTy st bits))
  else
    let v := if isI st then intNum (intVal st bits) else unpackTy st bits
    if dt == .e8m0 then packE8 mode rho v else packF (fmtOf dt) mode rho sat v
where
  isI (t : Ty) : Bool := [Ty.s8, .s16, .s32, .s64, .z8, .z16, .z32, .z64].contains t

/-- Signed mantissa of a finite value at exponent e. -/
def signedAt (neg : Bool) (m : Nat) (e e0 : Int) : Int :=
  let v : Int := (m * 2 ^ (e - e0).toNat : Nat)
  if neg then -v else v

/-- Exact sum of two values; `rd` says whether an exact zero of unlike signs is −0 (R45, R54). -/
def addNum (rd : Bool) : Num → Num → Num
  | .nan, _ => .nan
  | _, .nan => .nan
  | .inf a, .inf b => if a == b then .inf a else .nan
  | .inf a, _ => .inf a
  | _, .inf b => .inf b
  | .fin a m e, .fin b n k =>
    let e0 := min e k
    let s := signedAt a m e e0 + signedAt b n k e0
    if s == 0 then .fin (if a == b then a else rd) 0 e0
    else .fin (s < 0) s.natAbs e0

/-- Exact product (R45, R54): ∞ × 0 is NaN. -/
def mulNum : Num → Num → Num
  | .nan, _ => .nan
  | _, .nan => .nan
  | .inf a, .inf b => .inf (a != b)
  | .inf a, .fin b n _ => if n == 0 then .nan else .inf (a != b)
  | .fin a m _, .inf b => if m == 0 then .nan else .inf (a != b)
  | .fin a m e, .fin b n k => .fin (a != b) (m * n) (e + k)

/-- The negation of a value. -/
def negNum : Num → Num
  | .nan => .nan
  | .inf a => .inf (!a)
  | .fin a m e => .fin (!a) m e

/-- Whether a is below b in the order of minimumNumber, with −0 below +0 (R45); neither is NaN. -/
def ltNum : Num → Num → Bool
  | .inf a, .inf b => a && !b
  | .inf a, _ => a
  | _, .inf b => !b
  | .fin a m e, .fin b n k =>
    let e0 := min e k
    let x := signedAt a m e e0
    let y := signedAt b n k e0
    x < y || (x == y && x == 0 && a && !b)
  | _, _ => false

/-- Whether two values are equal as numbers (R119: −0 equals +0). -/
def eqNum : Num → Num → Bool
  | .inf a, .inf b => a == b
  | .fin a m e, .fin b n k => signedAt a m e (min e k) == signedAt b n k (min e k)
  | _, _ => false

def isNan : Num → Bool
  | .nan => true
  | _ => false

/-- FMIN and FMAX: the bits of the chosen operand; the canonical NaN when both are NaN (R45, R109). -/
def minMax (f : Fmt) (isMax : Bool) (a b : Nat) : Nat :=
  let x := unpackF f a
  let y := unpackF f b
  if isNan x && isNan y then f.nanBits
  else if isNan x then b
  else if isNan y then a
  else if isMax then (if ltNum x y then b else a) else (if ltNum y x then b else a)

/-- The exact sum of a list of terms by R54's rule for a group: NaN and infinities first, then the exact sum, −0 only when
every term is −0. -/
def groupSum (terms : List Num) : Num :=
  if terms.any isNan then .nan
  else
    let pos := terms.any fun t => t == .inf false
    let neg := terms.any fun t => t == .inf true
    if pos && neg then .nan
    else if pos then .inf false
    else if neg then .inf true
    else
      let e0 := terms.foldl (fun acc t => match t with | .fin _ _ e => min acc e | _ => acc) 0
      let s := terms.foldl (fun (acc : Int) t => match t with | .fin n m e => acc + signedAt n m e e0 | _ => acc) 0
      if s == 0 then
        .fin (terms.all fun t => match t with | .fin n _ _ => n | _ => false) 0 e0
      else .fin (s < 0) s.natAbs e0

/-- The floor of the square root, by one binary digit at a time. -/
def isqrtFrom (n : Nat) : Nat → Nat → Nat
  | 0, r => r
  | k + 1, r => isqrtFrom n k (if (r + 2 ^ k) * (r + 2 ^ k) ≤ n then r + 2 ^ k else r)

def isqrt (n : Nat) : Nat := isqrtFrom n (Nat.log2 n / 2 + 1) 0

/-- √a as an exact value with one sticky bit below the bits any rounding looks at (R45): √(−0) = −0, a < 0 gives NaN (R109). -/
def sqrtNum : Num → Num
  | .nan => .nan
  | .inf neg => if neg then .nan else .inf false
  | .fin neg m e =>
    if m == 0 then .fin neg 0 e
    else if neg then .nan
    else
      let p : Nat := 256
      let m1 := if e % 2 == 0 then m else 2 * m
      let e1 := if e % 2 == 0 then e else e - 1
      let n := m1 * 2 ^ (2 * p)
      let r := isqrt n
      .fin false (2 * r + if r * r == n then 0 else 1) (e1 / 2 - p - 1)

/-- FRND: a value rounded to an integral value that keeps its sign when it becomes zero (R111). -/
def integral (mode : Rnd) : Num → Num
  | .nan => .nan
  | .inf neg => .inf neg
  | .fin neg m e => .fin neg (quanta mode 0 neg m e 0) 0

/-- The arithmetic instructions FADD, FSUB, FMUL, FFMA, FSQRT and FRND on exact values (R109). -/
inductive FOp where
  | add | sub | mul | fma | sqrt | rnd
deriving DecidableEq, Repr

/-- One element of a floating-point instruction of R109: exact, then rounded once. -/
def floatOp (f : Fmt) (op : FOp) (mode : Rnd) (rho : BitVec 32) (sat : Bool) (a b c : Nat) : Nat :=
  let x := unpackF f a
  let y := unpackF f b
  let z := unpackF f c
  let rd := mode == .rd
  match op with
  | .add => packF f mode rho sat (addNum rd x y)
  | .sub => packF f mode rho sat (addNum rd x (negNum y))
  | .mul => packF f mode rho sat (mulNum x y)
  | .fma => packF f mode rho sat (addNum rd (mulNum x y) z)
  | .sqrt => packF f mode rho sat (sqrtNum x)
  | .rnd => packF f .rne 0 false (integral mode x)

/-- FDOT2: the exact sum of two products and c, rounded once to FP32 (R113). -/
def dot2 (h : Fmt) (mode : Rnd) (rho : BitVec 32) (sat : Bool) (a b c : Nat) : Nat :=
  let x0 := unpackF h (a % 2 ^ 16)
  let x1 := unpackF h (a / 2 ^ 16 % 2 ^ 16)
  let y0 := unpackF h (b % 2 ^ 16)
  let y1 := unpackF h (b / 2 ^ 16 % 2 ^ 16)
  packF fmtF32 mode rho sat (groupSum [mulNum x0 y0, mulNum x1 y1, unpackF fmtF32 c])

/-- FCLASS: the bit of the class of an element (R112). -/
def classBit (f : Fmt) (bits : Nat) : Nat :=
  match unpackF f bits with
  | .nan => if bits / 2 ^ (f.mbits - 1) % 2 == 1 then 1 else 0
  | .inf neg => if neg then 2 else 9
  | .fin neg m _ =>
    if m == 0 then (if neg then 5 else 6)
    else if m < 2 ^ f.mbits then (if neg then 4 else 7)
    else (if neg then 3 else 8)

/-- The conditions of FCMP (R102, R119). -/
def fcond (cond : Nat) (x y : Num) : Bool :=
  let un := isNan x || isNan y
  let lt := ltNum x y && !eqNum x y
  match cond with
  | 0 => !un && eqNum x y
  | 1 => !un && lt
  | 2 => !un && (lt || eqNum x y)
  | 3 => !un && !lt && !eqNum x y
  | 4 => !un && !lt
  | 5 => un || !eqNum x y
  | 6 => un
  | _ => !un

/-! The functions of R110. Fixed-point numbers carry `prec` bits below the point; each function gives a lower and an upper
bound of the exact value, and the 28 significant bits are taken where both bounds agree. -/

/-- Bits below the point in the bounds. -/
def prec : Nat := 640

/-- The first 28 significant bits of a positive number between `lo` and `hi` quanta of 2^e, when the bounds agree on them. -/
def trunc28 (lo hi : Nat) (e : Int) : Option Num :=
  let k := Nat.log2 lo - 27
  if lo == 0 || Nat.log2 lo < 27 then none
  else if lo / 2 ^ k == hi / 2 ^ k then some (.fin false (lo / 2 ^ k) (e + k)) else none

/-- ln 2 in fixed point, from below: the sum of 1/(k 2^k); the error is below `prec` + 1 quanta. -/
def ln2Lo : Nat := (List.range prec).foldl (fun acc k => acc + 2 ^ prec / ((k + 1) * 2 ^ (k + 1))) 0
def ln2Hi : Nat := ln2Lo + prec + 2

/-- The series of atan(1/x), alternating, cut to quanta: its error is below `terms` + 1 quanta. -/
def atanInv (x terms : Nat) : Int :=
  (List.range terms).foldl (fun (acc : Int) k =>
    let t : Int := (2 ^ prec / ((2 * k + 1) * x ^ (2 * k + 1)) : Nat)
    if k % 2 == 0 then acc + t else acc - t) 0

/-- π/2 in fixed point, by Machin's formula: 8 atan(1/5) − 2 atan(1/239), with the bounds of its error. -/
def halfPiMid : Nat := (8 * atanInv 5 160 - 2 * atanInv 239 60).toNat
def halfPiLo : Nat := halfPiMid - 2048
def halfPiHi : Nat := halfPiMid + 2048

/-- Terms of e^x: x fixed point below 1; from below. -/
def expTerms (x : Nat) : Nat → Nat → Nat → Nat
  | 0, _, acc => acc
  | n + 1, term, acc =>
    let k := 160 - n
    let t := term * x / 2 ^ prec / k
    expTerms x n t (acc + t)

/-- e^x from below for fixed-point x in [0, 1); the error is below 512 quanta. -/
def expLo (x : Nat) : Nat := expTerms x 160 (2 ^ prec) (2 ^ prec)

/-- 2^a for a finite value (R110): an integer part and e^(f ln 2). -/
def exp2Num (neg : Bool) (m : Nat) (e : Int) : Option Num :=
  let fx : Int := signedAt neg (m * 2 ^ prec) e (min e 0)
  let scale : Nat := 2 ^ (-(min e 0)).toNat
  let q := fx / (scale : Int)
  let n := q / (2 ^ prec : Nat)
  let f := (q % (2 ^ prec : Nat)).toNat
  if f == 0 && fx % (scale : Int) == 0 then some (.fin false 1 n)
  else
    trunc28 (expLo (f * ln2Lo / 2 ^ prec)) (expLo ((f + 1) * ln2Hi / 2 ^ prec + 1) + 1024) (n - prec)

/-- The series 2 atanh(u) for fixed-point u at most 1/3, from below; the error is below 1,024 quanta. -/
def atanhTerms (u2 : Nat) : Nat → Nat → Nat → Nat
  | 0, _, acc => acc
  | n + 1, pw, acc =>
    let k := 2 * (219 - n) + 1
    let p := pw * u2 / 2 ^ prec
    atanhTerms u2 n p (acc + 2 * p / k)

/-- ln of 1.f for a mantissa m of l + 1 bits, from below. -/
def lnLo (m l : Nat) : Nat :=
  let u := (m - 2 ^ l) * 2 ^ prec / (m + 2 ^ l)
  atanhTerms (u * u / 2 ^ prec) 219 u (2 * u)

/-- log2 of a positive finite value (R110). -/
def log2Num (m : Nat) (e : Int) : Option Num :=
  let l := Nat.log2 m
  let n := e + l
  if m == 2 ^ l then some (intNum n)
  else
    let lo := lnLo m l
    let hi := lo + 4096
    let flo : Int := (lo * 2 ^ prec / ln2Hi : Nat)
    let fhi : Int := (hi * 2 ^ prec / ln2Lo + 1 : Nat)
    let base := n * (2 ^ prec : Nat)
    if 0 ≤ n then trunc28 (base + flo).toNat (base + fhi).toNat (-(prec : Int))
    else (trunc28 (-(base + fhi)).toNat (-(base + flo)).toNat (-(prec : Int))).map negNum

/-- The alternating series of sine (first = x, odd) or cosine (first = 1, even) for fixed-point x; x2 is its square. -/
def trigTerms (x2 : Nat) (odd : Bool) : Nat → Nat → Bool → Int → Int
  | 0, _, _, acc => acc
  | n + 1, term, minus, acc =>
    let k := 2 * (119 - n)
    let d := if odd then k * (k + 1) else k * (k - 1)
    let t := term * x2 / 2 ^ prec / d
    trigTerms x2 odd n t (!minus) (if minus then acc - t else acc + t)

def sinFix (x : Nat) : Int := trigTerms (x * x / 2 ^ prec) true 119 x true x
def cosFix (x : Nat) : Int := trigTerms (x * x / 2 ^ prec) false 119 (2 ^ prec) true ((2 ^ prec : Nat) : Int)

/-- sin or cos of a positive finite value (R110): exact reduction by π/2, then the series, with the bounds of both errors. -/
def trigNum (cosine : Bool) (m : Nat) (e : Int) : Option Num :=
  let x : Nat := if 0 ≤ e then m * 2 ^ e.toNat * 2 ^ prec else m * 2 ^ prec / 2 ^ (-e).toNat
  let k := x / halfPiMid
  let err := k * 2048 + 1
  let r := x - k * halfPiMid
  let quad := (k + if cosine then 1 else 0) % 4
  if r ≤ err + 4096 || halfPiMid ≤ r + err + 4096 then
    (if k == 0 then smallTrig else none)
  else
    let v := if quad % 2 == 0 then sinFix r else cosFix r
    let slack : Int := (err + 2048 : Nat)
    let t := trunc28 (v - slack).toNat (v + slack).toNat (-(prec : Int))
    if 2 ≤ quad then t.map negNum else t
where
  /-- A value whose reduction leaves it unchanged and tiny: sin x lies just below x and cos x just below 1. -/
  smallTrig : Option Num :=
    if cosine then trunc28 (2 ^ prec - 2) (2 ^ prec - 1) (-(prec : Int))
    else trunc28 (m * 2 ^ 64 - 2) (m * 2 ^ 64 - 1) (e - 64)

/-- The six functions of R110. -/
inductive Fun where
  | rcp | rsq | exp2 | log2 | sin | cos
deriving DecidableEq, Repr

/-- Step 3 of R110 for FRCP: 1/a to 28 bits, truncated. -/
def rcpNum (neg : Bool) (m : Nat) (e : Int) : Num :=
  let l := Nat.log2 m
  .fin neg (2 ^ (l + 28) / m) (-(l + 28 : Int) - e)

/-- Step 3 of R110 for FRSQ: 1/√a to at least 28 bits, truncated to 28. -/
def rsqNum (m : Nat) (e : Int) : Num :=
  let m1 := if e % 2 == 0 then m else 2 * m
  let e1 := if e % 2 == 0 then e else e - 1
  let r := isqrt (2 ^ 256 / m1)
  let k := Nat.log2 r - 27
  .fin false (r / 2 ^ k) (-(128 : Int) - e1 / 2 + k)

/-- The value t of R110, for every input: special inputs by its table, others by step 3. -/
def funNum (f : Fun) (a : Nat) : Option Num :=
  match f, unpackF fmtF32 a with
  | _, .nan => some .nan
  | .rcp, .inf neg => some (.fin neg 0 0)
  | .rsq, .inf neg => some (if neg then .nan else .fin false 0 0)
  | .exp2, .inf neg => some (if neg then .fin false 0 0 else .inf false)
  | .log2, .inf neg => some (if neg then .nan else .inf false)
  | .sin, .inf _ => some .nan
  | .cos, .inf _ => some .nan
  | .rcp, .fin neg m e => some (if m == 0 then .inf neg else rcpTrunc neg m e)
  | .rsq, .fin neg m e => some (if m == 0 then .inf neg else if neg then .nan else rsqNum m e)
  | .exp2, .fin neg m e => if m == 0 then some (.fin false 1 0) else if big e m then some (hugeExp neg) else exp2Num neg m e
  | .log2, .fin neg m e => if m == 0 then some (.inf true) else if neg then some .nan else log2Num m e
  | .sin, .fin neg m e => if m == 0 then some (.fin neg 0 0) else (trigNum false m e).map fun v => if neg then negNum v else v
  | .cos, .fin _ m e => if m == 0 then some (.fin false 1 0) else trigNum true m e
where
  /-- 1/a truncated to 28 bits: a power of two gives 29, an exact value. -/
  rcpTrunc (neg : Bool) (m : Nat) (e : Int) : Num := rcpNum neg m e
  /-- |a| of 2^12 or more: 2^a lies far outside FP32's range. -/
  big (e : Int) (m : Nat) : Bool := 12 ≤ e + Nat.log2 m
  hugeExp (neg : Bool) : Num := if neg then .fin false 1 (-4096) else .fin false 1 4096

/-- One element of FRCP, FRSQ, FEXP2, FLOG2, FSIN or FCOS (R110): t rounded to FP32 with `.rne`, by R50 under `.sat`. -/
def funOp (f : Fun) (sat : Bool) (a : BitVec 32) : Nat :=
  match funNum f a.toNat with
  | some v => packF fmtF32 .rne 0 sat v
  | none => (Config.undecided (match f with | .rcp => 0 | .rsq => 1 | .exp2 => 2 | .log2 => 3 | .sin => 4 | .cos => 5) a).toNat

/-- QNT's exponent of the block scale before clamping: floor(log2 of the largest magnitude) − emax (R59). -/
def qntEmax : Ty → Int
  | .e4m3 => 8
  | .e5m2 => 15
  | .e3m2 => 4
  | _ => 2

/-- The block scale of QNT from the contributing elements (R59). -/
def qntScale (t : Ty) (xs : List (BitVec 32)) : Nat :=
  let vs := xs.map fun x => unpackF fmtF32 x.toNat
  if vs.all (fun v => match v with | .fin _ m _ => m == 0 | _ => false) then 0
  else if vs.any (fun v => match v with | .fin _ _ _ => false | _ => true) then 0xFF
  else
    let top : Int := vs.foldl (fun acc v => match v with
      | .fin _ m e => if m == 0 then acc else max acc (e + Nat.log2 m)
      | _ => acc) (-1000)
    (max (-127) (min (top - qntEmax t) 127) + 127).toNat

/-- One element of QNT under a scale (R59): +0 under the scale 0xFF. -/
def qntElem (t : Ty) (mode : Rnd) (rho : BitVec 32) (scale : Nat) (x : BitVec 32) : Nat :=
  if scale == 0xFF then 0
  else
    match unpackF fmtF32 x.toNat with
    | .fin neg m e => packF (fmtOf t) mode rho true (.fin neg m (e - ((scale : Int) - 127)))
    | v => packF (fmtOf t) mode rho true v

/-- The operators of REDX and SCAN on one pair (R56, R126), by operator code and type; the mode is that of FP add. -/
def combine (op : Nat) (t : Ty) (mode : Rnd) (a b : BitVec 32) : BitVec 32 :=
  if t == .f32 then
    match op with
    | 0 => BitVec.ofNat 32 (floatOp fmtF32 .add mode 0 false a.toNat b.toNat 0)
    | 1 => BitVec.ofNat 32 (minMax fmtF32 false a.toNat b.toNat)
    | _ => BitVec.ofNat 32 (minMax fmtF32 true a.toNat b.toNat)
  else
    match op with
    | 0 => a + b
    | 1 => if t == .s32 then (if b.slt a then b else a) else (if b < a then b else a)
    | 2 => if t == .s32 then (if a.slt b then b else a) else (if a < b then b else a)
    | 3 => a &&& b
    | 4 => a ||| b
    | _ => a ^^^ b

/-- The identity of an operator (R58). -/
def identityOf (op : Nat) (t : Ty) : BitVec 32 :=
  match op with
  | 0 => if t == .f32 then 0x80000000 else 0
  | 1 => if t == .f32 then 0x7F800000 else if t == .s32 then 0x7FFFFFFF else 0xFFFFFFFF
  | 2 => if t == .f32 then 0xFF800000 else if t == .s32 then 0x80000000 else 0
  | 3 => 0xFFFFFFFF
  | _ => 0

/-- The empty result of an operator (R58). -/
def emptyOf (op : Nat) (t : Ty) : BitVec 32 := if op == 0 && t == .f32 then 0 else identityOf op t

/-- The tree of R56 over a list of a power of two values: each level combines neighbours. -/
def treeLevel (op : Nat) (t : Ty) (mode : Rnd) : List (BitVec 32) → List (BitVec 32)
  | a :: b :: rest => combine op t mode a b :: treeLevel op t mode rest
  | l => l

/-- The levels of the tree, from the lanes' own values up (R56). -/
def treeLevels (op : Nat) (t : Ty) (mode : Rnd) : Nat → List (BitVec 32) → List (List (BitVec 32))
  | 0, l => [l]
  | n + 1, l => l :: treeLevels op t mode n (treeLevel op t mode l)

/-- The first n lanes as blocks of the tree, combined from the lowest up (R57). -/
def prefixValue (op : Nat) (t : Ty) (mode : Rnd) (levels : List (List (BitVec 32))) (n : Nat) : BitVec 32 :=
  let step := fun (acc : Option (BitVec 32) × Nat) (b : Nat) =>
    if n / 2 ^ b % 2 == 1 then
      let v := ((levels.getD b []).getD (acc.2 / 2 ^ b) 0)
      (some (match acc.1 with | none => v | some u => combine op t mode u v), acc.2 + 2 ^ b)
    else acc
  (([5, 4, 3, 2, 1, 0].foldl step (none, 0)).1).getD (emptyOf op t)

/-- One k-group of MMA and MTILE on a floating-point element (R54): the group sum rounded, then added to C. -/
def fpGroup (c : BitVec 32) (terms : List Num) : BitVec 32 :=
  let g := packF fmtF32 .rne 0 false (groupSum terms)
  BitVec.ofNat 32 (floatOp fmtF32 .add .rne 0 false c.toNat g 0)

end Sys2Proof.Machine
end

