-- ==== Sys2Proof/Machine/Integer.lean ====
section
/-! DEFINITION. The integer results of one element, shared by the uniform and the vector instructions (R51, R103, R104, R106, R107). Operands are bit patterns of the type's width n. -/

namespace Sys2Proof.Machine

/-- Bits [2n−1:n] of the exact product (R103, R106). -/
def mulHigh (t : Ty) (a b : Nat) : Nat := wrapBits (tyBits t) (intVal t a * intVal t b / (2 ^ tyBits t : Nat))

/-- a shifted left; 0 when the count is n or more (R103). -/
def shiftLeft (n a b : Nat) : Nat := if n ≤ b then 0 else a * 2 ^ b % 2 ^ n
/-- a shifted right with zeros; 0 when the count is n or more (R103). -/
def shiftRight (n a b : Nat) : Nat := if n ≤ b then 0 else a / 2 ^ b
/-- a shifted right with copies of a[n−1]; all bits a[n−1] when the count is n or more (R103). -/
def shiftArith (n a b : Nat) : Nat := wrapBits n (sextInt n a / (2 ^ min b n : Nat))
/-- a rotated left by b mod n (R106). -/
def rotateLeft (n a b : Nat) : Nat := (a * 2 ^ (b % n) + a / 2 ^ (n - b % n)) % 2 ^ n

def minInt (t : Ty) (a b : Nat) : Nat := if intVal t b < intVal t a then b else a
def maxInt (t : Ty) (a b : Nat) : Nat := if intVal t a < intVal t b then b else a

/-- The number of set bits among the low n. -/
def popBits (n a : Nat) : Nat := ((List.range n).filter fun i => a.testBit i).length
/-- Leading zero bits of n; n when a is 0. -/
def leadZeros (n a : Nat) : Nat := if a == 0 then n else n - 1 - Nat.log2 a
/-- Bit i of n moved to bit n − 1 − i. -/
def reverseBits (n a : Nat) : Nat := (List.range n).foldl (fun acc i => acc + if a.testBit i then 2 ^ (n - 1 - i) else 0) 0

/-- The width E of a bit field (R104), from pos = ctl[7:0] and len = ctl[15:8]. -/
def fieldWidth (n ctl : Nat) : Nat :=
  let pos := ctl % 256
  if n ≤ pos then 0 else min (ctl / 256 % 256) (n - pos)

/-- Bit-field extract (R104). -/
def fieldExtract (t : Ty) (a ctl : Nat) : Nat :=
  let n := tyBits t
  let e := fieldWidth n ctl
  let f := a / 2 ^ (ctl % 256) % 2 ^ e
  if e == 0 then 0 else if signedTy t then wrapBits n (sextInt e f) else f

/-- Bit-field insert of a into c (R104). -/
def fieldInsert (n a c ctl : Nat) : Nat :=
  let pos := ctl % 256
  let e := fieldWidth n ctl
  c - c / 2 ^ pos % 2 ^ e * 2 ^ pos + a % 2 ^ e * 2 ^ pos

/-- VMADW: the 64-bit result of 32-bit a and b and 64-bit z (R107). -/
def madWide (t : Ty) (sat : Bool) (a b z : Nat) : Nat :=
  let wideTy := if signedTy t then Ty.s64 else Ty.z64
  narrow wideTy sat (intVal t a * intVal t b + intVal wideTy z)

/-- VADDC: the sum's low word, or its carry (R107). -/
def addCarry (carry : Bool) (a b c : Nat) : Nat :=
  let s := a + b + c % 2
  if carry then s / 2 ^ 32 % 2 else s % 2 ^ 32

end Sys2Proof.Machine
end

