-- ==== Sys2Proof/Machine/View.lean ====
section
/-! DEFINITION. The two views of an instruction that every other file uses: its major opcode with the fields of its format (R75 to R87), and the codes of the coded fields (R84, R85). -/

namespace Sys2Proof.Machine

/-- The fields of one word, by format (R78 to R83). -/
inductive Body where
  | v3 (f : FV3) | vi (f : FVI) | s (f : FS) | m (f : FM) | c (f : FC) | x (f : FX)
deriving DecidableEq, Repr

/-- The guard fields of a word, R75. -/
def Body.guard : Body → Guard
  | .v3 f => f.g | .vi f => f.g | .s f => f.g | .m f => f.g | .c f => f.g | .x f => f.g

/-- Whether the format has an EXT word, R83. -/
def Body.twoWords : Body → Bool
  | Body.x _ => true
  | _ => false

/-- The major opcode (R87) and the fields of a program instruction; none for a step or event of the device. -/
def view : Instr → Option (BitVec 8 × Body)
  | .bra x => some (0x01, .c x)
  | .brp x => some (0x02, .c x)
  | .brx x => some (0x03, .c x)
  | .brxVector x => some (0x03, .c x)
  | .sbrz x => some (0x04, .c x)
  | .sbrnz x => some (0x05, .c x)
  | .call x => some (0x06, .c x)
  | .ret x => some (0x07, .c x)
  | .jset x => some (0x08, .c x)
  | .jwait x => some (0x09, .c x)
  | .jdrop x => some (0x0A, .c x)
  | .exit x => some (0x0B, .c x)
  | .nop x => some (0x0C, .c x)
  | .smov x => some (0x10, .s x)
  | .sli x => some (0x11, .x x)
  | .sadd x => some (0x12, .s x)
  | .ssub x => some (0x13, .s x)
  | .smul x => some (0x14, .s x)
  | .smulh x => some (0x15, .s x)
  | .smad x => some (0x16, .s x)
  | .sand x => some (0x17, .s x)
  | .sor x => some (0x18, .s x)
  | .sxor x => some (0x19, .s x)
  | .snot x => some (0x1A, .s x)
  | .sshl x => some (0x1B, .s x)
  | .sshr x => some (0x1C, .s x)
  | .ssar x => some (0x1D, .s x)
  | .smin x => some (0x1E, .s x)
  | .smax x => some (0x1F, .s x)
  | .scmp x => some (0x20, .s x)
  | .ssel x => some (0x21, .s x)
  | .spopc x => some (0x22, .s x)
  | .sclz x => some (0x23, .s x)
  | .sbfe x => some (0x24, .s x)
  | .sbfi x => some (0x25, .s x)
  | .vmov x => some (0x28, .v3 x)
  | .vli x => some (0x29, .x x)
  | .vadd x => some (0x2A, .v3 x)
  | .vsub x => some (0x2B, .v3 x)
  | .vmul x => some (0x2C, .v3 x)
  | .vmulh x => some (0x2D, .v3 x)
  | .vmad x => some (0x2E, .v3 x)
  | .vmadw x => some (0x2F, .v3 x)
  | .vaddc x => some (0x30, .v3 x)
  | .vabs x => some (0x31, .v3 x)
  | .vneg x => some (0x32, .v3 x)
  | .vmin x => some (0x33, .v3 x)
  | .vmax x => some (0x34, .v3 x)
  | .vand x => some (0x35, .v3 x)
  | .vor x => some (0x36, .v3 x)
  | .vxor x => some (0x37, .v3 x)
  | .vnot x => some (0x38, .v3 x)
  | .vshl x => some (0x39, .v3 x)
  | .vshr x => some (0x3A, .v3 x)
  | .vsar x => some (0x3B, .v3 x)
  | .vrot x => some (0x3C, .v3 x)
  | .vbfe x => some (0x3D, .vi x)
  | .vbfi x => some (0x3E, .vi x)
  | .vpopc x => some (0x3F, .v3 x)
  | .vclz x => some (0x40, .v3 x)
  | .vbrev x => some (0x41, .v3 x)
  | .vsel x => some (0x42, .v3 x)
  | .vlea x => some (0x43, .v3 x)
  | .fadd x => some (0x48, .v3 x)
  | .fsub x => some (0x49, .v3 x)
  | .fmul x => some (0x4A, .v3 x)
  | .ffma x => some (0x4B, .v3 x)
  | .fmin x => some (0x4C, .v3 x)
  | .fmax x => some (0x4D, .v3 x)
  | .fabs x => some (0x4E, .v3 x)
  | .fneg x => some (0x4F, .v3 x)
  | .frcp x => some (0x50, .v3 x)
  | .frsq x => some (0x51, .v3 x)
  | .fsqrt x => some (0x52, .v3 x)
  | .fexp2 x => some (0x53, .v3 x)
  | .flog2 x => some (0x54, .v3 x)
  | .fsin x => some (0x55, .v3 x)
  | .fcos x => some (0x56, .v3 x)
  | .frnd x => some (0x57, .v3 x)
  | .fclass x => some (0x58, .vi x)
  | .fdot2 x => some (0x59, .v3 x)
  | .cvt x => some (0x5C, .v3 x)
  | .pack x => some (0x5D, .v3 x)
  | .unpk x => some (0x5E, .vi x)
  | .qnt x => some (0x5F, .v3 x)
  | .vcmp x => some (0x60, .v3 x)
  | .fcmp x => some (0x61, .v3 x)
  | .pand x => some (0x62, .v3 x)
  | .por x => some (0x63, .v3 x)
  | .pxor x => some (0x64, .v3 x)
  | .pnot x => some (0x65, .v3 x)
  | .pmov x => some (0x66, .v3 x)
  | .psets x => some (0x67, .vi x)
  | .psetsImm x => some (0x67, .vi x)
  | .pgets x => some (0x68, .vi x)
  | .shfl x => some (0x70, .vi x)
  | .bcast x => some (0x71, .vi x)
  | .ballot x => some (0x72, .v3 x)
  | .vote x => some (0x73, .v3 x)
  | .redx x => some (0x74, .v3 x)
  | .scan x => some (0x75, .v3 x)
  | .match x => some (0x76, .v3 x)
  | .ld x => some (0x80, .m x)
  | .st x => some (0x81, .m x)
  | .lds x => some (0x82, .m x)
  | .sts x => some (0x83, .m x)
  | .ldn x => some (0x84, .m x)
  | .stn x => some (0x85, .m x)
  | .pref x => some (0x86, .m x)
  | .atom x => some (0x87, .m x)
  | .atoms x => some (0x88, .m x)
  | .red x => some (0x89, .m x)
  | .fence x => some (0x8A, .m x)
  | .mwait x => some (0x8B, .m x)
  | .seal x => some (0x8C, .m x)
  | .unseal x => some (0x8D, .m x)
  | .ptest x => some (0x90, .v3 x)
  | .pclr x => some (0x91, .v3 x)
  | .psel x => some (0x92, .v3 x)
  | .pinj x => some (0x93, .v3 x)
  | .sigchk x => some (0x94, .c x)
  | .sigrd x => some (0x95, .s x)
  | .trap x => some (0x98, .c x)
  | .tret x => some (0x99, .c x)
  | .srd x => some (0x9A, .vi x)
  | .srdVector x => some (0x9A, .vi x)
  | .swr x => some (0x9B, .vi x)
  | .svc x => some (0x9C, .c x)
  | .eret x => some (0x9F, .c x)
  | .halt x => some (0x9E, .c x)
  | .tlbi x => some (0x9D, .m x)
  | .spawn x => some (0xA0, .x x)
  | .spawnHeader x => some (0xA0, .x x)
  | .tend x => some (0xA1, .c x)
  | .tendValue x => some (0xA1, .c x)
  | .yield x => some (0xA2, .c x)
  | .role x => some (0xA3, .x x)
  | .tfetch x => some (0xA4, .s x)
  | .tdone x => some (0xA5, .s x)
  | .joinf x => some (0xA6, .m x)
  | .fprobe x => some (0xA7, .m x)
  | .fset x => some (0xA8, .m x)
  | .ffail x => some (0xA9, .m x)
  | .sgadd x => some (0xAA, .m x)
  | .sgwait x => some (0xAB, .m x)
  | .qpush x => some (0xAC, .m x)
  | .qflush x => some (0xAD, .m x)
  | .qstat x => some (0xAE, .m x)
  | .cpy x => some (0xB0, .x x)
  | .cpyl x => some (0xB1, .m x)
  | .cpyg x => some (0xB2, .x x)
  | .bari x => some (0xB8, .m x)
  | .bara x => some (0xB9, .m x)
  | .barx x => some (0xBA, .m x)
  | .barp x => some (0xBC, .m x)
  | .barw x => some (0xBB, .m x)
  | .qld x => some (0xC0, .m x)
  | .qst x => some (0xC1, .m x)
  | .qset x => some (0xC2, .vi x)
  | .qget x => some (0xC3, .vi x)
  | .skwin x => some (0xD0, .vi x)
  | .mma x => some (0xC8, .x x)
  | .mtile x => some (0xC9, .x x)
  | .mrsv x => some (0xCA, .c x)
  | .mrel x => some (0xCB, .c x)
  | .aclr x => some (0xCC, .v3 x)
  | .amovToVector x => some (0xCD, .v3 x)
  | .amovToTile x => some (0xCD, .v3 x)
  | .amovTile x => some (0xCD, .v3 x)
  | .ald x => some (0xCE, .m x)
  | .ast x => some (0xCF, .m x)
  | .flagCompletion _ _ => none
  | .mtileStepRetire _ => none
  | .waitSatisfied _ _ => none
  | .joinComplete _ _ => none
  | .splitPlacement _ => none
  | .splitMerge _ _ => none
  | .issueGrant => none
  | .promotion _ _ => none
  | .refill _ => none
  | .takeEntry _ => none
  | .admitEntry _ => none
  | .stagingComplete _ => none
  | .stagingFault _ => none
  | .meridianPublish => none
  | .stealRequestServed _ => none
  | .crossDieSteal _ => none
  | .stealReply _ => none
  | .writebackRequest _ _ => none
  | .park _ => none
  | .resumeEntryCreate _ _ => none
  | .resume _ => none
  | .teamFutureCompletion _ => none
  | .barrierCredit _ => none
  | .copyCompletion _ => none
  | .queueSpawn _ => none
  | .flushTimerExpiry _ => none
  | .queueTileEnd _ _ => none
  | .watchdogStop _ => none
  | .haltTimeout _ _ => none
  | .l1Eviction _ _ => none
  | .l2Eviction _ => none
  | .hbmFill _ _ _ _ => none
  | .controlArrayError _ => none
  | .tlbMissWalk _ => none
  | .walkComplete _ _ => none
  | .walkBoundExceeded _ _ => none
  | .pageRequestResponse _ _ => none
  | .portalDmwr _ _ _ _ => none
  | .portalPostedWrite _ => none
  | .nopPacket _ => none
  | .launchRoot _ => none
  | .launchTile _ => none
  | .copy _ => none
  | .signal _ => none
  | .wait _ => none
  | .writeThenSignal _ => none
  | .fencePacket _ => none
  | .collective _ => none
  | .queueInitEnable _ => none
  | .queueInitDisable _ => none
  | .timestamp _ => none
  | .launchComplete _ _ => none
  | .queueRecordWrite _ _ _ => none
  | .registerWrite _ _ => none
  | .sliceExpiry _ => none
  | .preemptPending _ => none
  | .preemptWithdraw _ => none
  | .discardTeam _ => none
  | .quiescencePark _ => none
  | .graceExpiry _ => none
  | .switchOut _ => none
  | .switchIn _ _ => none
  | .hostBar4Write _ _ _ _ => none
  | .hostBar4Read _ _ _ => none
  | .hostCompletion _ _ _ => none
  | .atsInvalidation _ _ => none
  | .priResponse _ _ => none
  | .write _ => none
  | .read _ => none
  | .atomic _ => none
  | .qpushFrame _ => none
  | .waitreg _ => none
  | .qctl _ => none
  | .replReq _ => none
  | .ownReq _ => none
  | .inval _ => none
  | .fetch _ => none
  | .pageData _ => none
  | .grant _ => none
  | .fpcEviction _ => none
  | .ordWrite _ => none
  | .ordUpdate _ => none
  | .looseUpdate _ => none
  | .collParam _ => none
  | .collData _ => none
  | .collectiveEndEarly _ _ => none
  | .resp _ => none
  | .ack _ => none
  | .nack _ => none
  | .frameDiscard _ => none
  | .frameRetransmit _ => none
  | .flitReplay _ _ => none
  | .linkRepair _ _ => none
  | .almanacSample _ => none
  | .coreSpare _ _ => none
  | .stepDown => none
  | .channelSpare _ => none
  | .domainStop _ => none
  | .deviceFail _ => none
  | .powerCap _ => none
  | .thermalTrip _ => none
  | .heartbeatMiss => none
  | .liveUpdateLoad _ _ _ _ _ _ => none
  | .liveUpdateFreeze => none
  | .stateTableImport _ => none
  | .takeover => none
  | .mailboxRequest _ => none
  | .getVersion => none
  | .getCapabilities => none
  | .negotiateAlgorithms _ _ => none
  | .getDigests => none
  | .getCertificate _ _ _ => none
  | .challenge _ _ => none
  | .getMeasurements _ _ => none
  | .coldReset => none
  | .warmReset => none
  | .atsTranslationCompletion _ _ => none
  | .softError _ _ => none
  | .moduleUnpowered => none
  | .priorityFlowControl _ _ _ => none
  | .configurationRequest _ _ => none

/-- The code of TYPE, R84. -/
def tyCode : Ty → BitVec 5
  | .b8 => 0x00
  | .b16 => 0x01
  | .b32 => 0x02
  | .b64 => 0x03
  | .b128 => 0x04
  | .s8 => 0x05
  | .s16 => 0x06
  | .s32 => 0x07
  | .s64 => 0x08
  | .z8 => 0x09
  | .z16 => 0x0A
  | .z32 => 0x0B
  | .z64 => 0x0C
  | .f16 => 0x0D
  | .bf16 => 0x0E
  | .f32 => 0x0F
  | .f64 => 0x10
  | .f16x2 => 0x11
  | .bf16x2 => 0x12
  | .e4m3 => 0x13
  | .e5m2 => 0x14
  | .e3m2 => 0x15
  | .e2m3 => 0x16
  | .e2m1 => 0x17
  | .e8m0 => 0x18
  | .rsv19 => 0x19
  | .rsv1A => 0x1A
  | .rsv1B => 0x1B
  | .rsv1C => 0x1C
  | .rsv1D => 0x1D
  | .rsv1E => 0x1E
  | .rsv1F => 0x1F

/-- The code of TYPE, R84. Read back from its code. -/
def tyOf (b : BitVec 5) : Ty :=
  match b.toNat with
  | 0 => .b8
  | 1 => .b16
  | 2 => .b32
  | 3 => .b64
  | 4 => .b128
  | 5 => .s8
  | 6 => .s16
  | 7 => .s32
  | 8 => .s64
  | 9 => .z8
  | 10 => .z16
  | 11 => .z32
  | 12 => .z64
  | 13 => .f16
  | 14 => .bf16
  | 15 => .f32
  | 16 => .f64
  | 17 => .f16x2
  | 18 => .bf16x2
  | 19 => .e4m3
  | 20 => .e5m2
  | 21 => .e3m2
  | 22 => .e2m3
  | 23 => .e2m1
  | 24 => .e8m0
  | 25 => .rsv19
  | 26 => .rsv1A
  | 27 => .rsv1B
  | 28 => .rsv1C
  | 29 => .rsv1D
  | 30 => .rsv1E
  | _ => .rsv1F

/-- The code of RND, R85. -/
def rndCode : Rnd → BitVec 3
  | .rne => 0x00
  | .rz => 0x01
  | .ru => 0x02
  | .rd => 0x03
  | .rs => 0x04
  | .rsv5 => 0x05
  | .rsv6 => 0x06
  | .rsv7 => 0x07

/-- The code of RND, R85. Read back from its code. -/
def rndOf (b : BitVec 3) : Rnd :=
  match b.toNat with
  | 0 => .rne
  | 1 => .rz
  | 2 => .ru
  | 3 => .rd
  | 4 => .rs
  | 5 => .rsv5
  | 6 => .rsv6
  | _ => .rsv7

/-- The code of ORD, R85. -/
def ordCode : Ord' → BitVec 3
  | .rlx => 0x00
  | .acq => 0x01
  | .rel => 0x02
  | .ar => 0x03
  | .sc => 0x04
  | .rsv5 => 0x05
  | .rsv6 => 0x06
  | .rsv7 => 0x07

/-- The code of ORD, R85. Read back from its code. -/
def ordOf (b : BitVec 3) : Ord' :=
  match b.toNat with
  | 0 => .rlx
  | 1 => .acq
  | 2 => .rel
  | 3 => .ar
  | 4 => .sc
  | 5 => .rsv5
  | 6 => .rsv6
  | _ => .rsv7

/-- The code of SCOPE, R85. -/
def scopeCode : Scope → BitVec 3
  | .team => 0x00
  | .core => 0x01
  | .die => 0x02
  | .dev => 0x03
  | .fab => 0x04
  | .sys => 0x05
  | .rsv6 => 0x06
  | .rsv7 => 0x07

/-- The code of SCOPE, R85. Read back from its code. -/
def scopeOf (b : BitVec 3) : Scope :=
  match b.toNat with
  | 0 => .team
  | 1 => .core
  | 2 => .die
  | 3 => .dev
  | 4 => .fab
  | 5 => .sys
  | 6 => .rsv6
  | _ => .rsv7

/-- The code of KA, KB, KC or KR, R82, R85. -/
def kindCode : Kind → BitVec 2
  | .vec => 0x00
  | .uni => 0x01
  | .imm => 0x02
  | .rsv => 0x03

/-- The code of KA, KB, KC or KR, R82, R85. Read back from its code. -/
def kindOf (b : BitVec 2) : Kind :=
  match b.toNat with
  | 0 => .vec
  | 1 => .uni
  | 2 => .imm
  | _ => .rsv

/-- The code of FL, R72. -/
def flagCode : FlagSel → BitVec 2
  | .none => 0x00
  | .setA => 0x01
  | .setB => 0x02
  | .rsv => 0x03

/-- The code of FL, R72. Read back from its code. -/
def flagOf (b : BitVec 2) : FlagSel :=
  match b.toNat with
  | 0 => .none
  | 1 => .setA
  | 2 => .setB
  | _ => .rsv

/-- The code of TYPE as a number, by which R84 orders it. -/
def tyNum (t : Ty) : Nat := (tyCode t).toNat

/-- The flag-setting instructions, R72. -/
def flagSetting (op : BitVec 8) : Bool :=
  [0x80, 0x82, 0x84, 0x87, 0x88, 0xA7, 0xAE, 0xC0, 0xCE, 0xAC, 0xC8, 0xC9, 0x81, 0x83, 0x85, 0x89, 0xC1, 0xCF,
   0xB0, 0xB1, 0xB2].contains op

/-- The flag-setting instructions that write a register and so must select a flag, R72. -/
def flagWrites (op : BitVec 8) : Bool :=
  [0x80, 0x82, 0x84, 0x87, 0x88, 0xA7, 0xAE, 0xC0, 0xCE, 0xAC, 0xC8, 0xC9].contains op

/-- The clause-ending instructions, R68. -/
def clauseEnding (op : BitVec 8) : Bool :=
  [0x01, 0x02, 0x03, 0x04, 0x05, 0x06, 0x07, 0x09, 0x0B, 0xA1, 0xA2, 0x98, 0x99, 0x9C, 0x9E, 0x9F].contains op

/-- The supervisor-only instructions PINJ, TLBI, HALT and ERET, R88. -/
def supervisorOnly (op : BitVec 8) : Bool :=
  [0x93, 0x9D, 0x9E, 0x9F].contains op

/-- The uniform subset that the firmware complexes execute, R88. -/
def uniformSubset (op : BitVec 8) : Bool :=
  (0x10 ≤ op && op ≤ 0x25) ||
  [0x01, 0x04, 0x05, 0x06, 0x07, 0x0C, 0x0B, 0x80, 0x81, 0x87, 0x8A, 0x98, 0x9C, 0x9A, 0x9B, 0x9D, 0x9E, 0x9F].contains op

end Sys2Proof.Machine
end

