-- ==== Sys2Proof/Machine/Checks.lean ====
section
/-! DEFINITION. The encoding checks: every encoding fault of an instruction word with its reason and syndrome, and the one that is reported (R22, R66 to R90). -/

namespace Sys2Proof.Machine

/-- One encoding fault (R89): the reason of xsyn[23:16], the order among faults of that reason, and xsyn[15:0]. -/
structure EncFault where
  reason : Nat
  rank : Nat
  syn : BitVec 16
deriving DecidableEq, Repr

/-- What the checks depend on beside the word: the allotment (R18), the header's set flags (R72), the slot and NSLOT (R67,
R68), and whether a firmware complex executes it (R88). -/
structure Env where
  vregs : Nat
  uregs : Nat
  tiles : Nat
  setA : Bool
  setB : Bool
  slot : Nat
  nslot : Nat
  onComplex : Bool
deriving DecidableEq, Repr

/-- The environment that refuses the least: the largest allotment, both set flags valid, a last slot with room for an EXT word. -/
def Env.largest (twoWords : Bool) : Env :=
  ⟨256, 64, 64, true, true, if twoWords then 6 else 7, 7, false⟩

/-- A fault at a field of word 0 whose lowest bit is `low` (R89: the highest such field is reported). -/
def fault0 (reason low : Nat) : EncFault := ⟨reason, 64 - low, BitVec.ofNat 16 low⟩

/-- A fault at a field of EXT: reported after every field of word 0, with xsyn[8] set for reasons 0x03 and 0x04. -/
def faultX (reason low : Nat) : EncFault :=
  ⟨reason, 200 - low, BitVec.ofNat 16 (if reason ≤ 4 then 256 + low else low)⟩

/-- A requirement on a field of word 0. -/
def need (ok : Bool) (reason low : Nat) : List EncFault := if ok then [] else [fault0 reason low]

/-- A requirement on a field of EXT. -/
def needX (ok : Bool) (reason low : Nat) : List EncFault := if ok then [] else [faultX reason low]

/-- A field that the description restricts to zero: reason 0x03 (R89). -/
def zero {n : Nat} (v : BitVec n) (low : Nat) : List EncFault := need (v == 0) 0x03 low

/-- A field that the description does not name: reason 0x04 (R90). -/
def unnamed {n : Nat} (v : BitVec n) (low : Nat) : List EncFault := need (v == 0) 0x04 low

/-- The bits of a field from bit `start` up must be zero. The lowest bit that a fault names is that of the restricted part (DESIGN
CHOICE, log 70). -/
def highZero {n : Nat} (v : BitVec n) (start low : Nat) (reason : Nat := 0x03) : List EncFault :=
  need (v.toNat >>> start == 0) reason (low + start)

/-- A field limited to the values up to `top`. -/
def atMost {n : Nat} (v : BitVec n) (top low : Nat) : List EncFault := need (v.toNat ≤ top) 0x03 low

/-- TYPE: a reserved code has reason 0x03, a type the instruction does not accept 0x09 (R84, R89), also where the description fixes the
one type (DESIGN CHOICE, log 70). -/
def typeIn (ok : List Ty) (t : Ty) (low : Nat) : List EncFault :=
  if 0x19 ≤ tyNum t then [fault0 0x03 low] else need (ok.contains t) 0x09 low

/-- TYPE in an instruction whose description does not name it. -/
def typeUnnamed (t : Ty) (low : Nat) : List EncFault :=
  if 0x19 ≤ tyNum t then [fault0 0x03 low] else need (t == .b8) 0x04 low

/-- RND (R85): as TYPE, a reserved code has reason 0x03 and a mode not accepted 0x09 (DESIGN CHOICE, log 70). -/
def rndIn (ok : List Rnd) (r : Rnd) (low : Nat) : List EncFault :=
  if 5 ≤ (rndCode r).toNat then [fault0 0x03 low] else need (ok.contains r) 0x09 low

/-- SAT (R85). -/
def satIn (ok : Bool) (sat : Bool) (low : Nat) : List EncFault := need (ok || !sat) 0x09 low

/-- ORD (R85): a reserved code, 5 to 7, has reason 0x03, an order not accepted 0x09 (DESIGN CHOICE, log 70). -/
def ordIn (ok : List Ord') (o : Ord') (low : Nat) : List EncFault :=
  if 5 ≤ (ordCode o).toNat then [fault0 0x03 low] else need (ok.contains o) 0x09 low

/-- SCOPE (R85): a reserved code, 6 or 7, has reason 0x03, a scope not accepted 0x09 (DESIGN CHOICE, log 70). -/
def scopeIn (ok : List Scope) (s : Scope) (low : Nat) : List EncFault :=
  if 6 ≤ (scopeCode s).toNat then [fault0 0x03 low] else need (ok.contains s) 0x09 low

/-- The register classes an 8-bit operand field can name (R77). -/
inductive Cls where
  | v | u | a | q | p
deriving DecidableEq, Repr

/-- How many registers of a class a task may name (R18); shape registers and predicates are always present. -/
def Env.limit (e : Env) : Cls → Nat
  | .v => e.vregs
  | .u => e.uregs
  | .a => e.tiles
  | .q => 16
  | .p => 12

/-- A group of `count` registers from `r` beyond the allotment: reason 0x01 with the last register of the group (R22). -/
def beyond (e : Env) (cls : Cls) (no r count : Nat) : List EncFault :=
  if r + count - 1 < e.limit cls then [] else [⟨0x01, no, BitVec.ofNat 16 (no + 256 * ((r + count - 1) % 256))⟩]

/-- A register operand: its unused high bits (R77), its allotment (R22), and the alignment of a group (R42, reason 0x0A).
A field with high bits set has reason 0x03 alone: its other bits name no register (DESIGN CHOICE, log 70). -/
def regOf (e : Env) (cls : Cls) (no r low : Nat) (count : Nat := 1) (mult : Nat := 1) : List EncFault :=
  match cls with
  | .q => need (r < 16) 0x03 low
  | .p => need (r < 12) 0x03 low
  | .v => beyond e .v no r count ++
      if r % mult == 0 then [] else [⟨0x0A, 64 - low, BitVec.ofNat 16 (no + 256 * r)⟩]
  | c => if 64 ≤ r then [fault0 0x03 low] else beyond e c no r count ++
      if r % mult == 0 then [] else [⟨0x0A, 64 - low, BitVec.ofNat 16 (no + 256 * r)⟩]

/-- The types of the integer groups of R103 and R106. -/
def i32 : List Ty := [.b32, .s32, .z32]
def i64 : List Ty := [.b64, .s64, .z64]
def iAll : List Ty := i32 ++ i64
/-- The floating-point group FA of R109. -/
def fA : List Ty := [.f32, .f64, .f16x2, .bf16x2]
/-- The types of CVT, R114. -/
def cvtTypes : List Ty :=
  [.s8, .s16, .s32, .s64, .z8, .z16, .z32, .z64, .f16, .bf16, .f32, .f64, .e4m3, .e5m2, .e3m2, .e2m3, .e2m1, .e8m0]
/-- The packed types of R116. -/
def packTypes : List Ty := [.f16x2, .bf16x2, .e4m3, .e5m2, .e8m0, .s8, .z8, .s16, .z16, .e2m1, .e3m2, .e2m3]

/-- The rounding modes of R85. -/
def rndAll : List Rnd := [.rne, .rz, .ru, .rd, .rs]
def rndFixed : List Rnd := [.rne, .rz, .ru, .rd]

/-- Types that occupy a register pair (R42). -/
def wide (t : Ty) : Bool := [Ty.b64, .s64, .z64, .f64].contains t

/-- Registers a value of a type takes (R42). -/
def pair (t : Ty) : Nat := if wide t then 2 else 1

/-- The integer types of `.s` and `.z` form, which accept `.sat` (R51). -/
def satType (t : Ty) : Bool := [Ty.s32, .z32, .s64, .z64].contains t

/-- The integer types. -/
def isIntTy (t : Ty) : Bool := [Ty.s8, .s16, .s32, .s64, .z8, .z16, .z32, .z64].contains t

/-- A source of kind K (R97): a vector register or group, a uniform register, or an immediate. -/
def source (e : Env) (no : Nat) (r : BitVec 8) (low : Nat) (k : Kind) (klow : Nat) (kinds : List Kind) (count : Nat)
    (mult : Nat) : List EncFault :=
  if kinds.contains k then
    match k with
    | .vec => regOf e .v no r.toNat low count mult
    | .uni => regOf e .u no r.toNat low
    | _ => []
  else [fault0 0x03 klow]

/-- An operand that the instruction does not use: register field 0 and kind 00 (R97). -/
def notUsed (r : BitVec 8) (low : Nat) (k : Kind) (klow : Nat) : List EncFault :=
  zero r low ++ need (k == .vec) 0x03 klow

def anyKind : List Kind := [.vec, .uni, .imm]
def vecOrUni : List Kind := [.vec, .uni]

/-- Sources A, B and C of a V3 word at the width of `n` registers; `used` says which are read (R97). -/
def srcA (e : Env) (f : FV3) (n : Nat) (kinds : List Kind := anyKind) : List EncFault := source e 1 f.a 35 f.ka 17 kinds n n
def srcB (e : Env) (f : FV3) (n : Nat) (kinds : List Kind := anyKind) : List EncFault := source e 2 f.b 27 f.kb 15 kinds n n
def srcC (e : Env) (f : FV3) (n : Nat) (kinds : List Kind := anyKind) : List EncFault := source e 3 f.c 19 f.kc 13 kinds n n
def noA (f : FV3) : List EncFault := notUsed f.a 35 f.ka 17
def noB (f : FV3) : List EncFault := notUsed f.b 27 f.kb 15
def noC (f : FV3) : List EncFault := notUsed f.c 19 f.kc 13
def v3Type (f : FV3) (ok : List Ty) : List EncFault := typeIn ok f.ty 8
def v3Norm (f : FV3) (rnds : List Rnd) (sat : Bool) : List EncFault := rndIn rnds f.rnd 5 ++ satIn sat f.sat 4
def v3Dst (e : Env) (f : FV3) (n : Nat) : List EncFault := regOf e .v 0 f.d.toNat 43 n n

/-- The vector integer instructions of R106 with `ops` sources. -/
def checkVecInt (e : Env) (f : FV3) (ok : List Ty) (sat : Bool) (ops : Nat) : List EncFault :=
  v3Type f ok ++ v3Norm f [.rne] (sat && satType f.ty) ++ zero f.sub 0 ++ v3Dst e f (pair f.ty) ++
  srcA e f (pair f.ty) ++ (if 2 ≤ ops then srcB e f (pair f.ty) else noB f) ++
  (if 3 ≤ ops then srcC e f (pair f.ty) else noC f)

/-- VSEL, R106: C is one 32-bit element. -/
def checkVsel (e : Env) (f : FV3) : List EncFault :=
  v3Type f iAll ++ v3Norm f [.rne] false ++ zero f.sub 0 ++ v3Dst e f (pair f.ty) ++
  srcA e f (pair f.ty) ++ srcB e f (pair f.ty) ++ srcC e f 1

/-- VMADW, R107. -/
def checkVmadw (e : Env) (f : FV3) : List EncFault :=
  v3Type f [.s32, .z32] ++ v3Norm f [.rne] true ++ zero f.sub 0 ++ v3Dst e f 2 ++ srcA e f 1 ++ srcB e f 1 ++ srcC e f 2

/-- VADDC, R107. -/
def checkVaddc (e : Env) (f : FV3) : List EncFault :=
  v3Type f [.z32] ++ v3Norm f [.rne] false ++ atMost f.sub 1 0 ++ v3Dst e f 1 ++ srcA e f 1 ++ srcB e f 1 ++ srcC e f 1

/-- VLEA, R108. -/
def checkVlea (e : Env) (f : FV3) : List EncFault :=
  v3Type f [.s32, .z32, .s64, .z64] ++ v3Norm f [.rne] false ++ atMost f.sub 4 0 ++ v3Dst e f 2 ++
  srcA e f 2 vecOrUni ++ srcB e f (pair f.ty) ++ noC f

/-- The floating-point instructions of R109 with `ops` sources. -/
def checkFloat (e : Env) (f : FV3) (ok : List Ty) (rnds : List Rnd) (sat : Bool) (ops : Nat) : List EncFault :=
  v3Type f ok ++ v3Norm f rnds sat ++ unnamed f.sub 0 ++ v3Dst e f (pair f.ty) ++
  srcA e f (pair f.ty) ++ (if 2 ≤ ops then srcB e f (pair f.ty) else noB f) ++
  (if 3 ≤ ops then srcC e f (pair f.ty) else noC f)

/-- CVT, R114: B[4:0] is the source type. -/
def checkCvt (e : Env) (f : FV3) : List EncFault :=
  let st := tyOf (f.b.extractLsb' 0 5)
  v3Type f cvtTypes ++ v3Norm f (if isIntTy f.ty && isIntTy st then [.rne] else rndAll) true ++
  highZero f.b 5 27 ++ typeIn cvtTypes st 27 ++ need (f.kb == .vec) 0x03 15 ++ noC f ++ unnamed f.sub 0 ++
  v3Dst e f (pair f.ty) ++ srcA e f (pair st) vecOrUni

/-- Width in bits and highest slot of a packed type (R116). -/
def packShape : Ty → Nat × Nat
  | .f16x2 => (16, 0) | .bf16x2 => (16, 0)
  | .s16 => (16, 1) | .z16 => (16, 1)
  | .e2m1 => (4, 7)
  | .e3m2 => (6, 15) | .e2m3 => (6, 15)
  | .e4m3 => (8, 3) | .e5m2 => (8, 3) | .e8m0 => (8, 3) | .s8 => (8, 3) | .z8 => (8, 3)
  | _ => (8, 15)

/-- Registers that hold the packed elements of a type: three for the FP6 types (R42, R116). -/
def packRegs (t : Ty) : Nat := if (packShape t).1 == 6 then 3 else 1

/-- Whether a packed type is a pair form (R116). -/
def isPairTy (t : Ty) : Bool := t == .f16x2 || t == .bf16x2

/-- PACK, R116. -/
def checkPack (e : Env) (f : FV3) : List EncFault :=
  v3Type f packTypes ++ v3Norm f (if isIntTy f.ty then [.rne] else rndAll) true ++ atMost f.sub (packShape f.ty).2 0 ++
  regOf e .v 0 f.d.toNat 43 (packRegs f.ty) 1 ++ srcA e f 1 ++ (if isPairTy f.ty then srcB e f 1 else noB f) ++ noC f

/-- QNT, R118. -/
def checkQnt (e : Env) (f : FV3) : List EncFault :=
  v3Type f [.e4m3, .e5m2, .e3m2, .e2m3, .e2m1] ++ v3Norm f rndAll false ++ zero f.sub 0 ++ v3Dst e f 1 ++
  srcA e f 1 [.vec] ++ noB f ++ noC f

/-- VCMP and FCMP, R119. -/
def checkCmp (e : Env) (f : FV3) (ok : List Ty) (top : Nat) : List EncFault :=
  v3Type f ok ++ v3Norm f [.rne] false ++ atMost f.sub top 0 ++ regOf e .p 0 f.d.toNat 43 ++
  srcA e f (pair f.ty) ++ srcB e f (pair f.ty) ++ noC f

/-- A predicate source with its negation kind (R120, R125). -/
def predSrc (e : Env) (no : Nat) (r : BitVec 8) (low : Nat) (k : Kind) (klow : Nat) : List EncFault :=
  regOf e .p no r.toNat low ++ need (vecOrUni.contains k) 0x03 klow

/-- The predicate instructions of R120. -/
def checkPred (e : Env) (f : FV3) (two : Bool) : List EncFault :=
  v3Type f [.b8] ++ v3Norm f [.rne] false ++ zero f.sub 0 ++ regOf e .p 0 f.d.toNat 43 ++ predSrc e 1 f.a 35 f.ka 17 ++
  (if two then predSrc e 2 f.b 27 f.kb 15 else noB f) ++ noC f

/-- BALLOT and VOTE, R125. -/
def checkVote (e : Env) (f : FV3) (d : Cls) (top : Nat) : List EncFault :=
  v3Type f [.b8] ++ v3Norm f [.rne] false ++ atMost f.sub top 0 ++ regOf e d 0 f.d.toNat 43 ++ predSrc e 1 f.a 35 f.ka 17 ++
  noB f ++ noC f

/-- The types an operator of REDX and SCAN accepts (R126). -/
def reduceTypes (op : Nat) : List Ty := if op ≤ 2 then [.s32, .z32, .f32] else [.b32]

/-- REDX and SCAN, R126. -/
def checkReduce (e : Env) (f : FV3) (scan : Bool) : List EncFault :=
  let op := (f.sub.extractLsb' 0 3).toNat
  (if op ≤ 5 then v3Type f (reduceTypes op) else need (tyNum f.ty < 0x19) 0x03 8) ++
  v3Norm f (if f.ty == .f32 && op == 0 then rndFixed else [.rne]) false ++
  need (op ≤ 5 && (scan || !f.sub.getLsbD 3)) 0x03 0 ++
  regOf e (if scan then .v else .u) 0 f.d.toNat 43 ++ srcA e f 1 [.vec] ++ noB f ++ noC f

/-- MATCH, R127: the mask goes to vD alone. -/
def checkMatch (e : Env) (f : FV3) : List EncFault :=
  v3Type f [.b32, .b64] ++ v3Norm f [.rne] false ++ zero f.sub 0 ++ v3Dst e f 1 ++ srcA e f (pair f.ty) [.vec] ++
  noB f ++ noC f

/-- The class that KA selects in the poison instructions (R164). -/
def poisonCls : Kind → Cls
  | .vec => .v | .uni => .u | .imm => .p | .rsv => .a

/-- An immediate row number of an accumulator form: 0 to 31 (R165, R225). -/
def rowImm (c : BitVec 8) : Bool := c.toNat < 32

/-- PTEST, PCLR, PSEL and PINJ, R164 to R168. -/
def checkPoison (e : Env) (f : FV3) (psel ptest : Bool) : List EncFault :=
  let cls := poisonCls f.ka
  let types : List Ty := match f.ka with
    | .vec => if psel then [.b32, .b64, .f32] else [.b32, .b64]
    | .uni => if psel then [.b32, .b64, .f32] else [.b32, .b64]
    | .imm => [.b8]
    | .rsv => if psel then [.f32] else [.b8]
  let n := if f.ka == .vec then pair f.ty else 1
  v3Type f types ++ v3Norm f [.rne] false ++ zero f.sub 0 ++ need (!(psel && f.ka == .imm)) 0x03 17 ++
  regOf e cls 1 f.a.toNat 35 n n ++
  (if ptest then regOf e .p 0 f.d.toNat 43 else regOf e cls 0 f.d.toNat 43 n n) ++
  (if psel then source e 2 f.b 27 f.kb 15 (if f.ka == .vec then anyKind else [.uni, .imm]) n n else noB f) ++
  (if ptest && f.ka == .rsv then
     (if f.kc == .imm then need (rowImm f.c) 0x03 19 else [fault0 0x03 13])
   else noC f)

/-- ACLR, R225: B is the count of tiles, 1 to 64. -/
def checkAclr (e : Env) (f : FV3) : List EncFault :=
  v3Type f [.b32] ++ v3Norm f [.rne] false ++ zero f.sub 0 ++ noA f ++ noC f ++ need (f.kb == .imm) 0x03 15 ++
  (if f.kb == .imm && !(1 ≤ f.b.toInt && f.b.toInt ≤ 64) then [fault0 0x03 27] else []) ++
  regOf e .a 0 f.d.toNat 43 (if f.kb == .imm && 1 ≤ f.b.toInt && f.b.toInt ≤ 64 then f.b.toNat else 1) 1

/-- AMOV, R225: SUB selects the direction. -/
def checkAmov (e : Env) (f : FV3) : List EncFault :=
  v3Type f [.b32] ++ v3Norm f [.rne] false ++ atMost f.sub 2 0 ++ noB f ++ need (f.ka == .vec) 0x03 17 ++
  regOf e (if f.sub == 0 then .v else .a) 0 f.d.toNat 43 ++ regOf e (if f.sub == 1 then .v else .a) 1 f.a.toNat 35 ++
  (if f.sub == 2 then noC f
   else source e 3 f.c 19 f.kc 13 [.uni, .imm] 1 1 ++ (if f.kc == .imm then need (rowImm f.c) 0x03 19 else []))

/-- The checks of a V3 word. -/
def checkV3 (e : Env) (op : BitVec 8) (f : FV3) : List EncFault :=
  match op.toNat with
  | 0x28 => checkVecInt e f iAll false 1
  | 0x2A => checkVecInt e f iAll true 2
  | 0x2B => checkVecInt e f iAll true 2
  | 0x2C => checkVecInt e f i32 true 2
  | 0x2D => checkVecInt e f i32 false 2
  | 0x2E => checkVecInt e f i32 true 3
  | 0x2F => checkVmadw e f
  | 0x30 => checkVaddc e f
  | 0x31 => checkVecInt e f [.s32, .s64] true 1
  | 0x32 => checkVecInt e f [.s32, .s64, .b32, .b64] true 1
  | 0x38 => checkVecInt e f iAll false 1
  | 0x3F => checkVecInt e f i32 false 1
  | 0x40 => checkVecInt e f i32 false 1
  | 0x41 => checkVecInt e f i32 false 1
  | 0x42 => checkVsel e f
  | 0x43 => checkVlea e f
  | 0x48 => checkFloat e f fA rndAll true 2
  | 0x49 => checkFloat e f fA rndAll true 2
  | 0x4A => checkFloat e f fA rndAll true 2
  | 0x4B => checkFloat e f fA rndAll true 3
  | 0x4C => checkFloat e f fA [.rne] false 2
  | 0x4D => checkFloat e f fA [.rne] false 2
  | 0x4E => checkFloat e f fA [.rne] false 1
  | 0x4F => checkFloat e f fA [.rne] false 1
  | 0x50 => checkFloat e f [.f32] [.rne] true 1
  | 0x51 => checkFloat e f [.f32] [.rne] false 1
  | 0x52 => checkFloat e f [.f32, .f64] rndAll false 1
  | 0x53 => checkFloat e f [.f32] [.rne] true 1
  | 0x54 => checkFloat e f [.f32] [.rne] false 1
  | 0x55 => checkFloat e f [.f32] [.rne] false 1
  | 0x56 => checkFloat e f [.f32] [.rne] false 1
  | 0x57 => checkFloat e f fA rndFixed false 1
  | 0x59 => v3Type f [.f16x2, .bf16x2] ++ v3Norm f rndAll true ++ unnamed f.sub 0 ++ v3Dst e f 1 ++ srcA e f 1 ++
      srcB e f 1 ++ srcC e f 1
  | 0x5C => checkCvt e f
  | 0x5D => checkPack e f
  | 0x5F => checkQnt e f
  | 0x60 => checkCmp e f iAll 5
  | 0x61 => checkCmp e f [.f32, .f64] 7
  | 0x62 => checkPred e f true
  | 0x63 => checkPred e f true
  | 0x64 => checkPred e f true
  | 0x65 => checkPred e f false
  | 0x66 => checkPred e f false
  | 0x72 => checkVote e f .u 0
  | 0x73 => checkVote e f .p 2
  | 0x74 => checkReduce e f false
  | 0x75 => checkReduce e f true
  | 0x76 => checkMatch e f
  | 0x90 => checkPoison e f false true
  | 0x91 => checkPoison e f false false
  | 0x92 => checkPoison e f true false
  | 0x93 => checkPoison e f false false
  | 0xCC => checkAclr e f
  | 0xCD => checkAmov e f
  | _ => checkVecInt e f iAll false 2

/-- VBFE and VBFI, R106. -/
def checkBitField (e : Env) (f : FVI) : List EncFault :=
  typeIn i32 f.ty 28 ++ zero f.px 16 ++ zero f.sub 20 ++ regOf e .v 0 f.d.toNat 43 ++ source e 1 f.a 35 f.ka 33 vecOrUni 1 1

/-- FCLASS, R112. -/
def checkFclass (e : Env) (f : FVI) : List EncFault :=
  typeIn [.f16, .bf16, .f32, .f64] f.ty 28 ++ zero f.px 16 ++ zero f.sub 20 ++ highZero f.imm 10 0 ++
  regOf e .p 0 f.d.toNat 43 ++ source e 1 f.a 35 f.ka 33 vecOrUni (pair f.ty) (pair f.ty)

/-- UNPK, R117: the pair types take slot 0 or 1, and an FP6 source is vector only. -/
def checkUnpk (e : Env) (f : FVI) : List EncFault :=
  typeIn packTypes f.ty 28 ++ zero f.px 16 ++ zero f.sub 20 ++ highZero f.imm 4 0 ++
  need ((f.imm.extractLsb' 0 4).toNat ≤ if isPairTy f.ty then 1 else (packShape f.ty).2) 0x03 0 ++
  regOf e .v 0 f.d.toNat 43 ++
  source e 1 f.a 35 f.ka 33 (if packRegs f.ty == 3 then [.vec] else vecOrUni) (packRegs f.ty) 1

/-- PSETS, R121: SUB 0 from a uniform register, SUB 1 from IMM16[0]. A reserved SUB is held to the other fields of SUB 1 (DESIGN CHOICE,
log 70). -/
def checkPsets (e : Env) (f : FVI) : List EncFault :=
  typeIn [.b8] f.ty 28 ++ zero f.px 16 ++ atMost f.sub 1 20 ++ regOf e .p 0 f.d.toNat 43 ++
  (if f.sub == 0 then source e 1 f.a 35 f.ka 33 [.uni] 1 1 ++ zero f.imm 0
   else need (f.ka == .vec) 0x03 33 ++ zero f.a 35 ++ highZero f.imm 1 0)

/-- PGETS, R121. -/
def checkPgets (e : Env) (f : FVI) : List EncFault :=
  typeIn [.b8] f.ty 28 ++ zero f.px 16 ++ zero f.sub 20 ++ need (f.ka == .vec) 0x03 33 ++ zero f.imm 0 ++
  regOf e .u 0 f.d.toNat 43 ++ regOf e .p 1 f.a.toNat 35

/-- SHFL, R123. -/
def checkShfl (e : Env) (f : FVI) : List EncFault :=
  typeIn [.b32, .b64] f.ty 28 ++ zero f.px 16 ++ atMost f.sub 3 20 ++ highZero f.imm 11 0 ++
  need ((f.imm.extractLsb' 8 3).toNat ≤ 5) 0x03 8 ++
  (if f.sub == 0 then beyond e .v 6 (f.imm.extractLsb' 0 8).toNat 1 else need (f.imm.extractLsb' 5 3 == 0) 0x03 5) ++
  regOf e .v 0 f.d.toNat 43 (pair f.ty) (pair f.ty) ++ source e 1 f.a 35 f.ka 33 [.vec] (pair f.ty) (pair f.ty)

/-- BCAST, R124. -/
def checkBcast (e : Env) (f : FVI) : List EncFault :=
  typeIn [.b32, .b64] f.ty 28 ++ atMost f.sub 2 20 ++ highZero f.imm (if f.sub == 0 then 5 else 0) 0 ++
  (if f.sub == 2 then regOf e .p 5 f.px.toNat 16 else zero f.px 16) ++
  regOf e .v 0 f.d.toNat 43 (pair f.ty) (pair f.ty) ++ source e 1 f.a 35 f.ka 33 [.vec] (pair f.ty) (pair f.ty)

/-- The index of a special register in IMM16[5:0] (R36). -/
def xregIdx (f : FVI) : Nat := (f.imm.extractLsb' 0 6).toNat

/-- SRD, R174: SUB 0 into a uniform register, SUB 1 into a vector register or pair. -/
def checkSrd (e : Env) (f : FVI) : List EncFault :=
  highZero f.imm 6 0 ++ zero f.px 16 ++
  (if 0x15 ≤ xregIdx f then [⟨0x0C, 64, BitVec.ofNat 16 (xregIdx f)⟩] else []) ++
  zero f.a 35 ++ need (f.ka == .vec) 0x03 33 ++ atMost f.sub 1 20 ++ typeIn (if f.sub == 0 then [.b64] else [.b32, .b64]) f.ty 28 ++
  (if xregIdx f == 3 && f.sub == 0 then [fault0 0x03 20]
   else if xregIdx f == 3 && f.ty == .b64 then [fault0 0x03 28] else []) ++
  (if f.sub == 0 then regOf e .u 0 f.d.toNat 43 else regOf e .v 0 f.d.toNat 43 (pair f.ty) (pair f.ty))

/-- Whether some mode may write a special register (R36). -/
def xregWritable (i : Nat) : Bool := i == 7 || (0x0B ≤ i && i ≤ 0x12)

/-- SWR, R175. -/
def checkSwr (e : Env) (f : FVI) : List EncFault :=
  highZero f.imm 6 0 ++ zero f.px 16 ++
  (if xregWritable (xregIdx f) then [] else [⟨0x0C, 64, BitVec.ofNat 16 (xregIdx f)⟩]) ++
  zero f.d 43 ++ zero f.sub 20 ++ typeIn [.b64] f.ty 28 ++ source e 1 f.a 35 f.ka 33 [.uni] 1 1

/-- QSET and QGET, R216. -/
def checkShapeMove (e : Env) (f : FVI) (get : Bool) : List EncFault :=
  typeIn [.b32] f.ty 28 ++ highZero f.imm 4 0 0x04 ++ need (f.ka == if get then .vec else .uni) 0x03 33 ++
  regOf e (if get then .u else .q) 0 f.d.toNat 43 ++ regOf e (if get then .q else .u) 1 f.a.toNat 35 ++
  unnamed f.sub 20 ++ unnamed f.px 16

/-- SKWIN, R217. -/
def checkSkwin (e : Env) (f : FVI) : List EncFault :=
  need (f.ka == .vec) 0x03 33 ++ regOf e .q 1 f.a.toNat 35 ++ highZero f.imm 3 0 0x04 ++ unnamed f.d 43 ++
  typeUnnamed f.ty 28 ++ unnamed f.sub 20 ++ unnamed f.px 16

/-- The checks of a VI word; no instruction of the format rounds or saturates (R85). -/
def checkVI (e : Env) (op : BitVec 8) (f : FVI) : List EncFault :=
  rndIn [.rne] f.rnd 25 ++ satIn false f.sat 24 ++
  match op.toNat with
  | 0x58 => checkFclass e f
  | 0x5E => checkUnpk e f
  | 0x67 => checkPsets e f
  | 0x68 => checkPgets e f
  | 0x70 => checkShfl e f
  | 0x71 => checkBcast e f
  | 0x9A => checkSrd e f
  | 0x9B => checkSwr e f
  | 0xC2 => checkShapeMove e f false
  | 0xC3 => checkShapeMove e f true
  | 0xD0 => checkSkwin e f
  | _ => checkBitField e f

/-- The uniform instructions of R103 that read A, B and C. -/
def uniReads (op : BitVec 8) : Bool × Bool × Bool :=
  match op.toNat with
  | 0x10 => (false, true, false)
  | 0x16 => (true, true, true)
  | 0x1A => (true, false, false)
  | 0x21 => (true, true, true)
  | 0x22 => (true, false, false)
  | 0x23 => (true, false, false)
  | 0x25 => (true, true, true)
  | _ => (true, true, false)

/-- The uniform instructions that accept `.sat` (R103). -/
def uniSat (op : BitVec 8) : Bool := [0x12, 0x13, 0x14, 0x16].contains op.toNat

/-- The uniform integer instructions, R103. -/
def checkUniform (e : Env) (op : BitVec 8) (f : FS) : List EncFault :=
  let (ra, rb, rc) := uniReads op
  typeIn iAll f.ty 22 ++ satIn (uniSat op && satType f.ty) f.sat 21 ++ atMost f.sub (if op == 0x20 then 5 else 0) 16 ++
  regOf e .u 0 f.d.toNat 45 ++ (if ra then regOf e .u 1 f.a.toNat 39 else zero f.a 39) ++
  (if rb && !f.imb then regOf e .u 2 f.b.toNat 33 else zero f.b 33) ++
  (if rc then regOf e .u 3 f.c.toNat 27 else zero f.c 27) ++ need (rb || !f.imb) 0x03 20 ++
  (if f.imb then [] else zero f.imm 0)

/-- The checks of an S word. -/
def checkS (e : Env) (op : BitVec 8) (f : FS) : List EncFault :=
  let rest := unnamed f.a 39 ++ unnamed f.b 33 ++ unnamed f.c 27 ++ need (!f.imb) 0x04 20 ++ unnamed f.imm 0
  match op.toNat with
  | 0x95 => regOf e .u 0 f.d.toNat 45 ++ typeIn [.b64] f.ty 22 ++ atMost f.sub 1 16 ++ satIn false f.sat 21 ++ rest
  | 0xA4 => regOf e .u 0 f.d.toNat 45 ++ typeIn [.b64] f.ty 22 ++ satIn false f.sat 21 ++ unnamed f.sub 16 ++ rest
  | 0xA5 => unnamed f.d 45 ++ typeUnnamed f.ty 22 ++ satIn false f.sat 21 ++ unnamed f.sub 16 ++ rest
  | _ => checkUniform e op f

/-- The checks of a C word (R135 and the descriptions of the other C instructions). A field for which the table of R135 has 0 is one
that the instruction does not use, reason 0x04 (R90); IMM8 = 0 restricts a field that the row names, reason 0x03 (DESIGN CHOICE,
log 70). -/
def checkC (e : Env) (op : BitVec 8) (f : FC) : List EncFault :=
  let noPa := unnamed f.pa 47
  let noJn := unnamed f.jn 44
  let noReg := unnamed f.reg 36 ++ (if f.kr == .rsv then [fault0 0x03 34] else need (f.kr == .vec) 0x04 34)
  let noLo := unnamed f.lo 0
  let uniReg := need (f.kr == .uni) 0x03 34 ++ regOf e .u 4 f.reg.toNat 36
  let orNone := need (f.kr == .uni || f.kr == .imm) 0x03 34 ++
    (if f.kr == .uni then regOf e .u 4 f.reg.toNat 36 else if f.kr == .imm then zero f.reg 36 else [])
  let noImm8 := highZero f.lo 24 0
  unnamed f.rsv 32 ++
  match op.toNat with
  | 0x01 => noPa ++ noJn ++ noReg ++ noImm8
  | 0x02 => regOf e .p 5 f.pa.toNat 47 ++ noJn ++ noReg ++ highZero f.lo 25 0
  | 0x03 => noPa ++ noJn ++ need (f.kr == .vec || f.kr == .uni) 0x03 34 ++
      (if f.kr == .vec then regOf e .v 4 f.reg.toNat 36 2 2 else if f.kr == .uni then regOf e .u 4 f.reg.toNat 36 else []) ++ noLo
  | 0x04 => noPa ++ noJn ++ uniReg ++ noImm8
  | 0x05 => noPa ++ noJn ++ uniReg ++ noImm8
  | 0x06 => noPa ++ noJn ++ uniReg ++ noImm8
  | 0x07 => noPa ++ noJn ++ uniReg ++ noLo
  | 0x08 => noPa ++ orNone ++ noImm8
  | 0x09 => noPa ++ noReg ++ noLo
  | 0x0A => noPa ++ noReg ++ noLo
  | 0x94 => noPa ++ noJn ++ noReg
  | 0x98 => noPa ++ noJn ++ noReg
  | 0x9C => noPa ++ noJn ++ noReg
  | 0x9E => noPa ++ noJn ++ noReg
  | 0x9F => noPa ++ noJn ++ uniReg ++ noLo
  | 0xA1 => noPa ++ noJn ++ orNone ++ noLo
  | 0xCA => regOf e .p 5 f.pa.toNat 47 ++ noJn ++ noReg ++ highZero f.lo 2 0
  | 0xCB => noPa ++ noJn ++ noReg ++ highZero f.lo 2 0
  | _ => noPa ++ noJn ++ noReg ++ noLo

/-- The access types of R147. -/
def memTypes : List Ty := [.b8, .b16, .b32, .b64, .b128, .s8, .s16, .s32, .s64, .z8, .z16, .z32, .z64]

/-- The types of an atomic operation (R156), and of ATOMS (R158). -/
def atomTypes (sub : Nat) (spad : Bool) : List Ty :=
  if sub ≤ 2 then (if spad then [.s32, .z32, .f32] else [.s32, .z32, .s64, .z64, .f32])
  else if spad then [.b32] else [.b32, .b64]

/-- The width of an access in bytes (R81); a type that is no access type counts as 4. -/
def accessSize (t : Ty) : Nat :=
  match t with
  | .b8 => 1 | .s8 => 1 | .z8 => 1
  | .b16 => 2 | .s16 => 2 | .z16 => 2
  | .b64 => 8 | .s64 => 8 | .z64 => 8 | .f64 => 8
  | .b128 => 16
  | _ => 4

/-- The register group of a memory operand (R147). -/
def memGroup (e : Env) (f : FM) (no : Nat) (r : BitVec 8) (low : Nat) : List EncFault :=
  let size := accessSize f.ty
  if f.dk then
    let k := if size == 16 then 2 else 1
    regOf e .u no r.toNat low k k
  else
    let k := if size == 16 then 4 else if size == 8 then 2 else 1
    regOf e .v no r.toNat low k k

/-- The address base: a uniform register, a vector pair for global and near accesses, a vector register for scratchpad (R81). -/
def memBase (e : Env) (f : FM) (spad : Bool) : List EncFault :=
  if f.ak then regOf e .u 1 f.a.toNat 35
  else if spad then regOf e .v 1 f.a.toNat 35 else regOf e .v 1 f.a.toNat 35 2 2

def anyScope : List Scope := [.team, .core, .die, .dev, .fab, .sys]
def coreUp : List Scope := [.core, .die, .dev, .fab, .sys]

/-- DK = 1 with AK = 0 is reserved (R144). -/
def kindsOk (f : FM) : List EncFault := need (!(f.dk && !f.ak)) 0x03 26
/-- A uniform access: DK = AK = 1 (R144, R181). -/
def uniformM (f : FM) : List EncFault := need (f.dk && f.ak) 0x03 26
def noB' (f : FM) : List EncFault := unnamed f.b 27
def noD' (f : FM) : List EncFault := unnamed f.d 43
def noSk (f : FM) : List EncFault := need (!f.sk) 0x04 11
def skZero (f : FM) : List EncFault := need (!f.sk) 0x03 11
def noSub (f : FM) : List EncFault := unnamed f.sub 8
def noOff (f : FM) : List EncFault := unnamed f.off 0
def mOrd (f : FM) (os : List Ord') (ss : List Scope) : List EncFault := ordIn os f.ord 17 ++ scopeIn ss f.scope 14
def uD (e : Env) (f : FM) : List EncFault := regOf e .u 0 f.d.toNat 43
def uA (e : Env) (f : FM) : List EncFault := regOf e .u 1 f.a.toNat 35
def uB (e : Env) (f : FM) : List EncFault := regOf e .u 2 f.b.toNat 27

/-- LD, ST, LDN and STN (R151, R152, R154). -/
def checkLoadStore (e : Env) (f : FM) (ords : List Ord') (scopes : List Scope) : List EncFault :=
  kindsOk f ++ typeIn memTypes f.ty 20 ++ mOrd f ords (if f.ord == .rlx then [.team] else scopes) ++
  zero f.b 27 ++ skZero f ++ zero f.sub 8 ++ memBase e f false ++ memGroup e f 0 f.d 43

/-- LDS and STS (R153). -/
def checkScratch (e : Env) (f : FM) : List EncFault :=
  kindsOk f ++ typeIn memTypes f.ty 20 ++ mOrd f [.rlx] [.team] ++ noB' f ++ noSub f ++ memBase e f true ++ memGroup e f 0 f.d 43

/-- ATOM, ATOMS and RED (R156, R158, R159): B[0] is SAT for `.add`, B the compare register for `.cas`. -/
def checkAtomic (e : Env) (f : FM) (spad red : Bool) : List EncFault :=
  kindsOk f ++ atMost f.sub (if red then 5 else 7) 8 ++ typeIn (atomTypes f.sub.toNat spad) f.ty 20 ++
  (if spad then mOrd f [.rlx] [.team]
   else if red then mOrd f [.rlx, .rel, .sc] anyScope else mOrd f [.rlx, .acq, .rel, .ar, .sc] anyScope) ++
  (if spad then [] else noSk f) ++ memBase e f spad ++ memGroup e f 0 f.d 43 ++
  (if f.sub == 0 then highZero f.b 1 27 ++ (if f.b.getLsbD 0 && f.ty == .f32 then [fault0 0x09 27] else [])
   else if f.sub == 7 && !red then memGroup e f 2 f.b 27 else zero f.b 27)

/-- JOINF and FPROBE (R196, R197). -/
def checkFuture (e : Env) (f : FM) (scopes : List Scope) : List EncFault :=
  uniformM f ++ typeIn [.b64] f.ty 20 ++ mOrd f [.rlx] scopes ++ skZero f ++ highZero f.sub 1 8 ++ uD e f ++ uA e f ++
  (if f.sub.getLsbD 0 then uB e f else zero f.b 27)

/-- FSET and FFAIL (R198). -/
def checkSettle (e : Env) (f : FM) : List EncFault :=
  uniformM f ++ typeIn [.b64] f.ty 20 ++ mOrd f [.rlx] coreUp ++ zero f.b 27 ++ skZero f ++ zero f.sub 8 ++ uD e f ++ uA e f

/-- SGADD and SGWAIT (R200). -/
def checkSignal (e : Env) (f : FM) (top : Nat) : List EncFault :=
  uniformM f ++ typeIn [.s64] f.ty 20 ++ mOrd f [.rlx] coreUp ++ atMost f.sub top 8 ++ noB' f ++ noSk f ++ uD e f ++ uA e f

/-- The barrier instructions (R211). -/
def checkBarrier (e : Env) (f : FM) (reads : Bool) (top : Nat) : List EncFault :=
  uniformM f ++ typeIn [.b64] f.ty 20 ++ mOrd f [.rlx] [.team] ++ skZero f ++ atMost f.sub top 8 ++ noB' f ++ uA e f ++
  (if reads then uD e f else zero f.d 43)

/-- The checks of an M word other than FL. -/
def checkM (e : Env) (op : BitVec 8) (f : FM) : List EncFault :=
  match op.toNat with
  | 0x80 => checkLoadStore e f [.rlx, .acq, .sc] anyScope
  | 0x81 => checkLoadStore e f [.rlx, .rel, .sc] anyScope
  | 0x82 => checkScratch e f
  | 0x83 => checkScratch e f
  | 0x84 => checkLoadStore e f [.rlx, .acq] [.die]
  | 0x85 => checkLoadStore e f [.rlx, .rel] [.die]
  | 0x86 => zero f.d 43 ++ zero f.b 27 ++ need (!f.dk) 0x03 26 ++ skZero f ++ atMost f.sub 1 8 ++ typeIn [.b8] f.ty 20 ++
      mOrd f [.rlx] [.team] ++ memBase e f false
  | 0x87 => checkAtomic e f false false
  | 0x88 => checkAtomic e f true false
  | 0x89 => checkAtomic e f false true
  | 0x8A => need (!f.dk) 0x03 26 ++ need (!f.ak) 0x03 25 ++ zero f.d 43 ++ zero f.a 35 ++ zero f.b 27 ++ skZero f ++
      zero f.sub 8 ++ zero f.off 0 ++ typeIn [.b8] f.ty 20 ++ mOrd f [.acq, .rel, .ar, .sc] anyScope
  | 0x8B => uniformM f ++ typeIn [.b64] f.ty 20 ++ zero f.d 43 ++ atMost f.sub 1 8 ++
      mOrd f [.rlx, .acq] (if f.ord == .rlx then [.team] else anyScope) ++ uA e f ++ uB e f ++ noSk f
  | 0x8C => uniformM f ++ zero f.d 43 ++ skZero f ++ zero f.sub 8 ++ zero f.off 0 ++ typeIn [.b8] f.ty 20 ++
      mOrd f [.rlx] [.team] ++ uA e f ++ uB e f
  | 0x8D => uniformM f ++ zero f.d 43 ++ skZero f ++ zero f.sub 8 ++ zero f.off 0 ++ typeIn [.b8] f.ty 20 ++
      mOrd f [.rlx] [.team] ++ uA e f ++ uB e f
  | 0x9D => uniformM f ++ typeIn [.b64] f.ty 20 ++ atMost f.sub 3 8 ++ mOrd f [.rlx] [.core, .die, .dev] ++
      (if f.sub == 0 then uA e f else zero f.a 35) ++ uB e f ++ noD' f ++ noSk f ++ noOff f
  | 0xA6 => checkFuture e f coreUp
  | 0xA7 => checkFuture e f [.team]
  | 0xA8 => checkSettle e f
  | 0xA9 => checkSettle e f
  | 0xAA => checkSignal e f 0
  | 0xAB => checkSignal e f 2
  | 0xAC => kindsOk f ++ typeIn [.b32] f.ty 20 ++ mOrd f [.rlx] coreUp ++ zero f.off 0 ++ highZero f.sub 1 8 ++
      highZero f.b 4 27 ++ need (f.b.toNat % 16 < 12) 0x03 27 ++ memBase e f false ++
      regOf e (if f.dk then .u else .v) 0 f.d.toNat 43 ++ noSk f
  | 0xAD => uniformM f ++ typeIn [.b64] f.ty 20 ++ mOrd f [.rlx] [.team] ++ uA e f ++ noD' f ++ noB' f ++ noSk f ++ noSub f ++ noOff f
  | 0xAE => uniformM f ++ typeIn [.b64] f.ty 20 ++ mOrd f [.rlx] [.team] ++ uA e f ++ uD e f ++ atMost f.sub 4 8 ++ noB' f ++
      noSk f ++ noOff f
  | 0xB1 => need (!f.dk) 0x03 26 ++ need (!f.ak) 0x03 25 ++ skZero f ++ typeIn [.b32, .b64, .b128] f.ty 20 ++ mOrd f [.rlx] coreUp ++
      atMost f.sub 1 8 ++ regOf e .v 0 f.d.toNat 43 ++ regOf e .v 1 f.a.toNat 35 2 2 ++ uB e f
  | 0xB8 => checkBarrier e f true 0
  | 0xB9 => checkBarrier e f false 0
  | 0xBA => checkBarrier e f true 0
  | 0xBB => checkBarrier e f false 1
  | 0xBC => checkBarrier e f true 0
  | 0xC0 => uniformM f ++ typeIn [.b128] f.ty 20 ++ mOrd f [.rlx] [.team] ++ zero f.off 0 ++ atMost f.sub 1 8 ++
      regOf e .q 0 f.d.toNat 43 ++ uA e f ++ noB' f ++ noSk f
  | 0xC1 => uniformM f ++ typeIn [.b128] f.ty 20 ++ mOrd f [.rlx] [.team] ++ zero f.off 0 ++ atMost f.sub 1 8 ++
      regOf e .q 0 f.d.toNat 43 ++ uA e f ++ noB' f ++ noSk f
  | _ => uniformM f ++ typeIn [.b32] f.ty 20 ++ mOrd f [.rlx] [.team] ++ zero f.off 0 ++ atMost f.sub 1 8 ++
      need (!(f.sub == 1 && f.sk)) 0x03 11 ++ regOf e .a 0 f.d.toNat 43 ++ uA e f ++ noB' f

/-- SLI and VLI (R96, R105). -/
def checkImm (e : Env) (f : FX) (vector : Bool) : List EncFault :=
  let narrow := if vector then i32 ++ [.f32, .f16x2, .bf16x2] else i32
  let types := if f.sub == 0 then narrow ++ i64 else if f.sub == 1 then (if vector then i64 ++ [.f64] else i64) else [f.ty]
  ordIn [.rlx] f.ord 19 ++ scopeIn [.team] f.scope 16 ++ zero f.pb 10 ++ atMost f.sub 1 7 ++ typeIn types f.ty 22 ++
  (if vector then regOf e .v 0 f.d.toNat 43 (pair f.ty) (pair f.ty) else regOf e .u 0 f.d.toNat 43) ++
  unnamed f.a 35 ++ unnamed f.b 27 ++ unnamed f.imm7 0 ++
  (if f.sub == 0 && types.contains f.ty then
     (if wide f.ty then needX (f.ext.toNat >>> 48 == 0) 0x03 48 else needX (f.ext.toNat >>> 32 == 0) 0x03 32)
   else [])

/-- The groups of element types that may be paired in MMA and MTILE, and registers per operand (R218). -/
def mmaGroup : Ty → Option (Nat × Nat)
  | .e4m3 => some (0, 8) | .e5m2 => some (0, 8)
  | .s8 => some (1, 8) | .z8 => some (1, 8)
  | .e3m2 => some (2, 6) | .e2m3 => some (2, 6)
  | .e2m1 => some (3, 8)
  | .f16 => some (4, 16)
  | .bf16 => some (5, 16)
  | _ => none

/-- MMA and MTILE (R218, R221): the fields they share. The tile that D names is checked as a tile field (R22, R77); the other tiles of
MTILE's result are checked when it issues (R221). A pair of types that is not accepted is reported at TYPE of word 0 (DESIGN CHOICE,
log 70). -/
def checkMatrix (e : Env) (f : FX) (mma : Bool) : List EncFault :=
  let tb := tyOf (f.ext.extractLsb' 0 5)
  let gran := (f.sub.extractLsb' 0 2).toNat
  let ga := mmaGroup f.ty
  let gb := mmaGroup tb
  let isInt := (ga.map (·.1)) == some 1
  let vs := (f.ext.extractLsb' 5 8).toNat
  let qs := (f.ext.extractLsb' 5 4).toNat
  let qt := (f.ext.extractLsb' 9 4).toNat
  let high := f.ext.toNat >>> 14 == 0
  ordIn [.rlx] f.ord 19 ++ scopeIn [.team] f.scope 16 ++
  (if mma then zero f.imm7 0 ++ zero f.pb 10 else unnamed f.imm7 0 ++ unnamed f.pb 10) ++
  (if 0x19 ≤ tyNum f.ty then [fault0 0x03 22] else need ga.isSome 0x09 22) ++
  (if 0x19 ≤ tyNum tb then [faultX 0x03 0]
   else need (ga.isNone || (gb.map (·.1)) == (ga.map (·.1))) 0x09 22) ++
  need (!(isInt && gran != 0)) 0x09 7 ++
  needX (!f.ext.getLsbD 13 || isInt || ga.isNone) 0x09 13 ++ regOf e .a 0 f.d.toNat 43 ++
  (if mma then
     need (f.a.toNat % 8 == 0) 0x03 35 ++ need (f.b.toNat % 8 == 0) 0x03 27 ++
     (match ga with | some (_, n) => beyond e .v 1 f.a.toNat n | none => []) ++
     (match gb with | some (_, n) => beyond e .v 2 f.b.toNat n | none => []) ++
     needX high 0x04 14 ++
     (if gran == 0 then needX (vs == 0) 0x03 5
      else if gran == 2 && f.ty == .e2m1 then needX (vs % 2 == 0) 0x03 5 ++ beyond e .v 7 vs 2
      else beyond e .v 7 vs 1)
   else
     regOf e .q 1 f.a.toNat 35 ++ regOf e .q 2 f.b.toNat 27 ++ needX high 0x03 14 ++
     (if gran == 0 then needX (qs == 0) 0x03 5 ++ needX (qt == 0) 0x03 9
      else if gran == 3 then beyond e .u 7 qs 1 ++ beyond e .u 7 qt 1 else []))

/-- The completion field of a copy's EXT (R206): CMODE, its reserved bits and CVAL. -/
def checkCompletion (f : FX) (allowed : List Nat) : List EncFault :=
  let mode := (f.ext.extractLsb' 62 2).toNat
  needX (allowed.contains mode) 0x03 62 ++ needX (f.ext.extractLsb' 48 14 == 0) 0x04 48 ++
  needX (mode != 1 || f.ext.extractLsb' 20 28 == 0) 0x03 20

/-- The member mask of a multicast copy, or zero (R206, R208, R209). -/
def checkMembers (f : FX) (multicast : Bool) : List EncFault :=
  if multicast then highZero f.imm7 4 0 ++ need (f.imm7.toNat % 16 != 0) 0x03 0 else zero f.imm7 0

/-- The checks of an X word other than FL. -/
def checkX (e : Env) (op : BitVec 8) (f : FX) : List EncFault :=
  match op.toNat with
  | 0x11 => checkImm e f false
  | 0x29 => checkImm e f true
  | 0xA0 => ordIn [.rlx] f.ord 19 ++ scopeIn [.team] f.scope 16 ++ atMost f.sub 1 7 ++ highZero f.imm7 1 0 ++
      regOf e .u 1 f.a.toNat 35 (if f.sub == 1 then 15 else 1) ++ unnamed f.d 43 ++ unnamed f.b 27 ++ typeUnnamed f.ty 22 ++
      unnamed f.pb 10 ++ (if f.sub == 0 then needX (f.ext == 0) 0x03 0 else [])
  | 0xA3 => ordIn [.rlx] f.ord 19 ++ scopeIn [.team] f.scope 16 ++ highZero f.imm7 3 0 0x04 ++
      need (!(f.imm7.getLsbD 2 && f.imm7.toNat % 4 != 0)) 0x03 0 ++ unnamed f.d 43 ++ unnamed f.a 35 ++ unnamed f.b 27 ++
      typeUnnamed f.ty 22 ++ unnamed f.pb 10 ++ unnamed f.sub 7 ++ needX (f.ext.toNat >>> 48 == 0) 0x03 48
  | 0xB0 => ordIn [.rlx] f.ord 19 ++ scopeIn coreUp f.scope 16 ++ typeIn [.b32] f.ty 22 ++ atMost f.sub 5 7 ++ zero f.pb 10 ++
      regOf e .u 0 f.d.toNat 43 ++ regOf e .u 1 f.a.toNat 35 ++ regOf e .u 2 f.b.toNat 27 ++ checkMembers f (f.sub == 4) ++
      checkCompletion f (if f.sub == 1 || f.sub == 2 then [0, 2] else if f.sub.toNat ≤ 5 then [0, 1] else [0, 1, 2])
  | 0xB2 => ordIn [.rlx] f.ord 19 ++ scopeIn coreUp f.scope 16 ++ typeIn [.b8] f.ty 22 ++ atMost f.sub 1 7 ++ unnamed f.pb 10 ++
      regOf e .q 0 f.d.toNat 43 ++ regOf e .q 1 f.a.toNat 35 ++ regOf e .u 2 f.b.toNat 27 ++ checkMembers f (f.sub == 1) ++
      checkCompletion f [0, 1, 2]
  | 0xC8 => checkMatrix e f true
  | _ => checkMatrix e f false

/-- Whether an instruction is unguarded and so must encode PRED 12 and PNEG 0 (R76, R121, R144, R164, R174, R175, R181). -/
def unguarded (op : BitVec 8) : Body → Bool
  | .s _ => true
  | .c _ => !(op == 0x0A || op == 0x0B)
  | .x _ => op != 0x29
  | .vi f => op == 0x68 || op == 0x9B || (op == 0x9A && f.sub == 0) || 0xA0 ≤ op
  | .v3 f =>
    if op == 0xCD then f.sub == 2
    else op == 0xCC || (0x90 ≤ op && op ≤ 0x93 && (f.ka == .uni || f.ka == .rsv))
  | .m f => (f.dk && f.ak) || (0xA0 ≤ op && op != 0xAC && op != 0xB1)

/-- The guard of a word (R75, R76, R89). -/
def checkGuard (op : BitVec 8) (b : Body) : List EncFault :=
  if 13 ≤ b.guard.pred.toNat then [fault0 0x03 52]
  else if b.guard.pred == 12 then need (!b.guard.neg) 0x03 51
  else need (!unguarded op b) 0x03 52

/-- FL against the header and the instruction (R72): reason 0x08, also for the reserved code 11, which no other field can make right
(DESIGN CHOICE, log 70). -/
def checkFlag (e : Env) (op : BitVec 8) (fl : FlagSel) (low : Nat) : List EncFault :=
  match fl with
  | .rsv => [fault0 0x08 low]
  | .none => need (!flagWrites op) 0x08 low
  | .setA => need (flagSetting op && e.setA) 0x08 low
  | .setB => need (flagSetting op && e.setB) 0x08 low

/-- The uniform subset of a firmware complex (R88): reason 0x0B. -/
def checkSubset (e : Env) (op : BitVec 8) (b : Body) : List EncFault :=
  let ok := uniformSubset op && match b with
    | .m f => op == 0x8A || op == 0x9D || (f.dk && f.ak)
    | _ => true
  if e.onComplex && !ok then [⟨0x0B, 0, 0⟩] else []

/-- A first word whose second word lies outside its clause (R67). -/
def withoutExt (f : FX) : FX := { f with ext := 0 }

/-- Every encoding fault of a word in its place (R89): the fields, the guard, FL, the subset of a complex, a word that straddles
the clause end (0x06) and a clause-ending instruction before the last occupied slot (0x07). A straddling word has no EXT. -/
def bodyFaults (e : Env) (op : BitVec 8) (b : Body) : List EncFault :=
  let straddles := b.twoWords && e.nslot ≤ e.slot
  checkGuard op b ++ checkSubset e op b ++
  (match b with
   | .v3 f => checkV3 e op f
   | .vi f => checkVI e op f
   | .s f => checkS e op f
   | .m f => checkM e op f ++ checkFlag e op f.fl 12
   | .c f => checkC e op f
   | .x f => (if straddles then (checkX e op (withoutExt f)).filter (fun x => x.rank ≤ 64) else checkX e op f) ++ checkFlag e op f.fl 14) ++
  (if straddles then [⟨0x06, 0, 0⟩] else []) ++
  (if clauseEnding op && e.slot + (if b.twoWords then 1 else 0) < e.nslot then [⟨0x07, 0, 0⟩] else [])

/-- The fault that R89 reports: the lowest reason, then the lowest rank. Among the fields of EXT the highest is reported, and QS before
QT, which share field number 7 (DESIGN CHOICE, log 70). -/
def lowestFault : List EncFault → Option EncFault
  | [] => none
  | x :: xs =>
    match lowestFault xs with
    | none => some x
    | some y => some (if x.reason < y.reason || (x.reason == y.reason && x.rank ≤ y.rank) then x else y)

/-- The constructor a word decodes to is fixed by its selector field where rows share an opcode (R105, R121, R137, R174, R187,
R189, R225). -/
def rowMatches : Instr → Bool
  | .brx x => x.kr != .vec
  | .brxVector x => x.kr == .vec
  | .psets x => x.sub != 1
  | .psetsImm x => x.sub == 1
  | .srd x => x.sub != 1
  | .srdVector x => x.sub == 1
  | .spawn x => x.sub != 1
  | .spawnHeader x => x.sub == 1
  | .tend x => x.kr != .uni
  | .tendValue x => x.kr == .uni
  | .amovToVector x => x.sub != 1 && x.sub != 2
  | .amovToTile x => x.sub == 1
  | .amovTile x => x.sub == 2
  | _ => true

/-- The frame type of a row that a frame's arrival names (R376). -/
def frameCode : Instr → Option (BitVec 8 × Frame)
  | .write f => some (0x01, f) | .read f => some (0x02, f) | .atomic f => some (0x03, f) | .qpushFrame f => some (0x04, f)
  | .waitreg f => some (0x05, f) | .qctl f => some (0x06, f) | .replReq f => some (0x10, f) | .ownReq f => some (0x11, f)
  | .inval f => some (0x12, f) | .fetch f => some (0x13, f) | .pageData f => some (0x14, f) | .grant f => some (0x15, f)
  | .ordWrite f => some (0x18, f) | .ordUpdate f => some (0x19, f) | .looseUpdate f => some (0x1A, f)
  | .collParam f => some (0x20, f) | .collData f => some (0x21, f) | .resp f => some (0x80, f) | .ack f => some (0x81, f)
  | .nack f => some (0x82, f)
  | _ => none

/-- A frame that can be on the wire: at most 128 chunks of 32 bytes (R375). -/
def frameOk (f : Frame) : Bool := f.payload.length % 32 == 0 && f.payload.length ≤ 4096

/-- The encoding faults of an instruction of the table in an environment: of a program instruction those of its word; of an
event, a shape that nothing outside the device could send. -/
def faults (e : Env) (i : Instr) : List EncFault :=
  match view i with
  | some (op, b) => (if rowMatches i then [] else [⟨0x03, 0, 0⟩]) ++ bodyFaults e op b
  | none =>
    match frameCode i, i with
    | some (opc, f), _ => if f.opc == opc && frameOk f then [] else [⟨0x03, 0, 0⟩]
    | none, .frameDiscard f => if frameOk f then [] else [⟨0x03, 0, 0⟩]
    | none, .portalDmwr _ _ words _ => if words.length == 8 then [] else [⟨0x03, 0, 0⟩]
    | none, _ => []

end Sys2Proof.Machine
end

