-- ==== Sys2Proof/WellFormed.lean ====
section
/-! DEFINITION. Well-formed instructions: those with no encoding fault under the largest allotment, both set flags valid and a slot with room (R89, R90); an event is well formed when the outside could send it. -/

namespace Sys2Proof

/-- Whether the word has an EXT word (R83). -/
def twoWords (i : Instr) : Bool :=
  match Machine.view i with
  | some (_, b) => b.twoWords
  | none => false

/-- No encoding fault in the environment that refuses the least. -/
def WellFormed (i : Instr) : Bool := (Machine.faults (Machine.Env.largest (twoWords i)) i).isEmpty

end Sys2Proof
end

