-- ==== Sys2Proof/Decode.lean ====
section
/-! DEFINITION. The decoder: total on any words and bytes, rejecting by name; then the encoder written from the same tables (R64, R75 to R87). -/

namespace Sys2Proof

open Machine

/-- Why words are no instruction. -/
inductive Reject where
  | reservedOpcode (op : BitVec 8)
  | encoding (f : EncFault)
  | missingExt
  | missingBytes
deriving DecidableEq, Repr

/-- The common fields of a word (R75). -/
def opOf (w : Word) : BitVec 8 := w.extractLsb' 56 8
def guardOf (w : Word) : Guard := ⟨w.extractLsb' 52 4, w.getLsbD 51⟩

/-- The fields of a V3 word (R78). -/
def unpackV3 (w : Word) : FV3 where
  g := guardOf w
  d := w.extractLsb' 43 8
  a := w.extractLsb' 35 8
  b := w.extractLsb' 27 8
  c := w.extractLsb' 19 8
  ka := kindOf (w.extractLsb' 17 2)
  kb := kindOf (w.extractLsb' 15 2)
  kc := kindOf (w.extractLsb' 13 2)
  ty := tyOf (w.extractLsb' 8 5)
  rnd := rndOf (w.extractLsb' 5 3)
  sat := w.getLsbD 4
  sub := w.extractLsb' 0 4

/-- The fields of a VI word (R79). -/
def unpackVI (w : Word) : FVI where
  g := guardOf w
  d := w.extractLsb' 43 8
  a := w.extractLsb' 35 8
  ka := kindOf (w.extractLsb' 33 2)
  ty := tyOf (w.extractLsb' 28 5)
  rnd := rndOf (w.extractLsb' 25 3)
  sat := w.getLsbD 24
  sub := w.extractLsb' 20 4
  px := w.extractLsb' 16 4
  imm := w.extractLsb' 0 16

/-- The fields of an S word (R80). -/
def unpackS (w : Word) : FS where
  g := guardOf w
  d := w.extractLsb' 45 6
  a := w.extractLsb' 39 6
  b := w.extractLsb' 33 6
  c := w.extractLsb' 27 6
  ty := tyOf (w.extractLsb' 22 5)
  sat := w.getLsbD 21
  imb := w.getLsbD 20
  sub := w.extractLsb' 16 4
  imm := w.extractLsb' 0 16

/-- The fields of an M word (R81). -/
def unpackM (w : Word) : FM where
  g := guardOf w
  d := w.extractLsb' 43 8
  a := w.extractLsb' 35 8
  b := w.extractLsb' 27 8
  dk := w.getLsbD 26
  ak := w.getLsbD 25
  ty := tyOf (w.extractLsb' 20 5)
  ord := ordOf (w.extractLsb' 17 3)
  scope := scopeOf (w.extractLsb' 14 3)
  fl := flagOf (w.extractLsb' 12 2)
  sk := w.getLsbD 11
  sub := w.extractLsb' 8 3
  off := w.extractLsb' 0 8

/-- The fields of a C word (R82). -/
def unpackC (w : Word) : FC where
  g := guardOf w
  pa := w.extractLsb' 47 4
  jn := w.extractLsb' 44 3
  reg := w.extractLsb' 36 8
  kr := kindOf (w.extractLsb' 34 2)
  rsv := w.extractLsb' 32 2
  lo := w.extractLsb' 0 32

/-- The fields of an X word and its EXT (R83). -/
def unpackX (w ext : Word) : FX where
  g := guardOf w
  d := w.extractLsb' 43 8
  a := w.extractLsb' 35 8
  b := w.extractLsb' 27 8
  ty := tyOf (w.extractLsb' 22 5)
  ord := ordOf (w.extractLsb' 19 3)
  scope := scopeOf (w.extractLsb' 16 3)
  fl := flagOf (w.extractLsb' 14 2)
  pb := w.extractLsb' 10 4
  sub := w.extractLsb' 7 3
  imm7 := w.extractLsb' 0 7
  ext := ext

/-- Row 0x0 of the opcode map, R87. -/
def extractRow0 (lo : Nat) (w _ : Word) : Option Instr :=
  match lo with
  | 1 => some (.bra (unpackC w))
  | 2 => some (.brp (unpackC w))
  | 3 => (let f := unpackC w; if f.kr == .vec then some (.brxVector f) else some (.brx f))
  | 4 => some (.sbrz (unpackC w))
  | 5 => some (.sbrnz (unpackC w))
  | 6 => some (.call (unpackC w))
  | 7 => some (.ret (unpackC w))
  | 8 => some (.jset (unpackC w))
  | 9 => some (.jwait (unpackC w))
  | 10 => some (.jdrop (unpackC w))
  | 11 => some (.exit (unpackC w))
  | 12 => some (.nop (unpackC w))
  | _ => none

/-- Row 0x1 of the opcode map, R87. -/
def extractRow1 (lo : Nat) (w ext : Word) : Option Instr :=
  match lo with
  | 0 => some (.smov (unpackS w))
  | 1 => some (.sli (unpackX w ext))
  | 2 => some (.sadd (unpackS w))
  | 3 => some (.ssub (unpackS w))
  | 4 => some (.smul (unpackS w))
  | 5 => some (.smulh (unpackS w))
  | 6 => some (.smad (unpackS w))
  | 7 => some (.sand (unpackS w))
  | 8 => some (.sor (unpackS w))
  | 9 => some (.sxor (unpackS w))
  | 10 => some (.snot (unpackS w))
  | 11 => some (.sshl (unpackS w))
  | 12 => some (.sshr (unpackS w))
  | 13 => some (.ssar (unpackS w))
  | 14 => some (.smin (unpackS w))
  | 15 => some (.smax (unpackS w))
  | _ => none

/-- Row 0x2 of the opcode map, R87. -/
def extractRow2 (lo : Nat) (w ext : Word) : Option Instr :=
  match lo with
  | 0 => some (.scmp (unpackS w))
  | 1 => some (.ssel (unpackS w))
  | 2 => some (.spopc (unpackS w))
  | 3 => some (.sclz (unpackS w))
  | 4 => some (.sbfe (unpackS w))
  | 5 => some (.sbfi (unpackS w))
  | 8 => some (.vmov (unpackV3 w))
  | 9 => some (.vli (unpackX w ext))
  | 10 => some (.vadd (unpackV3 w))
  | 11 => some (.vsub (unpackV3 w))
  | 12 => some (.vmul (unpackV3 w))
  | 13 => some (.vmulh (unpackV3 w))
  | 14 => some (.vmad (unpackV3 w))
  | 15 => some (.vmadw (unpackV3 w))
  | _ => none

/-- Row 0x3 of the opcode map, R87. -/
def extractRow3 (lo : Nat) (w _ : Word) : Option Instr :=
  match lo with
  | 0 => some (.vaddc (unpackV3 w))
  | 1 => some (.vabs (unpackV3 w))
  | 2 => some (.vneg (unpackV3 w))
  | 3 => some (.vmin (unpackV3 w))
  | 4 => some (.vmax (unpackV3 w))
  | 5 => some (.vand (unpackV3 w))
  | 6 => some (.vor (unpackV3 w))
  | 7 => some (.vxor (unpackV3 w))
  | 8 => some (.vnot (unpackV3 w))
  | 9 => some (.vshl (unpackV3 w))
  | 10 => some (.vshr (unpackV3 w))
  | 11 => some (.vsar (unpackV3 w))
  | 12 => some (.vrot (unpackV3 w))
  | 13 => some (.vbfe (unpackVI w))
  | 14 => some (.vbfi (unpackVI w))
  | 15 => some (.vpopc (unpackV3 w))
  | _ => none

/-- Row 0x4 of the opcode map, R87. -/
def extractRow4 (lo : Nat) (w _ : Word) : Option Instr :=
  match lo with
  | 0 => some (.vclz (unpackV3 w))
  | 1 => some (.vbrev (unpackV3 w))
  | 2 => some (.vsel (unpackV3 w))
  | 3 => some (.vlea (unpackV3 w))
  | 8 => some (.fadd (unpackV3 w))
  | 9 => some (.fsub (unpackV3 w))
  | 10 => some (.fmul (unpackV3 w))
  | 11 => some (.ffma (unpackV3 w))
  | 12 => some (.fmin (unpackV3 w))
  | 13 => some (.fmax (unpackV3 w))
  | 14 => some (.fabs (unpackV3 w))
  | 15 => some (.fneg (unpackV3 w))
  | _ => none

/-- Row 0x5 of the opcode map, R87. -/
def extractRow5 (lo : Nat) (w _ : Word) : Option Instr :=
  match lo with
  | 0 => some (.frcp (unpackV3 w))
  | 1 => some (.frsq (unpackV3 w))
  | 2 => some (.fsqrt (unpackV3 w))
  | 3 => some (.fexp2 (unpackV3 w))
  | 4 => some (.flog2 (unpackV3 w))
  | 5 => some (.fsin (unpackV3 w))
  | 6 => some (.fcos (unpackV3 w))
  | 7 => some (.frnd (unpackV3 w))
  | 8 => some (.fclass (unpackVI w))
  | 9 => some (.fdot2 (unpackV3 w))
  | 12 => some (.cvt (unpackV3 w))
  | 13 => some (.pack (unpackV3 w))
  | 14 => some (.unpk (unpackVI w))
  | 15 => some (.qnt (unpackV3 w))
  | _ => none

/-- Row 0x6 of the opcode map, R87. -/
def extractRow6 (lo : Nat) (w _ : Word) : Option Instr :=
  match lo with
  | 0 => some (.vcmp (unpackV3 w))
  | 1 => some (.fcmp (unpackV3 w))
  | 2 => some (.pand (unpackV3 w))
  | 3 => some (.por (unpackV3 w))
  | 4 => some (.pxor (unpackV3 w))
  | 5 => some (.pnot (unpackV3 w))
  | 6 => some (.pmov (unpackV3 w))
  | 7 => (let f := unpackVI w; if f.sub == 1 then some (.psetsImm f) else some (.psets f))
  | 8 => some (.pgets (unpackVI w))
  | _ => none

/-- Row 0x7 of the opcode map, R87. -/
def extractRow7 (lo : Nat) (w _ : Word) : Option Instr :=
  match lo with
  | 0 => some (.shfl (unpackVI w))
  | 1 => some (.bcast (unpackVI w))
  | 2 => some (.ballot (unpackV3 w))
  | 3 => some (.vote (unpackV3 w))
  | 4 => some (.redx (unpackV3 w))
  | 5 => some (.scan (unpackV3 w))
  | 6 => some (.match (unpackV3 w))
  | _ => none

/-- Row 0x8 of the opcode map, R87. -/
def extractRow8 (lo : Nat) (w _ : Word) : Option Instr :=
  match lo with
  | 0 => some (.ld (unpackM w))
  | 1 => some (.st (unpackM w))
  | 2 => some (.lds (unpackM w))
  | 3 => some (.sts (unpackM w))
  | 4 => some (.ldn (unpackM w))
  | 5 => some (.stn (unpackM w))
  | 6 => some (.pref (unpackM w))
  | 7 => some (.atom (unpackM w))
  | 8 => some (.atoms (unpackM w))
  | 9 => some (.red (unpackM w))
  | 10 => some (.fence (unpackM w))
  | 11 => some (.mwait (unpackM w))
  | 12 => some (.seal (unpackM w))
  | 13 => some (.unseal (unpackM w))
  | _ => none

/-- Row 0x9 of the opcode map, R87. -/
def extractRow9 (lo : Nat) (w _ : Word) : Option Instr :=
  match lo with
  | 0 => some (.ptest (unpackV3 w))
  | 1 => some (.pclr (unpackV3 w))
  | 2 => some (.psel (unpackV3 w))
  | 3 => some (.pinj (unpackV3 w))
  | 4 => some (.sigchk (unpackC w))
  | 5 => some (.sigrd (unpackS w))
  | 8 => some (.trap (unpackC w))
  | 9 => some (.tret (unpackC w))
  | 10 => (let f := unpackVI w; if f.sub == 1 then some (.srdVector f) else some (.srd f))
  | 11 => some (.swr (unpackVI w))
  | 12 => some (.svc (unpackC w))
  | 13 => some (.tlbi (unpackM w))
  | 14 => some (.halt (unpackC w))
  | 15 => some (.eret (unpackC w))
  | _ => none

/-- Row 0xA of the opcode map, R87. -/
def extractRowA (lo : Nat) (w ext : Word) : Option Instr :=
  match lo with
  | 0 => (let f := unpackX w ext; if f.sub == 1 then some (.spawnHeader f) else some (.spawn f))
  | 1 => (let f := unpackC w; if f.kr == .uni then some (.tendValue f) else some (.tend f))
  | 2 => some (.yield (unpackC w))
  | 3 => some (.role (unpackX w ext))
  | 4 => some (.tfetch (unpackS w))
  | 5 => some (.tdone (unpackS w))
  | 6 => some (.joinf (unpackM w))
  | 7 => some (.fprobe (unpackM w))
  | 8 => some (.fset (unpackM w))
  | 9 => some (.ffail (unpackM w))
  | 10 => some (.sgadd (unpackM w))
  | 11 => some (.sgwait (unpackM w))
  | 12 => some (.qpush (unpackM w))
  | 13 => some (.qflush (unpackM w))
  | 14 => some (.qstat (unpackM w))
  | _ => none

/-- Row 0xB of the opcode map, R87. -/
def extractRowB (lo : Nat) (w ext : Word) : Option Instr :=
  match lo with
  | 0 => some (.cpy (unpackX w ext))
  | 1 => some (.cpyl (unpackM w))
  | 2 => some (.cpyg (unpackX w ext))
  | 8 => some (.bari (unpackM w))
  | 9 => some (.bara (unpackM w))
  | 10 => some (.barx (unpackM w))
  | 11 => some (.barw (unpackM w))
  | 12 => some (.barp (unpackM w))
  | _ => none

/-- Row 0xC of the opcode map, R87. -/
def extractRowC (lo : Nat) (w ext : Word) : Option Instr :=
  match lo with
  | 0 => some (.qld (unpackM w))
  | 1 => some (.qst (unpackM w))
  | 2 => some (.qset (unpackVI w))
  | 3 => some (.qget (unpackVI w))
  | 8 => some (.mma (unpackX w ext))
  | 9 => some (.mtile (unpackX w ext))
  | 10 => some (.mrsv (unpackC w))
  | 11 => some (.mrel (unpackC w))
  | 12 => some (.aclr (unpackV3 w))
  | 13 => (let f := unpackV3 w; if f.sub == 1 then some (.amovToTile f) else if f.sub == 2 then some (.amovTile f) else some (.amovToVector f))
  | 14 => some (.ald (unpackM w))
  | 15 => some (.ast (unpackM w))
  | _ => none

/-- Row 0xD of the opcode map, R87. -/
def extractRowD (lo : Nat) (w _ : Word) : Option Instr :=
  match lo with
  | 0 => some (.skwin (unpackVI w))
  | _ => none

/-- The instruction whose fields a word holds, whatever their values; none for a reserved major opcode (R87). -/
def extract (w ext : Word) : Option Instr :=
  let lo := (opOf w).toNat % 16
  match (opOf w).toNat / 16 with
  | 0 => extractRow0 lo w ext
  | 1 => extractRow1 lo w ext
  | 2 => extractRow2 lo w ext
  | 3 => extractRow3 lo w ext
  | 4 => extractRow4 lo w ext
  | 5 => extractRow5 lo w ext
  | 6 => extractRow6 lo w ext
  | 7 => extractRow7 lo w ext
  | 8 => extractRow8 lo w ext
  | 9 => extractRow9 lo w ext
  | 10 => extractRowA lo w ext
  | 11 => extractRowB lo w ext
  | 12 => extractRowC lo w ext
  | 13 => extractRowD lo w ext
  | _ => none

/-- The well-formed instruction of one or two words, or why there is none. -/
def decodeWords (ws : List Word) : Except Reject Instr :=
  match ws with
  | [] => .error .missingBytes
  | w :: rest =>
    match extract w (rest.getD 0 0) with
    | none => .error (.reservedOpcode (opOf w))
    | some i =>
      if twoWords i && rest.isEmpty then .error .missingExt
      else match lowestFault (faults (Env.largest (twoWords i)) i) with
        | some f => .error (.encoding f)
        | none => .ok i

/-- Eight little-endian bytes as a word (R11). -/
def wordOfBytes (bs : List Byte) : Word :=
  (bs.take 8).foldr (fun b acc => (acc <<< 8) ||| b.setWidth 64) 0

/-- Bytes as words, by structural recursion on a count of words. -/
def wordsOfBytes : Nat → List Byte → List Word
  | 0, _ => []
  | n + 1, bs => if bs.length < 8 then [] else wordOfBytes bs :: wordsOfBytes n (bs.drop 8)

/-- The decoder on any bytes: the instruction at their start and the bytes after it. -/
def decode (bs : List Byte) : Except Reject (Instr × List Byte) :=
  match decodeWords (wordsOfBytes 2 bs) with
  | .error r => .error r
  | .ok i => .ok (i, bs.drop (if twoWords i then 16 else 8))

/-- The guard bits of a word (R75). -/
def guardBits (g : Guard) : BitVec 5 := g.pred ++ BitVec.ofBool g.neg

/-- A V3 word (R78). -/
def packV3 (op : BitVec 8) (f : FV3) : Word :=
  op ++ guardBits f.g ++ f.d ++ f.a ++ f.b ++ f.c ++ kindCode f.ka ++ kindCode f.kb ++ kindCode f.kc ++ tyCode f.ty ++
    rndCode f.rnd ++ BitVec.ofBool f.sat ++ f.sub

/-- A VI word (R79). -/
def packVI (op : BitVec 8) (f : FVI) : Word :=
  op ++ guardBits f.g ++ f.d ++ f.a ++ kindCode f.ka ++ tyCode f.ty ++ rndCode f.rnd ++ BitVec.ofBool f.sat ++ f.sub ++ f.px ++
    f.imm

/-- An S word (R80). -/
def packS (op : BitVec 8) (f : FS) : Word :=
  op ++ guardBits f.g ++ f.d ++ f.a ++ f.b ++ f.c ++ tyCode f.ty ++ BitVec.ofBool f.sat ++ BitVec.ofBool f.imb ++ f.sub ++ f.imm

/-- An M word (R81). -/
def packM (op : BitVec 8) (f : FM) : Word :=
  op ++ guardBits f.g ++ f.d ++ f.a ++ f.b ++ BitVec.ofBool f.dk ++ BitVec.ofBool f.ak ++ tyCode f.ty ++ ordCode f.ord ++
    scopeCode f.scope ++ flagCode f.fl ++ BitVec.ofBool f.sk ++ f.sub ++ f.off

/-- A C word (R82). -/
def packC (op : BitVec 8) (f : FC) : Word :=
  op ++ guardBits f.g ++ f.pa ++ f.jn ++ f.reg ++ kindCode f.kr ++ f.rsv ++ f.lo

/-- The first word of an X instruction (R83). -/
def packX (op : BitVec 8) (f : FX) : Word :=
  op ++ guardBits f.g ++ f.d ++ f.a ++ f.b ++ tyCode f.ty ++ ordCode f.ord ++ scopeCode f.scope ++ flagCode f.fl ++ f.pb ++
    f.sub ++ f.imm7

/-- The words of a body under its major opcode. -/
def encodeBody (op : BitVec 8) : Body → List Word
  | .v3 f => [packV3 op f]
  | .vi f => [packVI op f]
  | .s f => [packS op f]
  | .m f => [packM op f]
  | .c f => [packC op f]
  | .x f => [packX op f, f.ext]

/-- The words of an instruction; none for a step or event of the device, which has no encoding. -/
def encode (i : Instr) : List Word :=
  match view i with
  | some (op, b) => encodeBody op b
  | none => []

/-- The host's numbering of an instruction's bits: the first word is bits 63 to 0, the EXT word bits 127 to 64. -/
def decodeTableWord (nbits w : Nat) : Option Instr :=
  let v := if nbits == 0 then w else w % 2 ^ nbits
  match decodeWords [BitVec.ofNat 64 v, BitVec.ofNat 64 (v / 2 ^ 64)] with
  | .ok i => some i
  | .error _ => none

end Sys2Proof
end

