-- ==== Sys2Proof/Machine/Mem.lean ====
section
/-! DEFINITION. Bytes and word poison of a memory in canonical form (R149, R286, R402). -/

namespace Sys2Proof.Machine

/-- What an unlisted address reads as. DESIGN CHOICE, log 2 (HBM4E) and DESIGN CHOICE, log 3 (scratchpad): 0. -/
def Memory.unlisted : Byte := 0

/-- The byte at an address among rising cells. -/
def cellGet : List Host.Cell → Nat → Byte
  | [], _ => Memory.unlisted
  | (k, b) :: rest, a => if k == a then b else if a < k then Memory.unlisted else cellGet rest a

/-- Write a byte among rising cells; the value of an unlisted address removes the cell. -/
def cellSet : List Host.Cell → Nat → Byte → List Host.Cell
  | [], a, v => if v == Memory.unlisted then [] else [(a, v)]
  | (k, b) :: rest, a, v =>
    if k == a then (if v == Memory.unlisted then rest else (a, v) :: rest)
    else if a < k then (if v == Memory.unlisted then (k, b) :: rest else (a, v) :: (k, b) :: rest)
    else (k, b) :: cellSet rest a v

/-- Rising addresses above a bound, no cell holding the unlisted value. -/
def cellsAbove : Option Nat → List Host.Cell → Bool
  | _, [] => true
  | none, (k, b) :: rest => b != Memory.unlisted && cellsAbove (some k) rest
  | some l, (k, b) :: rest => l < k && b != Memory.unlisted && cellsAbove (some k) rest

/-- Rising numbers above a bound. -/
def numsAbove : Option Nat → List Nat → Bool
  | _, [] => true
  | none, k :: rest => numsAbove (some k) rest
  | some l, k :: rest => l < k && numsAbove (some k) rest

/-- The canonical form of a memory. -/
def Memory.wf (m : Memory) : Bool := cellsAbove none m.cells && numsAbove none m.poi

/-- A rising list without a number. -/
def removeNat : List Nat → Nat → List Nat
  | [], _ => []
  | b :: rest, a => if a == b then rest else b :: removeNat rest a

/-- Read one byte. -/
def Memory.byte (m : Memory) (a : Nat) : Byte := cellGet m.cells a
/-- Write one byte. -/
def Memory.setByte (m : Memory) (a : Nat) (v : Byte) : Memory := { m with cells := cellSet m.cells a v }
/-- Whether the word that holds an address is poisoned. -/
def Memory.poisoned (m : Memory) (a : Nat) : Bool := m.poi.contains (a / 4)
/-- Set or clear the poison of the word that holds an address. -/
def Memory.setPoison (m : Memory) (a : Nat) (p : Bool) : Memory :=
  { m with poi := if p then insertNat m.poi (a / 4) else removeNat m.poi (a / 4) }

/-- Read n bytes from an address. -/
def Memory.bytes (m : Memory) (a n : Nat) : List Byte := (List.range n).map fun i => m.byte (a + i)

/-- Write bytes from an address on. -/
def Memory.setBytes (m : Memory) (a : Nat) (bs : List Byte) : Memory :=
  (bs.foldl (fun (acc : Memory × Nat) b => (acc.1.setByte acc.2 b, acc.2 + 1)) (m, a)).1

/-- The words (address / 4) that n bytes at an address touch. -/
def wordsTouched (a n : Nat) : List Nat := if n == 0 then [] else (List.range ((a + n - 1) / 4 - a / 4 + 1)).map (· + a / 4)

/-- Whether any word that n bytes touch is poisoned (R149). -/
def Memory.anyPoison (m : Memory) (a n : Nat) : Bool := (wordsTouched a n).any fun w => m.poi.contains w

/-- A store of data whose words carry poison `p`, counted from the word that holds its first byte: a word written whole takes the data's poison, a word written in part its old
poison or the data's (R149). -/
def Memory.store (m : Memory) (a : Nat) (bs : List Byte) (p : Nat → Bool) : Memory :=
  let n := bs.length
  (wordsTouched a n).foldl (fun acc w =>
    let whole := a ≤ 4 * w && 4 * w + 4 ≤ a + n
    let old := acc.poi.contains w
    acc.setPoison (4 * w) (p (w - a / 4) || (!whole && old))) (m.setBytes a bs)

/-- A little-endian word of 8 bytes, and whether either of its 32-bit words is poisoned. -/
def Memory.word64 (m : Memory) (a : Nat) : Word × Bool := (BitVec.ofNat 64 (ofBytes (m.bytes a 8)), m.anyPoison a 8)

/-- Write an unpoisoned 8-byte word. -/
def Memory.setWord64 (m : Memory) (a : Nat) (w : Word) : Memory := m.store a (toBytes 8 w.toNat) fun _ => false

end Sys2Proof.Machine
end

