-- ==== Sys2Proof/Machine/Ops.lean ====
section
/-! DEFINITION. The named operations over the registers of a task, its splits and joins, its end, error records, and the taking of a trap (R17 to R40, R73, R98, R100, R129 to R134, R228 to R236, R417 to R419, R444) and the return from it (R173). -/

namespace Sys2Proof.Machine

/-! ### Registers and outstanding writes -/

def VReg.zero : VReg := ⟨List.replicate 32 0, 0⟩
def UReg.zero : UReg := ⟨0, false, false⟩
def PReg.zero : PReg := ⟨0, 0⟩
def QReg.zero : QReg := ⟨List.replicate 16 0, 0⟩
def Tile.zero : Tile := ⟨List.replicate 32 (List.replicate 32 0), List.replicate 32 0⟩
def Join.invalid : Join := ⟨false, false, 0, [], 0, false⟩

/-- The elements of `new` in `lanes`, of `old` elsewhere (R61, R98). -/
def VReg.merge (lanes : Mask) (new old : VReg) : VReg :=
  ⟨lanes32.map fun l => if lanes.getLsbD l then at32 new.e l else at32 old.e l, (new.poi &&& lanes) ||| (old.poi &&& ~~~lanes)⟩

def PReg.merge (lanes : Mask) (new old : PReg) : PReg :=
  ⟨(new.v &&& lanes) ||| (old.v &&& ~~~lanes), (new.poi &&& lanes) ||| (old.poi &&& ~~~lanes)⟩

def UReg.merge (lo hi : Bool) (new old : UReg) : UReg :=
  ⟨(if hi then new.v.extractLsb' 32 32 else old.v.extractLsb' 32 32) ++ (if lo then new.v.extractLsb' 0 32 else old.v.extractLsb' 0 32),
   if lo then new.lo else old.lo, if hi then new.hi else old.hi⟩

def QReg.merge (els : BitVec 16) (new old : QReg) : QReg :=
  ⟨(List.range 16).map fun i => if els.getLsbD i then at32 new.e i else at32 old.e i, (new.poi &&& els) ||| (old.poi &&& ~~~els)⟩

def Tile.merge (els : List Mask) (new old : Tile) : Tile :=
  ⟨lanes32.map fun r => (VReg.merge (els.getD r 0) ⟨new.rows.getD r [], 0⟩ ⟨old.rows.getD r [], 0⟩).e,
   lanes32.map fun r => (new.poi.getD r 0 &&& els.getD r 0) ||| (old.poi.getD r 0 &&& ~~~(els.getD r 0))⟩

/-- A mask of free choices, numbered from k (R73; DESIGN CHOICE, log 5). -/
def freeMask (k : Nat) : Mask := maskOf fun l => Config.pick (32 * k + l)

/-- A write of an outstanding operation without some lanes. -/
def PendWrite.without (k : Mask) : PendWrite → PendWrite
  | .v r lanes new again => .v r (lanes &&& ~~~k) new again
  | .p r lanes new again => .p r (lanes &&& ~~~k) new again
  | w => w

/-- The writes of the outstanding operations, oldest first; a dead lane is never written (R62). -/
def Task.outstanding (t : Task) : List PendWrite := (t.pend.flatMap (·.writes)).map (PendWrite.without t.xdead)

/-- The stored register. -/
def Task.vRaw (t : Task) (r : Nat) : VReg := tabGetD t.v r VReg.zero
def Task.uRaw (t : Task) (r : Nat) : UReg := tabGetD t.u r UReg.zero
def Task.pRaw (t : Task) (r : Nat) : PReg := tabGetD t.p r PReg.zero
def Task.qRaw (t : Task) (r : Nat) : QReg := tabGetD t.q r QReg.zero
def Task.aRaw (t : Task) (r : Nat) : Tile := tabGetD t.acc r Tile.zero

/-- A vector register as an instruction reads it: elements of an outstanding operation's destination are old or new (R73). The
choices are numbered by the task's count of issues and the operand number. -/
def Task.readV (t : Task) (opno r : Nat) : VReg :=
  t.outstanding.foldl (fun old w => match w with
    | .v r' lanes new _ => if r' == r then VReg.merge (lanes &&& freeMask (4096 * t.free + 256 * opno + r)) new old else old
    | _ => old) (t.vRaw r)

def Task.readU (t : Task) (opno r : Nat) : UReg :=
  t.outstanding.foldl (fun old w => match w with
    | .u r' here new _ =>
      if r' == r && here then
        let k := freeMask (4096 * t.free + 2048 + 64 * opno + r)
        UReg.merge (k.getLsbD 0) (k.getLsbD 1) new old
      else old
    | _ => old) (t.uRaw r)

def Task.readP (t : Task) (opno r : Nat) : PReg :=
  t.outstanding.foldl (fun old w => match w with
    | .p r' lanes new _ => if r' == r then PReg.merge (lanes &&& freeMask (4096 * t.free + 3072 + 16 * opno + r)) new old else old
    | _ => old) (t.pRaw r)

def Task.readQ (t : Task) (opno r : Nat) : QReg :=
  t.outstanding.foldl (fun old w => match w with
    | .q r' els new _ =>
      if r' == r then QReg.merge (els &&& (freeMask (4096 * t.free + 3328 + 16 * opno + r)).setWidth 16) new old else old
    | _ => old) (t.qRaw r)

def Task.readA (t : Task) (opno r : Nat) : Tile :=
  t.outstanding.foldl (fun old w => match w with
    | .a r' els new _ =>
      if r' == r then
        Tile.merge (lanes32.map fun row => els.getD row 0 &&& freeMask (4096 * t.free + 2 ^ 40 * (row + 1) + 256 * opno + r)) new old
      else old
    | _ => old) (t.aRaw r)

/-- Mark elements that a later instruction writes before an outstanding write to them has been made (R73). -/
def Task.markAgain (t : Task) (f : PendWrite → PendWrite) : Task :=
  { t with pend := t.pend.map fun o => { o with writes := o.writes.map f } }

/-- Write the contributing lanes of a vector register; every other element keeps its value and poison (R98). -/
def Task.writeV (t : Task) (r : Nat) (lanes : Mask) (new : VReg) : Task :=
  let t := t.markAgain fun w => match w with
    | .v r' l n again => if r' == r then .v r' l n (again ||| lanes) else w
    | _ => w
  { t with v := tabSet t.v r (VReg.merge lanes new (t.vRaw r)) }

/-- Write a uniform register (R27). -/
def Task.writeU (t : Task) (r : Nat) (new : UReg) : Task :=
  let t := t.markAgain fun w => match w with
    | .u r' h n again => .u r' h n (again || r' == r)
    | _ => w
  { t with u := tabSet t.u r new }

/-- Write the contributing lanes of a predicate (R98). -/
def Task.writeP (t : Task) (r : Nat) (lanes : Mask) (new : PReg) : Task :=
  let t := t.markAgain fun w => match w with
    | .p r' l n again => if r' == r then .p r' l n (again ||| lanes) else w
    | _ => w
  { t with p := tabSet t.p r (PReg.merge lanes new (t.pRaw r)) }

/-- Write elements of a shape register (R216). -/
def Task.writeQ (t : Task) (r : Nat) (els : BitVec 16) (new : QReg) : Task :=
  let t := t.markAgain fun w => match w with
    | .q r' l n again => if r' == r then .q r' l n (again ||| els) else w
    | _ => w
  { t with q := tabSet t.q r (QReg.merge els new (t.qRaw r)) }

/-- Write elements of an accumulator tile (R225). -/
def Task.writeA (t : Task) (r : Nat) (els : List Mask) (new : Tile) : Task :=
  let t := t.markAgain fun w => match w with
    | .a r' l n again => if r' == r then .a r' l n (lanes32.map fun i => again.getD i 0 ||| els.getD i 0) else w
    | _ => w
  { t with acc := tabSet t.acc r (Tile.merge els new (t.aRaw r)) }

/-- Every element of a tile. -/
def allEls : List Mask := List.replicate 32 0xFFFFFFFF

/-- Whether a uniform register read as a 64-bit operand is poisoned (R27). -/
def UReg.poi (x : UReg) : Bool := x.lo || x.hi

/-- The shape tag of a vector register (R23): 0 U, 1 A, 2 G. -/
def VReg.tag (x : VReg) : Nat :=
  let e0 := at32 x.e 0
  let step := at32 x.e 1 - e0
  let samePoi := x.poi == 0 || x.poi == 0xFFFFFFFF
  if samePoi && lanes32.all (fun l => at32 x.e l == e0) then 0
  else if samePoi && lanes32.all (fun l => at32 x.e l == e0 + BitVec.ofNat 32 l * step) then 1
  else 2

/-! ### Fields of a shape register (R214) -/

def QReg.w (q : QReg) (i : Nat) : Nat := (at32 q.e i).toNat
/-- Bits [low+width-1:low] of element i. -/
def QReg.f (q : QReg) (i low width : Nat) : Nat := q.w i / 2 ^ low % 2 ^ width
def QReg.ty (q : QReg) : Ty := tyOf (BitVec.ofNat 5 (q.f 2 0 5))
def QReg.spad (q : QReg) : Bool := q.f 2 6 1 == 1
def QReg.skew (q : QReg) : Bool := q.f 2 7 1 == 1
def QReg.win (q : QReg) : Nat := q.f 2 8 2
def QReg.base (q : QReg) : Nat := q.w 0 + 2 ^ 32 * q.f 1 0 23
def QReg.nx (q : QReg) : Nat := q.f 3 0 16 + 1
def QReg.ny (q : QReg) : Nat := q.f 3 16 16 + 1
def QReg.nz (q : QReg) : Nat := q.f 4 0 16 + 1
def QReg.strY (q : QReg) : Nat := q.w 5
def QReg.strZ (q : QReg) : Nat := q.w 6
def QReg.tx (q : QReg) : Nat := q.f 7 0 16 + 1
def QReg.tY (q : QReg) : Nat := q.f 7 16 16 + 1
def QReg.tz (q : QReg) : Nat := q.f 8 0 16 + 1
def QReg.x0 (q : QReg) : Nat := q.f 9 0 16
def QReg.y0 (q : QReg) : Nat := q.f 9 16 16
def QReg.z0 (q : QReg) : Nat := q.f 10 0 16
def QReg.stamp (q : QReg) : Nat := q.w 11 + 2 ^ 32 * q.f 12 0 23

/-! ### Parts of the machine -/

def Mach.task (m : Mach) (t : Nat) : Option Task := tabGet m.tasks t
def Mach.setTask (m : Mach) (t : Nat) (x : Task) : Mach := { m with tasks := tabSet m.tasks t x }
def Mach.modTask (m : Mach) (t : Nat) (f : Task → Task) : Mach := { m with tasks := tabMod m.tasks t f }
def Mach.team (m : Mach) (t : Nat) : Option Team := tabGet m.teams t
def Mach.setTeam (m : Mach) (t : Nat) (x : Team) : Mach := { m with teams := tabSet m.teams t x }
def Mach.modTeam (m : Mach) (t : Nat) (f : Team → Team) : Mach := { m with teams := tabMod m.teams t f }

def Part.fresh : Part := ⟨[], 0, none⟩
def Core.fresh : Core := ⟨0, [], [], ⟨[], []⟩, [], 0, false, none, none, none, [], none, none, [], []⟩
def Die.fresh : Die := ⟨[], [], [], [], none, [], [], [], [], [], [], none, none⟩

/-- Cores are numbered 128 × die + logical core. -/
def coreNo (die core : Nat) : Nat := 128 * die + core
def dieOf (core : Nat) : Nat := core / 128
def logicalOf (core : Nat) : Nat := core % 128

def Mach.core (m : Mach) (c : Nat) : Core := tabGetD m.cores c Core.fresh
def Mach.setCore (m : Mach) (c : Nat) (x : Core) : Mach := { m with cores := tabSet m.cores c x }
def Mach.modCore (m : Mach) (c : Nat) (f : Core → Core) : Mach := m.setCore c (f (m.core c))
def Mach.die (m : Mach) (d : Nat) : Die := tabGetD m.dies d Die.fresh
def Mach.setDie (m : Mach) (d : Nat) (x : Die) : Mach := { m with dies := tabSet m.dies d x }
def Mach.modDie (m : Mach) (d : Nat) (f : Die → Die) : Mach := m.setDie d (f (m.die d))
def Core.part (c : Core) (p : Nat) : Part := tabGetD c.parts p Part.fresh
def Core.setPart (c : Core) (p : Nat) (x : Part) : Core := { c with parts := tabSet c.parts p x }
def Mach.ctx (m : Mach) (c : Nat) : Option Ctx := tabGet m.ctxs c
def Mach.modCtx (m : Mach) (c : Nat) (f : Ctx → Ctx) : Mach := { m with ctxs := tabMod m.ctxs c f }

/-- The context number of the firmware-owned system context (R39; DESIGN CHOICE, log 16). -/
def systemContext : Nat := 0

/-- Word i of a context record (R338). -/
def Ctx.word (c : Ctx) (i : Nat) : Word := c.record.getD i 0
/-- CTL.WORLD (R339). -/
def Ctx.world (c : Ctx) : Bool := fieldOf (c.word 0) 62 1 == 1
/-- The world of a task's accesses (R367). -/
def Mach.worldOf (m : Mach) (ctx : Nat) : Bool := match m.ctx ctx with
  | some c => c.world
  | none => false

/-- Draw from the counter of the machine. -/
def Mach.fresh (m : Mach) : Nat × Mach := (m.nextId, { m with nextId := m.nextId + 1 })

/-! ### Error records (R417 to R419) -/

/-- The reporting unit in the layout of xunit[15:0] (R129), which names compute dies only. -/
def unitOf (core part kind : Nat) : Nat := 8192 * (dieOf core % 8) + 64 * logicalOf core + 16 * part + kind

/-- Word 0 of an error record (R418). -/
def recordHead (cls cause reason detail unit dev : Nat) : Word :=
  BitVec.ofNat 64 (2 ^ 56 * cls + 2 ^ 48 * cause + 2 ^ 40 * reason + 2 ^ 32 * detail + 2 ^ 16 * unit + dev)

/-- The place of a record among those of its cycle (R418), from its UNIT: by die, the cores, then the agents that are none; the agents of
the I/O dies last. -/
def recordOrder (io : Bool) (words : List Word) : Nat :=
  let unit := fieldOf (words.getD 0 0) 16 16
  if io then 2 ^ 12 else 256 * (unit / 8192) + if 4 ≤ unit % 16 then 128 else unit / 64 % 128

/-- An error record of eight words for a context; it is written with those of its cycle, in the order of R418. -/
def Mach.errorRecord (m : Mach) (ctx : Nat) (words : List Word) (io : Bool := false) : Mach :=
  { m with posted := m.posted ++ [(ctx, recordOrder io words, words)] }

/-- Add to a counter of the error area: LKILLS +32, SIGMISN +40, WDOGN +48 (R417). -/
def Mach.errorCount (m : Mach) (ctx offset n : Nat) : Mach :=
  match m.ctx ctx with
  | none => m
  | some c =>
    let a := (c.word 15).toNat + offset
    { m with mem := m.mem.setWord64 a ((m.mem.word64 a).1 + BitVec.ofNat 64 n) }

/-! ### Completion flags (R71) -/

def Task.raiseFlag (t : Task) (n : Nat) : Task := { t with cf := t.cf.set n (t.cf.getD n 0 + 1) }
def Task.lowerFlag (t : Task) (n : Nat) : Task := { t with cf := t.cf.set n (t.cf.getD n 0 - 1) }
/-- Every flag reads zero (R74). -/
def Task.flagsZero (t : Task) : Bool := t.cf.all (· == 0)
/-- No counted store is outstanding (R150). -/
def Task.storesDone (t : Task) : Bool := t.pend.all fun o => !o.counted
/-- Nothing is outstanding (R74, R150). -/
def Task.quiet (t : Task) : Bool := t.flagsZero && t.storesDone

/-! ### Splits and joins -/

/-- xepc as CLAUSE and SLOT (R38). -/
def epcOf (clause : Word) (slot : Nat) : Word := BitVec.ofNat 64 (clause.toNat % 2 ^ 48 / 64 * 64 + 8 * slot)

def Task.split (t : Task) (e : Nat) : Option Split := (t.splits.getD e none)
def Task.setSplit (t : Task) (e : Nat) (s : Option Split) : Task := { t with splits := t.splits.set e s }
def Task.modSplit (t : Task) (e : Nat) (f : Split → Split) : Task :=
  match t.split e with
  | some s => t.setSplit e (some (f s))
  | none => t
def Task.join (t : Task) (j : Nat) : Join := tabGetD t.joins j Join.invalid
def Task.pjoin (t : Task) (j : Nat) : Join := tabGetD t.pjoins j Join.invalid

/-- Write a join register and its Parallax copy. -/
def Task.setJoins (t : Task) (j : Nat) (x y : Join) : Task := { t with joins := tabSet t.joins j x, pjoins := tabSet t.pjoins j y }
/-- Change a join register; the Parallax copy makes the same change to what it holds itself (R169). -/
def Task.modJoin (t : Task) (j : Nat) (f : Join → Join) : Task := t.setJoins j (f (t.join j)) (f (t.pjoin j))

/-- The arrived mask of a join register (R233). -/
def Join.arrived (j : Join) : Mask := j.arrivals.foldl (fun acc a => acc ||| a.1) 0

/-- The completion check of a join (R140): every expected lane has arrived. -/
def Join.check (j : Join) : Join := { j with due := j.due || (j.valid && j.expected &&& ~~~j.arrived == 0) }

/-- Remove lanes from the expected mask of every valid join register and check each (R35, R142). -/
def Task.unexpect (t : Task) (k : Mask) : Task :=
  (List.range 8).foldl (fun (t : Task) j =>
    if (t.join j).valid then t.modJoin j fun x => { x with expected := x.expected &&& ~~~k }.check else t) t

/-- Move a split to a clause: it stands at slot 1 (or a resumption slot) and has not issued from it (R64, R243). -/
def Split.goto (s : Split) (clause : Word) (slot readyAt : Nat) : Split :=
  { s with clause := clause, slot := slot, fresh := true, pa := none, promo := 0, promoted := false,
           readyAt := readyAt, found := [], wait := none, resumed := none }

/-- The lowest free table entry. -/
def Task.freeEntry (t : Task) : Option Nat := (List.range 4).find? fun e => (t.split e).isNone

/-- Place a new split: the lowest free entry, else the stack; none when the stack holds 16 (R230). -/
def Task.place (t : Task) (s : Split) : Option Task :=
  match t.freeEntry with
  | some e => some (t.setSplit e (some s))
  | none => if t.stack.length < 16 then some { t with stack := s :: t.stack } else none

/-- Place several splits in order, all or none (R137, R236). -/
def Task.placeAll (t : Task) : List Split → Option Task
  | [] => some t
  | s :: rest => match t.place s with
    | some t' => t'.placeAll rest
    | none => none

/-- Kill lanes of a split between instructions: xdead, xact and every expected mask in one step (R35). A split left with no lane
ceases to exist. -/
def Task.killLanes (t : Task) (e : Nat) (k : Mask) : Task :=
  let t := { t with xdead := t.xdead ||| k }.unexpect k
  match t.split e with
  | some s =>
    let x := s.xact &&& ~~~k
    t.setSplit e (if x == 0 then none else some { s with xact := x, pxact := s.pxact &&& ~~~k })
  | none => t

/-- Whether any lane of the task is in a split, on the stack or at a join (R142, R228). -/
def Task.hasLanes (t : Task) : Bool :=
  t.splits.any Option.isSome || !t.stack.isEmpty || (List.range 8).any fun j => !(t.join j).arrivals.isEmpty

/-- Stop an outstanding MTILE: its flag falls and no later step starts (R224). -/
def Task.stopMtile (t : Task) : Task :=
  let flags := (t.pend.filter fun o => o.kind == .mtile).filterMap (·.flag)
  { flags.foldl (fun (t : Task) n => t.lowerFlag n) t with mtile := none, pend := t.pend.filter fun o => o.kind != .mtile }

/-- Make a pending write: elements that a later instruction has written hold either value (R73). -/
def Task.makeWrite (t : Task) (k : Nat) (w : PendWrite) : Task :=
  let pick := freeMask (4096 * t.free + 2 ^ 60 * (k + 1))
  match w with
  | .v r lanes new again => { t with v := tabSet t.v r (VReg.merge (lanes &&& ~~~(again &&& pick)) new (t.vRaw r)) }
  | .u r here new again =>
    let lo := here && !(again && pick.getLsbD 0)
    let hi := here && !(again && pick.getLsbD 1)
    { t with u := tabSet t.u r (UReg.merge lo hi new (t.uRaw r)) }
  | .p r lanes new again => { t with p := tabSet t.p r (PReg.merge (lanes &&& ~~~(again &&& pick)) new (t.pRaw r)) }
  | .q r els new again => { t with q := tabSet t.q r (QReg.merge (els &&& ~~~(again &&& pick.setWidth 16)) new (t.qRaw r)) }
  | .a r els new again =>
    { t with acc := tabSet t.acc r (Tile.merge
        (lanes32.map fun i => els.getD i 0 &&& ~~~(again.getD i 0 &&& freeMask (4096 * t.free + 2 ^ 60 * (k + 1) + 2 ^ 40 * (i + 1))))
        new (t.aRaw r)) }

/-- Make the writes of an operation, in order. -/
def Task.makeWrites (t : Task) (ws : List PendWrite) : Task := (ws.zipIdx).foldl (fun t (w, k) => t.makeWrite k w) t

/-- ks of a shape (R218). -/
def matK (t : Ty) : Nat := if t == .e2m1 then 64 else 32
/-- The tile key in a task of tile k of partition p (R32): its own partition's tiles first. -/
def tileKey (own p k : Nat) : Nat := if p == own then k else 64 * (1 + if p < own then p else p - 1) + k

/-- The name, in its task, of tile t of the result (R32, R221). -/
def mtileKey (t : Task) (n : Nat) : Nat := if t.acore then tileKey t.part (n % 4) (n / 4) else n

/-- Stop an MTILE at a step boundary so that it can go on later (R224): the tiles take the result of the retired steps, the flag falls.
The record stays with the task. -/
def Task.suspendMtile (t : Task) : Task :=
  match t.mtile with
  | none => t
  | some w =>
    let kn := w.qa.tx / matK w.ins.ty
    let ws := (t.pend.filter fun o => o.kind == .mtile).flatMap (·.writes)
    let t := t.makeWrites ws
    let t := if w.step % kn == 0 then t
      else { t with acc := tabSet t.acc (mtileKey t (w.ins.d.toNat + w.step / kn)) w.block }
    { t.stopMtile with mtile := some w }

/-- End a task: its splits, stack positions and arrivals end; it stands RETIRED until its operations are complete (R74, R189, R231,
R256). An end that is not the task's own stops its MTILE at a step boundary (R224). -/
def Task.finish (t : Task) (how : Ending) : Task :=
  let t := { t with splits := [none, none, none, none], stack := [], joins := [], pjoins := [], state := .retired, ending := some how }
  if how == .normal then t else { t.suspendMtile with mtile := none }

/-- A task with no live, unexited lane left ends as TEND ends it (R142). -/
def Task.endCheck (t : Task) : Task := if t.hasLanes || t.ending.isSome then t else t.finish .normal

/-! ### Taking a trap (R129, R132) -/

/-- xsyn in the layout of R129. -/
def synOf (lanes : Mask) (reason detail high : Nat) : Word :=
  BitVec.ofNat 64 (lanes.toNat + 2 ^ 32 * reason + 2 ^ 40 * detail + 2 ^ 48 * high)

/-- A trap whose xsyn has the layout of R129. -/
def mkTrap (cause : Nat) (lanes : Mask) (reason detail : Nat) (addr : Word) (kind : Nat) : TrapInfo :=
  ⟨cause, synOf lanes reason detail 0, addr, kind, none⟩

/-- Write the trap registers (R129). -/
def Task.writeTrap (t : Task) (epc : Word) (i : TrapInfo) : Task :=
  { t with xepc := (i.epc.getD epc), xcause := BitVec.ofNat 64 i.cause, xsyn := i.syn, xaddr := i.addr,
           xunit := BitVec.ofNat 64 (unitOf t.core t.part i.kind) }

/-- REASON, DETAIL and LANES of a TASKKILL record (R444). -/
def killFields (i : TrapInfo) (xact : Mask) : Nat × Nat × Nat :=
  if i.cause == 1 then (fieldOf i.syn 16 8, fieldOf i.syn 0 8, xact.toNat)
  else if i.cause == 9 || i.cause == 0x0E then (0, 0, xact.toNat)
  else (fieldOf i.syn 32 8, fieldOf i.syn 40 8, fieldOf i.syn 0 32)

/-- Record a TASKKILL for a killed task (R132, R444). -/
def Mach.killRecord (m : Mach) (t : Task) (i : TrapInfo) (xact : Mask) : Mach :=
  let (reason, detail, lanes) := killFields i xact
  let future := match m.team t.team with
    | some x => x.future
    | none => 0
  m.errorRecord t.ctx
    [recordHead 1 i.cause reason detail (unitOf t.core t.part i.kind) m.xdev.toNat, m.xclk, t.xtask, i.addr, t.xepc, i.syn, future,
     BitVec.ofNat 64 lanes]

/-- WDOG.CYCLES of the context of a task; a firmware complex has none (R339, R415). -/
def Mach.wdogLimit (m : Mach) (t : Task) : Option Nat := if t.onComplex then none else (m.ctx t.ctx).map fun c => fieldOf (c.word 7) 0 48

/-- The watchdog count of a task has reached its limit at the end of a cycle (R416). -/
def Mach.timedOut (m : Mach) (t : Task) : Bool := match m.wdogLimit t with
  | some n => n ≤ t.wdog
  | none => false

/-- The watchdog stops a task, or will as this cycle ends, since no split of it has made progress in the cycle (R415, R416). -/
def Mach.timesOut (m : Mach) (t : Task) : Bool := m.timedOut t || !t.progressed && m.timedOut { t with wdog := t.wdog + 1 }

/-- Deliver a trap raised by a split (R132): the other splits are held, the trap registers are written, and the split enters the
handler at xhnd, which is cleared; with xhnd 0 the task is killed and recorded, as R414 gives up. A stop by the watchdog in the same cycle
wins, and nothing is delivered (R424). -/
def Mach.takeTrap (m : Mach) (tid e : Nat) (i : TrapInfo) : Mach :=
  match m.task tid with
  | none => m
  | some t =>
    match t.split e with
    | none => m
    | some s =>
      let epc := epcOf s.clause s.slot
      let stopped := m.timesOut t
      let t := t.writeTrap epc i
      if stopped then m
      else if t.xhnd != 0 then
        let others := t.splits.map fun o => o.map fun x => { x with held := true }
        let s' := { (s.goto (BitVec.ofNat 64 (t.xhnd.toNat % 2 ^ 48 / 64 * 64)) 1 (m.clk + 2)) with
          held := false, fault := none, promo := 0, promoted := false }
        m.setTask tid { t with splits := others.set e (some s'), xhnd := 0, hlanes := s.xact }
      else
        let t' := t.finish (if i.cause == 8 then .poison else .killed)
        (m.setTask tid t').killRecord t' i s.xact

/-- Raise a trap in a split: delivered at once, or kept pending while the split is held (R133). -/
def Mach.raise (m : Mach) (tid e : Nat) (i : TrapInfo) : Mach :=
  match (m.task tid).bind (·.split e) with
  | some s =>
    if s.held then m.modTask tid fun t => t.modSplit e fun s => { s with fault := some i, wait := none }
    else m.takeTrap tid e i
  | none => m

/-- Release every held split of a task; the lowest entry whose fault is pending takes it (R133, R173). -/
def Mach.releaseHeld (m : Mach) (tid : Nat) : Mach :=
  let m := m.modTask tid fun t => { t with splits := t.splits.map fun o => o.map fun s => { s with held := false }, hlanes := 0 }
  match m.task tid with
  | none => m
  | some t =>
    match (List.range 4).find? fun e => match t.split e with
      | some s => s.fault.isSome
      | none => false with
    | some e =>
      match (t.split e).bind (·.fault) with
      | some i => m.takeTrap tid e i
      | none => m
    | none => m

/-- The return from a trap (R173, R414): the split continues at xepc, entering at xepc.SLOT or at slot 1, and held splits are released. -/
def Mach.returnTrap (m : Mach) (tid e : Nat) : Mach :=
  let m := m.modTask tid fun t =>
    let slot := fieldOf t.xepc 3 3
    t.modSplit e fun s => s.goto (BitVec.ofNat 64 (t.xepc.toNat % 2 ^ 48 / 64 * 64)) (if slot == 0 then 1 else slot) (m.clk + 2)
  m.releaseHeld tid

end Sys2Proof.Machine
end

