-- ==== Sys2Proof/Machine/Flags.lean ====
section
/-! DEFINITION. Clause headers (R65, R66), conditions and condition results (R102, R119), the flag a flag-setting instruction raises (R72), the signature (R169), and the shape tag word (R25). -/

namespace Sys2Proof.Machine

/-! ### The clause header (R65) -/

def headerWait (h : Word) : Nat := fieldOf h 0 12
def headerNslot (h : Word) : Nat := fieldOf h 22 3
def headerYld (h : Word) : Bool := fieldOf h 25 1 == 1
/-- The first set flag, when SETAV is 1. -/
def headerSetA (h : Word) : Option Nat := if fieldOf h 12 1 == 1 then some (fieldOf h 13 4) else none
/-- The second set flag, when SETBV is 1. -/
def headerSetB (h : Word) : Option Nat := if fieldOf h 17 1 == 1 then some (fieldOf h 18 4) else none

/-- A malformed header (R66). -/
def headerMalformed (h : Word) : Bool :=
  let av := fieldOf h 12 1
  let bv := fieldOf h 17 1
  let a := fieldOf h 13 4
  let b := fieldOf h 18 4
  fieldOf h 26 38 != 0 || headerNslot h == 0 ||
  (av == 1 && 12 ≤ a) || (bv == 1 && 12 ≤ b) || (av == 0 && a != 0) || (bv == 0 && b != 0) ||
  (bv == 1 && av == 0) || (av == 1 && bv == 1 && a == b)

/-- The flag that FL selects (R72). -/
def flagChosen (h : Word) : FlagSel → Option Nat
  | .setA => headerSetA h
  | .setB => headerSetB h
  | _ => none

/-! ### Conditions (R102) -/

/-- The condition of SCMP and VCMP on two exact integers. -/
def intCond (cond : Nat) (x y : Int) : Bool :=
  match cond with
  | 0 => x == y
  | 1 => x != y
  | 2 => x < y
  | 3 => x ≤ y
  | 4 => x > y
  | _ => x ≥ y

/-- The condition of FCMP in the order of R102 (`fcond` of R119). -/
def floatCond (cond : Nat) (f : Fmt) (a b : Nat) : Bool := fcond cond (unpackF f a) (unpackF f b)

/-! ### The signature (R169) -/

/-- One step of the CRC-32C of R169 for a bit. -/
def crcBit (x : Elem) : Elem := if x.getLsbD 0 then (x >>> 1) ^^^ 0x82F63B78 else x >>> 1

/-- A number of CRC steps. -/
def crcBits : Nat → Elem → Elem
  | 0, x => x
  | n + 1, x => crcBits n (crcBit x)

/-- xsig after one instruction word (R169). -/
def sigWord (sig : Elem) (w : Word) : Elem :=
  (toBytes 8 w.toNat).foldl (fun x b => crcBits 8 (x ^^^ b.setWidth 32)) sig

/-- xsig after the words of an instruction, EXT included. -/
def sigWords (sig : Elem) (ws : List Word) : Elem := ws.foldl sigWord sig

/-! ### Outstanding operations (R72, R150) -/

/-- Start an outstanding operation: the flag it selects rises by 1 (R71). -/
def Task.startOp (t : Task) (o : PendOp) : Task :=
  let t := { t with pend := t.pend ++ [o] }
  match o.flag with
  | some n => t.raiseFlag n
  | none => t

/-- A vector register as its tag is read (R26): as before or as after each load that is outstanding (which: DESIGN CHOICE, log 5). -/
def Task.tagRegister (t : Task) (r : Nat) : VReg :=
  let pick := freeMask (4096 * t.free + 256 * 7 + r)
  (t.outstanding.foldl (fun (acc : VReg × Nat) w => match w with
    | .v r' lanes new _ =>
      if r' == r then (if pick.getLsbD (acc.2 % 32) then VReg.merge lanes new acc.1 else acc.1, acc.2 + 1) else acc
    | _ => acc) (t.vRaw r, 0)).1

/-- The tag window of xtag (R25): two bits a register from v(32B); 11 where the register is not allotted. -/
def Task.tagWindow (t : Task) : Word :=
  (List.range 32).foldl (fun acc i =>
    let r := 32 * t.xtagB + i
    acc ||| (BitVec.ofNat 64 (if r < 8 * t.vblk then (t.tagRegister r).tag else 3) <<< (2 * i))) 0

end Sys2Proof.Machine
end

