-- ==== Sys2Proof/Machine/Operands.lean ====
section
/-! DEFINITION. Every operand form: immediates (R86), vector, uniform and immediate sources (R97), register groups (R42, R147), effective addresses (R81), targets (R82, R135), and the writing of results (R98, R99). -/

namespace Sys2Proof.Machine

/-- The values of 32 lanes as bit patterns, each with its poison. -/
abbrev Lanes := List (Nat × Bool)

/-- The same value in every lane. -/
def sameLanes (x : Nat × Bool) : Lanes := List.replicate 32 x

/-- Lane l of a list of lanes. -/
def laneAt (xs : Lanes) (l : Nat) : Nat × Bool := xs.getD l (0, false)

/-- The poisoned lanes. -/
def lanesPoi (xs : Lanes) : Mask := maskOf fun l => (laneAt xs l).2

/-- The low 32 bits of the lanes as a register. -/
def lanesReg (xs : Lanes) : VReg := ⟨lanes32.map fun l => BitVec.ofNat 32 (laneAt xs l).1, lanesPoi xs⟩

/-- The lanes with their values shifted down: word i of each lane. -/
def lanesWord (xs : Lanes) (i : Nat) : Lanes := xs.map fun x => (x.1 / 2 ^ (32 * i), x.2)

/-- A vector register as lanes. -/
def VReg.lanes (r : VReg) : Lanes := lanes32.map fun l => ((at32 r.e l).toNat, r.poi.getLsbD l)

/-- Two lists of lanes as low and high words of 64-bit values; either word's poison poisons the value (R42). -/
def pairLanes (lo hi : Lanes) : Lanes := lo.zipWith (fun a b => (a.1 % 2 ^ 32 + 2 ^ 32 * b.1, a.2 || b.2)) hi

/-- A vector operand of 32 or 64 bits (R97). -/
def Task.vecOpnd (t : Task) (opno r n : Nat) : Lanes :=
  if n == 64 then pairLanes (t.readV opno r).lanes (t.readV opno (r + 1)).lanes else (t.readV opno r).lanes

/-- A uniform operand of 32 or 64 bits with its poison (R27). -/
def Task.uniOpnd (t : Task) (opno r n : Nat) : Nat × Bool :=
  let x := t.readU opno r
  if n == 64 then (x.v.toNat, x.poi) else (x.v.toNat % 2 ^ 32, x.lo)

/-- A V3 immediate at the width of a type: sign-extended, or converted exactly to the type (R86). -/
def immV3 (t : Ty) (x : BitVec 8) : Nat :=
  let v := sextInt 8 x.toNat
  match t with
  | .f32 => packF fmtF32 .rne 0 false (intNum v)
  | .f64 => packF fmtF64 .rne 0 false (intNum v)
  | .f16 => packF fmtF16 .rne 0 false (intNum v)
  | .bf16 => packF fmtBF16 .rne 0 false (intNum v)
  | .f16x2 => (2 ^ 16 + 1) * packF fmtF16 .rne 0 false (intNum v)
  | .bf16x2 => (2 ^ 16 + 1) * packF fmtBF16 .rne 0 false (intNum v)
  | _ => wrapBits 64 v

/-- A V3 source read for every lane at width n (R97). -/
def Task.opnd (t : Task) (opno : Nat) (k : Kind) (r : BitVec 8) (n : Nat) (ty : Ty) : Lanes :=
  match k with
  | .vec => t.vecOpnd opno r.toNat n
  | .uni => sameLanes (t.uniOpnd opno r.toNat n)
  | _ => sameLanes (immV3 ty r % 2 ^ n, false)

/-- The operand width of a type: 64 for the 64-bit types, else 32. -/
def opWidth (t : Ty) : Nat := if wide t then 64 else 32

/-- An IMM16 that replaces operand B, at 64 bits and then truncated to n (R86, R103). -/
def immS (t : Ty) (imm : BitVec 16) (n : Nat) : Nat :=
  (if signedTy t then wrapBits 64 (sextInt 16 imm.toNat) else imm.toNat) % 2 ^ n

/-- A 48-bit EXT immediate (R86). -/
def imm48 (t : Ty) (ext : Word) : Nat :=
  if t == .s64 then wrapBits 64 (sextInt 48 ext.toNat) else ext.toNat % 2 ^ 48

/-! ### Writing results -/

/-- Write a 32-bit or 64-bit result to the contributing lanes; a 64-bit result writes a pair and both poison bits alike (R98). -/
def Task.writeVec (t : Task) (d n : Nat) (k : Mask) (xs : Lanes) : Task :=
  if n == 64 then (t.writeV d k (lanesReg xs)).writeV (d + 1) k (lanesReg (lanesWord xs 1))
  else t.writeV d k (lanesReg xs)

/-- A uniform result of n bits in its 64-bit register (R99): `.s32` sign-extended, the others zero-extended, both poison bits. -/
def uniResult (ty : Ty) (x : Nat × Bool) : UReg :=
  ⟨if ty == .s32 then wordOfInt (sextInt 32 x.1) else if wide ty then BitVec.ofNat 64 x.1 else BitVec.ofNat 64 (x.1 % 2 ^ 32), x.2, x.2⟩

/-- A predicate result: a value and a poison bit for each lane. -/
def predResult (f : Nat → Bool × Bool) : PReg := ⟨maskOf fun l => (f l).1, maskOf fun l => (f l).2⟩

/-! ### Addresses and targets -/

/-- sext(OFF) × size (R81). -/
def offsetOf (f : FM) : Int := sextInt 8 f.off.toNat * accessSize f.ty

/-- The effective 64-bit address of each lane, wrapped, with the poison of its base (R81, R144). -/
def Task.addrLanes (t : Task) (f : FM) : Lanes :=
  let base := if f.ak then sameLanes (t.uniOpnd 1 f.a.toNat 64) else t.vecOpnd 1 f.a.toNat 64
  base.map fun x => (wrapBits 64 (x.1 + offsetOf f), x.2)

/-- The team-local offset of each lane, in 32-bit arithmetic (R81, R153). -/
def Task.offLanes (t : Task) (f : FM) : Lanes :=
  let base := if f.ak then sameLanes (t.uniOpnd 1 f.a.toNat 32) else t.vecOpnd 1 f.a.toNat 32
  base.map fun x => (wrapBits 32 (x.1 + offsetOf f), x.2)

/-- The address of a uniform access, sA + sext(OFF) × size. -/
def Task.addrUni (t : Task) (f : FM) : Nat × Bool :=
  let x := t.uniOpnd 1 f.a.toNat 64
  (wrapBits 64 (x.1 + offsetOf f), x.2)

/-- The direct target of a C-format instruction in a clause (R82): 64-bit wrapping arithmetic. -/
def directTarget (clause : Word) (lo : BitVec 32) : Word :=
  clause + wordOfInt (64 * sextInt 24 lo.toNat)

/-- The check of an indirect target (R135): the cause and reason it fails with. -/
def targetFault (t : Nat) : Option (Nat × Nat) :=
  if t % 64 != 0 then some (0x03, 0x02) else if 2 ^ 48 ≤ t then some (0x04, 0x01) else none

end Sys2Proof.Machine
end

