-- ==== Sys2Proof/Machine/Xlate.lean ====
section
/-! DEFINITION. Address translation: regions, table walks, TLBs, walks in progress, page requests, worlds and permissions (R146, R356 to R368), and TLB invalidation (R179). -/

namespace Sys2Proof.Machine

/-! ### Regions (R356, R357) -/

/-- A region of the physical address space. -/
inductive Region where
  | loc | host | fabric | chip
deriving DecidableEq, Repr

def regionOf (pa : Nat) : Region := match pa / 2 ^ 53 % 4 with
  | 0 => .loc
  | 1 => .host
  | 2 => .fabric
  | _ => .chip

/-- The device a fabric address names, and the address there. -/
def fabricDevice (pa : Nat) : Nat := pa / 2 ^ 40 % 2 ^ 12
def localPart (pa : Nat) : Nat := pa % 2 ^ 40

/-- A physical address that breaks the table of R356. -/
def badAddress (pa : Nat) : Bool := match regionOf pa with
  | .loc => pa / 2 ^ 40 % 2 ^ 13 != 0
  | .fabric => pa / 2 ^ 52 % 2 == 1
  | _ => false

/-- A fabric address that names this device is local memory (R356). -/
def Mach.normal (m : Mach) (pa : Nat) : Nat :=
  if regionOf pa == .fabric && fabricDevice pa == m.xdev.toNat then localPart pa else pa

/-! ### Walks (R358 to R362) -/

/-- The VA bits below a leaf of a level (R358). -/
def blockBits (level : Nat) : Nat := if level == 1 then 42 else if level == 2 then 29 else 16

/-- What a walk finds. -/
inductive WalkResult where
  | leaf (e : TlbEntry)
  | fault (cause reason detail : Nat)
  | absent (level : Nat)
deriving DecidableEq, Repr

/-- A malformed entry at a level, in the system context or another (R360). -/
def malformedEntry (e : Word) (level : Nat) (system : Bool) : Bool :=
  let out := fieldOf e 16 39 * 2 ^ 16
  let leaf := fieldOf e 1 1 == 1
  let attr := fieldOf e 5 2
  fieldOf e 55 9 != 0 || fieldOf e 7 9 != 0 ||
  (if leaf then
    badAddress out || out % 2 ^ blockBits level != 0 || (fieldOf e 3 1 == 1 && regionOf out != .loc) ||
    ((attr == 1 || attr == 2) && level != 3) || (!system && (attr == 3 || regionOf out == .chip))
   else level == 3 || fieldOf e 2 5 != 0 || regionOf out != .loc || badAddress out)

/-- A walk from a table at a level (R360); entries are read at their home slices (R362). -/
def walkFrom (mem : Memory) (ctx : Nat) (world system : Bool) (va : Nat) : Nat → Nat → Nat → WalkResult
  | 0, _, level => .absent level
  | fuel + 1, table, level =>
    let (e, poi) := mem.word64 (table + 8 * (va / 2 ^ blockBits level % 2 ^ 13))
    if poi then .fault 0x08 0x0E level
    else if fieldOf e 0 1 == 0 then .absent level
    else if malformedEntry e level system then .fault 0x04 0x03 level
    else
      let out := fieldOf e 16 39 * 2 ^ 16
      if fieldOf e 1 1 == 1 then
        .leaf ⟨ctx, world, level, va / 2 ^ blockBits level, out, fieldOf e 2 1 == 1, fieldOf e 3 1 == 1, fieldOf e 4 1 == 1, fieldOf e 5 2⟩
      else walkFrom mem ctx world system va fuel out (level + 1)

/-- The walk of an address of a context, from ROOT of its translation record (R358, R361). -/
def Mach.walkTable (m : Mach) (ctx va : Nat) : WalkResult :=
  match m.ctx ctx with
  | some c => walkFrom m.mem ctx c.world (ctx == systemContext) va 3 (c.translation.getD 1 0).toNat 1
  | none => .absent 1

/-! ### TLBs (R363) -/

/-- Whether an entry translates an address of a context. -/
def TlbEntry.covers (e : TlbEntry) (ctx : Nat) (world : Bool) (va : Nat) : Bool :=
  e.ctx == ctx && e.world == world && e.va == va / 2 ^ blockBits e.level

/-- Add an entry to a TLB of a capacity; the oldest leaves a full one. -/
def tlbAdd (capacity : Nat) (l : List TlbEntry) (e : TlbEntry) : List TlbEntry :=
  let l := l.filter fun x => !(x.ctx == e.ctx && x.world == e.world && x.level == e.level && x.va == e.va)
  (if capacity ≤ l.length then l.drop 1 else l) ++ [e]

/-- Install a leaf in the last-level TLB of a die. -/
def Mach.installDie (m : Mach) (die : Nat) (e : TlbEntry) : Mach := m.modDie die fun d => { d with tlb := tlbAdd 6144 d.tlb e }

/-- What a translation needs an access for (R359). -/
inductive Use where
  | load | store | exec
deriving DecidableEq, Repr

/-- The outcome of a translation check: the physical address, ATTR and the world the access travels in; a fault; a miss. -/
inductive Xl where
  | ok (pa attr : Nat) (secure : Bool)
  | fault (cause reason detail : Nat)
  | miss
deriving DecidableEq, Repr

/-- The checks of a leaf: permission (R359) and world (R367). -/
def Mach.checkLeaf (m : Mach) (world : Bool) (e : TlbEntry) (va : Nat) (use : Use) : Xl :=
  let out := e.out + va % 2 ^ blockBits e.level
  let pa := m.normal out
  -- R356: a block that reaches out of its region is malformed there
  if badAddress out then .fault 0x04 0x03 e.level
  else if use == .store && !e.w then .fault 0x05 0x02 1
  else if use == .exec && !e.x then .fault 0x05 0x02 2
  else if e.sec && !world then .fault 0x05 0x01 0
  else if !e.sec && regionOf pa == .loc && m.carveOuts.contains (pa / 2 ^ 29) then .fault 0x05 0x01 0
  else .ok pa e.attr (world && e.sec)

/-- The entry of an address in the TLBs of a core and its die; a hit in the last-level TLB fills the L1 TLB (R363). -/
def Mach.tlbLookup (m : Mach) (core ctx : Nat) (world : Bool) (va : Nat) : Option TlbEntry × Mach :=
  match (m.core core).tlb.find? fun e => e.covers ctx world va with
  | some e => (some e, m)
  | none =>
    match (m.die (dieOf core)).tlb.find? fun e => e.covers ctx world va with
    | some e => (some e, m.modCore core fun c => { c with tlb := tlbAdd 128 c.tlb e })
    | none => (none, m)

/-- The translation check of one address by a core (R130, R145, R360): what earlier walks found for its page, then the TLBs. -/
def Mach.xlate (m : Mach) (core ctx va : Nat) (use : Use) (found : List (Nat × Nat × Nat × Nat)) : Xl × Mach :=
  if 2 ^ 55 ≤ va || (use == .exec && 2 ^ 48 ≤ va) then (.fault 0x04 0x01 0, m)
  else
    match found.find? fun f => f.1 == va / 2 ^ 16 with
    | some (_, c, r, d) => (.fault c r d, m)
    | none =>
      let world := m.worldOf ctx
      match m.tlbLookup core ctx world va with
      | (some e, m) => (m.checkLeaf world e va use, m)
      | (none, m) => (.miss, m)

/-- Start or join a walk for a missing address (R364): the walk's number on the core's die. -/
def Mach.missWalk (m : Mach) (core ctx va : Nat) : Nat × Mach :=
  let die := dieOf core
  let world := m.worldOf ctx
  match (m.die die).walks.find? fun w => w.2.ctx == ctx && w.2.world == world && w.2.va / 2 ^ 16 == va / 2 ^ 16 with
  | some (n, _) => (n, m)
  | none =>
    let (n, m) := m.fresh
    (n, m.modDie die fun d => { d with walks := tabSet d.walks n ⟨ctx, world, va, m.clk, false, false⟩ })

/-! ### Page requests (R365, R366) -/

/-- The access codes of a page request. -/
def useCode : Use → Nat
  | .load => 0
  | .store => 1
  | .exec => 2

/-- Whether a request for a page and access kind of a context is outstanding: its slot. -/
def Ctx.requested (c : Ctx) (page access : Nat) : Option Nat :=
  (c.prqPosted.find? fun r => r.1 == page && r.2.1 == access).map (·.2.2)

/-- Post a page request, or join the outstanding one; none when the next slot is not free (R365, R366). -/
def Mach.postRequest (m : Mach) (ctx page access level : Nat) (xtask : Word) : Option (Nat × Mach) :=
  match m.ctx ctx with
  | none => none
  | some c =>
    match c.requested page access with
    | some slot => some (slot, m)
    | none =>
      let base := (c.translation.getD 2 0).toNat
      let n := fieldOf (c.translation.getD 3 0) 0 12 + 1
      let slot := c.prqPos % n
      let a := base + 32 * slot
      if (m.mem.word64 (a + 24)).1 == 3 then
        let world := if c.world then 1 else 0
        let mem := ((m.mem.setWord64 a (BitVec.ofNat 64 (2 ^ 16 * page + access))).setWord64 (a + 8) xtask).setWord64 (a + 16)
          (BitVec.ofNat 64 (ctx + 2 ^ 8 * world + 2 ^ 9 * level))
        some (slot, { m with
          mem := mem.setWord64 (a + 24) 0
          ctxs := tabSet m.ctxs ctx { c with prqPos := slot + 1, prqPosted := c.prqPosted ++ [(page, access, slot)] }
          out := m.out ++ [.wakeFirmware 1] })
      else none

/-- A translation made by an engine of a die (copy, staging, queue and dispenser engines; R365): it walks itself. `waiting` is the
answer while a page request is outstanding. -/
inductive EngineXl where
  | ok (pa attr : Nat) (secure : Bool)
  | fault (cause reason detail : Nat)
  | waiting
deriving DecidableEq, Repr

/-- Engine translation of one address; a declined request is taken off the context's list of declined pages. -/
def Mach.engineXlate (m : Mach) (die ctx va : Nat) (use : Use) : EngineXl × Mach :=
  if 2 ^ 55 ≤ va || (use == .exec && 2 ^ 48 ≤ va) then (.fault 0x04 0x01 0, m)
  else
    let world := m.worldOf ctx
    let leaf := match (m.die die).tlb.find? fun e => e.covers ctx world va with
      | some e => WalkResult.leaf e
      | none => m.walkTable ctx va
    match leaf with
    | .leaf e =>
      match m.checkLeaf world e va use with
      | .ok pa attr secure => (.ok pa attr secure, m.installDie die e)
      | .fault c r d => (.fault c r d, m)
      | .miss => (.waiting, m)
    | .fault c r d => (.fault c r d, m)
    | .absent level =>
      match m.ctx ctx with
      | none => (.fault 0x04 0x02 level, m)
      | some c =>
        match c.faultPage.find? fun f => f.1 == va / 2 ^ 16 with
        | some f => (.fault 0x04 0x02 f.2, m.modCtx ctx fun c => { c with faultPage := c.faultPage.filter (· != f) })
        | none =>
          let m := m.modCtx ctx fun c => { c with engineWaits := insertNat c.engineWaits (va / 2 ^ 16) }
          match m.postRequest ctx (va / 2 ^ 16) 3 level 0 with
          | some (_, m) => (.waiting, m)
          | none => (.waiting, m)

/-! ### Waiting splits (R146, R364, R365) -/

/-- Change the wait of every split whose wait satisfies a condition. -/
def Mach.modWaits (m : Mach) (p : Task → Wait → Bool) (f : Wait → Wait) : Mach :=
  { m with tasks := m.tasks.map fun (n, t) => (n, { t with splits := t.splits.map fun o => o.map fun s =>
      match s.wait with
      | some w => if p t w then { s with wait := some (f w) } else s
      | none => s }) }

/-- Change the waits of the splits of parked tasks that satisfy a condition; their parks can end (R267). -/
def Mach.modParked (m : Mach) (p : Wait → Bool) (f : Wait → Wait) : Mach :=
  let turn := fun (k : Parked) => if k.waits.any (fun x => p x.2) then
      { k with ready := k.ready || k.kind == 1, waits := k.waits.map fun (e, w) => (e, if p w then f w else w) }
    else k
  { m with ctxs := m.ctxs.map fun (n, c) => (n, { c with parked := c.parked.map turn }) }

/-- Whether a wait is for a walk; for a page that has been requested. -/
def Wait.onWalk (die walk : Nat) (w : Wait) : Bool := match w.hold with
  | .page d n _ _ => d == die && n == walk
  | _ => false
def Wait.onPage (ctx page : Nat) (w : Wait) : Bool := match w.hold with
  | .request c _ va => c == ctx && va / 2 ^ 16 == page
  | _ => false

/-- A walk ends for the splits that wait on it: they check again, with what it found for the page (R364). -/
def Mach.endWalk (m : Mach) (die walk : Nat) (found : List (Nat × Nat × Nat × Nat)) : Mach :=
  let go := fun (w : Wait) => { w with hold := .cond, found := w.found ++ found }
  ((m.modWaits (fun _ w => w.onWalk die walk) go).modParked (·.onWalk die walk) go).modDie die
    fun d => { d with walks := tabErase d.walks walk }

/-- The splits that wait on a walk for an access of a kind wait on a page request instead. -/
def Mach.walkToRequest (m : Mach) (die walk access ctx slot : Nat) : Mach :=
  let turn := fun (w : Wait) => match w.hold with
    | .page d n a va => if d == die && n == walk && a == access then { w with hold := .request ctx slot va } else w
    | _ => w
  let turnAll := fun (k : Parked) => { k with waits := k.waits.map fun (e, w) => (e, turn w) }
  let m := { m with ctxs := m.ctxs.map fun (x : Nat × Ctx) => (x.1, { x.2 with parked := x.2.parked.map turnAll }) }
  m.modWaits (fun _ w => w.onWalk die walk) turn

/-! ### TLB invalidation (R179) -/

/-- Whether TLBI with a SUB removes an entry: page, context, world, all. -/
def tlbiMatches (sub ctx va : Nat) (world : Bool) (e : TlbEntry) : Bool :=
  match sub with
  | 0 => e.ctx == ctx && e.va == va / 2 ^ blockBits e.level
  | 1 => e.ctx == ctx
  | 2 => e.world == world
  | _ => true

/-- Drop the matching entries from the TLBs of a scope around a core. -/
def Mach.dropTlb (m : Mach) (core : Nat) (scope : Scope) (keep : TlbEntry → Bool) : Mach :=
  let inCore := fun (c : Nat) => match scope with
    | .core => c == core
    | .die => dieOf c == dieOf core
    | _ => true
  let inDie := fun (d : Nat) => match scope with
    | .core => false
    | .die => d == dieOf core
    | _ => true
  { m with
    cores := m.cores.map fun (n, c) => (n, if inCore n then { c with tlb := c.tlb.filter keep } else c)
    dies := m.dies.map fun (n, d) => (n, if inDie n then { d with tlb := d.tlb.filter keep } else d) }

/-- Whether a walk in flight could install an entry that TLBI names, in a TLB of its scope; a walk of another page may find a block leaf
that covers the page named (R358). -/
def Mach.walkInTheWay (m : Mach) (core : Nat) (scope : Scope) (sub ctx va : Nat) (world : Bool) : Bool :=
  m.dies.any fun (n, d) => (scope == .dev || n == dieOf core) && d.walks.any fun (_, w) =>
    match sub with
    | 0 => w.ctx == ctx && w.va / 2 ^ blockBits 1 == va / 2 ^ blockBits 1
    | 1 => w.ctx == ctx
    | 2 => w.world == world
    | _ => true

end Sys2Proof.Machine
end

