-- ==== Sys2Proof/Machine/Issue.lean ====
section
/-! DEFINITION. The issue of one program instruction by a split: encoding checks, privilege, guard, the body of the instruction, its stopping point, the signature, and the move to the next slot (R67 to R69, R75, R76, R88, R89, R98, R101, R134, R169, R183, R243). -/

namespace Sys2Proof.Machine

/-- What the issuing split brings to the body of an instruction: the task as it read its registers, the split, the contributing
lanes (R98), the header of the clause, the words of the instruction, xsig once it has passed its stopping point and before, and, when it
goes on after a wait, whether it passed that point before, what it waited for and what was found for its pages. -/
structure Iss where
  tid : Nat
  e : Nat
  t : Task
  s : Split
  k : Mask
  ins : Instr
  hdr : Word
  words : Nat
  sig : Elem
  before : Elem
  again : Bool
  hold : Hold
  found : List (Nat × Nat × Nat × Nat)
deriving DecidableEq, Repr

/-- How the body of an instruction ends: it took effect and the split goes on at its next slot; it took effect and has moved the
split itself; it waits; it traps (the machine carries the effects that stand, R69). -/
inductive Res where
  | done (m : Mach)
  | moved (m : Mach)
  | wait (m : Mach) (passed : Bool) (h : Hold)
  | trap (m : Mach) (i : TrapInfo)
deriving DecidableEq, Repr

/-- The major opcode of an instruction. -/
def opcodeOf (i : Instr) : BitVec 8 := ((view i).map (·.1)).getD 0

/-- The slots an instruction occupies (R67). -/
def slotsOf (i : Instr) : Nat := match view i with
  | some (_, b) => if b.twoWords then 2 else 1
  | none => 1

/-- Whether a task's splits may issue: it is not staging, parking or ended (R256). -/
def Task.live (t : Task) : Bool := t.state == .ready || t.state == .running || t.state == .waiting

/-- The header of the clauses of firmware, whose image the manual does not give: seven slots and the set flags cf0 and cf1 (DESIGN CHOICE, log 81). -/
def complexHeader : Word := BitVec.ofNat 64 (2 ^ 22 * 7 + 2 ^ 12 + 2 ^ 17 + 2 ^ 18)

/-- The header of the clause a split stands in, read where its fetch was translated to (DESIGN CHOICE, log 8). A split that issues with
none fetched is that of a firmware complex. -/
def headerAt (m : Mach) (s : Split) : Word := match s.pa with
  | some pa => (m.mem.word64 pa).1
  | none => complexHeader

/-- What the encoding checks depend on for a task at a slot (R18, R67, R72, R88). -/
def envOf (m : Mach) (t : Task) (s : Split) : Env :=
  let h := headerAt m s
  ⟨8 * t.vblk, 8 * t.sblk, 8 * t.ablk, (headerSetA h).isSome, (headerSetB h).isSome, s.slot, headerNslot h, t.onComplex⟩

/-- The ILLOP trap of an encoding fault (R89): xaddr is the offending word, the EXT word for a field of EXT (whose rank is above that
of every field of word 0) and for a register that EXT names. -/
def illopTrap (s : Split) (f : EncFault) : TrapInfo :=
  let inExt := (f.reason != 1 && 64 < f.rank) || (f.reason == 1 && f.syn.extractLsb' 0 8 == 7)
  ⟨1, BitVec.ofNat 64 (2 ^ 16 * f.reason + f.syn.toNat), s.clause + BitVec.ofNat 64 (8 * (s.slot + if inExt then 1 else 0)), 0, none⟩

/-- The registers of a record of the queue that QPUSH names in a lane, where its descriptor can be read (R22, R201, R202); one
otherwise. -/
def Mach.recordWidth (m : Mach) (t : Task) (x : FM) (lane : Nat) : Nat :=
  let va := ((t.addrLanes x).getD lane (0, false)).1
  match m.walkTable t.ctx va with
  | .leaf e =>
    let pa := m.normal (e.out + va % 2 ^ blockBits e.level)
    if regionOf pa == .loc then 4 * 2 ^ fieldOf (m.mem.word64 (pa + 8)).1 20 2 / (if x.dk then 2 else 1) else 1
  | _ => 1

/-- The encoding fault as it is reported: where D of QPUSH lies beyond the allotment, with the last register of the record (R22; DESIGN
CHOICE, log 70). -/
def reported (m : Mach) (t : Task) (s : Split) (i : Instr) (f : EncFault) : EncFault :=
  match view i with
  | some (op, .m x) =>
    if op == 0xAC && f.reason == 1 && f.syn.extractLsb' 0 8 == 0 then
      { f with syn := BitVec.ofNat 16 (256 * ((x.d.toNat + m.recordWidth t x ((lanes32.find? s.xact.getLsbD).getD 0) - 1) % 256)) }
    else f
  | _ => f

/-- The lanes of xact whose guard is true, and those whose guard is poisoned (R75, R76, R101). -/
def guardLanes (t : Task) (g : Guard) (xact : Mask) : Mask × Mask :=
  if g.pred == 12 then (xact, 0)
  else
    let p := t.readP 8 g.pred.toNat
    ((if g.neg then ~~~p.v else p.v) &&& xact, p.poi &&& xact)

/-- Kill lanes of a split of a `.lanekill` task (R35, R101, R134), counted in LKILLS (R412). -/
def Mach.lanekill (m : Mach) (tid e : Nat) (k : Mask) : Mach :=
  match m.task tid with
  | some t => (m.setTask tid (t.killLanes e k).endCheck).errorCount t.ctx 32 (popCount k)
  | none => m

/-- Consumption of poisoned operands by lanes of the split (R134): a `.lanekill` task loses those lanes and the instruction goes on
for the contributing lanes that remain, or has no effect when none remains; any other task traps POISON. -/
def consume (m : Mach) (ι : Iss) (lanes : Mask) (reason detail : Nat) (addr : Word) (kind : Nat) (go : Mach → Iss → Res) : Res :=
  if lanes == 0 then go m ι
  else if ι.t.lanekill then
    let m' := m.lanekill ι.tid ι.e lanes
    let ι' := { ι with k := ι.k &&& ~~~lanes, t := { ι.t with xdead := ι.t.xdead ||| lanes }, s := { ι.s with xact := ι.s.xact &&& ~~~lanes, pxact := ι.s.pxact &&& ~~~lanes } }
    if ι'.k == 0 then .done m' else go m' ι'
  else .trap m (mkTrap 8 lanes reason detail addr kind)

/-- A poisoned uniform operand is consumed by every lane of the issuing split (R134). -/
def consumeUni (m : Mach) (ι : Iss) (poi : Bool) (reason detail : Nat) (addr : Word) (kind : Nat) (go : Mach → Iss → Res) : Res :=
  consume m ι (if poi then ι.s.xact else 0) reason detail addr kind go

/-- Change the issuing task. -/
def Iss.mod (ι : Iss) (m : Mach) (f : Task → Task) : Mach := m.modTask ι.tid f

/-- The split as it leaves the instruction: past its stopping point, waiting in nothing. -/
def Iss.here (ι : Iss) : Split := { ι.s with xsig := ι.sig, wait := none, resumed := none }

/-- The address of the next clause (R67). -/
def Iss.next (ι : Iss) : Word := ι.s.clause + 64

/-- Move the whole split to slot 1 of a clause, ready to issue after `delay` cycles (R243). -/
def Iss.jump (ι : Iss) (m : Mach) (target : Word) (delay : Nat) : Res :=
  .moved (ι.mod m fun t => t.setSplit ι.e (some (ι.here.goto target 1 (m.clk + delay))))

/-- The split after an instruction that is not clause-ending: the next slot, or slot 1 of the next clause after the last occupied
slot (R67, R243). -/
def Split.advance (s : Split) (clk words nslot : Nat) : Split :=
  if s.slot + words ≤ nslot then { s with slot := s.slot + words, readyAt := clk + 1, found := [], wait := none, resumed := none }
  else s.goto (s.clause + 64) 1 (clk + 1)

/-- The registers of a task as an instruction read them. -/
def Task.snap (t : Task) : Snap := ⟨t.v, t.u, t.p, t.q, t.acc, t.pend, t.free⟩
/-- A task whose registers read as they did for a waiting instruction. -/
def Task.asRead (t : Task) (r : Snap) : Task :=
  { t with v := r.v, u := r.u, p := r.p, q := r.q, acc := r.acc, pend := r.pend, free := r.free }

/-- The kind of unit that reports a trap raised by the body of an instruction (R129): load and store, matrix, copy engine, queue
engine, else issue and branch. -/
def unitKind (op : BitVec 8) : Nat :=
  let n := op.toNat
  if (0x80 ≤ n && n ≤ 0x8D) || n == 0xA0 || (0xA6 ≤ n && n ≤ 0xAB) || (0xB8 ≤ n && n ≤ 0xBC) || [0xC0, 0xC1, 0xCE, 0xCF].contains n then 1
  else if [0xC8, 0xC9, 0xCC, 0xCD].contains n then 3
  else if 0xB0 ≤ n && n ≤ 0xB2 then 4
  else if 0xAC ≤ n && n ≤ 0xAE then 6
  else 0

/-- A trap as its unit reports it. -/
def TrapInfo.from' (i : TrapInfo) (ins : Instr) : TrapInfo := if i.kind == 0 then { i with kind := unitKind (opcodeOf ins) } else i

/-- What follows the body of an instruction (R67, R69, R132, R169, R183). -/
def conclude (ι : Iss) (since : Nat) : Res → Mach
  | .done m => ι.mod m fun t => t.modSplit ι.e fun s => { s with xsig := ι.sig }.advance m.clk ι.words (headerNslot ι.hdr)
  | .moved m => m
  | .wait m passed h => ι.mod m fun t => t.modSplit ι.e fun s =>
      { s with xsig := if passed then ι.sig else s.xsig,
               wait := some ⟨false, ι.ins, passed || ι.again, h, since, false, ι.found, ι.k, ι.t.snap, ι.before⟩ }
  | .trap m i => (if ι.again then ι.mod m fun t => t.modSplit ι.e fun s => { s with xsig := ι.before } else m).raise ι.tid ι.e (i.from' ι.ins)

/-- The progress instructions that reset the watchdog when they issue (R183, R415). -/
def progressAtIssue (op : BitVec 8) : Bool := op == 0xA0 || op == 0xA1 || op == 0xA4 || op == 0x94

/-- The commit points that the instruction word shows (R344): ordered stores and fences at `.core` or wider, atomics at `.core` or
wider, STN, SPAWN, FSET, FFAIL, SGADD, QPUSH, QFLUSH and SVC. Copies and remote stores are commit points by their destinations. -/
def commitPoint (i : Instr) : Bool := match view i with
  | some (op, .m f) =>
    (f.scope != .team && (((op == 0x81 || op == 0x8A) && (f.ord == .rel || f.ord == .ar || f.ord == .sc)) || op == 0x87 || op == 0x89)) ||
    op == 0x85 || op == 0xA8 || op == 0xA9 || op == 0xAA || op == 0xAC || op == 0xAD
  | some (op, .x _) => op == 0xA0
  | some (op, .c _) => op == 0x9C
  | _ => false

/-- Mark the issue: the split has issued from its clause, the next free choices differ, a progress instruction and a
commit point are noted. -/
def Mach.markIssue (m : Mach) (tid e : Nat) (i : Instr) : Mach :=
  m.modTask tid fun t =>
    { t.modSplit e (fun s => { s with fresh := false }) with
      free := t.free + 1, progressed := t.progressed || progressAtIssue (opcodeOf i), committed := t.committed || commitPoint i }

/-- The PRIV trap of a supervisor-only instruction in user mode (R88). -/
def privTrap (s : Split) : TrapInfo := mkTrap 2 s.xact 0x01 0 0 0

/-- What the split brings to an instruction it issues. -/
def Iss.make (m : Mach) (tid e : Nat) (t : Task) (s : Split) (i : Instr) (k : Mask) : Iss :=
  ⟨tid, e, t, s, k, i, headerAt m s, slotsOf i, if opcodeOf i == 0x94 then s.xsig else sigWords s.xsig (encode i), s.xsig, false, .cond, s.found⟩

/-- What the split brings to an instruction that it goes on with: its contributing lanes and the operands it has read, whether it had
passed its stopping point, and what was found for its pages (R146, R183, R268). -/
def Iss.goOn (m : Mach) (tid e : Nat) (t : Task) (s : Split) (w : Wait) : Iss :=
  { Iss.make m tid e (t.asRead w.regs) { s with wait := none, resumed := none } w.ins (w.lanes &&& s.xact) with
    before := w.before, again := w.passed, hold := w.hold, found := w.found, sig := if w.passed then s.xsig else sigWords s.xsig (encode w.ins) }

/-- The guard of an instruction; an event has none. -/
def guardOf (i : Instr) : Guard := ((view i).map (·.2.guard)).getD ⟨12, false⟩

/-- Issue one instruction for a split: encoding checks, privilege, guard, body (R88, R89, R101, R134). -/
def runFirst (i : Instr) (body : Mach → Iss → Res) (m : Mach) (tid e : Nat) (t : Task) (s : Split) : Mach :=
  let m := m.markIssue tid e i
  match lowestFault (faults (envOf m t s) i) with
  | some f => m.raise tid e (illopTrap s (reported m t s i f))
  | none =>
    if supervisorOnly (opcodeOf i) && !t.supervisor then m.raise tid e (privTrap s)
    else
      let (k, poi) := guardLanes t (guardOf i) s.xact
      if poi == 0 then
        let ι := Iss.make m tid e t s i k
        conclude ι m.clk (body m ι)
      else if t.lanekill then
        let m := m.lanekill tid e poi
        if s.xact &&& ~~~poi == 0 then m
        else
          let ι := Iss.make m tid e { t with xdead := t.xdead ||| poi } { s with xact := s.xact &&& ~~~poi, pxact := s.pxact &&& ~~~poi } i (k &&& ~~~poi)
          conclude ι m.clk (body m ι)
      else m.raise tid e (mkTrap 8 poi 0x03 0 0 0)

/-- Issue again the instruction in the middle of which the split's task was parked (R268); it goes on from its first check. -/
def runAgain (body : Mach → Iss → Res) (m : Mach) (tid e : Nat) (t : Task) (s : Split) (w : Wait) : Mach :=
  let m := m.modTask tid fun t => t.modSplit e fun s => { s with fresh := false, resumed := none }
  conclude (Iss.goOn m tid e t s w) m.clk (body m (Iss.goOn m tid e t s w))

/-- Issue an instruction for a split, for the first time or again. -/
def runIssue (i : Instr) (body : Mach → Iss → Res) (m : Mach) (tid e : Nat) (t : Task) (s : Split) : Mach :=
  match s.resumed with
  | none => runFirst i body m tid e t s
  | some w => if w.ins == i then runAgain body m tid e t s w else runFirst i body m tid e t { s with resumed := none }

/-- The number of the task of a firmware complex (R39, R434; DESIGN CHOICE, log 81): Hesper, or Phosphor. -/
def complexTid (phosphor : Bool) : Nat := 2 ^ 48 + if phosphor then 1 else 0

/-- The split that issues: the one granted first; with no grant left, that of the active firmware complex, which no partition holds. -/
def State.issuing (s : State) : Option (Nat × Nat) := match s.grants with
  | g :: _ => some g
  | [] => if (s.m.task (complexTid s.fw.active)).any fun t => t.onComplex && t.live then some (complexTid s.fw.active, 0) else none

/-- The meaning of a program instruction: the issuing split issues it. With none, or with one that is held or waits, there is no
such step. -/
def issue (i : Instr) (body : Mach → Iss → Res) (s : State) : Host.Outcome State Fault Refusal :=
  match s.issuing with
  | none => .fault .noIssuingSplit
  | some (tid, e) =>
    match s.m.task tid with
    | none => .fault .noIssuingSplit
    | some t =>
      match t.split e with
      | none => .fault .noIssuingSplit
      | some sp =>
        if sp.held || sp.wait.isSome then .fault .noIssuingSplit
        else .next { s with m := runIssue i body s.m tid e t sp, grants := s.grants.tail }

/-- Go on with an instruction that a split waits in, from its first check (R146, R183); none while its wait continues as before. -/
def continueWait (body : Mach → Iss → Res) (m : Mach) (tid e : Nat) (t : Task) (s : Split) (w : Wait) : Option Mach :=
  let ι := Iss.goOn m tid e t s w
  let base := m.modTask tid fun t => t.modSplit e fun s => { s with wait := none }
  match body base ι with
  | .wait m' passed h =>
    if h == w.hold && (passed || w.passed) == w.passed && m' == base then none else some (conclude ι m.clk (.wait m' passed h))
  | r => some (conclude ι m.clk r)

end Sys2Proof.Machine
end

