-- ==== Sys2Proof/Machine/Vector.lean ====
section
/-! DEFINITION. The vector integer and address instructions VMOV to VLEA, and VLI (R98, R104 to R108). -/

namespace Sys2Proof.Machine

/-- One result a lane of one, two or three operands; poisoned if an operand is (R61). -/
def map1 (f : Nat → Nat) (a : Lanes) : Lanes := a.map fun x => (f x.1, x.2)
def map2 (f : Nat → Nat → Nat) (a b : Lanes) : Lanes := a.zipWith (fun x y => (f x.1 y.1, x.2 || y.2)) b
def map3 (f : Nat → Nat → Nat → Nat) (a b c : Lanes) : Lanes :=
  (a.zip b).zipWith (fun x z => (f x.1.1 x.2.1 z.1, x.1.2 || x.2.2 || z.2)) c

/-- The three V3 sources at a width (R97). -/
def Task.srcA (t : Task) (x : FV3) (n : Nat) : Lanes := t.opnd 1 x.ka x.a n x.ty
def Task.srcB (t : Task) (x : FV3) (n : Nat) : Lanes := t.opnd 2 x.kb x.b n x.ty
def Task.srcC (t : Task) (x : FV3) (n : Nat) : Lanes := t.opnd 3 x.kc x.c n x.ty

/-- A vector instruction that writes vD with one result of n bits a contributing lane (R98). -/
def vecBody (d n : Nat) (f : Task → Lanes) (m : Mach) (ι : Iss) : Res :=
  .done (ι.mod m fun t => t.writeVec d n ι.k (f ι.t))

/-- Results of the type's width from operands of that width. -/
def vec1 (x : FV3) (f : Nat → Nat) : Mach → Iss → Res :=
  vecBody x.d.toNat (opWidth x.ty) fun t => map1 f (t.srcA x (opWidth x.ty))
def vec2 (x : FV3) (f : Nat → Nat → Nat) : Mach → Iss → Res :=
  vecBody x.d.toNat (opWidth x.ty) fun t => map2 f (t.srcA x (opWidth x.ty)) (t.srcB x (opWidth x.ty))
def vec3 (x : FV3) (f : Nat → Nat → Nat → Nat) : Mach → Iss → Res :=
  vecBody x.d.toNat (opWidth x.ty) fun t => map3 f (t.srcA x (opWidth x.ty)) (t.srcB x (opWidth x.ty)) (t.srcC x (opWidth x.ty))

/-- An exact integer result wrapped or clamped (R51). -/
def vecInt1 (x : FV3) (f : Int → Int) := vec1 x fun a => narrow x.ty x.sat (f (intVal x.ty a))
def vecInt2 (x : FV3) (f : Int → Int → Int) := vec2 x fun a b => narrow x.ty x.sat (f (intVal x.ty a) (intVal x.ty b))

/-- VMOV (R106). -/
def execVmov (x : FV3) (s : State) := issue (.vmov x) (vec1 x id) s
/-- VADD (R106). -/
def execVadd (x : FV3) (s : State) := issue (.vadd x) (vecInt2 x (· + ·)) s
/-- VSUB (R106). -/
def execVsub (x : FV3) (s : State) := issue (.vsub x) (vecInt2 x (· - ·)) s
/-- VMUL (R106). -/
def execVmul (x : FV3) (s : State) := issue (.vmul x) (vecInt2 x (· * ·)) s
/-- VMULH (R106). -/
def execVmulh (x : FV3) (s : State) := issue (.vmulh x) (vec2 x (mulHigh x.ty)) s
/-- VMAD (R106). -/
def execVmad (x : FV3) (s : State) := issue (.vmad x) (vec3 x fun a b c =>
  narrow x.ty x.sat (intVal x.ty a * intVal x.ty b + intVal x.ty c)) s
/-- VMADW (R107): a 64-bit result in a pair from 32-bit a and b and a 64-bit z. -/
def execVmadw (x : FV3) (s : State) := issue (.vmadw x) (vecBody x.d.toNat 64 fun t =>
  map3 (madWide x.ty x.sat) (t.srcA x 32) (t.srcB x 32) (t.srcC x 64)) s
/-- VADDC (R107). -/
def execVaddc (x : FV3) (s : State) := issue (.vaddc x) (vec3 x (addCarry (x.sub == 1))) s
/-- VABS (R106). -/
def execVabs (x : FV3) (s : State) := issue (.vabs x) (vecInt1 x fun a => (a.natAbs : Int)) s
/-- VNEG (R106). -/
def execVneg (x : FV3) (s : State) := issue (.vneg x) (vecInt1 x (- ·)) s
/-- VMIN (R106). -/
def execVmin (x : FV3) (s : State) := issue (.vmin x) (vec2 x (minInt x.ty)) s
/-- VMAX (R106). -/
def execVmax (x : FV3) (s : State) := issue (.vmax x) (vec2 x (maxInt x.ty)) s
/-- VAND (R106). -/
def execVand (x : FV3) (s : State) := issue (.vand x) (vec2 x (· &&& ·)) s
/-- VOR (R106). -/
def execVor (x : FV3) (s : State) := issue (.vor x) (vec2 x (· ||| ·)) s
/-- VXOR (R106). -/
def execVxor (x : FV3) (s : State) := issue (.vxor x) (vec2 x (· ^^^ ·)) s
/-- VNOT (R106). -/
def execVnot (x : FV3) (s : State) := issue (.vnot x) (vec1 x fun a => 2 ^ opWidth x.ty - 1 - a) s
/-- VSHL (R106). -/
def execVshl (x : FV3) (s : State) := issue (.vshl x) (vec2 x (shiftLeft (opWidth x.ty))) s
/-- VSHR (R106). -/
def execVshr (x : FV3) (s : State) := issue (.vshr x) (vec2 x (shiftRight (opWidth x.ty))) s
/-- VSAR (R106). -/
def execVsar (x : FV3) (s : State) := issue (.vsar x) (vec2 x (shiftArith (opWidth x.ty))) s
/-- VROT (R106). -/
def execVrot (x : FV3) (s : State) := issue (.vrot x) (vec2 x (rotateLeft (opWidth x.ty))) s
/-- VPOPC (R106). -/
def execVpopc (x : FV3) (s : State) := issue (.vpopc x) (vec1 x (popBits 32)) s
/-- VCLZ (R106). -/
def execVclz (x : FV3) (s : State) := issue (.vclz x) (vec1 x (leadZeros 32)) s
/-- VBREV (R106). -/
def execVbrev (x : FV3) (s : State) := issue (.vbrev x) (vec1 x (reverseBits 32)) s

/-- VSEL (R106): c is one 32-bit element; poison from c and the operand selected. -/
def execVsel (x : FV3) (s : State) := issue (.vsel x) (vecBody x.d.toNat (opWidth x.ty) fun t =>
  ((t.srcA x (opWidth x.ty)).zip (t.srcB x (opWidth x.ty))).zipWith
    (fun ab c => let sel := if c.1 != 0 then ab.1 else ab.2; (sel.1, sel.2 || c.2)) (t.srcC x 32)) s

/-- VLEA (R108): a 64-bit base plus a scaled index. -/
def execVlea (x : FV3) (s : State) := issue (.vlea x) (vecBody x.d.toNat 64 fun t =>
  map2 (fun base idx => wrapBits 64 (base + intVal x.ty idx * (2 ^ x.sub.toNat : Nat))) (t.srcA x 64) (t.srcB x (opWidth x.ty))) s

/-- A VI source: vector or uniform (R79). -/
def Task.srcVI (t : Task) (x : FVI) (n : Nat) : Lanes := t.opnd 1 x.ka x.a n x.ty

/-- VBFE (R104). -/
def execVbfe (x : FVI) (s : State) := issue (.vbfe x) (vecBody x.d.toNat 32 fun t =>
  map1 (fun a => fieldExtract x.ty a x.imm.toNat) (t.srcVI x 32)) s
/-- VBFI (R104, R106): inserts into the old vD. -/
def execVbfi (x : FVI) (s : State) := issue (.vbfi x) (vecBody x.d.toNat 32 fun t =>
  map2 (fun a c => fieldInsert 32 a c x.imm.toNat) (t.srcVI x 32) (t.readV 0 x.d.toNat).lanes) s

/-- VLI (R105). -/
def execVli (x : FX) (s : State) := issue (.vli x) (vecBody x.d.toNat (opWidth x.ty) fun _ =>
  sameLanes ((if x.sub == 1 then x.ext.toNat else if wide x.ty then imm48 x.ty x.ext else x.ext.toNat % 2 ^ 32), false)) s

end Sys2Proof.Machine
end

