-- ==== Sys2Proof/Machine/FloatInstr.lean ====
section
/-! DEFINITION. The stochastic generators (R47) and the floating-point instructions FADD to FDOT2 (R109 to R113). -/

namespace Sys2Proof.Machine

/-- One draw of a generator (R47). -/
def rngStep (x : Elem) : Elem :=
  let x := x ^^^ (x <<< 13)
  let x := x ^^^ (x >>> 17)
  x ^^^ (x <<< 5)

/-- The seed of a lane's generator: not zero (R47; DESIGN CHOICE, log 6). -/
def rngStart (core part lane : Nat) : Elem :=
  let x := Config.rngSeed core part lane
  if x == 0 then 1 else x

/-- n draws in a row, and the state after them. -/
def rngDraws : Nat → Elem → List Elem × Elem
  | 0, x => ([], x)
  | n + 1, x =>
    let y := rngStep x
    let r := rngDraws n y
    (y :: r.1, r.2)

/-- The generators of a partition. -/
def Mach.generators (m : Mach) (core part : Nat) : List Elem :=
  ((m.core core).part part).rng.getD (lanes32.map fun l => rngStart core part l)

/-- n draws for each lane of k from the generators of a task's partition, in ascending element order (R47). -/
def Mach.draw (m : Mach) (core part : Nat) (k : Mask) (n : Nat) : List (List Elem) × Mach :=
  let gs := m.generators core part
  let res := lanes32.map fun l => if k.getLsbD l then rngDraws n (at32 gs l) else ([], at32 gs l)
  (res.map (·.1), m.modCore core fun c => c.setPart part { c.part part with rng := some (res.map (·.2)) })

/-- The draws an instruction makes: n a contributing lane under `.rs`, none otherwise. -/
def Iss.draw (ι : Iss) (m : Mach) (mode : Rnd) (n : Nat) : List (List Elem) × Mach :=
  if mode == .rs then m.draw ι.t.core ι.t.part ι.k n else ([], m)

/-- Draw i of lane l; 0 where the mode draws nothing. -/
def rhoAt (ds : List (List Elem)) (l i : Nat) : Elem := (ds.getD l []).getD i 0

/-- One 32-bit or 64-bit element: the packed pair types work on the two halves, each with a draw of its own (R109). -/
def halves (ty : Ty) (g : Elem → Nat → Nat → Nat → Nat) (r0 r1 : Elem) (a b c : Nat) : Nat :=
  if isPairTy ty then
    g r0 (a % 2 ^ 16) (b % 2 ^ 16) (c % 2 ^ 16) + 2 ^ 16 * g r1 (a / 2 ^ 16 % 2 ^ 16) (b / 2 ^ 16 % 2 ^ 16) (c / 2 ^ 16 % 2 ^ 16)
  else g r0 a b c

/-- The result lanes of a floating-point instruction from its operands and draws; poisoned if an operand read is (R61). -/
def floatLanes (ty : Ty) (ds : List (List Elem)) (g : Elem → Nat → Nat → Nat → Nat) (a b c : Lanes) : Lanes :=
  lanes32.map fun l =>
    (halves ty g (rhoAt ds l 0) (rhoAt ds l 1) (laneAt a l).1 (laneAt b l).1 (laneAt c l).1,
     (laneAt a l).2 || (laneAt b l).2 || (laneAt c l).2)

/-- The operands of a V3 instruction with one, two or three sources; an unused one reads as an unpoisoned 0. -/
def Task.srcs (t : Task) (x : FV3) (ops n : Nat) : Lanes × Lanes × Lanes :=
  (t.srcA x n, if 2 ≤ ops then t.srcB x n else sameLanes (0, false), if 3 ≤ ops then t.srcC x n else sameLanes (0, false))

/-- A floating-point instruction with a number of sources (R109). -/
def floatBody (x : FV3) (ops : Nat) (g : Elem → Nat → Nat → Nat → Nat) (m : Mach) (ι : Iss) : Res :=
  let (ds, m) := ι.draw m x.rnd (if isPairTy x.ty then 2 else 1)
  let (a, b, c) := ι.t.srcs x ops (opWidth x.ty)
  .done (ι.mod m fun t => t.writeVec x.d.toNat (opWidth x.ty) ι.k (floatLanes x.ty ds g a b c))

/-- An arithmetic operation of R109, rounded once in the instruction's mode. -/
def arith (x : FV3) (op : FOp) (r : Elem) (a b c : Nat) : Nat := floatOp (fmtOf x.ty) op x.rnd r x.sat a b c

/-- FADD (R109). -/
def execFadd (x : FV3) (s : State) := issue (.fadd x) (floatBody x 2 (arith x .add)) s
/-- FSUB (R109). -/
def execFsub (x : FV3) (s : State) := issue (.fsub x) (floatBody x 2 (arith x .sub)) s
/-- FMUL (R109). -/
def execFmul (x : FV3) (s : State) := issue (.fmul x) (floatBody x 2 (arith x .mul)) s
/-- FFMA (R109). -/
def execFfma (x : FV3) (s : State) := issue (.ffma x) (floatBody x 3 (arith x .fma)) s
/-- FMIN (R109). -/
def execFmin (x : FV3) (s : State) := issue (.fmin x) (floatBody x 2 fun _ a b _ => minMax (fmtOf x.ty) false a b) s
/-- FMAX (R109). -/
def execFmax (x : FV3) (s : State) := issue (.fmax x) (floatBody x 2 fun _ a b _ => minMax (fmtOf x.ty) true a b) s
/-- FABS (R109): the sign bit cleared. -/
def execFabs (x : FV3) (s : State) := issue (.fabs x) (floatBody x 1 fun _ a _ _ => a % 2 ^ ((fmtOf x.ty).width - 1)) s
/-- FNEG (R109): the sign bit inverted. -/
def execFneg (x : FV3) (s : State) := issue (.fneg x) (floatBody x 1 fun _ a _ _ => a ^^^ 2 ^ ((fmtOf x.ty).width - 1)) s
/-- FSQRT (R109). -/
def execFsqrt (x : FV3) (s : State) := issue (.fsqrt x) (floatBody x 1 (arith x .sqrt)) s
/-- FRND (R111). -/
def execFrnd (x : FV3) (s : State) := issue (.frnd x) (floatBody x 1 (arith x .rnd)) s

/-- A function of R110 on FP32. -/
def funBody (x : FV3) (f : Fun) : Mach → Iss → Res := floatBody x 1 fun _ a _ _ => funOp f x.sat (BitVec.ofNat 32 a)

/-- FRCP (R110). -/
def execFrcp (x : FV3) (s : State) := issue (.frcp x) (funBody x .rcp) s
/-- FRSQ (R110). -/
def execFrsq (x : FV3) (s : State) := issue (.frsq x) (funBody x .rsq) s
/-- FEXP2 (R110). -/
def execFexp2 (x : FV3) (s : State) := issue (.fexp2 x) (funBody x .exp2) s
/-- FLOG2 (R110). -/
def execFlog2 (x : FV3) (s : State) := issue (.flog2 x) (funBody x .log2) s
/-- FSIN (R110). -/
def execFsin (x : FV3) (s : State) := issue (.fsin x) (funBody x .sin) s
/-- FCOS (R110). -/
def execFcos (x : FV3) (s : State) := issue (.fcos x) (funBody x .cos) s

/-- FCLASS (R112): the class bit of each element against the mask. -/
def execFclass (x : FVI) (s : State) := issue (.fclass x) (fun m ι =>
  let a := ι.t.srcVI x (opWidth x.ty)
  let r := predResult fun l =>
    (x.imm.toNat.testBit (classBit (fmtOf x.ty) ((laneAt a l).1 % 2 ^ (fmtOf x.ty).width)), (laneAt a l).2)
  .done (ι.mod m fun t => t.writeP x.d.toNat ι.k r)) s

/-- FDOT2 (R113): a and b of TYPE, c and the result FP32; one draw a lane. An immediate c is FP32 (R86). -/
def execFdot2 (x : FV3) (s : State) := issue (.fdot2 x) (fun m ι =>
  let (ds, m) := ι.draw m x.rnd 1
  let a := ι.t.srcA x 32
  let b := ι.t.srcB x 32
  let c := ι.t.opnd 3 x.kc x.c 32 .f32
  let r := lanes32.map fun l =>
    (dot2 (fmtOf x.ty) x.rnd (rhoAt ds l 0) x.sat (laneAt a l).1 (laneAt b l).1 (laneAt c l).1,
     (laneAt a l).2 || (laneAt b l).2 || (laneAt c l).2)
  .done (ι.mod m fun t => t.writeVec x.d.toNat 32 ι.k r)) s

end Sys2Proof.Machine
end

