-- ==== Sys2Proof/Machine/Convert.lean ====
section
/-! DEFINITION. Conversion: CVT, PACK, UNPK and QNT (R114 to R118). -/

namespace Sys2Proof.Machine

/-- CVT (R114, R115): one element a lane; a draw a lane under `.rs`, even when the conversion is exact. -/
def execCvt (x : FV3) (s : State) := issue (.cvt x) (fun m ι =>
  let st := tyOf (x.b.extractLsb' 0 5)
  let (ds, m) := ι.draw m x.rnd 1
  let a := ι.t.opnd 1 x.ka x.a (opWidth st) st
  let r := lanes32.map fun l => (convert x.ty st x.rnd (rhoAt ds l 0) x.sat (laneAt a l).1, (laneAt a l).2)
  .done (ι.mod m fun t => t.writeVec x.d.toNat (opWidth x.ty) ι.k r)) s

/-- The type that PACK reads and UNPK writes for a packed type (R116, R117). -/
def unpackedTy (t : Ty) : Ty :=
  match t with
  | .s8 => .s32 | .s16 => .s32 | .z8 => .z32 | .z16 => .z32 | _ => .f32

/-- The element type of a packed type. -/
def elementTy (t : Ty) : Ty :=
  match t with
  | .f16x2 => .f16 | .bf16x2 => .bf16 | t => t

/-- One element of PACK: converted and cut to the width of its slot (R116). -/
def packElem (t : Ty) (mode : Rnd) (r : Elem) (sat : Bool) (a : Nat) : Nat :=
  convert (elementTy t) (unpackedTy t) mode r sat a % 2 ^ (packShape t).1

/-- The words of the group that hold element `slot`, from its first bit to its last (R42). -/
def packWords (t : Ty) (slot : Nat) : Nat × Nat :=
  let w := (packShape t).1
  (w * slot / 32, (w * slot + w - 1) / 32)

/-- The registers of an FP6 group, or one register, as one number a lane with the poison of each word (R42). -/
def Task.groupLanes (t : Task) (opno r n : Nat) : List (Nat × List Bool) :=
  lanes32.map fun l =>
    (((List.range n).map fun i => (at32 (t.readV opno (r + i)).e l).toNat * 2 ^ (32 * i)).foldl (· + ·) 0,
     (List.range n).map fun i => (t.readV opno (r + i)).poi.getLsbD l)

/-- PACK (R116): a pair form writes the whole word; every other form merges into vD. -/
def execPack (x : FV3) (s : State) := issue (.pack x) (fun m ι =>
  let st := unpackedTy x.ty
  let (ds, m) := ι.draw m x.rnd (if isPairTy x.ty then 2 else 1)
  let a := ι.t.opnd 1 x.ka x.a 32 st
  if isPairTy x.ty then
    let b := ι.t.opnd 2 x.kb x.b 32 st
    let r := lanes32.map fun l =>
      (packElem x.ty x.rnd (rhoAt ds l 0) x.sat (laneAt a l).1 + 2 ^ 16 * packElem x.ty x.rnd (rhoAt ds l 1) x.sat (laneAt b l).1,
       (laneAt a l).2 || (laneAt b l).2)
    .done (ι.mod m fun t => t.writeV x.d.toNat ι.k (lanesReg r))
  else
    let n := packRegs x.ty
    let old := ι.t.groupLanes 0 x.d.toNat n
    let w := (packShape x.ty).1
    let lo := w * x.sub.toNat
    let (w0, w1) := packWords x.ty x.sub.toNat
    let new := fun (i : Nat) => lanes32.map fun l =>
      let o := old.getD l (0, [])
      let v := o.1 - o.1 / 2 ^ lo % 2 ^ w * 2 ^ lo + packElem x.ty x.rnd (rhoAt ds l 0) x.sat (laneAt a l).1 * 2 ^ lo
      (v / 2 ^ (32 * i), o.2.getD i false || (laneAt a l).2)
    .done (ι.mod m fun t => (List.range n).foldl (fun (t : Task) i =>
      if i == w0 || i == w1 then t.writeV (x.d.toNat + i) ι.k (lanesReg (new i)) else t) t)) s

/-- UNPK (R117): one packed element widened; it depends on the words that hold it. -/
def execUnpk (x : FVI) (s : State) := issue (.unpk x) (fun m ι =>
  let w := if isPairTy x.ty then 16 else (packShape x.ty).1
  let slot := (x.imm.extractLsb' 0 4).toNat
  let n := packRegs x.ty
  let src : List (Nat × List Bool) := if x.ka == .uni then (ι.t.srcVI x 32).map fun a => (a.1, [a.2]) else ι.t.groupLanes 1 x.a.toNat n
  let i0 := w * slot / 32
  let i1 := (w * slot + w - 1) / 32
  let r := src.map fun a =>
    (convert (unpackedTy x.ty) (elementTy x.ty) .rne 0 false (a.1 / 2 ^ (w * slot) % 2 ^ w), a.2.getD i0 false || a.2.getD i1 false)
  .done (ι.mod m fun t => t.writeVec x.d.toNat 32 ι.k r)) s

/-- QNT (R59, R118): the block's scale over the contributing unpoisoned lanes; each contributing lane gets scale and element. -/
def execQnt (x : FV3) (s : State) := issue (.qnt x) (fun m ι =>
  let (ds, m) := ι.draw m x.rnd 1
  let a := ι.t.readV 1 x.a.toNat
  let scale := qntScale x.ty ((lanesOf (ι.k &&& ~~~a.poi)).map (at32 a.e))
  let r := lanes32.map fun l => (2 ^ 8 * scale + qntElem x.ty x.rnd (rhoAt ds l 0) scale (at32 a.e l), a.poi.getLsbD l)
  .done (ι.mod m fun t => t.writeVec x.d.toNat 32 ι.k r)) s

end Sys2Proof.Machine
end

