-- ==== Sys2Proof/Machine/Predicate.lean ====
section
/-! DEFINITION. Compares and predicates: VCMP, FCMP, PAND to PMOV, PSETS and PGETS (R119 to R121). -/

namespace Sys2Proof.Machine

/-- A compare: the condition of each lane's elements, poisoned if either is (R119). -/
def cmpBody (x : FV3) (cond : Nat → Nat → Bool) (m : Mach) (ι : Iss) : Res :=
  let a := ι.t.srcA x (opWidth x.ty)
  let b := ι.t.srcB x (opWidth x.ty)
  let r := predResult fun l => (cond (laneAt a l).1 (laneAt b l).1, (laneAt a l).2 || (laneAt b l).2)
  .done (ι.mod m fun t => t.writeP x.d.toNat ι.k r)

/-- VCMP (R119). -/
def execVcmp (x : FV3) (s : State) := issue (.vcmp x) (cmpBody x fun a b => intCond x.sub.toNat (intVal x.ty a) (intVal x.ty b)) s
/-- FCMP (R119). -/
def execFcmp (x : FV3) (s : State) := issue (.fcmp x) (cmpBody x fun a b => floatCond x.sub.toNat (fmtOf x.ty) a b) s

/-- A predicate source, plain or negated; negation does not change poison (R120). -/
def Task.predOpnd (t : Task) (opno : Nat) (k : Kind) (r : BitVec 8) : PReg :=
  let p := t.readP opno r.toNat
  if k == .uni then ⟨~~~p.v, p.poi⟩ else p

/-- PAND, POR and PXOR. -/
def pred2 (x : FV3) (f : Mask → Mask → Mask) (m : Mach) (ι : Iss) : Res :=
  let a := ι.t.predOpnd 1 x.ka x.a
  let b := ι.t.predOpnd 2 x.kb x.b
  .done (ι.mod m fun t => t.writeP x.d.toNat ι.k ⟨f a.v b.v, a.poi ||| b.poi⟩)

/-- PNOT and PMOV. -/
def pred1 (x : FV3) (f : Mask → Mask) (m : Mach) (ι : Iss) : Res :=
  let a := ι.t.predOpnd 1 x.ka x.a
  .done (ι.mod m fun t => t.writeP x.d.toNat ι.k ⟨f a.v, a.poi⟩)

/-- PAND (R120). -/
def execPand (x : FV3) (s : State) := issue (.pand x) (pred2 x (· &&& ·)) s
/-- POR (R120). -/
def execPor (x : FV3) (s : State) := issue (.por x) (pred2 x (· ||| ·)) s
/-- PXOR (R120). -/
def execPxor (x : FV3) (s : State) := issue (.pxor x) (pred2 x (· ^^^ ·)) s
/-- PNOT (R120). -/
def execPnot (x : FV3) (s : State) := issue (.pnot x) (pred1 x fun a => ~~~a) s
/-- PMOV (R120). -/
def execPmov (x : FV3) (s : State) := issue (.pmov x) (pred1 x id) s

/-- PSETS from a uniform register (R121). -/
def execPsets (x : FVI) (s : State) := issue (.psets x) (fun m ι =>
  let a := ι.t.uniOpnd 1 x.a.toNat 32
  .done (ι.mod m fun t => t.writeP x.d.toNat ι.k ⟨BitVec.ofNat 32 a.1, if a.2 then 0xFFFFFFFF else 0⟩)) s
/-- PSETS of a constant (R121). -/
def execPsetsImm (x : FVI) (s : State) := issue (.psetsImm x) (fun m ι =>
  .done (ι.mod m fun t => t.writeP x.d.toNat ι.k ⟨if x.imm.getLsbD 0 then 0xFFFFFFFF else 0, 0⟩)) s
/-- PGETS (R121): every live lane's element, 0 for dead lanes; poisoned if any live lane's is. -/
def execPgets (x : FVI) (s : State) := issue (.pgets x) (fun m ι =>
  let p := ι.t.readP 1 x.a.toNat
  let poi := p.poi &&& ~~~ι.t.xdead != 0
  .done (ι.mod m fun t => t.writeU x.d.toNat ⟨(p.v &&& ~~~ι.t.xdead).setWidth 64, poi, poi⟩)) s

end Sys2Proof.Machine
end

