-- ==== Sys2Proof/Machine/Lanes.lean ====
section
/-! DEFINITION. Lane exchange: SHFL, BCAST, BALLOT, VOTE, REDX, SCAN and MATCH (R62, R122 to R127). -/

namespace Sys2Proof.Machine

/-- What a live lane reads of lane `src`: a poisoned zero when it is dead (R62). -/
def laneOrDead (t : Task) (a : Lanes) (src : Nat) : Nat × Bool := if t.xdead.getLsbD src then (0, true) else laneAt a src

/-- The source lane of SHFL for lane L, from its mode, count or index, and segment width; none outside the segment (R123). -/
def shflSource (mode count seg L idx : Nat) : Option Nat :=
  let base := L - L % seg
  match mode with
  | 0 => some (base + idx % 32 % seg)
  | 1 => if base + count ≤ L then some (L - count) else none
  | 2 => if L + count < base + seg then some (L + count) else none
  | _ => let src := L ^^^ count; if base ≤ src && src < base + seg then some src else none

/-- SHFL (R123). -/
def execShfl (x : FVI) (s : State) := issue (.shfl x) (fun m ι =>
  let n := opWidth x.ty
  let a := ι.t.vecOpnd 1 x.a.toNat n
  let mode := x.sub.toNat
  let seg := 2 ^ (x.imm.extractLsb' 8 3).toNat
  let count := (x.imm.extractLsb' 0 5).toNat
  let idx := ι.t.readV 6 (x.imm.extractLsb' 0 8).toNat
  let r := lanes32.map fun L =>
    let v := match shflSource mode count seg L (at32 idx.e L).toNat with
      | some src => laneOrDead ι.t a src
      | none => laneAt a L
    (v.1, v.2 || (mode == 0 && idx.poi.getLsbD L))
  .done (ι.mod m fun t => t.writeVec x.d.toNat n ι.k r)) s

/-- BCAST (R124). -/
def execBcast (x : FVI) (s : State) := issue (.bcast x) (fun m ι =>
  let n := opWidth x.ty
  let a := ι.t.vecOpnd 1 x.a.toNat n
  let p := ι.t.readP 5 x.px.toNat
  let src := match x.sub.toNat with
    | 0 => some (x.imm.extractLsb' 0 5).toNat
    | 1 => lowestLane ι.k
    | _ => lowestLane (ι.k &&& p.v)
  match src with
  | none => .done m
  | some l =>
    let v := laneOrDead ι.t a l
    let poi := v.2 || (x.sub == 2 && p.poi &&& ι.k != 0)
    .done (ι.mod m fun t => t.writeVec x.d.toNat n ι.k (sameLanes (v.1, poi)))) s

/-- BALLOT (R125). -/
def execBallot (x : FV3) (s : State) := issue (.ballot x) (fun m ι =>
  let a := ι.t.predOpnd 1 x.ka x.a
  let poi := a.poi &&& ι.k != 0
  .done (ι.mod m fun t => t.writeU x.d.toNat ⟨(a.v &&& ι.k).setWidth 64, poi, poi⟩)) s

/-- VOTE (R125). -/
def execVote (x : FV3) (s : State) := issue (.vote x) (fun m ι =>
  let a := ι.t.predOpnd 1 x.ka x.a
  let all := a.v &&& ι.k == ι.k
  let any := a.v &&& ι.k != 0
  let v := match x.sub.toNat with
    | 0 => all
    | 1 => any
    | _ => all || !any
  .done (ι.mod m fun t => t.writeP x.d.toNat ι.k
    ⟨if v then 0xFFFFFFFF else 0, if a.poi &&& ι.k != 0 then 0xFFFFFFFF else 0⟩)) s

/-- The levels of the tree of R56 over the contributing lanes, the others supplying the identity (R126). -/
def laneTree (x : FV3) (a : VReg) (k : Mask) : List (List Elem) :=
  let op := (x.sub.extractLsb' 0 3).toNat
  treeLevels op x.ty x.rnd 5 (lanes32.map fun l => if k.getLsbD l then at32 a.e l else identityOf op x.ty)

/-- REDX (R126): poisoned if any contributing lane is. -/
def execRedx (x : FV3) (s : State) := issue (.redx x) (fun m ι =>
  let op := (x.sub.extractLsb' 0 3).toNat
  let a := ι.t.readV 1 x.a.toNat
  let v := if ι.k == 0 then emptyOf op x.ty else at32 ((laneTree x a ι.k).getD 5 []) 0
  .done (ι.mod m fun t => t.writeU x.d.toNat (uniResult x.ty (v.toNat, a.poi &&& ι.k != 0)))) s

/-- SCAN (R126): lane L gets the combination of its prefix; poison from the contributing lanes of the prefix. -/
def execScan (x : FV3) (s : State) := issue (.scan x) (fun m ι =>
  let op := (x.sub.extractLsb' 0 3).toNat
  let a := ι.t.readV 1 x.a.toNat
  let levels := laneTree x a ι.k
  let r := lanes32.map fun L =>
    let n := if x.sub.getLsbD 3 then L else L + 1
    let inPrefix := ι.k &&& maskOf fun l => l < n
    let v := if inPrefix == 0 then emptyOf op x.ty else prefixValue op x.ty x.rnd levels n
    (v.toNat, a.poi &&& inPrefix != 0)
  .done (ι.mod m fun t => t.writeVec x.d.toNat 32 ι.k r)) s

/-- MATCH (R127): the mask of contributing lanes with an equal value; any poisoned one poisons every element written. -/
def execMatch (x : FV3) (s : State) := issue (.match x) (fun m ι =>
  let a := ι.t.vecOpnd 1 x.a.toNat (opWidth x.ty)
  let poi := lanesPoi a &&& ι.k != 0
  let r := lanes32.map fun L => ((ι.k &&& maskOf fun l => (laneAt a l).1 == (laneAt a L).1).toNat, poi)
  .done (ι.mod m fun t => t.writeVec x.d.toNat 32 ι.k r)) s

end Sys2Proof.Machine
end

