-- ==== Sys2Proof/Machine/Control.lean ====
section
/-! DEFINITION. Control flow: BRA to NOP, joins and EXIT (R135 to R143, R228 to R236), TRAP and TRET (R172, R173). -/

namespace Sys2Proof.Machine

/-- The direct target of a control instruction. -/
def Iss.target (ι : Iss) (x : FC) : Word := directTarget ι.s.clause x.lo

/-- A new part of a divided split, or a lane group released at a target (R230, R236): the cycle is its stamp. -/
def Iss.part (ι : Iss) (clk : Nat) (target : Word) (lanes : Mask) (sig : Elem) : Split :=
  { ι.here.goto target 1 (clk + 2) with xact := lanes, pxact := ι.s.pxact &&& lanes, xsig := sig, stamp := clk, held := false, fault := none }

/-- The trap STACKOV (R136, R137, R236). -/
def stackOverflow (ι : Iss) : TrapInfo := mkTrap 0x0B ι.s.xact 0x01 0 0 0

/-- BRA (R136). -/
def execBra (x : FC) (s : State) := issue (.bra x) (fun m ι => ι.jump m (ι.target x) 2) s

/-- BRP (R136): divides the split when some but not all of its lanes hold the condition. -/
def execBrp (x : FC) (s : State) := issue (.brp x) (fun m ι =>
  let p := ι.t.readP 5 x.pa.toNat
  consume m ι (p.poi &&& ι.s.xact) 0x02 0 0 0 fun m ι =>
    let c := (if x.lo.getLsbD 24 then ~~~p.v else p.v) &&& ι.s.xact
    if c == ι.s.xact then ι.jump m (ι.target x) 2
    else if c == 0 then ι.jump m ι.next 1
    else
      match m.task ι.tid with
      | none => .moved m
      | some t =>
        let stay := { ι.here.goto ι.next 1 (m.clk + 1) with xact := ι.s.xact &&& ~~~c, pxact := ι.s.pxact &&& ~~~c }
        match (t.setSplit ι.e (some stay)).place (ι.part m.clk (ι.target x) c ι.sig) with
        | some t' => .moved (m.setTask ι.tid t')
        | none => .trap m (stackOverflow ι)) s

/-- SBRZ and SBRNZ (R136). -/
def uniBranch (x : FC) (takenIfZero : Bool) (m : Mach) (ι : Iss) : Res :=
  let a := ι.t.uniOpnd 4 x.reg.toNat 64
  consumeUni m ι a.2 0x02 0 0 0 fun m ι =>
    if (a.1 == 0) == takenIfZero then ι.jump m (ι.target x) 2 else ι.jump m ι.next 1

/-- SBRZ (R136). -/
def execSbrz (x : FC) (s : State) := issue (.sbrz x) (uniBranch x true) s
/-- SBRNZ (R136). -/
def execSbrnz (x : FC) (s : State) := issue (.sbrnz x) (uniBranch x false) s

/-- An indirect jump of the whole split (R135, R137, R138). -/
def uniJump (x : FC) (m : Mach) (ι : Iss) : Res :=
  let a := ι.t.uniOpnd 4 x.reg.toNat 64
  consumeUni m ι a.2 0x05 0 (BitVec.ofNat 64 a.1) 0 fun m ι =>
    match targetFault a.1 with
    | some (c, r) => .trap m (mkTrap c ι.s.xact r 0 (BitVec.ofNat 64 a.1) 0)
    | none => ι.jump m (BitVec.ofNat 64 a.1) 2

/-- BRX, uniform form (R137). -/
def execBrx (x : FC) (s : State) := issue (.brx x) (uniJump x) s
/-- RET (R138). -/
def execRet (x : FC) (s : State) := issue (.ret x) (uniJump x) s
/-- CALL (R138). -/
def execCall (x : FC) (s : State) := issue (.call x) (fun m ι =>
  ι.jump (ι.mod m fun t => t.writeU x.reg.toNat ⟨ι.next, false, false⟩) (ι.target x) 2) s

/-- Add a lane to the group of its target, or as a new last group. -/
def addToGroup (target : Nat) (lane : Mask) : List (Nat × Mask) → List (Nat × Mask)
  | [] => [(target, lane)]
  | g :: gs => if g.1 == target then (g.1, g.2 ||| lane) :: gs else g :: addToGroup target lane gs

/-- The lanes grouped by equal target, in ascending order of each group's lowest lane (R137). -/
def groupLanesBy (v : Lanes) (lanes : List Nat) : List (Nat × Mask) :=
  lanes.foldl (fun gs l => addToGroup (laneAt v l).1 ((1 : Mask) <<< l) gs) []

/-- BRX, vector form (R137): the checks of every lane's target come before any lane moves. -/
def execBrxVector (x : FC) (s : State) := issue (.brxVector x) (fun m ι =>
  let v := ι.t.vecOpnd 4 x.reg.toNat 64
  let poi := lanesPoi v &&& ι.s.xact
  let at' := fun (k : Mask) => BitVec.ofNat 64 (laneAt v ((lowestLane k).getD 0)).1
  consume m ι poi 0x05 0 (at' poi) 0 fun m ι =>
    match (lanesOf ι.s.xact).findSome? fun l => targetFault (laneAt v l).1 with
    | some (c, r) =>
      let k := ι.s.xact &&& maskOf fun l => targetFault (laneAt v l).1 == some (c, r)
      .trap m (mkTrap c k r 0 (at' k) 0)
    | none =>
      match groupLanesBy v (lanesOf ι.s.xact), m.task ι.tid with
      | (target, lanes) :: rest, some t =>
        let first := { ι.here.goto (BitVec.ofNat 64 target) 1 (m.clk + 2) with xact := lanes, pxact := ι.s.pxact &&& lanes }
        match (t.setSplit ι.e (some first)).placeAll (rest.map fun g => ι.part m.clk (BitVec.ofNat 64 g.1) g.2 ι.sig) with
        | some t' => .moved (m.setTask ι.tid t')
        | none => .trap m (stackOverflow ι)
      | _, _ => .moved m) s

/-! ### Joins -/

/-- JSET (R139, R236): waits while the register is occupied (R235). -/
def bodyJset (x : FC) (m : Mach) (ι : Iss) : Res :=
  let a := ι.t.uniOpnd 4 x.reg.toNat 32
  consumeUni m ι (x.kr == .uni && a.2) 0x04 0 0 0 fun m ι =>
    match m.task ι.tid with
    | none => .moved m
    | some t =>
      let j := t.join x.jn.toNat
      if j.occ then .wait m false .cond
      else
        let lanes := if x.kr == .uni then BitVec.ofNat 32 a.1 else ι.s.xact
        let released := if j.valid then j.arrivals.map fun (k, sig) => { ι.part m.clk j.target k sig with pxact := k } else []
        match t.placeAll released with
        | none => .trap m (stackOverflow ι)
        | some t' =>
          let armed := fun (lanes : Mask) => Join.mk true false (lanes &&& ~~~t.xdead &&& ~~~t.exited) [] (ι.target x) false
          .done (m.setTask ι.tid (t'.setJoins x.jn.toNat (armed lanes) (armed (if x.kr == .uni then lanes else ι.s.pxact))))
def execJset (x : FC) (s : State) := issue (.jset x) (bodyJset x) s

/-- Lanes arrive at a join with the xsig of their split (R140, R233). -/
def Join.arrive (j : Join) (w : Mask) (sig : Elem) : Join :=
  { j with arrivals := if w == 0 then j.arrivals else j.arrivals ++ [(w, sig)] }.check

/-- JWAIT (R140, R230): the expected lanes arrive and leave the entry; the others continue at the join's target. -/
def bodyJwait (x : FC) (m : Mach) (ι : Iss) : Res :=
  match m.task ι.tid with
  | none => .moved m
  | some t =>
    let j := t.join x.jn.toNat
    if j.occ then .wait m true .cond
    else if !j.valid then ι.jump m ι.next 1
    else
      let u := ι.s.xact &&& ~~~j.expected
      let w := ι.s.xact &&& j.expected
      let split := if u == 0 then none
        else some { ι.here.goto j.target 1 (m.clk + 2) with xact := u, pxact := ι.s.pxact &&& ~~~w }
      .moved (m.setTask ι.tid ((t.setJoins x.jn.toNat (j.arrive w ι.sig)
        ((t.pjoin x.jn.toNat).arrive (ι.s.pxact &&& (t.pjoin x.jn.toNat).expected) ι.sig)).setSplit ι.e split))
def execJwait (x : FC) (s : State) := issue (.jwait x) (bodyJwait x) s

/-- JDROP (R141). -/
def bodyJdrop (x : FC) (m : Mach) (ι : Iss) : Res :=
  match m.task ι.tid with
  | none => .moved m
  | some t =>
    let j := t.join x.jn.toNat
    if j.occ then .wait m true .cond
    else if !j.valid then .done m
    else .done (m.setTask ι.tid (t.modJoin x.jn.toNat fun j => { j with expected := j.expected &&& ~~~ι.k }.check))
def execJdrop (x : FC) (s : State) := issue (.jdrop x) (bodyJdrop x) s

/-- EXIT (R142): the contributing lanes leave the split and every expected mask; a task with no lane left ends. -/
def execExit (x : FC) (s : State) := issue (.exit x) (fun m ι =>
  match m.task ι.tid with
  | none => .moved m
  | some t =>
    let rest := ι.s.xact &&& ~~~ι.k
    let t := { t with exited := t.exited ||| ι.k }.unexpect ι.k
    let t := t.setSplit ι.e (if rest == 0 then none
      else some { ι.here.goto ι.next 1 (m.clk + 1) with xact := rest, pxact := ι.s.pxact &&& ~~~ι.k })
    .moved (m.setTask ι.tid t.endCheck)) s

/-- NOP (R143). -/
def execNop (x : FC) (s : State) := issue (.nop x) (fun m _ => .done m) s

/-! ### Traps (R172, R173) -/

/-- TRAP (R172): raises USER; xepc names slot 1 of the next clause. -/
def execTrap (x : FC) (s : State) := issue (.trap x) (fun m ι =>
  .trap m ⟨0x0E, x.lo.setWidth 64, 0, 0, some (epcOf ι.next 1)⟩) s

/-- TRET (R173). -/
def execTret (x : FC) (s : State) := issue (.tret x) (fun m ι =>
  .moved ((ι.mod m fun t => t.modSplit ι.e fun s => { s with xsig := ι.sig }).returnTrap ι.tid ι.e)) s

end Sys2Proof.Machine
end

