-- ==== Sys2Proof/Machine/PoisonSig.lean ====
section
/-! DEFINITION. Poison instructions (R164 to R168), signatures (R169 to R171, R413), special registers and HALT (R36 to R38, R174, R175, R178). -/

namespace Sys2Proof.Machine

/-! ### Poison instructions: KA names the class of A (R164) -/

/-- The poison of the element that PTEST tests in each lane (R165). -/
def ptestLanes (t : Task) (x : FV3) : Mask :=
  match x.ka with
  | .vec => lanesPoi (t.vecOpnd 1 x.a.toNat (opWidth x.ty))
  | .uni => if (t.uniOpnd 1 x.a.toNat (opWidth x.ty)).2 then 0xFFFFFFFF else 0
  | .imm => (t.readP 1 x.a.toNat).poi
  | .rsv => (t.readA 1 x.a.toNat).poi.getD x.c.toNat 0

/-- PTEST (R165): the result is unpoisoned. -/
def execPtest (x : FV3) (s : State) := issue (.ptest x) (fun m ι =>
  .done (ι.mod m fun t => t.writeP x.d.toNat ι.k ⟨ptestLanes ι.t x, 0⟩)) s

/-- A copy of A to D with its poison cleared or set (R166, R168). A 32-bit uniform result is zero-extended (R27; DEDUCED, log 52). -/
def copyPoison (x : FV3) (poison : Bool) (m : Mach) (ι : Iss) : Res :=
  let all : Mask := if poison then 0xFFFFFFFF else 0
  .done (ι.mod m fun t =>
    match x.ka with
    | .vec => t.writeVec x.d.toNat (opWidth x.ty) ι.k ((ι.t.vecOpnd 1 x.a.toNat (opWidth x.ty)).map fun a => (a.1, poison))
    | .uni => t.writeU x.d.toNat ⟨BitVec.ofNat 64 (ι.t.uniOpnd 1 x.a.toNat (opWidth x.ty)).1, poison, poison⟩
    | .imm => t.writeP x.d.toNat ι.k ⟨(ι.t.readP 1 x.a.toNat).v, all⟩
    | .rsv => t.writeA x.d.toNat allEls ⟨(ι.t.readA 1 x.a.toNat).rows, List.replicate 32 all⟩)

/-- PCLR (R166). -/
def execPclr (x : FV3) (s : State) := issue (.pclr x) (copyPoison x false) s
/-- PINJ (R168): supervisor only. -/
def execPinj (x : FV3) (s : State) := issue (.pinj x) (copyPoison x true) s

/-- PSEL (R167): a poisoned element is replaced by b with b's poison; the others are copied unpoisoned. A 32-bit uniform result is
zero-extended (R27; DEDUCED, log 52). -/
def execPsel (x : FV3) (s : State) := issue (.psel x) (fun m ι =>
  let n := opWidth x.ty
  let b := ι.t.opnd 2 x.kb x.b n x.ty
  .done (ι.mod m fun t =>
    match x.ka with
    | .vec => t.writeVec x.d.toNat n ι.k ((ι.t.vecOpnd 1 x.a.toNat n).zipWith (fun a b => if a.2 then b else (a.1, false)) b)
    | .uni =>
      let b0 := laneAt b 0
      if (ι.t.uniOpnd 1 x.a.toNat n).2 then t.writeU x.d.toNat ⟨BitVec.ofNat 64 b0.1, b0.2, b0.2⟩
      else t.writeU x.d.toNat ⟨BitVec.ofNat 64 (ι.t.uniOpnd 1 x.a.toNat n).1, false, false⟩
    | .imm => t
    | .rsv =>
      let b0 := laneAt b 0
      let a := ι.t.readA 1 x.a.toNat
      t.writeA x.d.toNat allEls
        ⟨lanes32.map fun r => lanes32.map fun c =>
           if (a.poi.getD r 0).getLsbD c then BitVec.ofNat 32 b0.1 else at32 (a.rows.getD r []) c,
         a.poi.map fun k => if b0.2 then k else 0⟩)) s

/-! ### Signatures -/

/-- The SIGMIS record (R413, R414, R419). -/
def sigmisRecord (m : Mach) (t : Task) (epc syn : Word) : Mach :=
  (m.errorRecord t.ctx [recordHead 3 9 0 0 (unitOf t.core t.part 2) m.xdev.toNat, m.xclk, t.xtask, 0, epc, syn, 0, 0]).errorCount
    t.ctx 40 1

/-- What SIGCHK finds (R170): bit 0 a signature that differs, bit 1 a Parallax copy that differs. -/
def sigMismatch (t : Task) (s : Split) (imm : Elem) : Nat :=
  (if s.xsig != imm then 1 else 0) +
  (if s.pxact != s.xact || (List.range 8).any (fun j => t.join j != t.pjoin j) then 2 else 0)

/-- SIGCHK (R170): xsig is cleared, and the clearing stands when it traps SIGMIS.

The retry run of R414 is made of this step (xcause 9, xsyn, xsig 0, the record with XEPC at the SIGCHK and SIGMISN risen by 1, by
`sigmisRecord`), of the entry into the handler (`Mach.takeTrap`) and of its return into the retry copy (`Mach.returnTrap`). -/
def execSigchk (x : FC) (s : State) := issue (.sigchk x) (fun m ι =>
  let mis := sigMismatch ι.t ι.s x.lo
  if mis == 0 then .moved (ι.mod m fun t => t.modSplit ι.e fun s =>
    { s with xsig := 0 }.advance m.clk ι.words (headerNslot ι.hdr))
  else
    let syn := BitVec.ofNat 64 (2 ^ 32 * ι.s.xsig.toNat + mis)
    let m := ι.mod m fun t => t.modSplit ι.e fun s => { s with xsig := 0 }
    .trap (sigmisRecord m ι.t (epcOf ι.s.clause ι.s.slot) syn) ⟨9, syn, 0, 2, none⟩) s

/-- SIGRD (R171). -/
def execSigrd (x : FS) (s : State) := issue (.sigrd x) (fun m ι =>
  let v := if x.sub == 0 then ι.s.xsig else ι.s.pxact
  .done (ι.mod m fun t => t.writeU x.d.toNat ⟨v.setWidth 64, false, false⟩)) s

/-! ### Special registers -/

/-- xtask of the member with index 0 of a task's team (R36). -/
def Mach.leader (m : Mach) (t : Task) : Word :=
  if t.idx == 0 then t.xtask
  else match m.team t.team with
    | some g => g.leader
    | none => t.xtask

/-- The value of a special register as SRD reads it (R36 to R38, R174); xlane is read by lane. -/
def specialReg (m : Mach) (t : Task) (s : Split) (i : Nat) : Word :=
  match i with
  | 0x00 => t.xtask
  | 0x01 => m.leader t
  | 0x02 => BitVec.ofNat 64 (16 * t.sizeM1 + t.idx)
  | 0x04 => BitVec.ofNat 64 (1024 * t.slot + 256 * t.part + logicalOf t.core)
  | 0x05 => BitVec.ofNat 64 (dieOf t.core)
  | 0x06 => m.xdev.setWidth 64
  | 0x07 => m.xclk
  | 0x08 => t.xtile
  | 0x09 => s.xact.setWidth 64
  | 0x0A => t.xdead.setWidth 64
  | 0x0B => t.tagWindow
  | 0x0C => t.xepc
  | 0x0D => t.xcause
  | 0x0E => t.xsyn
  | 0x0F => t.xaddr
  | 0x10 => t.xunit
  | 0x11 => t.xhnd
  | 0x12 => s.xsig.setWidth 64
  | 0x13 => match t.mtile with
    | some x => BitVec.ofNat 64 x.step
    | none => 0
  | 0x14 => (m.core t.core).xrgen.setWidth 64
  | _ => 0

/-- SRD to a uniform register (R174). -/
def execSrd (x : FVI) (s : State) := issue (.srd x) (fun m ι =>
  .done (ι.mod m fun t => t.writeU x.d.toNat ⟨specialReg m ι.t ι.s (xregIdx x), false, false⟩)) s

/-- SRD to a vector register (R174): xlane writes each lane's own number. -/
def execSrdVector (x : FVI) (s : State) := issue (.srdVector x) (fun m ι =>
  let n := opWidth x.ty
  let v := if xregIdx x == 3 then lanes32.map fun l => (l, false)
    else sameLanes ((specialReg m ι.t ι.s (xregIdx x)).toNat % 2 ^ n, false)
  .done (ι.mod m fun t => t.writeVec x.d.toNat n ι.k v)) s

/-- The bits of a task's special register that SWR keeps (R175). -/
def Task.writeSpecial (t : Task) (i : Nat) (v : Word) : Task :=
  match i with
  | 0x0B => { t with xtagB := fieldOf v 0 3 }
  | 0x0C => { t with xepc := BitVec.ofNat 64 (v.toNat % 2 ^ 48 / 8 * 8) }
  | 0x0D => { t with xcause := v &&& 0xFF }
  | 0x0E => { t with xsyn := v }
  | 0x0F => { t with xaddr := v }
  | 0x10 => { t with xunit := v &&& 0xFFFF }
  | 0x11 => { t with xhnd := BitVec.ofNat 64 (v.toNat / 64 * 64) }
  | _ => t

/-- SWR (R33, R36, R175): xclk and xsig are written in supervisor mode only; the new xclk is held from the next ck. -/
def execSwr (x : FVI) (s : State) := issue (.swr x) (fun m ι =>
  let i := xregIdx x
  let a := ι.t.uniOpnd 1 x.a.toNat 64
  let v := BitVec.ofNat 64 a.1
  consumeUni m ι a.2 0x08 i 0 0 fun m ι =>
    if (i == 0x07 || i == 0x12) && !ι.t.supervisor then .trap m (mkTrap 2 ι.s.xact 0x02 i 0 0)
    else if i == 0x07 then .done { m with xclkNext := some v }
    else if i == 0x12 then .moved (ι.mod m fun t => t.modSplit ι.e fun s =>
      { s with xsig := v.setWidth 32 }.advance m.clk ι.words (headerNslot ι.hdr))
    else .done (ι.mod m fun t => t.writeSpecial i v)) s

/-- HALT (R178): waits IMM32 × 256 ck, or without limit when IMM32 is 0. -/
def execHalt (x : FC) (s : State) := issue (.halt x) (fun m _ =>
  .wait m true (.halt (if x.lo == 0 then none else some (m.clk + 256 * x.lo.toNat)))) s

end Sys2Proof.Machine
end

