-- ==== Sys2Proof/Machine/Health.lean ====
section
/-! DEFINITION. Wear domains, healthy cores, the legal configuration, the sparing map and DEVSTAT (R426 to R433). -/

namespace Sys2Proof.Machine

/-! ### Domains (R427) -/

/-- KIND, DIE and PHYS of a domain number. -/
def domKind (d : Nat) : Nat := d / 2048
def domDie (d : Nat) : Nat := d / 256 % 8
def domPhys (d : Nat) : Nat := d % 256
def domainNo (kind die phys : Nat) : Nat := 2048 * kind + 256 * die + phys

/-- The numbers that name a domain (R427): 16 modules a boundary, 4 an I/O attachment. -/
def validDomain (d : Nat) : Bool :=
  match domKind d with
  | 0 => domPhys d < 76
  | 1 => domPhys d < 32
  | 2 => domDie d == 0 && domPhys d / 16 < 14 && (domPhys d / 16 < 10 || domPhys d % 16 < 4)
  | 3 => domPhys d < 68
  | _ => false

/-- The wear record of a domain that no sample has reached yet (DESIGN CHOICE, log 14). -/
def Wear.fresh : Wear := ⟨false, false, false, 0, 20⟩
def Firm.wearOf (fw : Firm) (d : Nat) : Wear := tabGetD fw.wear d Wear.fresh
def Firm.modWear (fw : Firm) (d : Nat) (f : Wear → Wear) : Firm := { fw with wear := tabSet fw.wear d (f (fw.wearOf d)) }
def Wear.healthy (w : Wear) : Bool := !w.retired && !w.marked

/-! ### Cores (R3, R429) -/

/-- The healthy physical cores of a die. -/
def Firm.healthyCores (fw : Firm) (die : Nat) : List Nat := (List.range 76).filter fun p => (fw.wearOf (domainNo 0 die p)).healthy

/-- H (R429). -/
def Firm.healthOf (fw : Firm) (die : Nat) : Nat := (fw.healthyCores die).length

/-- The largest legal number of cores a die that the health allows (R429); none when a die has fewer than 64. -/
def Firm.legalCores (fw : Firm) : Option Nat :=
  let h := (List.range 8).foldl (fun h d => min h (fw.healthOf d)) 76
  if 72 ≤ h then some 72 else if 68 ≤ h then some 68 else if 64 ≤ h then some 64 else none

/-- The physical core that has a logical number; the shipped map is the identity (R4). -/
def Firm.physOf (fw : Firm) (die l : Nat) : Nat := tabGetD fw.sparing (coreNo die l) l

/-- The logical number of an enabled physical core. -/
def Firm.logicalOf (fw : Firm) (n die p : Nat) : Option Nat := (List.range n).find? fun l => fw.physOf die l == p

/-- The lowest healthy spare of a die with n enabled cores (R429). -/
def Firm.spareCore (fw : Firm) (n die : Nat) : Option Nat := (fw.healthyCores die).find? fun p => (fw.logicalOf n die p).isNone

/-- A step to a lower configuration is due (R430), and waits while a live update is in progress (R438). -/
def State.stepDue (s : State) : Bool :=
  s.fw.updating == 0 && match s.fw.legalCores with
    | some n => n < s.m.logCores
    | none => false

/-- An enabled core of a die that a spare is to replace (R429). -/
def State.repairCore (s : State) (die : Nat) : Option Nat :=
  ((List.range s.m.logCores).map fun l => s.fw.physOf die l).find? fun p => !(s.fw.wearOf (domainNo 0 die p)).healthy

/-- A die on which no context can be switched in before a repair (R429, R430, R432): its repair is due, or a core of it has stopped. -/
def State.dieUnfit (s : State) (die : Nat) : Bool :=
  match s.repairCore die with
  | none => false
  | some p => s.fw.updating == 0 || (s.fw.wearOf (domainNo 0 die p)).retired

/-! ### Channels and modules (R431) -/

/-- The physical channel that a channel in use is mapped to. -/
def Firm.channelOf (fw : Firm) (c : Nat) : Nat := tabGetD fw.channels c c

/-- The channels in use of a die: 32 of each stack. -/
def usedChannels (die : Nat) : List Nat := ((List.range 68).filter fun p => p % 34 < 32).map fun p => domainNo 3 die p

/-- The channel in use that a physical channel serves. -/
def Firm.servesChannel (fw : Firm) (d : Nat) : Option Nat := (usedChannels (domDie d)).find? fun c => fw.channelOf c == d

/-- A healthy spare channel of the stack of a channel. -/
def Firm.spareChannel (fw : Firm) (d : Nat) : Option Nat :=
  let base := domainNo 3 (domDie d) (domPhys d / 34 * 34)
  [base + 32, base + 33].find? fun c => (fw.wearOf c).healthy && (fw.servesChannel c).isNone

/-- A module with no spare lane left (R422, R431). -/
def Firm.noSpareLane (fw : Firm) (module : Nat) : Bool := 4 ≤ (tabGetD fw.linkLanes module []).length

/-- A marked domain at the end of its repairable life (R431). -/
def Firm.beyondRepair (fw : Firm) (d : Nat) : Bool :=
  let w := fw.wearOf d
  w.marked && !w.retired && match domKind d with
    | 1 => true
    | 2 => fw.noSpareLane (domPhys d)
    | 3 => (fw.servesChannel d).isSome && (fw.spareChannel d).isNone
    | _ => false

/-- SERVICE is set once some domain is beyond repair (R431). -/
def Firm.serviced (fw : Firm) : Firm :=
  if fw.state == .normal && fw.wear.any fun (d, _) => fw.beyondRepair d then { fw with state := .service } else fw

/-- Whether a domain is enabled: SPARE of its wear record is 0 (R427). -/
def State.enabled (s : State) (d : Nat) : Bool :=
  match domKind d with
  | 0 => (s.fw.logicalOf s.m.logCores (domDie d) (domPhys d)).isSome
  | 3 => (s.fw.servesChannel d).isSome
  | _ => true

/-- A wear record as software reads it (R427). -/
def State.wearWord (s : State) (d : Nat) : Word :=
  let w := s.fw.wearOf d
  BitVec.ofNat 64 (2 ^ 60 * domKind d + 2 ^ 57 * domDie d + 2 ^ 49 * domPhys d + (if w.retired then 2 ^ 48 else 0) +
    (if s.enabled d then 0 else 2 ^ 47) + 2 ^ 41 * w.voff.val + 2 ^ 29 * (w.margin % 4096) + s.fw.seconds / 3600 % 2 ^ 24)

/-! ### Device status (R426) -/

def devStateCode : DevState → Nat
  | .boot => 0
  | .normal => 1
  | .service => 2
  | .failed => 3

/-- DEVSTAT (R426). -/
def State.devstat (s : State) : Word :=
  let spare := (List.range 8).foldl (fun acc d =>
    acc + 2 ^ (4 * d) * ((s.fw.healthyCores d).filter fun p => (s.fw.logicalOf s.m.logCores d p).isNone).length) 0
  BitVec.ofNat 64 (2 ^ 60 * devStateCode s.fw.state + (if s.fw.active then 2 ^ 59 else 0) + (if s.fw.standby then 2 ^ 58 else 0) +
    (if 2 ≤ s.fw.updating then 2 ^ 57 else 0) + 2 ^ 40 * s.m.logCores + spare)

/-- Contexts can be switched in only while STATE is 1 or 2 (R426). -/
def State.serving (s : State) : Bool := s.fw.state == .normal || s.fw.state == .service

/-- Whether the clocks run (R442). -/
def State.live (s : State) : Bool := s.fw.powered && !s.fw.tripped

end Sys2Proof.Machine
end

