-- ==== Sys2Proof/Machine/Cache.lean ====
section
/-! DEFINITION. The L1 of a core, the metadata of a home slice, and the lazy-release protocol: fills, claims, write-backs, self-invalidation, releases, acquires and races (R286 to R301, R384). Local physical addresses throughout. -/

namespace Sys2Proof.Machine

/-- A value of up to 16 bytes with a poison bit for each 32-bit word it touches (R149). -/
abbrev Datum := Nat × Nat

def sectorOf (pa : Nat) : Nat := pa / 32
def lineOf (pa : Nat) : Nat := pa / 128

/-- The poison bits of the words that n bytes at an address touch, the lowest word in bit 0. -/
def Memory.poisonBits (m : Memory) (a n : Nat) : Nat :=
  ((wordsTouched a n).zipIdx.map fun (w, i) => if m.poi.contains w then 2 ^ i else 0).foldl (· + ·) 0

/-- Read and write a datum in a memory (R149). -/
def Memory.load (m : Memory) (a n : Nat) : Datum := (ofBytes (m.bytes a n), m.poisonBits a n)
def Memory.put (m : Memory) (a n : Nat) (d : Datum) : Memory := m.store a (toBytes n d.1) fun i => d.2.testBit i

/-- Read and write a datum in a sector. -/
def Sector.load (s : Sector) (pa n : Nat) : Datum :=
  let off := pa % 32
  (ofBytes ((s.data.drop off).take n), s.poi.toNat / 2 ^ (off / 4) % 2 ^ ((n + 3) / 4))

def Sector.put (s : Sector) (pa n : Nat) (d : Datum) : Sector :=
  let off := pa % 32
  let bytes := s.data.take off ++ toBytes n d.1 ++ s.data.drop (off + n)
  let words := (List.range ((n + 3) / 4)).map fun i => (off / 4 + i, d.2.testBit i)
  let poi := words.foldl (fun (acc : BitVec 8) (w, p) =>
    let bit := (1 : BitVec 8) <<< w
    if p then acc ||| bit else if 4 ≤ n then acc &&& ~~~bit else acc) s.poi
  { s with data := bytes, poi := poi }

/-! ### Home slices -/

/-- The home die of an address (R286): the one whose HBM4E holds it. -/
def homeDie (pa : Nat) : Nat := pa / 2 ^ 37 % 8

/-- The home slice of an address in its die's L2 (R286). Each access of the model stands for its arrival there in a cycle of its own (DESIGN
CHOICE, log 74). -/
def homeSlice (pa : Nat) : Nat := [7, 12, 17, 22, 27, 32].foldl (fun acc b => acc ^^^ (pa / 2 ^ b % 32)) 0

/-- SEALED (R288, R303): the address lies in a sealed region of some context. -/
def Mach.sealed (m : Mach) (pa : Nat) : Bool := m.seals.any fun (_, s) => s.pieces.any fun (b, n) => b ≤ pa && pa < b + n

/-- HOLDER names a core other than c (R300). -/
def Mach.otherHolder (m : Mach) (c pa : Nat) : Option Nat :=
  match tabGet m.holder (sectorOf pa) with
  | some h => if h == c then none else some h
  | none => none

/-- A line becomes resident in L2 when an access reaches it there (R404). -/
def Mach.touch (m : Mach) (pa : Nat) : Mach := { m with resident := insertNat m.resident (sectorOf pa) }

/-! ### The L1 (R295) -/

def Mach.l1 (m : Mach) (c pa : Nat) : Option Sector := tabGet (m.core c).l1 (sectorOf pa)
def Mach.setL1 (m : Mach) (c pa : Nat) (s : Sector) : Mach := m.modCore c fun k => { k with l1 := tabSet k.l1 (sectorOf pa) s }
def Mach.dropL1 (m : Mach) (c pa : Nat) : Mach := m.modCore c fun k => { k with l1 := tabErase k.l1 (sectorOf pa) }
def SecState.dirty? : SecState → Option (BitVec 16)
  | .dirty e => some e
  | _ => none

/-- The epoch of a core (R290). -/
def Mach.epoch (m : Mach) (c : Nat) : BitVec 16 := (m.core c).xrgen + 1

/-- Keep the release record of a line with the core's L1 line (R287). -/
def Mach.keepRecord (m : Mach) (c pa : Nat) : Mach := m.modCore c fun k =>
  { k with l1rec := match tabGet m.record (lineOf pa) with
    | some r => tabSet k.l1rec (lineOf pa) r
    | none => tabErase k.l1rec (lineOf pa) }

/-- Fill a sector from its home slice: V, or VS in a sealed line (R295, R299). -/
def Mach.fill (m : Mach) (c pa : Nat) : Mach :=
  let base := sectorOf pa * 32
  let s : Sector := ⟨if m.sealed pa then .sealed else .clean, m.mem.bytes base 32, BitVec.ofNat 8 (m.mem.poisonBits base 32)⟩
  ((m.touch pa).setL1 c pa s).keepRecord c pa

/-- Write a dirty sector back to its home slice: HOLDER cleared, the sector left clean (R294, R295). -/
def Mach.flush (m : Mach) (c pa : Nat) : Mach :=
  match m.l1 c pa with
  | some s =>
    match s.state with
    | .dirty _ =>
      let m := { m with mem := m.mem.store (sectorOf pa * 32) s.data fun i => s.poi.getLsbD i
                        holder := if tabGet m.holder (sectorOf pa) == some c then tabErase m.holder (sectorOf pa) else m.holder }
      (m.touch pa).setL1 c pa { s with state := .clean }
    | _ => m
  | none => m

/-- Write back the sectors of a core that satisfy a test on their number and epoch. -/
def Mach.flushWhere (m : Mach) (c : Nat) (p : Nat → BitVec 16 → Bool) : Mach :=
  (m.core c).l1.foldl (fun m (n, s) => match s.state with
    | .dirty e => if p n e then m.flush c (32 * n) else m
    | _ => m) m

/-- writeback(A, G), R294: epochs compared as unsigned numbers. -/
def Mach.writeback (m : Mach) (c : Nat) (gen : BitVec 16) : Mach := m.flushWhere c fun _ e => e.toNat ≤ gen.toNat
/-- Every sector a core holds dirty, under any epoch. -/
def Mach.writebackAll (m : Mach) (c : Nat) : Mach := m.flushWhere c fun _ _ => true

/-- self-invalidate(B), R293: V sectors become I; VS and dirty sectors are kept. Records of lines with no sector left go too. -/
def Mach.selfInvalidate (m : Mach) (c : Nat) : Mach := m.modCore c fun k =>
  let l1 := k.l1.filter fun (_, s) => s.state != .clean
  { k with l1 := l1, l1rec := k.l1rec.filter fun (line, _) => l1.any fun (n, _) => n / 4 == line }

/-- Evict a sector (R295): written back if dirty, then I. -/
def Mach.evict (m : Mach) (c pa : Nat) : Mach := (m.flush c pa).dropL1 c pa

/-- Claim a sector for a store, RED or atomic made in the L1 (R295): filled from I, HOLDER set, dirty under the current epoch. -/
def Mach.claim (m : Mach) (c pa : Nat) : Mach :=
  let m := match m.l1 c pa with
    | some s => match s.state with
      | .dirty _ => m
      | _ => { m.fill c pa with holder := tabSet m.holder (sectorOf pa) c }
    | none => { m.fill c pa with holder := tabSet m.holder (sectorOf pa) c }
  match m.l1 c pa with
  | some s => m.setL1 c pa { s with state := .dirty (m.epoch c) }
  | none => m

/-! ### Accesses of a core -/

/-- The race check of an access (R300): a dirty sector of its own excludes other holders for every access, a clean one for loads
made in the L1. The core that holds the sector, if the access races. -/
def Mach.race (m : Mach) (c pa : Nat) (write home : Bool) : Option Nat :=
  match m.l1 c pa, write || home with
  | some _, false => none
  | _, _ => m.otherHolder c pa

/-- A load made in the L1 (R295), with the record its line keeps (R287). -/
def Mach.readL1 (m : Mach) (c pa n : Nat) : Datum × Option Record × Mach :=
  let m := match m.l1 c pa with
    | some _ => m
    | none => m.fill c pa
  match m.l1 c pa with
  | some s => (s.load pa n, tabGet (m.core c).l1rec (lineOf pa), m)
  | none => ((0, 0), none, m)

/-- A load made at the home slice (R291): a dirty sector of its own is written back first and a clean copy is kept. -/
def Mach.readHome (m : Mach) (c pa n : Nat) : Datum × Option Record × Mach :=
  let m := (m.flush c pa).fill c pa
  (m.mem.load pa n, tabGet m.record (lineOf pa), m)

/-- A store made in the L1. -/
def Mach.writeL1 (m : Mach) (c pa n : Nat) (d : Datum) : Mach :=
  let m := m.claim c pa
  match m.l1 c pa with
  | some s => m.setL1 c pa (s.put pa n d)
  | none => m

/-- A store made at the home slice (R291): the L1 keeps a clean copy. -/
def Mach.writeHome (m : Mach) (c pa n : Nat) (d : Datum) : Mach :=
  let m := m.flush c pa
  { m with mem := m.mem.put pa n d }.fill c pa

/-- An atomic made in the L1 or at the home slice; after one at the slice the L1 keeps no copy (R291). The old value. -/
def Mach.rmw (m : Mach) (c pa n : Nat) (home : Bool) (f : Datum → Datum) : Datum × Option Record × Mach :=
  if home then
    let m := (m.flush c pa).dropL1 c pa
    let old := m.mem.load pa n
    let m := ({ m with mem := m.mem.put pa n (f old) }.touch pa).keepRecord c pa
    (old, tabGet m.record (lineOf pa), m)
  else
    let m := m.claim c pa
    match m.l1 c pa with
    | some s =>
      let old := s.load pa n
      (old, tabGet (m.core c).l1rec (lineOf pa), m.setL1 c pa (s.put pa n (f old)))
    | none => ((0, 0), none, m)

/-! ### Scopes, releases and acquires -/

def scopeNat (s : Scope) : Nat := (scopeCode s).toNat

/-- The wider of two scopes. -/
def widerScope (a b : Scope) : Scope := if scopeNat a < scopeNat b then b else a

/-- Whether two cores of this device lie in one instance of a scope (R15). -/
def inScope (s : Scope) (a b : Nat) : Bool := match s with
  | .team => a == b
  | .core => a == b
  | .die => dieOf a == dieOf b
  | _ => true

/-- The first actions of a release at `.core` or wider (R292): a wrap writes back everything, then xrgen rises by 1; a release at
`.fab` or `.sys` completes its own write-back at once (R383). -/
def Mach.bump (m : Mach) (c : Nat) (s : Scope) : Mach :=
  let m := if (m.core c).xrgen == 0xFFFF then m.writebackAll c else m
  let m := m.modCore c fun k => { k with xrgen := k.xrgen + 1 }
  if s == .fab || s == .sys then m.writeback c (m.core c).xrgen else m

/-- Write the RECORD of a line, completing the write-back of the core that a replaced record names (R292); a FOREIGN record that is
replaced needs none (R384). -/
def Mach.setRecord (m : Mach) (pa : Nat) (r : Record) : Mach :=
  let m := match tabGet m.record (lineOf pa) with
    | some old => if old.foreign || (!r.foreign && old.who == r.who) then m else m.writeback old.who old.gen
    | none => m
  { m with record := tabSet m.record (lineOf pa) r }

/-- A core's record of a release it has just made. -/
def Mach.recordOf (m : Mach) (c : Nat) (s : Scope) : Record := ⟨false, c, (m.core c).xrgen, s⟩

/-- The scope that refuses an acquire (R293, R384). -/
def refusedBy (c : Nat) : Option Record → Option Scope
  | none => none
  | some r =>
    if r.foreign then (if r.scope == .fab || r.scope == .sys then none else some r.scope)
    else if r.who == c then none
    else if inScope r.scope r.who c then none else some r.scope

/-- The actions of an acquire at `.core` or wider that is not refused (R293). -/
def Mach.acquire (m : Mach) (c : Nat) (s : Scope) (r : Option Record) : Mach :=
  match r with
  | none => m.selfInvalidate c
  | some r =>
    if r.foreign then m.selfInvalidate c
    else if r.who == c then m
    else (if inScope s c r.who then m.writeback r.who r.gen else m).selfInvalidate c

/-- The write-back half of an acquire, which comes before the race check of its access (R293). -/
def Mach.acquireWriteback (m : Mach) (c : Nat) (s : Scope) (r : Option Record) : Mach :=
  match r with
  | some r => if !r.foreign && r.who != c && inScope s c r.who then m.writeback r.who r.gen else m
  | none => m

/-! ### Engine and front-end accesses at home slices (R305, R329, R371, R380) -/

/-- A read by an agent that is not a core: the value at the slice. -/
def Mach.slice (m : Mach) (pa n : Nat) : Datum × Mach := (m.mem.load pa n, m.touch pa)
/-- A write by an agent that is not a core. -/
def Mach.sliceWrite (m : Mach) (pa n : Nat) (d : Datum) : Mach := { m with mem := m.mem.put pa n d }.touch pa

/-- Every clean or dirty L1 sector of the device that satisfies a test becomes I; dirty ones are written back first. -/
def Mach.dropEverywhere (m : Mach) (p : Nat → Bool) : Mach :=
  m.cores.foldl (fun m (c, k) => k.l1.foldl (fun m (n, _) => if p n then m.evict c (32 * n) else m) m) m

end Sys2Proof.Machine
end

