-- ==== Sys2Proof/Machine/Wire.lean ====
section
/-! DEFINITION. Frames, streams and requests to other devices and to the host (R372 to R382, R410, R411). The payload layouts that R376 leaves open are those of DESIGN CHOICE, log 18. -/

namespace Sys2Proof.Machine

/-! ### Payloads -/

/-- Pad a payload to whole chunks of 32 bytes (R375). -/
def padChunks (bs : List Byte) : List Byte := bs ++ List.replicate (roundUpTo bs.length 32 - bs.length) 0

/-- The poisoned chunks of a payload whose 32-bit words have a poison test: word i begins at byte 4i (R378). -/
def chunkMask (bytes : Nat) (p : Nat → Bool) : BitVec 128 :=
  (List.range ((bytes + 31) / 32)).foldl (fun acc i =>
    if (List.range 8).any fun j => p (8 * i + j) then acc ||| ((1 : BitVec 128) <<< i) else acc) 0

/-- Whether a byte of a payload is poisoned by its chunk. -/
def chunkPoisoned (mask : BitVec 128) (byte : Nat) : Bool := mask.getLsbD (byte / 32)

/-- n bytes of an answer as a datum, with the poison of their chunks (R378). -/
def Answer.datum (a : Answer) (off n : Nat) : Datum :=
  if a.nack.isSome then (0, 2 ^ ((n + 3) / 4) - 1)
  else (ofBytes ((a.data.drop off).take n),
    ((List.range ((n + 3) / 4)).map fun i => if chunkPoisoned a.poi (off + 4 * i) then 2 ^ i else 0).foldl (· + ·) 0)

/-! ### The header (R375) -/

/-- The six words of a frame's header. -/
def wireHeader (f : Frame) : List Word :=
  [BitVec.ofNat 64 (2 ^ 56 * ((f.payload.length + 31) / 32) + 2 ^ 44 * f.src.toNat + 2 ^ 32 * f.dst.toNat + (if f.world then 2 ^ 15 else 0) +
     2 ^ 12 * f.scope.toNat + 2 ^ 8 * f.ord.toNat + f.opc.toNat),
   BitVec.ofNat 64 f.addr.toNat, f.oparg, BitVec.ofNat 64 (2 ^ 32 * f.rseq.toNat + f.seq.toNat), f.pmask.extractLsb' 0 64, f.pmask.extractLsb' 64 64]

/-- CHUNKS of a header. -/
def wireChunks (ws : List Word) : Nat := fieldOf (ws.getD 0 0) 56 8

/-- The frame that a header and its payload stand for; reserved bits carry no meaning (R13). -/
def wireFrame (ws : List Word) (payload : List Byte) : Frame :=
  let w := fun i => ws.getD i 0
  ⟨(w 0).extractLsb' 44 12, (w 0).extractLsb' 32 12, (w 0).getLsbD 15, (w 0).extractLsb' 12 3, (w 0).extractLsb' 8 3, (w 0).extractLsb' 0 8,
   (w 1).extractLsb' 0 40, w 2, (w 3).extractLsb' 32 32, (w 3).extractLsb' 0 32, w 5 ++ w 4, payload.take (32 * wireChunks ws)⟩

/-! ### Streams (R377) -/

/-- The stream to a peer of a world and priority. -/
def Mach.stream (m : Mach) (world answer : Bool) (peer : Nat) : Stream :=
  (m.streams.find? fun s => s.world == world && s.answer == answer && s.peer == peer).getD ⟨world, answer, peer, 0, 0⟩

def Mach.setStream (m : Mach) (s : Stream) : Mach :=
  if m.streams.any fun x => x.world == s.world && x.answer == s.answer && x.peer == s.peer then
    { m with streams := m.streams.map fun x => if x.world == s.world && x.answer == s.answer && x.peer == s.peer then s else x }
  else { m with streams := m.streams ++ [s] }

/-- The port that a frame leaves by (R374): set bit (SEQ mod k) of the mask of its destination. -/
def Mach.port (m : Mach) (f : Frame) : Option Nat :=
  match m.routes.find? fun r => r.1 == f.world && r.2.1 == f.dst.toNat with
  | none => none
  | some (_, _, mask) =>
    let bits := (List.range 16).filter fun i => mask.getLsbD i
    bits[f.seq.toNat % bits.length]?

/-- A frame leaves, unless its port is paused for its priority (R373); one to a destination without a route goes nowhere. -/
def Mach.emit (m : Mach) (f : Frame) : Mach := match m.port f with
  | none => m
  | some p => if m.paused.contains (p, if 0x80 ≤ f.opc then 1 else 0) then { m with held := m.held ++ [f] } else { m with out := m.out ++ [.frame p f] }

/-- Send a frame: it takes the next SEQ of its stream (R377); SCOPE is 0 without an order (R375). -/
def Mach.sendFrame (m : Mach) (f : Frame) : Frame × Mach :=
  let answer := 0x80 ≤ f.opc
  let s := m.stream f.world answer f.dst.toNat
  let f := { f with src := m.xdev, seq := s.sent, scope := if f.ord == 0 then 0 else f.scope }
  (f, (m.setStream { s with sent := s.sent + 1 }).emit f)

/-- A frame of a type to a device, its other fields zero. -/
def blankFrame (opc : BitVec 8) (dst addr : Nat) (world : Bool) : Frame :=
  ⟨0, BitVec.ofNat 12 dst, world, 0, 0, opc, BitVec.ofNat 40 addr, 0, 0, 0, 0, []⟩

/-- Send a request frame and remember it until it is answered. Its number. -/
def Mach.request (m : Mach) (kind : ReqKind) (ctx : Nat) (f : Frame) : Nat × Mach :=
  let (f, m) := m.sendFrame f
  let (n, m) := m.fresh
  (n, { m with requests := tabSet m.requests n ⟨kind, some f, none, ctx, m.clk, 0, none⟩ })

/-- Remember a request on the host link; its number is its tag. -/
def Mach.hostRequest (m : Mach) (kind : ReqKind) (ctx : Nat) (tlp : Nat → Out) : Nat × Mach :=
  let (n, m) := m.fresh
  (n, { m with requests := tabSet m.requests n ⟨kind, none, some n, ctx, m.clk, 0, none⟩, out := m.out ++ [tlp n] })

/-- Ask the host for the translation of a page, unless that has been done (R372); a request for a secure access is marked so (R370). -/
def Mach.askAts (m : Mach) (page : Nat) (engine secure : Bool) : Mach :=
  match m.atsAsked.find? fun a => a.1 == page with
  | some _ => { m with atsAsked := m.atsAsked.map fun a => if a.1 == page then (page, a.2.1 || engine, a.2.2) else a }
  | none => { m with atsAsked := m.atsAsked ++ [(page, engine, secure)], out := m.out ++ [.atsRequest page secure] }

/-- The number under which a refused host page stands among what a waiting instruction has found; no page of a virtual address has it. -/
def refusedKey (page : Nat) : Nat := 2 ^ 60 + page

/-- PDOM of a destination (R410): 1 unless firmware has cleared it. -/
def Mach.pdom (m : Mach) (dst : Nat) : Bool := tabGetD m.pdoms dst 1 == 1

/-! ### Request frames -/

/-- The payload and chunk mask of data with word poison. -/
def withPayload (f : Frame) (bs : List Byte) (p : Nat → Bool) : Frame :=
  { f with payload := padChunks bs, pmask := chunkMask bs.length p }

/-- WRITE: OPARG[4:0] the access type, OPARG[28:16] the bytes (DESIGN CHOICE, log 18). -/
def writeFrame (dst addr : Nat) (world : Bool) (ord : Ord') (scope : Scope) (ty : Ty) (bs : List Byte) (p : Nat → Bool) : Frame :=
  withPayload { blankFrame 0x01 dst addr world with
    ord := ordCode ord, scope := if ord == .rlx then 0 else scopeCode scope,
    oparg := BitVec.ofNat 64 (tyNum ty + 2 ^ 16 * bs.length) } bs p

/-- READ of a number of bytes. -/
def readFrame (dst addr n : Nat) (world : Bool) (ord : Ord') (scope : Scope) : Frame :=
  { blankFrame 0x02 dst addr world with
    ord := ordCode ord, scope := if ord == .rlx then 0 else scopeCode scope, oparg := BitVec.ofNat 64 n }

/-- One lane of an ATOMIC frame: 8 bytes of line offset, the operand, and the compare value (R376). -/
def atomicLane (size : Nat) (cas : Bool) (off : Nat) (d c : Datum) : List Byte × List Bool :=
  let words := fun (x : Datum) => (List.range (size / 4)).map fun i => x.2.testBit i
  (toBytes 8 off ++ toBytes size d.1 ++ (if cas then toBytes size c.1 else []),
   [false, false] ++ words d ++ (if cas then words c else []))

/-- ATOMIC of one line group (R157, R376); OPARG[31:24]: the lanes (DESIGN CHOICE, log 18). -/
def atomicFrame (dst line : Nat) (world : Bool) (ord : Ord') (scope : Scope) (sub : Nat) (red : Bool) (ty : Ty) (sat : Bool)
    (lanes : List (List Byte × List Bool)) : Frame :=
  let bs := lanes.flatMap (·.1)
  let ps := lanes.flatMap (·.2)
  withPayload { blankFrame 0x03 dst line world with
    ord := ordCode ord, scope := if ord == .rlx && scope == .team then 0 else scopeCode scope,
    oparg := BitVec.ofNat 64 (sub + (if red then 16 else 0) + 2 ^ 8 * tyNum ty + (if sat then 2 ^ 13 else 0) + 2 ^ 24 * lanes.length) } bs fun i => ps.getD i false

/-! ### Answers -/

/-- The record that an answer carries in OPARG[63:32] (DESIGN CHOICE, log 18): bit 63 present, bit 62 the access was refused (R385), [34:32] scope. -/
def answerRecord (r : Option Record) (refused : Bool) : Word :=
  match r with
  | none => 0
  | some r => BitVec.ofNat 64 (2 ^ 63 + (if refused then 2 ^ 62 else 0) + 2 ^ 32 * scopeNat r.scope)

/-- The scope of the record in an answer, and whether the access was refused. -/
def recordInAnswer (a : Word) : Option Scope × Bool :=
  (if fieldOf a 63 1 == 1 then some (scopeOf (a.extractLsb' 32 3)) else none, fieldOf a 62 1 == 1)

/-- Send the answer to a request frame. -/
def Mach.answer (m : Mach) (f : Frame) (opc : BitVec 8) (arg : Word) (bs : List Byte) (p : Nat → Bool) : Mach :=
  (m.sendFrame (withPayload { blankFrame opc f.src.toNat f.addr.toNat f.world with rseq := f.seq, oparg := arg } bs p)).2

/-- The number of the unanswered request that an answer frame belongs to. -/
def Mach.requestOf (m : Mach) (f : Frame) : Option Nat :=
  (m.requests.find? fun (_, r) => match r.frame with
    | some g => r.answer.isNone && g.dst == f.src && g.world == f.world && g.seq == f.rseq
    | none => false).map (·.1)

/-- The unit (R129) that an agent works for or a task issues from: a task, the staging engine of a core, a queue engine; none for the agents
of the I/O dies and for firmware, which the layout does not name. -/
def Mach.agentUnit (m : Mach) (n : Nat) : Option Nat :=
  match m.task n with
  | some t => some (unitOf t.core t.part 1)
  | none =>
    if 2 ^ 42 ≤ n then (tabGet m.spawnqs (n - 2 ^ 42)).map fun q => unitOf (coreNo q.die 0) 0 6
    else if 2 ^ 41 ≤ n then none
    else if 2 ^ 40 ≤ n then some (unitOf (n - 2 ^ 40) 0 5)
    else none

/-- The unit that made a request. -/
def Mach.requestUnit (m : Mach) : ReqKind → Option Nat
  | .load t _ _ | .store t _ | .accept t _ _ _ | .kept t _ _ | .record t _ _ _ _ => m.agentUnit t
  | .copyRead c _ | .copyWrite c => (tabGet m.copies c).map fun x => unitOf x.core 0 4
  | _ => none

/-- A NACK record in the error area of a context (R379, R419), from a unit. -/
def Mach.nackRecord (m : Mach) (ctx : Nat) (unit : Option Nat) (f : Frame) (reason : Nat) : Mach :=
  m.errorRecord ctx [recordHead 7 0 reason 0 (unit.getD 0) m.xdev.toNat, m.xclk, 0, f.addr.setWidth 64, 0, 0,
    BitVec.ofNat 64 (2 ^ 32 * f.seq.toNat + f.opc.toNat), 0] unit.isNone

end Sys2Proof.Machine
end

