-- ==== Sys2Proof/Machine/Pages.lean ====
section
/-! DEFINITION. Shared, ordered and loose pages (R386 to R391): where an access to one is made, the requests for pages and their service at the home, hand-over, eviction, and ordered and loose updates. -/

namespace Sys2Proof.Machine

def pageBase (la : Nat) : Nat := la / 65536 * 65536

/-- A page of this device as it stands at first: owned by its home, without replicas (R386). -/
def Page.blank (self home addr : Nat) (world : Bool) : Page :=
  ⟨home, addr, world, home, addr, [], none, [], false, [], 0, [], [], home == self, home == self, false,
   if home == self then some addr else none, 0, 0, [], none, none⟩

def Mach.page (m : Mach) (home addr : Nat) (world : Bool) : Page :=
  (m.pages.find? fun p => p.home == home && p.addr == addr).getD (Page.blank m.xdev.toNat home addr world)

def Mach.setPage (m : Mach) (p : Page) : Mach :=
  if m.pages.any fun q => q.home == p.home && q.addr == p.addr then
    { m with pages := m.pages.map fun q => if q.home == p.home && q.addr == p.addr then p else q }
  else { m with pages := m.pages ++ [p] }

/-! ### Frames of the fabric page cache (R361, R389) -/

/-- The base and number of frames of a context's fabric page cache. -/
def Ctx.pageCache (c : Ctx) : Nat × Nat := ((c.translation.getD 4 0).toNat, fieldOf (c.translation.getD 5 0) 0 20)

def Mach.fpcn (m : Mach) (ctx : Nat) : Nat := match m.ctx ctx with
  | some c => c.pageCache.2
  | none => 0

/-- A free frame of a context's fabric page cache. -/
def Mach.freeFrame (m : Mach) (ctx : Nat) : Option Nat := match m.ctx ctx with
  | some c =>
    let (base, n) := c.pageCache
    ((List.range (m.pages.length + 1)).find? fun i => i < n && !m.pages.any fun p => p.frame == some (base + 65536 * i)).map
      fun i => base + 65536 * i
  | none => none

/-! ### Hand-over at a holder (R388) -/

/-- Every core of the device writes back every sector of a frame that it holds dirty. -/
def Mach.writebackPage (m : Mach) (frame : Nat) : Mach :=
  m.cores.foldl (fun m (c, _) => m.flushWhere c fun n _ => 32 * n / 65536 == frame / 65536) m

/-- Every L1 of the device drops its lines of a frame; dirty sectors have been written back. -/
def Mach.dropPage (m : Mach) (frame : Nat) : Mach := m.dropEverywhere fun n => 32 * n / 65536 == frame / 65536

/-- The records of a frame's lines are emptied. -/
def Mach.emptyRecords (m : Mach) (frame : Nat) : Mach :=
  { m with record := m.record.filter fun r => 128 * r.1 / 65536 != frame / 65536 }

/-- Write the LINK word of a future at its home slice; no L1 keeps a clean copy of it, so that every read finds what it is (R314). -/
def Mach.setLink (m : Mach) (pa v : Nat) : Mach :=
  { m with mem := m.mem.put (pa + 24) 8 (v, 0)
           cores := m.cores.map fun (n, k) => (n, match tabGet k.l1 (sectorOf pa) with
             | some s => if s.state == .clean then { k with l1 := tabErase k.l1 (sectorOf pa) } else k
             | none => k) }

/-- Waits on futures end: the LINK of a future on which no task waits any more is zero again (R314). -/
def Mach.unlinkWhere (m : Mach) (p : Link → Bool) : Mach :=
  let gone := m.links.filter p
  gone.foldl (fun (m : Mach) l => if m.links.any fun k => k.pa == l.pa then m else m.setLink l.pa 0)
    { m with links := m.links.filter fun l => !p l }

/-- The waits on futures that lie in a frame end there; they begin anew where the page is next found (R314). -/
def Mach.unlinkPage (m : Mach) (frame : Nat) : Mach := m.unlinkWhere fun l => l.pa / 65536 == frame / 65536

/-- A holder gives up a page: its lines leave every L1 and a frame of the page cache is freed. -/
def Mach.releasePage (m : Mach) (p : Page) : Mach :=
  let m := match p.frame with
    | some f => ((m.unlinkPage f).dropPage f).emptyRecords f
    | none => m
  m.setPage { p with owned := false, valid := false, shared := false, parts := [],
                     frame := if p.home == m.xdev.toNat then p.frame else none }

/-- The 16 PAGE_DATA frames of a page held in a frame, with chunk poison (R376, R378; OPARG as DESIGN CHOICE, log 18 says). -/
def Mach.sendPage (m : Mach) (p : Page) (dst : Nat) (own : Bool) : Mach :=
  let frame := p.frame.getD 0
  (List.range 16).foldl (fun m i =>
    let a := frame + 4096 * i
    (m.request .free 0 (withPayload { blankFrame 0x14 dst (p.addr + 4096 * i) p.world with
      oparg := BitVec.ofNat 64 (p.home + (if own then 2 ^ 12 else 0) + 2 ^ 32 * p.nextUpdate) }
      (m.mem.bytes a 4096) fun w => m.mem.poi.contains (a / 4 + w))).2) m

/-- GRANT (R388). -/
def Mach.sendGrant (m : Mach) (p : Page) (dst : Nat) : Mach :=
  (m.request .free 0 { blankFrame 0x15 dst p.addr p.world with oparg := BitVec.ofNat 64 p.home }).2

/-- The owner's part of a hand-over (R388, step 2): page write-back, then the page or GRANT to the requester; an ownership request
takes the page away. -/
def Mach.handOver (m : Mach) (p : Page) (dst : Nat) (own granted : Bool) : Mach :=
  let m := (m.writebackPage (p.frame.getD 0)).unlinkPage (p.frame.getD 0)
  let m := if granted then m.sendGrant p dst else m.sendPage p dst own
  if own then m.releasePage p else m.setPage { p with shared := true }

/-! ### Service at the home (R388) -/

/-- What a request has changed when it has been served (R388, step 3), and its answer. -/
def Mach.finishPage (m : Mach) (p : Page) (r : PageReq) : Page × Mach :=
  let p := { p with serving := none, fetching := false, awaiting := [] }
  let p := if r.own then { p with owner := r.who, ownerFrame := r.frame, replicas := [] }
    else { p with replicas := insertNat p.replicas r.who }
  if r.who == m.xdev.toNat then
    -- the home itself: its frame is the home frame
    let p := if r.own && p.valid then { p with owned := true, shared := false, asked := none } else p
    (p, m)
  else
    (p, m.answer { blankFrame 0x10 0 p.addr p.world with src := BitVec.ofNat 12 r.who, seq := r.seq } 0x81 0 [] fun _ => false)

/-- The second step of a request: the owner hands the page over. -/
def Mach.fetchPage (m : Mach) (p : Page) (r : PageReq) : Page × Mach :=
  let granted := p.replicas.contains r.who || p.owner == r.who
  if p.owner == m.xdev.toNat then
    if r.who == m.xdev.toNat then m.finishPage { p with owned := true, valid := true } r
    else
      let m := m.handOver { p with replicas := p.replicas } r.who r.own granted
      m.finishPage (m.page p.home p.addr p.world) r
  else if p.owner == r.who then m.sendGrant p r.who |>.finishPage p r
  else
    let m := (m.request (.hand p.addr) 0 { blankFrame 0x13 p.owner p.addr p.world with
      oparg := BitVec.ofNat 64 (r.who + (if r.own then 2 ^ 12 else 0) + if granted then 2 ^ 13 else 0) }).2
    ({ p with serving := some r, fetching := true, awaiting := [p.owner] }, m)

/-- The first step of a request: holders drop their replicas for an ownership request. -/
def Mach.startPage (m : Mach) (p : Page) (r : PageReq) : Page × Mach :=
  if r.own then
    let others := p.replicas.filter (· != r.who)
    let m := if others.contains m.xdev.toNat then m.releasePage p else m
    let p := if others.contains m.xdev.toNat then m.page p.home p.addr p.world else p
    let away := others.filter (· != m.xdev.toNat)
    let m := away.foldl (fun m d => (m.request (.hand p.addr) 0
      { blankFrame 0x12 d p.addr p.world with oparg := BitVec.ofNat 64 p.home }).2) m
    let p := { p with serving := some r, fetching := false, awaiting := away }
    if away.isEmpty then m.fetchPage p r else (p, m)
  else if (if r.many then 256 else 8) ≤ p.replicas.length then
    -- R387: the load is made at the owner's frame
    let p := { p with serving := none }
    if r.who == m.xdev.toNat then ({ p with asked := none, away := some (p.owner, p.ownerFrame) }, m)
    else (p, m.answer { blankFrame 0x10 0 p.addr p.world with src := BitVec.ofNat 12 r.who, seq := r.seq } 0x80
      (BitVec.ofNat 64 (2 ^ 63 + 2 ^ 40 * p.owner + p.ownerFrame)) [] fun _ => false)
  else m.fetchPage { p with serving := some r } r

/-- H serves one request per page at a time, in order of arrival (R388). -/
def Mach.servePage (m : Mach) (addr : Nat) : Nat → Mach
  | 0 => m
  | fuel + 1 =>
    let p := m.page m.xdev.toNat addr false
    if p.serving.isSome then m
    else match p.waiting with
      | [] => m
      | r :: rest =>
        let (p, m) := (m.setPage { p with waiting := rest }).startPage { p with waiting := rest } r
        (m.setPage { p with waiting := rest }).servePage addr fuel

/-- A request for a page arrives at its home: behind those of earlier cycles, and among those of this one by device (R388, R398). It is
served as the cycle ends. -/
def Mach.queuePage (m : Mach) (addr : Nat) (world : Bool) (r : PageReq) : Mach :=
  let p := m.page m.xdev.toNat addr world
  let (now, before) := p.waiting.partition (·.since == m.clk)
  m.setPage { p with waiting := before ++ sortBy (fun a b => a.who ≤ b.who) (now ++ [r]) }

/-- The home serves what it can of the requests that have arrived (R388). -/
def Mach.servePages (m : Mach) : Mach := m.pages.foldl (fun (m : Mach) p =>
  if p.home == m.xdev.toNat && p.serving.isNone && !p.waiting.isEmpty then m.servePage p.addr (p.waiting.length + 1) else m) m

/-- An answer to an INVAL or FETCH arrives from a device (R388). An owner that was giving the page up has returned it first (R389): the home
is then its owner, and hands it over. -/
def Mach.pageAnswered (m : Mach) (addr dev : Nat) : Mach :=
  let p := m.page m.xdev.toNat addr false
  let p := { p with awaiting := p.awaiting.filter (· != dev) }
  if p.awaiting.isEmpty then
    match p.serving with
    | some r =>
      let (p, m) := if p.fetching && p.owner != m.xdev.toNat then m.finishPage p r else m.fetchPage p r
      m.setPage p
    | none => m.setPage p
  else m.setPage p

/-! ### Where an access is made (R387, R390, R391) -/

/-- An element of an access: its lane (0 for a uniform access), virtual address, physical address, ATTR, and the world it travels in. -/
structure Elt where
  lane : Nat
  va : Nat
  pa : Nat
  attr : Nat
  secure : Bool
deriving DecidableEq, Repr

/-- Where an element's access is made: in local memory, on another device, on the host, as an ordered write at a sequencer, as a loose
update, at a device register (DESIGN CHOICE, log 21); or it waits. -/
inductive Spot where
  | here (pa : Nat)
  | away (dev addr : Nat)
  | host (pa : Nat)
  | ordered (home addr : Nat)
  | loose (home addr : Nat)
  | chip (pa : Nat)
  | wait
deriving DecidableEq, Repr

/-- Ask for a page: at its home itself, or by REPL_REQ or OWN_REQ once a frame is free (R387, R389). -/
def Mach.askPage (m : Mach) (ctx : Nat) (p : Page) (own many : Bool) : Mach :=
  if p.asked.isSome then m
  else if p.home == m.xdev.toNat then
    (m.setPage { p with asked := some own }).queuePage p.addr p.world ⟨p.home, own, 0, p.addr, many, m.clk⟩
  else
    match (match p.frame with
      | some f => some f
      | none => m.freeFrame ctx) with
    | none => { m with wanted := insertNat m.wanted ctx }
    | some f =>
      let m := m.setPage { p with asked := some own, frame := some f }
      (m.request (.page p.home p.addr) ctx { blankFrame (if own then 0x11 else 0x10) p.home p.addr p.world with
        oparg := BitVec.ofNat 64 (f + if many then 1 else 0) }).2

/-- Where an access to an element is made; a wait may have asked for the page. -/
def Mach.spot (m : Mach) (ctx : Nat) (e : Elt) (write : Bool) : Spot × Mach :=
  let self := m.xdev.toNat
  let home := if regionOf e.pa == .fabric then fabricDevice e.pa else self
  let la := localPart e.pa
  match regionOf e.pa with
  | .host => (.host e.pa, m)
  | .chip => (.chip e.pa, m)
  | _ =>
    if e.attr == 0 then (if home == self then .here e.pa else .away home la, m)
    else if e.attr == 2 && write then (.ordered home la, m)
    else if e.attr == 3 && write then (.loose home la, m)
    else if home != self && m.fpcn ctx == 0 then (.away home la, m)
    else if home == self && e.attr != 1 then (.here la, m)
    else
      let p := m.page home (pageBase la) e.secure
      match p.away with
      | some (d, a) => (.away d (a + la % 65536), m)
      | none =>
        let here := Spot.here (p.frame.getD 0 + la % 65536)
        let others := p.shared || (home == self && !p.replicas.isEmpty)
        if p.owned && !(write && others) then (here, m)
        else if p.valid && !write then (here, m)
        else (.wait, m.askPage ctx p write (e.attr == 2))

/-- The home's answer that a load is to be made at the owner's frame holds for one access (R387). -/
def Mach.usedAway (m : Mach) (es : List Elt) : Mach := (es.filter (·.attr != 0)).foldl (fun (m : Mach) e =>
  let home := if regionOf e.pa == .fabric then fabricDevice e.pa else m.xdev.toNat
  match m.pages.find? fun p => p.home == home && p.addr == pageBase (localPart e.pa) && p.away.isSome with
  | some p => m.setPage { p with away := none }
  | none => m) m

/-- Whether a device has nothing left to wait for before it tries an access to a shared page again. -/
def Mach.pageAnswer (m : Mach) (ctx home addr : Nat) : Bool := (m.page home addr false).asked.isNone && !m.wanted.contains ctx

/-! ### Ordered and loose updates (R390, R391) -/

/-- A write of data at this device's copy of a page: every L1 drops the line. -/
def Mach.applyUpdate (m : Mach) (pa : Nat) (bs : List Byte) (p : Nat → Bool) : Mach :=
  let m := m.dropEverywhere fun n => (wordsTouched pa bs.length).any fun w => 4 * w / 128 == 32 * n / 128
  { m with mem := m.mem.store pa bs p }

/-- A write reaches the sequencer of its page, which numbers it as the cycle ends (R390, R398). -/
def Mach.orderWrite (m : Mach) (world : Bool) (w : OrdWrite) : Mach :=
  let p := m.page m.xdev.toNat (pageBase w.addr) world
  m.setPage { p with arriving := p.arriving ++ [w] }

/-- The sequencer numbers a write, applies it and multicasts it (R390). -/
def Mach.sequence (m : Mach) (world : Bool) (w : OrdWrite) : Mach :=
  let p := m.page m.xdev.toNat (pageBase w.addr) world
  let m := m.applyUpdate w.addr w.bytes fun i => chunkPoisoned w.pmask (4 * i)
  let m := p.replicas.foldl (fun m d => (m.request (.update p.addr p.nextUpdate) 0
    { blankFrame 0x19 d w.addr world with
      oparg := BitVec.ofNat 64 (p.nextUpdate % 2 ^ 32 + 2 ^ 32 * w.bytes.length + 2 ^ 48 * m.xdev.toNat)
      payload := padChunks w.bytes, pmask := w.pmask }).2) m
  m.setPage { p with nextUpdate := p.nextUpdate + 1,
                     updates := p.updates ++ [⟨p.nextUpdate, p.replicas, w.writer, w.seq, w.op⟩] }

/-- An answer that an outstanding operation waited for has come. -/
def Mach.opAnswered (m : Mach) (task op answer : Nat) : Mach := m.modTask task fun t =>
  { t with pend := t.pend.map fun o => if o.id == op then { o with answers := o.answers.filter (· != answer) } else o }

/-- Updates that every holder has answered: their writers are answered (R390). -/
def Mach.finishUpdates (m : Mach) (addr : Nat) : Mach :=
  let p := m.page m.xdev.toNat addr false
  let (done, rest) := p.updates.partition (·.awaiting.isEmpty)
  done.foldl (fun m u => match u.op with
    | some (task, op, answer) => m.opAnswered task op answer
    | none => m.answer { blankFrame 0x18 0 addr p.world with src := BitVec.ofNat 12 u.writer, seq := u.seq } 0x81 0 [] fun _ => false)
    (m.setPage { p with updates := rest })

/-- The writes of the cycle are numbered, those of the lower device first (R390, R398). -/
def Mach.sequenceAll (m : Mach) : Mach := m.pages.foldl (fun (m : Mach) p =>
  if p.arriving.isEmpty then m
  else ((sortBy (fun a b => a.writer ≤ b.writer) p.arriving).foldl (fun (m : Mach) w => m.sequence p.world w)
    (m.setPage { p with arriving := [] })).finishUpdates p.addr) m

/-- A holder has answered an update. -/
def Mach.updateAnswered (m : Mach) (addr num dev : Nat) : Mach :=
  let p := m.page m.xdev.toNat addr false
  (m.setPage { p with updates := p.updates.map fun u =>
    if u.num == num then { u with awaiting := u.awaiting.filter (· != dev) } else u }).finishUpdates addr

/-- The devices that a loose update is sent to (R391): every holder that this device knows of. -/
def Mach.looseHolders (m : Mach) (home addr : Nat) (world : Bool) : List Nat :=
  (insertNat (m.page home (pageBase addr) world).replicas home).filter (· != m.xdev.toNat)

end Sys2Proof.Machine
end

