-- ==== Sys2Proof/Machine/Engine.lean ====
section
/-! DEFINITION. The copy engine: reading and writing at places, the progress of a copy, and its order with the later stores of its task (R148, R149, R205, R304, R305, R382, R410). -/

namespace Sys2Proof.Machine

/-! ### Places -/

/-- The host page of an address, as ATS translates it. -/
def hostPage (pa : Nat) : Nat := pa % 2 ^ 53 / 4096

/-- The translated host address (R372). -/
def Mach.hostAddress (m : Mach) (pa : Nat) : Nat := match m.ats.find? fun a => a.1 == hostPage pa with
  | some a => 4096 * a.2 + pa % 4096
  | none => pa

/-- The place of an element. -/
def placeOf (m : Mach) (e : Elt) : Spot → Place
  | .here pa => .mem pa
  | .away d a => .away d a e.secure
  | .host pa => .host (m.hostAddress pa) e.secure
  | .chip pa => .chip pa
  | _ => .zero

/-- A place some bytes further on. -/
def Place.shift (p : Place) (n : Nat) : Place := match p with
  | .mem a => .mem (a + n)
  | .spad c o => .spad c (o + n)
  | .away d a s => .away d (a + n) s
  | .host a s => .host (a + n) s
  | .chip a => .chip (a + n)
  | .zero => .zero

/-- Whether n bytes at one place and k at another share a byte. -/
def Place.meets (p : Place) (n : Nat) (q : Place) (k : Nat) : Bool :=
  let meet := fun (a b : Nat) => a < b + k && b < a + n
  match p, q with
  | .mem a, .mem b => meet a b
  | .spad c a, .spad d b => c == d && meet a b
  | .away d a _, .away e b _ => d == e && meet a b
  | .host a _, .host b _ => meet a b
  | .chip a, .chip b => meet a b
  | _, _ => false

/-- Bytes of a memory with the poison of their words. -/
def Memory.poisonedBytes (m : Memory) (a n : Nat) : List (Byte × Bool) := (List.range n).map fun i => (m.byte (a + i), m.poi.contains ((a + i) / 4))

/-- The bytes at a place that can be read at once; none for another device or the host. -/
def Mach.readPlace (m : Mach) (p : Place) (n : Nat) : Option (List (Byte × Bool)) := match p with
  | .mem a => some (m.mem.poisonedBytes a n)
  | .spad c o => some ((m.core c).spad.poisonedBytes o n)
  | .chip a => some ((List.range n).map fun i => (((Config.freeWord (2 ^ 80 * m.nextId + a + i)).setWidth 8), false))
  | .zero => some (List.replicate n (0, false))
  | _ => none

/-- The poison of the words of bytes that begin at an address. -/
def wordPoison (a : Nat) (bs : List (Byte × Bool)) (w : Nat) : Bool := (bs.zipIdx).any fun (b, i) => b.2 && (a + i) / 4 - a / 4 == w

/-- Store bytes, the poison by word (R149). -/
def Memory.storeBytes (m : Memory) (a : Nat) (bs : List (Byte × Bool)) : Memory := m.store a (bs.map (·.1)) (wordPoison a bs)

/-- A BOUNDARY record (R410, R419). -/
def Mach.boundaryRecord (m : Mach) (ctx : Nat) (unit : Option Nat) (dev addr : Nat) : Mach :=
  m.errorRecord ctx [recordHead 9 8 0x0F 0 (unit.getD 0) m.xdev.toNat, m.xclk, 0, BitVec.ofNat 64 addr, 0, 0, BitVec.ofNat 64 dev, 0] unit.isNone

/-- Cut bytes into payload chunks of 32. -/
def chunksOf (bs : List (Byte × Bool)) : List (List (Byte × Bool)) :=
  (List.range ((bs.length + 31) / 32)).map fun i => (bs.drop (32 * i)).take 32

/-- Send bytes to another device: one WRITE frame, or, where a chunk is poisoned and the device is outside the poison domain, the
unpoisoned chunks only, with a BOUNDARY record for each other (R410). -/
def Mach.sendBytes (m : Mach) (kind : ReqKind) (ctx dev addr : Nat) (secure : Bool) (bs : List (Byte × Bool)) : Mach :=
  let frame := fun (a : Nat) (l : List (Byte × Bool)) =>
    writeFrame dev a secure .rlx .team .b8 (l.map (·.1)) fun w => (List.range 4).any fun i => (l.getD (4 * w + i) (0, false)).2
  if m.pdom dev || !bs.any (·.2) then (m.request kind ctx (frame addr bs)).2
  else ((chunksOf bs).zipIdx).foldl (fun (m : Mach) (l, i) =>
    if l.any (·.2) then m.boundaryRecord ctx (m.requestUnit kind) dev (addr + 32 * i) else (m.request kind ctx (frame (addr + 32 * i) l)).2) m

/-- Write bytes at a place, at home slices (R305); `kind`: what the answer of another device is for. -/
def Mach.writePlace (m : Mach) (kind : ReqKind) (ctx : Nat) (p : Place) (bs : List (Byte × Bool)) : Mach := match p with
  | .mem a => { m with mem := m.mem.storeBytes a bs }.touch a
  | .spad c o => m.modCore c fun k => { k with spad := k.spad.storeBytes o bs }
  | .away d a s => m.sendBytes kind ctx d a s bs
  | .host a s => { m with out := m.out ++ [.hostWrite a (bs.map (·.1)) s (bs.any (·.2))] }
  | .chip a => { m with out := m.out ++ [.chip a (bs.map (·.1))] }
  | .zero => m

/-! ### The progress of a copy (R205) -/

def Mach.copy (m : Mach) (id : Nat) : Option Copy := tabGet m.copies id
def Mach.modCopy (m : Mach) (id : Nat) (f : Copy → Copy) : Mach := { m with copies := tabMod m.copies id f }

/-- Whether every source byte can be read now. -/
def Copy.readable (c : Copy) : Bool := c.moves.all fun v => v.data.isSome || (match v.src with
  | .away _ _ _ => false
  | .host _ _ => false
  | _ => true)

/-- The words of a move: runs of at most 4 bytes. -/
def Move.words (v : Move) : List Move :=
  (List.range ((v.len + 3) / 4)).map fun i =>
    ⟨v.src.shift (4 * i), v.dsts.map (·.shift (4 * i)), min 4 (v.len - 4 * i), v.data.map fun d => (d.drop (4 * i)).take 4⟩

/-- Make a move. -/
def Mach.makeMove (m : Mach) (id ctx : Nat) (v : Move) : Mach := match v.data with
  | some d => v.dsts.foldl (fun m p => m.writePlace (.copyWrite id) ctx p d) m
  | none => m

/-- The bytes that the engine writes at one place together: a word, so that its poison is that of all of its source words (R205), or the
part of a frame in one line (R380). -/
def Place.unit : Place → Nat
  | .away _ _ _ => 128
  | _ => 4

/-- The offset of a place in its store. -/
def Place.offset : Place → Nat
  | .mem a => a
  | .spad _ o => o
  | .away _ a _ => a
  | .host a _ => a
  | .chip a => a
  | .zero => 0

/-- Whether a move that has been read is followed, in one unit at every destination, by another. -/
def Move.joins (v w : Move) : Bool :=
  v.data.isSome && w.data.isSome && v.dsts.length == w.dsts.length &&
  (v.dsts.zip w.dsts).all fun (d, e) => e == d.shift v.len && d.offset / d.unit == (e.offset + w.len - 1) / d.unit

/-- Moves that have been read, joined within the units of their destinations. -/
def joinMoves : List Move → List Move
  | [] => []
  | v :: rest => match joinMoves rest with
    | [] => [v]
    | w :: more =>
      if v.joins w then { v with len := v.len + w.len, data := some (v.data.getD [] ++ w.data.getD []) } :: more else v :: w :: more

/-- The engine has read every source byte: each word as it stood at the issue or as it stands now (DESIGN CHOICE, log 5); regions lose a reader (R304). -/
def Mach.copyReads (m : Mach) (id : Nat) : Mach :=
  match m.copy id with
  | none => m
  | some c =>
    if !c.reading then m
    else
      let words := c.moves.flatMap Move.words
      let moves := words.zipIdx.map fun (v, i) =>
        let now := m.readPlace v.src v.len
        { v with data := match v.data, now with
          | some d, some n => some (if Config.pick (2 ^ 90 + 2 ^ 40 * id + i) then n else d)
          | none, some n => some n
          | d, none => d }
      { (m.modCopy id fun c => { c with moves := joinMoves moves, reading := false }) with
        seals := m.seals.map fun (n, s) => (n, if c.readers.contains n then { s with readers := s.readers - 1 } else s) }

/-- Whether two moves write a byte in common. -/
def Move.meets (v w : Move) : Bool := v.dsts.any fun d => w.dsts.any fun e => d.meets v.len e w.len

/-- The moves that are made now and those left for later: which is free (DESIGN CHOICE, log 5), but moves to the same bytes stay in their
order (R207). -/
def partMoves (id : Nat) : List (Move × Nat) → List Move × List Move → List Move × List Move
  | [], acc => acc
  | (v, i) :: rest, (now, later) =>
    partMoves id rest (if Config.pick (2 ^ 91 + 2 ^ 40 * id + i) && !later.any v.meets then (now ++ [v], later) else (now, later ++ [v]))

/-- The engine writes some words now and leaves others for later (DESIGN CHOICE, log 5). -/
def Mach.copySome (m : Mach) (id : Nat) : Mach :=
  match m.copy id with
  | none => m
  | some c =>
    let (now, later) := partMoves id c.moves.zipIdx ([], [])
    (now.foldl (fun (m : Mach) v => m.makeMove id c.ctx v) m).modCopy id fun c => { c with moves := later }

/-- The engine writes everything that is left. -/
def Mach.copyAll (m : Mach) (id : Nat) : Mach :=
  match m.copy id with
  | none => m
  | some c => (c.moves.foldl (fun (m : Mach) v => m.makeMove id c.ctx v) m).modCopy id fun c => { c with moves := [] }

/-- Whether answers of other devices to a copy's writes are outstanding, but for one stream. -/
def Mach.copyUnanswered (m : Mach) (id : Nat) (but : Option (Nat × Bool)) : Bool := m.requests.any fun (_, r) =>
  r.kind == .copyWrite id && r.answer.isNone && match r.frame with
    | some f => but != some (f.dst.toNat, f.world)
    | none => true

/-! ### Later stores of the task (R148) -/

/-- The copies of a task with a destination among some pieces. -/
def Mach.copiesAt (m : Mach) (tid : Nat) (ps : List (Place × Nat)) : List (Nat × Copy) :=
  m.copies.filter fun (_, c) => c.task == tid && c.moves.any fun v => v.dsts.any fun d => ps.any fun (p, n) => d.meets v.len p n

/-- Whether a store to some pieces must wait for a copy of its task that has not read what it writes there. -/
def Mach.copyAhead (m : Mach) (tid : Nat) (ps : List (Place × Nat)) : Bool := (m.copiesAt tid ps).any fun x => !x.2.readable

/-- Copies of the task write before its later store to the same bytes. -/
def Mach.overtaken (m : Mach) (tid : Nat) (ps : List (Place × Nat)) : Mach :=
  (m.copiesAt tid ps).foldl (fun (m : Mach) (id, _) => (m.copyReads id).copyAll id) m

end Sys2Proof.Machine
end

