-- ==== Sys2Proof/Machine/Access.lean ====
section
/-! DEFINITION. The access to global memory that every memory instruction makes: its checks in their order (R134, R144 to R146), its parts in local memory, on other devices and on the host (R380), orders and scopes (R291 to R293, R298, R383 to R385), and the operation it leaves outstanding (R72, R73, R147, R149). -/

namespace Sys2Proof.Machine

/-! ### Outstanding writes of a register destination -/

/-- The registers of a group that one element fills (R147). -/
def destRegs (ty : Ty) : Nat := if accessSize ty ≤ 4 then 1 else accessSize ty / 4

/-- The pending writes of a destination, none of whose elements is known yet. -/
def blankWrites (t : Task) : Dest → List PendWrite
  | .vec r ty => (List.range (destRegs ty)).map fun i => .v (r + i) 0 (t.vRaw (r + i)) 0
  | .uni r ty => if accessSize ty == 16 then [.u r false (t.uRaw r) false, .u (r + 1) false (t.uRaw (r + 1)) false]
    else [.u r false (t.uRaw r) false]
  | .shape r => [.q r 0 (t.qRaw r) 0]
  | .tile r => [.a r (List.replicate 32 0) (t.aRaw r) (List.replicate 32 0)]

/-- An element as it lands in a 32-bit register: extended below 32 bits (R147). -/
def land32 (ty : Ty) (i v : Nat) : Elem :=
  if signedTy ty && accessSize ty < 4 then BitVec.ofInt 32 (sextInt (8 * accessSize ty) v) else BitVec.ofNat 32 (v / 2 ^ (32 * i))

/-- An element as it lands in a uniform register: extended to 64 bits. -/
def land64 (ty : Ty) (i v : Nat) : Word :=
  if signedTy ty && accessSize ty < 8 then wordOfInt (sextInt (8 * accessSize ty) v) else BitVec.ofNat 64 (v / 2 ^ (64 * i))

/-- The poison of the register i of a group (R42, R149): the halves of a `.b128` element apart, other values whole. -/
def landPoi (ty : Ty) (half poi : Nat) : Bool := if accessSize ty == 16 then poi / 4 ^ half % 4 != 0 else poi != 0

/-- A loaded element reaches one pending write. -/
def landWrite (d : Dest) (el : Nat) (x : Datum) (w : PendWrite) : PendWrite :=
  match d, w with
  | .vec r ty, .v r' lanes new again =>
    if r ≤ r' && r' < r + destRegs ty then
      let i := r' - r
      let bit := (1 : Mask) <<< el
      .v r' (lanes ||| bit)
        ⟨new.e.set el (land32 ty i x.1), if landPoi ty (i / 2) x.2 then new.poi ||| bit else new.poi &&& ~~~bit⟩ again
    else w
  | .uni r ty, .u r' here new again =>
    if r' == r then let p := landPoi ty 0 x.2; .u r' true ⟨land64 ty 0 x.1, p, p⟩ again
    else if accessSize ty == 16 && r' == r + 1 then let p := landPoi ty 1 x.2; .u r' true ⟨land64 ty 1 x.1, p, p⟩ again
    else .u r' here new again
  | .shape r, .q r' els new again =>
    if r' == r then
      .q r' (els ||| (0xFF <<< (8 * el)))
        ⟨(List.range 16).map fun i => if i / 8 == el then BitVec.ofNat 32 (x.1 / 2 ^ (32 * (i % 8))) else at32 new.e i,
         (BitVec.ofNat 16 x.2 &&& 0xFF) <<< (8 * el) ||| (new.poi &&& ~~~((0xFF : BitVec 16) <<< (8 * el)))⟩ again
    else .q r' els new again
  | .tile r, .a r' els new again =>
    if r' == r then
      let row := el / 4
      let part := el % 4
      let mask := (0xFF : Mask) <<< (8 * part)
      .a r' (els.set row (els.getD row 0 ||| mask))
        ⟨new.rows.set row (lanes32.map fun i =>
           if i / 8 == part then BitVec.ofNat 32 (x.1 / 2 ^ (32 * (i % 8))) else at32 (new.rows.getD row []) i),
         new.poi.set row ((BitVec.ofNat 32 x.2 &&& 0xFF) <<< (8 * part) ||| (new.poi.getD row 0 &&& ~~~mask))⟩ again
    else .a r' els new again
  | _, w => w

/-- A loaded element reaches an operation. -/
def PendOp.land (o : PendOp) (d : Dest) (el : Nat) (x : Datum) : PendOp := { o with writes := o.writes.map (landWrite d el x) }

/-- Complete an operation (R72): its writes are made but for dead lanes (R62), its flag falls, and it is no longer outstanding. -/
def Task.completeOp (t : Task) (id : Nat) : Task :=
  match t.pend.find? fun o => o.id == id with
  | none => t
  | some o =>
    let t := { t with pend := t.pend.filter fun o => o.id != id }.makeWrites (o.writes.map (PendWrite.without t.xdead))
    let t := { t with free := t.free + 1 }
    match o.flag with
    | some n => t.lowerFlag n
    | none => t

/-! ### Addresses, translation, permission (R134, R144 to R146, R185, R357) -/

/-- A check that a lane fails: cause, reason, detail, xsyn[63:48]. -/
abbrev Fail := Nat × Nat × Nat × Nat

/-- The trap for the lanes that fail the earliest cause; for a uniform access every lane of xact (R129, R145). -/
def failTrap (ι : Iss) (uni : Bool) (fails : List (Nat × Nat × Fail)) : Option TrapInfo :=
  match fails.map (·.2.2.1) with
  | [] => none
  | c :: cs =>
    let cause := cs.foldl min c
    let same := fails.filter fun f => f.2.2.1 == cause
    match same.find? fun f => same.all fun g => f.1 ≤ g.1 with
    | none => none
    | some (_, va, _, reason, detail, high) =>
      let lanes := if uni then ι.s.xact
        else maskOf fun l => fails.any fun f => f.1 == l && f.2.2.1 == cause
      some ⟨cause, synOf lanes reason detail high, BitVec.ofNat 64 va, 0, none⟩

/-- The elements of an access in memory order: by line, then lane (R157). -/
def byLine (es : List (Elt × Nat)) : List (Elt × Nat) :=
  sortBy (fun a b => a.2 / 128 < b.2 / 128 || (a.2 / 128 == b.2 / 128 && a.1.lane ≤ b.1.lane)) es

/-- Consume poisoned addresses (R134): a poisoned uniform base by every lane of the split, unless no lane uses it. -/
def withAddresses (m : Mach) (ι : Iss) (uniBase uni : Bool) (addrs : Lanes) (go : Mach → Iss → Res) : Res :=
  let k := if uni then ι.s.xact else if uniBase then (if ι.k == 0 then 0 else ι.s.xact) else ι.k
  let poi := if uni || uniBase then (if (laneAt addrs 0).2 then k else 0) else lanesPoi addrs &&& k
  consume m ι poi 0x01 0 (BitVec.ofNat 64 (laneAt addrs ((lowestLane poi).getD 0)).1) 0 go

/-- The lanes of an access with their addresses; a uniform access has one element. -/
def Iss.elements (ι : Iss) (uni : Bool) (addrs : Lanes) : List (Nat × Nat) :=
  if uni then [(0, (laneAt addrs 0).1)] else (lanesOf ι.k).map fun l => (l, (laneAt addrs l).1)

/-- Alignment to the access size (R144). -/
def alignFails (size : Nat) (els : List (Nat × Nat)) : List (Nat × Nat × Fail) :=
  els.filterMap fun (l, va) => if va % size != 0 then some (l, va, 3, 1, size, 0) else none

/-- What translating a list of addresses finds. -/
structure XlAll where
  oks : List Elt
  fails : List (Nat × Nat × Fail)
  miss : Option Nat

/-- Translate every element (R360). -/
def Mach.xlateAll (m : Mach) (core ctx : Nat) (use : Use) (found : List (Nat × Nat × Nat × Nat)) (els : List (Nat × Nat)) : XlAll × Mach :=
  els.foldl (fun (acc : XlAll × Mach) (l, va) =>
    let (a, m) := acc
    match m.xlate core ctx va use found with
    | (.ok pa attr secure, m) => ({ a with oks := a.oks ++ [⟨l, va, pa, attr, secure⟩] }, m)
    | (.fault c r d, m) => ({ a with fails := a.fails ++ [(l, va, c, r, d, 0)] }, m)
    | (.miss, m) => ({ a with miss := some (a.miss.getD va) }, m)) (⟨[], [], none⟩, m)

/-- The operations that a region or a kind of page does not accept (R357, R390). -/
abbrev Accepts := Region → Nat → Bool

/-- The permission checks that depend on the physical address: region (R357), sealed line (R162). -/
def Mach.placeFails (m : Mach) (write : Bool) (accepts : Accepts) (es : List Elt) : List (Nat × Nat × Fail) :=
  es.filterMap fun e =>
    if !accepts (regionOf e.pa) e.attr then some (e.lane, e.va, 5, 0x0A, 0, 0)
    else if write && regionOf e.pa == .loc && m.sealed e.pa then some (e.lane, e.va, 5, 0x03, 0, 0)
    else none

/-- The elements on host pages whose translation the host has refused (R372). -/
def refusedFails (found : List (Nat × Nat × Nat × Nat)) (es : List Elt) : List (Nat × Nat × Fail) :=
  es.filterMap fun e =>
    if regionOf e.pa == .host && found.any fun f => f.1 == refusedKey (hostPage e.pa) then some (e.lane, e.va, 4, 4, 0, 0) else none

/-- Alignment, translation, permission and world for the elements of an access; pages that are not present are waited for (R145,
R146). -/
def withPlaces (m : Mach) (ι : Iss) (uni : Bool) (align : Nat) (use : Use) (accepts : Accepts) (els : List (Nat × Nat))
    (go : Mach → Iss → List Elt → Res) : Res :=
  match failTrap ι uni (alignFails align els) with
  | some i => .trap m i
  | none =>
    let (x, m) := m.xlateAll ι.t.core ι.t.ctx use ι.found els
    match x.miss with
    | some va =>
      let (n, m) := m.missWalk ι.t.core ι.t.ctx va
      .wait m false (.page (dieOf ι.t.core) n (useCode use) va)
    | none =>
      let (poi, fails) := x.fails.partition fun f => f.2.2.1 == 8
      let lanes := if poi.isEmpty then 0 else if uni then ι.s.xact else maskOf fun l => poi.any fun f => f.1 == l
      let (va, detail) := match poi with
        | [] => (0, 0)
        | f :: _ => (f.2.1, f.2.2.2.2.1)
      consume m ι lanes 0x0E detail (BitVec.ofNat 64 va) 0 fun m ι =>
        let oks := x.oks.filter fun e => uni || ι.k.getLsbD e.lane
        match failTrap ι uni (fails ++ refusedFails ι.found oks ++ m.placeFails (use == .store) accepts oks) with
        | some i => .trap m i
        | none => go m ι oks

/-! ### Where each element is made (R372, R380, R387) -/

/-- The task whose access a request carries. -/
def Request.taskOf (r : Request) : Option Nat := match r.kind with
  | .load t _ _ => some t
  | .store t _ => some t
  | .accept t _ _ _ => some t
  | .kept t _ _ => some t
  | .record t _ _ _ _ => some t
  | _ => none

/-- An unanswered access of the task to the same line of a device in the other world's stream (R367), or an unanswered ordered store to
the bytes that a load names (R390). -/
def Mach.heldBack (m : Mach) (tid : Nat) (ss : List (Elt × Spot)) (write : Bool) : Bool :=
  (m.requests.any fun (_, r) => r.taskOf == some tid && r.answer.isNone && match r.frame with
    | none => false
    | some f => ss.any fun (e, s) => match s with
      | .away d a => f.dst.toNat == d && f.world != e.secure && f.addr.toNat / 128 == a / 128
      | .here _ => !write && e.attr == 2 && f.opc == 0x18 && f.addr.toNat / 128 == localPart e.pa / 128
      | _ => false) ||
  (!write && m.pages.any fun p => p.arriving.any fun w => (w.op.map (·.1)) == some tid && ss.any fun (e, _) =>
    e.attr == 2 && w.addr / 128 == localPart e.pa / 128)

/-- The wait for a shared page, whose home and address there an element's physical address names (R387). -/
def Mach.sharedHold (m : Mach) (e : Elt) : Hold :=
  .shared (if regionOf e.pa == .fabric then fabricDevice e.pa else m.xdev.toNat) (pageBase (localPart e.pa)) e.va

/-- Resolve every element: shared pages, and ATS for the host; an access that an earlier one of the task holds back waits (R148). -/
def withSpots (m : Mach) (ι : Iss) (write : Bool) (es : List Elt) (go : Mach → Iss → List (Elt × Spot) → Res) : Res :=
  let (ss, m) := es.foldl (fun (acc : List (Elt × Spot) × Mach) e =>
    let (s, m) := acc.2.spot ι.t.ctx e write
    (acc.1 ++ [(e, s)], m)) ([], m)
  match ss.find? fun x => x.2 == .wait with
  | some (e, _) => .wait m false (m.sharedHold e)
  | none =>
    let m := m.usedAway es
    if m.heldBack ι.tid ss write then .wait m false .cond
    else match ss.find? fun x => match x.2 with
      | .host pa => (m.ats.find? fun a => a.1 == hostPage pa).isNone
      | _ => false with
    | some (e, _) =>
      let page := hostPage e.pa
      .wait (m.askAts page false e.secure) false (.ats page e.va)
    | none => go m ι ss

/-- Whether data written to a place go to a device outside the poison domain (R410); those of an ordered or a loose page go to its holders. -/
def Mach.leaves (m : Mach) (e : Elt) : Spot → Bool
  | .away d _ => !m.pdom d
  | .ordered d a => if d == m.xdev.toNat then (m.page d (pageBase a) e.secure).replicas.any fun h => !m.pdom h else !m.pdom d
  | .loose d a => (m.looseHolders d a e.secure).any fun h => !m.pdom h
  | _ => false

/-- Consume data that would leave the poison domain (R410). -/
def withBoundary (m : Mach) (ι : Iss) (uni : Bool) (poisoned : Nat → Bool) (ss : List (Elt × Spot))
    (go : Mach → Iss → List (Elt × Spot) → Res) : Res :=
  let out := ss.filter fun (e, s) => poisoned e.lane && m.leaves e s
  let lanes := if out.isEmpty then 0 else if uni then ι.s.xact else maskOf fun l => out.any fun x => x.1.lane == l
  let va := match out with
    | [] => 0
    | x :: _ => x.1.va
  consume m ι lanes 0x0F 0 (BitVec.ofNat 64 va) 0 fun m ι => go m ι (ss.filter fun x => uni || ι.k.getLsbD x.1.lane)

/-! ### Orders -/

/-- Whether an access with an order acquires or releases (R298); `.team` takes no action (R290, R293). -/
def acquires (o : Ord') (s : Scope) : Bool := s != .team && (o == .acq || o == .ar || o == .sc)
def releases (o : Ord') (s : Scope) : Bool := s != .team && (o == .rel || o == .ar || o == .sc)

/-- Whether every earlier access of a task has been performed (R150, R292, R298); a release at `.dev` or narrower through a remote
line waits for no answer (R383). -/
def Mach.performed (m : Mach) (tid : Nat) (remoteLine : Bool) : Bool :=
  (match m.task tid with
   | some t => t.pend.all fun o => (o.kind != .access && o.kind != .copy) ||
       (if remoteLine then !(o.counted && o.answers.isEmpty) else o.answers.isEmpty && !o.counted && o.kind != .copy)
   | none => true) && (remoteLine || !m.copies.any fun c => c.2.task == tid)

/-- A counted store or copy of a task is outstanding (R150, R205): it reaches no commit point yet (R150, R344). -/
def Mach.countedLeft (m : Mach) (tid : Nat) : Bool :=
  (m.task tid).any (fun t => !t.storesDone) || m.copies.any fun c => c.2.task == tid && c.2.counted

/-- The record that a task's relaxed access has seen (R160): the last 8 are remembered, each once (DEDUCED, log 56). -/
def Task.see (t : Task) (r : Option Record) : Task :=
  match r with
  | none => t
  | some r =>
    let l := t.seen.filter (· != r) ++ [r]
    if 8 < l.length then { t with seen := l.drop 1, seenMore := true } else { t with seen := l }

/-- The records seen so far have been acquired (R160). -/
def Task.unsee (t : Task) : Task := { t with seen := [], seenMore := false }

/-! ### An access -/

/-- What distinguishes one access from another: its size, whether it writes, its order and scope, whether it is an atomic, and the
operations that make one element of it. -/
structure Plan where
  uni : Bool
  size : Nat
  write : Bool
  ord : Ord'
  scope : Scope
  atomic : Bool
  /-- A store, RED or ATOM: it records the release of a FENCE before it (R160). -/
  records : Bool
  /-- Make one element in local memory: core, address, at the home slice. -/
  make : Mach → Nat → Elt → Nat → Bool → Datum × Option Record × Mach
  /-- The frames for the elements of one line of a device, with the order and scope to carry: the first carries the elements' answers. -/
  frames : Nat → List (Elt × Nat) → Bool → Ord' → Scope → List Frame
  /-- The place of an element in the answer to such a frame. -/
  place : List (Elt × Nat) → Elt × Nat → Nat
  /-- The TLP of a host element, and whether a completion comes. -/
  tlp : Elt → Nat → Bool → Nat → Out
  answered : Bool
  /-- Poisoned data, by lane. -/
  poisoned : Nat → Bool
  /-- The payload and chunk poison of an element's write. -/
  bytes : Elt → List Byte × (Nat → Bool)
  ty : Ty
  /-- The destination of an element's result, if it has one. -/
  dest : Option (Elt → Dest)
  /-- The flag that the instruction raises. -/
  flag : Option Nat
  /-- The register destinations. -/
  dests : List Dest

/-- The elements made locally, with their addresses. -/
def locals (ss : List (Elt × Spot)) : List (Elt × Nat) := byLine (ss.filterMap fun (e, s) => match s with
  | .here pa => some (e, pa)
  | _ => none)

/-- The elements that go to other devices, grouped by device, line and world. -/
def remotes (ss : List (Elt × Spot)) : List ((Nat × Nat × Bool) × List (Elt × Nat)) :=
  (ss.foldl (fun (gs : List ((Nat × Nat × Bool) × List (Elt × Nat))) (e, s) => match s with
    | .away d a =>
      let key := (d, a / 128, e.secure)
      if gs.any fun g => g.1 == key then gs.map fun g => if g.1 == key then (g.1, g.2 ++ [(e, a)]) else g
      else gs ++ [(key, [(e, a)])]
    | _ => gs) [])

/-- The scope check of an acquire on local lines (R293, R384). -/
def Mach.scopeFails (m : Mach) (c : Nat) (es : List (Elt × Nat)) : List (Nat × Nat × Fail) :=
  es.filterMap fun (e, pa) => (refusedBy c (tabGet m.record (lineOf pa))).map fun s => (e.lane, e.va, 7, 1, scopeNat s, 0)

/-- The race check of local elements (R300): the holder's die and core. -/
def Mach.raceFails (m : Mach) (c : Nat) (write home : Bool) (es : List (Elt × Nat)) : List (Nat × Nat × Fail) :=
  es.filterMap fun (e, pa) => (m.race c pa write home).map fun h => (e.lane, e.va, 6, 1, 0, dieOf h + 8 * logicalOf h)

/-- The acquire actions of an access for its lines, before the race check (R293). -/
def Mach.acquireLines (m : Mach) (c : Nat) (s : Scope) (es : List (Elt × Nat)) : Mach :=
  let recs := es.map fun x => tabGet m.record (lineOf x.2)
  let m := recs.foldl (fun m r => m.acquireWriteback c s r) m
  if recs.any fun r => match r with
    | some r => r.foreign || r.who != c
    | none => true then m.selfInvalidate c else m

/-- Make the local elements of an access: records of a release, then the elements in order; the records that they saw. -/
def Mach.makeLocal (m : Mach) (c : Nat) (p : Plan) (home : Bool) (rec : Option Record) (es : List (Elt × Nat)) :
    List (Elt × Datum × Option Record) × Mach :=
  let m := match rec with
    | some r => es.foldl (fun m x => m.setRecord x.2 r) m
    | none => m
  es.foldl (fun (acc : List (Elt × Datum × Option Record) × Mach) (e, pa) =>
    let (d, r, m) := p.make acc.2 c e pa home
    (acc.1 ++ [(e, d, r)], m)) ([], m)

/-- Send the remote, ordered, loose and host elements of an access as requests of an operation: their numbers. -/
def Mach.sendParts (m : Mach) (ι : Iss) (op : Nat) (p : Plan) (ord : Ord') (scope : Scope) (away : List ((Nat × Nat × Bool) × List (Elt × Nat)))
    (ss : List (Elt × Spot)) : List Nat × Mach :=
  let parts := fun (es : List (Elt × Nat)) => match p.dest with
    | some d => es.map fun x => (d x.1, x.1.lane, p.place es x)
    | none => []
  let (ids, m) := away.foldl (fun (acc : List Nat × Mach) (key, es) =>
    let kind := if p.dest.isSome then ReqKind.load ι.tid op (parts es) else .store ι.tid op
    (p.frames key.1 es key.2.2 ord scope).foldl (fun (acc : List Nat × Mach) f =>
      let (n, m) := acc.2.request kind ι.t.ctx f
      (acc.1 ++ [n], m)) acc) ([], m)
  ss.foldl (fun (acc : List Nat × Mach) (e, s) =>
    let (ids, m) := acc
    match s with
    | .host pa =>
      let a := m.hostAddress pa
      if p.answered then
        let kind := match p.dest with
          | some d => ReqKind.load ι.tid op [(d e, e.lane, 0)]
          | none => .free
        let (n, m) := m.hostRequest kind ι.t.ctx (p.tlp e a e.secure)
        (if p.dest.isSome then ids ++ [n] else ids, m)
      else (ids, { m with out := m.out ++ [p.tlp e a e.secure 0] })
    | .ordered home a =>
      let (bs, poi) := p.bytes e
      let mask := chunkMask bs.length poi
      if home == m.xdev.toNat then
        let (n, m) := m.fresh
        (ids ++ [n], m.orderWrite e.secure ⟨home, a, bs, mask, 0, some (ι.tid, op, n)⟩)
      else
        let (n, m) := m.request (.store ι.tid op) ι.t.ctx
          { writeFrame home a e.secure ord scope p.ty bs poi with opc := 0x18 }
        (ids ++ [n], m)
    | .loose home a =>
      let (bs, poi) := p.bytes e
      let holders := m.looseHolders home a e.secure
      let m := match (m.page home (pageBase a) e.secure).frame with
        | some f => m.applyUpdate (f + a % 65536) bs poi
        | none => m
      holders.foldl (fun (acc : List Nat × Mach) d =>
        let (n, m) := acc.2.request (.store ι.tid op) ι.t.ctx
          { writeFrame d a e.secure ord scope p.ty bs poi with
            opc := 0x1A, oparg := BitVec.ofNat 64 (tyNum p.ty + 2 ^ 16 * bs.length + 2 ^ 48 * home) }
        (acc.1 ++ [n], m)) (ids, m)
    | .chip pa => (ids, if p.write then { m with out := m.out ++ [.chip pa (p.bytes e).1] } else m)
    | _ => (ids, m)) (ids, m)

/-- What a read of a device register answers: a free value (DESIGN CHOICE, log 21). -/
def chipDatum (t : Task) (size : Nat) (e : Elt) : Datum :=
  (((Config.freeWord (2 ^ 80 * t.free + 2 ^ 70 * e.lane + e.pa)).toNat + 2 ^ 64 * (Config.freeWord (2 ^ 80 * t.free + 2 ^ 70 * e.lane + e.pa + 8)).toNat) % 2 ^ (8 * size), 0)

/-- The requests that this instruction has sent and whose answers it keeps (R380, R382): they belong to its issue. -/
def Mach.keptOf (m : Mach) (ι : Iss) : List (Nat × Request) := m.requests.filter fun (_, r) => match r.kind with
  | .kept t i _ => t == ι.tid && i == ι.t.free
  | _ => false

/-- Forget the kept requests. -/
def Mach.dropKept (m : Mach) (ι : Iss) : Mach :=
  { m with requests := m.requests.filter fun x => !(m.keptOf ι).any fun y => y.1 == x.1 }

/-- The acquire of the record that an answer carries (R385): the scope that refuses it, or whether it self-invalidates. -/
def answerRefuses (a : Answer) : Option Scope :=
  if a.nack.isSome then none
  else match recordInAnswer a.arg with
    | (some s, refused) => if refused || !(s == .fab || s == .sys) then some s else none
    | (none, _) => none

/-- An outstanding operation of this instruction. -/
def mkOp (t : Task) (id : Nat) (flag : Option Nat) (dests : List Dest) (answers : List Nat) : PendOp :=
  ⟨id, .access, flag, flag.isNone && dests.isEmpty, dests.flatMap (blankWrites t), answers⟩

/-- An issue that would raise a flag above 63 does not take place (R71). -/
def flagFull (t : Task) : Option Nat → Bool
  | some n => 63 ≤ t.cf.getD n 0
  | none => false

/-- An access whose elements are placed: it waits for what its release waits for, checks scope and race, is made, and leaves an
operation outstanding. -/
def Plan.perform (p : Plan) (m : Mach) (ι : Iss) (ss : List (Elt × Spot)) : Res :=
  match m.task ι.tid with
  | none => .moved m
  | some t =>
    let c := t.core
    let here := locals ss
    let away := remotes ss
    let acq := acquires p.ord p.scope
    let rel := releases p.ord p.scope
    let window := if p.records && !ss.isEmpty then t.window else none
    let remoteOnly := here.isEmpty && !away.isEmpty && scopeNat p.scope ≤ 3
    let kept := m.keptOf ι
    let pieces := if !p.write then [] else
      here.map (fun x => (Place.mem x.2, p.size)) ++ away.flatMap fun g => g.2.map fun x => (Place.away g.1.1 x.2 g.1.2.2, p.size)
    if m.copyAhead ι.tid pieces then .wait m false .cond
    else
    let m := m.overtaken ι.tid pieces
    -- R150: a commit point waits for the counted stores; a release through remote lines for no answer (R383; DEDUCED, log 72)
    let commits := commitPoint ι.ins || (p.write && !away.isEmpty)
    if rel && !m.performed ι.tid remoteOnly then .wait m false .cond
    else if commits && kept.isEmpty && !(rel && remoteOnly) && m.countedLeft ι.tid then .wait m false .cond
    else if acq && !away.isEmpty && kept.isEmpty then
      -- R385: the remote groups of an acquire are answered before anything else is made
      match failTrap ι p.uni (m.scopeFails c here) <|>
          failTrap ι p.uni ((m.acquireLines c p.scope here).raceFails c p.write (2 ≤ scopeNat p.scope) here) with
      | some i => .trap m i
      | none =>
        let m := if rel then m.bump c p.scope else m
        let m := away.foldl (fun m (key, es) =>
          (p.frames key.1 es key.2.2 p.ord p.scope).foldl (fun m f =>
            (m.request (.kept ι.tid ι.t.free (es.map fun x => (x.1.lane, p.place es x))) ι.t.ctx f).2) m) m
        .wait m false .cond
    else if kept.any fun x => x.2.answer.isNone then .wait m false .cond
    else
      let answers := kept.filterMap fun (_, r) => match r.kind, r.answer with
        | .kept _ _ parts, some a => some (parts, a)
        | _, _ => none
      let landed := fun (o : PendOp) => match p.dest with
        | some d => answers.foldl (fun (o : PendOp) (parts, a) => parts.foldl (fun (o : PendOp) (lane, off) =>
            if (answerRefuses a).isSome && fieldOf a.arg 62 1 == 1 then o
            else o.land (d ⟨lane, 0, 0, 0, false⟩) lane (a.datum off p.size)) o) o
        | none => o
      let refused := answers.filterMap fun (parts, a) => (answerRefuses a).map fun s => (parts.map (·.1), s)
      let m := m.dropKept ι
      match refused with
      | (_, s) :: _ =>
        let lanes := if p.uni then ι.s.xact
          else maskOf fun l => refused.any fun x => x.1.contains l && x.2 == s
        let va := match ss.find? fun x => p.uni || lanes.getLsbD x.1.lane with
          | some x => x.1.va
          | none => 0
        let o := landed (mkOp t 0 none p.dests [])
        .trap (m.modTask ι.tid fun t => t.makeWrites o.writes) (mkTrap 7 lanes 1 (scopeNat s) (BitVec.ofNat 64 va) 0)
      | [] =>
        let fails := if acq then m.scopeFails c here else []
        match failTrap ι p.uni fails with
        | some i => .trap m i
        | none =>
          let home := window.isSome || (2 ≤ scopeNat p.scope && (p.ord != .rlx || p.atomic))
          let m1 := if acq then m.acquireLines c p.scope here else m
          let m1 := if acq && !answers.isEmpty then m1.selfInvalidate c else m1
          match failTrap ι p.uni (m1.raceFails c p.write home here) with
          | some i => .trap m i
          | none =>
            let m1 := if rel && kept.isEmpty then m1.bump c p.scope else m1
            let record := if rel then some (m1.recordOf c (match window with
                | some w => widerScope p.scope w
                | none => p.scope))
              else window.map fun w => m1.recordOf c w
            let (made, m1) := m1.makeLocal c p home record here
            let (op, m1) := m1.fresh
            let ord := match window with
              | some _ => if p.ord == .rlx then Ord'.rel else if p.ord == .acq then .ar else p.ord
              | none => p.ord
            let scope := match window with
              | some w => widerScope p.scope w
              | none => p.scope
            let unsent := if kept.isEmpty then away else []
            let (ids, m1) := m1.sendParts ι op p ord scope unsent ss
            let o := landed (mkOp t op p.flag p.dests ids)
            let o := match p.dest with
              | some d =>
                let o := made.foldl (fun (o : PendOp) (e, x, _) => o.land (d e) e.lane x) o
                ss.foldl (fun (o : PendOp) (e, s) => match s with
                  | .chip _ => o.land (d e) e.lane (chipDatum ι.t p.size e)
                  | _ => o) o
              | none => o
            .done (m1.modTask ι.tid fun t =>
              let t := if p.write && ss.any fun x => !(x.2 matches .here _ | .host _ | .chip _) then { t with committed := true } else t
              let t := if window.isSome then { t with window := none } else t
              let t := if acq then t.unsee
                else if p.ord == .rlx then made.foldl (fun (t : Task) x => t.see x.2.2) t else t
              t.startOp o)

/-- An access from its addresses on (R145): poisoned addresses, alignment, translation, permission and world, the poison boundary, then
the access. -/
def Plan.run (p : Plan) (m : Mach) (ι : Iss) (uniBase : Bool) (addrs : Lanes) (accepts : Accepts) : Res :=
  if flagFull ι.t p.flag then .wait m false .cond
  else withAddresses m ι uniBase p.uni addrs fun m ι =>
    withPlaces m ι p.uni p.size (if p.write then .store else .load) accepts (ι.elements p.uni addrs) fun m ι es =>
      withSpots m ι p.write es fun m ι ss =>
        withBoundary m ι p.uni p.poisoned ss fun m ι ss => p.perform m ι ss

/-- An access to a block of memory in parts of 32 bytes, by one address that must be a multiple of `align` (R216, R226). -/
def Plan.runBlock (p : Plan) (m : Mach) (ι : Iss) (addr : Nat × Bool) (align parts : Nat) : Res :=
  if flagFull ι.t p.flag then .wait m false .cond
  else withAddresses m ι true true (sameLanes addr) fun m ι =>
    match failTrap ι true (alignFails align [(0, addr.1)]) with
    | some i => .trap m i
    | none =>
      withPlaces m ι true 1 (if p.write then .store else .load) (fun _ attr => !p.write || attr != 2)
        ((List.range parts).map fun i => (i, wrapBits 64 ((addr.1 + 32 * i : Nat) : Int))) fun m ι es =>
        withSpots m ι p.write es fun m ι ss =>
          withBoundary m ι true p.poisoned ss fun m ι ss => p.perform m ι ss

end Sys2Proof.Machine
end

