-- ==== Sys2Proof/Machine/Shapes.lean ====
section
/-! DEFINITION. Shape records (R214, R215), skew windows (R217, R285), scratchpad offsets (R153, R283), and near addresses (R154, R302). -/

namespace Sys2Proof.Machine

/-! ### Shapes (R214, R215) -/

/-- The element types of a shape: not the bit types and not the packed pairs (R215). -/
def shapeType (t : Ty) : Bool := !([Ty.b8, .b16, .b32, .b64, .b128, .f16x2, .bf16x2].contains t) && tyNum t ≤ 24
/-- The elements of a packing group: 2 of E2M1, 16 of E3M2 and E2M3 (R215). -/
def packGroup (t : Ty) : Nat := if t == .e2m1 then 2 else if t == .e3m2 || t == .e2m3 then 16 else 1
/-- The bytes of n elements. -/
def elemBytes (t : Ty) (n : Nat) : Nat := n * tyBits t / 8
/-- The row length of a region. -/
def QReg.rowBytes (q : QReg) : Nat := elemBytes q.ty q.nx

/-- The first element that breaks R214 or R215 when a shape is used; `stamp`: its stamp address is used too. -/
def QReg.badElement (q : QReg) (stamp : Bool := false) : Option Nat :=
  let t := q.ty
  let g := packGroup t
  let u := if g == 1 then tyBits t / 8 else 4
  if q.base % u != 0 then some 0
  else if q.f 1 23 9 != 0 || (q.spad && q.f 1 0 23 != 0) then some 1
  else if q.f 2 10 22 != 0 || q.f 2 5 1 != 0 || !shapeType t then some 2
  else if q.nx % g != 0 then some 3
  else if q.f 4 16 16 != 0 then some 4
  else if q.strY % u != 0 then some 5
  else if q.strZ % u != 0 then some 6
  else if q.tx % g != 0 then some 7
  else if q.f 8 16 16 != 0 then some 8
  else if q.x0 % g != 0 then some 9
  else if q.f 10 16 16 != 0 then some 10
  else if stamp && q.w 11 % 8 != 0 then some 11
  else if q.f 12 23 9 != 0 then some 12
  else (List.range 3).findSome? fun i => if q.w (13 + i) != 0 then some (13 + i) else none

/-- The lowest poisoned element of a shape among those used (R215): base, type, extents, strides and origins, and with `stamp` the stamp
address. -/
def QReg.poisoned (q : QReg) (stamp : Bool := false) : Option Nat :=
  (List.range (if stamp then 13 else 11)).find? fun i => q.poi.getLsbD i

/-- The offset of element (x, y, z) from the base of a region (R215). -/
def QReg.offset (q : QReg) (x y z : Nat) : Nat := elemBytes q.ty x + y * q.strY + z * q.strZ

/-! ### Skew windows (R217, R285) -/

/-- The bytes a window covers: its base and end. -/
def QReg.window (q : QReg) : Nat × Nat := (q.w 0, q.w 0 + q.ny * q.rowBytes)

/-- Where a team-local offset lies physically when reached through a window (R285). -/
def skewed (q : QReg) (o : Nat) : Nat :=
  let lr := q.rowBytes
  let rel := o - q.w 0
  let row := rel / lr
  let c := rel % lr
  let j := c % 128 / 4
  q.w 0 + row * lr + 128 * (c / 128) + 4 * ((j + row) % 32) + o % 4

/-- The window of a team that holds an offset. -/
def Team.windowAt (g : Team) (o : Nat) : Option (Nat × QReg) := g.windows.find? fun (_, q) => q.window.1 ≤ o && o < q.window.2

/-! ### Scratchpad (R153, R282, R283) -/

/-- Bytes that need not lie together: byte i at address f i, words together (R285). -/
def Memory.gather (m : Memory) (f : Nat → Nat) (n : Nat) : Datum :=
  (ofBytes ((List.range n).map fun i => m.byte (f i)),
   ((List.range ((n + 3) / 4)).map fun j => if m.poi.contains (f (4 * j) / 4) then 2 ^ j else 0).foldl (· + ·) 0)

def Memory.scatter (m : Memory) (f : Nat → Nat) (n : Nat) (d : Datum) : Memory :=
  (List.range ((n + 3) / 4)).foldl (fun m j =>
    m.put (f (4 * j)) (min 4 (n - 4 * j)) (d.1 / 2 ^ (32 * j) % 2 ^ 32, d.2 / 2 ^ j % 2)) m

/-- The check of an element at a team-local offset, and where its bytes lie physically. `skew`: none for a plain access, some none for
`.sk`, some w for the window a shape names. -/
def Team.place (g : Team) (skew : Option (Option Nat)) (o size : Nat) : Except Fail (Nat → Nat) :=
  if g.spadLen < o + size then .error (5, 0x04, 0, 0)
  else match skew with
    | none => .ok fun i => g.spadBase + o + i
    | some which =>
      match (match which with
        | none => g.windowAt o
        | some w => (g.windowAt o).filter fun x => x.1 == w) with
      | none => .error (0x0C, 0x01, which.getD 0, 0)
      | some (w, q) =>
        if q.rowBytes < (o - q.w 0) % q.rowBytes + size then .error (3, 0x04, w, 0)
        else .ok fun i => g.spadBase + skewed q (o + i)

/-- Read and write the scratchpad of a core. -/
def Mach.spadGet (m : Mach) (core : Nat) (f : Nat → Nat) (n : Nat) : Datum := (m.core core).spad.gather f n
def Mach.spadPut (m : Mach) (core : Nat) (f : Nat → Nat) (n : Nat) (d : Datum) : Mach :=
  m.modCore core fun c => { c with spad := c.spad.scatter f n d }

/-- The configured scratchpad size of a context (R282). -/
def Ctx.spadSize (c : Ctx) : Nat := match fieldOf (c.word 0) 58 2 with
  | 0 => 256 * 1024
  | 1 => 512 * 1024
  | 2 => 640 * 1024
  | _ => 0

/-- The core that MEMBER of a near address or a member mask names (R154, R209). -/
def memberCore (core member : Nat) : Nat := coreNo (dieOf core) (logicalOf core / 4 * 4 + member)

/-- Whether bytes of a core's scratchpad lie in an allocation of a context, and the team that holds them. -/
def Mach.teamAt (m : Mach) (core ctx off size : Nat) : Option Nat :=
  (m.teams.find? fun (_, g) => g.core == core && g.ctx == ctx && g.spadBase ≤ off && off + size ≤ g.spadBase + g.spadLen).map (·.1)

/-! ### Accumulators (R32, R154) -/

/-- The task that holds tile k of a partition's file, and its name there. -/
def Mach.holderOfTile (m : Mach) (core p k ctx : Nat) : Option (Nat × Task × Nat) :=
  m.tasks.findSome? fun (n, t) =>
    if t.core == core && t.ctx == ctx && t.state != .retired then
      if t.acore then some (n, t, tileKey t.part p k)
      else if t.part == p then (t.tiles.zipIdx.find? fun x => x.1 == k).map fun x => (n, t, x.2) else none
    else none

/-- The checks of a near address (R154). -/
def Mach.nearFault (m : Mach) (core ctx : Nat) (store : Bool) (a size : Nat) : Bool :=
  let member := memberCore core (a / 2 ^ 21 % 4)
  let off := a % 2 ^ 20
  2 ^ 23 ≤ a ||
  (if a / 2 ^ 20 % 2 == 1 then store || off % 4 != 0
   else (match m.ctx ctx with
     | some c => c.spadSize ≤ off
     | none => true) || (m.teamAt member ctx off size).isNone)

/-- Words of accumulators at a near address. -/
def Mach.nearTile (m : Mach) (core ctx a size : Nat) : Datum :=
  let member := memberCore core (a / 2 ^ 21 % 4)
  let p := a / 2 ^ 18 % 4
  let k := a / 2 ^ 12 % 64
  let e := a / 4 % 1024
  match m.holderOfTile member p k ctx with
  | none => (0, 0)
  | some (_, t, name) =>
    let tile := t.readA 0 name
    let word := fun i => (at32 (tile.rows.getD ((e + i) / 32) []) ((e + i) % 32), (tile.poi.getD ((e + i) / 32) 0).getLsbD ((e + i) % 32))
    (((List.range (size / 4)).map fun i => (word i).1.toNat * 2 ^ (32 * i)).foldl (· + ·) 0,
     ((List.range (size / 4)).map fun i => if (word i).2 then 2 ^ i else 0).foldl (· + ·) 0)

end Sys2Proof.Machine
end

