-- ==== Sys2Proof/Machine/MemInstr.lean ====
section
/-! DEFINITION. LD, ST, LDS, STS, LDN, STN and PREF (R152 to R155), ATOM, ATOMS and RED (R156 to R159). -/

namespace Sys2Proof.Machine

/-! ### Data operands (R147, R149) -/

/-- The data of a lane from a vector register group: its value and the poison of each word. -/
def Task.datumV (t : Task) (opno r size l : Nat) : Datum :=
  let n := if size ≤ 4 then 1 else size / 4
  let ws := (List.range n).map fun i => let x := t.readV opno (r + i); ((at32 x.e l).toNat, x.poi.getLsbD l)
  ((ws.zipIdx.map fun (w, i) => w.1 * 2 ^ (32 * i)).foldl (· + ·) 0 % 2 ^ (8 * size),
   (ws.zipIdx.map fun (w, i) => if w.2 then 2 ^ i else 0).foldl (· + ·) 0)

/-- The data of a uniform access. -/
def Task.datumU (t : Task) (opno r size : Nat) : Datum :=
  let part := fun i => let x := t.readU opno (r + i); (x.v.toNat, (if x.lo then 1 else 0) + if x.hi then 2 else 0)
  if size == 16 then ((part 0).1 + 2 ^ 64 * (part 1).1, (part 0).2 + 4 * (part 1).2)
  else if size == 8 then part 0
  else ((part 0).1 % 2 ^ (8 * size), (part 0).2 % 2)

/-- The data operand D of an M word, or its operand B. -/
def Task.datum (t : Task) (x : FM) (opno : Nat) (r : BitVec 8) (l : Nat) : Datum :=
  if x.dk then t.datumU opno r.toNat (accessSize x.ty) else t.datumV opno r.toNat (accessSize x.ty) l

/-- The flag of an M word (R72). -/
def Iss.flag (ι : Iss) (fl : FlagSel) : Option Nat := flagChosen ι.hdr fl

/-- The register destination of an element. -/
def destOf (x : FM) (_ : Elt) : Dest := if x.dk then .uni x.d.toNat x.ty else .vec x.d.toNat x.ty

/-! ### Frames and TLPs of loads and stores (R376; DESIGN CHOICE, log 18) -/

/-- Write bytes into a list of bytes with rising addresses. -/
def putRun : List (Nat × Byte × Bool) → Nat → Byte → Bool → List (Nat × Byte × Bool)
  | [], a, b, p => [(a, b, p)]
  | (k, b', p') :: rest, a, b, p =>
    if k == a then (a, b, p) :: rest else if a < k then (a, b, p) :: (k, b', p') :: rest else (k, b', p') :: putRun rest a b p

/-- Cut rising bytes into runs without a gap. -/
def runsOf : List (Nat × Byte × Bool) → List (Nat × List (Byte × Bool))
  | [] => []
  | (a, b, p) :: rest => match runsOf rest with
    | (a', bs) :: more => if a + 1 == a' then (a, (b, p) :: bs) :: more else (a, [(b, p)]) :: (a', bs) :: more
    | [] => [(a, [(b, p)])]

/-- A WRITE frame of bytes with rising addresses (R380): from the first to the last; where bytes between them are not written, OPARG[5] is set
and a chunk with a bit for each byte follows the data (DESIGN CHOICE, log 18). -/
def cellsFrame (dst : Nat) (world : Bool) (ord : Ord') (scope : Scope) (ty : Ty) (cells : List (Nat × Byte × Bool)) : List Frame :=
  match cells, cells.getLast? with
  | (low, _) :: _, some (high, _) =>
    let n := high + 1 - low
    let bytes := (List.range n).map fun i => (cells.find? fun c => c.1 == low + i).map (·.2)
    let f := writeFrame dst low world ord scope ty (bytes.map fun b => (b.getD (0, false)).1)
      fun w => (List.range 4).any fun i => ((bytes.getD (4 * w + i) none).getD (0, false)).2
    [if cells.length == n then f
     else { f with oparg := f.oparg ||| 0x20
                   payload := f.payload ++ padChunks (toBytes 16 ((bytes.zipIdx.map fun (b, i) => if b.isSome then 2 ^ i else 0).foldl (· + ·) 0)) }]
  | _, _ => []

/-- The WRITE frame of one line: the elements in lane order (R148). -/
def storeFrames (size : Nat) (ty : Ty) (data : Nat → Datum) (dst : Nat) (es : List (Elt × Nat)) (world : Bool) (ord : Ord') (scope : Scope) :
    List Frame :=
  let cells := es.foldl (fun acc (e, a) =>
    let d := data e.lane
    (toBytes size d.1).zipIdx.foldl (fun acc (b, i) => putRun acc (a + i) b (d.2.testBit (i / 4))) acc) []
  cellsFrame dst world ord scope ty cells

/-- The lowest address of a group of elements. -/
def lowestAddr (es : List (Elt × Nat)) : Nat := match es with
  | [] => 0
  | x :: xs => xs.foldl (fun a y => min a y.2) x.2

/-- The READ frame of one line spans its elements. -/
def loadFrames (size : Nat) (dst : Nat) (es : List (Elt × Nat)) (world : Bool) (ord : Ord') (scope : Scope) : List Frame :=
  let low := lowestAddr es
  let high := es.foldl (fun a y => max a (y.2 + size)) 0
  [readFrame dst low (high - low) world ord scope]

/-- The plan of a load made in local memory by `read`. -/
def loadPlan (ι : Iss) (x : FM) (size : Nat) (dest : Elt → Dest) (dests : List Dest) (ord : Ord') (scope : Scope) : Plan where
  uni := x.dk
  size := size
  write := false
  ord := ord
  scope := scope
  atomic := false
  records := false
  make := fun m c _ pa home => if home then m.readHome c pa size else m.readL1 c pa size
  frames := loadFrames size
  place := fun es e => e.2 - lowestAddr es
  tlp := fun _ a secure tag => .hostRead tag a size secure
  answered := true
  poisoned := fun _ => false
  bytes := fun _ => ([], fun _ => false)
  ty := x.ty
  dest := some dest
  flag := ι.flag x.fl
  dests := dests

/-- The plan of a store of `data`. -/
def storePlan (ι : Iss) (x : FM) (size : Nat) (ty : Ty) (data : Nat → Datum) (ord : Ord') (scope : Scope) : Plan where
  uni := x.dk
  size := size
  write := true
  ord := ord
  scope := scope
  atomic := false
  records := true
  make := fun m c e pa home =>
    ((0, 0), none, if home then m.writeHome c pa size (data e.lane) else m.writeL1 c pa size (data e.lane))
  frames := storeFrames size ty data
  place := fun _ _ => 0
  tlp := fun e a secure _ => .hostWrite a (toBytes size (data e.lane).1) secure ((data e.lane).2 != 0)
  answered := false
  poisoned := fun l => (data l).2 != 0
  bytes := fun e => (toBytes size (data e.lane).1, fun w => (data e.lane).2.testBit w)
  ty := ty
  dest := none
  flag := ι.flag x.fl
  dests := []

/-- Every region and kind of page accepts loads and stores; the on-chip map is reached through its own registers. -/
def acceptAll : Accepts := fun _ _ => true

/-- LD (R152). -/
def bodyLd (x : FM) (m : Mach) (ι : Iss) : Res :=
  (loadPlan ι x (accessSize x.ty) (destOf x) [destOf x ⟨0, 0, 0, 0, false⟩] x.ord x.scope).run m ι x.ak (ι.t.addrLanes x) acceptAll
def execLd (x : FM) (s : State) := issue (.ld x) (bodyLd x) s

/-- ST (R152). -/
def bodySt (x : FM) (m : Mach) (ι : Iss) : Res :=
  (storePlan ι x (accessSize x.ty) x.ty (ι.t.datum x 0 x.d) x.ord x.scope).run m ι x.ak (ι.t.addrLanes x) acceptAll
def execSt (x : FM) (s : State) := issue (.st x) (bodySt x) s

/-! ### Atomics (R156, R159) -/

/-- The new value of an atomic operation. -/
def atomValue (sub : Nat) (ty : Ty) (sat : Bool) (old d b : Nat) : Nat :=
  match sub with
  | 0 => if ty == .f32 then floatOp fmtF32 .add .rne 0 false old d 0 else narrow ty sat (intVal ty old + intVal ty d)
  | 1 => if ty == .f32 then minMax fmtF32 false old d else minInt ty old d
  | 2 => if ty == .f32 then minMax fmtF32 true old d else maxInt ty old d
  | 3 => old &&& d
  | 4 => old ||| d
  | 5 => old ^^^ d
  | 6 => d
  | _ => if old == b then d else old

/-- The effect of an atomic operation on a stored value, with its poison. -/
def atomNew (x : FM) (d b : Datum) (old : Datum) : Datum :=
  (atomValue x.sub.toNat x.ty (x.sub == 0 && x.b.getLsbD 0) old.1 d.1 b.1,
   if old.2 != 0 || d.2 != 0 || (x.sub == 7 && b.2 != 0) then 2 ^ (accessSize x.ty / 4) - 1 else 0)

/-- What the host accepts of ATOM and RED (R357): `.add` on integers without `.sat`, `.exch` and `.cas`; ordered and loose pages accept
none (R390; DEDUCED, log 20). -/
def acceptAtomic (x : FM) : Accepts := fun r attr =>
  match r with
  | .host => (x.sub == 0 && x.ty != .f32 && !x.b.getLsbD 0) || x.sub == 6 || x.sub == 7
  | _ => attr ≤ 1

/-- The plan of ATOM, or of RED, which returns nothing. -/
def atomPlan (ι : Iss) (x : FM) (red : Bool) : Plan :=
  let size := accessSize x.ty
  let d := fun l => ι.t.datum x 0 x.d l
  let b := fun l => if x.sub == 7 then ι.t.datum x 2 x.b l else (0, 0)
  { uni := x.dk
    size := size
    write := true
    ord := x.ord
    scope := x.scope
    atomic := true
    records := true
    make := fun m c e pa home => m.rmw c pa size home (atomNew x (d e.lane) (b e.lane))
    frames := fun dst es world ord scope =>
      [atomicFrame dst (lowestAddr es / 128 * 128) world ord scope x.sub.toNat red x.ty (x.sub == 0 && x.b.getLsbD 0)
        (es.map fun (e, a) => atomicLane size (x.sub == 7) (a % 128) (d e.lane) (b e.lane))]
    place := fun es e => size * (es.findIdx fun y => y == e)
    tlp := fun e a secure tag =>
      .hostAtomic tag a x.sub.toNat size (BitVec.ofNat 64 (d e.lane).1) (BitVec.ofNat 64 (b e.lane).1) secure
        ((d e.lane).2 != 0 || (b e.lane).2 != 0)
    answered := true
    poisoned := fun l => (d l).2 != 0 || (b l).2 != 0
    bytes := fun _ => ([], fun _ => false)
    ty := x.ty
    dest := if red then none else some (destOf x)
    flag := ι.flag x.fl
    dests := if red then [] else [destOf x ⟨0, 0, 0, 0, false⟩] }

/-- ATOM (R156, R157). -/
def bodyAtom (x : FM) (m : Mach) (ι : Iss) : Res := (atomPlan ι x false).run m ι x.ak (ι.t.addrLanes x) (acceptAtomic x)
def execAtom (x : FM) (s : State) := issue (.atom x) (bodyAtom x) s
/-- RED (R159). -/
def bodyRed (x : FM) (m : Mach) (ι : Iss) : Res := (atomPlan ι x true).run m ι x.ak (ι.t.addrLanes x) (acceptAtomic x)
def execRed (x : FM) (s : State) := issue (.red x) (bodyRed x) s

/-! ### Scratchpad (R153, R158) -/

/-- The check of one offset: alignment, allocation, window. -/
def spadCheck (g : Option Team) (skew : Option (Option Nat)) (size o : Nat) : Except Fail (Nat → Nat) :=
  if o % size != 0 then .error (3, 0x01, size, 0)
  else match g with
    | some g => g.place skew o size
    | none => .error (5, 0x04, 0, 0)

/-- An access to the team's scratchpad: every element checked, then made in lane order by `make`, which answers the value that the
destination takes. -/
def scratchAccess (x : FM) (dests : List Dest) (writes : Bool) (make : Mach → Nat → Nat → (Nat → Nat) → Datum × Mach) (m : Mach) (ι : Iss) : Res :=
  let size := accessSize x.ty
  let flag := ι.flag x.fl
  if flagFull ι.t flag then .wait m false .cond
  else withAddresses m ι x.ak x.dk (ι.t.offLanes x) fun m ι =>
    let g := m.team ι.t.team
    let els := ι.elements x.dk (ι.t.offLanes x)
    let fails := els.filterMap fun (l, o) => match spadCheck g (if x.sk then some none else none) size o with
      | .error f => some (l, o, f)
      | .ok _ => none
    match failTrap ι x.dk fails with
    | some i => .trap m i
    | none =>
      let pieces := if !writes then [] else els.flatMap fun (_, off) =>
        match spadCheck g (if x.sk then some none else none) size off with
        | .ok f => (List.range ((size + 3) / 4)).map fun i => (Place.spad ι.t.core (f (4 * i)), min 4 size)
        | .error _ => []
      if m.copyAhead ι.tid pieces then .wait m false .cond
      else
      let (op, m) := (m.overtaken ι.tid pieces).fresh
      let (o, m) := els.foldl (fun (acc : PendOp × Mach) (l, off) =>
        match spadCheck g (if x.sk then some none else none) size off with
        | .ok f =>
          let (d, m) := make acc.2 ι.t.core l f
          (if dests.isEmpty then acc.1 else acc.1.land (destOf x ⟨l, 0, 0, 0, false⟩) l d, m)
        | .error _ => acc) (mkOp ι.t op flag dests [], m)
      .done (ι.mod m fun t => t.startOp o)

/-- LDS (R153). -/
def bodyLds (x : FM) (m : Mach) (ι : Iss) : Res :=
  scratchAccess x [destOf x ⟨0, 0, 0, 0, false⟩] false (fun m c _ f => (m.spadGet c f (accessSize x.ty), m)) m ι
def execLds (x : FM) (s : State) := issue (.lds x) (bodyLds x) s
/-- STS (R153). -/
def bodySts (x : FM) (m : Mach) (ι : Iss) : Res :=
  scratchAccess x [] true (fun m c l f => ((0, 0), m.spadPut c f (accessSize x.ty) (ι.t.datum x 0 x.d l))) m ι
def execSts (x : FM) (s : State) := issue (.sts x) (bodySts x) s
/-- ATOMS (R158): one indivisible group. -/
def bodyAtoms (x : FM) (m : Mach) (ι : Iss) : Res :=
  scratchAccess x [destOf x ⟨0, 0, 0, 0, false⟩] true (fun m c l f =>
    let old := m.spadGet c f (accessSize x.ty)
    let b := if x.sub == 7 then ι.t.datum x 2 x.b l else (0, 0)
    (old, m.spadPut c f (accessSize x.ty) (atomNew x (ι.t.datum x 0 x.d l) b old))) m ι
def execAtoms (x : FM) (s : State) := issue (.atoms x) (bodyAtoms x) s

/-! ### The near map (R154, R302) -/

/-- The check of a near address; LDN of accumulators takes three types only. -/
def nearCheck (m : Mach) (ι : Iss) (x : FM) (store : Bool) (a : Nat) : Option Fail :=
  let size := accessSize x.ty
  if a % size != 0 then some (3, 0x01, size, 0)
  else if m.nearFault ι.t.core ι.t.ctx store a size then some (5, 0x05, 0, 0)
  else none

/-- An access to the near map. -/
def nearAccess (x : FM) (store : Bool) (m : Mach) (ι : Iss) : Res :=
  let size := accessSize x.ty
  let flag := ι.flag x.fl
  let addrs := ι.t.addrLanes x
  if flagFull ι.t flag then .wait m false .cond
  else withAddresses m ι x.ak x.dk addrs fun m ι =>
    let els := ι.elements x.dk addrs
    let tiles := els.filter fun (_, a) => a / 2 ^ 20 % 2 == 1 && a < 2 ^ 23
    if !store && !tiles.isEmpty && !([Ty.b32, .b64, .b128].contains x.ty) then .trap m (illopTrap ι.s (fault0 0x09 20))
    else
      match failTrap ι x.dk (els.filterMap fun (l, a) => (nearCheck m ι x store a).map fun f => (l, a, f)) with
      | some i => .trap m i
      | none =>
        let rel := x.ord == .rel
        let pieces := if !store then [] else els.map fun (_, a) => (Place.spad (memberCore ι.t.core (a / 2 ^ 21 % 4)) (a % 2 ^ 20), size)
        if (rel && !m.performed ι.tid false) || (store && m.countedLeft ι.tid) || m.copyAhead ι.tid pieces then .wait m false .cond
        else
          let m := m.overtaken ι.tid pieces
          -- STN.rel.die: raise the generation and complete the write-back before the store (R302)
          let m := if rel then
              let m := m.bump ι.t.core .die
              m.writeback ι.t.core (m.core ι.t.core).xrgen
            else m
          let (op, m) := m.fresh
          let dests := if store then [] else [destOf x ⟨0, 0, 0, 0, false⟩]
          let (o, m) := els.foldl (fun (acc : PendOp × Mach) (l, a) =>
            let (o, m) := acc
            let c := memberCore ι.t.core (a / 2 ^ 21 % 4)
            let f := fun i => a % 2 ^ 20 + i
            if store then (o, m.spadPut c f size (ι.t.datum x 0 x.d l))
            else
              let d := if a / 2 ^ 20 % 2 == 1 then m.nearTile ι.t.core ι.t.ctx a size else m.spadGet c f size
              (o.land (destOf x ⟨l, 0, 0, 0, false⟩) l d, m)) (mkOp ι.t op flag dests [], m)
          -- LDN.acq.die: self-invalidate after the load
          let m := if x.ord == .acq then m.selfInvalidate ι.t.core else m
          .done (ι.mod m fun t => (if x.ord == .acq then t.unsee else t).startOp o)

/-- LDN (R154). -/
def bodyLdn (x : FM) (m : Mach) (ι : Iss) : Res := nearAccess x false m ι
def execLdn (x : FM) (s : State) := issue (.ldn x) (bodyLdn x) s
/-- STN (R154). -/
def bodyStn (x : FM) (m : Mach) (ι : Iss) : Res := nearAccess x true m ι
def execStn (x : FM) (s : State) := issue (.stn x) (bodyStn x) s

/-- The addresses of the four sectors of a line (R287). -/
def lineSectors (pa : Nat) : List Nat := (List.range 4).map fun i => 128 * lineOf pa + 32 * i

/-- PREF (R155): the whole line; never faults or waits; a lane that fails a check, or whose page is in no TLB, is dropped. -/
def execPref (x : FM) (s : State) := issue (.pref x) (fun m ι =>
  let addrs := ι.t.addrLanes x
  .done ((lanesOf ι.k).foldl (fun m l =>
    let (a, poi) := laneAt addrs l
    if poi then m
    else match m.xlate ι.t.core ι.t.ctx a .load [] with
      | (.ok pa attr _, m) =>
        if regionOf pa != .loc || attr != 0 then m
        else if x.sub == 1 then (lineSectors pa).foldl Mach.touch m
        else if (m.race ι.t.core pa false false).isSome then m
        else (lineSectors pa).foldl (fun m a =>
          if (m.l1 ι.t.core a).isSome || (m.race ι.t.core a false false).isSome then m else m.fill ι.t.core a) m
      | (_, m) => m) m)) s

end Sys2Proof.Machine
end

