-- ==== Sys2Proof/Machine/Order.lean ====
section
/-! DEFINITION. FENCE, MWAIT, SEAL and UNSEAL (R160 to R163), SVC, ERET and TLBI (R176, R177, R179), and the wait on an object in memory that MWAIT, JOINF and SGWAIT make (R161, R196, R200, R382). -/

namespace Sys2Proof.Machine

/-- A trap of a uniform form: every lane of xact (R129). -/
def Iss.uniTrap (ι : Iss) (cause reason detail : Nat) (addr : Nat) : TrapInfo :=
  mkTrap cause ι.s.xact reason detail (BitVec.ofNat 64 addr) 0

/-! ### FENCE (R160) -/

/-- The acquire of every record the task has seen: the machine, or the scope that refuses one. -/
def Mach.acquireSeen (m : Mach) (t : Task) (s : Scope) : Except Scope Mach :=
  match t.seen.findSome? fun r => refusedBy t.core (some r) with
  | some x => .error x
  | none =>
    let m := t.seen.foldl (fun m r => m.acquireWriteback t.core s (some r)) m
    let m := if t.seenMore then
        m.cores.foldl (fun m (c, _) => if c != t.core && inScope s t.core c then m.writebackAll c else m) m
      else m
    .ok (m.selfInvalidate t.core)

/-- FENCE (R160): any FENCE ends the window of an earlier one. -/
def bodyFence (x : FM) (m : Mach) (ι : Iss) : Res :=
  match m.task ι.tid with
  | none => .moved m
  | some t =>
    let rel := x.ord == .rel || x.ord == .ar || x.ord == .sc
    let acq := x.ord == .acq || x.ord == .ar || x.ord == .sc
    -- only an acquire can still trap (R169)
    let passed := !acq || x.scope == .team
    if (rel || x.scope == .team) && !m.performed ι.tid false then .wait m passed .cond
    else if !t.storesDone then .wait m passed .cond
    else if x.scope == .team then .done (ι.mod m fun t => { t with window := none })
    else
      let m' := if rel then m.bump t.core x.scope else m
      let m' := ι.mod m' fun t => { t with window := if rel then some x.scope else none }
      if acq then
        match m'.acquireSeen t x.scope with
        | .error s => .trap m (ι.uniTrap 7 1 (scopeNat s) 0)
        | .ok m' => .done (ι.mod m' Task.unsee)
      else .done m'
def execFence (x : FM) (s : State) := issue (.fence x) (bodyFence x) s

/-! ### Waiting on an object (R161, R196, R200, R382) -/

/-- A read of an object by a waiting core: its own dirty copy, else the home slice. -/
def Mach.peek (m : Mach) (c pa n : Nat) : Datum :=
  match m.l1 c pa with
  | some s => (match s.state with
    | .dirty _ => s.load pa n
    | _ => m.mem.load pa n)
  | none => m.mem.load pa n

/-- What a wait names: the WAITREG type and condition, the value compared with, whether the satisfying read acquires and at which
scope, and the condition. -/
structure WaitOn where
  kind : Nat
  cond : Nat
  value : Word
  acquire : Bool
  scope : Scope
  size : Nat
  align : Nat
  holds : Datum → Bool

/-- Objects of the host region are not accepted (R357). -/
def acceptObject : Accepts := fun r _ => r != .host

/-- Objects of ordered and loose pages are not accepted by operations that write them (R390; DEDUCED, log 20). -/
def acceptUpdate : Accepts := fun r attr => r != .host && attr ≤ 1

/-- A task that waits on a future is listed, and the LINK word holds what the spec gives no meaning to (R195, R314; DESIGN CHOICE, log 9). -/
def Mach.link (m : Mach) (ι : Iss) (pa : Nat) : Mach :=
  if m.links.any fun l => l.pa == pa && l.tid == ι.tid && l.e == ι.e then m
  else
    let (k, m) := m.fresh
    { m with links := m.links ++ [Link.mk pa ι.tid ι.e none] }.setLink pa ((Config.freeWord (2 ^ 103 + k)).toNat)

/-- The future that a wait has caught (R199). -/
def Mach.caught (m : Mach) (ι : Iss) (pa : Nat) : Option Datum :=
  (m.links.find? fun l => l.pa == pa && l.tid == ι.tid && l.e == ι.e).bind (·.got)

/-- Wait on a local object: a record that the satisfying read would acquire is written back before the race check (R293). A JOINF returns
the future as the first update that satisfied it left it (R199). -/
def waitLocal (w : WaitOn) (m : Mach) (ι : Iss) (e : Elt) (pa : Nat) (go : Mach → Iss → Datum → Bool → Res) : Res :=
  let c := ι.t.core
  let rec' := tabGet m.record (lineOf pa)
  let acq := w.acquire && w.scope != .team
  let m1 := if acq && (refusedBy c rec').isNone then m.acquireWriteback c w.scope rec' else m
  let caught := if w.kind == 0 then m.caught ι pa else none
  let d := caught.getD (m1.peek c pa w.size)
  match (if caught.isSome then none else m1.race c pa false true) with
  | some h =>
    -- the scope check of a satisfying read comes first
    match (if acq && w.holds d then refusedBy c rec' else none) with
    | some s => .trap m (ι.uniTrap 7 1 (scopeNat s) e.va)
    | none => .trap m ⟨6, synOf ι.s.xact 1 0 (dieOf h + 8 * logicalOf h), BitVec.ofNat 64 e.va, 0, none⟩
  | none =>
    -- a poisoned stamp or signal is consumed before the acquire (R134, R161)
    if w.kind != 0 && d.2 != 0 then go m ι d false
    else if w.holds d then
      match (if acq then refusedBy c rec' else none) with
      | some s => .trap m (ι.uniTrap 7 1 (scopeNat s) e.va)
      | none =>
        let m := if acq then m1.acquire c w.scope rec' else m1
        let m := m.unlinkWhere fun l => l.pa == pa && l.tid == ι.tid && l.e == ι.e
        let (_, _, m) := m.readHome c pa w.size
        go (if acq then ι.mod m Task.unsee else m) ι d false
    else .wait (if w.kind == 0 then m.link ι pa else m) true .cond

/-- Wait on an object of another device by a WAITREG frame (R382). -/
def waitRemote (w : WaitOn) (m : Mach) (ι : Iss) (e : Elt) (dev addr : Nat) (go : Mach → Iss → Datum → Bool → Res) : Res :=
  match m.keptOf ι with
  | [] =>
    .wait (m.request (.kept ι.tid ι.t.free []) ι.t.ctx (withPayload { blankFrame 0x05 dev addr e.secure with
      ord := if w.acquire then 1 else 0, scope := if w.acquire then scopeCode w.scope else 0
      oparg := BitVec.ofNat 64 (w.kind + 4 * w.cond) } (toBytes 8 w.value.toNat) fun _ => false)).2 true .cond
  | (_, r) :: _ => match r.answer with
    | none => .wait m true .cond
    | some a =>
      let m := m.dropKept ι
      let acq := w.acquire && w.scope != .team && !(w.kind != 0 && (a.datum 0 w.size).2 != 0)
      match (if acq then answerRefuses a else none) with
      | some s => .trap m (ι.uniTrap 7 1 (scopeNat s) e.va)
      | none =>
        let m := if acq then (ι.mod m Task.unsee).selfInvalidate ι.t.core else m
        go m ι (a.datum 0 w.size) a.nack.isSome

/-- The checks and the wait of a uniform form on an object at sA + OFF (R185): the operands are consumed by `operands` first. -/
def waitObject (w : WaitOn) (x : FM) (m : Mach) (ι : Iss) (operands : (Mach → Iss → Res) → Mach → Iss → Res)
    (go : Mach → Iss → Datum → Bool → Res) : Res :=
  withAddresses m ι true true (sameLanes (ι.t.addrUni x)) (operands fun m ι =>
    withPlaces m ι true w.align .load acceptObject [(0, (ι.t.addrUni x).1)] fun m ι es =>
      withSpots m ι false es fun m ι ss => match ss with
        | (e, .here pa) :: _ => waitLocal w m ι e pa go
        | (e, .away d a) :: _ => waitRemote w m ι e d a go
        | _ => .wait m false .cond)

/-- The signed difference or the inequality that MWAIT waits for (R161). -/
def stampHolds (sub : Nat) (want : Word) (d : Datum) : Bool :=
  d.2 != 0 || (if sub == 0 then 0 ≤ (BitVec.ofNat 64 d.1 - want).toInt else BitVec.ofNat 64 d.1 != want)

/-- MWAIT (R161). -/
def bodyMwait (x : FM) (m : Mach) (ι : Iss) : Res :=
  let b := ι.t.uniOpnd 2 x.b.toNat 64
  let w : WaitOn := ⟨2, x.sub.toNat, BitVec.ofNat 64 b.1, x.ord == .acq, x.scope, 8, 8, stampHolds x.sub.toNat (BitVec.ofNat 64 b.1)⟩
  waitObject w x m ι (fun go m ι => consumeUni m ι b.2 0x07 0 0 0 go) fun m ι d nacked =>
    if nacked then .done m
    else consumeUni m ι (d.2 != 0) 0x06 0 (BitVec.ofNat 64 (ι.t.addrUni x).1) 0 fun m _ => .done m
def execMwait (x : FM) (s : State) := issue (.mwait x) (bodyMwait x) s

/-! ### SEAL and UNSEAL (R162, R163) -/

/-- The addresses at which a range of bytes enters a page, with its first byte. -/
def pageStarts (a n : Nat) : List Nat :=
  if n == 0 then [] else (List.range ((a + n - 1) / 65536 - a / 65536 + 1)).map fun i => if i == 0 then a else (a / 65536 + i) * 65536

/-- The physical pieces of a range from the places of its pages. -/
def piecesOf (a n : Nat) (places : List (Nat × Nat)) : List (Nat × Nat) :=
  (pageStarts a n).filterMap fun p => (places.find? fun q => q.1 == p).map fun q => (q.2, min (a + n) ((p / 65536 + 1) * 65536) - p)

/-- Whether two lists of pieces share a byte. -/
def piecesMeet (a b : List (Nat × Nat)) : Bool := a.any fun (x, n) => b.any fun (y, k) => x < y + k && y < x + n

/-- Whether a sector lies in pieces. -/
def inPieces (ps : List (Nat × Nat)) (a n : Nat) : Bool := ps.any fun (b, k) => a < b + k && b < a + n

/-- The operands of SEAL and UNSEAL, their alignment, translation and region (R185, R357). -/
def sealOperands (x : FM) (m : Mach) (ι : Iss) (go : Mach → Iss → Nat → Nat → List (Nat × Nat) → Res) : Res :=
  let a := ι.t.uniOpnd 1 x.a.toNat 64
  let b := ι.t.uniOpnd 2 x.b.toNat 64
  consumeUni m ι a.2 0x01 0 (BitVec.ofNat 64 a.1) 0 fun m ι =>
    consumeUni m ι b.2 0x07 0 0 0 fun m ι =>
      if a.1 % 128 != 0 || b.1 % 128 != 0 || b.1 < 128 || 2 ^ 32 < b.1 then .trap m (ι.uniTrap 3 3 0 a.1)
      else withPlaces m ι true 1 .load (fun r attr => r == .loc && attr == 0) ((pageStarts a.1 b.1).map fun p => (0, p)) fun m ι es =>
        go m ι a.1 b.1 (piecesOf a.1 b.1 (es.map fun e => (e.va, e.pa)))

/-- SEAL (R162). -/
def bodySeal (x : FM) (m : Mach) (ι : Iss) : Res := sealOperands x m ι fun m ι a n pieces =>
  let c := ι.t.core
  match m.holder.find? fun (s, h) => h != c && inPieces pieces (32 * s) 32 with
  | some (s, h) =>
    let _ := s
    .trap m ⟨6, synOf ι.s.xact 1 0 (dieOf h + 8 * logicalOf h), BitVec.ofNat 64 a, 0, none⟩
  | none =>
    let mine := m.seals.filter fun (_, s) => s.ctx == ι.t.ctx
    if 256 ≤ mine.length || mine.any fun (_, s) => piecesMeet s.pieces pieces then .trap m (ι.uniTrap 5 6 0 a)
    else
      let m := m.flushWhere c fun s _ => inPieces pieces (32 * s) 32
      let (id, m) := m.fresh
      let m := pieces.foldl (fun m (b, k) => (List.range (k / 32)).foldl (fun m i => m.touch (b + 32 * i)) m) m
      .done { m with seals := tabSet m.seals id ⟨ι.t.ctx, BitVec.ofNat 64 a, n, pieces, 0⟩ }
def execSeal (x : FM) (s : State) := issue (.seal x) (bodySeal x) s

/-- UNSEAL (R163). -/
def bodyUnseal (x : FM) (m : Mach) (ι : Iss) : Res := sealOperands x m ι fun m ι a n _ =>
  match m.seals.find? fun (_, s) => s.ctx == ι.t.ctx && s.va.toNat == a && s.len == n with
  | none => .trap m (ι.uniTrap 5 7 0 a)
  | some (id, s) =>
    if s.readers != 0 then .wait m true .cond
    else
      let m := m.dropEverywhere fun k => inPieces s.pieces (32 * k) 32
      .done { m with seals := tabErase m.seals id }
def execUnseal (x : FM) (s : State) := issue (.unseal x) (bodyUnseal x) s

/-! ### System instructions -/

/-- TLBI (R179). -/
def bodyTlbi (x : FM) (m : Mach) (ι : Iss) : Res :=
  let a := ι.t.uniOpnd 1 x.a.toNat 64
  let b := ι.t.uniOpnd 2 x.b.toNat 64
  consumeUni m ι (x.sub == 0 && a.2) 0x01 0 (BitVec.ofNat 64 a.1) 0 fun m ι =>
    consumeUni m ι b.2 0x07 0 0 0 fun m ι =>
      let ctx := b.1 % 2 ^ 16
      let world := b.1 / 2 ^ 16 % 2 == 1
      let m := m.dropTlb ι.t.core x.scope fun e => !tlbiMatches x.sub.toNat ctx a.1 world e
      if m.walkInTheWay ι.t.core x.scope x.sub.toNat ctx a.1 world then .wait m true .cond else .done m
def execTlbi (x : FM) (s : State) := issue (.tlbi x) (bodyTlbi x) s

/-- The sizes of the ten sections of a task's save frame, each padded to 64 bytes (R272). `team`: it holds a TEAM section with so many
bytes of scratchpad. -/
def Task.frameSizes (t : Task) (team : Option Nat) : List Nat :=
  let splits := (t.splits.filter Option.isSome).length + t.stack.length
  let joins := 8 * 16 + ((List.range 8).map fun j => 8 * (t.join j).arrivals.length).foldl (· + ·) 0
  let tags := (List.range (8 * t.vblk)).map fun r => (t.vRaw r).tag
  let vec := (tags.map fun g => if g == 0 then 4 else if g == 1 then 8 else 128).foldl (· + ·) 0
  let bits := (tags.map fun g => if g == 2 then 32 else 1).foldl (· + ·) 0
  let tiles := if t.acore then 256 else 8 * t.ablk
  [64 * t.sblk + 16, 48 + 48, 1024 + 32, 32 * splits, joins, 64, vec, (bits + 7) / 8, tiles * 4096 + tiles * 128,
   (match team with
    | some n => 832 + n
    | none => 0)].map fun n => roundUpTo n 64

/-- The size of a task's save frame (R269 to R272): the header and the sections. -/
def Task.frameBytes (t : Task) (team : Option Nat) : Nat := 256 + (t.frameSizes team).foldl (· + ·) 0

/-- The size of a context's save frames (R247). -/
def Ctx.frameSize (c : Ctx) : Nat := 65536 * fieldOf (c.word 4) 24 8

/-- Whether a task is the only resident member of its team. -/
def Mach.onlyMember (m : Mach) (tid : Nat) (t : Task) : Bool :=
  !m.tasks.any fun (n, o) => n != tid && o.team == t.team && o.state != .retired

/-- SVC (R176, R269): the task parks at the PARK event; a frame that would be too long traps. -/
def bodySvc (_ : FC) (m : Mach) (ι : Iss) : Res :=
  let team := if m.onlyMember ι.tid ι.t then (m.team ι.t.team).map (·.spadLen) else none
  match m.ctx ι.t.ctx with
  | some c =>
    if c.frameSize < ι.t.frameBytes team then .trap m (mkTrap 0x0C ι.s.xact 0x04 0 0 0)
    else .wait m true .service
  | none => .wait m true .service
def execSvc (x : FC) (s : State) := issue (.svc x) (bodySvc x) s

/-- ERET (R177): the frame of a task parked by SVC and not yet named becomes resumable; pinned while its team is resident. -/
def execEret (x : FC) (s : State) := issue (.eret x) (fun m ι =>
  let a := ι.t.uniOpnd 4 x.reg.toNat 64
  consumeUni m ι a.2 0x07 0 0 0 fun m ι =>
    match m.ctxs.findSome? fun (n, c) => (c.parked.find? fun p => p.frame == a.1 && p.kind == 2 && !p.ready).map fun p => (n, p) with
    | none => .trap m (ι.uniTrap 5 8 0 a.1)
    | some (n, p) =>
      let pin := m.tasks.any fun (_, o) => o.team == p.team && o.state != .retired
      ι.jump (m.modCtx n fun c => { c with parked := c.parked.map fun q => if q == p then { q with ready := true, pin := pin } else q })
        ι.next 1) s

end Sys2Proof.Machine
end

