-- ==== Sys2Proof/Machine/Work.lean ====
section
/-! DEFINITION. Closures and entries (R186, R248, R249), inboxes and overflow (R250, R251), deques (R252), the synchronisation of a take (R260), tiles (R261, R262), barrier words (R210, R212, R213), and the end of a team (R190). -/

namespace Sys2Proof.Machine

/-! ### Contexts, dies and cores -/

/-- The context resident on a die (R340). -/
def Mach.ctxOn (m : Mach) (die : Nat) : Option Nat := (m.ctxs.find? fun (_, c) => c.resident && c.dies.contains die).map (·.1)

/-- The logical number of a die in a context's placement (R261, R340). -/
def Ctx.logicalDie (c : Ctx) (die : Nat) : Nat := c.dies.idxOf die

/-- DQCFG (R247). -/
def Ctx.ovfBlk (c : Ctx) : Nat := fieldOf (c.word 4) 40 8
def Ctx.inboxLg (c : Ctx) : Nat := fieldOf (c.word 4) 32 5
def Ctx.spadUnits (c : Ctx) : Nat := fieldOf (c.word 4) 8 8
/-- LTHR.DEPTH, where 0 acts as 1; LWAIT.CYCLES; LAGE.CYCLES; SQCFG (R247). -/
def Ctx.lthr (c : Ctx) : Nat := max 1 (fieldOf (c.word 1) 0 20)
def Ctx.lwait (c : Ctx) : Nat := fieldOf (c.word 2) 0 24
def Ctx.lage (c : Ctx) : Nat := fieldOf (c.word 3) 0 40
def Ctx.inflMax (c : Ctx) : Nat := fieldOf (c.word 5) 16 16
def Ctx.qMax (c : Ctx) : Nat := fieldOf (c.word 5) 0 9

/-- The distance of two dies (R249). -/
def dieDistance (a b : Nat) : Nat := (max (a % 4) (b % 4) - min (a % 4) (b % 4)) + (max (a / 4) (b / 4) - min (a / 4) (b / 4))

/-- The nearest of some dies, the lower number on a tie. -/
def nearestDie (a : Nat) (ds : List Nat) : Option Nat :=
  ds.find? fun d => ds.all fun e => dieDistance a d < dieDistance a e || (dieDistance a d == dieDistance a e && d ≤ e)

/-! ### Entries (R186, R248) -/

def Entry.word (e : Entry) (i : Nat) : Word := e.img.getD i 0
/-- Whether a word of an image is poisoned. -/
def Entry.wordPoi (e : Entry) (i : Nat) : Bool := e.poi.getLsbD (2 * i) || e.poi.getLsbD (2 * i + 1)
/-- A resume entry has bit 0 of its future word set (R248). -/
def Entry.isResume (e : Entry) : Bool := (e.word 1).getLsbD 0
def Entry.frame (e : Entry) : Nat := (e.word 1).toNat - 1
/-- Closure header fields (R186). -/
def Entry.aff (e : Entry) : Nat := if e.isResume then 0 else fieldOf (e.word 0) 56 8
def Entry.teamSize (e : Entry) : Nat := fieldOf (e.word 0) 52 4 + 1
def Entry.prio (e : Entry) : Nat := fieldOf (e.word 0) 50 2
def Entry.lanekill (e : Entry) : Bool := fieldOf (e.word 0) 49 1 == 1
def Entry.idem (e : Entry) : Bool := fieldOf (e.word 0) 48 1 == 1
def Entry.entryPc (e : Entry) : Nat := fieldOf (e.word 0) 0 48
def Entry.future (e : Entry) : Word := e.word 1

/-- Whether AFF permits a die; an AFF that names no die of the placement acts as 0 (R249). -/
def Ctx.permits (c : Ctx) (e : Entry) (die : Nat) : Bool :=
  !(c.dies.any fun d => e.aff.testBit d) || e.aff.testBit die

/-- A resume entry (R248, R249). -/
def resumeEntry (frame : Nat) (clk : Word) (core : Nat) (gen : BitVec 16) (pin : Bool) : Entry :=
  ⟨[0, BitVec.ofNat 64 (frame + 1), 0, 0, 0, 0, 0, 0, 0, 0, 0, 0, 0, 0, 0, 0], 0, clk, false, 0, gen, false, pin, core, false⟩

/-- Word +8 of a side record (R248). -/
def Entry.side (e : Entry) : Word :=
  BitVec.ofNat 64 ((if e.lv then 2 ^ 38 else 0) + 2 ^ 32 * e.lrec + 2 ^ 16 * e.gen.toNat + (if e.null then 2 ^ 15 else 0) +
    (if e.pin then 2 ^ 14 else 0) + 2 ^ 11 * dieOf e.who + 2 ^ 4 * logicalOf e.who)

/-- Write an image and its side record at two addresses, poison included (R402). -/
def Mach.writeEntry (m : Mach) (img side : Nat) (e : Entry) : Mach :=
  let mem := (List.range 16).foldl (fun (mem : Memory) i =>
    mem.store (img + 8 * i) (toBytes 8 (e.word i).toNat) fun w => e.poi.getLsbD (2 * i + w)) m.mem
  { m with mem := mem.store side (toBytes 8 e.pushck.toNat ++ toBytes 8 e.side.toNat) fun _ => e.sidePoi }

/-- Read an image and its side record back. -/
def Mach.readEntry (m : Mach) (img side : Nat) : Entry :=
  let s := (m.mem.word64 (side + 8)).1
  ⟨(List.range 16).map fun i => (m.mem.word64 (img + 8 * i)).1, BitVec.ofNat 32 (m.mem.poisonBits img 128),
   (m.mem.word64 side).1, fieldOf s 38 1 == 1, fieldOf s 32 6, s.extractLsb' 16 16, fieldOf s 15 1 == 1, fieldOf s 14 1 == 1,
   coreNo (fieldOf s 11 3) (fieldOf s 4 7), m.mem.anyPoison side 16⟩

/-! ### Deques and overflow (R251, R252): the coldest entry first -/

/-- The address of spill block k of a core. -/
def Ctx.ovfBlock (c : Ctx) (core k : Nat) : Nat :=
  (c.word 9).toNat + ((72 * c.logicalDie (dieOf core) + logicalOf core) * c.ovfBlk + k) * 36864

/-- Whether a push onto a core's deque can be made. -/
def Mach.dequeRoom (m : Mach) (core ctx : Nat) : Bool :=
  (m.core core).deque.length < 512 || match m.ctx ctx with
    | some c => (m.core core).overflow < c.ovfBlk
    | none => false

/-- Spill the 256 coldest entries as a new top block. -/
def Mach.spill (m : Mach) (core ctx : Nat) : Mach :=
  match m.ctx ctx with
  | none => m
  | some c =>
    let k := m.core core
    let base := c.ovfBlock core k.overflow
    let m := (k.deque.take 256).zipIdx.foldl (fun m (e, i) => m.writeEntry (base + 128 * i) (base + 0x8000 + 16 * i) e) m
    m.setCore core { m.core core with deque := k.deque.drop 256, overflow := k.overflow + 1 }

/-- Push onto the hot end, with a spill when the deque holds 512. -/
def Mach.pushDeque (m : Mach) (core ctx : Nat) (e : Entry) : Mach :=
  let m := if 512 ≤ (m.core core).deque.length then m.spill core ctx else m
  m.modCore core fun k => { k with deque := k.deque ++ [e] }

/-- Push, or hold the entry at the core until there is room (R251); `back`: it is pushed back or discarded. -/
def Mach.pushOrHold (m : Mach) (core ctx : Nat) (back : Bool) (e : Entry) : Mach :=
  if m.dequeRoom core ctx && (m.core core).pushing.isEmpty then m.pushDeque core ctx e
  else m.modCore core fun k => { k with pushing := k.pushing ++ [(back, e)] }

/-- Push what is held, as room appears. -/
def Mach.drainPushing (m : Mach) (core ctx : Nat) : Mach :=
  match (m.core core).pushing with
  | [] => m
  | (_, e) :: rest => if m.dequeRoom core ctx then (m.modCore core fun k => { k with pushing := rest }).pushDeque core ctx e else m

/-! ### Inboxes (R250) -/

/-- The addresses of the image and side record of ring position i of a die's inbox. -/
def Ctx.inboxSlot (c : Ctx) (die i : Nat) : Nat × Nat :=
  let n := 2 ^ c.inboxLg
  let base := (c.word 8).toNat + c.logicalDie die * 144 * n
  (base + 128 * (i % n), base + 128 * n + 16 * (i % n))

def Mach.inboxCount (m : Mach) (die ctx : Nat) : Nat := tabGetD (m.die die).inboxCount ctx 0
def Mach.inboxHead (m : Mach) (die ctx : Nat) : Nat := tabGetD (m.die die).inboxHead ctx 0
def Mach.inboxFull (m : Mach) (die ctx : Nat) : Bool := match m.ctx ctx with
  | some c => 2 ^ c.inboxLg ≤ m.inboxCount die ctx
  | none => true

/-- Place an entry at the tail of an inbox. -/
def Mach.inboxPush (m : Mach) (die ctx : Nat) (e : Entry) : Mach :=
  match m.ctx ctx with
  | none => m
  | some c =>
    let n := m.inboxCount die ctx
    let (img, side) := c.inboxSlot die (m.inboxHead die ctx + n)
    (m.writeEntry img side e).modDie die fun d => { d with inboxCount := tabSet d.inboxCount ctx (n + 1) }

/-- The entry at position i from the head of an inbox. -/
def Mach.inboxAt (m : Mach) (die ctx i : Nat) : Option Entry :=
  match m.ctx ctx with
  | none => none
  | some c =>
    if i < m.inboxCount die ctx then
      let (img, side) := c.inboxSlot die (m.inboxHead die ctx + i)
      some (m.readEntry img side)
    else none

/-- Take the head of an inbox. -/
def Mach.inboxPop (m : Mach) (die ctx : Nat) : Mach := m.modDie die fun d =>
  { d with inboxHead := tabSet d.inboxHead ctx (tabGetD d.inboxHead ctx 0 + 1),
           inboxCount := tabSet d.inboxCount ctx (tabGetD d.inboxCount ctx 0 - 1) }

/-- An entry is aged (R247). -/
def Mach.aged (m : Mach) (c : Ctx) (e : Entry) : Bool := c.lage < (m.xclk - e.pushck).toNat

/-! ### What a die holds (R250, R257, R353) -/

/-- The entries of a core's overflow segment, the coldest first. -/
def Mach.overflowEntries (m : Mach) (c : Ctx) (core : Nat) : List Entry :=
  (List.range (m.core core).overflow).flatMap fun k =>
    (List.range 256).map fun i => m.readEntry (c.ovfBlock core k + 128 * i) (c.ovfBlock core k + 0x8000 + 16 * i)

/-- The entry at the head of a die's inbox, where its image lies, and whether it comes from an attached carry list (R353). -/
def Mach.inboxNext (m : Mach) (c : Ctx) (ctx die : Nat) : Option (Entry × Nat × Bool) :=
  match tabGetD c.carry die [] with
  | (img, side, e) :: _ => some (e.getD (m.readEntry img side), img, true)
  | [] => (m.inboxAt die ctx 0).map fun e => (e, (c.inboxSlot die (m.inboxHead die ctx)).1, false)

/-- Take the entry at the head of a die's inbox. -/
def Mach.inboxTake (m : Mach) (ctx die : Nat) (carried : Bool) : Mach :=
  if carried then m.modCtx ctx fun c => { c with carry := tabMod c.carry die (·.drop 1) } else m.inboxPop die ctx

/-- Every entry that a die holds for a context: deques, overflow segments, carry lists and inbox. -/
def Mach.dieEntries (m : Mach) (c : Ctx) (ctx die : Nat) : List Entry :=
  ((List.range m.logCores).flatMap fun l => m.overflowEntries c (coreNo die l) ++ (m.core (coreNo die l)).deque) ++
  ((tabGetD c.carry die []).map fun (img, side, e) => e.getD (m.readEntry img side)) ++
  ((List.range (m.inboxCount die ctx)).filterMap fun i => m.inboxAt die ctx i)

/-! ### What a take acquires (R260, R408) -/

/-- The cores of a context's placement. -/
def Mach.placementCores (m : Mach) (c : Ctx) : List Nat := c.dies.flatMap fun d => (List.range m.logCores).map fun l => coreNo d l

/-- The acquire of a side record or RELEASE word by a core; a poisoned one acts as if it named every core. -/
def Mach.acquireEntry (m : Mach) (core ctx : Nat) (e : Entry) : Mach :=
  if e.sidePoi then
    match m.ctx ctx with
    | some c => ((m.placementCores c).foldl (fun m k => m.writebackAll k) m).selfInvalidate core
    | none => m.selfInvalidate core
  else if e.null then m.selfInvalidate core
  else if e.who == core then m
  else (m.writeback e.who e.gen).selfInvalidate core

/-! ### The tile dispenser (R261 to R263) -/

/-- A tile's hash (R261). -/
def Tiles.hash (t : Tiles) (i : Nat) : Nat :=
  (i % t.nx) * t.ax + (i / t.nx % t.ny) * t.ay + (i / t.nx / t.ny) * t.az
def Tiles.dieOf (t : Tiles) (d i : Nat) : Nat := t.hash i / 2 ^ t.sh % d
def Tiles.sliceOf (t : Tiles) (i : Nat) : Nat := t.hash i / 2 ^ (t.sh + 3) % 32

/-- A tile in the layout of xtile (R38). -/
def Tiles.word (t : Tiles) (i : Nat) : Word :=
  BitVec.ofNat 64 (2 ^ 63 + 2 ^ 32 * (i / t.nx / t.ny) + 2 ^ 16 * (i / t.nx % t.ny) + i % t.nx)

/-- The tiles of a sub-queue in order: tiles issued again first, then ascending i. -/
def Tiles.queueOf (t : Tiles) (d die slice : Nat) : List Nat :=
  (t.reissued ++ t.undrawn).filter fun i => t.dieOf d i == die && t.sliceOf i == slice

/-- The fullest sub-queue of a die, the lower slice on a tie; none when the die holds no tile. -/
def Tiles.fullest (t : Tiles) (d die : Nat) : Option Nat :=
  let n := fun s => (t.queueOf d die s).length
  (List.range 32).find? fun s => n s != 0 && (List.range 32).all fun r => n r < n s || (n r == n s && s ≤ r)

/-- The highest of some numbers. -/
def highest : List Nat → Option Nat
  | [] => none
  | i :: l => some (l.foldl max i)

/-- The tile that a team of a core draws (R262). `published`: TILES of every logical die. -/
def Tiles.draw (t : Tiles) (d die core lthr : Nat) (published : List Nat) (dist : Nat → Nat) : Option Nat :=
  match t.queueOf d die (core % 32) with
  | i :: _ => some i
  | [] =>
    match t.fullest d die with
    | some s => (t.queueOf d die s).head?
    | none =>
      let best := (List.range d).find? fun v => v != die && lthr ≤ published.getD v 0 && (List.range d).all fun w =>
        w == die || published.getD w 0 < published.getD v 0 ||
        (published.getD w 0 == published.getD v 0 && (dist v < dist w || (dist v == dist w && v ≤ w)))
      match best with
      | none => none
      | some v => (t.fullest d v).bind fun s => highest (t.queueOf d v s)

/-- A tile has been drawn. -/
def Tiles.take (t : Tiles) (i : Nat) : Tiles :=
  if t.reissued.contains i then { t with reissued := t.reissued.erase i, inFlight := t.inFlight ++ [i] }
  else { t with undrawn := t.undrawn.erase i, inFlight := t.inFlight ++ [i] }

def Mach.modLaunch (m : Mach) (ctx n : Nat) (f : Launch → Launch) : Mach := m.modCtx ctx fun c => { c with launches := tabMod c.launches n f }

/-- The address of a launch record. -/
def Ctx.launchAddr (c : Ctx) (n : Nat) : Nat := (c.word 14).toNat + 65536 * n

/-- Write TEAMS, INFL and REISS of a launch record. -/
def Mach.noteLaunch (m : Mach) (ctx n : Nat) : Mach :=
  match m.ctx ctx with
  | none => m
  | some c => match tabGet c.launches n with
    | none => m
    | some l =>
      let a := c.launchAddr n
      let infl := (l.tiles.map fun t => t.inFlight.length).getD 0
      let reiss := (l.tiles.map fun t => t.reissued.length).getD 0
      let mem := (m.mem.setWord64 (a + 40) (BitVec.ofNat 64 l.teams)).setWord64 (a + 48) (BitVec.ofNat 64 infl)
      { m with mem := mem.setWord64 (a + 56) (BitVec.ofNat 64 reiss) }

/-- The linear index of a tile word. -/
def Tiles.index (t : Tiles) (w : Word) : Nat := fieldOf w 0 16 + t.nx * (fieldOf w 16 16 + t.ny * fieldOf w 32 16)

/-- Tiles of a team that every member has finished with, or departed from, are no longer in flight (R194). -/
def Mach.checkTileDone (m : Mach) (team : Nat) : Mach :=
  match m.team team with
  | none => m
  | some g =>
    let (done, rest) := g.tiles.partition fun (_, _, who) => (List.range g.size).all fun i => who.contains i || g.gone.contains i
    let m := m.setTeam team { g with tiles := rest }
    match g.launch with
    | some n => done.foldl (fun m (_, w, _) =>
        if w.getLsbD 63 then
          (m.modLaunch g.ctx n fun l => { l with tiles := l.tiles.map fun t => { t with inFlight := t.inFlight.erase (t.index w) } }).noteLaunch g.ctx n
        else m) m
    | none => m

/-- A task is done with its current tile (R193, R194). -/
def Mach.tileDone (m : Mach) (tid : Nat) : Mach :=
  match m.task tid with
  | none => m
  | some t => (m.modTeam t.team fun g => { g with tiles := g.tiles.map fun (k, w, who) =>
      (k, w, if k ≤ t.fetches then insertNat who t.idx else who) }).checkTileDone t.team

/-! ### Barrier words (R210 to R213) -/

/-- The fields of a barrier word. -/
structure BarWord where
  phase : Bool
  exp : Nat
  pend : Nat
  bytes : Int
deriving DecidableEq, Repr

def BarWord.of (w : Word) : BarWord := ⟨w.getLsbD 63, fieldOf w 58 5, fieldOf w 53 5, sextInt 40 (fieldOf w 0 40)⟩
def BarWord.word (b : BarWord) : Word :=
  BitVec.ofNat 64 ((if b.phase then 2 ^ 63 else 0) + 2 ^ 58 * b.exp + 2 ^ 53 * b.pend + wrapBits 40 b.bytes)

/-- The completion check (R212): the word and whether a phase completed. -/
def BarWord.check (b : BarWord) : BarWord × Bool :=
  if b.pend == 0 && b.bytes == 0 then ({ b with phase := !b.phase, pend := b.exp }, true) else (b, false)

/-- Read a barrier word of a team. -/
def Mach.barWord (m : Mach) (g : Team) (offset : Nat) : Word × Bool := (m.core g.core).spad.word64 (g.spadBase + offset)

/-- Write a barrier word, keeping its poison. -/
def Mach.setBarWord (m : Mach) (g : Team) (offset : Nat) (b : BarWord) : Mach :=
  m.modCore g.core fun c =>
    let a := g.spadBase + offset
    { c with spad := c.spad.store a (toBytes 8 b.word.toNat) fun w => c.spad.poi.contains (a / 4 + w) }

/-- Change a registered word and check it (R212); PHASE as it was at the end of the cycle before is remembered. -/
def Mach.changeBarrier (m : Mach) (team offset : Nat) (f : BarWord → BarWord) (g : Barrier → Barrier) : Mach :=
  match m.team team with
  | none => m
  | some t =>
    let old := BarWord.of (m.barWord t offset).1
    let (b, done) := (f old).check
    (m.setBarWord t offset b).modTeam team fun t => { t with barriers := t.barriers.map fun r =>
      if r.offset == offset then
        let r := g { r with before := match r.before with
          | some (c, p) => if c == m.clk then some (c, p) else some (m.clk, old.phase)
          | none => some (m.clk, old.phase) }
        if done then { r with arrived := 0 } else r
      else r }

/-- The registered word of a team at an offset. -/
def Team.barrier (g : Team) (offset : Nat) : Option Barrier := g.barriers.find? fun r => r.offset == offset

/-- BYTES after a change: a sum outside its 40 bits is a free value (DESIGN CHOICE, log 22). -/
def Mach.barBytes (m : Mach) (x : Int) : Int :=
  if -(2 : Int) ^ 39 ≤ x && x < (2 : Int) ^ 39 then x else sextInt 40 (Config.freeWord (2 ^ 101 + m.clk)).toNat

/-- Apply a copy credit (R212): no effect when the word is no longer registered. -/
def Mach.applyCredit (m : Mach) (c : Credit) : Mach :=
  m.changeBarrier c.team c.offset (fun b => { b with bytes := m.barBytes (b.bytes - c.bytes) })
    fun r => { r with credited := some m.clk }

/-- A task departs from its team (R213). -/
def Mach.depart (m : Mach) (tid : Nat) : Mach :=
  match m.task tid with
  | none => m
  | some t =>
    if t.departed then m
    else
      let m := m.setTask tid { t with departed := true }
      match m.team t.team with
      | none => m
      | some g =>
        let m := (g.barriers.filter fun r => r.members.getLsbD t.idx).foldl (fun m r =>
          m.changeBarrier t.team r.offset
            (fun b => { b with pend := if r.arrived.getLsbD t.idx then b.pend else b.pend - 1, exp := b.exp - 1 })
            (fun r => { r with members := r.members &&& ~~~((1 : BitVec 16) <<< t.idx) })) m
        (m.modTeam t.team fun g => { g with gone := insertNat g.gone t.idx }).checkTileDone t.team

end Sys2Proof.Machine
end

