-- ==== Sys2Proof/Machine/Futures.lean ====
section
/-! DEFINITION. Futures and signals: the updates of an object in memory and the instructions JOINF, FPROBE, FSET, FFAIL, SGADD and SGWAIT (R195 to R200), the completion of a team's future (R190), and reads of objects that an instruction names (R187). -/

namespace Sys2Proof.Machine

/-! ### Updates of a future (R190, R198) -/

/-- An update of a future: FSET of a value, FFAIL of a status, completion by a team (DEAD, status bits [34:32], whether VALUE is
poisoned, whether the team has settled it), and a counted SPAWN. -/
inductive FutUpdate where
  | set (value : Datum)
  | fail (status : Word)
  | complete (dead bits : Nat) (poison settled : Bool)
  | value (value : Datum)
  | count
deriving DecidableEq, Repr

/-- Change a 64-bit word and keep its poison. -/
def Memory.keepPoison64 (m : Memory) (a : Nat) (w : Word) : Memory := m.store a (toBytes 8 w.toNat) fun i => m.poi.contains (a / 4 + i)

/-- COUNT falls by 1; a COUNT at or below 0 sets UNDER (R190, R198). -/
def Memory.decrement (m : Memory) (a : Nat) : Memory :=
  let c := (m.word64 a).1
  let m := if c.toInt ≤ 0 then m.keepPoison64 (a + 16) ((m.word64 (a + 16)).1 ||| BitVec.ofNat 64 (2 ^ 36)) else m
  m.keepPoison64 a (c - 1)

/-- One atomic update of the future at an address. -/
def Memory.updateFuture (m : Memory) (a : Nat) (u : FutUpdate) : Memory :=
  let status := (m.word64 (a + 16)).1
  let poisonValue := fun (m : Memory) => (m.setPoison (a + 8) true).setPoison (a + 12) true
  let addDead := fun (s : Word) (n : Nat) => (s &&& ~~~(0xFFFFFFFF : Word)) ||| BitVec.ofNat 64 ((s.toNat + n) % 2 ^ 32)
  match u with
  | .set v => (m.put (a + 8) 8 v).decrement a
  | .fail w =>
    let s := addDead status (w.toNat % 2 ^ 32)
    let s := (s &&& ~~~(BitVec.ofNat 64 (2 ^ 64 - 2 ^ 48))) ||| BitVec.ofNat 64 (2 ^ 48 * fieldOf w 48 16 + 2 ^ 35)
    let s := s ||| BitVec.ofNat 64 (2 ^ 32 * fieldOf w 32 3)
    ((poisonValue m).keepPoison64 (a + 16) s).decrement a
  | .complete dead bits poison settled =>
    let m := m.keepPoison64 (a + 16) (addDead status dead ||| BitVec.ofNat 64 (2 ^ 32 * bits))
    let m := if poison then poisonValue m else m
    if settled then m else m.decrement a
  | .value v => m.put (a + 8) 8 v
  | .count => m.keepPoison64 a ((m.word64 a).1 + 1)

/-- The write of a value alone, which is no release (R189). -/
def FutUpdate.isValue : FutUpdate → Bool
  | .value _ => true
  | _ => false

/-- The frame of an update of a future on another device (R382; OPARG as DESIGN CHOICE, log 18 says). -/
def futureFrame (dst addr : Nat) (world : Bool) (scope : Scope) (u : FutUpdate) : Frame :=
  let (code, ws, poi) : Nat × List Word × Nat := match u with
    | .set v => (1, [BitVec.ofNat 64 v.1], v.2)
    | .fail w => (2, [w], 0)
    | .complete dead bits poison settled =>
      (3, [BitVec.ofNat 64 (dead + 2 ^ 32 * bits + (if poison then 2 ^ 62 else 0) + if settled then 2 ^ 63 else 0)], 0)
    | .value v => (4, [BitVec.ofNat 64 v.1], v.2)
    | .count => (5, [1], 0)
  withPayload { blankFrame 0x03 dst addr world with
    ord := if u.isValue then 0 else 2, scope := scopeCode scope, oparg := BitVec.ofNat 64 (2 ^ 16 * code + 16) } (ws.flatMap fun w => toBytes 8 w.toNat) fun i => poi.testBit i

/-- The update that such a frame carries. -/
def futureOfFrame (f : Frame) : Option FutUpdate :=
  let w := BitVec.ofNat 64 (ofBytes (f.payload.take 8))
  let d : Datum := (w.toNat, if f.pmask.getLsbD 0 then 3 else 0)
  match fieldOf f.oparg 16 8 with
  | 1 => some (.set d)
  | 2 => some (.fail w)
  | 3 => some (.complete (fieldOf w 0 32) (fieldOf w 32 3) (w.getLsbD 62) (w.getLsbD 63))
  | 4 => some (.value d)
  | 5 => some .count
  | _ => none

/-- An atomic update at a home slice by a core: its own dirty copy is written back first and none is kept (R156, R291). -/
def Mach.updateAt (m : Mach) (c pa : Nat) (f : Memory → Memory) : Mach :=
  let m := (m.flush c pa).dropL1 c pa
  { m with mem := f m.mem }.touch pa

/-! ### Instructions that update an object: releases at SCOPE (R198, R200) -/

/-- The plan of a one-word or one-object atomic update with release. -/
def updatePlan (x : FM) (size : Nat) (poi : Bool) (f : Nat → Memory → Memory) (frame : Nat → Nat → Bool → Scope → Frame) : Plan where
  uni := true
  size := size
  write := true
  ord := .rel
  scope := x.scope
  atomic := true
  records := false
  make := fun m c _ pa _ => ((0, 0), none, m.updateAt c pa (f pa))
  frames := fun dst es world _ scope => [frame dst (lowestAddr es) world scope]
  place := fun _ _ => 0
  tlp := fun _ _ _ _ => .unsupported
  answered := false
  poisoned := fun _ => poi
  bytes := fun _ => ([], fun _ => false)
  ty := x.ty
  dest := none
  flag := none
  dests := []

/-- The team, and the task, have settled the team's future when FSET or FFAIL names it (R190, R198). -/
def settle (ι : Iss) (addr : Nat) : Res → Res
  | .done m => if (m.team ι.t.team).any fun g => g.future.toNat == addr && g.future != 0 then
      .done (ι.mod (m.modTeam ι.t.team fun g => { g with settled := true }) fun t => { t with settled := true })
    else .done m
  | r => r

/-- The data operand sD of a uniform M word as a datum. -/
def Task.uniDatum (t : Task) (r : BitVec 8) : Datum := t.datumU 0 r.toNat 8

/-- FSET (R198). -/
def bodyFset (x : FM) (m : Mach) (ι : Iss) : Res :=
  let v := ι.t.uniDatum x.d
  settle ι (ι.t.addrUni x).1
    ((updatePlan x 32 (v.2 != 0) (fun pa mem => mem.updateFuture pa (.set v)) (fun d a w s => futureFrame d a w s (.set v))).run
      m ι true (sameLanes (ι.t.addrUni x)) acceptUpdate)
def execFset (x : FM) (s : State) := issue (.fset x) (bodyFset x) s

/-- FFAIL (R198): a poisoned sD is consumed. -/
def bodyFfail (x : FM) (m : Mach) (ι : Iss) : Res :=
  let v := ι.t.uniDatum x.d
  let u := FutUpdate.fail (BitVec.ofNat 64 v.1)
  withAddresses m ι true true (sameLanes (ι.t.addrUni x)) fun m ι =>
    consumeUni m ι (v.2 != 0) 0x07 0 0 0 fun m ι =>
      settle ι (ι.t.addrUni x).1
        ((updatePlan x 32 false (fun pa mem => mem.updateFuture pa u) (fun d a w s => futureFrame d a w s u)).run
          m ι true (sameLanes (ι.t.addrUni x)) acceptUpdate)
def execFfail (x : FM) (s : State) := issue (.ffail x) (bodyFfail x) s

/-- Add to a signal: wrapping, poison of either (R200). -/
def addSignal (v : Datum) (pa : Nat) (mem : Memory) : Memory :=
  let s := mem.load pa 8
  mem.put pa 8 ((s.1 + v.1) % 2 ^ 64, if s.2 != 0 || v.2 != 0 then 3 else 0)

/-- The frame of SGADD: RED.add.s64. -/
def signalFrame (v : Datum) (dst addr : Nat) (world : Bool) (scope : Scope) : Frame :=
  atomicFrame dst (addr / 128 * 128) world .rel scope 0 true .s64 false [atomicLane 8 false (addr % 128) v (0, 0)]

/-- SGADD (R200). -/
def bodySgadd (x : FM) (m : Mach) (ι : Iss) : Res :=
  let v := ι.t.uniDatum x.d
  (updatePlan x 8 (v.2 != 0) (addSignal v) (signalFrame v)).run m ι true (sameLanes (ι.t.addrUni x)) acceptUpdate
def execSgadd (x : FM) (s : State) := issue (.sgadd x) (bodySgadd x) s

/-! ### Instructions that read an object -/

/-- The condition of SGWAIT (R200). -/
def signalHolds (sub : Nat) (want : Word) (d : Datum) : Bool :=
  let s := (BitVec.ofNat 64 d.1).toInt
  d.2 != 0 || (match sub with
    | 0 => s ≤ want.toInt
    | 1 => s == want.toInt
    | _ => s != want.toInt)

/-- SGWAIT (R200). -/
def bodySgwait (x : FM) (m : Mach) (ι : Iss) : Res :=
  let v := ι.t.uniDatum x.d
  let w : WaitOn := ⟨1, x.sub.toNat, BitVec.ofNat 64 v.1, true, x.scope, 8, 8, signalHolds x.sub.toNat (BitVec.ofNat 64 v.1)⟩
  waitObject w x m ι (fun go m ι => consumeUni m ι (v.2 != 0) 0x07 0 0 0 go) fun m ι d nacked =>
    if nacked then .done m
    else consumeUni m ι (d.2 != 0) 0x0D 0 (BitVec.ofNat 64 (ι.t.addrUni x).1) 0 fun m _ => .done m
def execSgwait (x : FM) (s : State) := issue (.sgwait x) (bodySgwait x) s

/-- A word of an object as a uniform register: a 64-bit result sets both poison bits alike (R27). -/
def datumReg (d : Datum) (i : Nat) : UReg :=
  let poi := d.2.testBit (2 * i) || d.2.testBit (2 * i + 1)
  ⟨BitVec.ofNat 64 (d.1 / 2 ^ (64 * i)), poi, poi⟩

/-- A future is ready (R195, R196). -/
def futureReady (d : Datum) : Bool := d.2 % 4 != 0 || (BitVec.ofNat 64 d.1).toInt ≤ 0

/-- JOINF (R196): a poisoned COUNT poisons the value and sets STATUS.POISON; a NACK makes both zero and poisoned (R379). -/
def bodyJoinf (x : FM) (m : Mach) (ι : Iss) : Res :=
  let w : WaitOn := ⟨0, 0, 0, true, x.scope, 32, 32, futureReady⟩
  waitObject w x m ι (fun go m ι => go m ι) fun m ι d nacked =>
    let bad := d.2 % 4 != 0
    let v := datumReg d 1
    let st := datumReg d 2
    let v : UReg := if nacked then ⟨0, true, true⟩ else if bad then ⟨v.v, true, true⟩ else v
    let st : UReg := if nacked then ⟨0, true, true⟩ else if bad then { st with v := st.v ||| BitVec.ofNat 64 (2 ^ 32) } else st
    .done (ι.mod m fun t =>
      let t := { t.writeU x.d.toNat v with progressed := true }
      if x.sub.getLsbD 0 then t.writeU x.b.toNat st else t)
def execJoinf (x : FM) (s : State) := issue (.joinf x) (bodyJoinf x) s

/-- FPROBE (R197): a relaxed read of COUNT, and of STATUS, into registers. -/
def fprobePlan (ι : Iss) (x : FM) : Plan :=
  let p := loadPlan ι { x with ty := .b64 } 8 (destOf x) ([.uni x.d.toNat .b64] ++ if x.sub.getLsbD 0 then [.uni x.b.toNat .b64] else []) .rlx .team
  { p with
    size := 8
    dest := some fun e => if e.lane == 0 then .uni x.d.toNat .b64 else .uni x.b.toNat .b64 }

def bodyFprobe (x : FM) (m : Mach) (ι : Iss) : Res :=
  let a := ι.t.addrUni x
  let p := fprobePlan ι x
  if flagFull ι.t p.flag then .wait m false .cond
  else withAddresses m ι true true (sameLanes a) fun m ι =>
    match failTrap ι true (alignFails 32 [(0, a.1)]) with
    | some i => .trap m i
    | none => withPlaces m ι true 8 .load acceptObject ([(0, a.1)] ++ if x.sub.getLsbD 0 then [(1, a.1 + 16)] else []) fun m ι es =>
      withSpots m ι false es fun m ι ss => p.perform m ι ss
def execFprobe (x : FM) (s : State) := issue (.fprobe x) (bodyFprobe x) s

/-! ### Reads of an object that an instruction names -/

/-- n bytes of local memory read by a core, sector by sector; made in the L1 or at the home slice. -/
def Mach.readSpan (m : Mach) (c pa n : Nat) (home : Bool) : Datum × Mach :=
  let step := min n 32
  (List.range ((n + step - 1) / step)).foldl (fun (acc : Datum × Mach) i =>
    let (d, _, m) := if home then acc.2.readHome c (pa + step * i) step else acc.2.readL1 c (pa + step * i) step
    ((acc.1.1 + d.1 * 2 ^ (8 * step * i), acc.1.2 + d.2 * 2 ^ (step / 4 * i)), m)) ((0, 0), m)

/-- The sectors of a span that another core holds dirty. -/
def Mach.spanRace (m : Mach) (c pa n : Nat) (write home : Bool) : Option Nat :=
  ((List.range ((pa + n - 1) / 32 - pa / 32 + 1)).findSome? fun i => m.race c ((pa / 32 + i) * 32) write home)

/-- The RACE trap of a uniform form (R130, R300). -/
def Iss.raceTrap (ι : Iss) (h va : Nat) : TrapInfo :=
  ⟨6, synOf ι.s.xact 1 0 (dieOf h + 8 * logicalOf h), BitVec.ofNat 64 va, 0, none⟩

/-- A relaxed read of n bytes at one place by an instruction that waits for it: local, remote or host. -/
def readSpot (n : Nat) (home : Bool) (e : Elt) (s : Spot) (m : Mach) (ι : Iss) (go : Mach → Iss → Datum → Res) : Res :=
  let kept := fun (send : Mach → Mach) => match (m.keptOf ι).find? fun x => match x.2.kind with
      | .kept _ _ ((0, a) :: _) => a == e.va
      | _ => false with
    | none => Res.wait (send m) false .cond
    | some (id, r) => match r.answer with
      | none => .wait m false .cond
      | some a => let _ := id; go m ι (a.datum 0 n)
  match s with
  | .here pa =>
    match m.spanRace ι.t.core pa n false home with
    | some h => .trap m (ι.raceTrap h e.va)
    | none => let (d, m) := m.readSpan ι.t.core pa n home; go m ι d
  | .away d a => kept fun m => (m.request (.kept ι.tid ι.t.free [(0, e.va)]) ι.t.ctx (readFrame d a n e.secure .rlx .team)).2
  | .host pa => kept fun m => (m.hostRequest (.kept ι.tid ι.t.free [(0, e.va)]) ι.t.ctx fun tag => .hostRead tag (m.hostAddress pa) n e.secure).2
  | .chip _ => go m ι (chipDatum ι.t n e)
  | _ => .wait m false .cond

end Sys2Proof.Machine
end

