-- ==== Sys2Proof/Machine/Tasks.lean ====
section
/-! DEFINITION. SPAWN, TEND, YIELD, ROLE, TFETCH and TDONE (R186 to R194), the entry record and the holdings of a core (R18 to R21), and the end of tasks and teams (R74, R189, R190, R213). -/

namespace Sys2Proof.Machine

/-! ### The entry record (R19, R20) -/

/-- An allotment: vector, uniform and accumulator blocks, and ACORE. -/
structure Allot where
  vblk : Nat
  sblk : Nat
  ablk : Nat
  acore : Bool
deriving DecidableEq, Repr

/-- The allotment word (R19), unless it is malformed (R20). -/
def allotOf (w : Word) : Option Allot :=
  let a : Allot := ⟨fieldOf w 0 6, fieldOf w 8 4, fieldOf w 16 4, fieldOf w 23 1 == 1⟩
  if fieldOf w 24 40 != 0 || fieldOf w 20 3 != 0 || fieldOf w 12 4 != 0 || fieldOf w 6 2 != 0 ||
     a.vblk == 0 || 32 < a.vblk || a.sblk == 0 || 8 < a.sblk || 8 < a.ablk || (a.acore && a.ablk != 8) then none
  else some a

/-- The allotment word of an allotment. -/
def Allot.word (a : Allot) : Word :=
  BitVec.ofNat 64 ((if a.acore then 2 ^ 23 else 0) + 2 ^ 16 * a.ablk + 2 ^ 8 * a.sblk + a.vblk)

/-- The entry record at a physical address: its allotment and the initial xhnd (R19); none when it is malformed (R20). -/
def Mach.entryRecord (m : Mach) (pa : Nat) : Option (Allot × Word) :=
  let w := fun i => (m.mem.word64 (pa + 8 * i)).1
  if headerNslot (w 0) != 0 || headerMalformed (w 0 ||| BitVec.ofNat 64 (2 ^ 22)) || ([3, 4, 5, 6, 7].any fun i => w i != 0) then none
  else (allotOf (w 1)).map fun a => (a, w 2)

/-- What a resident task holds of a core (R21). -/
structure Holding where
  part : Nat
  allot : Allot
deriving DecidableEq, Repr

/-- The holdings of the tasks of a core, but for one task. -/
def Mach.holdings (m : Mach) (core : Nat) (but : Option Nat) : List Holding :=
  m.tasks.filterMap fun (n, t) => if t.core == core && but != some n then some ⟨t.part, t.vblk, t.sblk, t.ablk, t.acore⟩ else none

/-- The unallotted vector registers of a partition. -/
def freeVectors (hs : List Holding) (part : Nat) : Nat :=
  512 - ((hs.filter (·.part == part)).map fun h => 8 * h.allot.vblk).foldl (· + ·) 0

/-- Whether an allotment fits beside the holdings of a core (R21). -/
def fits (hs : List Holding) (part : Nat) (a : Allot) : Bool :=
  8 * a.vblk ≤ freeVectors hs part &&
  (if a.acore then hs.all fun h => h.allot.ablk == 0
   else a.ablk == 0 || ((hs.all fun h => !h.allot.acore) &&
     ((hs.filter (·.part == part)).map fun h => 8 * h.allot.ablk).foldl (· + ·) 0 + 8 * a.ablk ≤ 64))

/-- The lowest n tiles of a partition's file that no task holds but those given (DESIGN CHOICE, log 19). -/
def Mach.freeTiles (m : Mach) (core part : Nat) (but : Option Nat) (keep : List Nat) (n : Nat) : List Nat :=
  let used := m.tasks.flatMap fun (k, t) => if t.core == core && t.part == part && but != some k then t.tiles else []
  keep ++ ((List.range 64).filter fun k => !used.contains k && !keep.contains k).take (n - keep.length)

/-! ### SPAWN (R187, R188, R249 to R251) -/

/-- A closure image as SPAWN has read it: 16 words and two poison bits a word. -/
abbrev Image := List Word × BitVec 32

/-- The poison of an image, given as a bit a 32-bit word. -/
def imageOf (d : Datum) : Image := ((List.range 16).map fun i => BitVec.ofNat 64 (d.1 / 2 ^ (64 * i)), BitVec.ofNat 32 d.2)

/-- The image of the register form. -/
def registerImage (t : Task) (a : Nat) (header : Word) : Image :=
  let rs := (List.range 15).map fun i => t.readU (1 + 16 * i) (a + i)
  (header :: rs.map (·.v),
   (rs.zipIdx.foldl (fun acc (r, i) => acc ||| BitVec.ofNat 32 (((if r.lo then 1 else 0) + if r.hi then 2 else 0) * 2 ^ (2 * (i + 1)))) 0))

/-- Where a closure of a context goes from a core: its own deque, or the inbox of the nearest permitted die (R249). -/
def Ctx.spawnDie (c : Ctx) (core : Nat) (e : Entry) : Option Nat :=
  if c.permits e (dieOf core) then none else nearestDie (dieOf core) (c.dies.filter fun d => c.permits e d)

/-- Whether a SPAWN finds room for its closure (R250, R251). -/
def Mach.spawnRoom (m : Mach) (core ctx : Nat) : Option Nat → Bool
  | none => m.dequeRoom core ctx
  | some d => !m.inboxFull d ctx

/-- The count that SPAWN has asked of a future on another device: what it has kept, with the image it read. -/
def countAsked (kept : List (Nat × Request)) : Option (Request × Image) :=
  kept.findSome? fun (_, r) => match r.kind with
    | .kept _ _ ((1, _) :: ws) => some (r, (ws.take 16).map (fun w => BitVec.ofNat 64 w.2), BitVec.ofNat 32 ((ws.getD 16 (0, 0)).2))
    | _ => none

/-- The last actions of SPAWN: release at `.dev`, and the push (R188, R249). -/
def spawnPush (m : Mach) (ι : Iss) (c : Ctx) (img : Image) : Res :=
  let core := ι.t.core
  let m := (m.dropKept ι).bump core .dev
  let e : Entry := ⟨img.1, img.2, m.xclk, false, 0, (m.core core).xrgen, false, false, core, false⟩
  match c.spawnDie core e with
  | none => .done (m.pushDeque core ι.t.ctx e)
  | some d => .done (m.inboxPush d ι.t.ctx e)

/-- SPAWN from its image on (R188). -/
def spawnImage (x : FX) (m : Mach) (ι : Iss) (img : Image) (addr : Nat) : Res :=
  let low := (List.range 8).find? fun i => img.2.getLsbD (4 + i)
  consumeUni m ι (img.2.extractLsb' 0 4 != 0) 0x09 0 (BitVec.ofNat 64 addr) 0 fun m ι =>
  consumeUni m ι low.isSome 0x0C (16 + 4 * low.getD 0) (BitVec.ofNat 64 addr) 0 fun m ι =>
    let f := (img.1.getD 1 0).toNat
    let e : Entry := ⟨img.1, img.2, 0, false, 0, 0, false, false, 0, false⟩
    if e.entryPc % 64 != 0 then .trap m (ι.uniTrap 3 2 0 e.entryPc)
    else if f % 32 != 0 then .trap m (ι.uniTrap 3 1 32 f)
    else match m.ctx ι.t.ctx with
      | none => .wait m false .cond
      | some c =>
        let room := m.spawnRoom ι.t.core ι.t.ctx (c.spawnDie ι.t.core e)
        let full := ι.uniTrap 0x0C 4 0 0
        if x.imm7.getLsbD 0 && f != 0 then
          withPlaces m ι true 8 .store acceptUpdate [(0, f)] fun m ι es =>
            withSpots m ι true es fun m ι ss => match ss with
              | (_, .here pa) :: _ => match m.race ι.t.core pa true true with
                | some h => .trap m (ι.raceTrap h f)
                | none =>
                  if !room then .trap m full
                  else if !m.performed ι.tid false then .wait m false .cond
                  else spawnPush (m.updateAt ι.t.core pa fun mem => mem.updateFuture pa .count) ι c img
              | (e', .away d a) :: _ =>
                if !room then .trap m full
                else if !m.performed ι.tid false then .wait m false .cond
                else
                  let parts := (1, f) :: img.1.map (fun w => (2, w.toNat)) ++ [(3, img.2.toNat)]
                  .wait (m.request (.kept ι.tid ι.t.free parts) ι.t.ctx (futureFrame d a e'.secure .dev .count)).2 true .cond
              | _ => .wait m false .cond
        else if !room then .trap m full
        else if !m.performed ι.tid false then .wait m false .cond
        else spawnPush m ι c img

/-- The SPAWN that has counted in a future on another device goes on once it is answered and there is room. -/
def spawnCounted (m : Mach) (ι : Iss) (r : Request) (img : Image) : Res :=
  match m.ctx ι.t.ctx with
  | none => .wait m true .cond
  | some c =>
    let e : Entry := ⟨img.1, img.2, 0, false, 0, 0, false, false, 0, false⟩
    if r.answer.isSome && m.spawnRoom ι.t.core ι.t.ctx (c.spawnDie ι.t.core e) then spawnPush m ι c img else .wait m true .cond

/-- SPAWN of an image in memory (R187). -/
def bodySpawn (x : FX) (m : Mach) (ι : Iss) : Res :=
  match countAsked (m.keptOf ι) with
  | some (r, img) => spawnCounted m ι r img
  | none =>
    let a := ι.t.uniOpnd 1 x.a.toNat 64
    withAddresses m ι true true (sameLanes a) fun m ι =>
      withPlaces m ι true 128 .load acceptAll [(0, a.1)] fun m ι es =>
        withSpots m ι false es fun m ι ss => match ss with
          | (e, s) :: _ => readSpot 128 false e s m ι fun m ι d => spawnImage x m ι (imageOf d) a.1
          | [] => .wait m false .cond
def execSpawn (x : FX) (s : State) := issue (.spawn x) (bodySpawn x) s

/-- SPAWN of an image in registers (R187). -/
def bodySpawnHeader (x : FX) (m : Mach) (ι : Iss) : Res :=
  match countAsked (m.keptOf ι) with
  | some (r, img) => spawnCounted m ι r img
  | none => spawnImage x m ι (registerImage ι.t x.a.toNat x.ext) 0
def execSpawnHeader (x : FX) (s : State) := issue (.spawnHeader x) (bodySpawnHeader x) s

/-! ### TEND, YIELD, ROLE (R189, R191, R192) -/

/-- TEND (R189): the task's tile is done, its lanes end, and it keeps the value for its team's future. -/
def tendTask (value : Option UReg) (m : Mach) (ι : Iss) : Res :=
  let m := m.tileDone ι.tid
  .moved (ι.mod m fun t => ({ t with endValue := value }).finish .normal)

def execTend (x : FC) (s : State) := issue (.tend x) (tendTask none) s
def execTendValue (x : FC) (s : State) := issue (.tendValue x) (fun m ι => tendTask (some (ι.t.readU 4 x.reg.toNat)) m ι) s

/-- YIELD (R191): the task becomes the youngest of its class; with a pre-emption pending it waits. -/
def bodyYield (_ : FC) (m : Mach) (ι : Iss) : Res :=
  let stamp := fun (m : Mach) => ι.mod m fun t =>
    { t with splits := t.splits.map fun o => o.map fun s => { s with stamp := m.clk }, stack := t.stack.map fun s => { s with stamp := m.clk } }
  let pending := match m.ctx ι.t.ctx with
    | some c => c.pending.isSome
    | none => false
  if ι.again then (if pending then .wait m true .cond else ι.jump m ι.next 1)
  else if pending then .wait (stamp m) true .cond
  else .moved (ι.mod (stamp m) fun t => t.modSplit ι.e fun s =>
    { (ι.here.goto ι.next 1 (m.clk + 1)) with stamp := s.stamp })
def execYield (x : FC) (s : State) := issue (.yield x) (bodyYield x) s

/-- The state of a task after ROLE (R40). -/
def Task.role (t : Task) (e : Nat) (entry : Word) (a : Allot) (xhnd : Word) (prio : Nat) (tiles : List Nat) (split : Split) : Task :=
  let held := min (8 * t.ablk) (8 * a.ablk)
  { t with
    v := t.v.filter fun x => x.1 < 8 * a.vblk
    u := t.u.filter fun x => x.1 < 8 * a.sblk
    acc := if t.acore && a.acore then t.acc else t.acc.filter fun x => x.1 < held
    joins := [], pjoins := [], exited := 0
    vblk := a.vblk, sblk := a.sblk, ablk := a.ablk, acore := a.acore, tiles := tiles
    prio := prio, entry := entry, xhnd := xhnd
    splits := ([none, none, none, none] : List (Option Split)).set e (some { split with xact := ~~~t.xdead, pxact := ~~~t.xdead, xsig := 0 }) }

/-- ROLE (R192). -/
def bodyRole (x : FX) (m : Mach) (ι : Iss) : Res :=
  match m.task ι.tid with
  | none => .moved m
  | some t =>
    let others := (t.splits.filter Option.isSome).length != 1 || !t.stack.isEmpty || (List.range 8).any fun j => !(t.join j).arrivals.isEmpty
    if others || !t.flagsZero then .wait m false .cond
    else if x.ext.toNat % 64 != 0 then .trap m (ι.uniTrap 3 2 0 x.ext.toNat)
    else
      let addr := wrapBits 64 ((x.ext.toNat : Int) - 64)
      withPlaces m ι true 1 .exec acceptAll [(0, addr)] fun m ι es => match es with
        | [] => .wait m false .cond
        | el :: _ => match m.entryRecord el.pa with
          | none => .trap m ⟨1, BitVec.ofNat 64 (2 ^ 16 * 5), BitVec.ofNat 64 addr, 0, none⟩
          | some (a, xhnd) =>
            if !fits (m.holdings t.core (some ι.tid)) t.part a then .wait m false .cond
            else
              let prio := if x.imm7.getLsbD 2 then t.prio else (x.imm7.extractLsb' 0 2).toNat
              let tiles := if a.acore then List.range 64
                else m.freeTiles t.core t.part (some ι.tid) (t.tiles.take (8 * a.ablk)) (8 * a.ablk)
              .moved (ι.mod m fun t => t.role ι.e x.ext a xhnd prio tiles (ι.here.advance m.clk ι.words (headerNslot ι.hdr)))
def execRole (x : FX) (s : State) := issue (.role x) (bodyRole x) s

/-! ### TFETCH and TDONE (R193, R194, R261 to R263) -/

/-- The number of a launch's tiles among what dies publish. -/
def tilesKey (ctx launch : Nat) : Nat := 64 * ctx + launch

/-- Whether a die still has a team of a tile launch, resident or to come (R263). -/
def Mach.launchOn (m : Mach) (c : Ctx) (ctx n die : Nat) : Bool :=
  (m.teams.any fun (_, g) => g.ctx == ctx && g.launch == some n && dieOf g.core == die && g.gone.length < g.size) ||
  (m.dieEntries c ctx die ++ m.cores.flatMap fun (k, x) =>
    if dieOf k == die then x.pushing.map (·.2) ++ x.hand.toList ++ (x.reply.bind id).toList else []).any fun e => e.lv && e.lrec == n

/-- The cores on which a team of a launch waits in TFETCH. -/
def Mach.fetchers (m : Mach) (ctx n : Nat) : List Nat := m.tasks.filterMap fun (_, t) =>
  if t.ctx == ctx && (m.team t.team).any (fun g => g.launch == some n) && t.splits.any (fun o => o.any fun s => s.wait.any fun w =>
    match w.ins with
    | .tfetch _ => true
    | _ => false) then some t.core else none

/-- The tile that a team of a core may draw from a launch (R262, R263): a tile issued again goes to the first waiting team, by logical
die and core, once its hash die has none. -/
def Mach.drawTile (m : Mach) (c : Ctx) (ctx n : Nat) (t : Tiles) (core : Nat) : Option Nat :=
  let d := c.dies.length
  let die := c.logicalDie (dieOf core)
  let published := c.dies.map fun k => tabGetD (m.die k).tiles (tilesKey ctx n) 0
  match t.draw d die (logicalOf core) c.lthr published (fun k => dieDistance (dieOf core) (c.dies.getD k 0)) with
  | some i => some i
  | none =>
    if !t.undrawn.isEmpty then none
    else if (m.fetchers ctx n).any fun k => c.logicalDie (dieOf k) < die || (c.logicalDie (dieOf k) == die && logicalOf k < logicalOf core) then none
    else t.reissued.find? fun i => !m.launchOn c ctx n (c.dies.getD (t.dieOf d i) 0)

/-- The tile number k of a task's team: known, drawn now, or 0 once the index space is exhausted (R193, R263). A dispenser serves one
draw a cycle (R262). -/
def Mach.teamTile (m : Mach) (t : Task) (k : Nat) : Option Word × Mach :=
  match m.team t.team with
  | none => (some 0, m)
  | some g =>
    match g.tiles.find? fun x => x.1 == k with
    | some (_, w, _) => (some w, m)
    | none =>
      match m.ctx t.ctx, g.launch with
      | some c, some n =>
        match (tabGet c.launches n).bind (·.tiles) with
        | none => (some 0, m)
        | some ts =>
          let known := fun (m : Mach) (w : Word) => m.modTeam t.team fun g =>
            { g with tileK := max g.tileK k, tiles := g.tiles ++ [(k, w, g.gone)] }
          if ts.undrawn.isEmpty && ts.reissued.isEmpty then
            if ts.inFlight.isEmpty then (some 0, known m 0) else (none, m)
          else match m.drawTile c t.ctx n ts t.core with
            | some i =>
              let from' := c.dies.getD (ts.dieOf c.dies.length i) 0
              if (m.die (dieOf t.core)).drew == some m.clk || (m.die from').drew == some m.clk then (none, m)
              else
                let m := ((m.modLaunch t.ctx n fun l => { l with tiles := some (ts.take i) }).noteLaunch t.ctx n).modDie from'
                  fun d => { d with drew := some m.clk }
                (some (ts.word i), known m (ts.word i))
            | none => (none, m)
      | _, _ => (some 0, m)

/-- Whether the task belongs to a tile launch. -/
def Mach.tileLaunch (m : Mach) (t : Task) : Bool :=
  match m.team t.team, m.ctx t.ctx with
  | some g, some c => match g.launch with
    | some n => ((tabGet c.launches n).bind (·.tiles)).isSome
    | none => false
  | _, _ => false

/-- TFETCH (R193). -/
def bodyTfetch (x : FS) (m : Mach) (ι : Iss) : Res :=
  let put := fun (m : Mach) (w : Word) => ι.mod m fun t => { t.writeU x.d.toNat ⟨w, false, false⟩ with xtile := w }
  let m := if ι.again then m else ι.mod (m.tileDone ι.tid) fun t => { t with fetches := t.fetches + 1 }
  match m.task ι.tid with
  | none => .moved m
  | some t =>
    if !m.tileLaunch t then .done (put m 0)
    else match m.teamTile t t.fetches with
      | (some w, m) => .done (put m w)
      | (none, m) => .wait m true .cond
def execTfetch (x : FS) (s : State) := issue (.tfetch x) (bodyTfetch x) s

/-- TDONE (R194). -/
def execTdone (x : FS) (s : State) := issue (.tdone x) (fun m ι =>
  .done (ι.mod (m.tileDone ι.tid) fun t => { t with xtile := t.xtile &&& ~~~(BitVec.ofNat 64 (2 ^ 63)) })) s

/-! ### Engines at an address of a context (R190, R365) -/

/-- Where an engine finds an address: an element and its place, a failed check, or a page that it waits for. -/
inductive EngineAt where
  | found (e : Elt) (s : Spot)
  | fault (cause reason detail : Nat)
  | waiting
deriving DecidableEq, Repr

/-- The checks of an engine's access to an address: translation, permission, world, region, sealed line. -/
def Mach.engineSpot (m : Mach) (die ctx va : Nat) (use : Use) (accepts : Accepts) : EngineAt × Mach :=
  match m.engineXlate die ctx va use with
  | (.ok pa attr secure, m) =>
    if !accepts (regionOf pa) attr then (.fault 5 0x0A 0, m)
    else if use == .store && regionOf pa == .loc && m.sealed pa then (.fault 5 3 0, m)
    else
      let e : Elt := ⟨0, va, pa, attr, secure⟩
      match m.spot ctx e (use == .store) with
      | (.wait, m) => (.waiting, m)
      | (s, m) => (.found e s, m.usedAway [e])
  | (.fault c r d, m) => (.fault c r d, m)
  | (.waiting, m) => (.waiting, m)

/-- A wake event of the firmware complexes (R178): a service record, an error record or a management message ends their HALT. -/
def Mach.wakeComplexes (m : Mach) : Mach :=
  let wake := fun (s : Split) => match s.wait.map (·.hold) with
    | some (.halt _) => s.goto (s.clause + 64) 1 (m.clk + 1)
    | _ => s
  { m with tasks := m.tasks.map fun (n, t) => (n, if t.onComplex then { t with splits := t.splits.map (Option.map wake) } else t) }

/-! ### The end of tasks and teams (R74, R190, R213) -/

/-- Whether nothing of an ended task is outstanding: its flags, counted stores and counted copies (R74, R150, R205). -/
def Mach.settled (m : Mach) (tid : Nat) (t : Task) : Bool :=
  t.quiet && !m.copies.any fun (_, c) => c.task == tid && c.counted

/-- A FUTDROP record (R190, R419). -/
def Mach.futdrop (m : Mach) (g : Team) (cause reason detail : Nat) : Mach :=
  m.errorRecord g.ctx [recordHead 0x0B cause reason detail (unitOf g.core 0 0) m.xdev.toNat, m.xclk, 0, g.future, 0, 0, g.ender, 0]

/-- Make an update of a team's future on the team's behalf (R190): whether it has been made or dropped. The completion is a release; the write
of a value alone is none. -/
def Mach.writeFuture (m : Mach) (g : Team) (u : FutUpdate) : Bool × Mach :=
  match m.engineSpot (dieOf g.core) g.ctx g.future.toNat .store acceptUpdate with
  | (.found _ (.here pa), m) =>
    let m := if u.isValue then m else (m.bump g.core .dev).setRecord pa ((m.bump g.core .dev).recordOf g.core .dev)
    (true, m.updateAt g.core pa fun mem => mem.updateFuture pa u)
  | (.found e (.away d a), m) =>
    let m := if u.isValue then m else m.bump g.core .fab
    (true, (m.request .free g.ctx (futureFrame d a e.secure .fab u)).2)
  | (.found _ _, m) => (true, m.futdrop g 5 0x0A 0)
  | (.fault c r d, m) => (true, m.futdrop g c r d)
  | (.waiting, m) => (false, m)

/-- Write the value that a TEND left for the team's future, if there is one (R189). -/
def Mach.writeValue (m : Mach) (team : Nat) : Bool × Mach :=
  match m.team team with
  | none => (true, m)
  | some g => match g.value with
    | none => (true, m)
    | some v =>
      let (done, m) := m.writeFuture g (.value (v.v.toNat, (if v.lo then 1 else 0) + if v.hi then 2 else 0))
      (done, if done then m.modTeam team fun g => { g with value := none } else m)

/-- Every member of a team has departed. -/
def Team.isOver (g : Team) : Bool := (List.range g.size).all fun i => g.gone.contains i

/-- Whether a discarded team's allocation is still written by a copy of any task (R346). -/
def Mach.written (m : Mach) (g : Team) : Bool := g.discarded && m.copies.any fun (_, c) => c.moves.any fun v => v.dsts.any fun
  | .spad k o => k == g.core && o < g.spadBase + g.spadLen && g.spadBase < o + v.len
  | _ => false

/-- A team's staging reads no sealed region any more (R255, R304). -/
def Mach.dropReaders (m : Mach) (team : Nat) : Mach :=
  match m.team team with
  | none => m
  | some g =>
    let less := fun (x : Nat × Seal) => (x.1, if g.readers.contains x.1 then { x.2 with readers := x.2.readers - 1 } else x.2)
    { m with seals := m.seals.map less }.setTeam team { g with readers := [] }

/-- What a team's last departure frees at once: its allocation, windows and barrier table (R276); a spawn-queue tile has ended. -/
def Mach.freeTeam (m : Mach) (team : Nat) : Mach :=
  let m := if (m.team team).any Team.isOver then m.dropReaders team else m
  match m.team team with
  | none => m
  | some g =>
    if !g.isOver then m
    else
      let m := m.setTeam team { g with spadLen := if m.written g then g.spadLen else 0, windows := [], barriers := [] }
      match g.queue with
      | some (q, start) => { m with spawnqs := tabMod m.spawnqs q fun s =>
          { s with tiles := s.tiles.map fun (a, n, done) => (a, n, done || a == start) } }
      | none => m

/-- A retired task with nothing outstanding departs from its team, and its slot is free (R74, R189, R190, R256). -/
def Mach.settleTask (m : Mach) (tid : Nat) : Mach :=
  match m.task tid with
  | none => m
  | some t =>
    match t.ending with
    | none => m
    | some how =>
      if !m.settled tid t then m
      else
        let m := m.depart tid
        let lost := how == .poison || how == .killed || how == .timeout
        let m := m.modTeam t.team fun g =>
          { g with dead := (g.dead + popCount t.xdead) % 2 ^ 32, poison := g.poison || how == .poison, killed := g.killed || how == .killed,
                   timeout := g.timeout || how == .timeout, unsettled := g.unsettled || (lost && !t.settled), ender := t.xtask,
                   value := if how == .normal && t.endValue.isSome && g.future != 0 && !g.settled then t.endValue else g.value }
        let m := (m.writeValue t.team).2
        let m := { m with tasks := tabErase m.tasks tid
                          requests := m.requests.filter fun (_, r) => match r.kind with
                            | .kept k _ _ => k != tid
                            | _ => true }
        m.freeTeam t.team

/-- Every retired task with nothing outstanding is settled. -/
def Mach.settleAll (m : Mach) : Mach := m.tasks.foldl (fun m (n, _) => m.settleTask n) m

/-- The completion of an ended team's future (R190): whether it has been made or dropped, or there is none. -/
def Mach.completeFuture (m : Mach) (team : Nat) : Bool × Mach :=
  match m.team team with
  | none => (true, m)
  | some g =>
    if g.future == 0 then (true, m)
    else match m.writeValue team with
      | (false, m) => (false, m)
      | (true, m) => m.writeFuture g (.complete g.dead ((if g.poison then 1 else 0) + (if g.killed then 2 else 0) + if g.timeout then 4 else 0)
          (g.unsettled) g.settled)

end Sys2Proof.Machine
end

