-- ==== Sys2Proof/Machine/Queues.lean ====
section
/-! DEFINITION. Spawn queues as instructions use them: descriptors (R201), QPUSH (R202, R381), QFLUSH and QSTAT (R204), and the run of present records (R203). -/

namespace Sys2Proof.Machine

/-! ### Descriptors (R201) -/

/-- What a QPUSH needs of a descriptor. -/
structure QDesc where
  base : Nat
  cfg : Word
  fb : Nat
  tail : Word
  done : Word
  state : Word
deriving DecidableEq, Repr

def QDesc.cap (q : QDesc) : Nat := fieldOf q.cfg 0 20 + 1
def QDesc.rsz (q : QDesc) : Nat := fieldOf q.cfg 20 2
def QDesc.size (q : QDesc) : Nat := 16 * 2 ^ q.rsz
/-- A reserved value in CFG. -/
def badCfg (cfg : Word) : Bool := fieldOf cfg 48 16 != 0 || fieldOf cfg 20 2 == 3
def QDesc.enabled (q : QDesc) : Bool := q.state.getLsbD 63
def QDesc.of (m : Memory) (pa : Nat) : QDesc :=
  let w := fun i => (m.word64 (pa + 8 * i)).1
  ⟨(w 0).toNat, w 1, (w 3).toNat, w 4, w 5, w 7⟩

/-- The queue has room for a record. -/
def QDesc.room (q : QDesc) : Bool := (q.tail - q.done).toNat < q.cap
/-- The offset of the next record from BASE. -/
def QDesc.next (q : QDesc) : Nat := q.tail.toNat % q.cap * q.size
def QDesc.placeOne (q : QDesc) : QDesc := { q with tail := q.tail + 1 }
def QDesc.refuse (q : QDesc) : QDesc :=
  { q with state := BitVec.ofNat 64 (fieldOf q.state 32 32 * 2 ^ 32 + (fieldOf q.state 0 32 + 1) % 2 ^ 32) }

/-- The reserved value or ENABLED = 0 that a descriptor's CFG and STATE show. -/
def descFails (cfg state : Word) : Option (Nat × Nat) :=
  if badCfg cfg then some (0x0C, 4) else if !state.getLsbD 63 then some (0x0C, 6) else none

/-! ### The engine's view (R203) -/

/-- Whether a record written to a place outside local memory has not been answered yet. -/
def Mach.writePending (m : Mach) (dev addr : Nat) : Bool := m.requests.any fun (_, r) =>
  r.answer.isNone && match r.frame with
    | some f => f.opc == 1 && f.dst.toNat == dev && f.addr.toNat == addr
    | none => false

/-- The length of the run of present records from a position (R203). -/
def presentRun (present : Tab Record) (start : Nat) : Nat → Nat
  | 0 => 0
  | fuel + 1 => if (tabGet present start).isSome then 1 + presentRun present (start + 1) fuel else 0

/-- |P| of the queue whose descriptor lies at a physical address. -/
def Mach.readyCount (m : Mach) (pa : Nat) : Nat := match tabGet m.spawnqs pa with
  | some q => presentRun q.present (m.mem.word64 (pa + 48)).1.toNat q.present.length
  | none => 0

/-- The flush timer starts in cycle k when P is non-empty (R203); while the context is switched out the field holds the elapsed count (R351). -/
def Mach.startTimerAt (m : Mach) (pa k : Nat) : Mach :=
  if 0 < m.readyCount pa then
    { m with spawnqs := tabMod m.spawnqs pa fun q => { q with timer := match q.timer with
      | some t => some t
      | none => some (if (m.ctx q.ctx).any (·.resident) then k else 0) } }
  else m
def Mach.startTimer (m : Mach) (pa : Nat) : Mach := m.startTimerAt pa m.clk

/-- The queue whose descriptor lies at an address takes a record of a release at a position. -/
def Mach.recordPresent (m : Mach) (pa pos : Nat) (r : Record) : Mach :=
  { m with spawnqs := tabMod m.spawnqs pa fun q => { q with present := tabSet q.present pos r } }.startTimer pa

/-- A translation that posts no page request: a fallback that cannot be reached is treated as full (R202). -/
def Mach.tryXlate (m : Mach) (die ctx va : Nat) (use : Use) : Option Elt :=
  if 2 ^ 55 ≤ va then none
  else
    let world := m.worldOf ctx
    let leaf := match (m.die die).tlb.find? fun e => e.covers ctx world va with
      | some e => WalkResult.leaf e
      | none => m.walkTable ctx va
    match leaf with
    | .leaf e => match m.checkLeaf world e va use with
      | .ok pa attr secure => some ⟨0, va, pa, attr, secure⟩
      | _ => none
    | _ => none

/-! ### Placing records (R202) -/

/-- A record that a queue takes: the queue's address, the position, the virtual address, and its lane. -/
structure Placed where
  queue : Nat
  pos : Nat
  va : Nat
  size : Nat
  lane : Nat
deriving DecidableEq, Repr

/-- The queues as they stand while records are placed, what has been placed, and the lanes refused with their queue. -/
structure Placing where
  qs : List (Nat × QDesc)
  placed : List Placed
  refused : List (Nat × Nat)
deriving DecidableEq, Repr

def Placing.desc (p : Placing) (m : Memory) (pa : Nat) : QDesc := match p.qs.find? fun x => x.1 == pa with
  | some (_, q) => q
  | none => QDesc.of m pa
def Placing.setDesc (p : Placing) (pa : Nat) (q : QDesc) : Placing :=
  { p with qs := if p.qs.any fun x => x.1 == pa then p.qs.map fun x => if x.1 == pa then (pa, q) else x else p.qs ++ [(pa, q)] }

/-- Offer a lane's record to a queue. -/
def Placing.offer (p : Placing) (m : Memory) (pa lane : Nat) : Placing :=
  let q := p.desc m pa
  if q.room then
    { p.setDesc pa q.placeOne with placed := p.placed ++ [⟨pa, q.tail.toNat, q.base + q.next, q.size, lane⟩] }
  else { p.setDesc pa q.refuse with refused := p.refused ++ [(lane, pa)] }

/-- Whether a fallback can take a record of a size (R202). -/
def Mach.fallback (m : Mach) (die ctx : Nat) (p : Placing) (fb size : Nat) : Option Nat :=
  match m.tryXlate die ctx fb .store with
  | none => none
  | some e =>
    let q := p.desc m.mem e.pa
    let ring := pageStarts q.base (q.cap * q.size)
    if fb % 64 == 0 && regionOf e.pa == .loc && e.attr ≤ 1 && !m.mem.anyPoison e.pa 64 && !badCfg q.cfg && q.enabled && q.size == size &&
       (ring.all fun a => (m.tryXlate die ctx a .store).any fun e => acceptUpdate (regionOf e.pa) e.attr) && q.room then some e.pa else none

/-- Offer the refused records to the fallbacks, in ascending lanes. -/
def Mach.placeFallbacks (m : Mach) (die ctx : Nat) (p : Placing) : Placing :=
  (sortBy (fun a b => a.1 ≤ b.1) p.refused).foldl (fun (p : Placing) (lane, pa) =>
    let q := p.desc m.mem pa
    if q.fb == 0 then p
    else match m.fallback die ctx p q.fb q.size with
      | some fpa =>
        let f := p.desc m.mem fpa
        { p.setDesc fpa f.placeOne with placed := p.placed ++ [⟨fpa, f.tail.toNat, f.base + f.next, f.size, lane⟩] }
      | none => p) p

/-! ### QPUSH (R202, R381) -/

/-- The record of a lane: its words with their poison. -/
def Task.recordOf (t : Task) (x : FM) (lane words : Nat) : Datum :=
  let ws := (List.range words).map fun i =>
    if x.dk then
      let r := t.readU 0 (x.d.toNat + i / 2)
      if i % 2 == 0 then ((r.v.toNat % 2 ^ 32), r.lo) else (r.v.toNat / 2 ^ 32, r.hi)
    else
      let r := t.readV 0 (x.d.toNat + i)
      ((at32 r.e lane).toNat, r.poi.getLsbD lane)
  ((ws.zipIdx.map fun (w, i) => w.1 * 2 ^ (32 * i)).foldl (· + ·) 0, (ws.zipIdx.map fun (w, i) => if w.2 then 2 ^ i else 0).foldl (· + ·) 0)

/-- A queue that lanes name: here or on a device, with its elements. -/
structure QGroup where
  dev : Option Nat
  addr : Nat
  secure : Bool
  els : List Elt
deriving DecidableEq, Repr

/-- The queues that the lanes name, in ascending order of the lowest lane that names each. -/
def qGroups (ss : List (Elt × Spot)) : List QGroup :=
  ss.foldl (fun (gs : List QGroup) (e, s) =>
    let add := fun (dev : Option Nat) (addr : Nat) =>
      if gs.any fun g => g.dev == dev && g.addr == addr && g.secure == e.secure then
        gs.map fun g => if g.dev == dev && g.addr == addr && g.secure == e.secure then { g with els := g.els ++ [e] } else g
      else gs ++ [⟨dev, addr, e.secure, [e]⟩]
    match s with
    | .here pa => add none pa
    | .away d a => add (some d) a
    | _ => gs) []

/-- The answered READ of a remote descriptor (bytes +8 to +63). -/
def descAnswer (kept : List (Nat × Request)) (g : QGroup) : Option (Option Answer) :=
  (kept.find? fun (_, r) => match r.kind with
    | .kept _ _ ((d, a) :: _) => some d == g.dev && a == g.addr
    | _ => false).map (·.2.answer)

/-- A word of a queue's descriptor with its poison; bytes +0 to +7 of a remote one are not read. -/
def descWord (m : Mach) (kept : List (Nat × Request)) (g : QGroup) (i : Nat) : Word × Bool :=
  match g.dev with
  | none => m.mem.word64 (g.addr + 8 * i)
  | some _ => match descAnswer kept g with
    | some (some a) => let d := a.datum (8 * i - 8) 8; (BitVec.ofNat 64 d.1, d.2 != 0)
    | _ => (0, false)

/-- The byte offset of the lowest poisoned word among those read. -/
def descPoison (m : Mach) (kept : List (Nat × Request)) (nofb : Bool) (g : QGroup) : Option Nat :=
  let words := if g.dev.isSome then [1, 7] else if nofb then [0, 1, 4, 5, 7] else [0, 1, 3, 4, 5, 7]
  (words.find? fun i => (descWord m kept g i).2).map (8 * ·)

/-- The checks that a queue's CFG and STATE decide: reserved values, ENABLED, and the alignment of D (R201, R202). -/
def qpushFails (x : FM) (m : Mach) (kept : List (Nat × Request)) (gs : List QGroup) : List (Nat × Nat × Fail) :=
  gs.flatMap fun g =>
    let cfg := (descWord m kept g 1).1
    let w := 4 * 2 ^ fieldOf cfg 20 2 / (if x.dk then 2 else 1)
    match descFails cfg (descWord m kept g 7).1 with
    | some (c, r) => g.els.map fun e => (e.lane, e.va, c, r, 0, 0)
    | none => if x.d.toNat % w != 0 then g.els.map fun e => (e.lane, e.va, 0x0C, 4, 0, 0) else []

/-- The last register of a record beyond the allotment (R22). -/
def qpushBeyond (x : FM) (t : Task) (m : Mach) (kept : List (Nat × Request)) (gs : List QGroup) : Option EncFault :=
  let limit := if x.dk then 8 * t.sblk else 8 * t.vblk
  gs.findSome? fun g =>
    let w := 4 * 2 ^ fieldOf (descWord m kept g 1).1 20 2 / (if x.dk then 2 else 1)
    if limit < x.d.toNat + w then some ⟨0x01, 0, BitVec.ofNat 16 (256 * ((x.d.toNat + w - 1) % 256))⟩ else none

/-- The frame of the records that go to a queue of another device. -/
def qpushFrame (x : FM) (t : Task) (g : QGroup) (rsz : Nat) (scope : Scope) : Frame :=
  let words := 4 * 2 ^ rsz
  let recs := g.els.map fun e => t.recordOf x e.lane words
  let poi := recs.zipIdx.map fun (r, i) => (i, r.2)
  withPayload { blankFrame 0x04 (g.dev.getD 0) g.addr g.secure with
    ord := 2, scope := scopeCode scope
    oparg := BitVec.ofNat 64 (recs.length + 2 ^ 16 * rsz + if x.sub.getLsbD 0 then 2 ^ 18 else 0) }
    (recs.flatMap fun r => toBytes (4 * words) r.1) fun w => match poi.find? fun p => p.1 == w / words with
      | some (_, b) => b.testBit (w % words)
      | none => false

/-- The lanes of pB that one element decides: its lane, or every lane of xact for the uniform form. -/
def acceptLanes (x : FM) (ι : Iss) (lane : Nat) : Mask := if x.dk then ι.s.xact else (1 : Mask) <<< lane

/-- The QPUSH itself, once its checks have passed: release, reservations, records, and the requests for remote queues. -/
def qpushMake (x : FM) (m : Mach) (ι : Iss) (gs : List QGroup) (kept : List (Nat × Request)) (p : Placing)
    (spots : List (Placed × Elt × Spot)) : Mach :=
  let c := ι.t.core
  let rszs := gs.map fun g => fieldOf (descWord m kept g 1).1 20 2
  let m := m.dropKept ι
  let m := if gs.isEmpty then m else m.bump c x.scope
  let r := m.recordOf c x.scope
  let (op, m) := m.fresh
  let m := p.qs.foldl (fun (m : Mach) (pa, q) =>
    let m := (m.updateAt c (pa + 32) fun mem => mem.setWord64 (pa + 32) q.tail).updateAt c pa id
    let m := { m with mem := m.mem.setWord64 (pa + 56) q.state }
    if p.placed.any fun y => y.queue == pa then m.setRecord (pa + 32) r else m) m
  let (ids, m) := spots.foldl (fun (acc : List Nat × Mach) (y, e, s) =>
    let (ids, m) := acc
    let d := ι.t.recordOf x y.lane (y.size / 4)
    let (ids, m) := match s with
      | .here pa => (ids, (List.range ((y.size + 31) / 32)).foldl (fun (m : Mach) i =>
          let n := min 32 (y.size - 32 * i)
          m.updateAt c (pa + 32 * i) fun mem => mem.put (pa + 32 * i) n (d.1 / 2 ^ (256 * i) % 2 ^ (8 * n), d.2 / 2 ^ (8 * i) % 2 ^ (n / 4))) m)
      | .away dev a =>
        let (n, m) := m.request (.record ι.tid op y.queue y.pos r) ι.t.ctx (writeFrame dev a e.secure .rlx .team .b32 (toBytes y.size d.1) fun w => d.2.testBit w)
        (ids ++ [n], m)
      | _ => (ids, m)
    (ids, match s with
      | .away _ _ => m
      | _ => m.recordPresent y.queue y.pos r)) ([], m)
  let known := (gs.filter (·.dev.isNone)).foldl (fun k g => g.els.foldl (fun k e => k ||| acceptLanes x ι e.lane) k) (0 : Mask)
  let taken := p.placed.foldl (fun k y => k ||| acceptLanes x ι y.lane) (0 : Mask)
  let (ids, m) := (gs.zip rszs).foldl (fun (acc : List Nat × Mach) (g, rsz) =>
    if g.dev.isNone then acc
    else
      let (n, m) := acc.2.request (.accept ι.tid op x.b.toNat (g.els.map fun e => acceptLanes x ι e.lane)) ι.t.ctx (qpushFrame x ι.t g rsz x.scope)
      (acc.1 ++ [n], m)) (ids, m)
  ι.mod m fun t => t.startOp ⟨op, .access, ι.flag x.fl, false, [.p x.b.toNat known ⟨taken, 0⟩ 0], ids⟩

/-- The pages of the local queues' rings. -/
def qpushRings (m : Mach) (gs : List QGroup) : List (Nat × Nat) := (gs.filter (·.dev.isNone)).flatMap fun g =>
  let q := QDesc.of m.mem g.addr
  g.els.flatMap fun e => (pageStarts q.base (q.cap * q.size)).map fun a => (e.lane, a)

/-- Which queue takes which lane's record, in ascending lanes, and in the fallbacks unless `.nofb` (R202). -/
def qpushPlacing (x : FM) (t : Task) (m : Mach) (gs : List QGroup) : Placing :=
  let p := (gs.filter (·.dev.isNone)).foldl (fun (p : Placing) g => g.els.foldl (fun (p : Placing) e => p.offer m.mem g.addr e.lane) p) ⟨[], [], []⟩
  if x.sub.getLsbD 0 then p else m.placeFallbacks (dieOf t.core) t.ctx p

/-- Where the placed records go, from the places of the rings' pages. -/
def qpushPlaces (t : Task) (m : Mach) (rings : List Elt) (p : Placing) : List Elt := p.placed.filterMap fun y =>
  match rings.find? fun (r : Elt) => r.va / 65536 == y.va / 65536 with
  | some r => some { r with lane := y.lane, va := y.va, pa := r.pa - r.va + y.va }
  | none => (m.tryXlate (dieOf t.core) t.ctx y.va .store).map fun r => { r with lane := y.lane }

/-- The first and the last sector of each record in local memory. -/
def qpushSectors (p : Placing) (rec : List (Elt × Spot)) : List (Elt × Nat) :=
  (locals rec).flatMap fun (e, pa) => [(e, pa), (e, pa + 32 * (((p.placed.zip rec).find? fun z => z.2.1 == e).map fun z => (z.1.size - 1) / 32).getD 0)]

/-- The poison of a lane's record. -/
def qpushPoisoned (x : FM) (t : Task) (m : Mach) (kept : List (Nat × Request)) (gs : List QGroup) (l : Nat) : Bool :=
  (t.recordOf x l (4 * 2 ^ match gs.find? fun g => g.els.any fun e => e.lane == l with
    | some g => fieldOf (descWord m kept g 1).1 20 2
    | none => 0)).2 != 0

/-- The last checks of QPUSH and its effect, once it has read the descriptors. -/
def qpushPlaced (x : FM) (kept : List (Nat × Request)) (m : Mach) (ι : Iss) (ss : List (Elt × Spot)) : Res :=
  let gs := qGroups ss
  match failTrap ι x.dk (qpushFails x m kept gs), qpushBeyond x ι.t m kept gs with
  | some i, _ => .trap m i
  | none, some f => .trap m (illopTrap ι.s f)
  | none, none =>
    withPlaces m ι x.dk 1 .store acceptUpdate (qpushRings m gs) fun m ι rs =>
      withBoundary m ι x.dk (qpushPoisoned x ι.t m kept gs) ss fun m ι ss =>
        let gs := qGroups ss
        let p := qpushPlacing x ι.t m gs
        withSpots m ι true (qpushPlaces ι.t m rs p) fun m ι rec =>
          match failTrap ι x.dk (m.raceFails ι.t.core true true (qpushSectors p rec)) with
          | some i => .trap m i
          | none => if !m.performed ι.tid (!gs.isEmpty && (gs.all (·.dev.isSome)) && scopeNat x.scope ≤ 3) then .wait m false .cond
            else .done (qpushMake x m ι gs kept p (p.placed.zip rec))

/-- QPUSH (R202, R381). -/
def bodyQpush (x : FM) (m : Mach) (ι : Iss) : Res :=
  let addrs := ι.t.addrLanes x
  if flagFull ι.t (ι.flag x.fl) then .wait m false .cond
  else withAddresses m ι x.ak x.dk addrs fun m ι =>
    withPlaces m ι x.dk 64 .store acceptUpdate (ι.elements x.dk addrs) fun m ι es =>
    withSpots m ι true es fun m ι ss =>
      let kept := m.keptOf ι
      let unread := (qGroups ss).filter fun g => g.dev.isSome && (descAnswer kept g).isNone
      if !unread.isEmpty then
        .wait (unread.foldl (fun m g => (m.request (.kept ι.tid ι.t.free [(g.dev.getD 0, g.addr)]) ι.t.ctx
          (readFrame (g.dev.getD 0) (g.addr + 8) 56 g.secure .rlx .team)).2) m) false .cond
      else if kept.any fun x => x.2.answer.isNone then .wait m false .cond
      else match failTrap ι x.dk (m.raceFails ι.t.core true true ((locals ss).flatMap fun (e, pa) => [(e, pa), (e, pa + 32)])) with
        | some i => .trap m i
        | none =>
          let m := (locals ss).foldl (fun m (_, pa) => (m.flush ι.t.core pa).flush ι.t.core (pa + 32)) m
          let bad := (qGroups ss).filter fun g => (descPoison m kept (x.sub.getLsbD 0) g).isSome
          let lanes := if bad.isEmpty then 0 else if x.dk then ι.s.xact else maskOf fun l => bad.any fun g => g.els.any fun e => e.lane == l
          let first := bad.head?
          let addr := match first.bind fun g => g.els.head? with
            | some e => e.va
            | none => 0
          consume m ι lanes 0x0A ((first.bind (descPoison m kept (x.sub.getLsbD 0))).getD 0) (BitVec.ofNat 64 addr) 0 fun m ι =>
            qpushPlaced x kept m ι (ss.filter fun y => x.dk || ι.k.getLsbD y.1.lane)
def execQpush (x : FM) (s : State) := issue (.qpush x) (bodyQpush x) s

/-! ### QFLUSH and QSTAT (R204) -/

/-- The descriptor that a uniform instruction names, after its checks; `words`: those that it reads. -/
def withDescriptor (x : FM) (words : List Nat) (m : Mach) (ι : Iss) (go : Mach → Iss → Elt → Spot → Res) : Res :=
  let a := ι.t.addrUni x
  withAddresses m ι true true (sameLanes a) fun m ι =>
    withPlaces m ι true 64 .load acceptObject [(0, a.1)] fun m ι es =>
      withSpots m ι false es fun m ι ss => match ss with
        | (e, .here pa) :: _ => match m.spanRace ι.t.core pa 64 false true with
          | some h => .trap m (ι.raceTrap h a.1)
          | none =>
            let m := (m.flush ι.t.core pa).flush ι.t.core (pa + 32)
            let poi := words.find? fun i => (m.mem.word64 (pa + 8 * i)).2
            consumeUni m ι poi.isSome 0x0A (8 * poi.getD 0) (BitVec.ofNat 64 a.1) 0 fun m ι =>
              match descFails (m.mem.word64 (pa + 8)).1 (m.mem.word64 (pa + 56)).1 with
              | some (c, r) => .trap m (ι.uniTrap c r 0 a.1)
              | none => go m ι e (.here pa)
        | (e, s) :: _ => go m ι e s
        | [] => .wait m false .cond

/-- A flush request reaches a queue: records present now are to be spawned. -/
def Mach.flushQueue (m : Mach) (pa : Nat) : Mach :=
  let upTo := (m.mem.word64 (pa + 48)).1.toNat + m.readyCount pa
  { m with spawnqs := tabMod m.spawnqs pa fun q => { q with flushTo := max q.flushTo upTo } }

/-- What QSTAT reads of a queue. -/
def Mach.queueStat (m : Mach) (pa sub : Nat) : Word :=
  let w := fun i => (m.mem.word64 (pa + 8 * i)).1
  match sub with
  | 0 => w 4 - w 5
  | 1 => BitVec.ofNat 64 (m.readyCount pa)
  | 2 => BitVec.ofNat 64 (fieldOf (w 7) 32 16)
  | 3 => BitVec.ofNat 64 (fieldOf (w 7) 0 32)
  | _ => BitVec.ofNat 64 (fieldOf (w 1) 0 20 + 1)

/-- QFLUSH. -/
def bodyQflush (x : FM) (m : Mach) (ι : Iss) : Res := withDescriptor x [1, 7] m ι fun m ι e s =>
  if m.countedLeft ι.tid then .wait m false .cond
  else match s with
  | .here pa => .done (m.flushQueue pa)
  | .away d a => .done (m.request .free ι.t.ctx (blankFrame 0x06 d a e.secure)).2
  | _ => .done m
def execQflush (x : FM) (s : State) := issue (.qflush x) (bodyQflush x) s

/-- QSTAT. -/
def bodyQstat (x : FM) (m : Mach) (ι : Iss) : Res :=
  let flag := ι.flag x.fl
  let dest := Dest.uni x.d.toNat .b64
  if flagFull ι.t flag then .wait m false .cond
  else withDescriptor x (match x.sub.toNat with
      | 0 => [1, 4, 5, 7]
      | _ => [1, 7]) m ι fun m ι e s =>
    let (op, m) := m.fresh
    match s with
    | .here pa => .done (ι.mod m fun t => t.startOp ((mkOp t op flag [dest] []).land dest 0 ((m.queueStat pa x.sub.toNat).toNat, 0)))
    | .away d a =>
      let (n, m) := m.request (.load ι.tid op [(dest, 0, 0)]) ι.t.ctx
        { blankFrame 0x06 d a e.secure with oparg := BitVec.ofNat 64 (x.sub.toNat + 1) }
      .done (ι.mod m fun t => t.startOp (mkOp t op flag [dest] [n]))
    | _ => .done (ι.mod m fun t => t.startOp ((mkOp t op flag [dest] []).land dest 0 (chipDatum t 8 e)))
def execQstat (x : FM) (s : State) := issue (.qstat x) (bodyQstat x) s

end Sys2Proof.Machine
end

