-- ==== Sys2Proof/Machine/Barriers.lean ====
section
/-! DEFINITION. Barrier words as instructions use them: BARI, BARA, BARX, BARP and BARW (R210 to R212, R306, R408). -/

namespace Sys2Proof.Machine

/-- The team-local offset of a uniform access to scratchpad. -/
def Task.offUni (t : Task) (x : FM) : Nat × Bool := laneAt (t.offLanes x) 0

/-- PHASE at the end of the cycle before this one (R211). -/
def Mach.phaseBefore (m : Mach) (g : Team) (r : Barrier) : Bool := match r.before with
  | some (c, p) => if c == m.clk then p else (BarWord.of (m.barWord g r.offset).1).phase
  | none => (BarWord.of (m.barWord g r.offset).1).phase

/-- The operands and the place of a barrier word (R185, R211): its offset, in the team's allocation. -/
def withBarrier (x : FM) (operand : Option (Nat × Bool)) (m : Mach) (ι : Iss) (go : Mach → Iss → Team → Nat → Res) : Res :=
  let o := ι.t.offUni x
  withAddresses m ι true true (sameLanes o) fun m ι =>
    consumeUni m ι (match operand with
      | some v => v.2
      | none => false) 0x07 0 0 0 fun m ι =>
      match m.team ι.t.team with
      | none => .trap m (ι.uniTrap 5 4 0 o.1)
      | some g =>
        if o.1 % 8 != 0 then .trap m (ι.uniTrap 3 1 8 o.1)
        else if g.spadLen < o.1 + 8 then .trap m (ι.uniTrap 5 4 0 o.1)
        else go m ι g o.1

/-- A registered word that is not poisoned (R211, R408). -/
def withRegistered (x : FM) (operand : Option (Nat × Bool)) (m : Mach) (ι : Iss) (go : Mach → Iss → Team → Barrier → BarWord → Res) : Res :=
  withBarrier x operand m ι fun m ι g o =>
    match g.barrier o with
    | none => .trap m (ι.uniTrap 0x0C 7 0 o)
    | some r =>
      let w := m.barWord g o
      consumeUni m ι w.2 0x10 0 (BitVec.ofNat 64 o) 0 fun m ι => go m ι g r (BarWord.of w.1)

/-- BARI (R211). -/
def bodyBari (x : FM) (m : Mach) (ι : Iss) : Res :=
  let v := ι.t.uniOpnd 0 x.d.toNat 64
  withBarrier x (some v) m ι fun m ι g o =>
    let exp := v.1 % 32
    let members := BitVec.ofNat 16 (v.1 / 2 ^ 16)
    if 16 < exp || v.1 / 2 ^ 5 % 2 ^ 11 != 0 || v.1 / 2 ^ 32 != 0 || ((g.barrier o).isNone && 32 ≤ g.barriers.length) then
      .trap m (ι.uniTrap 0x0C 4 0 o)
    else
      let members := if members == 0 then BitVec.ofNat 16 (2 ^ g.size - 1) else members
      let m := if (g.barrier o).isSome then m
        else m.modTeam ι.t.team fun g => { g with barriers := g.barriers ++ [⟨o, 0, 0, none, none, none⟩] }
      let m := m.changeBarrier ι.t.team o (fun _ => ⟨false, exp, exp, 0⟩)
        fun r => { r with arrived := 0, members := members, changed := some m.clk }
      let a := g.spadBase + o
      .done (m.modCore g.core fun c => { c with spad := (c.spad.setPoison a false).setPoison (a + 4) false })
def execBari (x : FM) (s : State) := issue (.bari x) (bodyBari x) s

/-- An arrival with an expectation (R211): a task that has arrived already waits for the next phase, and is applied a cycle later. -/
def barArrive (x : FM) (operand : Option (Nat × Bool)) (m : Mach) (ι : Iss) : Res :=
  withRegistered x operand m ι fun m ι g r b =>
    let v := match operand with
      | some v => v.1
      | none => 0
    let flipped := m.phaseBefore g r != b.phase
    if 2 ^ 39 ≤ v then .trap m (ι.uniTrap 0x0C 4 0 r.offset)
    else if !((m.task ι.tid).map Task.storesDone).getD true || r.arrived.getLsbD ι.t.idx || (ι.again && flipped) then .wait m true .cond
    else
      .done (m.changeBarrier ι.t.team r.offset (fun b => { b with pend := b.pend - 1, bytes := m.barBytes (b.bytes + v) })
        fun r => { r with arrived := r.arrived ||| ((1 : BitVec 16) <<< ι.t.idx), changed := some m.clk })

/-- BARA (R211). -/
def bodyBara (x : FM) (m : Mach) (ι : Iss) : Res := barArrive x none m ι
def execBara (x : FM) (s : State) := issue (.bara x) (bodyBara x) s
/-- BARX (R211). -/
def bodyBarx (x : FM) (m : Mach) (ι : Iss) : Res := barArrive x (some (ι.t.uniOpnd 0 x.d.toNat 64)) m ι
def execBarx (x : FM) (s : State) := issue (.barx x) (bodyBarx x) s

/-- BARP (R211): the result stays within BYTES. -/
def bodyBarp (x : FM) (m : Mach) (ι : Iss) : Res :=
  let v := ι.t.uniOpnd 0 x.d.toNat 64
  withRegistered x (some v) m ι fun m ι _ r b =>
    let n := b.bytes + (BitVec.ofNat 64 v.1).toInt
    if n < -(2 : Int) ^ 39 || (2 : Int) ^ 39 ≤ n then .trap m (ι.uniTrap 0x0C 4 0 r.offset)
    else .done (m.changeBarrier ι.t.team r.offset (fun b => { b with bytes := n }) fun r => { r with changed := some m.clk })
def execBarp (x : FM) (s : State) := issue (.barp x) (bodyBarp x) s

/-- BARW (R211): satisfied when PHASE at the end of the cycle before differs from its parity. -/
def bodyBarw (x : FM) (m : Mach) (ι : Iss) : Res :=
  withRegistered x none m ι fun m ι g r _ =>
    if m.phaseBefore g r == x.sub.getLsbD 0 then .wait m true .cond
    else .done (ι.mod m fun t => { t with progressed := true })
def execBarw (x : FM) (s : State) := issue (.barw x) (bodyBarw x) s

end Sys2Proof.Machine
end

