-- ==== Sys2Proof/Machine/Copies.lean ====
section
/-! DEFINITION. CPY, CPYL and CPYG (R205 to R209, R304, R305): their checks, the copy that the engine makes, and its completion. -/

namespace Sys2Proof.Machine

/-! ### Checks of several objects (R185) -/

/-- Addresses that an instruction names for one use, by lane. `uni`: a uniform operand, named by every lane of xact. -/
structure Target where
  use : Use
  accepts : Accepts
  els : List (Nat × Nat)
  uni : Bool

/-- Translation, permission, world and bounds for several objects together; `extra`: bounds checks that fail. -/
def withTargets (m : Mach) (ι : Iss) (uni : Bool) (aligns : List (Nat × Nat × Fail)) (ts : List Target) (extra : List (Nat × Nat × Fail))
    (go : Mach → Iss → List (List Elt) → Res) : Res :=
  match failTrap ι uni aligns with
  | some i => .trap m i
  | none =>
    let (xs, m) := ts.foldl (fun (acc : List (Target × XlAll) × Mach) t =>
      let (x, m) := acc.2.xlateAll ι.t.core ι.t.ctx t.use ι.found t.els
      (acc.1 ++ [(t, x)], m)) ([], m)
    match xs.findSome? fun x => x.2.miss with
    | some va =>
      let (n, m) := m.missWalk ι.t.core ι.t.ctx va
      .wait m false (.page (dieOf ι.t.core) n 3 va)
    | none =>
      let keep := fun (k : Mask) (t : Target) (l : Nat) => uni || t.uni || k.getLsbD l
      let poi := (xs.flatMap fun x => x.2.fails).filter fun f => f.2.2.1 == 8
      let lanes := if poi.isEmpty then 0 else if uni then ι.s.xact else maskOf fun l => poi.any fun f => f.1 == l
      let (va, detail) := match poi with
        | [] => (0, 0)
        | f :: _ => (f.2.1, f.2.2.2.2.1)
      consume m ι lanes 0x0E detail (BitVec.ofNat 64 va) 0 fun m ι =>
        let oks := fun (x : Target × XlAll) => x.2.oks.filter fun e => keep ι.k x.1 e.lane
        let missed := xs.flatMap fun x => x.2.fails.filter fun f => f.2.2.1 != 8 && keep ι.k x.1 f.1
        let places := xs.flatMap fun x => refusedFails ι.found (oks x) ++ m.placeFails (x.1.use == .store) x.1.accepts (oks x)
        match failTrap ι uni (missed ++ places ++ extra.filter fun f => uni || ι.k.getLsbD f.1) with
        | some i => .trap m i
        | none => go m ι (xs.map oks)

/-- The addresses at which a range enters a 4 KiB page, with its first byte. -/
def hostStarts (a n : Nat) : List Nat :=
  if n == 0 then [] else (List.range ((a + n - 1) / 4096 - a / 4096 + 1)).map fun i => if i == 0 then a else (a / 4096 + i) * 4096

/-- Cut a range of n bytes wherever its source or its destination enters a 4 KiB page: offsets and lengths. -/
def cuts (a b n : Nat) : List (Nat × Nat) :=
  let pts := sortBy (· ≤ ·) (((List.range (n / 4096 + 2)).flatMap fun k => [4096 * (k + 1) - a % 4096, 4096 * (k + 1) - b % 4096]).filter (· < n))
  ((0 :: pts).zip (pts ++ [n])).filterMap fun (p, q) => if p < q then some (p, q - p) else none

/-- Where a virtual address lies, from the places of 4 KiB pages. -/
def spotAt (m : Mach) (ss : List (Elt × Spot)) (va : Nat) : Place :=
  match ss.find? fun x => x.1.va / 4096 == va / 4096 with
  | some (e, s) => if e.va ≤ va then (placeOf m e s).shift (va - e.va) else .zero
  | none => .zero

/-- The sectors of local memory that bytes at a place touch. -/
def sectorsAt (p : Place) (n : Nat) : List Nat := match p with
  | .mem a => if n == 0 then [] else (List.range ((a + n - 1) / 32 - a / 32 + 1)).map fun i => 32 * (a / 32 + i)
  | _ => []

/-! ### The start of a copy -/

/-- What a copy does: its moves, its completion, whether that is a release, and whether R150 counts the copy. -/
structure CopyPlan where
  moves : List Move
  completion : Completion
  release : Bool
  counted : Bool
deriving DecidableEq, Repr

/-- The place that the completion writes. -/
def Completion.place : Completion → List (Place × Nat)
  | .stamp p _ => [(p, 8)]
  | .signal p => [(p, 8)]
  | _ => []

/-- The destination pieces of a copy, with what its completion writes. -/
def CopyPlan.targets (c : CopyPlan) : List (Place × Nat) := (c.moves.flatMap fun v => v.dsts.map fun d => (d, v.len)) ++ c.completion.place
/-- The release of a copy's completion is made through a line of another device (R383). -/
def CopyPlan.remoteOnly (c : CopyPlan) : Bool := !c.completion.place.isEmpty && c.completion.place.all fun (p, _) => match p with
  | .away _ _ _ => true
  | _ => false
def CopyPlan.sources (c : CopyPlan) : List (Place × Nat) := c.moves.map fun v => (v.src, v.len)

/-- What a piece of a copy fails (R205): a sealed destination, a race at any of its sectors. -/
def Mach.pieceFail (m : Mach) (core : Nat) (write : Bool) (p : Place) (n : Nat) : Option Fail :=
  let sealedHere := match p with
    | .mem a => write && m.seals.any fun (_, s) => piecesMeet s.pieces [(a, n)]
    | _ => false
  if sealedHere then some (5, 3, 0, 0)
  else ((sectorsAt p n).findSome? fun a => m.race core a write true).map fun h => (6, 1, 0, dieOf h + 8 * logicalOf h)

/-- What the moves of a copy and what its completion writes fail. `who`: the lane and the address of a move, in the order of the moves
(CPYL, R207); a uniform copy has one address. -/
def Mach.copyFails (m : Mach) (core : Nat) (c : CopyPlan) (who : Nat → Nat × Nat) (va : Nat) :
    List (Nat × Nat × Fail) × List (Nat × Nat × Fail) :=
  (c.moves.zipIdx.filterMap fun (v, i) =>
    ((m.pieceFail core false v.src v.len).or (v.dsts.findSome? fun d => m.pieceFail core true d v.len)).map fun f => ((who i).1, (who i).2, f),
   c.completion.place.filterMap fun (p, n) => (m.pieceFail core true p n).map fun f => (0, va, f))

/-- The trap of a copy whose bytes the core may not reach (R205): of the lanes that fail the earliest cause. -/
def Mach.copyFault (m : Mach) (ι : Iss) (uni : Bool) (c : CopyPlan) (who : Nat → Nat × Nat) (va : Nat) : Option TrapInfo :=
  let (moves, done) := m.copyFails ι.t.core c who va
  let denied := fun (l : List (Nat × Nat × Fail)) => l.filter fun f => f.2.2.1 == 5
  failTrap ι uni (denied moves) <|> failTrap ι true (denied done) <|> failTrap ι uni moves <|> failTrap ι true done

/-- Whether the source and destination ranges overlap (R205). -/
def CopyPlan.overlaps (c : CopyPlan) : Bool :=
  c.sources.any fun (p, n) => c.moves.any fun v => v.dsts.any fun d => p.meets n d v.len

/-- Write an 8-byte stamp or decrease a signal, as a release with a record (R305). -/
def Mach.completionWrite (m : Mach) (id : Nat) (c : Copy) : Mach :=
  let scope := match c.record with
    | some r => r.scope
    | none => .dev
  let setRec := fun (m : Mach) (a : Nat) => match c.record with
    | some r => m.setRecord a r
    | none => m
  match c.completion with
  | .stamp (.mem a) v => setRec ({ m with mem := m.mem.setWord64 a v }.touch a) a
  | .stamp (.away d a s) v => (m.request (.copyWrite id) c.ctx (writeFrame d a s .rel scope .b64 (toBytes 8 v.toNat) fun _ => false)).2
  | .stamp (.host a s) v => { m with out := m.out ++ [.hostWrite a (toBytes 8 v.toNat) s false] }
  | .stamp (.chip a) v => { m with out := m.out ++ [.chip a (toBytes 8 v.toNat)] }
  | .signal (.mem a) => setRec ({ m with mem := addSignal (2 ^ 64 - 1, 0) a m.mem }.touch a) a
  | .signal (.away d a s) => (m.request (.copyWrite id) c.ctx (signalFrame (2 ^ 64 - 1, 0) d a s scope)).2
  | .barrier words bytes => { m with credits := m.credits ++ words.map fun (t, o) => ⟨t, o, bytes⟩ }
  | _ => m

/-- The completion of a copy whose every byte is written: the copy ends, or waits for the answer to its completion's frame. -/
def Mach.finishCopy (m : Mach) (id : Nat) : Mach :=
  match m.copy id with
  | none => m
  | some c =>
    let m := (m.completionWrite id c).modCopy id fun c => { c with completion := .none }
    if m.copyUnanswered id none then m else { m with copies := tabErase m.copies id }

/-- The device and world of the stream in which the completion's frame goes: payload frames before it in that stream need no answer first (R382). -/
def Completion.device : Completion → Option (Nat × Bool)
  | .stamp (.away d _ s) _ => some (d, s)
  | .signal (.away d _ s) => some (d, s)
  | _ => Option.none

/-- COPY_COMPLETION (R205): the last bytes are written and the completion is applied; none while its reads or answers are due. -/
def Mach.copyComplete (m : Mach) (id : Nat) : Option Mach :=
  match m.copy id with
  | none => none
  | some c =>
    let flagDue := match m.task c.task with
      | some t => t.pend.any fun o => o.id == c.op
      | none => false
    if c.reading && (flagDue || !c.readable) then none
    else
      let m' := (m.copyReads id).copyAll id
      if m'.copyUnanswered id c.completion.device then (if c.moves.isEmpty then none else some m') else some (m'.finishCopy id)

/-- The sealed regions that a copy reads (R162). -/
def Mach.copyReaders (m : Mach) (c : CopyPlan) : List Nat := m.seals.filterMap fun (n, s) => if c.sources.any fun (p, k) => match p with
  | .mem a => piecesMeet s.pieces [(a, k)]
  | _ => false then some n else none

/-- A copy starts: the issuing core's part (R305), the operation and the engine's work. -/
def beginCopy (flag : Option Nat) (scope : Scope) (c : CopyPlan) (m : Mach) (ι : Iss) : Mach :=
  let core := ι.t.core
  let readers := m.copyReaders c
  let m := (c.targets ++ c.sources).foldl (fun (m : Mach) (p, n) => (sectorsAt p n).foldl (fun m a => m.flush core a) m) m
  let m := c.targets.foldl (fun (m : Mach) (p, n) => (sectorsAt p n).foldl (fun m a => m.dropL1 core a) m) m
  let m := if c.release then m.bump core scope else m
  let (id, m) := m.fresh
  let (op, m) := m.fresh
  let moves := c.moves.map fun v => { v with data := m.readPlace v.src v.len }
  let (ids, m) := (moves.zipIdx).foldl (fun (acc : List Nat × Mach) (v, i) => match v.src with
    | .away d a s => let (n, m) := acc.2.request (.copyRead id i) ι.t.ctx (readFrame d a v.len s .rlx .team); (acc.1 ++ [n], m)
    | .host a s => let (n, m) := acc.2.hostRequest (.copyRead id i) ι.t.ctx fun tag => .hostRead tag a v.len s; (acc.1 ++ [n], m)
    | _ => acc) ([], m)
  let m := { m with
    copies := tabSet m.copies id ⟨ι.tid, op, ι.t.ctx, core, moves, c.completion,
      if c.release then some (m.recordOf core scope) else none, readers, true, c.counted⟩
    seals := m.seals.map fun (n, s) => (n, if readers.contains n then { s with readers := s.readers + 1 } else s) }
  let m := ι.mod m fun t => { t.startOp ⟨op, .copy, flag, false, [], ids⟩ with committed := t.committed || c.counted }
  if moves.isEmpty then (m.copyReads id).finishCopy id else m

/-- Start a copy: its races, the checks that its description adds, then the issuing core's part (R305), the operation and the engine's
work. `who`: the lane and address of each move of a CPYL; a uniform copy has one address, `va`. -/
def startCopy (flag : Option Nat) (scope : Scope) (va : Nat) (check : Mach → Iss → Option TrapInfo) (c : CopyPlan) (m : Mach) (ι : Iss)
    (who : Option (Nat → Nat × Nat) := none) : Res :=
  let pieces := c.targets ++ c.sources
  if m.copyAhead ι.tid pieces then .wait m false .cond
  else
    let m := m.overtaken ι.tid pieces
    match m.copyFault ι who.isNone c (who.getD fun _ => (0, va)) va <|> (if c.overlaps then some (ι.uniTrap 5 9 0 va) else none) <|> check m ι with
    | some i => .trap m i
    | none =>
      if flagFull ι.t flag || (c.release && !m.performed ι.tid (c.remoteOnly && scopeNat scope ≤ 3)) || (c.counted && m.countedLeft ι.tid) ||
         (m.seals.any fun (n, s) => (m.copyReaders c).contains n && 2 ^ 20 - 1 ≤ s.readers) then .wait m false .cond
      else
        .done (beginCopy flag scope c m ι)

/-! ### Barrier words that a copy names -/

/-- The barrier word of a team at an offset that is registered. -/
def registeredWord (m : Mach) (team offset : Nat) : Option (Nat × Nat) :=
  (m.team team).bind fun g => (g.barrier offset).map fun _ => (team, offset)

/-- The barrier word that a team of a core has registered at a physical offset; `team`: which team it must be. -/
def physicalWord (m : Mach) (core ctx : Nat) (team : Option Nat) (offset : Nat) : Option (Nat × Nat) :=
  (m.teams.find? fun (n, g) => g.core == core && g.ctx == ctx && (match team with
    | some t => n == t
    | none => true) && g.spadBase ≤ offset && (g.barrier (offset - g.spadBase)).isSome).map fun (n, g) => (n, offset - g.spadBase)

/-- The trap for a barrier word that is not registered. -/
def unregistered (words : List (Option (Nat × Nat))) (offset : Nat) (ι : Iss) : Option TrapInfo :=
  if words.any Option.isNone then some (ι.uniTrap 0x0C 7 0 offset) else none

/-- The members that a mask names. -/
def membersOf (core : Nat) (mask : Nat) : List Nat := ((List.range 4).filter fun i => mask.testBit i).map (memberCore core)

/-! ### CPY (R206, R209) -/

/-- The completion mode of EXT. -/
def cmode (ext : Word) : Nat := fieldOf ext 62 2

/-- Ordered and loose pages accept no copy destination (R390). -/
def acceptCopy : Accepts := fun r attr => r == .host || attr ≤ 1

/-- Whether the source and the destination of a CPY lie in global memory. -/
def cpyFrom (x : FX) : Bool := x.sub == 0 || x.sub == 2 || x.sub == 4
def cpyTo (x : FX) : Bool := x.sub == 1 || x.sub == 2
/-- The operands of CPY: the destination, the source and the length. -/
def cpyD (x : FX) (t : Task) : Nat × Bool := t.uniOpnd 0 x.d.toNat (if cpyTo x || x.sub == 5 then 64 else 32)
def cpyA (x : FX) (t : Task) : Nat × Bool := t.uniOpnd 1 x.a.toNat (if cpyFrom x then 64 else 32)
def cpyB (x : FX) (t : Task) : Nat × Bool := t.uniOpnd 2 x.b.toNat 32
/-- The cores of the complex that a CPY writes to: those of the mask of `.mc`, that of the near address. -/
def cpyMembers (x : FX) (t : Task) : List Nat :=
  if x.sub == 4 then membersOf t.core (x.imm7.toNat % 16) else if x.sub == 5 then [memberCore t.core ((cpyD x t).1 / 2 ^ 21 % 4)] else []
/-- Where the stamp goes: the first multiple of 8 behind the destination. -/
def cpyStamp (x : FX) (t : Task) : Nat := roundUpTo ((cpyD x t).1 + (cpyB x t).1) 8 % 2 ^ 64

/-- The alignment of CPY's length and addresses. -/
def cpyAligns (x : FX) (t : Task) : List (Nat × Nat × Fail) :=
  if (cpyB x t).1 % 4 != 0 then [(0, 0, (3, 5, 0, 0))]
  else [(cpyD x t).1, (cpyA x t).1].filterMap fun v => if v % 4 != 0 then some (0, v, (3, 1, 4, 0)) else none

/-- The global addresses of CPY. -/
def cpyTargets (x : FX) (t : Task) : List Target :=
  [⟨.load, acceptAll, if cpyFrom x then (hostStarts (cpyA x t).1 (cpyB x t).1).map fun v => (0, v) else [], false⟩,
   ⟨.store, acceptCopy, if cpyTo x then ((hostStarts (cpyD x t).1 (cpyB x t).1) ++
      if cmode x.ext == 2 then [cpyStamp x t] else []).map fun v => (0, v) else [], false⟩]

/-- The bounds of the scratchpad ranges of CPY. -/
def cpyBounds (x : FX) (t : Task) (m : Mach) : List (Nat × Nat × Fail) :=
  let (d, a, n) := ((cpyD x t).1, (cpyA x t).1, (cpyB x t).1)
  let len := ((m.team t.team).map (·.spadLen)).getD 0
  (if !cpyFrom x && n != 0 && len < a + n then [(0, a, (5, 4, 0, 0))] else []) ++
  (if (x.sub == 0 || x.sub == 3) && n != 0 && len < d + n then [(0, d, (5, 4, 0, 0))] else []) ++
  (if x.sub == 4 && n != 0 && (cpyMembers x t).any fun c => (m.teamAt c t.ctx d n).isNone then [(0, d, (5, 4, 0, 0))] else []) ++
  (if x.sub == 5 && m.nearFault t.core t.ctx true d n then [(0, d, (5, 5, 0, 0))] else [])

/-- The barrier words that the completion of a CPY names. -/
def cpyWords (x : FX) (t : Task) (m : Mach) : List (Option (Nat × Nat)) :=
  let (d, n, cval) := ((cpyD x t).1, (cpyB x t).1, fieldOf x.ext 0 48)
  if cmode x.ext != 1 then []
  else if x.sub == 4 || x.sub == 5 then
    (cpyMembers x t).map fun c => physicalWord m c t.ctx (if n == 0 then none else m.teamAt c t.ctx (if x.sub == 4 then d else d % 2 ^ 20) n) cval
  else [registeredWord m t.team cval]

/-- What a CPY does, from the places of its global addresses (R206, R209). -/
def cpyPlan (x : FX) (t : Task) (m : Mach) (ss ds : List (Elt × Spot)) : CopyPlan :=
  let (d, a, n) := ((cpyD x t).1, (cpyA x t).1, (cpyB x t).1)
  let base := ((m.team t.team).map (·.spadBase)).getD 0
  let src := fun (o : Nat) => if cpyFrom x then spotAt m ss (a + o) else Place.spad t.core (base + a + o)
  let dsts := fun (o : Nat) =>
    if cpyTo x then [spotAt m ds (d + o)]
    else if x.sub == 4 then (cpyMembers x t).map fun c => Place.spad c (d + o)
    else if x.sub == 5 then (cpyMembers x t).map fun c => Place.spad c (d % 2 ^ 20 + o)
    else [Place.spad t.core (base + d + o)]
  ⟨(cuts a d n).map fun (o, l) => ⟨src o, dsts o, l, none⟩,
   match cmode x.ext with
   | 1 => .barrier ((cpyWords x t m).filterMap id) n
   | 2 => .stamp (spotAt m ds (cpyStamp x t)) (BitVec.ofNat 64 (fieldOf x.ext 0 48))
   | _ => .none,
   cmode x.ext == 2, cpyTo x || (cpyMembers x t).any fun c => c != t.core⟩

/-- CPY. -/
def bodyCpy (x : FX) (m : Mach) (ι : Iss) : Res :=
  let (d, a, b) := (cpyD x ι.t, cpyA x ι.t, cpyB x ι.t)
  consumeUni m ι d.2 0x01 0 (BitVec.ofNat 64 d.1) 0 fun m ι =>
  consumeUni m ι a.2 0x01 0 (BitVec.ofNat 64 a.1) 0 fun m ι =>
  consumeUni m ι b.2 0x07 0 0 0 fun m ι =>
    withTargets m ι true (cpyAligns x ι.t) (cpyTargets x ι.t) (cpyBounds x ι.t m) fun m ι es =>
      withSpots m ι false (es.headD []) fun m ι ss =>
      withSpots m ι true (es.getD 1 []) fun m ι ds =>
        startCopy (ι.flag x.fl) x.scope d.1
          (fun _ ι => (if 2 ^ 31 < b.1 then some (ι.uniTrap 0x0C 4 0 0) else none) <|> unregistered (cpyWords x ι.t m) (fieldOf x.ext 0 48) ι)
          (cpyPlan x ι.t m ss ds) m ι
def execCpy (x : FX) (s : State) := issue (.cpy x) (bodyCpy x) s

/-! ### CPYL (R207) -/

/-- The operands of CPYL: the lanes' global addresses and offsets, and the barrier word or the signal. -/
def cpylOffsets (x : FM) (t : Task) : Lanes := t.vecOpnd 0 x.d.toNat 32
def cpylB (x : FM) (t : Task) : Nat × Bool := t.uniOpnd 2 x.b.toNat (if x.sub == 0 then 32 else 64)

/-- The alignment of the lanes' addresses and offsets. -/
def cpylAligns (x : FM) (t : Task) (k : Mask) : List (Nat × Nat × Fail) :=
  (lanesOf k).flatMap fun l => [(laneAt (t.addrLanes x) l).1, (laneAt (cpylOffsets x t) l).1].filterMap fun v =>
    if v % accessSize x.ty != 0 then some (l, v, (3, 1, accessSize x.ty, 0)) else none

/-- The bounds of the lanes' offsets. -/
def cpylBounds (x : FM) (t : Task) (k : Mask) (m : Mach) : List (Nat × Nat × Fail) :=
  (lanesOf k).filterMap fun l => match spadCheck (m.team t.team) none (accessSize x.ty) (laneAt (cpylOffsets x t) l).1 with
    | .error f => some (l, (laneAt (cpylOffsets x t) l).1, f)
    | .ok _ => none

/-- The global addresses of the lanes, and the signal. -/
def cpylTarget (x : FM) (t : Task) (k : Mask) : Target :=
  ⟨if x.sub == 0 then .load else .store, if x.sub == 0 then acceptAll else acceptCopy, (lanesOf k).map fun l => (l, (laneAt (t.addrLanes x) l).1), false⟩
def cpylSignal (x : FM) (t : Task) (xact : Mask) : Target :=
  ⟨.store, acceptUpdate, if x.sub == 0 then [] else (lanesOf xact).map fun l => (l, (cpylB x t).1), true⟩

/-- The barrier word that the completion of a CPYL names. -/
def cpylWords (x : FM) (t : Task) (m : Mach) : List (Option (Nat × Nat)) :=
  if x.sub == 0 then [registeredWord m t.team ((cpylB x t).1 % 2 ^ 20)] else []

/-- What a CPYL does, from the places of the lanes' addresses and of the signal (R207). -/
def cpylPlan (x : FM) (t : Task) (m : Mach) (ss sg : List (Elt × Spot)) : CopyPlan :=
  let base := ((m.team t.team).map (·.spadBase)).getD 0
  let moves := ss.map fun (e, s) =>
    let near := Place.spad t.core (base + (laneAt (cpylOffsets x t) e.lane).1)
    let far := placeOf m e s
    (⟨if x.sub == 0 then far else near, [if x.sub == 0 then near else far], accessSize x.ty, none⟩ : Move)
  ⟨moves,
   if x.sub == 0 then .barrier ((cpylWords x t m).filterMap id) (accessSize x.ty * moves.length)
   else match sg with
     | (e, s) :: _ => .signal (placeOf m e s)
     | [] => .none,
   x.sub != 0, x.sub != 0⟩

/-- CPYL. -/
def bodyCpyl (x : FM) (m : Mach) (ι : Iss) : Res :=
  let addrs := ι.t.addrLanes x
  let offs := cpylOffsets x ι.t
  let b := cpylB x ι.t
  let poi := (lanesPoi addrs ||| lanesPoi offs) &&& ι.k
  let first := (lowestLane poi).getD 0
  consume m ι poi 0x01 0 (BitVec.ofNat 64 (if (laneAt addrs first).2 then (laneAt addrs first).1 else (laneAt offs first).1)) 0 fun m ι =>
  consumeUni m ι b.2 0x01 0 (BitVec.ofNat 64 b.1) 0 fun m ι =>
    let aligns := cpylAligns x ι.t ι.k ++
      if x.sub != 0 && b.1 % 8 != 0 then (lanesOf ι.s.xact).map fun l => (l, b.1, (3, 1, 8, 0)) else []
    withTargets m ι false aligns [cpylTarget x ι.t ι.k, cpylSignal x ι.t ι.s.xact] (cpylBounds x ι.t ι.k m) fun m ι es =>
      withSpots m ι (x.sub != 0) (es.headD []) fun m ι ss =>
      withSpots m ι true ((es.getD 1 []).take 1) fun m ι sg =>
        let ss := ss.filter fun y => ι.k.getLsbD y.1.lane
        startCopy (ι.flag x.fl) x.scope (if x.sub != 0 then b.1 else 0) (fun _ ι => unregistered (cpylWords x ι.t m) (b.1 % 2 ^ 20) ι)
          (cpylPlan x ι.t m ss sg) m ι (some fun i => match ss[i]? with
            | some (e, _) => (e.lane, e.va)
            | none => (0, 0))
def execCpyl (x : FM) (s : State) := issue (.cpyl x) (bodyCpyl x) s

/-! ### CPYG (R208, R209) -/

/-- Consume the lowest poisoned element of a shape register that is used (R215). -/
def consumeShape (m : Mach) (ι : Iss) (q : QReg) (reg : Nat) (go : Mach → Iss → Res) (stamp : Bool := false) : Res :=
  consumeUni m ι (q.poisoned stamp).isSome 0x0B (16 * reg + (q.poisoned stamp).getD 0) 0 0 go

/-- The bytes in which tile rows of a type are moved: whole elements or groups of up to 4 bytes. -/
def unitBytes (t : Ty) : Nat := min 4 (elemBytes t (packGroup t))

/-- The units of a tile: byte in the row, element, row and plane. -/
def tileUnits (t : Ty) (tx ty tz : Nat) : List (Nat × Nat × Nat × Nat) :=
  let u := unitBytes t
  (List.range tz).flatMap fun z => (List.range ty).flatMap fun y => (List.range (elemBytes t tx / u)).map fun i => (u * i, u * i * 8 / tyBits t, y, z)

/-- Where a unit of a shape lies, or a failed check: a global address to translate, or bytes of scratchpad. -/
inductive UnitAt where
  | va (a : Nat)
  | at' (p : Place)
  | bad (f : Fail) (addr : Nat)

/-- The place of a unit of a tile of a shape. `core`: for multicast, a member's core, whose offsets are physical. -/
def unitAt (m : Mach) (t : Task) (q : QReg) (o : Nat) (member : Option Nat) : UnitAt :=
  let u := unitBytes q.ty
  if !q.spad then .va (wrapBits 64 ((q.base + o : Nat) : Int))
  else match member with
    | none => match m.team t.team with
      | none => .bad (5, 4, 0, 0) (q.base + o)
      | some g => match g.place (if q.skew then some (some q.win) else none) (q.base + o) u with
        | .ok f => .at' (.spad t.core (f 0))
        | .error f => .bad f (q.base + o)
    | some c => match (m.teamAt c t.ctx (q.base + o) u).bind m.team with
      | none => .bad (5, 4, 0, 0) (q.base + o)
      | some g =>
        if q.skew then match g.place (some (some q.win)) (q.base + o - g.spadBase) u with
          | .ok f => .at' (.spad c (f 0))
          | .error f => .bad f (q.base + o)
        else .at' (.spad c (q.base + o))

/-- The reserved or invalid field of CPYG's two shapes (R214, R215). -/
def cpygInvalid (x : FX) (qd qa : QReg) : Option Nat :=
  match qd.badElement (cmode x.ext == 2), qa.badElement with
  | some e, _ => some (16 * (x.d.toNat % 16) + e)
  | none, some e => some (16 * (x.a.toNat % 16) + e)
  | none, none => none

/-- The checks that CPYG's description adds (R208): the shapes fit, a stamp address is not zero. -/
def cpygShapes (x : FX) (qd qa : QReg) : Option (Nat × Nat) :=
  if qd.ty != qa.ty || qd.tx != qa.tx || qd.tY != qa.tY || qd.tz != qa.tz then some (3, 1)
  else if x.sub == 1 && !qd.spad then some (3, 0)
  else if cmode x.ext == 2 && qd.stamp == 0 then some (2, 16 * (x.d.toNat % 16) + 11)
  else none

/-- The cores whose scratchpads a CPYG writes: those of the mask of `.mc`, else the task's own. -/
def cpygMembers (x : FX) (t : Task) : List Nat := membersOf t.core (x.imm7.toNat % 16)

/-- The units that CPYG writes: their sources, none for a zero, and destinations (R208). -/
def cpygUnits (x : FX) (t : Task) (m : Mach) : List (Option UnitAt × List UnitAt) :=
  let (qd, qa, w) := (t.readQ 0 x.d.toNat, t.readQ 1 x.a.toNat, BitVec.ofNat 64 (t.uniOpnd 2 x.b.toNat 64).1)
  let (cx, cy, cz) := (fieldOf w 0 16, fieldOf w 16 16, fieldOf w 32 16)
  let members := if x.sub == 1 then (cpygMembers x t).map some else [none]
  (tileUnits qd.ty qd.tx qd.tY qd.tz).filterMap fun (o, e, y, z) =>
    if qd.nx ≤ qd.x0 + e || qd.ny ≤ qd.y0 + y || qd.nz ≤ qd.z0 + z then none
    else
      let (xs, ys, zs) := (qa.x0 + cx * qa.tx, qa.y0 + cy * qa.tY + y, qa.z0 + cz * qa.tz + z)
      let src := if qa.nx ≤ xs + e || qa.ny ≤ ys || qa.nz ≤ zs then none else some (unitAt m t qa (qa.offset xs ys zs + o) none)
      some (src, members.map fun c => unitAt m t qd (qd.offset qd.x0 (qd.y0 + y) (qd.z0 + z) + o) c)

/-- The first global address of units in each 4 KiB page. -/
def unitPages (us : List UnitAt) : List (Nat × Nat) :=
  (us.filterMap fun u => match u with
    | .va a => some (0, a)
    | _ => none).foldl (fun (acc : List (Nat × Nat)) v => if acc.any fun w => w.2 / 4096 == v.2 / 4096 && w.2 ≤ v.2 then acc else acc ++ [v]) []
/-- The units that fail a check. -/
def unitFails (us : List UnitAt) : List (Nat × Nat × Fail) := us.filterMap fun u => match u with
  | .bad f a => some (0, a, f)
  | _ => none
/-- The place of a unit, from the places of the addresses of its page. -/
def unitPlace (m : Mach) (l : List (Elt × Spot)) : UnitAt → Place
  | .va a => (match l.find? fun y => y.1.va / 4096 == a / 4096 && y.1.va ≤ a with
    | some (e, s) => (placeOf m e s).shift (a - e.va)
    | none => Place.zero)
  | .at' p => p
  | .bad _ _ => .zero

/-- The global addresses of CPYG. -/
def cpygTargets (x : FX) (t : Task) (m : Mach) : List Target :=
  let us := cpygUnits x t m
  [⟨.load, acceptAll, unitPages (us.filterMap (·.1)), false⟩,
   ⟨.store, acceptCopy, unitPages (us.flatMap (·.2)) ++
     let stamp := (t.readQ 0 x.d.toNat).stamp
     if cmode x.ext == 2 && stamp != 0 then [(0, stamp)] else [], false⟩]

/-- The teams in whose allocations the units of a multicast lie on the member of some place in the mask. -/
def cpygTeams (t : Task) (m : Mach) (us : List (Option UnitAt × List UnitAt)) (i : Nat) : List Nat :=
  us.filterMap fun (u : Option UnitAt × List UnitAt) => match u.2[i]? with
    | some (UnitAt.at' (Place.spad c o)) => m.teamAt c t.ctx o 1
    | _ => none

/-- The bounds of CPYG: every unit in its allocation and window, and a multicast on each member within one team's allocation (R209). -/
def cpygBounds (x : FX) (t : Task) (m : Mach) : List (Nat × Nat × Fail) :=
  let us := cpygUnits x t m
  let split := x.sub == 1 && (List.range (cpygMembers x t).length).any fun i => match cpygTeams t m us i with
    | [] => false
    | n :: l => l.any (· != n)
  unitFails (us.filterMap (·.1)) ++ unitFails (us.flatMap (·.2)) ++
    if split then [(0, (t.readQ 0 x.d.toNat).base, (5, 4, 0, 0))] else []

/-- The barrier words that the completion of a CPYG names. -/
def cpygWords (x : FX) (t : Task) (m : Mach) : List (Option (Nat × Nat)) :=
  let cval := fieldOf x.ext 0 48
  if cmode x.ext != 1 then []
  else if x.sub == 1 then (cpygMembers x t).zipIdx.map fun (c, i) => physicalWord m c t.ctx (cpygTeams t m (cpygUnits x t m) i).head? cval
  else [registeredWord m t.team cval]

/-- What a CPYG does with its units, from the places of the global addresses (R208, R209). -/
def cpygPlan (x : FX) (t : Task) (units : List (Option UnitAt × List UnitAt)) (m : Mach) (ss ds : List (Elt × Spot)) : CopyPlan :=
  let qd := t.readQ 0 x.d.toNat
  ⟨units.map fun (s, d) => ⟨match s with
     | some s => unitPlace m ss s
     | none => .zero, d.map (unitPlace m ds), unitBytes qd.ty, none⟩,
   match cmode x.ext with
   | 1 => .barrier ((cpygWords x t m).filterMap id) (unitBytes qd.ty * units.length)
   | 2 => .stamp (unitPlace m ds (.va qd.stamp)) (BitVec.ofNat 64 (fieldOf x.ext 0 48))
   | _ => .none,
   cmode x.ext == 2, !qd.spad || (x.sub == 1 && (cpygMembers x t).any fun c => c != t.core)⟩

/-- CPYG. -/
def bodyCpyg (x : FX) (m : Mach) (ι : Iss) : Res :=
  let qd := ι.t.readQ 0 x.d.toNat
  let qa := ι.t.readQ 1 x.a.toNat
  let b := ι.t.uniOpnd 2 x.b.toNat 64
  consumeShape m ι qd x.d.toNat (stamp := cmode x.ext == 2) fun m ι =>
  consumeShape m ι qa x.a.toNat fun m ι =>
  consumeUni m ι b.2 0x07 0 0 0 fun m ι =>
    match cpygInvalid x qd qa with
    | some detail => .trap m (ι.uniTrap 0x0C 2 detail 0)
    | none =>
      let units := cpygUnits x ι.t m
      withTargets m ι true [] (cpygTargets x ι.t m) (cpygBounds x ι.t m) fun m ι es =>
        withSpots m ι false (es.headD []) fun m ι ss =>
        withSpots m ι true (es.getD 1 []) fun m ι ds =>
          startCopy (ι.flag x.fl) x.scope qd.base
            (fun _ ι => ((cpygShapes x qd qa).map fun (reason, detail) => ι.uniTrap 0x0C reason detail 0) <|>
              unregistered (cpygWords x ι.t m) (fieldOf x.ext 0 48) ι)
            (cpygPlan x ι.t units m ss ds) m ι
def execCpyg (x : FX) (s : State) := issue (.cpyg x) (bodyCpyg x) s

end Sys2Proof.Machine
end

