-- ==== Sys2Proof/Machine/Matrix.lean ====
section
/-! DEFINITION. The shape-register instructions QLD to SKWIN (R216, R217), MMA (R218 to R220), MTILE (R221 to R224), ACLR and AMOV (R225), ALD and AST (R226), MRSV and MREL (R227). -/

namespace Sys2Proof.Machine

/-! ### Blocks of memory (R216, R226) -/

/-- A load of a block in parts of 32 bytes. -/
def blockLoad (ι : Iss) (x : FM) (dest : Dest) : Plan := loadPlan ι x 32 (fun _ => dest) [dest] .rlx .team
/-- A store of a block in parts of 32 bytes. -/
def blockStore (ι : Iss) (x : FM) (data : Nat → Datum) : Plan := storePlan ι x 32 .b128 data .rlx .team

/-- Words of registers as a datum with their poison. -/
def wordsDatum (ws : List (Elem × Bool)) : Datum :=
  ((ws.zipIdx.map fun (w, i) => w.1.toNat * 2 ^ (32 * i)).foldl (· + ·) 0, (ws.zipIdx.map fun (w, i) => if w.2 then 2 ^ i else 0).foldl (· + ·) 0)

/-- Part `el` of a shape register, and of a tile (R214, R226). -/
def QReg.part (q : QReg) (el : Nat) : Datum := wordsDatum ((List.range 8).map fun i => (at32 q.e (8 * el + i), q.poi.getLsbD (8 * el + i)))
def Tile.part (t : Tile) (el : Nat) : Datum :=
  wordsDatum ((List.range 8).map fun i => (at32 (t.rows.getD (el / 4) []) (8 * (el % 4) + i), (t.poi.getD (el / 4) 0).getLsbD (8 * (el % 4) + i)))

/-- The physical bytes of the parts of a scratchpad block: the whole block at an offset, or with SK each row of 128 bytes at the same
place of the next row of the window (R226). -/
def blockPlaces (g : Option Team) (sk : Bool) (o parts : Nat) : Except Fail (List (Nat → Nat)) :=
  match g with
  | none => .error (5, 4, 0, 0)
  | some g =>
    if !sk then
      if g.spadLen < o + 32 * parts then .error (5, 4, 0, 0) else .ok ((List.range parts).map fun p => fun i => g.spadBase + o + 32 * p + i)
    else if g.spadLen < o + 128 then .error (5, 4, 0, 0)
    else match g.windowAt o with
      | none => .error (0x0C, 0x01, 0, 0)
      | some (w, q) => (List.range parts).mapM fun p =>
          (g.place (some (some w)) (o + p / 4 * q.rowBytes) 128).map fun f => fun i => f (32 * (p % 4) + i)

/-- A block access to the team's scratchpad: a load to `dest`, or a store of `data`. -/
def spadBlock (x : FM) (align parts : Nat) (dest : Option Dest) (data : Nat → Datum) (m : Mach) (ι : Iss) : Res :=
  let flag := ι.flag x.fl
  let a := ι.t.uniOpnd 1 x.a.toNat 32
  if flagFull ι.t flag then .wait m false .cond
  else withAddresses m ι true true (sameLanes a) fun m ι =>
    match failTrap ι true (alignFails align [(0, a.1)]) with
    | some i => .trap m i
    | none =>
      match blockPlaces (m.team ι.t.team) x.sk a.1 parts with
      | .error f => match failTrap ι true [(0, a.1, f)] with
        | some i => .trap m i
        | none => .done m
      | .ok fs =>
        let pieces := if dest.isSome then [] else fs.flatMap fun f => (List.range 8).map fun i => (Place.spad ι.t.core (f (4 * i)), 4)
        if m.copyAhead ι.tid pieces then .wait m false .cond
        else
          let (op, m) := (m.overtaken ι.tid pieces).fresh
          match dest with
          | some d =>
            let o := fs.zipIdx.foldl (fun (o : PendOp) (f, el) => o.land d el (m.spadGet ι.t.core f 32)) (mkOp ι.t op flag [d] [])
            .done (ι.mod m fun t => t.startOp o)
          | none =>
            let m := fs.zipIdx.foldl (fun (m : Mach) (f, el) => m.spadPut ι.t.core f 32 (data el)) m
            .done (ι.mod m fun t => t.startOp (mkOp ι.t op flag [] []))

/-- QLD (R216). -/
def bodyQld (x : FM) (m : Mach) (ι : Iss) : Res :=
  let d := Dest.shape x.d.toNat
  if x.sub == 1 then spadBlock x 64 2 (some d) (fun _ => (0, 0)) m ι
  else (blockLoad ι x d).runBlock m ι (ι.t.uniOpnd 1 x.a.toNat 64) 64 2
def execQld (x : FM) (s : State) := issue (.qld x) (bodyQld x) s

/-- QST (R216). -/
def bodyQst (x : FM) (m : Mach) (ι : Iss) : Res :=
  let data := (ι.t.readQ 0 x.d.toNat).part
  if x.sub == 1 then spadBlock x 64 2 none data m ι
  else (blockStore ι x data).runBlock m ι (ι.t.uniOpnd 1 x.a.toNat 64) 64 2
def execQst (x : FM) (s : State) := issue (.qst x) (bodyQst x) s

/-- ALD (R226). -/
def bodyAld (x : FM) (m : Mach) (ι : Iss) : Res :=
  let d := Dest.tile x.d.toNat
  if x.sub == 0 then spadBlock x 128 128 (some d) (fun _ => (0, 0)) m ι
  else (blockLoad ι x d).runBlock m ι (ι.t.uniOpnd 1 x.a.toNat 64) 128 128
def execAld (x : FM) (s : State) := issue (.ald x) (bodyAld x) s

/-- AST (R226). -/
def bodyAst (x : FM) (m : Mach) (ι : Iss) : Res :=
  let data := (ι.t.readA 0 x.d.toNat).part
  if x.sub == 0 then spadBlock x 128 128 none data m ι
  else (blockStore ι x data).runBlock m ι (ι.t.uniOpnd 1 x.a.toNat 64) 128 128
def execAst (x : FM) (s : State) := issue (.ast x) (bodyAst x) s

/-! ### Shape registers and skew windows -/

/-- QSET (R216): element e of qD takes the low half of sA with its poison. -/
def execQset (x : FVI) (s : State) := issue (.qset x) (fun m ι =>
  let a := ι.t.uniOpnd 1 x.a.toNat 32
  let e := x.imm.toNat % 16
  .done (ι.mod m fun t => t.writeQ x.d.toNat (1 <<< e)
    ⟨List.replicate 16 (BitVec.ofNat 32 a.1), if a.2 then 0xFFFF else 0⟩)) s

/-- QGET (R216): element e of qA, zero-extended, with its poison. -/
def execQget (x : FVI) (s : State) := issue (.qget x) (fun m ι =>
  let q := ι.t.readQ 1 x.a.toNat
  let e := x.imm.toNat % 16
  .done (ι.mod m fun t => t.writeU x.d.toNat ⟨BitVec.ofNat 64 (q.w e), q.poi.getLsbD e, q.poi.getLsbD e⟩)) s

/-- Whether a shape may be declared as window w of a team (R217). -/
def windowFits (g : Team) (w : Nat) (q : QReg) : Bool :=
  q.spad && q.w 0 % 128 == 0 && q.rowBytes % 128 == 0 && q.window.2 ≤ g.spadLen &&
  g.windows.all fun (k, p) => k == w || p.window.2 ≤ q.window.1 || q.window.2 ≤ p.window.1

/-- SKWIN (R217). -/
def execSkwin (x : FVI) (s : State) := issue (.skwin x) (fun m ι =>
  let w := x.imm.toNat % 4
  if x.imm.getLsbD 2 then .done (m.modTeam ι.t.team fun g => { g with windows := tabErase g.windows w })
  else
    let q := ι.t.readQ 1 x.a.toNat
    consumeShape m ι q x.a.toNat fun m ι =>
      match q.badElement with
      | some e => .trap m (ι.uniTrap 0x0C 0x02 (16 * x.a.toNat + e) 0)
      | none =>
        match m.team ι.t.team with
        | some g => if windowFits g w q then .done (m.setTeam ι.t.team { g with windows := tabSet g.windows w q })
          else .trap m (ι.uniTrap 0x0C 0x05 w 0)
        | none => .trap m (ι.uniTrap 0x0C 0x05 w 0)) s

/-! ### The block product (R53 to R55, R63) -/

/-- One side of a block product: for each of 32 rows of A or columns of B its element values, scaled (R53) or exact integers, and
whether any element or scale it consumes is poisoned. -/
structure MatSide where
  nums : List (List Num)
  ints : List (List Int)
  poi : List Bool
deriving DecidableEq, Repr

/-- The element types of the integer group. -/
def matInt (t : Ty) : Bool := t == .s8 || t == .z8
/-- Bits of an element in a fragment. -/
def matBits (t : Ty) : Nat := tyBits t

/-- A side from its rows of encodings with poison, its scale of row and k, and the poison of the scales of a row. -/
def MatSide.of (ty : Ty) (rows : List (List (Nat × Bool))) (scale : Nat → Nat → Num) (spoi : Nat → Bool) : MatSide where
  nums := if matInt ty then [] else rows.zipIdx.map fun (r, i) => r.zipIdx.map fun (x, k) => mulNum (unpackTy ty x.1) (scale i k)
  ints := if matInt ty then rows.map fun r => r.map fun x => intVal ty x.1 else []
  poi := rows.zipIdx.map fun (r, i) => spoi i || r.any (·.2)

/-- Cut a list into groups of 32. -/
def groups32 {α : Type} (l : List α) : List (List α) := (List.range ((l.length + 31) / 32)).map fun i => (l.drop (32 * i)).take 32

/-- One result element (R54, R55): c with row i of A and column j of B. -/
def matCell (int sat : Bool) (a b : MatSide) (c : Elem) (i j : Nat) : Elem :=
  if int then
    let sum := c.toInt + ((a.ints.getD i []).zipWith (· * ·) (b.ints.getD j [])).foldl (· + ·) 0
    BitVec.ofInt 32 (if sat then clampTy .s32 sum else sum)
  else (groups32 ((a.nums.getD i []).zipWith mulNum (b.nums.getD j []))).foldl fpGroup c

/-- The result of an MMA or of an MTILE step on a tile (R220). -/
def matBlock (int sat zc : Bool) (a b : MatSide) (prior : Tile) : Tile :=
  ⟨lanes32.map fun i => lanes32.map fun j => matCell int sat a b (if zc then 0 else at32 (prior.rows.getD i []) j) i j,
   lanes32.map fun i => maskOf fun j => a.poi.getD i false || b.poi.getD j false || (!zc && (prior.poi.getD i 0).getLsbD j)⟩

/-! ### MMA -/

/-- The matrix-unit cycles of a type (R218). -/
def matCycles (t : Ty) : Nat := if t == .f16 || t == .bf16 then 16 else 8

/-- The elements of a lane's fragment: bits w·k of its words on, poisoned by the words that hold them (R42, R218). -/
def fragElements (w n : Nat) (ws : List (Elem × Bool)) : List (Nat × Bool) :=
  let bits := (wordsDatum ws).1
  (List.range n).map fun k => (bits / 2 ^ (w * k) % 2 ^ w, (ws.getD (w * k / 32) (0, false)).2 || (ws.getD ((w * k + w - 1) / 32) (0, false)).2)

/-- A word of a lane as the matrix unit reads it: zero and poisoned in a dead lane (R220). -/
def Task.matWord (t : Task) (r : VReg) (l : Nat) : Elem × Bool := if t.xdead.getLsbD l then (0, true) else (at32 r.e l, r.poi.getLsbD l)

/-- The rows of a fragment operand (R218). -/
def Task.fragment (t : Task) (opno r : Nat) (ty : Ty) : List (List (Nat × Bool)) :=
  let regs := (List.range ((mmaGroup ty).map (·.2) |>.getD 8)).map fun j => t.readV opno (r + j)
  lanes32.map fun l => fragElements (matBits ty) (matK ty) (regs.map fun v => t.matWord v l)

/-- A scale byte of a granularity (R52, R53). -/
def scaleByte (gran b : Nat) : Num := if gran == 1 then unpackE8 b else unpackF fmtE4M3 (b % 128)

/-- The scale of row or column l at k, by the layout of R219. -/
def Task.scaleAt (t : Task) (gran vs : Nat) (fp4 isB : Bool) (l k : Nat) : Num :=
  let word := fun i lane => (t.matWord (t.readV 7 (vs + i)) lane).1.toNat
  let byte := fun (w b : Nat) => scaleByte gran (w / 256 ^ b % 256)
  match gran, fp4 with
  | 1, false => byte (word 0 l) (if isB then 1 else 0)
  | 1, true => byte (word 0 l) ((if isB then 2 else 0) + k / 32)
  | 2, false => byte (word 0 l) ((if isB then 2 else 0) + k / 16)
  | 2, true => byte (word (if isB then 1 else 0) l) (k / 16)
  | 3, _ => unpackF fmtF32 (word 0 (if isB then 1 else 0))
  | _, _ => .fin false 1 0

/-- Whether a scale of row or column l is poisoned: its word (R219). -/
def Task.scalePoison (t : Task) (gran vs : Nat) (fp4 isB : Bool) (l : Nat) : Bool :=
  match gran with
  | 0 => false
  | 3 => (t.matWord (t.readV 7 vs) (if isB then 1 else 0)).2
  | _ => (t.matWord (t.readV 7 (vs + if gran == 2 && fp4 && isB then 1 else 0)) l).2

/-- The prior value of a tile: earlier MMAs of the task on it come first (R220), other outstanding writes may not have been made. -/
def Task.priorTile (t : Task) (r : Nat) : Tile :=
  t.pend.foldl (fun (old : Tile) o => o.writes.foldl (fun (old : Tile) w => match w with
    | .a r' els new again =>
      if r' != r then old
      else Tile.merge (lanes32.map fun row =>
        let free := freeMask (4096 * t.free + 2 ^ 40 * (row + 1) + r)
        els.getD row 0 &&& if o.kind == .mma then ~~~(again.getD row 0 &&& free) else free) new old
    | _ => old) old) (t.aRaw r)

/-- ZC, granularity, SAT and the types of a matrix instruction (R218). -/
def matZc (x : FX) : Bool := x.sub.getLsbD 2
def matGran (x : FX) : Nat := x.sub.toNat % 4
def matSat (x : FX) : Bool := x.ext.getLsbD 13
def matTypeB (x : FX) : Ty := tyOf (x.ext.extractLsb' 0 5)

/-- The result of an MMA (R220). -/
def mmaResult (x : FX) (t : Task) : Tile :=
  let vs := fieldOf x.ext 5 8
  let fp4 := x.ty == .e2m1
  let side := fun (ty : Ty) (opno r : Nat) (isB : Bool) =>
    MatSide.of ty (t.fragment opno r ty) (t.scaleAt (matGran x) vs fp4 isB) (t.scalePoison (matGran x) vs fp4 isB)
  matBlock (matInt x.ty) (matSat x) (matZc x) (side x.ty 1 x.a.toNat false) (side (matTypeB x) 2 x.b.toNat true) (t.priorTile x.d.toNat)

/-- MMA (R218, R220): the result is known when it issues and reaches the tile when the flag falls. -/
def bodyMma (x : FX) (m : Mach) (ι : Iss) : Res :=
  let flag := ι.flag x.fl
  if flagFull ι.t flag then .wait m false .cond
  else
    let (op, m) := m.fresh
    let m := m.modCore ι.t.core fun c => c.setPart ι.t.part { c.part ι.t.part with matrixFree := m.clk + matCycles x.ty }
    .done (ι.mod m fun t => t.startOp
      ⟨op, .mma, flag, false, [.a x.d.toNat allEls (mmaResult x ι.t) (List.replicate 32 0)], []⟩)
def execMma (x : FX) (s : State) := issue (.mma x) (bodyMma x) s

/-! ### MTILE (R221 to R224) -/

/-- QS and QT (R221). -/
def mtileQs (x : FX) : Nat := fieldOf x.ext 5 4
def mtileQt (x : FX) : Nat := fieldOf x.ext 9 4
/-- Whether scales come from scale tiles. -/
def mtileScaled (x : FX) : Bool := matGran x == 1 || matGran x == 2
/-- The k that one scale covers (R52). -/
def scaleSpan (gran : Nat) : Nat := if gran == 1 then 32 else 16
def scaleType (gran : Nat) : Ty := if gran == 1 then .e8m0 else .e4m3

/-- The checks on the shapes of MTILE that trap SHAPE 0x03, as the field to report: A, B, D, then the scale tiles (R221, R223). -/
def mtileMisfit (x : FX) (t : Task) (qa qb qs qt : QReg) : Option Nat :=
  let ks := matK x.ty
  let rows := fun (q : QReg) => q.tY % 32 == 0 && q.tY ≤ 512
  let tile := fun (q : QReg) => q.tz == 1 && q.spad
  if !(tile qa && qa.ty == x.ty && rows qa && qa.tx % ks == 0 && qa.tx ≤ 65536) then some 1
  else if !(tile qb && qb.ty == matTypeB x && rows qb && qb.tx == qa.tx) then some 2
  else if (if t.acore then 256 else 8 * t.ablk) < x.d.toNat + qa.tY / 32 * (qb.tY / 32) then some 0
  else if mtileScaled x && !(qs.ty == scaleType (matGran x) && qt.ty == scaleType (matGran x) && qs.spad && qt.spad) then some 7
  else none

/-- The step at which a scale tile fails (R223): none if its extents are those of R222. -/
def scaleShort (x : FX) (qa qb : QReg) (isB : Bool) (q : QReg) : Option Nat :=
  let ks := matK x.ty
  let kn := qa.tx / ks
  let nb := qb.tY / 32
  let steps := qa.tY / 32 * nb * kn
  let span := scaleSpan (matGran x)
  let extent := if isB then qb.tY else qa.tY
  if q.tY == extent && q.tx == qa.tx / span && q.tz == 1 then none
  else some (((List.range steps).find? fun s =>
    let row := if isB then s / kn % nb else s / kn / nb
    q.tY < 32 * row + 32 || q.tx * span < (s % kn + 1) * ks).getD steps)

/-- The unit of a tile of a shape that lies in no window or outside the allocation, with its check and offset. -/
def tileFault (m : Mach) (t : Task) (q : QReg) : Option (Fail × Nat) :=
  (tileUnits q.ty q.tx q.tY 1).findSome? fun (o, e, y, _) =>
    if q.nx ≤ q.x0 + e || q.ny ≤ q.y0 + y || q.nz ≤ q.z0 then none
    else match unitAt m t q (q.offset q.x0 (q.y0 + y) q.z0 + o) none with
      | .bad f a => some (f, a)
      | _ => none

/-- MTILE (R221 to R223): a second one waits; its shape registers and scale registers are read now. -/
def bodyMtile (x : FX) (m : Mach) (ι : Iss) : Res :=
  let flag := ι.flag x.fl
  let t := ι.t
  let qa := t.readQ 1 x.a.toNat
  let qb := t.readQ 2 x.b.toNat
  let qs := t.readQ 7 (mtileQs x)
  let qt := t.readQ 9 (mtileQt x)
  let scaled := mtileScaled x
  let waiting := match m.task ι.tid with
    | some now => now.mtile.isSome
    | none => false
  let unscaled := fun (q : QReg) => if scaled then q else QReg.zero
  if waiting || flagFull t flag then .wait m false .cond
  else
    consumeShape m ι qa x.a.toNat fun m ι =>
    consumeShape m ι qb x.b.toNat fun m ι =>
    consumeShape m ι (unscaled qs) (mtileQs x) fun m ι =>
    consumeShape m ι (unscaled qt) (mtileQt x) fun m ι =>
      let used := [(qa, x.a.toNat), (qb, x.b.toNat)] ++ if scaled then [(qs, mtileQs x), (qt, mtileQt x)] else []
      match used.findSome? fun (q, r) => q.badElement.map fun e => 16 * r + e with
      | some detail => .trap m (ι.uniTrap 0x0C 0x02 detail 0)
      | none =>
        match used.findSome? fun (q, _) => tileFault m t q with
        | some (f, a) => match failTrap ι true [(0, a, f)] with
          | some i => .trap m i
          | none => .done m
        | none =>
        match mtileMisfit x t qa qb qs qt with
        | some field => .trap m (ι.uniTrap 0x0C 0x03 field 0)
        | none =>
          let short := if !scaled then none else match scaleShort x qa qb false qs, scaleShort x qa qb true qt with
            | some s, _ => some (s, 1)
            | none, some s => some (s, 2)
            | none, none => none
          match short with
          | some (s, which) => .trap m ⟨0x0A, BitVec.ofNat 64 (s + 2 ^ 32 * which), 0, 3, none⟩
          | none =>
              let (op, m) := m.fresh
              let tiles := qa.tY / 32 * (qb.tY / 32)
              let keys := (List.range tiles).map fun i => mtileKey t (x.d.toNat + i)
              .done (ι.mod m fun now =>
                let now := now.markAgain fun w => match w with
                  | .a r l n again => if keys.contains r then .a r l n allEls else .a r l n again
                  | w => w
                { now.startOp ⟨op, .mtile, flag, false, [], []⟩ with
                  mtile := some ⟨x, ι.s.clause, ι.s.slot, qa, qb, qs, qt, t.readU 7 (mtileQs x), t.readU 9 (mtileQt x),
                    (m.core t.core).spad, 0, tiles * (qa.tx / matK x.ty), Tile.zero⟩ })
def execMtile (x : FX) (s : State) := issue (.mtile x) (bodyMtile x) s

/-- A byte of scratchpad with the poison of its word, as an MTILE step reads it: a store since the MTILE issued may not be seen (R222). -/
def stepByte (w : MTile) (now : Memory) (clk a : Nat) : Byte × Bool :=
  let from' := if Config.pick (2 ^ 92 + 2 ^ 40 * clk + a / 4) then now else w.spad
  (from'.byte a, from'.poi.contains (a / 4))

/-- Element (x, y) of a tile of a shape as a step reads it: zero outside the region (R221). -/
def stepElement (g : Team) (w : MTile) (now : Memory) (clk : Nat) (q : QReg) (x y : Nat) : Nat × Bool :=
  let n := packGroup q.ty
  let bits := tyBits q.ty
  if q.nx ≤ q.x0 + x || q.ny ≤ q.y0 + y || q.nz ≤ q.z0 then (0, false)
  else
    let o := q.base + q.offset (q.x0 + x / n * n) (q.y0 + y) q.z0
    let low := x % n * bits
    let bs := (List.range ((low + bits + 7) / 8 - low / 8)).map fun i =>
      match g.place (if q.skew then some (some q.win) else none) (o + low / 8 + i) 1 with
      | .ok f => stepByte w now clk (f 0)
      | .error _ => (0, false)
    (ofBytes (bs.map (·.1)) / 2 ^ (low % 8) % 2 ^ bits, bs.any (·.2))

/-- One side of an MTILE step: 32 rows from `row`, ks elements from `k0`, with their scales (R222). -/
def stepSide (g : Team) (w : MTile) (now : Memory) (clk : Nat) (isB : Bool) (row k0 : Nat) : MatSide :=
  let x := w.ins
  let q := if isB then w.qb else w.qa
  let sq := if isB then w.qt else w.qs
  let gran := matGran x
  let rows := lanes32.map fun i => (List.range (matK x.ty)).map fun k => stepElement g w now clk q (k0 + k) (row + i)
  let scale := fun i k => stepElement g w now clk sq ((k0 + k) / scaleSpan gran) (row + i)
  let us := if isB then w.ut else w.us
  let ty := if isB then matTypeB x else x.ty
  match gran with
  | 0 => MatSide.of ty rows (fun _ _ => .fin false 1 0) fun _ => false
  | 3 => MatSide.of ty rows (fun _ _ => unpackF fmtF32 (us.v.toNat % 2 ^ 32)) fun _ => us.lo
  | _ => MatSide.of ty rows (fun i k => scaleByte gran (scale i k).1) fun i => (List.range (matK x.ty)).any fun k => (scale i k).2

/-- The partition whose matrix unit makes the step of a tile of the result (R222). -/
def mtilePart (t : Task) (tile : Nat) : Nat := if t.acore then tile % 4 else t.part

/-- One step of an outstanding MTILE (R222), once the matrix unit is free, which it then occupies as an MMA does (R218): the block's
result so far, and at its last k-group the tile to be written. None starts while its task parks (R224). -/
def Mach.mtileStep (m : Mach) (tid : Nat) : Option Mach :=
  match m.task tid with
  | none => none
  | some t =>
    match t.mtile, m.team t.team with
    | some w, some g =>
      let part := mtilePart t (w.ins.d.toNat + w.step / (w.qa.tx / matK w.ins.ty))
      if w.steps ≤ w.step || t.state == .parking || m.clk < ((m.core t.core).part part).matrixFree then none
      else
        let x := w.ins
        let ks := matK x.ty
        let kn := w.qa.tx / ks
        let nb := w.qb.tY / 32
        let (blk, kk) := (w.step / kn, w.step % kn)
        let now := (m.core t.core).spad
        let key := mtileKey t (x.d.toNat + blk)
        let prior := if kk == 0 then t.readA 0 key else w.block
        let out := matBlock (matInt x.ty) (matSat x) (matZc x && kk == 0)
          (stepSide g w now m.clk false (32 * (blk / nb)) (ks * kk)) (stepSide g w now m.clk true (32 * (blk % nb)) (ks * kk)) prior
        let m := m.modCore t.core fun c => c.setPart part { c.part part with matrixFree := m.clk + matCycles x.ty }
        some (m.modTask tid fun t => { t with
          mtile := some { w with step := w.step + 1, block := out }
          free := t.free + 1
          pend := if kk + 1 < kn then t.pend else t.pend.map fun o =>
            if o.kind == .mtile then { o with writes := o.writes ++ [.a key allEls out (List.replicate 32 0)] } else o })
    | _, _ => none

/-- Go on with a suspended MTILE (R224): its flag rises again, and its block goes on from the tile. -/
def Task.resumeMtile (t : Task) (op : Nat) (flag : Option Nat) (spad : Memory) : Task :=
  match t.mtile with
  | none => t
  | some w =>
    let kn := w.qa.tx / matK w.ins.ty
    { t.startOp ⟨op, .mtile, flag, false, [], []⟩ with
      mtile := some { w with spad := spad, block := t.aRaw (mtileKey t (w.ins.d.toNat + w.step / kn)) } }

/-! ### ACLR, AMOV, MRSV, MREL -/

/-- ACLR (R225). -/
def execAclr (x : FV3) (s : State) := issue (.aclr x) (fun m ι =>
  .done (ι.mod m fun t => (List.range x.b.toNat).foldl (fun (t : Task) i => t.writeA (x.d.toNat + i) allEls Tile.zero) t)) s

/-- The row operand of AMOV (R225): a uniform row is checked. -/
def withRow (x : FV3) (m : Mach) (ι : Iss) (go : Mach → Iss → Nat → Res) : Res :=
  if x.kc == .uni then
    let r := ι.t.uniOpnd 3 x.c.toNat 32
    consumeUni m ι r.2 0x0B 0 0 0 fun m ι =>
      if 32 ≤ r.1 then .trap m (ι.uniTrap 0x0C 0x02 0 0) else go m ι r.1
  else go m ι (x.c.toNat % 32)

/-- AMOV_TO_VECTOR (R225). -/
def execAmovToVector (x : FV3) (s : State) := issue (.amovToVector x) (fun m ι => withRow x m ι fun m ι row =>
  let a := ι.t.readA 1 x.a.toNat
  .done (ι.mod m fun t => t.writeV x.d.toNat ι.k ⟨a.rows.getD row [], a.poi.getD row 0⟩)) s

/-- AMOV_TO_TILE (R225). -/
def execAmovToTile (x : FV3) (s : State) := issue (.amovToTile x) (fun m ι => withRow x m ι fun m ι row =>
  let v := ι.t.readV 1 x.a.toNat
  .done (ι.mod m fun t => t.writeA x.d.toNat ((List.replicate 32 0).set row ι.k)
    ⟨(List.replicate 32 []).set row v.e, (List.replicate 32 0).set row v.poi⟩)) s

/-- AMOV_TILE (R225). -/
def execAmovTile (x : FV3) (s : State) := issue (.amovTile x) (fun m ι =>
  .done (ι.mod m fun t => t.writeA x.d.toNat allEls (ι.t.readA 1 x.a.toNat))) s

/-- MRSV (R227). -/
def execMrsv (x : FC) (s : State) := issue (.mrsv x) (fun m ι =>
  .done (ι.mod m fun t => t.writeP x.pa.toNat ι.s.xact ⟨0xFFFFFFFF, 0⟩)) s

/-- MREL (R227): nothing beyond its issue. -/
def execMrel (x : FC) (s : State) := issue (.mrel x) (fun m _ => .done m) s

end Sys2Proof.Machine
end

