-- ==== Sys2Proof/Machine/Front.lean ====
section
/-! DEFINITION. The front of a partition: clause fetch and the entry of a split into a clause (R64 to R71), readiness and the choice of the grants (R128, R239 to R243), placements and merges (R232, R235, R237), promotion (R242), and the end of a wait (R183, R243). -/

namespace Sys2Proof.Machine

/-- An event of the machine: the new machine, or nothing happens where the event is not due (DESIGN CHOICE, log 11). No event happens
while no clock runs (R442). -/
def event (s : State) (r : Option Mach) : Host.Outcome State Fault Refusal :=
  if !s.live then .fault .clocksStopped
  else match r with
    | some m => .next { s with m := m }
    | none => .next s

/-- A request from outside that the device serves: once the device has failed, only the mailbox, MCTP and attestation answer (R433). -/
def answering (s : State) (r : Option Mach) : Host.Outcome State Fault Refusal := event s (if s.fw.state == .failed then none else r)

/-! ### Ports and intervals -/

/-- The TYPE of an instruction. -/
def typeOf (i : Instr) : Ty := match view i with
  | some (_, .v3 f) => f.ty
  | some (_, .vi f) => f.ty
  | some (_, .s f) => f.ty
  | some (_, .m f) => f.ty
  | some (_, .x f) => f.ty
  | _ => .b8

/-- Whether an instruction uses issue port V (R239). -/
def portV (i : Instr) : Bool :=
  let n := (opcodeOf i).toNat
  (0x28 ≤ n && n ≤ 0x76) || (0x90 ≤ n && n ≤ 0x93) || [0xC8, 0xC9, 0xCC, 0xCD].contains n

/-- The interval of an instruction's class, which also names the class (R128). -/
def intervalOf (i : Instr) : Nat :=
  let n := (opcodeOf i).toNat
  let t := typeOf i
  if [0x2F, 0x74, 0x75, 0x5F, 0x59].contains n then 2
  else if [0x50, 0x51, 0x53, 0x54, 0x55, 0x56].contains n then 4
  else if n == 0x52 then (if t == .f64 then 16 else 4)
  else if n == 0x43 then 2
  else if (0x48 ≤ n && n ≤ 0x58) || n == 0x61 then (if t == .f64 then 4 else 1)
  else if (0x28 ≤ n && n ≤ 0x42) || n == 0x60 then (if wide t && t != .f64 then 2 else 1)
  else 1

/-! ### Entering a clause -/

/-- The instruction whose words stand at a slot of a clause at a physical address. -/
def Mach.instrAt (m : Mach) (pa slot : Nat) : Option Instr :=
  extract (m.mem.word64 (pa + 8 * slot)).1 (m.mem.word64 (pa + 8 * slot + 8)).1

/-- Whether a slot is the first word of an instruction, counted from a slot that is one (R69). -/
def Mach.firstWord (m : Mach) (pa nslot slot : Nat) : Nat → Nat → Bool
  | 0, k => k == slot
  | n + 1, k =>
    if slot ≤ k then k == slot
    else
      let words := match m.instrAt pa k with
        | some i => if k < nslot then slotsOf i else 1
        | none => 1
      m.firstWord pa nslot slot n (k + words)

/-- A trap at the entry of a clause: its header's address is reported (R66, R69, R135). -/
def Mach.entryTrap (m : Mach) (tid e : Nat) (s : Split) (slot : Nat) (i : TrapInfo) : Mach :=
  (m.modTask tid fun t => t.modSplit e fun _ => { s with slot := slot }).raise tid e i

/-- The ILLOP trap of a malformed clause (R66, R69); xaddr is the header's address, also where the slot entered is no first word
(DESIGN CHOICE, log 70). -/
def clauseTrap (s : Split) : TrapInfo := ⟨1, BitVec.ofNat 64 (2 ^ 16 * 5), s.clause, 0, none⟩

/-- Fetch the clause of a split that has not been fetched yet: its translation, and the checks of its header and of the slot entered
(R64, R66, R69, R134, R135, R146). -/
def Mach.fetchClause (m : Mach) (tid e : Nat) : Mach :=
  match m.task tid with
  | none => m
  | some t =>
    match t.split e with
    | none => m
    | some s =>
      if !t.live || s.held || s.wait.isSome || s.pa.isSome || m.clk < s.readyAt then m
      else match m.xlate t.core t.ctx s.clause.toNat .exec s.found with
        | (.miss, m) =>
          let (n, m) := m.missWalk t.core t.ctx s.clause.toNat
          m.modTask tid fun t => t.modSplit e fun s => { s with
            wait := some ⟨true, .nop ⟨⟨12, false⟩, 0, 0, 0, .vec, 0, 0⟩, false, .page (dieOf t.core) n 2 s.clause.toNat, m.clk, false, s.found, s.xact, t.snap, s.xsig⟩ }
        | (.fault c r d, m) =>
          if c == 8 && t.lanekill then m.lanekill tid e s.xact
          else m.entryTrap tid e s 1 (mkTrap c s.xact r d s.clause 0)
        | (.ok pa _ _, m) =>
          let h := (m.mem.word64 pa).1
          if headerMalformed h then m.entryTrap tid e s 1 (clauseTrap s)
          else if headerNslot h < s.slot || !m.firstWord pa (headerNslot h) s.slot 7 1 then m.entryTrap tid e s s.slot (clauseTrap s)
          else m.modTask tid fun t => t.modSplit e fun s => { s with pa := some pa }

/-- Every table entry of every task of a core. -/
def Mach.entries (m : Mach) : List (Nat × Nat) := m.tasks.flatMap fun (n, t) => if t.onComplex then [] else (List.range 4).map fun e => (n, e)

/-- Fetch what can be fetched. -/
def Mach.fetchAll (m : Mach) : Mach := m.entries.foldl (fun m (n, e) => m.fetchClause n e) m

/-! ### Readiness and grants -/

/-- A split that is ready: what decides the order of R241, what its grant changes, and whether its unit refuses it in this cycle, which counts
towards its promotion (R245). -/
structure Cand where
  tid : Nat
  e : Nat
  cls : Nat
  stamp : Nat
  slot : Nat
  vport : Bool
  last : Bool
  yld : Bool
  gap : Nat
  blocked : Bool
deriving DecidableEq, Repr

/-- Whether every flag that a WAIT mask names read zero at the end of the cycle before (R71). -/
def Task.waitMet (t : Task) (mask : Nat) : Bool := (List.range 12).all fun n => !mask.testBit n || t.cfPrev.getD n 0 == 0

/-- A ready split as a candidate (R240); none of a task that the watchdog stops (R416). -/
def Mach.candidate (m : Mach) (tid e : Nat) : Option Cand :=
  match m.task tid with
  | none => none
  | some t =>
    match t.split e with
    | none => none
    | some s =>
      match s.pa with
      | none => none
      | some pa =>
        let h := (m.mem.word64 pa).1
        let part := (m.core t.core).part t.part
        let i := m.instrAt pa s.slot
        let gap := (i.map intervalOf).getD 1
        let flag := match i.bind view with
          | some (_, .m f) => flagChosen h f.fl
          | some (_, .x f) => flagChosen h f.fl
          | _ => none
        let matrix := match i.map opcodeOf with
          | some op => op == 0xC8 || op == 0xC9
          | none => false
        if !t.live || m.timedOut t || s.held || s.wait.isSome || m.clk < s.readyAt || (s.fresh && !t.waitMet (headerWait h)) then none
        else if 1 < gap && (match tabGet part.lastIssue gap with
          | some k => m.clk < k + gap
          | none => false) then none
        else if flagFull t flag then none
        else some ⟨tid, e, if s.promoted then 4 else t.prio, s.stamp, t.slot, (i.map portV).getD false,
          headerNslot h ≤ s.slot + (i.map slotsOf).getD 1 - 1, headerYld h, gap, matrix && m.clk < part.matrixFree⟩

/-- The order of R241. -/
def Cand.before (a b : Cand) : Bool :=
  b.cls < a.cls || (a.cls == b.cls && (a.stamp < b.stamp || (a.stamp == b.stamp && (a.slot < b.slot || (a.slot == b.slot && a.e < b.e)))))

/-- The first of some candidates. -/
def firstCand : List Cand → Option Cand
  | [] => none
  | a :: l => match firstCand l with
    | some b => if b.before a then some b else some a
    | none => some a

/-- The grants of a partition (R239): the first candidate, then the first of another task for the other port. -/
def choose (l : List Cand) : List Cand :=
  match firstCand l with
  | none => []
  | some a => a :: (firstCand (l.filter fun b => b.vport != a.vport && b.tid != a.tid)).toList

/-- The partitions that hold a task, by core, then partition (R252, R296). -/
def Mach.partitions (m : Mach) : List (Nat × Nat) :=
  sortBy (fun a b => a.1 < b.1 || (a.1 == b.1 && a.2 ≤ b.2))
    (m.tasks.foldl (fun acc (_, t) => if t.onComplex || acc.contains (t.core, t.part) then acc else acc ++ [(t.core, t.part)]) [])

/-- The candidates of a partition. -/
def Mach.candidates (m : Mach) (core part : Nat) : List Cand :=
  m.entries.filterMap fun (n, e) => match m.task n with
    | some t => if t.core == core && t.part == part then m.candidate n e else none
    | none => none

/-- What a grant changes before the instruction issues (R128, R240 to R242, R256): stamp, promotion count, interval, state. -/
def Mach.grant (m : Mach) (c : Cand) : Mach :=
  match m.task c.tid with
  | none => m
  | some t =>
    let m := m.modCore t.core fun k => k.setPart t.part { k.part t.part with lastIssue := tabSet (k.part t.part).lastIssue c.gap m.clk }
    m.modTask c.tid fun t => { t.modSplit c.e (fun s => { s with
      stamp := m.clk + if c.yld && c.last then 1 else 0
      promo := 0
      promoted := s.promoted && !c.last }) with state := .running }

/-- The grants of every partition for a cycle (R239), and the counting of the ready splits that are not granted (R242). -/
def Mach.grants (m : Mach) : List (Nat × Nat) × Mach :=
  let m := m.fetchAll
  m.partitions.foldl (fun (acc : List (Nat × Nat) × Mach) (core, part) =>
    let (gs, m) := acc
    let l := m.candidates core part
    let won := choose (l.filter (!·.blocked))
    let lost := l.filter fun c => !won.any fun d => d.tid == c.tid && d.e == c.e
    let m := won.foldl Mach.grant m
    let m := lost.foldl (fun (m : Mach) c => m.modTask c.tid fun t => t.modSplit c.e fun s => { s with promo := s.promo + 1 }) m
    (gs ++ won.map fun c => (c.tid, c.e), m)) ([], m)

/-- PROMOTION (R242): a split ready and not granted for 4,096 ck. -/
def promotionDue (tid e : Nat) (s : State) : Option Mach :=
  match (s.m.task tid).bind (·.split e) with
    | some x => if 4096 ≤ x.promo && !x.promoted then
        some (s.m.modTask tid fun t => t.modSplit e fun x => { x with promoted := true, promo := 0 }) else none
    | none => none
def execPromotion (tid e : Nat) (s : State) : Host.Outcome State Fault Refusal := event s (promotionDue tid e s)

/-! ### Joins, placements and merges (R140, R232, R235, R237) -/

/-- JOIN_COMPLETE (R140, R235): at the start of the cycle after, a join whose expected lanes have all arrived becomes its merged
split, still to be placed; one on which no lane waits only becomes invalid. -/
def joinCompleteDue (tid j : Nat) (s : State) : Option Mach :=
  match s.m.task tid with
    | some t =>
      let x := t.join j
      if !s.granted && t.ending.isNone && x.valid && x.due then some (s.m.setTask tid (t.modJoin j fun x => { x with valid := false, occ := x.arrived != 0 })) else none
    | none => none
def execJoinComplete (tid j : Nat) (s : State) : Host.Outcome State Fault Refusal := event s (joinCompleteDue tid j s)

/-- The merged split of a completed join (R233). -/
def Join.merged (x : Join) (clk : Nat) : Split :=
  { clause := x.target, slot := 1, fresh := true, pa := none, xact := x.arrived, xsig := x.arrivals.foldl (fun a b => a ^^^ b.2) 0,
    pxact := x.arrived, held := false, fault := none, stamp := clk, promo := 0, promoted := false, readyAt := clk + 1, found := [],
    wait := none, resumed := none }

/-- A split as it is placed into an entry (R232): stamped, and held while others are, unless it holds a lane of the handler. -/
def Task.placed (t : Task) (clk : Nat) (s : Split) : Split :=
  { s with stamp := clk, readyAt := max s.readyAt (clk + 1),
           held := t.splits.any (fun o => match o with
             | some x => x.held
             | none => false) && s.xact &&& t.hlanes == 0 }

/-- Place an occupied join's split into an entry, or onto the stack when it has just completed (R235). -/
def Task.placeJoin (t : Task) (clk j : Nat) (stack : Bool) : Task :=
  let x := t.join j
  if !x.occ || x.due != stack then t
  else match t.freeEntry with
    | some e => (t.setSplit e (some (t.placed clk (x.merged clk)))).setJoins j Join.invalid Join.invalid
    | none =>
      if !stack then t
      else if t.stack.length < 16 then { t with stack := x.merged clk :: t.stack }.setJoins j Join.invalid Join.invalid
      else t.modJoin j fun x => { x with due := false }

/-- Pop the stack into free entries (R232). -/
def Task.popAll (t : Task) (clk : Nat) : Nat → Task
  | 0 => t
  | n + 1 => match t.freeEntry, t.stack with
    | some e, x :: rest => { t.setSplit e (some (t.placed clk x)) with stack := rest }.popAll clk n
    | _, _ => t

/-- SPLIT_PLACEMENT (R232, R235): occupied joins first, then joins that have just completed, then the stack. An entry that a merge of this
cycle has freed is not filled in it (R237). -/
def splitPlacementDue (tid : Nat) (s : State) : Option Mach :=
  match s.m.task tid with
    | some t =>
      let free := t.freeEntry.isSome
      let due := (List.range 8).any fun j => (t.join j).occ && ((t.join j).due || free)
      if !s.granted && t.ending.isNone && t.mergedAt != some s.m.clk && (due || (free && !t.stack.isEmpty)) then
        let t := (List.range 8).foldl (fun (t : Task) j => t.placeJoin s.m.clk j false) t
        let t := (List.range 8).foldl (fun (t : Task) j => t.placeJoin s.m.clk j true) t
        some (s.m.setTask tid (t.popAll s.m.clk 4))
      else none
    | none => none
def execSplitPlacement (tid : Nat) (s : State) : Host.Outcome State Fault Refusal := event s (splitPlacementDue tid s)

/-- Two splits that merge at a clause start (R237). -/
def mergeable (a b : Split) : Bool :=
  a.slot == 1 && b.slot == 1 && a.clause == b.clause && a.fresh && b.fresh && !a.held && !b.held && a.wait.all (·.fetch) && b.wait.all (·.fetch) &&
  a.resumed.isNone && b.resumed.isNone && a.xsig == b.xsig

/-- The merged split of two (R237). -/
def Split.join (a b : Split) : Split :=
  { a with pa := a.pa.or b.pa, wait := if (a.pa.or b.pa).isSome then none else a.wait.or b.wait, xact := a.xact ||| b.xact, pxact := a.pxact ||| b.pxact, stamp := min a.stamp b.stamp, promo := max a.promo b.promo,
           promoted := a.promoted || b.promoted, readyAt := max a.readyAt b.readyAt }

/-- SPLIT_MERGE (R237): every split that meets the conditions with the split of an entry, the lowest of them, merges into it. -/
def splitMergeDue (tid e : Nat) (s : State) : Option Mach :=
  match s.m.task tid with
    | none => none
    | some t =>
      match t.split e with
      | none => none
      | some x =>
        let others := (List.range 4).filter fun k => k != e && match t.split k with
          | some y => mergeable x y
          | none => false
        if s.granted || others.isEmpty || others.any (· < e) || (List.range 8).any (fun j => !(t.join j).arrivals.isEmpty) then none
        else
          let x := others.foldl (fun (x : Split) k => match t.split k with
            | some y => x.join y
            | none => x) x
          some (s.m.setTask tid { (others.foldl (fun (t : Task) k => t.setSplit k none) t).setSplit e (some x) with mergedAt := some s.m.clk })
def execSplitMerge (tid e : Nat) (s : State) : Host.Outcome State Fault Refusal := event s (splitMergeDue tid e s)

/-! ### The end of a wait (R146, R183, R243) -/

/-- The meaning with which a waiting instruction goes on; none for an instruction that never waits by its own condition. -/
def bodyOf : Instr → Option (Mach → Iss → Res)
  | .jset x => some (bodyJset x) | .jwait x => some (bodyJwait x) | .jdrop x => some (bodyJdrop x)
  | .ld x => some (bodyLd x) | .st x => some (bodySt x) | .atom x => some (bodyAtom x) | .red x => some (bodyRed x)
  | .lds x => some (bodyLds x) | .sts x => some (bodySts x) | .atoms x => some (bodyAtoms x)
  | .ldn x => some (bodyLdn x) | .stn x => some (bodyStn x)
  | .fence x => some (bodyFence x) | .mwait x => some (bodyMwait x) | .seal x => some (bodySeal x) | .unseal x => some (bodyUnseal x)
  | .tlbi x => some (bodyTlbi x) | .svc x => some (bodySvc x)
  | .spawn x => some (bodySpawn x) | .spawnHeader x => some (bodySpawnHeader x) | .yield x => some (bodyYield x)
  | .role x => some (bodyRole x) | .tfetch x => some (bodyTfetch x) | .joinf x => some (bodyJoinf x) | .fprobe x => some (bodyFprobe x)
  | .fset x => some (bodyFset x) | .ffail x => some (bodyFfail x) | .sgadd x => some (bodySgadd x) | .sgwait x => some (bodySgwait x)
  | .qpush x => some (bodyQpush x) | .qflush x => some (bodyQflush x) | .qstat x => some (bodyQstat x)
  | .cpy x => some (bodyCpy x) | .cpyl x => some (bodyCpyl x) | .cpyg x => some (bodyCpyg x)
  | .bari x => some (bodyBari x) | .bara x => some (bodyBara x) | .barx x => some (bodyBarx x) | .barp x => some (bodyBarp x)
  | .barw x => some (bodyBarw x)
  | .qld x => some (bodyQld x) | .qst x => some (bodyQst x) | .ald x => some (bodyAld x) | .ast x => some (bodyAst x)
  | .mma x => some (bodyMma x) | .mtile x => some (bodyMtile x)
  | _ => none

/-- Whether the instruction tries again of its own accord while it waits so. -/
def Hold.tries : Hold → Bool
  | .cond | .shared _ _ _ => true
  | _ => false

/-- A waiting split goes on, where its wait has ended. -/
def Mach.endWait (m : Mach) (tid e : Nat) : Option Mach :=
  match m.task tid with
  | none => none
  | some t =>
    match t.split e with
    | none => none
    | some x =>
      match x.wait with
      | none => none
      | some w =>
        if !w.hold.tries || !t.live then none
        else if w.fetch then some (m.modTask tid fun t => t.modSplit e fun x => { x with wait := none, found := w.found })
        else match bodyOf w.ins with
          | none => none
          | some body => continueWait body m tid e t x w

/-- WAIT_SATISFIED (R243). -/
def waitSatisfiedDue (tid e : Nat) (s : State) : Option Mach :=
  s.m.endWait tid e
def execWaitSatisfied (tid e : Nat) (s : State) : Host.Outcome State Fault Refusal := event s (waitSatisfiedDue tid e s)

/-- HALT_TIMEOUT (R178): execution continues at the next clause. -/
def haltTimeoutDue (tid e : Nat) (s : State) : Option Mach :=
  match s.m.task tid with
    | none => none
    | some t =>
      match t.split e with
      | none => none
      | some x =>
        match x.wait with
        | some w => (match w.hold with
          | .halt (some k) => if k ≤ s.m.clk then
              some (s.m.modTask tid fun t => t.modSplit e fun x => x.goto (x.clause + 64) 1 (s.m.clk + 1)) else none
          | _ => none)
        | none => none
def execHaltTimeout (tid e : Nat) (s : State) : Host.Outcome State Fault Refusal := event s (haltTimeoutDue tid e s)

/-! ### WAIT and RUNNING (R256) -/

/-- Whether no split of a task can become ready without an event from outside (R256): every split in an entry waits, is held, or waits
on its clause's WAIT mask, and no placement is due. -/
def Mach.blocked (m : Mach) (t : Task) : Bool :=
  (t.splits.all fun o => match o with
    | none => true
    | some s => s.held || s.wait.isSome || (match s.pa with
      | some pa => s.fresh && !t.waitMet (headerWait (m.mem.word64 pa).1)
      | none => false)) &&
  (List.range 8).all (fun j => !(t.join j).occ && !(t.join j).due) && (t.stack.isEmpty || t.freeEntry.isNone)

/-- The state that a task stands in (R256), with the cycle it last entered WAIT (R265). -/
def Mach.restate (m : Mach) (t : Task) : Task :=
  if t.state == .running || t.state == .waiting then
    if m.blocked t then (if t.state == .waiting then t else { t with state := .waiting, waitSince := m.clk }) else { t with state := .running }
  else t

end Sys2Proof.Machine
end

