-- ==== Sys2Proof/Machine/Finish.lean ====
section
/-! DEFINITION. How operations and teams finish: completion flags (R72, R73), steps of MTILE (R222), copies and their credits (R205, R212), the futures of teams (R190) and what that means for a launch (R334, R335). -/

namespace Sys2Proof.Machine

/-- What an attempt has changed, if it has changed anything. -/
def progress (old : Mach) (r : Bool × Mach) : Option Mach := if r.1 || r.2 != old then some r.2 else none

/-- The tiles that an operation writes. -/
def PendOp.tiles (o : PendOp) : List Nat := o.writes.filterMap fun w => match w with
  | .a r _ _ _ => some r
  | _ => none

/-- The operations of a task issued before one of its operations. -/
def Task.before (t : Task) (id : Nat) : List PendOp := t.pend.takeWhile fun o => o.id != id

/-- An operation completes, once its answers are in and its order allows (R72, R220, R380): a copy has read its source; MMAs on one tile
complete in their order of issue; an MTILE has retired its last step. -/
def Mach.completion (m : Mach) (tid id : Nat) : Option Mach :=
  match m.task tid with
  | none => none
  | some t =>
    match t.pend.find? fun o => o.id == id with
    | none => none
    | some o =>
      if !o.answers.isEmpty then none
      else match o.kind with
        | .access => some (m.setTask tid (t.completeOp id))
        | .mma =>
          if (t.before id).any fun p => p.kind == .mma && p.tiles.any fun k => o.tiles.contains k then none
          else some (m.setTask tid (t.completeOp id))
        | .mtile => match t.mtile with
          | some w => if w.step < w.steps then none else some (m.setTask tid { t.completeOp id with mtile := none })
          | none => none
        | .copy => match m.copies.find? fun c => c.2.task == tid && c.2.op == id with
          | some (n, c) => if !c.readable then none else some (((m.copyReads n).copySome n).modTask tid fun t => t.completeOp id)
          | none => some (m.setTask tid (t.completeOp id))

/-- FLAG_COMPLETION (R72). -/
def flagCompletionDue (tid id : Nat) (s : State) : Option Mach :=
  s.m.completion tid id
def execFlagCompletion (tid id : Nat) (s : State) : Host.Outcome State Fault Refusal := event s (flagCompletionDue tid id s)

/-- MTILE_STEP_RETIRE (R222). -/
def mtileStepRetireDue (tid : Nat) (s : State) : Option Mach :=
  s.m.mtileStep tid
def execMtileStepRetire (tid : Nat) (s : State) : Host.Outcome State Fault Refusal := event s (mtileStepRetireDue tid s)

/-- COPY_COMPLETION (R205). -/
def copyCompletionDue (id : Nat) (s : State) : Option Mach :=
  s.m.copyComplete id
def execCopyCompletion (id : Nat) (s : State) : Host.Outcome State Fault Refusal := event s (copyCompletionDue id s)

/-- A credit reaches its word (R212): one a cycle, before the cycle's changes by tasks; a word no longer registered drops it. -/
def Mach.creditDue (m : Mach) (n : Nat) : Option Mach :=
  match m.credits[n]? with
  | none => none
  | some c =>
    let m' := { m with credits := m.credits.eraseIdx n }
    match (m.team c.team).bind fun g => g.barrier c.offset with
    | none => some m'
    | some r => if r.credited == some m.clk || r.changed == some m.clk then none else some (m'.applyCredit c)

/-- BARRIER_CREDIT (R212). -/
def barrierCreditDue (n : Nat) (s : State) : Option Mach :=
  s.m.creditDue n
def execBarrierCredit (n : Nat) (s : State) : Host.Outcome State Fault Refusal := event s (barrierCreditDue n s)

/-! ### Launch records (R333 to R335) -/

/-- A team of a launch has ended, or its entry was killed or lost (R334, R335). -/
def Mach.launchTeamEnded (m : Mach) (ctx n : Nat) : Mach :=
  (m.modLaunch ctx n fun l => { l with teams := l.teams - 1 }).noteLaunch ctx n

/-- The future of an ended team is completed, and the team is gone (R190, R276). -/
def Mach.endTeam (m : Mach) (team : Nat) : Option Mach :=
  match m.team team with
  | none => none
  | some g =>
    if !g.isOver || m.written g then none
    else match m.completeFuture team with
      | (true, m') =>
        let m' := { m' with teams := tabErase m'.teams team }
        some (match g.launch with
          | some n => m'.launchTeamEnded g.ctx n
          | none => m')
      | (false, m') => if m' == m then none else some m'

/-- TEAM_FUTURE_COMPLETION (R190). -/
def teamFutureCompletionDue (team : Nat) (s : State) : Option Mach :=
  s.m.endTeam team
def execTeamFutureCompletion (team : Nat) (s : State) : Host.Outcome State Fault Refusal := event s (teamFutureCompletionDue team s)

end Sys2Proof.Machine
end

