-- ==== Sys2Proof/Machine/Frames.lean ====
section
/-! DEFINITION. The save frame of a parked task (R229, R234, R269 to R272): its layout, how it is written, and how a task is restored from it, poison in memory included (R408). -/

namespace Sys2Proof.Machine

/-! ### Memory of a frame -/

/-- Bytes become unpoisoned zeros. -/
def Memory.clear (m : Memory) (a n : Nat) : Memory :=
  ⟨m.cells.filter fun c => !(a ≤ c.1 && c.1 < a + n), m.poi.filter fun w => !(a ≤ 4 * w && 4 * w < a + n)⟩

/-- Write the nonzero ones of some words of 4 or 8 bytes at offsets from a base, in cleared memory. -/
def Memory.putWords (m : Memory) (size base : Nat) (ws : List (Nat × Nat)) : Memory :=
  ws.foldl (fun m (o, v) => if v == 0 then m else m.store (base + o) (toBytes size v) fun _ => false) m

/-- A bit stream as words of 4 bytes. -/
def bitWords (bs : List Bool) : List (Nat × Nat) :=
  (List.range ((bs.length + 31) / 32)).map fun i =>
    (4 * i, ((List.range 32).map fun k => if bs.getD (32 * i + k) false then 2 ^ k else 0).foldl (· + ·) 0)

/-- The bits of a mask, the lowest first. -/
def bitsOf {n : Nat} (b : BitVec n) : List Bool := (List.range n).map fun i => b.getLsbD i

/-- A bit of a poison stream of a frame: the elements of a poisoned word of it are poisoned (R408). -/
def Memory.poiBit (m : Memory) (a b : Nat) : Bool := (m.byte (a + b / 8)).getLsbD (b % 8) || m.poisoned (a + b / 32 * 4)

/-- A word of 4 bytes. -/
def Memory.word32 (m : Memory) (a : Nat) : Elem := BitVec.ofNat 32 (ofBytes (m.bytes a 4))

/-! ### Sections -/

/-- The offset of section i of a frame (R270): UNI, PRED, SHAPE, SPLIT, JOIN, VTAG, VEC, VPOIS, ACC, TEAM, and the end. -/
def sectionAt (sizes : List Nat) (i : Nat) : Nat := 256 + (sizes.take i).foldl (· + ·) 0

/-- The accumulator tiles of a task in their order in a frame, by the keys of `acc` (R272). -/
def Task.tileKeys (t : Task) : List Nat := if t.acore then (List.range 256).map (mtileKey t) else List.range (8 * t.ablk)

/-- A split record (R229). -/
def Split.recordWords (s : Split) (stack : Bool) (entry depth : Nat) : List Nat :=
  [(if stack then 2 ^ 50 else 0) + 2 ^ 48 * entry + s.clause.toNat % 2 ^ 48 / 64 * 64 + 8 * s.slot + (if s.held then 4 else 0),
   2 ^ 32 * s.xsig.toNat + s.xact.toNat, s.pxact.toNat, depth]

/-- The records of a task's splits: table entries in ascending order, then the stack from the bottom. -/
def Task.splitWords (t : Task) : List Nat :=
  ((List.range 4).flatMap fun e => match t.split e with
    | some s => s.recordWords false e 0
    | none => []) ++
  (t.stack.reverse.zipIdx.flatMap fun (s, d) => s.recordWords true 0 d)

/-- A join record (R234). -/
def Join.recordWords (j : Join) : List Nat :=
  if !j.valid && !j.occ then [0, 0]
  else [(if j.valid then 2 ^ 63 else 0) + (if j.occ then 2 ^ 62 else 0) + 2 ^ 56 * j.arrivals.length + j.target.toNat % 2 ^ 48 / 64 * 64,
    2 ^ 32 * j.arrived.toNat + j.expected.toNat] ++ j.arrivals.map fun (k, sig) => 2 ^ 32 * sig.toNat + k.toNat

/-- Consecutive words of 8 bytes at their offsets. -/
def placed8 (ws : List Nat) : List (Nat × Nat) := ws.zipIdx.map fun (w, i) => (8 * i, w)
/-- Consecutive words of 4 bytes at their offsets. -/
def placed4 (ws : List Elem) : List (Nat × Nat) := ws.zipIdx.map fun (w, i) => (4 * i, w.toNat)

/-- The words that a vector register takes in VEC, and its bits in VPOIS (R272). -/
def VReg.saved (x : VReg) : List Elem × List Bool := match x.tag with
  | 0 => ([at32 x.e 0], [x.poi.getLsbD 0])
  | 1 => ([at32 x.e 0, at32 x.e 1 - at32 x.e 0], [x.poi.getLsbD 0])
  | _ => (lanes32.map (at32 x.e), bitsOf x.poi)

/-- The header of a frame (R270, R271). -/
def frameHeader (t : Task) (g : Team) (sizes : List Nat) (kind : Nat) (team pin : Bool) (release waitOn : Word) : List (Nat × Nat) :=
  let nsplit := (t.splits.filter Option.isSome).length + t.stack.length
  let allot : Allot := ⟨t.vblk, t.sblk, t.ablk, t.acore⟩
  let mt := match t.mtile with
    | some w => (w.clause.toNat % 2 ^ 48 / 64 * 64 + 8 * w.slot, w.step)
    | none => (0, 0)
  [(0, 2 ^ 56 + 2 ^ 52 * kind + (if team then 2 ^ 51 else 0) + (if pin then 2 ^ 50 else 0) + 2 ^ 32 * nsplit + sectionAt sizes 10),
   (8, allot.word.toNat),
   (16, 2 ^ 50 * t.prio + (if t.lanekill then 2 ^ 49 else 0) + (if t.idem then 2 ^ 48 else 0) + t.entry.toNat % 2 ^ 48),
   (24, g.future.toNat), (32, t.xtask.toNat), (40, 2 ^ 32 * t.xdead.toNat + 16 * t.sizeM1 + t.idx),
   (48, 2 ^ 32 * t.xtagB + t.exited.toNat), (56, t.xepc.toNat), (64, t.xcause.toNat), (72, t.xsyn.toNat), (80, t.xaddr.toNat),
   (88, t.xunit.toNat), (96, t.xhnd.toNat), (104, t.xtile.toNat), (112, t.fetches), (120, mt.1), (128, mt.2), (136, release.toNat),
   (144, waitOn.toNat)] ++
  (List.range 10).map fun i => (160 + 8 * i, if i == 9 && !team then 0 else sectionAt sizes i)

/-- The TEAM section without the scratchpad (R272). -/
def teamWords (g : Team) : List (Nat × Nat) :=
  let tile := match g.tiles.find? fun x => x.1 == g.tileK with
    | some (_, w, _) => w.toNat
    | none => 0
  [(0, g.spadLen), (8, if g.settled then 1 else 0), (16, tile), (24, g.tileK)] ++
  (g.barriers.zipIdx.flatMap fun (b, i) =>
    [(320 + 16 * i, 2 ^ 63 + b.offset), (328 + 16 * i, 2 ^ 16 * b.members.toNat + b.arrived.toNat)])

/-- Write the frame of a task (R266, R270 to R272). -/
def Mach.saveFrame (m : Mach) (t : Task) (g : Team) (frame kind : Nat) (team pin : Bool) (release waitOn : Word) : Mach :=
  let sizes := t.frameSizes (if team then some g.spadLen else none)
  let base := fun i => frame + sectionAt sizes i
  let mem := (m.mem.clear frame (sectionAt sizes 10)).putWords 8 frame (frameHeader t g sizes kind team pin release waitOn)
  let us := (List.range (8 * t.sblk)).map t.uRaw
  let ps := (List.range 12).map t.pRaw
  let qs := (List.range 16).map t.qRaw
  let vs := ((List.range (8 * t.vblk)).map t.vRaw)
  let tiles := t.tileKeys.map t.aRaw
  let mem := (mem.putWords 8 (base 0) (placed8 (us.map (·.v.toNat)))).putWords 4 (base 0 + 64 * t.sblk) (bitWords (us.flatMap fun u => [u.lo, u.hi]))
  let mem := (mem.putWords 4 (base 1) (placed4 (ps.map (·.v)))).putWords 4 (base 1 + 48) (placed4 (ps.map (·.poi)))
  let mem := (mem.putWords 4 (base 2) (placed4 (qs.flatMap (·.e)))).putWords 4 (base 2 + 1024) (bitWords (qs.flatMap fun q => bitsOf q.poi))
  let mem := (mem.putWords 8 (base 3) (placed8 t.splitWords)).putWords 8 (base 4) (placed8 ((List.range 8).flatMap fun j => (t.join j).recordWords))
  let mem := mem.putWords 4 (base 5) (bitWords ((List.range 256).flatMap fun r =>
    let tag := if r < 8 * t.vblk then (t.vRaw r).tag else 3
    [tag % 2 == 1, tag / 2 == 1]))
  let mem := (mem.putWords 4 (base 6) (placed4 (vs.flatMap fun x => x.saved.1))).putWords 4 (base 7) (bitWords (vs.flatMap fun x => x.saved.2))
  let mem := (mem.putWords 4 (base 8) (placed4 (tiles.flatMap fun x => x.rows.flatten))).putWords 4 (base 8 + 4096 * tiles.length)
    (placed4 (tiles.flatMap (·.poi)))
  let mem := if !team then mem
    else
      let mem := (mem.putWords 8 (base 9) (teamWords g)).putWords 4 (base 9 + 64)
        ((List.range 4).flatMap fun w => match tabGet g.windows w with
          | some q => (placed4 q.e).map fun (o, v) => (64 * w + o, v)
          | none => [])
      mem.storeBytes (base 9 + 832) ((m.core g.core).spad.poisonedBytes g.spadBase g.spadLen)
  { m with mem := mem }

/-! ### Reading a frame -/

/-- Word i (8 bytes) of a frame's header. -/
def Mach.frameWord (m : Mach) (frame i : Nat) : Word := (m.mem.word64 (frame + 8 * i)).1
/-- FORMAT.KIND and FORMAT.TEAM (R271). -/
def Mach.frameKind (m : Mach) (frame : Nat) : Nat := fieldOf (m.frameWord frame 0) 52 4
def Mach.frameTeam (m : Mach) (frame : Nat) : Bool := fieldOf (m.frameWord frame 0) 51 1 == 1
/-- The address of section i of a frame. -/
def Mach.frameSection (m : Mach) (frame i : Nat) : Nat := frame + (m.frameWord frame (20 + i)).toNat
/-- The allotment of a frame. -/
def Mach.frameAllot (m : Mach) (frame : Nat) : Option Allot := allotOf (m.frameWord frame 1)
/-- NARR of join register j's record, and where the record lies (R234). -/
def Mach.frameJoins (m : Mach) (frame : Nat) : List (Nat × Nat) :=
  ((List.range 8).foldl (fun (acc : List (Nat × Nat) × Nat) _ =>
    let n := min 32 (fieldOf (m.mem.word64 acc.2).1 56 6)
    (acc.1 ++ [(acc.2, n)], acc.2 + 16 + 8 * n)) ([], m.frameSection frame 4)).1

/-- Whether a control word of a frame is poisoned, so that its task is killed (R408): the header but for RELEASE, SPLIT, JOIN, VTAG. -/
def Mach.framePoisoned (m : Mach) (frame : Nat) : Bool :=
  m.mem.anyPoison frame 136 || m.mem.anyPoison (frame + 144) 112 ||
  m.mem.anyPoison (m.frameSection frame 3) (32 * fieldOf (m.frameWord frame 0) 32 8) || m.mem.anyPoison (m.frameSection frame 5) 64 ||
  (m.frameJoins frame).any fun (a, n) => m.mem.anyPoison a (16 + 8 * n)

/-- A split read from its record; it enters its clause anew at its slot (R229, R268). -/
def Mach.readSplit (m : Mach) (a : Nat) : Split :=
  let w := fun i => (m.mem.word64 (a + 8 * i)).1
  { clause := BitVec.ofNat 64 (fieldOf (w 0) 6 42 * 64), slot := fieldOf (w 0) 3 3, fresh := true, pa := none,
    xact := BitVec.ofNat 32 (fieldOf (w 1) 0 32), xsig := BitVec.ofNat 32 (fieldOf (w 1) 32 32), pxact := BitVec.ofNat 32 (fieldOf (w 2) 0 32),
    held := fieldOf (w 0) 2 1 == 1, fault := none, stamp := m.clk, promo := 0, promoted := false, readyAt := m.clk + 1, found := [],
    wait := none, resumed := none }

/-- Whether a split record is of the stack, and the entry it names. -/
def Mach.splitPlace (m : Mach) (a : Nat) : Bool × Nat :=
  let w := (m.mem.word64 a).1
  (fieldOf w 50 2 == 1, fieldOf w 48 2)

/-- A join register read from its record. -/
def Mach.readJoin (m : Mach) (a n : Nat) : Join :=
  let w := fun i => (m.mem.word64 (a + 8 * i)).1
  ({ valid := fieldOf (w 0) 63 1 == 1, occ := fieldOf (w 0) 62 1 == 1, expected := BitVec.ofNat 32 (fieldOf (w 1) 0 32),
     arrivals := (List.range n).map fun i => (BitVec.ofNat 32 (fieldOf (w (2 + i)) 0 32), BitVec.ofNat 32 (fieldOf (w (2 + i)) 32 32)),
     target := BitVec.ofNat 64 (fieldOf (w 0) 6 42 * 64), due := false } : Join).check

/-- The vector registers of a frame: each from its tag, its words and its poison bits. -/
def Mach.readVectors (m : Mach) (frame n : Nat) : Tab VReg :=
  let tagAt := fun r => let b := m.mem.byte (m.frameSection frame 5 + r / 4); b.toNat / 2 ^ (2 * (r % 4)) % 4
  let bad := fun a => m.mem.poisoned a
  let pbit := fun b => m.mem.poiBit (m.frameSection frame 7) b
  ((List.range n).foldl (fun (acc : Tab VReg × Nat × Nat) r =>
    let (tab, a, b) := acc
    match tagAt r with
    | 0 => (tab ++ [(r, ⟨List.replicate 32 (m.mem.word32 a), if bad a || pbit b then 0xFFFFFFFF else 0⟩)], a + 4, b + 1)
    | 1 =>
      let e0 := m.mem.word32 a
      let step := m.mem.word32 (a + 4)
      (tab ++ [(r, ⟨lanes32.map fun l => e0 + BitVec.ofNat 32 l * step,
        if bad a || pbit b then 0xFFFFFFFF else if bad (a + 4) then 0xFFFFFFFE else 0⟩)], a + 8, b + 1)
    | _ => (tab ++ [(r, ⟨lanes32.map fun l => m.mem.word32 (a + 4 * l), maskOf fun l => bad (a + 4 * l) || pbit (b + l)⟩)], a + 128, b + 32))
    ([], m.frameSection frame 6, 0)).1

/-- A uniform register, a predicate, a shape register, a tile of a frame. -/
def Mach.readUniform (m : Mach) (frame sblk i : Nat) : UReg :=
  let a := m.frameSection frame 0 + 8 * i
  let p := m.mem.poiBit (m.frameSection frame 0 + 64 * sblk)
  ⟨(m.mem.word64 a).1, m.mem.poisoned a || p (2 * i), m.mem.poisoned (a + 4) || p (2 * i + 1)⟩
def Mach.readPredicate (m : Mach) (frame i : Nat) : PReg :=
  let a := m.frameSection frame 1 + 4 * i
  ⟨m.mem.word32 a, maskOf fun l => m.mem.poisoned a || m.mem.poiBit (a + 48) l⟩
def Mach.readShape (m : Mach) (frame i : Nat) : QReg :=
  let a := m.frameSection frame 2 + 64 * i
  ⟨(List.range 16).map fun k => m.mem.word32 (a + 4 * k),
   (maskOf fun k => k < 16 && (m.mem.poisoned (a + 4 * k) || m.mem.poiBit (m.frameSection frame 2 + 1024) (16 * i + k))).setWidth 16⟩
def Mach.readTile (m : Mach) (frame tiles i : Nat) : Tile :=
  let a := m.frameSection frame 8 + 4096 * i
  let p := m.frameSection frame 8 + 4096 * tiles + 128 * i
  ⟨lanes32.map fun r => lanes32.map fun c => m.mem.word32 (a + 128 * r + 4 * c),
   lanes32.map fun r => maskOf fun c => m.mem.poisoned (a + 128 * r + 4 * c) || m.mem.poiBit p (32 * r + c)⟩

/-- The instruction that a restored split goes on with at its next grant; a wait for the clause itself begins anew (R268). -/
def Parked.resumed (p : Parked) (e : Nat) : Option Wait :=
  ((p.waits.find? fun x => x.1 == e && !x.2.fetch).map (·.2)).map fun w => { w with overdue := false, hold := .cond }

/-- A task with the state of its frame (R40, R268, R272), in a slot of a partition. An instruction that a split stood in issues again,
on the operands it has read; stamps are the cycle's and counters 0 (R229). -/
def Mach.restoreTask (m : Mach) (ctx : Nat) (p : Parked) (a : Allot) (core part slot : Nat) (tiles : List Nat) : Task :=
  let f := p.frame
  let w := m.frameWord f
  let n := fieldOf (w 0) 32 8
  let recs := (List.range n).map fun i => m.frameSection f 3 + 32 * i
  let entries := recs.filter fun r => !(m.splitPlace r).1
  let entryOf := fun e => (entries.find? fun r => (m.splitPlace r).2 == e).map fun r =>
    { m.readSplit r with resumed := p.resumed e }
  let joins := (m.frameJoins f).zipIdx.map fun ((a, k), j) => (j, m.readJoin a k)
  { ctx := ctx, core := core, part := part, slot := slot, team := p.team, idx := fieldOf (w 5) 0 4, sizeM1 := fieldOf (w 5) 4 4,
    vblk := a.vblk, sblk := a.sblk, ablk := a.ablk, acore := a.acore, tiles := tiles, prio := fieldOf (w 2) 50 2,
    lanekill := fieldOf (w 2) 49 1 == 1, idem := fieldOf (w 2) 48 1 == 1, entry := BitVec.ofNat 64 (fieldOf (w 2) 0 48),
    supervisor := ctx == systemContext, onComplex := false, xtask := w 4, xdead := BitVec.ofNat 32 (fieldOf (w 5) 32 32),
    exited := BitVec.ofNat 32 (fieldOf (w 6) 0 32), xtile := w 13, xtagB := fieldOf (w 6) 32 3, xepc := w 7, xcause := w 8, xsyn := w 9,
    xaddr := w 10, xunit := w 11, xhnd := w 12, hlanes := p.hlanes,
    v := m.readVectors f (8 * a.vblk), u := (List.range (8 * a.sblk)).map fun i => (i, m.readUniform f a.sblk i),
    p := (List.range 12).map fun i => (i, m.readPredicate f i), q := (List.range 16).map fun i => (i, m.readShape f i),
    acc := [], joins := joins, pjoins := joins, splits := (List.range 4).map entryOf,
    stack := ((recs.filter fun r => (m.splitPlace r).1).map m.readSplit).reverse, pend := [], cf := List.replicate 12 0,
    cfPrev := List.replicate 12 0, mtile := none, state := .ready, fetches := (w 14).toNat, tileDone := false, seen := p.seen,
    seenMore := p.seenMore, window := p.window, wdog := 0, progressed := true, committed := false, fromResume := true, ending := none,
    endValue := none, departed := false, waitSince := m.clk, settled := p.settled, mergedAt := none, parkOn := none, free := 2 ^ 20 * m.nextId : Task }

/-- The tiles of a frame reach a task that has been restored (R272). -/
def Mach.restoreTiles (m : Mach) (t : Task) (frame : Nat) : Task :=
  let keys := t.tileKeys
  { t with acc := keys.zipIdx.foldl (fun acc (k, i) => tabSet acc k (m.readTile frame keys.length i)) [] }

/-- The MTILE that a frame names, as it goes on (R224): the instruction at its address with the shape registers as saved. -/
def Mach.savedMtile (m : Mach) (t : Task) (frame pa : Nat) : Option MTile :=
  let w := m.frameWord frame 15
  match m.instrAt pa (fieldOf w 3 3) with
  | some (.mtile x) =>
    let qa := t.qRaw (x.a.toNat % 16)
    let qb := t.qRaw (x.b.toNat % 16)
    some ⟨x, BitVec.ofNat 64 (fieldOf w 6 42 * 64), fieldOf w 3 3, qa, qb, t.qRaw (mtileQs x), t.qRaw (mtileQt x), t.uRaw (mtileQs x),
      t.uRaw (mtileQt x), ⟨[], []⟩, fieldOf (m.frameWord frame 16) 0 32, qa.tY / 32 * (qb.tY / 32) * (qa.tx / matK x.ty), Tile.zero⟩
  | _ => none

/-- The team's part of a frame returns to its team (R268, R272): settled, TFETCH number, windows, barrier table, scratchpad. -/
def Mach.restoreTeam (m : Mach) (team frame spadBase : Nat) : Mach :=
  let a := m.frameSection frame 9
  let w := fun o => (m.mem.word64 (a + o)).1
  let len := (w 0).toNat
  let windows := (List.range 4).filterMap fun k =>
    let e := (List.range 16).map fun i => m.mem.word32 (a + 64 + 64 * k + 4 * i)
    let poi := (maskOf fun i => i < 16 && m.mem.poisoned (a + 64 + 64 * k + 4 * i)).setWidth 16
    if e.all (· == 0) && poi == 0 then none else some (k, (⟨e, poi⟩ : QReg))
  let barriers := (List.range 32).filterMap fun i =>
    let r := w (320 + 16 * i)
    let s := w (328 + 16 * i)
    if r.getLsbD 63 then some (⟨fieldOf r 0 20, BitVec.ofNat 16 (fieldOf s 0 16), BitVec.ofNat 16 (fieldOf s 16 16), none, none, none⟩ : Barrier)
    else none
  match m.team team with
  | none => m
  | some g =>
    let m := m.setTeam team { g with settled := (w 8).getLsbD 0, tileK := (w 24).toNat, windows := windows, barriers := barriers,
                                     spadBase := spadBase, spadLen := len }
    m.modCore g.core fun k => { k with spad := (k.spad.clear spadBase len).storeBytes spadBase (m.mem.poisonedBytes (a + 832) len) }

end Sys2Proof.Machine
end

