-- ==== Sys2Proof/Machine/Entry.lean ====
section
/-! DEFINITION. The admission of an entry (R20, R21, R254, R283): what the core reads for it, the partitions and the scratchpad it gets, and the tasks and teams it makes (R40); entries that are lost or killed (R20, R409, R444). -/

namespace Sys2Proof.Machine

/-! ### Reads that an engine makes (R255, R305, R365) -/

/-- What an engine's read of some bytes finds. -/
inductive EngineData where
  | data (d : Datum)
  | fault (cause reason detail high : Nat)
  | waiting
deriving DecidableEq, Repr

/-- The task numbers under which engines keep the answers of other devices and of the host. -/
def stagingAgent (core : Nat) : Nat := 2 ^ 40 + core
def queueAgent (queue : Nat) : Nat := 2 ^ 41 + queue

/-- The answer that an agent has kept for a read. -/
def Mach.agentAnswer (m : Mach) (agent va : Nat) : Option (Option Answer) :=
  (m.requests.find? fun (_, r) => match r.kind with
    | .kept k _ ((0, a) :: _) => k == agent && a == va
    | _ => false).map fun x => x.2.answer

/-- Forget what an agent has kept. -/
def Mach.dropAgent (m : Mach) (agent : Nat) : Mach :=
  { m with requests := m.requests.filter fun (_, r) => match r.kind with
      | .kept k _ _ => k != agent
      | _ => true }

/-- Read n bytes at a place that an engine has found. -/
def Mach.spotRead (m : Mach) (agent ctx n : Nat) (e : Elt) : Spot → EngineData × Mach
  | .here pa => let (d, m) := m.slice pa n; (.data d, m)
  | .chip pa => (.data ((Config.freeWord (2 ^ 102 * (m.nextId + 1) + pa)).toNat % 2 ^ (8 * n), 0), m)
  | .away d a => match m.agentAnswer agent e.va with
    | some (some x) => (.data (x.datum 0 n), m)
    | some none => (.waiting, m)
    | none => (.waiting, (m.request (.kept agent 0 [(0, e.va)]) ctx (readFrame d a n e.secure .rlx .team)).2)
  | .host pa =>
    if (m.ats.find? fun a => a.1 == hostPage pa).isNone then
      if m.atsRefused.contains (hostPage pa) then
        (.fault 4 4 0 0, { m with atsRefused := m.atsRefused.filter (· != hostPage pa) })
      else (.waiting, m.askAts (hostPage pa) true e.secure)
    else match m.agentAnswer agent e.va with
      | some (some x) => (.data (x.datum 0 n), m)
      | some none => (.waiting, m)
      | none => (.waiting, (m.hostRequest (.kept agent 0 [(0, e.va)]) ctx fun tag => .hostRead tag (m.hostAddress pa) n e.secure).2)
  | _ => (.waiting, m)

/-- A read of n bytes within one page by an engine of a die; one that works for a core checks for races and writes back that core's own
dirty sectors first. -/
def Mach.engineRead (m : Mach) (agent die ctx : Nat) (core : Option Nat) (va n : Nat) : EngineData × Mach :=
  match m.engineSpot die ctx va .load (fun _ _ => true) with
  | (.fault c r d, m) => (.fault c r d 0, m)
  | (.waiting, m) => (.waiting, m)
  | (.found e s, m) =>
    match core, s with
    | some c, .here pa =>
      match m.spanRace c pa n false true with
      | some h => (.fault 6 1 0 (dieOf h + 8 * logicalOf h), m)
      | none =>
        let m := (sectorsAt (.mem pa) n).foldl (fun (m : Mach) a => m.flush c a) m
        m.spotRead agent ctx n e s
    | _, _ => m.spotRead agent ctx n e s

/-! ### Operands of a closure (R186, R255) -/

/-- What an operand descriptor gives: nothing, a shape, a fault, or a page that is waited for. -/
inductive OperandAt where
  | none
  | shape (q : QReg)
  | fault (cause reason detail high addr : Nat)
  | waiting
deriving DecidableEq, Repr

/-- The checks of an operand's shape: R215, no scratchpad, no window. -/
def operandShape (q : QReg) (addr : Nat) : OperandAt :=
  match q.poisoned with
  | some i => .fault 8 0x0B i 0 addr
  | none => match q.badElement with
    | some i => .fault 0x0C 2 i 0 addr
    | none => if q.spad || q.skew then .fault 0x0C 2 2 0 addr else .shape q

/-- Operand j of a closure: its descriptor and its shape record. -/
def Mach.operand (m : Mach) (core ctx : Nat) (e : Entry) (j : Nat) : OperandAt × Mach :=
  let w := e.word (2 + 2 * j)
  let b := e.word (3 + 2 * j)
  if e.wordPoi (2 + 2 * j) || (w != 0 && e.wordPoi (3 + 2 * j)) then (.fault 8 0x0C (16 + 16 * j) 0 0, m)
  else if w == 0 then (.none, m)
  else if fieldOf b 48 15 != 0 then (.fault 0x0C 2 0 0 w.toNat, m)
  else if w.toNat % 64 != 0 then (.fault 3 1 64 0 w.toNat, m)
  else match m.engineRead (stagingAgent core) (dieOf core) ctx (some core) w.toNat 64 with
    | (.data d, m) =>
      (operandShape ⟨(List.range 16).map fun i => BitVec.ofNat 32 (d.1 / 2 ^ (32 * i)), BitVec.ofNat 16 d.2⟩ w.toNat, m)
    | (.fault c r dt h, m) => (.fault c r dt h w.toNat, m)
    | (.waiting, m) => (.waiting, m)

/-- The row pitch of a staged operand, and the bytes it takes. -/
def QReg.pitch (q : QReg) : Nat := roundUpTo ((q.tx * tyBits q.ty + 7) / 8) 128
def OperandAt.bytes : OperandAt → Nat
  | .shape q => q.pitch * q.tY * q.tz
  | _ => 0

/-! ### Rooms and seats (R21, R254, R283) -/

/-- A place for a member: its index, partition, slot, allotment, the xhnd it starts with, and the frame it comes from. -/
structure Seat where
  idx : Nat
  part : Nat
  slot : Nat
  allot : Allot
  xhnd : Word
  frame : Option Parked
deriving DecidableEq, Repr

/-- What admission makes of an entry. -/
inductive Admission where
  | killed (cause reason detail : Nat)
  | hold
  | room
  | seats (l : List Seat) (len : Nat)
deriving DecidableEq, Repr

/-- Seat members one by one, member i in partition (p0 + i) mod 4: the partitions and slots they take, if every one fits. -/
def seatFrom (p0 : Nat) : List (Nat × Allot) → List Holding → List (Nat × Nat) → Option (List (Nat × Nat))
  | [], _, _ => some []
  | (i, a) :: rest, hs, slots =>
    let p := (p0 + i) % 4
    match (List.range 16).find? fun s => !slots.contains (p, s) with
    | none => none
    | some s =>
      if fits hs p a then (seatFrom p0 rest (hs ++ [⟨p, a⟩]) (slots ++ [(p, s)])).map fun l => (p, s) :: l else none

/-- The partitions in the order in which p0 is tried. -/
def partOrder (hs : List Holding) : List Nat :=
  sortBy (fun a b => freeVectors hs b < freeVectors hs a || (freeVectors hs a == freeVectors hs b && a ≤ b)) (List.range 4)

/-- The seats of some members' allotments beside some holdings. -/
def seatsFor (as : List (Nat × Allot)) (hs : List Holding) (slots : List (Nat × Nat)) : Option (List (Nat × Nat)) :=
  (partOrder hs).findSome? fun p => seatFrom p as hs slots

/-- The lowest free run of a core's scratchpad, beside the allocations of some teams (R283). -/
def freeRun (size len : Nat) (used : List (Nat × Nat)) : Option Nat :=
  if len == 0 then some 0
  else (List.range ((size - len) / 4096 + 1)).findSome? fun i =>
    let p := 4096 * i
    if p + len ≤ size && used.all fun (b, n) => p + len ≤ b || b + n ≤ p then some p else none

/-- The allocations of the teams of a core, but for some teams. -/
def Mach.allocations (m : Mach) (core : Nat) (without : List Nat) : List (Nat × Nat) :=
  m.teams.filterMap fun (n, g) => if g.core == core && g.spadLen != 0 && !without.contains n then some (g.spadBase, g.spadLen) else none

/-- Seats for members' allotments and an allocation on a core, some of its tasks left out of account. -/
def Mach.findRoom (m : Mach) (core : Nat) (c : Ctx) (as : List (Nat × Allot)) (len : Nat) (without : List Nat) : Admission :=
  let tasks := m.tasks.filter fun (n, t) => t.core == core && !without.contains n
  let hs := tasks.map fun (_, t) => (⟨t.part, t.vblk, t.sblk, t.ablk, t.acore⟩ : Holding)
  let gone := (m.tasks.filter fun (n, _) => without.contains n).map fun (_, t) => t.team
  if (seatsFor as [] []).isNone || c.spadSize < len then .killed 0x0C 4 0
  else match seatsFor as hs (tasks.map fun (_, t) => (t.part, t.slot)), freeRun c.spadSize len (m.allocations core gone) with
    | some l, some _ => .seats ((l.zip as).map fun ((p, s), i, a) => ⟨i, p, s, a, 0, none⟩) len
    | _, _ => .room

/-- A page request of a closure's entry record, or what it says (R20). -/
def Mach.readEntryRecord (m : Mach) (die ctx : Nat) (e : Entry) : Except Admission (Allot × Word) × Mach :=
  match m.engineXlate die ctx (wrapBits 64 ((e.entryPc : Int) - 64)) .exec with
  | (.ok pa _ _, m) => match m.entryRecord pa with
    | some r => (.ok r, m)
    | none => (.error (.killed 1 5 0), m)
  | (.fault c r d, m) => (.error (.killed c r d), m)
  | (.waiting, m) => (.error .hold, m)

/-- The admission of a closure entry. -/
def Mach.admitClosure (m : Mach) (core ctx : Nat) (c : Ctx) (e : Entry) (without : List Nat) : Admission × Mach :=
  match m.readEntryRecord (dieOf core) ctx e with
  | (.error a, m) => (a, m)
  | (.ok (a, xhnd), m) =>
    let (o0, m) := m.operand core ctx e 0
    let (o1, m) := m.operand core ctx e 1
    if o0 == .waiting || o1 == .waiting then (.hold, m)
    else
      let len := roundUpTo (o0.bytes + o1.bytes + 4096 * c.spadUnits) 4096
      match m.findRoom core c ((List.range e.teamSize).map fun i => (i, a)) len without with
      | .seats l n => (.seats (l.map fun s => { s with xhnd := xhnd }) n, m)
      | r => (r, m)

/-- The frame that the resume entry of a parked task names: its own, or member 0's of a team parked at quiescence (R254, R348). -/
def Ctx.namedFrame (c : Ctx) (p : Parked) : Nat := if p.kind == 3 then p.frame - p.idx * c.frameSize else p.frame

/-- The parked tasks that a resume entry names: one, or the members of a team parked at quiescence (R254, R348). -/
def Ctx.resumed (c : Ctx) (frame : Nat) : List Parked :=
  sortBy (fun a b => a.idx ≤ b.idx) (c.parked.filter fun p => c.namedFrame p == frame)

/-- The frame whose TEAM section gives the allocation of a parked team: that of a task to be resumed, or of another of the team. -/
def Mach.teamFrame (m : Mach) (c : Ctx) (ps : List Parked) : Option Nat :=
  ((ps ++ c.parked.filter fun p => ps.any fun q => q.team == p.team).find? fun p => m.frameTeam p.frame).map (·.frame)

/-- Whether a team has a resident member. -/
def Mach.teamResident (m : Mach) (team : Nat) : Bool := m.tasks.any fun (_, t) => t.team == team

/-- The admission of a resume entry; tasks whose frames cannot be trusted take no seat (R408). -/
def Mach.admitResume (m : Mach) (core : Nat) (c : Ctx) (e : Entry) (without : List Nat) : Admission :=
  let ps := c.resumed e.frame
  match ps with
  | [] => .killed 0 0 0
  | p :: _ =>
    let sound := ps.filterMap fun p => if m.framePoisoned p.frame then none else (m.frameAllot p.frame).map fun a => (p, a)
    if sound.isEmpty then .seats [] 0
    else
      let len := if m.teamResident p.team then 0 else match m.teamFrame c ps with
        | some f => (m.mem.word64 (m.frameSection f 9)).1.toNat
        | none => 0
      match m.findRoom core c (sound.map fun (p, a) => (if p.kind == 3 then p.idx else 0, a)) len without with
      | .seats l n => .seats ((l.zip sound).map fun (s, p, _) => { s with frame := some p }) n
      | r => r

/-- Whether the pinned resume entry of a member parked by SVC may be admitted while its context is pending (R343). -/
def Mach.pendingException (m : Mach) (core : Nat) (c : Ctx) (e : Entry) : Bool :=
  e.isResume && e.pin && e.who == core && (c.resumed e.frame).any fun p => p.kind == 2 && m.teamResident p.team

/-- What admission on a core makes of an entry. -/
def Mach.admission (m : Mach) (core ctx : Nat) (c : Ctx) (e : Entry) (without : List Nat) : Admission × Mach :=
  if c.pending.isSome && !m.pendingException core c e then (.room, m)
  else if e.isResume then (m.admitResume core c e without, m)
  else m.admitClosure core ctx c e without

/-! ### Lost and killed entries -/

/-- An entry whose header or future word is poisoned is lost at its take (R409). -/
def Entry.lost (e : Entry) : Bool := e.wordPoi 0 || e.wordPoi 1

/-- The ENTRYLOST record, and what it means for a launch (R334, R335, R409). `addr`: where the image lay in memory. -/
def Mach.loseEntry (m : Mach) (core ctx : Nat) (e : Entry) (addr : Nat) : Mach :=
  let m := m.errorRecord ctx [recordHead 5 8 0 0 (unitOf core 0 0) m.xdev.toNat, m.xclk, 0, BitVec.ofNat 64 addr, 0, e.word 1, e.word 0, 0]
  if e.lv && !e.sidePoi then m.launchTeamEnded ctx e.lrec else m

/-- The tile of a spawn queue that a closure entry is, by the arguments that the queue engine gave it (R203). -/
def Mach.queueTile (m : Mach) (ctx : Nat) (e : Entry) : Option (Nat × Nat) :=
  if e.lv then none
  else m.spawnqs.findSome? fun (q, s) =>
    let d := QDesc.of m.mem q
    if s.ctx == ctx && e.word 8 == d.base && (e.word 9).toNat == d.cap then
      (s.tiles.find? fun (a, n, done) => !done && (e.word 6).toNat == a && (e.word 7).toNat == n &&
        !m.teams.any fun (_, g) => g.queue == some (q, a)).map fun (a, _, _) => (q, a)
    else none

/-- A team as its admission makes it. -/
def Mach.newTeam (m : Mach) (core ctx : Nat) (e : Entry) (base len : Nat) (leader : Word) : Team :=
  { ctx := ctx, core := core, size := e.teamSize, entry := e, future := e.future, settled := false, leader := leader, spadBase := base,
    spadLen := len, windows := [], barriers := [], gone := [], dead := 0, poison := false, killed := false, timeout := false,
    unsettled := false, launch := if e.lv then some e.lrec else none, tileK := 0, tiles := [], queue := m.queueTile ctx e, value := none,
    ender := 0, readers := [], discarded := false }

/-- An entry killed before any task of it issued anything: its TASKKILL record, and a team that is over and completes its future with
KILLED (R20, R254, R444). -/
def Mach.killEntry (m : Mach) (core ctx : Nat) (e : Entry) (cause reason detail : Nat) : Mach :=
  let m := m.errorRecord ctx [recordHead 1 cause reason detail (unitOf core 0 0) m.xdev.toNat, m.xclk, 0, BitVec.ofNat 64 e.entryPc, 0, 0,
    e.future, 0]
  let (n, m) := m.fresh
  (m.setTeam n { m.newTeam core ctx e 0 0 0 with gone := List.range e.teamSize, killed := true, unsettled := true }).freeTeam n

/-! ### The tasks of an entry (R40, R254, R256) -/

/-- The next creation serial of a context on a die (R38). -/
def Mach.takeSerial (m : Mach) (die ctx : Nat) : Word × Mach :=
  let k := tabGetD (m.die die).serial ctx 0
  (BitVec.ofNat 64 (2 ^ 60 * die + k % 2 ^ 60), m.modDie die fun d => { d with serial := tabSet d.serial ctx (k + 1) })

/-- The split with which a task starts. -/
def startSplit (entry : Word) (clk : Nat) : Split :=
  { clause := entry, slot := 1, fresh := true, pa := none, xact := 0xFFFFFFFF, xsig := 0, pxact := 0xFFFFFFFF, held := false, fault := none,
    stamp := clk, promo := 0, promoted := false, readyAt := clk + 1, found := [], wait := none, resumed := none }

/-- A task at its start (R40). -/
def startTask (ctx core team : Nat) (e : Entry) (s : Seat) (tiles : List Nat) (xtask : Word) (clk free : Nat) : Task :=
  let entry := BitVec.ofNat 64 e.entryPc
  { ctx := ctx, core := core, part := s.part, slot := s.slot, team := team, idx := s.idx, sizeM1 := e.teamSize - 1,
    vblk := s.allot.vblk, sblk := s.allot.sblk, ablk := s.allot.ablk, acore := s.allot.acore, tiles := tiles, prio := e.prio,
    lanekill := e.lanekill, idem := e.idem, entry := entry, supervisor := ctx == systemContext, onComplex := false, xtask := xtask,
    xdead := 0, exited := 0, xtile := 0, xtagB := 0, xepc := 0, xcause := 0, xsyn := 0, xaddr := 0, xunit := 0, xhnd := s.xhnd, hlanes := 0,
    v := [], u := (List.range (min 10 (8 * s.allot.sblk))).map fun i => (i, ⟨e.word (6 + i), e.poi.getLsbD (12 + 2 * i), e.poi.getLsbD (13 + 2 * i)⟩),
    p := [], q := [], acc := [], joins := [], pjoins := [], splits := [some (startSplit entry clk), none, none, none], stack := [], pend := [],
    cf := List.replicate 12 0, cfPrev := List.replicate 12 0, mtile := none,
    state := if e.word 2 == 0 && e.word 4 == 0 then .ready else .staging, fetches := 0, tileDone := false, seen := [], seenMore := false,
    window := none, wdog := 0, progressed := true, committed := false, fromResume := false, ending := none, endValue := none,
    departed := false, waitSince := clk, settled := false, mergedAt := none, parkOn := none, free := free : Task }

/-- The tiles of a seat (DESIGN CHOICE, log 19). -/
def Mach.seatTiles (m : Mach) (core : Nat) (s : Seat) : List Nat :=
  if s.allot.acore then List.range 64 else m.freeTiles core s.part none [] (8 * s.allot.ablk)

/-- Form the team of a closure entry. -/
def Mach.formTeam (m : Mach) (core ctx : Nat) (c : Ctx) (e : Entry) (seats : List Seat) (len : Nat) : Mach :=
  let base := (freeRun c.spadSize len (m.allocations core [])).getD 0
  let (team, m) := m.fresh
  let m := seats.foldl (fun (m : Mach) s =>
    let (x, m) := m.takeSerial (dieOf core) ctx
    let (n, m) := m.fresh
    m.setTask n (startTask ctx core team e s (m.seatTiles core s) x m.clk (2 ^ 20 * n))) m
  let leader := match m.tasks.find? fun (_, t) => t.team == team && t.idx == 0 with
    | some (_, t) => t.xtask
    | none => 0
  m.setTeam team (m.newTeam core ctx e base len leader)

/-- The RELEASE word of a frame as the record of a release to acquire (R260, R268, R408). -/
def Mach.frameRelease (m : Mach) (frame : Nat) : Entry :=
  let w := m.frameWord frame 17
  { resumeEntry frame 0 (coreNo (fieldOf w 11 3) (fieldOf w 4 7)) (w.extractLsb' 16 16) false with sidePoi := m.mem.anyPoison (frame + 136) 8 }

/-- A resumed task is killed before it issues anything: its frame cannot be trusted (R408), or no core can hold it (R254, R444). -/
def Mach.killResumed (m : Mach) (core ctx cause reason : Nat) (p : Parked) : Mach :=
  let w := m.frameWord p.frame
  let blind := m.mem.anyPoison (p.frame + 24) 8
  let m := m.errorRecord ctx [recordHead 1 cause reason 0 (unitOf core 0 0) m.xdev.toNat, m.xclk, w 4, BitVec.ofNat 64 p.frame, w 7, w 9,
    if blind then 0 else w 3, 0]
  (m.modTeam p.team fun g => { g with
    poison := g.poison || cause == 8, killed := g.killed || cause != 8, unsettled := g.unsettled || !p.settled, gone := insertNat g.gone (fieldOf (w 5) 0 4),
    future := if blind then 0 else g.future, core := core }).freeTeam p.team

/-- The frame of a task is free again, and the task is parked no more (R268); with the last member of a team parked at quiescence go the
frames of the members that had ended. -/
def Mach.unpark (m : Mach) (ctx : Nat) (p : Parked) : Mach := m.modCtx ctx fun c =>
  let rest := c.parked.filter fun q => q.tid != p.tid
  let base := c.namedFrame p
  let frees := fun (a : Nat) => a == p.frame ||
    (p.kind == 3 && !(rest.any fun q => c.namedFrame q == base) && base ≤ a && a < base + (fieldOf (m.frameWord p.frame 5) 4 4 + 1) * c.frameSize)
  { c with parked := rest, framesUsed := c.framesUsed.filter fun i => !frees ((c.word 10).toNat + i * c.frameSize) }

/-- Restore one member into its seat; its MTILE goes on (R224, R268). -/
def Mach.restoreMember (m : Mach) (core ctx : Nat) (s : Seat) (p : Parked) : Mach :=
  let m := m.acquireEntry core ctx (m.frameRelease p.frame)
  let t := (m.restoreTask ctx p s.allot core s.part s.slot (m.seatTiles core s)) |> fun t => m.restoreTiles t p.frame
  let w := m.frameWord p.frame 15
  let (op, m) := m.fresh
  let t := if w == 0 then t
    else match m.engineXlate (dieOf core) ctx (fieldOf w 6 42 * 64) .exec with
      | (.ok pa _ _, _) => match m.savedMtile t p.frame pa with
        | some mt =>
          let flag := flagChosen (m.mem.word64 pa).1 mt.ins.fl
          { t with mtile := some mt }.resumeMtile op flag (m.core core).spad
        | none => t
      -- its clause can be read no more: it goes on as it was issued
      | _ => { t with mtile := p.mtile }.resumeMtile op none (m.core core).spad
  (m.setTask p.tid t).unpark ctx p

/-- Whether an address that a frame's MTILE stands at must still be waited for. -/
def Mach.mtilePage (m : Mach) (core ctx : Nat) (ps : List Parked) : Bool × Mach :=
  ps.foldl (fun (acc : Bool × Mach) p =>
    let w := acc.2.frameWord p.frame 15
    if w == 0 then acc
    else match acc.2.engineXlate (dieOf core) ctx (fieldOf w 6 42 * 64) .exec with
      | (.waiting, m) => (true, m)
      | (_, m) => (acc.1, m)) (false, m)

/-- Restore the tasks of a resume entry (R268). -/
def Mach.restoreAll (m : Mach) (core ctx : Nat) (c : Ctx) (seats : List Seat) (len : Nat) : Mach :=
  let ps := seats.filterMap (·.frame)
  match ps with
  | [] => m
  | p :: _ =>
    let m := if m.teamResident p.team then m
      else
        let base := (freeRun c.spadSize len (m.allocations core [])).getD 0
        let m := m.modTeam p.team fun g => { g with core := core }
        match m.teamFrame c ps with
        | some f => m.restoreTeam p.team f base
        | none => m
    seats.foldl (fun (m : Mach) s => match s.frame with
      | some p => m.restoreMember core ctx s p
      | none => m) m

end Sys2Proof.Machine
end

