-- ==== Sys2Proof/Machine/Moves.lean ====
section
/-! DEFINITION. How work moves: takes, refills, steals on Meridian, admission and resumption (R250 to R254, R257 to R260, R268, R343), and staging (R255). -/

namespace Sys2Proof.Machine

/-! ### Meridian (R257) -/

/-- What a die publishes for a context: DEPTH, AGED, and TILES of each tile launch (R257). -/
def Mach.publication (m : Mach) (c : Ctx) (ctx die : Nat) : Nat × Bool × List (Nat × Nat) :=
  let es := (m.dieEntries c ctx die).filter fun e => !e.pin
  (es.length, es.any fun e => m.aged c e, c.launches.filterMap fun (n, l) => l.tiles.map fun t =>
    (tilesKey ctx n, ((t.reissued ++ t.undrawn).filter fun i => t.dieOf c.dies.length i == c.logicalDie die).length))

/-- Publish on Meridian (R257). -/
def Mach.publish (m : Mach) : Mach :=
  m.ctxs.foldl (fun (m : Mach) (ctx, c) => if !c.resident then m else c.dies.foldl (fun (m : Mach) die =>
    let (n, old, ts) := m.publication c ctx die
    m.modDie die fun d => { d with
      depth := tabSet d.depth ctx n
      aged := if old then insertNat d.aged ctx else d.aged.filter (· != ctx)
      tiles := ts.foldl (fun acc (k, v) => tabSet acc k v) d.tiles }) m) m

/-- MERIDIAN_PUBLISH (R257): at every xclk that is a multiple of 256. -/
def meridianPublishDue (s : State) : Option Mach :=
  if s.m.xclk.toNat % 256 == 0 && s.m.publish != s.m then some s.m.publish else none
def execMeridianPublish (s : State) : Host.Outcome State Fault Refusal := event s (meridianPublishDue s)

/-! ### Takes (R253) -/

/-- Whether a core of a resident context seeks work: a partition has a free slot, it holds no taken entry, and none that waits to be
pushed back (R251, R253). -/
def Mach.seeks (m : Mach) (core : Nat) : Bool :=
  let k := m.core core
  logicalOf core < m.logCores && k.hand.isNone && !k.pushing.any (·.1) &&
  (List.range 4).any fun p => (m.tasks.filter fun (_, t) => t.core == core && t.part == p).length < 16

/-- Whether a core and its die have nothing of their own, so that it seeks by stealing (R253, steps 3 to 5). -/
def Mach.bare (m : Mach) (core : Nat) : Bool := (m.core core).deque.isEmpty && (m.core core).overflow == 0 && (m.core core).pushing.isEmpty

/-- A core of the die has taken an entry in this ck (R259). -/
def Mach.noteTake (m : Mach) (core ctx : Nat) : Mach := m.modDie (dieOf core) fun d =>
  { d with starve := tabSet d.starve ctx 0, took := insertNat d.took ctx }

/-- A core holds an entry that it has taken, once it has acquired it; an entry whose header or future word is poisoned is lost (R260, R409). -/
def Mach.takeInHand (m : Mach) (core ctx : Nat) (e : Entry) (addr : Nat) : Mach :=
  if e.lost then m.loseEntry core ctx e addr
  else (m.acquireEntry core ctx e).modCore core fun k => { k with hand := some e }

/-- Take the head of the inbox (R253, steps 1 and 3); an entry that may not run on this die is forwarded (R353). -/
def Mach.takeInbox (m : Mach) (core ctx : Nat) (c : Ctx) : Option Mach :=
  match m.inboxNext c ctx (dieOf core) with
  | none => none
  | some (e, addr, carried) =>
    if e.pin && e.who != core then none
    else if c.permits e (dieOf core) || e.lost then
      some (((m.inboxTake ctx (dieOf core) carried).takeInHand core ctx e addr).noteTake core ctx)
    else match nearestDie (dieOf core) (c.dies.filter fun d => c.permits e d) with
      | some d => if m.inboxFull d ctx then none else some ((m.inboxTake ctx (dieOf core) carried).inboxPush d ctx e)
      | none => none

/-- Take the hot end of the core's own deque, when it can be admitted now (R253, step 2). -/
def Mach.takeOwn (m : Mach) (core ctx : Nat) (c : Ctx) : Option Mach :=
  let k := m.core core
  let pick := if c.pending.isSome then (k.deque.find? fun e => m.pendingException core c e) else if k.refilling then none else k.deque.getLast?
  match pick with
  | none => none
  | some e =>
    match m.admission core ctx c e [] with
    | (.room, _) => none
    | _ =>
      let m := m.modCore core fun k => { k with deque := if k.deque.getLast? == some e then k.deque.dropLast else k.deque.erase e }
      some ((m.takeInHand core ctx e 0).noteTake core ctx)

/-- The dies that qualify as victims of a cross-die steal (R259). -/
def Mach.crossVictims (m : Mach) (c : Ctx) (ctx die : Nat) : List Nat :=
  c.dies.filter fun d => d != die && (c.lthr ≤ tabGetD (m.die d).depth ctx 0 || (m.die d).aged.contains ctx)

/-- Whether a seeking core sends a cross-die request in place of an in-die one (R259). -/
def Mach.crossDue (m : Mach) (c : Ctx) (ctx die : Nat) : Bool :=
  c.lwait ≤ tabGetD (m.die die).starve ctx 0 && !(m.crossVictims c ctx die).isEmpty

/-- The victim die of a cross-die steal (R259). -/
def Mach.crossVictim (m : Mach) (c : Ctx) (ctx die : Nat) : Option Nat :=
  let l := m.crossVictims c ctx die
  let l := if l.any fun d => (m.die d).aged.contains ctx then l.filter fun d => (m.die d).aged.contains ctx else l
  let depth := fun d => tabGetD (m.die d).depth ctx 0
  l.find? fun a => l.all fun b => depth b < depth a || (depth a == depth b &&
    (dieDistance die a < dieDistance die b || (dieDistance die a == dieDistance die b && a ≤ b)))

/-- Send an in-die steal request to a random other core (R258; DESIGN CHOICE, log 7). -/
def Mach.stealInDie (m : Mach) (core : Nat) : Option Mach :=
  let others := ((List.range m.logCores).map fun l => coreNo (dieOf core) l).filter (· != core)
  match others[Config.victim m.nextId % others.length]? with
  | some v => some ((m.fresh.2).modCore core fun k => { k with request := some v })
  | none => none

/-- One take by a core, from the first source that applies (R253). -/
def Mach.take (m : Mach) (core : Nat) : Option Mach :=
  match m.ctxOn (dieOf core) with
  | none => none
  | some ctx => match m.ctx ctx with
    | none => none
    | some c =>
      if !m.seeks core then none
      else if c.pending.isSome then m.takeOwn core ctx c
      else
        let aged := match m.inboxNext c ctx (dieOf core) with
          | some (e, _, _) => m.aged c e
          | none => false
        match (if aged then m.takeInbox core ctx c else none) with
        | some m => some m
        | none => match m.takeOwn core ctx c with
          | some m => some m
          | none =>
            if !m.bare core then none
            else match m.takeInbox core ctx c with
              | some m => some m
              | none =>
                if (m.core core).request.isSome then none
                else if m.crossDue c ctx (dieOf core) && (m.die (dieOf core)).crossRequest.isNone then none
                else m.stealInDie core

/-- A core takes at most one entry, and sends at most one request, in a cycle (R253). -/
def Mach.onceACycle (m : Mach) (core : Nat) (r : Option Mach) : Option Mach :=
  if (m.core core).tookAt == some m.clk then none
  else r.map fun m' => m'.modCore core fun k => { k with tookAt := some m.clk }

/-- TAKE_ENTRY (R253). -/
def takeEntryDue (core : Nat) (s : State) : Option Mach :=
  s.m.onceACycle core (s.m.take core)
def execTakeEntry (core : Nat) (s : State) : Host.Outcome State Fault Refusal := event s (takeEntryDue core s)

/-- REFILL (R251): the read of the top block begins, and then its entries become the cold part of the deque. -/
def Mach.refill (m : Mach) (core : Nat) : Option Mach :=
  match (m.ctxOn (dieOf core)).bind m.ctx with
  | none => none
  | some c =>
    let k := m.core core
    if k.overflow == 0 then none
    else if k.refilling then
      let base := c.ovfBlock core (k.overflow - 1)
      let es := (List.range 256).map fun i => m.readEntry (base + 128 * i) (base + 0x8000 + 16 * i)
      some (m.setCore core { k with refilling := false, overflow := k.overflow - 1, deque := es ++ k.deque })
    else if k.deque.isEmpty then some (m.setCore core { k with refilling := true })
    else none

def refillDue (core : Nat) (s : State) : Option Mach :=
  s.m.refill core
def execRefill (core : Nat) (s : State) : Host.Outcome State Fault Refusal := event s (refillDue core s)

/-! ### Steals (R252, R258 to R260) -/

/-- The coldest entry of a core's deque that a thief's die may take. -/
def Mach.stealable (m : Mach) (c : Ctx) (victim die : Nat) : Option Entry :=
  if (m.core victim).refilling then none else (m.core victim).deque.find? fun e => !e.pin && c.permits e die

/-- The core of a victim die that a cross-die request is passed on to; none for the inbox (R259). -/
def Mach.bridge (m : Mach) (c : Ctx) (ctx die : Nat) : Option Nat :=
  let cores := (List.range m.logCores).map fun l => coreNo die l
  let age := fun k => match (m.core k).deque.head? with
    | some e => if m.aged c e then (m.xclk - e.pushck).toNat + 1 else 0
    | none => 0
  let depth := fun k => (m.core k).deque.length
  let oldest := cores.find? fun a => 0 < age a && cores.all fun b => age b < age a || (age a == age b && a ≤ b)
  let deepest := cores.find? fun a => 0 < depth a && cores.all fun b => depth b < depth a || (depth a == depth b && a ≤ b)
  if (m.die die).aged.contains ctx then (oldest.or deepest) else deepest

/-- Whether another thief's request of the same deque is served first: in-die ones before cross-die ones, lower logical cores or dies
first (R252). -/
def Mach.servedBefore (m : Mach) (c : Ctx) (ctx thief victim : Nat) : Bool :=
  m.cores.any fun (n, k) => n != thief && k.reply.isNone && k.tookAt != some m.clk && match k.request with
    | some v => if v < 2 ^ 16 then v == victim && (n < thief || dieOf thief != dieOf victim)
      else dieOf thief != dieOf victim && m.bridge c ctx (v - 2 ^ 16) == some victim && c.logicalDie (dieOf n) < c.logicalDie (dieOf thief)
    | none => false

/-- Whether the owner of a deque has a pop of it to make in this cycle: that comes before a thief's take (R252). -/
def Mach.popsNow (m : Mach) (v : Nat) : Bool :=
  (m.core v).tookAt != some m.clk && m.seeks v && match (m.ctxOn (dieOf v)) with
    | none => false
    | some ctx => match m.ctx ctx with
      | none => false
      | some c => (m.takeOwn v ctx c).isSome

/-- STEAL_REQUEST_SERVED (R252, R259): in a later cycle than the request, after the owner's pop of the cycle, and one take of a deque in a cycle,
the entry leaves the victim, or the reply is empty. -/
def Mach.serveSteal (m : Mach) (thief : Nat) : Option Mach :=
  match (m.core thief).request, (m.ctxOn (dieOf thief)) with
  | some v, some ctx =>
    match m.ctx ctx, (m.core thief).reply with
    | some c, none =>
      let reply := fun (m : Mach) (e : Option Entry) => some (m.modCore thief fun k => { k with reply := some e })
      let fromDeque := fun (v : Nat) => if m.popsNow v || (m.core v).gaveAt == some m.clk then none else match m.stealable c v (dieOf thief) with
        | some e =>
          let m := m.modCore v fun k => { k with deque := k.deque.erase e, gaveAt := some m.clk }
          if e.lost then reply (m.loseEntry thief ctx e 0) none else reply m (some e)
        | none => reply m none
      if (m.core thief).tookAt == some m.clk then none
      else if v < 2 ^ 16 then (if m.servedBefore c ctx thief v then none else fromDeque v)
      else
        let die := v - 2 ^ 16
        match m.bridge c ctx die with
        | some k => if m.servedBefore c ctx thief k then none else fromDeque k
        | none => match m.inboxNext c ctx die with
          | some (e, addr, carried) =>
            if e.pin || !c.permits e (dieOf thief) then reply m none
            else
              let m := m.inboxTake ctx die carried
              if e.lost then reply (m.loseEntry thief ctx e addr) none else reply m (some e)
          | none => reply m none
    | _, _ => none
  | _, _ => none

def stealRequestServedDue (thief : Nat) (s : State) : Option Mach :=
  s.m.serveSteal thief
def execStealRequestServed (thief : Nat) (s : State) : Host.Outcome State Fault Refusal := event s (stealRequestServedDue thief s)

/-- CROSS_DIE_STEAL (R259): a seeking core of a starved die sends a cross-die request. -/
def crossDieStealDue (core : Nat) (s : State) : Option Mach :=
  let m := s.m
  m.onceACycle core (match m.ctxOn (dieOf core) with
    | none => none
    | some ctx => match m.ctx ctx with
      | none => none
      | some c =>
        if !m.seeks core || !m.bare core || c.pending.isSome || (m.core core).request.isSome || (m.die (dieOf core)).crossRequest.isSome ||
           (m.inboxNext c ctx (dieOf core)).isSome || !m.crossDue c ctx (dieOf core) then none
        else match m.crossVictim c ctx (dieOf core) with
          | some v => some ((m.modCore core fun k => { k with request := some (2 ^ 16 + v) }).modDie (dieOf core) fun d =>
              { d with crossRequest := some core })
          | none => none)
def execCrossDieSteal (core : Nat) (s : State) : Host.Outcome State Fault Refusal := event s (crossDieStealDue core s)

/-- STEAL_REPLY (R258, R260): the thief acquires the entry, and holds it for admission. -/
def stealReplyDue (thief : Nat) (s : State) : Option Mach :=
  let m := s.m
  let k := m.core thief
  match k.reply, m.ctxOn (dieOf thief) with
    | some r, some ctx =>
      let cross : Bool := match k.request with
        | some v => decide (2 ^ 16 ≤ v)
        | none => false
      let m := m.setCore thief { k with request := none, reply := none, tookAt := some m.clk }
      let m := if cross then m.modDie (dieOf thief) fun d => { d with crossRequest := none } else m
      match r with
      | none => some m
      | some e =>
        if k.hand.isSome then none
        else
          let m := m.takeInHand thief ctx e 0
          some (if cross then m else m.noteTake thief ctx)
    | _, _ => none
def execStealReply (thief : Nat) (s : State) : Host.Outcome State Fault Refusal := event s (stealReplyDue thief s)

/-- WRITEBACK_REQUEST (R294): the core writes back what it holds dirty under epochs up to a generation. -/
def execWritebackRequest (core : Nat) (gen : BitVec 16) (s : State) : Host.Outcome State Fault Refusal :=
  let due := (s.m.core core).l1.any fun (_, x) => match x.state with
    | .dirty e => e.toNat ≤ gen.toNat
    | _ => false
  event s (if due then some (s.m.writeback core gen) else none)

/-! ### Admission (R254) and resumption (R268) -/

/-- Push an entry that could not be admitted back onto the core's own deque, recorded as its own (R253). -/
def Mach.pushBack (m : Mach) (core ctx : Nat) (e : Entry) : Mach :=
  (m.modCore core fun k => { k with hand := none }).pushOrHold core ctx true
    { e with who := core, gen := (m.core core).xrgen, null := false, sidePoi := false }

/-- The entry that a core holds, of one kind, with its context. -/
def Mach.inHand (m : Mach) (core : Nat) (resume : Bool) : Option (Nat × Ctx × Entry) :=
  match (m.core core).hand, m.ctxOn (dieOf core) with
  | some e, some ctx => if e.isResume == resume then (m.ctx ctx).map fun c => (ctx, c, e) else none
  | _, _ => none

/-- Cut a run of bytes at multiples of 4 KiB. -/
def pageCuts (a n : Nat) : List (Nat × Nat) :=
  if n == 0 then []
  else (List.range ((a + n - 1) / 4096 - a / 4096 + 1)).map fun i =>
    let lo := max a (4096 * (a / 4096 + i))
    (lo, min (a + n) (4096 * (a / 4096 + i + 1)) - lo)

/-- The rows of a staged operand: where each goes beyond O, where it comes from, and how many of its bytes lie in the region. -/
def stagedRows (q : QReg) (coords : Word) : List (Nat × Nat × Nat) :=
  let gx := q.x0 + fieldOf coords 0 16 * q.tx
  let nx := min q.tx (q.nx - gx)
  (List.range q.tz).flatMap fun z => (List.range q.tY).map fun y =>
    let gy := q.y0 + fieldOf coords 16 16 * q.tY + y
    let gz := q.z0 + fieldOf coords 32 16 * q.tz + z
    (z * q.pitch * q.tY + y * q.pitch, q.base + q.offset gx gy gz, if gy < q.ny && gz < q.nz then elemBytes q.ty nx else 0)

/-- The sealed regions of its context that the staging of an operand reads (R255, R304). -/
def Mach.operandSeals (m : Mach) (ctx : Nat) (coords : Word) : OperandAt → List Nat
  | .shape q => (m.seals.filter fun (_, s) => s.ctx == ctx && (stagedRows q coords).any fun (_, a, n) =>
      a < s.va.toNat + s.len && s.va.toNat < a + n).map (·.1)
  | _ => []

/-- The sealed regions that the staging of a closure will read. -/
def Mach.readersOf (m : Mach) (core ctx : Nat) (e : Entry) : List Nat :=
  (m.operandSeals ctx (e.word 3) (m.operand core ctx e 0).1 ++ m.operandSeals ctx (e.word 5) (m.operand core ctx e 1).1).foldl insertNat []

/-- A team that has formed counts as a reader of some sealed regions, until its staging ends (R255, R304). -/
def Mach.countReaders (m : Mach) (team : Nat) (l : List Nat) : Mach :=
  let more := fun (x : Nat × Seal) => (x.1, if l.contains x.1 then { x.2 with readers := x.2.readers + 1 } else x.2)
  { m with seals := m.seals.map more }.modTeam team fun g => { g with readers := l }

/-- ADMIT of a closure entry (R254): it becomes a team, is killed, waits for a page, or goes back to the deque. -/
def Mach.enter (m : Mach) (core : Nat) : Option Mach :=
  match m.inHand core false with
  | none => none
  | some (ctx, c, e) =>
    let drop := fun (m : Mach) => (m.modCore core fun k => { k with hand := none }).dropAgent (stagingAgent core)
    match m.admission core ctx c e [] with
    | (.seats l n, m) => some (((drop m).formTeam core ctx c e l n).countReaders m.nextId (m.readersOf core ctx e))
    | (.killed a b d, m) => some ((drop m).killEntry core ctx e a b d)
    | (.room, m) => some ((drop m).pushBack core ctx e)
    | (.hold, m') => if m' == m then none else some m'

def admitEntryDue (core : Nat) (s : State) : Option Mach :=
  s.m.enter core
def execAdmitEntry (core : Nat) (s : State) : Host.Outcome State Fault Refusal := event s (admitEntryDue core s)

/-- RESUME (R268): the frames of a resume entry are restored; an entry without a parked task is dropped, and a task
that fits no core is killed (R254). -/
def Mach.resume (m : Mach) (core : Nat) : Option Mach :=
  match m.inHand core true with
  | none => none
  | some (ctx, c, e) =>
    let drop := fun (m : Mach) => m.modCore core fun k => { k with hand := none }
    let ps := c.resumed e.frame
    match m.admission core ctx c e [] with
    | (.seats l n, m) =>
      let sound := l.filterMap (·.frame)
      match m.mtilePage core ctx sound with
      | (true, m') => if m' == m then none else some m'
      | (false, m) =>
        let bad := ps.filter fun p => !sound.any fun q => q.tid == p.tid
        let m := bad.foldl (fun (m : Mach) p => (m.killResumed core ctx 8 0 p).unpark ctx p) (drop m)
        some (m.restoreAll core ctx c l n)
    | (.room, m) => some ((drop m).pushBack core ctx e)
    | (.killed a b _, m) => some (ps.foldl (fun (m : Mach) p => (m.killResumed core ctx a b p).unpark ctx p) (drop m))
    | (.hold, m) => some (drop m)

def resumeDue (core : Nat) (s : State) : Option Mach :=
  s.m.resume core
def execResume (core : Nat) (s : State) : Host.Outcome State Fault Refusal := event s (resumeDue core s)

/-! ### Staging (R255) -/

/-- What staging has gathered so far: bytes for places of the allocation, a fault with its address, or a page waited for. -/
structure Staged where
  bytes : List (Nat × List (Byte × Bool))
  fault : Option (Nat × Nat × Nat × Nat × Nat)
  waiting : Bool
deriving DecidableEq, Repr

/-- The bytes of a datum with the poison of their words; its first byte lies at address a. -/
def Datum.bytes (d : Datum) (a n : Nat) : List (Byte × Bool) :=
  (toBytes n d.1).zipIdx.map fun (b, i) => (b, d.2.testBit ((a + i) / 4 - a / 4))

/-- Gather one piece. -/
def Staged.gather (g : Staged × Mach) (core ctx dst a n : Nat) : Staged × Mach :=
  let (s, m) := g
  if s.fault.isSome then g
  else match m.engineRead (stagingAgent core) (dieOf core) ctx (some core) a n with
    | (.data d, m) => ({ s with bytes := s.bytes ++ [(dst, Datum.bytes d a n)] }, m)
    | (.fault c r d h, m) => ({ s with fault := some (c, r, d, h, a) }, m)
    | (.waiting, m) => ({ s with waiting := true }, m)

/-- Gather one operand for offset o of the allocation. -/
def Mach.gatherOperand (g : Staged × Mach) (core ctx o : Nat) (e : Entry) (j : Nat) : OperandAt → Staged × Mach
  | .shape q => (stagedRows q (e.word (3 + 2 * j))).foldl (fun g (at', src, n) =>
      (pageCuts src n).foldl (fun g (a, k) => Staged.gather g core ctx (o + at' + (a - src)) a k) g) g
  | .fault c r d h a => ({ g.1 with fault := (g.1.fault.or (some (c, r, d, h, a))) }, g.2)
  | .waiting => ({ g.1 with waiting := true }, g.2)
  | .none => g

/-- Gather both operands of a team's closure, with the bytes that they take in the allocation. -/
def Mach.stage (m : Mach) (g : Team) : Nat × Staged × Mach :=
  let (o0, m) := m.operand g.core g.ctx g.entry 0
  let (o1, m) := m.operand g.core g.ctx g.entry 1
  let (s, m) := Mach.gatherOperand (Mach.gatherOperand (⟨[], none, false⟩, m) g.core g.ctx 0 g.entry 0 o0) g.core g.ctx o0.bytes g.entry 1 o1
  (o0.bytes + o1.bytes, s, m)

/-- The team, while its members are in STAGING. -/
def Mach.stagingTeam (m : Mach) (team : Nat) : Option Team :=
  if m.tasks.any fun (_, t) => t.team == team && t.state == .staging then m.team team else none

/-- Change every member of a team. -/
def Mach.modMembers (m : Mach) (team : Nat) (f : Task → Task) : Mach :=
  { m with tasks := m.tasks.map fun (n, t) => (n, if t.team == team then f t else t) }

/-- STAGING_COMPLETE (R255): the operands stand in the allocation, padding and elements outside the region as zeros, and the members are
READY. -/
def Mach.staged (m : Mach) (team : Nat) : Option Mach :=
  match m.stagingTeam team with
  | none => none
  | some g =>
    let (len, s, m') := m.stage g
    if s.fault.isSome then none
    else if s.waiting then (if m' == m then none else some m')
    else
      let fill := fun (mem : Memory) => s.bytes.foldl (fun (mem : Memory) (o, bs) => mem.storeBytes (g.spadBase + o) bs) (mem.clear g.spadBase len)
      let m := ((m'.modCore g.core fun k => { k with spad := fill k.spad }).dropAgent (stagingAgent g.core)).dropReaders team
      some (m.modMembers team fun t => { t with state := .ready, splits := [some (startSplit t.entry m.clk), none, none, none] })

def stagingCompleteDue (team : Nat) (s : State) : Option Mach :=
  s.m.staged team
def execStagingComplete (team : Nat) (s : State) : Host.Outcome State Fault Refusal := event s (stagingCompleteDue team s)

/-- STAGING_FAULT (R255): the error is recorded, the members depart, and the future will complete with POISON or KILLED. -/
def Mach.stagingFails (m : Mach) (team : Nat) : Option Mach :=
  match m.stagingTeam team with
  | none => none
  | some g =>
    match m.stage g with
    | (_, ⟨_, some (c, r, d, _, a), _⟩, m) =>
      let m := m.errorRecord g.ctx [recordHead 6 c r d (unitOf g.core 0 5) m.xdev.toNat, m.xclk, g.leader, BitVec.ofNat 64 a, 0,
        0, g.future, 0]
      let m := m.modTeam team fun g => { g with poison := g.poison || c == 8, killed := g.killed || c != 8, unsettled := true }
      some (((m.modMembers team fun t => t.finish (.staging (c == 8))).dropAgent (stagingAgent g.core)).dropReaders team)
    | _ => none

def stagingFaultDue (team : Nat) (s : State) : Option Mach :=
  s.m.stagingFails team
def execStagingFault (team : Nat) (s : State) : Host.Outcome State Fault Refusal := event s (stagingFaultDue team s)

end Sys2Proof.Machine
end

