-- ==== Sys2Proof/Machine/Parks.lean ====
section
/-! DEFINITION. Parking (R264 to R269, R347), resume entries (R267), quiescence (R191, R348), discards (R345, R346), the end of the grace period (R349) and the watchdog (R416). -/

namespace Sys2Proof.Machine

/-! ### Frames of the pool (R269) -/

/-- The frames of a context's pool that are free. -/
def Ctx.freeFrames (c : Ctx) : List Nat := (List.range (fieldOf (c.word 11) 0 32)).filter fun i => !c.framesUsed.contains i
def Ctx.frameAddr (c : Ctx) (i : Nat) : Nat := (c.word 10).toNat + i * c.frameSize

/-- The first of n consecutive free frames; which of the possible ones is a free choice (DESIGN CHOICE, log 10). -/
def Ctx.pickFrames (c : Ctx) (n : Nat) (k : Nat) : Option Nat :=
  let free := c.freeFrames
  let starts := free.filter fun i => (List.range n).all fun j => free.contains (i + j)
  if starts.isEmpty then none else starts[Config.freeNat k % starts.length]?

/-! ### Reasons to park (R264) -/

/-- Whether a wait allows its task to park. -/
def Wait.parks (w : Wait) : Bool := match w.hold, w.ins with
  | .service, _ => true
  | .request _ _ _, _ => true
  | .page _ _ _ _, _ => w.overdue
  | .ats _ _, _ => w.overdue
  | .shared _ _ _, _ => w.overdue
  | .cond, .joinf _ => true
  | _, _ => false

/-- The waits of a task's splits, by entry; and the instructions that splits go on with at their next grant. -/
def Task.waits (t : Task) : List (Nat × Wait) := (List.range 4).filterMap fun e => ((t.split e).bind (·.wait)).map fun w => (e, w)
def Task.resumes (t : Task) : List (Nat × Wait) := (List.range 4).filterMap fun e => ((t.split e).bind (·.resumed)).map fun w => (e, w)

/-- The wait that a task parks for: that of SVC, else that of its lowest entry that allows it. -/
def Task.parkWait (t : Task) : Option (Nat × Wait) := (t.waits.find? fun x => x.2.hold == .service).or (t.waits.find? fun x => x.2.parks)

/-- KIND, WAITON and the kept request of a wait (R270, R271). -/
def Mach.parkKind (m : Mach) (t : Task) (tid : Nat) (w : Wait) : Nat × Word × Option Nat :=
  match w.hold, w.ins with
  | .service, .svc x => (2, x.lo.setWidth 64, none)
  | .cond, .joinf x => (0, BitVec.ofNat 64 ((t.asRead w.regs).addrUni x).1, (m.requests.find? fun (_, r) => match r.kind with
      | .kept k _ _ => k == tid
      | _ => false).map (·.1))
  | .page _ _ _ va, _ => (1, BitVec.ofNat 64 va, none)
  | .request _ _ va, _ => (1, BitVec.ofNat 64 va, none)
  | .ats _ va, _ => (1, BitVec.ofNat 64 va, none)
  | .shared _ _ va, _ => (1, BitVec.ofNat 64 va, none)
  | _, _ => (1, 0, none)

/-- Move a split that has finished SVC or YIELD to the next clause (R176, R191). -/
def Split.finishWait (s : Split) (clk : Nat) : Split := s.goto (s.clause + 64) 1 clk

/-- A frame is written, the core releases, and the slot is free (R266): the task is parked. -/
def Mach.parkInto (m : Mach) (tid frame : Nat) (w : ParkOn) (team pin : Bool) : Mach :=
  match m.task tid with
  | none => m
  | some t => match m.team t.team, m.ctx t.ctx with
    | some g, some c =>
      let m := m.bump t.core .dev
      let a := c.frameAddr frame
      let m := m.saveFrame t g a w.kind team pin (resumeEntry a 0 t.core (m.core t.core).xrgen false).side w.waitOn
      let p : Parked := { tid := tid, frame := a, team := t.team, kind := w.kind, waitOn := w.waitOn, request := w.request, ready := w.ready,
                          pin := pin, entered := false, idx := t.idx, hlanes := t.hlanes, settled := t.settled, mtile := t.mtile,
                          waits := t.waits ++ t.resumes, seen := t.seen, seenMore := t.seenMore, window := t.window }
      let m := m.modCtx t.ctx fun c => { c with parked := c.parked ++ [p], framesUsed := insertNat c.framesUsed frame }
      let m := { m with tasks := tabErase m.tasks tid }
      if team then m.modTeam t.team fun g => { g with spadLen := 0, windows := [], barriers := [] } else m
    | _, _ => m

/-- The wait that a park is for, with its condition already met where the pages that the entry waited for have been answered (R267). -/
def Task.parksOn (t : Task) : Option ParkOn := t.parkOn.map fun w =>
  { w with ready := w.kind == 1 && t.waits.all fun x => x.1 != w.entry || x.2.hold == .cond }

/-- Complete the park of a task with nothing outstanding (R266); an SVC posts its service record (R176). -/
def Mach.park (m : Mach) (tid : Nat) : Option Mach :=
  match m.task tid with
  | none => none
  | some t => match t.parksOn, m.ctx t.ctx with
    | some w, some c =>
      match c.pickFrames 1 m.nextId with
      | none => none
      | some f =>
        let m := m.fresh.2
        let team := m.onlyMember tid t
        let m := if w.kind == 2 then m.modTask tid fun t => t.modSplit w.entry fun s => s.finishWait m.clk else m
        let m := m.parkInto tid f w team (!team)
        some (if w.kind == 2 then
          ({ m with
            serviceRecords := m.serviceRecords ++ [[BitVec.ofNat 64 t.ctx, t.xtask, BitVec.ofNat 64 (c.frameAddr f), w.waitOn]]
            out := m.out ++ [.wakeFirmware 2] } : Mach).wakeComplexes
        else m)
    | _, _ => none

/-- Begin the park of a task (R266): its MTILE stops at a step boundary, and it issues nothing while its operations complete. -/
def Mach.beginPark (m : Mach) (tid : Nat) : Mach := match m.task tid with
  | none => m
  | some t => m.setTask tid { t.suspendMtile with
      state := .parking
      parkOn := t.parkWait.map fun (e, w) => let (kind, waitOn, req) := m.parkKind t tid w; ⟨e, kind, waitOn, req, false, m.clk⟩ }

/-- Whether a task meets the conditions of R265 that concern itself. -/
def Mach.mayPark (m : Mach) (tid : Nat) (t : Task) : Bool :=
  t.live && t.waits.any (fun x => x.2.parks) && m.blocked t && m.onlyMember tid t && match m.ctx t.ctx, m.team t.team with
    | some c, some g => !c.freeFrames.isEmpty && t.frameBytes (some g.spadLen) ≤ c.frameSize
    | _, _ => false

/-- The tasks of a core that may park, the one longest in WAIT first (R265). -/
def Mach.parkOrder (m : Mach) (core : Nat) : List (Nat × Task) :=
  sortBy (fun a b =>
    a.2.waitSince < b.2.waitSince || (a.2.waitSince == b.2.waitSince && (a.2.part * 16 + a.2.slot ≤ b.2.part * 16 + b.2.slot)))
    (m.tasks.filter fun (n, t) => t.core == core && m.mayPark n t)

/-- Whether parking makes room (R265): the hot end of the deque cannot be admitted, and can be once the first k tasks of the order have
parked, for some k. -/
def Mach.parkHelps (m : Mach) (core : Nat) : Bool :=
  match (m.ctxOn (dieOf core)), (m.core core).deque.getLast? with
  | some ctx, some e => match m.ctx ctx with
    | none => false
    | some c =>
      let order := (m.parkOrder core).map (·.1)
      let fitsWith := fun (l : List Nat) => match (m.admission core ctx c e l).1 with
        | .seats _ _ => true
        | _ => false
      !fitsWith [] && (List.range order.length).any fun k => fitsWith (order.take (k + 1))
  | _, _ => false

/-- The park of a task completes once nothing of it is outstanding (R266). -/
def Mach.finishPark (m : Mach) (tid : Nat) : Option Mach := match m.task tid with
  | some t => if m.settled tid t then m.park tid else none
  | none => none

/-- The cycles that the model gives the writing of a frame, a line a cycle, before it completes a park of its own accord; a park may
complete at once (DESIGN CHOICE, log 75). -/
def Mach.parkCycles (m : Mach) (t : Task) : Nat := t.frameBytes ((m.team t.team).map (·.spadLen)) / 128

/-- Whether the park of a task completes in this cycle. -/
def Mach.parkEnds (m : Mach) (tid : Nat) : Bool :=
  (m.task tid).any (fun t => t.state == .parking && t.ending.isNone && t.parkOn.all fun w => w.since + m.parkCycles t ≤ m.clk) &&
    (m.finishPark tid).isSome

/-- PARK (R176, R265, R266, R347): the park of a task begins, or completes once nothing of it is outstanding. -/
def Mach.parkStep (m : Mach) (tid : Nat) : Option Mach :=
  match m.task tid with
  | none => none
  | some t =>
    let framed := match m.ctx t.ctx with
      | some c => !c.freeFrames.isEmpty
      | none => false
    if t.ending.isSome || t.onComplex || !framed then none
    else if t.state == .parking then m.finishPark tid
    else if !t.live then none
    else if t.waits.any fun x => x.2.hold == .service then some (m.beginPark tid)
    else if m.tasks.any fun (_, o) => o.core == t.core && o.state == .parking then none
    else
      let pending := match m.ctx t.ctx with
        | some c => c.pending.isSome
        | none => false
      let alone := match m.team t.team with
        | some g => g.size == 1
        | none => false
      let willing := (t.splits.all fun o => match o with
        | some s => match s.wait with
          | some w => w.parks
          | none => false
        | none => true)
      if pending && alone && willing && m.mayPark tid t then some (m.beginPark tid)
      else if m.parkHelps t.core && (m.parkOrder t.core).head?.map (·.1) == some tid then some (m.beginPark tid)
      else none

def execPark (tid : Nat) (s : State) : Host.Outcome State Fault Refusal := event s (s.m.parkStep tid)
/-- The step of a park that the machine takes by itself. -/
def parkDue (tid : Nat) (s : State) : Option Mach :=
  if (s.m.task tid).any fun t => t.parkOn.any fun w => s.m.clk < w.since + s.m.parkCycles t then none else s.m.parkStep tid

/-! ### Resume entries (R267) -/

/-- Whether a future of this device is ready (R195): COUNT at or below 0, or poisoned. -/
def Mach.futureDone (m : Mach) (die ctx va : Nat) : Bool :=
  match m.tryXlate die ctx va .load with
  | some e => regionOf e.pa == .loc && futureReady (m.mem.load e.pa 32)
  | none => false

/-- Whether the condition that ends a park has been met. -/
def Mach.parkOver (m : Mach) (ctx : Nat) (p : Parked) : Bool :=
  match p.kind with
  | 0 => (match p.request with
    | some n => (match tabGet m.requests n with
      | some r => r.answer.isSome
      | none => true)
    | none => m.links.any (fun l => l.tid == p.tid && l.got.isSome) || m.futureDone (dieOf (m.frameRelease p.frame).who) ctx p.waitOn.toNat)
  | 1 => p.ready || p.waits.any fun x => match x.2.hold with
      | .shared home addr va => va == p.waitOn.toNat && m.pageAnswer ctx home addr
      | _ => false
  | 2 => p.ready
  | _ => false

/-- The resume entry of a parked task of a context (R249). -/
def Mach.entryOf (m : Mach) (c : Ctx) (p : Parked) : Entry :=
  let r := m.frameRelease p.frame
  { r with img := (resumeEntry (c.namedFrame p) 0 0 0 false).img, pushck := m.xclk, pin := p.pin }

/-- RESUME_ENTRY_CREATE (R267): the entry goes to the hot end of the parking core's deque; where that core's die has left the
placement, to the same core of the nearest die. -/
def Mach.createResume (m : Mach) (ctx frame : Nat) : Option Mach :=
  match m.ctx ctx with
  | none => none
  | some c => match c.parked.find? fun p => p.frame == frame && !p.entered with
    | none => none
    | some p =>
      if !c.resident || !m.parkOver ctx p then none
      else
        let e := m.entryOf c p
        match (if c.dies.contains (dieOf e.who) then some (dieOf e.who) else nearestDie (dieOf e.who) c.dies) with
        | none => none
        | some die =>
          let m := m.modCtx ctx fun c => { c with parked := c.parked.map fun q => if q.tid == p.tid then { q with entered := true } else q }
          some (m.pushOrHold (coreNo die (logicalOf e.who)) ctx false e)

def resumeEntryCreateDue (ctx frame : Nat) (s : State) : Option Mach :=
  s.m.createResume ctx frame
def execResumeEntryCreate (ctx frame : Nat) (s : State) : Host.Outcome State Fault Refusal := event s (resumeEntryCreateDue ctx frame s)

/-! ### Quiescence (R191, R348) -/

/-- Whether a task stands in YIELD with nothing outstanding. -/
def Mach.yielding (m : Mach) (tid : Nat) (t : Task) : Bool :=
  t.ending.isNone && t.splits.any Option.isSome && t.splits.all (fun o => match o with
    | none => true
    | some s => match s.wait with
      | some w => (match w.ins with
        | .yield _ => true
        | _ => false)
      | none => false) && t.mtile.isNone && m.settled tid t

/-- QUIESCENCE_PARK (R348): the members park in ascending index into consecutive frames; the last writes the TEAM section. -/
def Mach.quiesce (m : Mach) (team : Nat) : Option Mach :=
  match m.team team with
  | none => none
  | some g => match m.ctx g.ctx with
    | none => none
    | some c =>
      let members := m.tasks.filter fun (_, t) => t.team == team
      let quiet := c.pending.isSome && !members.isEmpty && members.all (fun (n, t) => m.yielding n t) &&
        (List.range g.size).all fun i => g.gone.contains i || members.any fun (_, t) => t.idx == i
      if !quiet then none
      else match c.pickFrames g.size m.nextId with
        | none => none
        | some j =>
          let last := members.foldl (fun k (_, t) => max k t.idx) 0
          let order := sortBy (fun a b => a.2.idx ≤ b.2.idx) members
          let m := m.modCtx g.ctx fun c => { c with framesUsed := (List.range g.size).foldl (fun l i => insertNat l (j + i)) c.framesUsed }
          some (order.foldl (fun (m : Mach) (n, t) =>
            let m := m.modTask n fun t => { t with splits := t.splits.map fun o => o.map fun s => s.finishWait m.clk }
            m.parkInto n (j + t.idx) ⟨0, 3, 0, none, false, m.clk⟩ (t.idx == last) false) m.fresh.2)

def quiescenceParkDue (team : Nat) (s : State) : Option Mach :=
  s.m.quiesce team
def execQuiescencePark (team : Nat) (s : State) : Host.Outcome State Fault Refusal := event s (quiescenceParkDue team s)

/-! ### Discards (R344 to R346) -/

/-- Whether a team is discardable (R345): in STAGING, or every resident member IDEM, admitted from its closure, before any commit point. A member that has ended is resident while it holds its slot; a parked one is not. -/
def Mach.discardable (m : Mach) (team : Nat) : Bool :=
  let members := m.tasks.filter fun (_, t) => t.team == team
  members.any (fun (_, t) => t.ending.isNone) &&
  (members.all (fun (_, t) => t.state == .staging) || members.all fun (_, t) => t.idem && !t.fromResume && !t.committed)

/-- Tiles of a team in flight go to the head of their sub-queues (R194, R263). -/
def Mach.reissue (m : Mach) (g : Team) : Mach :=
  match g.launch with
  | none => m
  | some n =>
    let back := fun (ts : Tiles) => (g.tiles.filter fun x => x.2.1.getLsbD 63).foldl (fun (ts : Tiles) x =>
      let i := ts.index x.2.1
      { ts with inFlight := ts.inFlight.erase i, reissued := i :: ts.reissued.filter (· != i) }) ts
    (m.modLaunch g.ctx n fun l => { l with tiles := l.tiles.map back }).noteLaunch g.ctx n

/-- DISCARD_TEAM (R346): its members stop, its tile is issued again, its closure goes back to the deque with its side record. -/
def Mach.discard (m : Mach) (team : Nat) : Option Mach :=
  match m.team team with
  | none => none
  | some g => match m.ctx g.ctx with
    | none => none
    | some c =>
      if c.pending.isNone || !m.discardable team then none
      else
        let m := (m.reissue g).dropReaders team
        let m := m.setTeam team { g with readers := [], future := 0, launch := none, queue := none, tiles := [], barriers := [], windows := [], value := none, discarded := true }
        let m := m.modMembers team fun t => if t.ending.isSome then t else t.finish .discarded
        some ((m.dropAgent (stagingAgent g.core)).pushOrHold g.core g.ctx true g.entry)

def discardTeamDue (team : Nat) (s : State) : Option Mach :=
  if s.granted then none else s.m.discard team
def execDiscardTeam (team : Nat) (s : State) : Host.Outcome State Fault Refusal := event s (discardTeamDue team s)

/-! ### The grace period (R349) and the watchdog (R416) -/

/-- Set CTL.FAULTED and CTL.ERR (R339, R349, R420). -/
def Ctx.setFault (c : Ctx) (err : Nat) : Ctx :=
  let w := c.word 0
  let w := (w &&& ~~~(BitVec.ofNat 64 (2 ^ 32 - 2 ^ 24))) ||| BitVec.ofNat 64 (2 ^ 61 + 2 ^ 24 * err)
  { c with faulted := true, record := c.record.set 0 w }

/-- Stop a task of a faulted context: its state to a KIND 4 frame where one is free, a CTXSTOP record, and its end (R349, R412). -/
def Mach.stopTask (m : Mach) (tid : Nat) : Mach :=
  match m.task tid with
  | none => m
  | some t => match m.team t.team, m.ctx t.ctx with
    | some g, some c =>
      if t.ending.isSome then m
      else
        let slot := c.pickFrames 1 m.nextId
        let m := m.fresh.2
        let t' := t.suspendMtile
        let (a, m) := match slot with
          | some f =>
            let a := c.frameAddr f
            let side := (resumeEntry a 0 t.core (m.core t.core).xrgen false).side
            (a, (m.saveFrame t' g a 4 (m.onlyMember tid t) false side 0).modCtx t.ctx fun c => { c with framesUsed := insertNat c.framesUsed f })
          | none => (0, m)
        let m := m.errorRecord t.ctx [recordHead 8 0 0 0 (unitOf t.core t.part 0) m.xdev.toNat, m.xclk, t.xtask, 0, 0, 0,
          BitVec.ofNat 64 a, 0]
        m.modTask tid fun t => t.finish .killed
    | _, _ => m

/-- Every resident task of a context is stopped, and the context is faulted. -/
def Mach.faultContext (m : Mach) (ctx err : Nat) : Mach :=
  ((m.tasks.filter fun (_, t) => t.ctx == ctx).foldl (fun (m : Mach) (n, _) => m.stopTask n) m).modCtx ctx fun c => c.setFault err

/-- GRACE_EXPIRY (R349). -/
def Mach.graceOver (m : Mach) (ctx : Nat) : Option Mach :=
  match m.ctx ctx with
  | none => none
  | some c => match c.pending with
    | none => none
    | some k =>
      if m.clk < k + fieldOf (c.word 6) 0 40 || c.faulted || !(m.tasks.any fun (_, t) => t.ctx == ctx && !t.onComplex) then none
      else some (m.faultContext ctx 1)

def graceExpiryDue (ctx : Nat) (s : State) : Option Mach :=
  s.m.graceOver ctx
def execGraceExpiry (ctx : Nat) (s : State) : Host.Outcome State Fault Refusal := event s (graceExpiryDue ctx s)

/-- XEPC of a WDOG record (R416). -/
def Task.stoppedAt (t : Task) : Word :=
  match t.splits.findSome? id with
  | some s => epcOf s.clause s.slot
  | none => match t.stack with
    | s :: _ => epcOf s.clause s.slot
    | [] => match (List.range 8).find? fun j => !(t.join j).arrivals.isEmpty with
      | some j => epcOf (t.join j).target 1
      | none => 0

/-- WATCHDOG_STOP (R415, R416): a discard and the completion of the task's park win over it (R424). -/
def Mach.watchdog (m : Mach) (tid : Nat) : Option Mach :=
  match m.task tid with
  | none => none
  | some t =>
    if t.ending.isSome || !m.timedOut t || (m.discard t.team).isSome || m.parkEnds tid then none
    else
      let future := match m.team t.team with
        | some g => g.future
        | none => 0
      let m := m.errorRecord t.ctx [recordHead 2 0x0D 0 0 (unitOf t.core t.part 0) m.xdev.toNat, m.xclk, t.xtask, 0, t.stoppedAt, 0, future, 0]
      some ((m.modTask tid fun t => t.finish .timeout).errorCount t.ctx 48 1)

def watchdogStopDue (tid : Nat) (s : State) : Option Mach :=
  s.m.watchdog tid
def execWatchdogStop (tid : Nat) (s : State) : Host.Outcome State Fault Refusal := event s (watchdogStopDue tid s)

end Sys2Proof.Machine
end

