-- ==== Sys2Proof/Machine/Packets.lean ====
section
/-! DEFINITION. The command front end: portals (R323, R324), packets and their start and completion (R325 to R332), launches (R333 to R337) and spawn-queue enabling (R331). -/

namespace Sys2Proof.Machine

/-! ### Queues and portals (R322 to R324) -/

/-- A queue whose record has not been written. -/
def HwQueue.blank : HwQueue := ⟨0, 0, 0, 0, 0, false, 0, 0, [], 0, 0⟩

def HwQueue.enabled (h : HwQueue) : Bool := h.w0.getLsbD 63
def HwQueue.world (h : HwQueue) : Bool := h.w0.getLsbD 62
def HwQueue.prio (h : HwQueue) : Nat := fieldOf h.w0 60 2
/-- The time slice in ck. -/
def HwQueue.slice (h : HwQueue) : Nat := (fieldOf h.w0 44 16 + 1) * 4096
def HwQueue.size (h : HwQueue) : Nat := 2 ^ (fieldOf h.w0 40 4 + 4)
def HwQueue.owner (h : HwQueue) : Nat := fieldOf h.w0 0 8
/-- The address of ring position i. -/
def HwQueue.slot (h : HwQueue) (i : Nat) : Nat := h.w1.toNat + 64 * (i % h.size)

def Mach.queue (m : Mach) (q : Nat) : Option HwQueue := tabGet m.queues q
def Mach.modQueue (m : Mach) (q : Nat) (f : HwQueue → HwQueue) : Mach := { m with queues := tabMod m.queues q f }

/-- A DMWr to a portal (R324): the answer, 0 Successful Completion, 1 Unsupported Request, 2 Request Retry Status, leaves the device. -/
def Mach.portal (m : Mach) (q offset : Nat) (words : List Word) (req : HostReq) : Mach :=
  let done := fun (m : Mach) (st : Nat) => { m with out := m.out ++ [.dmwr st] }
  match m.queue q with
  | none => done m 1
  | some h =>
    if offset != 0 || words.length != 8 || !h.enabled || h.faulted || req == .pf1Open || h.world != (req == .pf1) then done m 1
    else if h.size ≤ h.accepted - h.started then done m 2
    else
      let mem := words.zipIdx.foldl (fun (mem : Memory) (w, i) => mem.setWord64 (h.slot h.accepted + 8 * i) w) m.mem
      done ({ m with mem := mem }.modQueue q fun h => { h with accepted := h.accepted + 1 }) 0

/-- PORTAL_DMWR (R324). -/
def execPortalDmwr (q offset : Nat) (words : List Word) (req : HostReq) (s : State) : Host.Outcome State Fault Refusal :=
  answering s (if 4096 ≤ q then none else some (s.m.portal q offset words req))

/-- What a memory read of a listed offset of a portal page gives (R323). -/
def Mach.portalValue (m : Mach) (q offset : Nat) : Word :=
  let h := (m.queue q).getD HwQueue.blank
  match offset with
  | 0x40 => BitVec.ofNat 64 h.accepted
  | 0x48 => BitVec.ofNat 64 h.started
  | 0x50 => BitVec.ofNat 64 h.completed
  | 0x58 => BitVec.ofNat 64 ((if h.enabled then 2 ^ 63 else 0) + (if h.faulted then 2 ^ 62 else 0) + 2 ^ 48 * h.code + h.failedAt)
  | _ => 0

/-- An event recorded in the device log (R421). -/
def Mach.logEvent (m : Mach) (kind : Nat) (addr aux : Nat) : Mach :=
  { m with deviceLog := m.deviceLog ++ [⟨kind, 0, 0, BitVec.ofNat 64 addr, BitVec.ofNat 64 aux, 0⟩] }

/-- PORTAL_POSTED_WRITE (R324): dropped, and recorded. A memory read of the page is answered (R323). -/
def execPortalPostedWrite (access : PortalAccess) (s : State) : Host.Outcome State Fault Refusal :=
  answering s (match access with
    | .read q offset => if 4096 ≤ q then none
      else some { s.m with out := s.m.out ++ [.readAnswer (toBytes 8 (s.m.portalValue q offset).toNat) false] }
    | .write q => if 4096 ≤ q then none else some (s.m.logEvent 1 (4096 * q) q))

/-! ### Accesses of the front end (R329) -/

/-- What a packet's check or start comes to: a failure code, with what is still done (`stop`), a wait, or a start, with what is then in
progress. -/
inductive PkRes where
  | fail (code : Nat)
  | stop (m : Mach) (code : Nat)
  | wait (m : Mach)
  | go (m : Mach) (p : Option Packet)
deriving DecidableEq, Repr

/-- The TLB number of the I/O dies. -/
def feDie : Nat := 8

/-- Find an address of a packet. -/
def feSpot (m : Mach) (ctx va : Nat) (use : Use) (accepts : Accepts) (go : Mach → Elt → Spot → PkRes) : PkRes :=
  match m.engineSpot feDie ctx va use accepts with
  | (.found e s, m) => go m e s
  | (.fault _ _ _, m) => .stop m 4
  | (.waiting, m) => .wait m

/-- Read n bytes of a packet's address. -/
def feRead (m : Mach) (q ctx va n : Nat) (go : Mach → Datum → PkRes) : PkRes :=
  feSpot m ctx va .load (fun _ _ => true) fun m e s => match m.spotRead (queueAgent q) ctx n e s with
    | (.data d, m) => go m d
    | (.fault _ _ _ _, m) => .stop m 4
    | (.waiting, m) => .wait m

/-- The acquire of a line's record by the front end; none where the record's scope excludes the I/O dies. -/
def Mach.feAcquire (m : Mach) (pa : Nat) : Option Mach :=
  match tabGet m.record (lineOf pa) with
  | none => some m
  | some r =>
    if r.foreign then (if r.scope == .fab || r.scope == .sys then some m else none)
    else if r.scope == .dev || r.scope == .fab || r.scope == .sys then some (m.writeback r.who r.gen)
    else none

/-- The release of a line by the front end. -/
def Mach.feRelease (m : Mach) (pa : Nat) : Mach :=
  let m := match tabGet m.record (lineOf pa) with
    | some r => if r.foreign then m else m.writeback r.who r.gen
    | none => m
  { m with record := tabErase m.record (lineOf pa) }

/-- Write a record of eight words into the error area of a context, or count it in LOST (R417, R418); WIDX is written last, as a release. -/
def Mach.writeRecord (m : Mach) (ctx : Nat) (words : List Word) : Mach :=
  match m.ctx ctx with
  | none => m
  | some c =>
    let base := (c.word 15).toNat
    let rd := fun (i : Nat) => (m.mem.word64 (base + 8 * i)).1
    let cap := 2 ^ (fieldOf (rd 0) 0 5)
    let widx := rd 1
    if (widx - rd 2).toNat < cap then
      let slot := base + 64 + 64 * (widx.toNat % cap)
      let m := { m with mem := words.zipIdx.foldl (fun mem (w, i) => mem.setWord64 (slot + 8 * i) w) m.mem }
      let m := (m.touch slot).touch (slot + 32) |>.feRelease (base + 8)
      { m with mem := m.mem.setWord64 (base + 8) (widx + 1) }.touch base
    else { m with mem := m.mem.setWord64 (base + 24) (rd 3 + 1) }.touch base

/-- The error records of the cycle, in the order of R418; they wake a firmware complex (R178). -/
def Mach.writeRecords (m : Mach) : Mach :=
  let m := if m.posted.isEmpty then m else m.wakeComplexes
  (sortBy (fun a b => a.2.1 ≤ b.2.1) m.posted).foldl (fun (m : Mach) (ctx, _, ws) => m.writeRecord ctx ws) { m with posted := [] }

/-- Add to a signal as a release at `.sys` (R330, R331). -/
def Mach.feSignal (m : Mach) (ctx : Nat) (v : Word) (e : Elt) : Spot → Mach
  | .here pa => { m.feRelease pa with mem := addSignal (v.toNat, 0) pa m.mem }.touch pa
  | .away d a => (m.request .free ctx (signalFrame (v.toNat, 0) d a e.secure .sys)).2
  | _ => m

/-- Wait until a signal meets a condition; the satisfying read is an acquire at `.sys` (R328, R329). -/
def feWait (m : Mach) (q ctx va cond : Nat) (v : Word) (go : Mach → PkRes) : PkRes :=
  if va % 8 != 0 then .fail 2
  else feSpot m ctx va .load acceptObject fun m e s => match s with
    | .here pa =>
      let d := m.mem.load pa 8
      if d.2 != 0 then .fail 3
      else if signalHolds cond v d then
        match m.feAcquire pa with
        | some m => go m
        | none => .fail 5
      else .wait m
    | .away dev a => match m.agentAnswer (queueAgent q) va with
      | some (some x) => (match answerRefuses x with
        | some _ => .fail 5
        | none => if (x.datum 0 8).2 != 0 then .fail 3 else go m)
      | some none => .wait m
      | none => .wait (m.request (.kept (queueAgent q) 0 [(0, va)]) ctx (withPayload { blankFrame 0x05 dev a e.secure with
          ord := 1, scope := scopeCode .sys, oparg := BitVec.ofNat 64 (1 + 4 * cond) } (toBytes 8 v.toNat) fun _ => false)).2
    | _ => .fail 4

/-! ### The check of a packet (R325 to R327, R332) -/

/-- Code 0x01: a reserved TYPE, bit or field value. -/
def pkReserved (w : List Word) : Bool :=
  let x := fun i => w.getD i 0
  let z := fun (l : List Nat) => l.any fun i => x i != 0
  let szmem := fieldOf (x 6) 48 1 == 1
  fieldOf (x 0) 12 52 != 0 || (fieldOf (x 0) 9 1 == 0 && x 1 != 0) || (fieldOf (x 0) 10 1 == 0 && x 2 != 0) ||
  (fieldOf (x 0) 11 1 == 0 && x 3 != 0) || match fieldOf (x 0) 0 8 with
    | 1 => z [4, 5, 6, 7]
    | 2 => z [6, 7] || fieldOf (x 5) 3 61 != 0
    | 3 => fieldOf (x 5) 53 11 != 0 || fieldOf (x 6) 49 15 != 0 || (if szmem then fieldOf (x 5) 0 48 != 0 else x 7 != 0)
    | 4 => z [7] || fieldOf (x 6) 40 24 != 0 || fieldOf (x 6) 0 2 != 0
    | 5 => z [6, 7]
    | 6 => z [7] || 2 < (x 6).toNat
    | 7 => false
    | 8 => z [4, 5, 6, 7]
    | 9 => false
    | 0x0A => z [6, 7] || 1 < (x 5).toNat
    | 0x0B => z [5, 6, 7]
    | _ => true

/-- Code 0x02: a misaligned address. -/
def pkMisaligned (w : List Word) : Bool :=
  let bad := fun (i a : Nat) => (w.getD i 0).toNat % a != 0
  bad 1 8 || bad 2 8 || bad 3 8 || match fieldOf (w.getD 0 0) 0 8 with
    | 2 => bad 4 128
    | 3 => bad 4 128 || bad 7 8
    | 4 => bad 4 4 || bad 5 4
    | 5 => bad 4 8
    | 6 => bad 4 8
    | 7 => bad 4 8 || bad 6 8
    | 0x0A => bad 4 64
    | 0x0B => bad 4 8
    | _ => false

/-! ### Starting and completing (R328, R330 to R332) -/

/-- What the start of a packet works on: its queue, the queue's context, its number in the queue and its words; whether every earlier
packet has completed, and how many of its waits have been satisfied. -/
structure Pk where
  q : Nat
  ctx : Nat
  c : Ctx
  index : Nat
  w : List Word
  idle : Bool
  waited : Nat
deriving DecidableEq, Repr

def Pk.word (p : Pk) (i : Nat) : Word := p.w.getD i 0
def Pk.type (p : Pk) : Nat := fieldOf (p.word 0) 0 8
def Pk.inProgress (p : Pk) : Packet := ⟨p.index, p.w, none, none, none⟩

/-- Whether n bytes of a context's world lie outside the secure carve-outs, where the context is not secure (R367, R445). -/
def Mach.structureAt (m : Mach) (world : Bool) (a n : Nat) : Bool :=
  world || n == 0 || !(m.carveOuts.any fun g => a / 2 ^ 29 ≤ g && g ≤ (a + n - 1) / 2 ^ 29)

/-- Whether a queue's ring obeys R445. -/
def Mach.ringGood (m : Mach) (h : HwQueue) : Bool :=
  h.w1 != 0 && h.w1.toNat < 2 ^ 40 && h.w1.toNat % (64 * h.size) == 0 && m.structureAt h.world h.w1.toNat (64 * h.size)

/-- The packet that a queue starts next, in a context that may start packets; a fault of the queue in its place. -/
def Mach.nextPacket (m : Mach) (q : Nat) : Option (Except Nat Pk) :=
  match m.queue q with
  | none => none
  | some h =>
    if !h.enabled || h.faulted || h.accepted ≤ h.started then none
    else match m.ctx h.owner with
      | none => none
      | some c =>
        if c.faulted then some (.error 8)
        else if !c.resident || c.pending.isSome then none
        else if !m.ringGood h then some (.error 4)
        else if m.mem.anyPoison (h.slot h.started) 64 then some (.error 3)
        else some (.ok ⟨q, h.owner, c, h.base + h.started, (List.range 8).map fun i => (m.mem.word64 (h.slot h.started + 8 * i)).1, h.active.isEmpty, h.waited⟩)

/-- A packet fails: its queue stops (R332). -/
def Mach.failPacket (m : Mach) (q code : Nat) : Mach := (m.modQueue q fun h => { h with
  faulted := true, code := code, failedAt := h.started % h.size, waited := 0 }).dropAgent (queueAgent q)

/-- Where the completion signal of a packet stands; a packet without one has no such place. -/
def Mach.csigSpot (m : Mach) (ctx : Nat) (w : List Word) : EngineAt × Mach :=
  if fieldOf (w.getD 0 0) 11 1 == 0 then (.fault 0 0 0, m) else m.engineSpot feDie ctx (w.getD 3 0).toNat .store acceptUpdate

/-- Apply the completion signal of a packet (R330); none while its page is waited for. -/
def Mach.completionSignal (m : Mach) (ctx : Nat) (w : List Word) : Bool × Mach :=
  match m.csigSpot ctx w with
  | (.found e s, m) => (true, m.feSignal ctx (0 - 1) e s)
  | (.fault _ _ _, m) => (true, m)
  | (.waiting, m) => (false, m)

/-- A packet has completed. -/
def Mach.completed (m : Mach) (q index : Nat) : Mach := m.modQueue q fun h =>
  if h.active.any fun p => p.index == index then { h with completed := if h.base ≤ index then h.completed + 1 else h.completed, active := h.active.filter fun p => p.index != index } else h

/-- A packet in progress completes, with its signal. -/
def Mach.complete (m : Mach) (q ctx : Nat) (p : Packet) : Option Mach :=
  match m.completionSignal ctx p.words with
  | (true, m) => some ((m.completed q p.index).dropAgent (queueAgent q))
  | (false, m') => if m' == m then none else some m'

/-- Dependences, each satisfied once and in order, then the check, then the start of a packet (R328). -/
def Pk.run (p : Pk) (m : Mach) (start : Pk → Mach → PkRes) : PkRes :=
  let dep := fun (i : Nat) (m : Mach) (go : Mach → PkRes) =>
    if i ≤ p.waited || fieldOf (p.word 0) (8 + i) 1 == 0 then go m
    else feWait m p.q p.ctx (p.word i).toNat 0 0 fun m => go (m.modQueue p.q fun h => { h with waited := i })
  if fieldOf (p.word 0) 8 1 == 1 && !p.idle then .wait m
  else dep 1 m fun m => dep 2 m fun m =>
    if pkReserved p.w then .fail 1
    else if pkMisaligned p.w then .fail 2
    else if fieldOf (p.word 0) 11 1 == 1 then
      feSpot m p.ctx (p.word 3).toNat .store acceptUpdate fun m _ _ => start p m
    else start p m

/-- The first packet of a queue in progress that satisfies a condition. -/
def Mach.inProgress (m : Mach) (q : Nat) (f : Packet → Bool) : Option (Nat × Packet) :=
  match m.queue q with
  | none => none
  | some h => (h.active.find? f).map fun p => (h.owner, p)

def Packet.type (p : Packet) : Nat := fieldOf (p.words.getD 0 0) 0 8

/-- The event of a packet type: the next packet of the queue, if it is of that type, starts, or one in progress whose signal has waited for a page completes; none starts while a live
update is frozen (R437) or once the device has failed (R433), nor a launch while a step to fewer cores is due (R430). `tell`: what a packet that fails does besides. -/
def startPacket (s : State) (q : Nat) (types : Nat → Bool) (start : Pk → Mach → PkRes) (tell : Pk → Mach → Nat → Mach := fun _ m _ => m) : Option Mach :=
  match s.m.inProgress q fun p => types p.type && [1, 5, 6, 8, 0x0B].contains p.type with
  | some (ctx, p) => s.m.complete q ctx p
  | none =>
    if 2 ≤ s.fw.updating || s.fw.state == .failed then none
    else match s.m.nextPacket q with
      | none => none
      | some (.error c) => some (s.m.failPacket q c)
      | some (.ok p) =>
        if !types p.type || ((p.type == 2 || p.type == 3) && s.stepDue) then none
        else match p.run s.m start with
          | .fail c => some ((tell p s.m c).failPacket q c)
          | .stop m c => some ((tell p m c).failPacket q c)
          | .wait m => if m == s.m then none else some m
          | .go m active =>
            let m := (m.modQueue q fun h => { h with
              started := h.started + 1, waited := 0, active := h.active ++ [active.getD p.inProgress] }).dropAgent (queueAgent q)
            if active.isSome then some m
            else match m.complete q p.ctx p.inProgress with
              | some m => some m
              | none => some m

/-- NOP_PACKET (R331); the event also meets a packet of a reserved TYPE, which fails (R332). -/
def nopPacketDue (q : Nat) (s : State) : Option Mach :=
  startPacket s q (fun t => t == 1 || t == 0 || 0x0C ≤ t) fun _ m => .go m none
def execNopPacket (q : Nat) (s : State) : Host.Outcome State Fault Refusal := event s (nopPacketDue q s)

/-- SIGNAL (R331). -/
def signalDue (q : Nat) (s : State) : Option Mach :=
  startPacket s q (· == 5) fun p m => feSpot m p.ctx (p.word 4).toNat .store acceptUpdate fun m e x =>
    .go (m.feSignal p.ctx (p.word 5) e x) none
def execSignal (q : Nat) (s : State) : Host.Outcome State Fault Refusal := event s (signalDue q s)

/-- WAIT (R331). -/
def waitDue (q : Nat) (s : State) : Option Mach :=
  startPacket s q (· == 6) fun p m => feWait m q p.ctx (p.word 4).toNat (p.word 6).toNat (p.word 5) fun m => .go m none
def execWait (q : Nat) (s : State) : Host.Outcome State Fault Refusal := event s (waitDue q s)

/-- An 8-byte write of the front end. -/
def Mach.feWrite (m : Mach) (ctx : Nat) (v : Word) (e : Elt) : Spot → Mach
  | .here pa => m.sliceWrite pa 8 (v.toNat, 0)
  | .away d a => (m.request .free ctx (writeFrame d a e.secure .rlx .team .b64 (toBytes 8 v.toNat) fun _ => false)).2
  | .host pa => { m with out := m.out ++ [.hostWrite (m.hostAddress pa) (toBytes 8 v.toNat) e.secure false] }
  | .chip pa => { m with out := m.out ++ [.chip pa (toBytes 8 v.toNat)] }
  | _ => m

/-- Whether a place on the host has no translation yet; the request for it goes out (R372). -/
def feHost (m : Mach) (e : Elt) (s : Spot) (go : Mach → PkRes) : PkRes := match s with
  | .host pa =>
    if (m.ats.find? fun a => a.1 == hostPage pa).isSome then go m
    else if m.atsRefused.contains (hostPage pa) then .stop { m with atsRefused := m.atsRefused.filter (· != hostPage pa) } 4
    else .wait (m.askAts (hostPage pa) true e.secure)
  | _ => go m

/-- WRITE_THEN_SIGNAL (R331): the write, then, once it is performed at its home, the signal. -/
def writeThenSignalDue (q : Nat) (s : State) : Option Mach :=
  match s.m.inProgress q fun p => p.type == 7 with
    | some (ctx, p) =>
      let due := match s.m.agentAnswer (queueAgent q + 2 ^ 20 * (p.index + 1)) (p.words.getD 4 0).toNat with
        | some none => false
        | _ => true
      if !due then none
      else match s.m.engineSpot feDie ctx (p.words.getD 6 0).toNat .store acceptUpdate with
        | (.found e x, m) => (match m.csigSpot ctx p.words with
          -- the signal waits until the completion signal can follow it
          | (.waiting, m) => if m == s.m then none else some m
          | (_, m) => (m.feSignal ctx (p.words.getD 7 0) e x).complete q ctx p)
        | (.fault _ _ _, m) => m.complete q ctx p
        | (.waiting, m) => if m == s.m then none else some m
    | none => startPacket s q (· == 7) fun p m =>
      feSpot m p.ctx (p.word 6).toNat .store acceptUpdate fun m e' x' =>
        feSpot m p.ctx (p.word 4).toNat .store (fun _ attr => attr ≤ 1) fun m e x =>
          feHost m e x fun m => match x with
            | .away d a => .go (m.request (.kept (queueAgent q + 2 ^ 20 * (p.index + 1)) 0 [(0, e.va)]) p.ctx
                (writeFrame d a e.secure .rlx .team .b64 (toBytes 8 (p.word 5).toNat) fun _ => false)).2 (some p.inProgress)
            | _ => .go ((m.feWrite p.ctx (p.word 5) e x).feSignal p.ctx (p.word 7) e' x') none
def execWriteThenSignal (q : Nat) (s : State) : Host.Outcome State Fault Refusal := event s (writeThenSignalDue q s)

/-- TIMESTAMP (R331). -/
def timestampDue (q : Nat) (s : State) : Option Mach :=
  startPacket s q (· == 0x0B) fun p m =>
    feSpot m p.ctx (p.word 4).toNat .store (fun _ attr => attr ≤ 1) fun m e x => feHost m e x fun m => .go (m.feWrite p.ctx m.xclk e x) none
def execTimestamp (q : Nat) (s : State) : Host.Outcome State Fault Refusal := event s (timestampDue q s)

/-- The launch write-back (R336): every core of the placement writes back every sector it holds dirty. -/
def Mach.launchWriteback (m : Mach) (c : Ctx) : Mach := (m.placementCores c).foldl (fun (m : Mach) k => m.writebackAll k) m

/-- FENCE (R331). -/
def fencePacketDue (q : Nat) (s : State) : Option Mach :=
  startPacket s q (· == 8) fun p m => if p.idle then .go (m.launchWriteback p.c) none else .wait m
def execFencePacket (q : Nat) (s : State) : Host.Outcome State Fault Refusal := event s (fencePacketDue q s)

/-! ### COPY (R331) -/

/-- The places of the 4 KiB pages that a range touches. -/
def fePlaces (p : Pk) (use : Use) : List (Nat × Nat) → Mach → List (Elt × Spot) → (Mach → List (Elt × Spot) → PkRes) → PkRes
  | [], m, acc, go => go m acc
  | (a, _) :: rest, m, acc, go => feSpot m p.ctx a use acceptCopy fun m e s => feHost m e s fun m => fePlaces p use rest m (acc ++ [(e, s)]) go

/-- The start of a COPY. -/
def startCopyPacket (p : Pk) (m : Mach) : PkRes :=
  let a := (p.word 4).toNat
  let b := (p.word 5).toNat
  let n := (p.word 6).toNat
  fePlaces p .load (pageCuts a n) m [] fun m src => fePlaces p .store (pageCuts b n) m [] fun m dst =>
    let moves := (cuts a b n).map fun (o, k) => (⟨spotAt m src (a + o), [spotAt m dst (b + o)], k, none⟩ : Move)
    let plan : CopyPlan := ⟨moves, .none, false, false⟩
    let sealedDst := plan.targets.any fun (t, k) => match t with
      | .mem x => m.seals.any fun (_, s) => piecesMeet s.pieces [(x, k)]
      | _ => false
    if sealedDst then .fail 4
    else if plan.overlaps then .fail 2
    else if moves.isEmpty then .go m none
    else
      let (id, m) := m.fresh
      let readers := m.seals.filterMap fun (k, s) => if plan.sources.any fun (t, j) => match t with
        | .mem x => piecesMeet s.pieces [(x, j)]
        | _ => false then some k else none
      let moves := moves.map fun v => { v with data := m.readPlace v.src v.len }
      let m := (moves.zipIdx).foldl (fun (m : Mach) (v, i) => match v.src with
        | .away d x sec => (m.request (.copyRead id i) p.ctx (readFrame d x v.len sec .rlx .team)).2
        | .host x sec => (m.hostRequest (.copyRead id i) p.ctx fun tag => .hostRead tag x v.len sec).2
        | _ => m) m
      let m := { m with
        copies := tabSet m.copies id ⟨queueAgent p.q, 0, p.ctx, 0, moves, .none, none, readers, true, true⟩
        seals := m.seals.map fun (k, s) => (k, if readers.contains k then { s with readers := s.readers + 1 } else s) }
      .go m (some { p.inProgress with copy := some id })

/-- COPY (R331): it starts, and it completes when its last byte has been written. -/
def copyDue (q : Nat) (s : State) : Option Mach :=
  match s.m.inProgress q fun p => p.type == 4 && p.copy.any fun n => (s.m.copy n).isNone with
    | some (ctx, p) => s.m.complete q ctx p
    | none => startPacket s q (· == 4) startCopyPacket
def execCopy (q : Nat) (s : State) : Host.Outcome State Fault Refusal := event s (copyDue q s)

/-! ### Launches (R333 to R337) -/

/-- The checks of a closure image that a launch reads (R188, R332). -/
def closureCode (img : Image) : Option Nat :=
  if img.2.extractLsb' 0 4 != 0 || img.2.extractLsb' 4 8 != 0 then some 3
  else if (img.1.getD 0 0).toNat % 64 != 0 || (img.1.getD 1 0).toNat % 32 != 0 then some 6
  else none

/-- A launch's closure as an entry (R248, R249). -/
def launchEntry (img : Image) (clk : Word) (rec' : Nat) (pin : Option Nat) : Entry :=
  ⟨img.1, img.2, clk, true, rec', 0, true, pin.isSome, pin.getD 0, false⟩

/-- The lowest free launch record (R333). -/
def Ctx.freeLaunch (c : Ctx) : Option Nat := (List.range 64).find? fun n => (tabGet c.launches n).isNone

/-- Write a launch record in memory (R333). -/
def Mach.writeLaunch (m : Mach) (ctx n type : Nat) : Mach :=
  match m.ctx ctx with
  | none => m
  | some c => match tabGet c.launches n with
    | none => m
    | some l =>
      let a := c.launchAddr n
      let (sz, aff) := match l.tiles with
        | some t => (t.nx + 2 ^ 16 * t.ny + 2 ^ 32 * t.nz, t.ax + 2 ^ 16 * t.ay + 2 ^ 32 * t.az + 2 ^ 48 * t.sh)
        | none => (0, 0)
      let ws := [type + 2 ^ 16 * c.dies.length + 2 ^ 32 * l.queue + 2 ^ 63, l.closure.toNat, l.csig.toNat, sz, aff, l.teams, 0, 0]
      { m with mem := (placed8 ws).foldl (fun (mem : Memory) (o, v) => mem.setWord64 (a + o) (BitVec.ofNat 64 v)) m.mem }

/-- Add a launch to its context. -/
def Mach.addLaunch (m : Mach) (ctx n type : Nat) (l : Launch) : Mach :=
  (m.modCtx ctx fun c => { c with launches := tabSet c.launches n l }).writeLaunch ctx n type

/-- LAUNCH_ROOT (R334). -/
def startRoot (p : Pk) (m : Mach) : PkRes :=
  feRead m p.q p.ctx (p.word 4).toNat 128 fun m d =>
    let img := imageOf d
    match closureCode img, p.c.dies[(p.word 5).toNat]?, p.c.freeLaunch with
    | some k, _, _ => .fail k
    | none, none, _ => .fail 6
    | none, some _, none => .wait m
    | none, some die, some n =>
      let e := launchEntry img m.xclk n none
      match (if p.c.permits e die then some die else nearestDie die (p.c.dies.filter fun d => p.c.permits e d)) with
      | none => .fail 6
      | some die =>
        if m.inboxFull die p.ctx then .wait m
        else
          let l : Launch := ⟨p.q, p.index, p.word 4, p.word 3, none, 1⟩
          .go ((m.addLaunch p.ctx n 2 l).inboxPush die p.ctx e) (some { p.inProgress with launch := some n })

def launchRootDue (q : Nat) (s : State) : Option Mach :=
  startPacket s q (· == 2) startRoot
def execLaunchRoot (q : Nat) (s : State) : Host.Outcome State Fault Refusal := event s (launchRootDue q s)

/-- The tile sizes of a LAUNCH_TILE: from the packet, or by one read of 8 bytes (R327, R335, R337). -/
def tileSizes (p : Pk) (m : Mach) (go : Mach → Nat × Nat × Nat → PkRes) : PkRes :=
  let f := fun (w : Word) (k : Nat) => (fieldOf w 0 16 + k, fieldOf w 16 16 + k, fieldOf w 32 16 + k)
  if fieldOf (p.word 6) 48 1 == 0 then go m (f (p.word 5) 1)
  else feRead m p.q p.ctx (p.word 7).toNat 8 fun m d => if d.2 != 0 then .fail 3 else go m (f (BitVec.ofNat 64 d.1) 0)

/-- LAUNCH_TILE (R335). -/
def startTiles (p : Pk) (m : Mach) : PkRes :=
  feRead m p.q p.ctx (p.word 4).toNat 128 fun m d =>
    let img := imageOf d
    match closureCode img with
    | some k => .fail k
    | none => tileSizes p m fun m (nx, ny, nz) => match p.c.freeLaunch with
      | none => .wait m
      | some n =>
        let cores := m.placementCores p.c
        let t : Tiles := ⟨nx, ny, nz, fieldOf (p.word 6) 0 16, fieldOf (p.word 6) 16 16, fieldOf (p.word 6) 32 16, fieldOf (p.word 5) 48 5,
          List.range (nx * ny * nz), [], []⟩
        if nx * ny * nz == 0 then .go (m.launchWriteback p.c) none
        else if cores.any fun k => !m.dequeRoom k p.ctx then .wait m
        else
          let l : Launch := ⟨p.q, p.index, p.word 4, p.word 3, some t, cores.length⟩
          let m := m.addLaunch p.ctx n 3 l
          .go (cores.foldl (fun (m : Mach) k => m.pushDeque k p.ctx (launchEntry img m.xclk n (some k))) m)
            (some { p.inProgress with launch := some n })

def launchTileDue (q : Nat) (s : State) : Option Mach :=
  startPacket s q (· == 3) startTiles
def execLaunchTile (q : Nat) (s : State) : Host.Outcome State Fault Refusal := event s (launchTileDue q s)

/-- Whether nothing of a launch is left (R334, R335). -/
def Launch.isOver (l : Launch) : Bool := l.teams == 0 && match l.tiles with
  | some t => t.undrawn.isEmpty && t.reissued.isEmpty && t.inFlight.isEmpty
  | none => true

/-- LAUNCH_COMPLETE (R334 to R336): the launch write-back, the completion signal, and the record is free. -/
def Mach.launchDone (m : Mach) (ctx n : Nat) : Option Mach :=
  match m.ctx ctx with
  | none => none
  | some c => match tabGet c.launches n with
    | none => none
    | some l =>
      if !l.isOver then none
      else
        let m := m.launchWriteback c
        let w0 : Word := if l.csig == 0 then 0 else BitVec.ofNat 64 (2 ^ 11)
        match m.completionSignal ctx [w0, 0, 0, l.csig] with
        | (false, m') => if m' == m then none else some m'
        | (true, m) =>
          -- the record is free, and says DONE (R333; DESIGN CHOICE, log 76)
          let w := (m.mem.word64 (c.launchAddr n)).1
          let m := { m with mem := m.mem.setWord64 (c.launchAddr n) ((w &&& ~~~((1 : Word) <<< 63)) ||| 0x100) }
          some ((m.modCtx ctx fun c => { c with launches := tabErase c.launches n }).completed l.queue l.packet)

def launchCompleteDue (ctx n : Nat) (s : State) : Option Mach :=
  s.m.launchDone ctx n
def execLaunchComplete (ctx n : Nat) (s : State) : Host.Outcome State Fault Refusal := event s (launchCompleteDue ctx n s)

/-! ### QUEUE_INIT (R331) -/

/-- What bytes 0 to 31 of a descriptor must be to be enabled (R201, R331). -/
def descriptorGood (w : Nat → Word) : Bool :=
  let cfg := w 1
  let size := 16 * 2 ^ fieldOf cfg 20 2
  !badCfg cfg && (w 0).toNat % size == 0 && (w 0).toNat < 2 ^ 55 && (w 2).toNat % 128 == 0 && (w 2).toNat < 2 ^ 55 &&
  (w 3).toNat % 64 == 0 && (w 3).toNat < 2 ^ 55 && !(w 7).getLsbD 63

/-- QUEUE_INIT, enable. -/
def startEnable (p : Pk) (m : Mach) : PkRes :=
  feSpot m p.ctx (p.word 4).toNat .store acceptUpdate fun m _ s => match s with
    | .here pa =>
      let die := pa / 2 ^ 37 % 8
      let watched := (m.spawnqs.filter fun (a, x) => x.die == die && x.ctx == p.ctx && (QDesc.of m.mem a).enabled).length
      if m.mem.anyPoison pa 64 then .fail 3
      else if !descriptorGood (fun i => (m.mem.word64 (pa + 8 * i)).1) || p.c.qMax ≤ watched then .fail 7
      else
        let mem := [4, 5, 6].foldl (fun (mem : Memory) i => mem.setWord64 (pa + 8 * i) 0) m.mem
        .go { m with mem := mem.setWord64 (pa + 56) (BitVec.ofNat 64 (2 ^ 63)),
                     spawnqs := tabSet m.spawnqs pa ⟨p.ctx, die, p.word 4, [], none, [], 0, false, none⟩ } none
    | _ => .fail 4

/-- The event of QUEUE_INIT belongs to an operation only once the packet can be read. -/
def Mach.queueInitOp (m : Mach) (q : Nat) : Option Nat := match m.nextPacket q with
  | some (.ok p) => if p.type == 0x0A then some (p.word 5).toNat else none
  | _ => none

def queueInitEnableDue (q : Nat) (s : State) : Option Mach :=
  if s.m.queueInitOp q == some 1 then none else startPacket s q (· == 0x0A) startEnable
def execQueueInitEnable (q : Nat) (s : State) : Host.Outcome State Fault Refusal := event s (queueInitEnableDue q s)

/-- QUEUE_INIT, disable: no further spawn; it completes when no task of the queue is in flight. -/
def startDisable (p : Pk) (m : Mach) : PkRes :=
  feSpot m p.ctx (p.word 4).toNat .store acceptUpdate fun m _ s => match s with
    | .here pa =>
      if m.mem.anyPoison pa 64 then .fail 3
      else
        let st := (m.mem.word64 (pa + 56)).1
        let m := { m with mem := m.mem.setWord64 (pa + 56) (st &&& ~~~(BitVec.ofNat 64 (2 ^ 63))) }
        .go m (if fieldOf st 32 16 == 0 then none else some p.inProgress)
    | _ => .fail 4

def queueInitDisableDue (q : Nat) (s : State) : Option Mach :=
  match s.m.inProgress q fun p => p.type == 0x0A with
    | some (ctx, p) => (match s.m.engineSpot feDie ctx (p.words.getD 4 0).toNat .load acceptUpdate with
      | (.found _ (.here pa), m) => if fieldOf (m.mem.word64 (pa + 56)).1 32 16 == 0 then m.complete q ctx p else none
      | (.waiting, m) => if m == s.m then none else some m
      | (_, m) => m.complete q ctx p)
    | none => if s.m.queueInitOp q == some 1 then startPacket s q (· == 0x0A) startDisable else none
def execQueueInitDisable (q : Nat) (s : State) : Host.Outcome State Fault Refusal := event s (queueInitDisableDue q s)

/-- The context record of a context that does not exist yet, with the reset values of R247 and R339. -/
def blankRecord (ctx : Nat) : List Word :=
  [BitVec.ofNat 64 ctx, 0x40, 0x800, 0x100000, 0x0000_100A_0400_1000, 0x100, 0x100000, 0x4_0000_0000] ++ List.replicate 24 0

def Ctx.blank (ctx : Nat) : Ctx :=
  { record := blankRecord ctx, translation := [], resident := false, dies := [], faulted := false, pending := none, sliceStart := 0,
    listed := none, framesUsed := [], parked := [], launches := [], prqPos := 0, prqPosted := [], engineWaits := [], faultPage := [], carry := [], repair := false, causes := [] }

/-- The record of a queue as firmware writes it: ENABLED = 1 zeroes the portal's counts and ends its failure; packets that have started
go on (R322, R331, R332). -/
def HwQueue.rewrite (h : HwQueue) (w0 w1 : Word) : HwQueue :=
  let h := { h with w0 := w0 &&& ~~~(BitVec.ofNat 64 (2 ^ 40 - 2 ^ 8)), w1 := w1 }
  if w0.getLsbD 63 then
    { h with accepted := 0, started := 0, completed := 0, faulted := false, code := 0, failedAt := 0, waited := 0, base := h.base + h.started }
  else h

/-- QUEUE_RECORD_WRITE (R322); the context that owns the queue need not exist yet (R339, R340). -/
def execQueueRecordWrite (q : Nat) (w0 w1 : Word) (s : State) : Host.Outcome State Fault Refusal :=
  let h := ((s.m.queue q).getD HwQueue.blank).rewrite w0 w1
  let ctxs := if (s.m.ctx h.owner).isNone then tabSet s.m.ctxs h.owner (Ctx.blank h.owner) else s.m.ctxs
  event s (if 4096 ≤ q then none else some { s.m with queues := tabSet s.m.queues q h, ctxs := ctxs })

end Sys2Proof.Machine
end

