-- ==== Sys2Proof/Machine/Contexts.lean ====
section
/-! DEFINITION. Contexts in time: who runs (R341, R342), the carry lists, switch-out (R350, R352) and switch-in (R340, R353, R361, R445). -/

namespace Sys2Proof.Machine

/-! ### Who runs (R341) -/

/-- The queues of a context. -/
def Mach.ctxQueues (m : Mach) (ctx : Nat) : List HwQueue := (m.queues.filter fun (_, h) => h.owner == ctx).map (·.2)

/-- A queue that holds an accepted packet that has not completed. -/
def HwQueue.busy (h : HwQueue) : Bool := h.completed < h.accepted || !h.active.isEmpty

/-- Fields of CTL, IMG and word 25 of a context record (R338, R339). -/
def Ctx.place (c : Ctx) : List Nat := (List.range 8).filter fun d => (c.word 0).getLsbD (48 + d)
def Ctx.carryBlk (c : Ctx) : Nat := fieldOf (c.word 25) 0 32
def Ctx.imgValid (c : Ctx) : Bool := (c.word 24).getLsbD 63
def Ctx.imgBank (c : Ctx) : Nat := fieldOf (c.word 24) 62 1
def Ctx.imgDies (c : Ctx) : Nat := ((List.range 8).filter fun d => (c.word 24).getLsbD (48 + d)).length

/-- The cores of a die that a context may use. -/
def Mach.dieCores (m : Mach) (die : Nat) : List Nat := (List.range m.logCores).map fun l => coreNo die l

/-- Whether a core holds an entry. -/
def Core.holdsEntry (k : Core) : Bool :=
  !k.deque.isEmpty || k.overflow != 0 || k.hand.isSome || !k.pushing.isEmpty || (match k.reply with
    | some (some _) => true
    | _ => false)

/-- Whether the image of a context holds a task, an entry, a frame or a spawn-queue record (R341). -/
def Mach.imageBusy (m : Mach) (ctx : Nat) (c : Ctx) : Bool :=
  (m.tasks.any fun (_, t) => t.ctx == ctx && !t.onComplex) || !c.framesUsed.isEmpty ||
  (m.spawnqs.any fun (_, q) => q.ctx == ctx && !q.present.isEmpty) ||
  (c.carry.any fun (_, l) => !l.isEmpty) ||
  if c.resident then
    c.dies.any fun d => m.inboxCount d ctx != 0 || (m.dieCores d).any fun k => (m.core k).holdsEntry
  else c.imgValid && (List.range c.imgDies).any fun d => fieldOf (c.word (16 + d)) 0 32 != 0

/-- A context is runnable (R341). -/
def Mach.runnable (m : Mach) (ctx : Nat) (c : Ctx) : Bool := (m.ctxQueues ctx).any HwQueue.busy || m.imageBusy ctx c

/-- A context's priority (R341). -/
def Mach.ctxPrio (m : Mach) (ctx : Nat) : Nat := ((m.ctxQueues ctx).filter HwQueue.busy).foldl (fun p h => max p h.prio) 0

/-- A context's slice in ck (R341). -/
def Mach.ctxSlice (m : Mach) (ctx : Nat) : Nat :=
  let busy := (m.ctxQueues ctx).filter HwQueue.busy
  match (busy.find? fun h => h.prio == m.ctxPrio ctx).or (m.ctxQueues ctx).head? with
  | some h => h.slice
  | none => 4096

/-- Whether a context that is not resident competes for dies of another's placement (R342). -/
def Mach.wants (m : Mach) (x : Nat) (cx : Ctx) (dies : List Nat) : Bool :=
  !cx.resident && !cx.faulted && m.runnable x cx && cx.place.any fun d => dies.contains d

/-- The contexts of higher priority that need a die of a resident one (R342). -/
def Mach.outranked (m : Mach) (ctx : Nat) (c : Ctx) : List Nat :=
  (m.ctxs.filter fun (x, cx) => m.wants x cx c.dies && m.ctxPrio ctx < m.ctxPrio x).map (·.1)

/-- The first context of equal priority that needs one, once the slice has expired (R342). -/
def Mach.outlived (m : Mach) (ctx : Nat) (c : Ctx) : List Nat :=
  let same := m.ctxs.filter fun (x, cx) => m.wants x cx c.dies && m.ctxPrio ctx == m.ctxPrio x
  if m.clk < c.sliceStart + m.ctxSlice ctx then []
  else ((sortBy (fun a b => a.2.listed.getD 0 ≤ b.2.listed.getD 0) same).map (·.1)).take 1

/-- A resident context becomes pending pre-emption for some others. -/
def Mach.setPending (m : Mach) (ctx : Nat) (causes : Ctx → List Nat) : Option Mach :=
  match m.ctx ctx with
  | none => none
  | some c =>
    if !c.resident || c.pending.isSome || !m.runnable ctx c || (causes c).isEmpty then none
    else some (m.modCtx ctx fun c => { c with pending := some m.clk, causes := causes c })

/-- SLICE_EXPIRY (R342). -/
def sliceExpiryDue (ctx : Nat) (s : State) : Option Mach :=
  s.m.setPending ctx fun c => s.m.outlived ctx c
def execSliceExpiry (ctx : Nat) (s : State) : Host.Outcome State Fault Refusal := event s (sliceExpiryDue ctx s)

/-- PREEMPT_PENDING (R342). -/
def preemptPendingDue (ctx : Nat) (s : State) : Option Mach :=
  s.m.setPending ctx fun c => s.m.outranked ctx c
def execPreemptPending (ctx : Nat) (s : State) : Host.Outcome State Fault Refusal := event s (preemptPendingDue ctx s)

/-- PREEMPT_WITHDRAW (R342): every context that caused it has ceased to be runnable. -/
def preemptWithdrawDue (ctx : Nat) (s : State) : Option Mach :=
  match s.m.ctx ctx with
    | none => none
    | some c =>
      if c.pending.isNone || c.repair || c.faulted || c.causes.any fun x => (s.m.ctx x).any (s.m.runnable x) then none
      else some (s.m.modCtx ctx fun c => { c with pending := none, causes := [] })
def execPreemptWithdraw (ctx : Nat) (s : State) : Host.Outcome State Fault Refusal := event s (preemptWithdrawDue ctx s)

/-- The run lists (R341): a context that becomes runnable takes the next place, one that is not runnable has none. -/
def Mach.listRunnable (m : Mach) : Mach :=
  m.ctxs.foldl (fun (m : Mach) (ctx, c) =>
    if !m.runnable ctx c then m.modCtx ctx fun c => { c with listed := none }
    else match c.listed with
      | some _ => m
      | none => let (n, m) := m.fresh; m.modCtx ctx fun c => { c with listed := some (n + 1) }) m

/-! ### Carry lists (R352) -/

/-- The addresses of entry i of a carry list that starts at a block of a bank. -/
def Ctx.carrySlot (c : Ctx) (bank block i : Nat) : Nat × Nat :=
  let a := (c.word 13).toNat + (bank * c.carryBlk + block + i / 256) * 36864
  (a + 128 * (i % 256), a + 0x8000 + 16 * (i % 256))

/-- Every entry that a die carries at a switch-out, in the order of R350. -/
def Mach.carried (m : Mach) (c : Ctx) (ctx die : Nat) : List Entry :=
  ((m.dieCores die).flatMap fun k => m.overflowEntries c k ++ (m.core k).deque ++ (m.core k).pushing.map (·.2)) ++
  ((tabGetD c.carry die []).map fun (img, side, e) => e.getD (m.readEntry img side)) ++
  ((List.range (m.inboxCount die ctx)).filterMap fun i => m.inboxAt die ctx i)

/-- Write the carry lists of the dies from a block on: the memory, CARRYN of each die, and how many entries did not fit. -/
def Mach.writeCarry (m : Mach) (c : Ctx) (bank : Nat) : Nat → List (List Entry) → Mach × List Word × Nat
  | _, [] => (m, [], 0)
  | block, l :: rest =>
    let room := (c.carryBlk - block) * 256
    let m := (l.take room).zipIdx.foldl (fun (m : Mach) (e, i) =>
      let (img, side) := c.carrySlot bank block i
      m.writeEntry img side { e with pin := false }) m
    let n := min room l.length
    let (m, ws, lost) := m.writeCarry c bank (block + (n + 255) / 256) rest
    (m, BitVec.ofNat 64 (2 ^ 32 * block + n) :: ws, lost + (l.length - n))

/-- The first, second of a dispenser's state for a die and a slice (R333): LO and HI, with LO above HI when it is empty. -/
def Tiles.bounds (t : Tiles) (d die slice : Nat) : Nat × Nat :=
  match t.undrawn.filter fun i => t.dieOf d i == die && t.sliceOf i == slice with
  | [] => (1, 0)
  | i :: rest => (rest.foldl min i, rest.foldl max i)

/-- Write the dispenser state and re-issue list of a launch into its record (R333, R350). -/
def Mach.saveLaunch (m : Mach) (ctx n : Nat) : Mach :=
  match m.ctx ctx with
  | none => m
  | some c => match tabGet c.launches n with
    | none => m
    | some l =>
      let m := m.writeLaunch ctx n (if l.tiles.isSome then 3 else 2)
      match l.tiles with
      | none => m
      | some t =>
        let a := c.launchAddr n
        let d := c.dies.length
        let mem := (t.reissued.zipIdx).foldl (fun (mem : Memory) (i, k) => mem.setWord64 (a + 128 + 8 * k) (t.word i)) m.mem
        let mem := (List.range d).foldl (fun mem die => (List.range 32).foldl (fun (mem : Memory) s =>
          let (lo, hi) := t.bounds d die s
          let o := a + 8320 + 16 * (32 * die + s)
          (mem.setWord64 o (BitVec.ofNat 64 lo)).setWord64 (o + 8) (BitVec.ofNat 64 hi)) mem) mem
        { m with mem := mem }.noteLaunch ctx n

/-- Reload a launch from its record (R353): the dispenser as R333 holds it, and the rest as the device keeps it; a tile that LO and HI
span and that the device knows to be drawn is not drawn again (DESIGN CHOICE, log 76). -/
def Mach.loadLaunch (m : Mach) (c : Ctx) (n : Nat) : Option Launch :=
  let a := c.launchAddr n
  let w := fun (i : Nat) => (m.mem.word64 (a + 8 * i)).1
  if !(w 0).getLsbD 63 then none
  else
    let kept := tabGetD c.launches n ⟨fieldOf (w 0) 32 12, 0, w 1, w 2, none, (w 5).toNat⟩
    if fieldOf (w 0) 0 8 != 3 then some { kept with tiles := none }
    else
      let t : Tiles := ⟨fieldOf (w 3) 0 16, fieldOf (w 3) 16 16, fieldOf (w 3) 32 16, fieldOf (w 4) 0 16, fieldOf (w 4) 16 16,
        fieldOf (w 4) 32 16, fieldOf (w 4) 48 5, [], [], (kept.tiles.map (·.inFlight)).getD []⟩
      let d := fieldOf (w 0) 16 4
      let undrawn := (List.range (t.nx * t.ny * t.nz)).filter fun i =>
        let o := a + 8320 + 16 * (32 * t.dieOf d i + t.sliceOf i)
        (m.mem.word64 o).1.toNat ≤ i && i ≤ (m.mem.word64 (o + 8)).1.toNat && kept.tiles.all fun k => k.undrawn.contains i
      let reissued := (List.range (w 7).toNat).map fun k => t.index (m.mem.word64 (a + 128 + 8 * k)).1
      some { kept with tiles := some { t with undrawn := undrawn, reissued := reissued } }

/-! ### The seal table (R303, R338) -/

/-- The regions that a context has sealed. -/
def Mach.sealsOf (m : Mach) (ctx : Nat) : List Seal := (m.seals.filter fun (_, s) => s.ctx == ctx).map (·.2)

/-- Write a context's seal table to its memory. -/
def Mach.saveSeals (m : Mach) (ctx : Nat) (c : Ctx) : Mach :=
  let a := (c.word 12).toNat
  { m with mem := (m.sealsOf ctx).zipIdx.foldl (fun (mem : Memory) (s, i) =>
      (mem.setWord64 (a + 16 * i) s.va).setWord64 (a + 16 * i + 8) (BitVec.ofNat 64 s.len)) (m.mem.clear a 4096) }

/-- The physical pieces of a virtual range as its pages are mapped now. -/
def Mach.mappedPieces (m : Mach) (ctx a n : Nat) : List (Nat × Nat) :=
  piecesOf a n ((pageStarts a n).filterMap fun va => match m.walkTable ctx va with
    | .leaf e => some (va, m.normal (e.out + va % 2 ^ blockBits e.level))
    | _ => none)

/-- Restore a context's seal table from its memory (R353): an entry that the device still knows keeps its lines, another takes those that
it maps (DESIGN CHOICE, log 76). -/
def Mach.loadSeals (m : Mach) (ctx : Nat) (c : Ctx) : Mach :=
  let a := (c.word 12).toNat
  let known := m.sealsOf ctx
  (List.range 256).foldl (fun (m : Mach) i =>
    let va := (m.mem.word64 (a + 16 * i)).1
    let n := (m.mem.word64 (a + 16 * i + 8)).1.toNat
    if n == 0 then m
    else
      let (id, m) := m.fresh
      let s := (known.find? fun s => s.va == va && s.len == n).getD ⟨ctx, va, n, m.mappedPieces ctx va.toNat n, 0⟩
      { m with seals := tabSet m.seals id s }) { m with seals := m.seals.filter fun (_, s) => s.ctx != ctx }

/-! ### Switch-out (R350) -/

/-- Whether a resident context can leave its dies: no task, copy or started packet but launches, and nothing on its way to a core. -/
def Mach.vacant (m : Mach) (ctx : Nat) (c : Ctx) : Bool :=
  !(m.tasks.any fun (_, t) => t.ctx == ctx && !t.onComplex) && !(m.copies.any fun (_, k) => k.ctx == ctx) &&
  !(m.queues.any fun (_, h) => h.owner == ctx && h.active.any fun p => p.launch.isNone) &&
  !(c.dies.any fun d => (m.dieCores d).any fun k => (m.core k).hand.isSome || (m.core k).request.isSome || (m.core k).reply.isSome)

/-- Whether a resident context is to leave: pending, faulted, or not runnable while another needs a die of it (R342, R349, R355). -/
def Mach.leaving (m : Mach) (ctx : Nat) (c : Ctx) : Bool :=
  c.pending.isSome || c.faulted || (!m.runnable ctx c && m.ctxs.any fun (x, cx) => m.wants x cx c.dies)

/-- A die and its cores hold nothing of a context any more. -/
def Mach.clearDie (m : Mach) (ctx die : Nat) : Mach :=
  let m := (m.dieCores die).foldl (fun (m : Mach) k => m.modCore k fun x =>
    { x with deque := [], overflow := 0, refilling := false, pushing := [] }) m
  m.modDie die fun d => { d with
    starve := tabErase d.starve ctx, took := [], depth := tabErase d.depth ctx, aged := d.aged.filter (· != ctx), crossRequest := none,
    tiles := d.tiles.filter fun (k, _) => !((List.range 64).any fun n => tilesKey ctx n == k),
    inboxHead := tabErase d.inboxHead ctx, inboxCount := tabErase d.inboxCount ctx }

/-- The record of a context as a switch-out leaves it. -/
def Ctx.writtenBack (c : Ctx) (bank : Nat) (carryn : List Word) (good : Bool) : Ctx :=
  let placement := c.dies.foldl (fun acc d => acc + 2 ^ d) 0
  let img : Word := BitVec.ofNat 64 ((if good then 2 ^ 63 else 0) + 2 ^ 62 * bank + 2 ^ 48 * placement + c.launches.length)
  let rec' := (List.range 8).foldl (fun (r : List Word) d => r.set (16 + d) (carryn.getD d 0)) c.record
  let rec' := (rec'.set 24 img).set 0 (c.word 0 &&& ~~~((1 : Word) <<< 60))
  { c with record := rec', resident := false, dies := [], pending := none, causes := [], repair := false, carry := [] }

/-- SWITCH_OUT (R350, R352). -/
def Mach.switchedOut (m : Mach) (ctx : Nat) : Option Mach :=
  match m.ctx ctx with
  | none => none
  | some c =>
    if !c.resident || !m.leaving ctx c || !m.vacant ctx c then none
    else
      let m := (m.launchWriteback c).saveSeals ctx c
      let bank := 1 - c.imgBank
      let (m, carryn, lost) := m.writeCarry c bank 0 (c.dies.map fun d => m.carried c ctx d)
      let m := c.launches.foldl (fun (m : Mach) (n, _) => m.saveLaunch ctx n) m
      let m := { m with spawnqs := m.spawnqs.map fun (x : Nat × SpawnQ) =>
        (x.1, if x.2.ctx == ctx then { x.2 with timer := x.2.timer.map fun t => m.clk - t } else x.2) }
      let m := c.dies.foldl (fun (m : Mach) d => m.clearDie ctx d) m
      let m := m.modCtx ctx fun c => c.writtenBack bank carryn (!c.faulted && lost == 0)
      let (n, m) := m.fresh
      let m := m.modCtx ctx fun x => { x with listed := some (if c.repair then 0 else n + 1) }
      some (if lost == 0 then m
      else (m.errorRecord ctx [recordHead 8 0 0 0 0 m.xdev.toNat, m.xclk, 0, 0, 0, 0, BitVec.ofNat 64 lost, 0] true).modCtx ctx fun c => c.setFault 6)

def switchOutDue (ctx : Nat) (s : State) : Option Mach :=
  s.m.switchedOut ctx
def execSwitchOut (ctx : Nat) (s : State) : Host.Outcome State Fault Refusal := event s (switchOutDue ctx s)

/-! ### Switch-in (R340, R353) -/

/-- Whether an address that a record holds obeys R445 and its alignment. -/
def recordAddress (w : Word) (align : Nat) : Bool := w != 0 && w.toNat < 2 ^ 40 && w.toNat % align == 0

/-- The reserved fields and ranges of R247, R339 and R352. -/
def Ctx.inRange (c : Ctx) : Bool :=
  let z := fun (i low width : Nat) => fieldOf (c.word i) low width == 0
  z 0 56 2 && z 0 32 16 && z 0 8 16 && fieldOf (c.word 0) 58 2 != 3 && z 1 20 44 && z 2 24 40 && z 3 40 24 && z 4 48 16 && z 4 37 3 && z 4 16 8 &&
  z 4 0 8 && z 5 32 32 && z 5 9 7 && z 6 40 24 && z 7 48 16 && z 25 32 32 &&
  6 ≤ c.inboxLg && c.inboxLg ≤ 16 && 1 ≤ fieldOf (c.word 4) 24 8 && fieldOf (c.word 4) 24 8 ≤ 32 && c.spadUnits ≤ 160 &&
  1 ≤ c.qMax && c.qMax ≤ 256 && 2 ^ 20 ≤ (c.word 7).toNat &&
  8 * (72 * (2 + c.ovfBlk) + max 1 (2 ^ c.inboxLg / 256)) ≤ c.carryBlk

/-- The translation record of a context in memory (R361). -/
def Mach.translationRecord (m : Mach) (ctx : Nat) : List Word := (List.range 8).map fun i => (m.mem.word64 (m.trbase.toNat + 64 * ctx + 8 * i)).1

/-- Whether a translation record obeys R361 and R445. -/
def translationGood (ctx : Nat) (world : Bool) (w : Nat → Word) : Bool :=
  (w 0).getLsbD 63 && (w 0).getLsbD 62 == world && fieldOf (w 0) 0 62 == ctx && recordAddress (w 1) 65536 && recordAddress (w 2) 32 &&
  fieldOf (w 3) 12 52 == 0 && ((w 4) == 0 || recordAddress (w 4) 65536) && fieldOf (w 5) 20 44 == 0 && (w 6) == 0 && (w 7) == 0

/-- The structures that a context's records name, with their lengths. -/
def Mach.structures (m : Mach) (c : Ctx) (w : Nat → Word) : List (Nat × Nat) :=
  let d := c.place.length
  let a := fun (i : Nat) => (c.word i).toNat
  [(a 8, d * 144 * 2 ^ c.inboxLg), (a 9, 72 * d * c.ovfBlk * 36864), (a 10, fieldOf (c.word 11) 0 32 * c.frameSize), (a 12, 4096),
   (a 13, 2 * c.carryBlk * 36864), (a 14, 64 * 65536), (a 15, 64 + 64 * 2 ^ fieldOf (m.mem.word64 (a 15)).1 0 5),
   ((w 1).toNat, 65536), ((w 2).toNat, 32 * (fieldOf (w 3) 0 12 + 1)), ((w 4).toNat, if (w 4) == 0 then 0 else 65536 * fieldOf (w 5) 0 20)]

/-- The checks of a switch-in (R340). -/
def Mach.recordGood (m : Mach) (ctx : Nat) (c : Ctx) : Bool :=
  let w := fun (i : Nat) => (m.translationRecord ctx).getD i 0
  let cap := (m.mem.word64 (c.word 15).toNat).1
  (c.word 0).getLsbD 63 && !c.place.isEmpty && c.inRange &&
  (m.ctxQueues ctx).all (fun h => h.world == c.world && (!h.enabled || m.structureAt c.world h.w1.toNat (64 * h.size))) &&
  recordAddress (c.word 8) 1 && recordAddress (c.word 9) 1 && recordAddress (c.word 10) 65536 && recordAddress (c.word 12) 1 &&
  recordAddress (c.word 13) 65536 && recordAddress (c.word 14) 1 && recordAddress (c.word 15) 1 &&
  translationGood ctx c.world w && 4 ≤ fieldOf cap 0 5 && fieldOf cap 0 5 ≤ 16 &&
  (m.structures c w).all fun (a, n) => m.structureAt c.world a n

/-- The carry lists of the image, attached to the new dies (R353): old logical die d goes to new die d mod D′. -/
def Ctx.attached (c : Ctx) (dies : List Nat) : Tab (List (Nat × Nat × Option Entry)) :=
  if !c.imgValid then []
  else (List.range c.imgDies).foldl (fun acc d => match dies[d % dies.length]? with
    | none => acc
    | some die =>
      let w := c.word (16 + d)
      let l := (List.range (fieldOf w 0 32)).map fun i => let (img, side) := c.carrySlot c.imgBank (fieldOf w 32 32) i; (img, side, none)
      tabSet acc die (tabGetD acc die [] ++ l)) []

/-- The die of the new placement to which the die of a RELEASE word was mapped (R353). -/
def Ctx.mappedDie (c : Ctx) (dies : List Nat) (old : Nat) : Option Nat :=
  let oldDies := (List.range 8).filter fun d => (c.word 24).getLsbD (48 + d)
  if oldDies.contains old then dies[oldDies.idxOf old % dies.length]? else nearestDie old dies

/-- The first members of the parks that resume at a switch-in (R353), in ascending frame address: KIND 3 by team, and any whose condition
has been met. -/
def Mach.resumesAt (m : Mach) (ctx : Nat) (c : Ctx) : List Parked :=
  let firstOf := fun (p : Parked) => c.parked.all fun q => q.kind != 3 || q.team != p.team || p.frame ≤ q.frame
  sortBy (fun a b => a.frame ≤ b.frame) (c.parked.filter fun p => !p.entered && if p.kind == 3 then firstOf p else m.parkOver ctx p)

/-- Append the resume entries to the attached lists. -/
def Mach.withResumes (m : Mach) (ctx : Nat) (old : Ctx) (dies : List Nat) : Mach :=
  (m.resumesAt ctx old).foldl (fun (m : Mach) p =>
    let e := { m.entryOf old p with pin := false }
    match old.mappedDie dies (dieOf e.who) with
    | none => m
    | some die => m.modCtx ctx fun c => { c with
        carry := tabSet c.carry die (tabGetD c.carry die [] ++ [(0, 0, some e)])
        parked := c.parked.map fun q => if q.tid == p.tid || (p.kind == 3 && q.kind == 3 && q.team == p.team) then { q with entered := true } else q }) m

/-- Whether a context comes before another for the same dies (R341, R342). -/
def Mach.comesBefore (m : Mach) (x ctx : Nat) (cx c : Ctx) : Bool :=
  m.ctxPrio ctx < m.ctxPrio x || (m.ctxPrio ctx == m.ctxPrio x && cx.listed.getD 0 < c.listed.getD 0)

/-- Whether a context is to be switched in now (R342). -/
def Mach.entering (m : Mach) (ctx : Nat) (c : Ctx) (dies : List Nat) : Bool :=
  let free := fun (cx : Ctx) => cx.place.all fun d => (m.ctxOn d).isNone
  !c.resident && !c.faulted && m.runnable ctx c && dies == c.place && free c &&
  !(m.ctxs.any fun (x, cx) => x != ctx && m.wants x cx c.place && free cx && m.comesBefore x ctx cx c)

/-- A die that changes worlds (R368): its L1s are written back and emptied, and TLB entries of the other world are dropped. -/
def Mach.changeWorld (m : Mach) (world : Bool) (die : Nat) : Mach :=
  let m := if (m.die die).last == some (!world) then
      (m.dieCores die).foldl (fun (m : Mach) k => (m.core k).l1.foldl (fun (m : Mach) (n, _) => m.evict k (32 * n)) m) m
    else m
  let drop := fun (l : List TlbEntry) => if (m.die die).last == some (!world) then l.filter fun e => e.world == world else l
  let m := (m.dieCores die).foldl (fun (m : Mach) k => m.modCore k fun x => { x with tlb := drop x.tlb }) m
  m.modDie die fun d => { d with tlb := drop d.tlb, last := some world }

/-- SWITCH_IN (R353): while STATE allows it (R426) and no repair of its dies is due (R429, R430). -/
def Mach.switchedIn (m : Mach) (ctx : Nat) (dies : List Nat) : Option Mach :=
  match m.ctx ctx with
  | none => none
  | some c =>
    if !m.entering ctx c dies then none
    else if !m.recordGood ctx c then some (m.modCtx ctx fun c => c.setFault 3)
    else
      let launches := (List.range 64).filterMap fun n => (m.loadLaunch c n).map fun l => (n, l)
      let m := m.modCtx ctx fun c => { c with
        translation := m.translationRecord ctx, launches := launches, carry := c.attached dies, resident := true, dies := dies,
        pending := none, sliceStart := m.clk + 1, record := c.record.set 0 (c.word 0 ||| (1 : Word) <<< 60) }
      let m := dies.foldl (fun (m : Mach) d => (m.changeWorld c.world d).clearDie ctx d) m
      let m := { m with spawnqs := m.spawnqs.map fun (x : Nat × SpawnQ) =>
        (x.1, if x.2.ctx == ctx then { x.2 with timer := x.2.timer.map fun t => m.clk - t } else x.2) }
      some ((m.loadSeals ctx c).withResumes ctx c dies)

def switchInDue (ctx : Nat) (dies : List Nat) (s : State) : Option Mach :=
  if !s.serving || s.stepDue || dies.any s.dieUnfit then none else s.m.switchedIn ctx dies
def execSwitchIn (ctx : Nat) (dies : List Nat) (s : State) : Host.Outcome State Fault Refusal := event s (switchInDue ctx dies s)

end Sys2Proof.Machine
end

