-- ==== Sys2Proof/Machine/Watch.lean ====
section
/-! DEFINITION. The queue engine of a die: spawns from the queues that it watches and the end of their tiles (R203, R273 to R275, R354). -/

namespace Sys2Proof.Machine

/-- The task number under which the engine of a queue keeps what it has asked another device. -/
def watchAgent (q : Nat) : Nat := 2 ^ 42 + q

/-- A word of a descriptor that the engine reads and finds poisoned: its offset (R408). -/
def Mach.badDescriptor (m : Mach) (q : Nat) : Option Nat := [0, 8, 16, 48, 56].find? fun o => m.mem.anyPoison (q + o) 8

/-- Stop spawning from a queue, with a QSTOP record (R203, R408, R419): CAUSE and REASON are those of a failed check, and 0 for a faulty word. -/
def Mach.stopQueue (m : Mach) (q : Nat) (x : SpawnQ) (cause reason detail aux : Nat) : Mach :=
  let m := { m with spawnqs := tabSet m.spawnqs q { x with stopped := true } }.dropAgent (watchAgent q)
  m.errorRecord x.ctx [recordHead 0x0A cause reason detail (unitOf (coreNo x.die 0) 0 6) m.xdev.toNat, m.xclk, 0, x.va, 0, 0, BitVec.ofNat 64 aux, 0]

/-- T, the timer's limit, and the first number of ISSUED up to which a flush reaches, against |P| (R203): whether a spawn is due by count or
flush, and whether by the timer, as the cycle k ends (R275). -/
def Mach.spawnDue (m : Mach) (q : Nat) (x : SpawnQ) (k : Nat) : Bool × Bool :=
  let cfg := (QDesc.of m.mem q).cfg
  let n := m.readyCount q
  let issued := (m.mem.word64 (q + 48)).1.toNat
  (fieldOf cfg 22 6 + 1 ≤ n || (1 ≤ n && issued < x.flushTo),
   1 ≤ n && (match x.timer with
     | some t => decide (t + fieldOf cfg 28 20 + 1 ≤ k)
     | none => false))

/-- Add 1 to COUNT of a template's future (R188, R203): done, a fault, or a wait. -/
def Mach.countTile (m : Mach) (q : Nat) (x : SpawnQ) (f : Nat) : EngineData × Mach :=
  if f == 0 then (.data (0, 0), m)
  else match m.engineSpot x.die x.ctx f .store acceptUpdate with
    | (.fault c r d, m) => (.fault c r d 0, m)
    | (.waiting, m) => (.waiting, m)
    | (.found _ (.here pa), m) => (.data (0, 0), { m with mem := m.mem.updateFuture pa .count }.touch pa)
    | (.found e (.away d a), m) => (match m.agentAnswer (watchAgent q) f with
      | some (some _) => (.data (0, 0), m)
      | some none => (.waiting, m)
      | none => (.waiting, (m.request (.kept (watchAgent q) 0 [(0, f)]) x.ctx (futureFrame d a e.secure .dev .count)).2))
    | (_, m) => (.waiting, m)

/-- The tile is queued (R203, R274, R354): the acquire of its records' releases, the entry at the tail of the inbox, and the descriptor. -/
def Mach.queueTileOn (m : Mach) (q : Nat) (x : SpawnQ) (k die n : Nat) (img : Image) : Mach :=
  let d := QDesc.of m.mem q
  let issued := (m.mem.word64 (q + 48)).1
  let m := (List.range n).foldl (fun (m : Mach) i => match tabGet x.present (issued.toNat + i) with
    | some r => if r.foreign then m else m.writeback r.who r.gen
    | none => m) m
  let args : List Word := [issued, BitVec.ofNat 64 n, BitVec.ofNat 64 d.base, BitVec.ofNat 64 d.cap]
  let e : Entry := ⟨img.1.take 6 ++ args ++ img.1.drop 10, img.2 &&& ~~~(0xFF000 : BitVec 32), m.xclk, false, 0, 0, true, false, 0, false⟩
  let m := (m.inboxPush die x.ctx e).dropAgent (watchAgent q)
  let present := (List.range n).foldl (fun (p : Tab Record) i => tabErase p (issued.toNat + i)) x.present
  let mem := (m.mem.keepPoison64 (q + 48) (issued + BitVec.ofNat 64 n)).keepPoison64 (q + 56) (d.state + BitVec.ofNat 64 (2 ^ 32))
  { m with mem := mem,
           spawnqs := tabSet m.spawnqs q { x with
             present := present, timer := none, tiles := x.tiles ++ [(issued.toNat, n, false)], spawnedAt := some k } }.startTimerAt q k

/-- One spawn of a queue whose conditions hold as the cycle k ends (R203, R275). -/
def Mach.spawnFrom (m : Mach) (q : Nat) (x : SpawnQ) (c : Ctx) (k : Nat) : Option Mach :=
  let d := QDesc.of m.mem q
  match (if c.dies.contains x.die then some x.die else nearestDie x.die c.dies) with
  | none => none
  | some die =>
    if !d.enabled || c.pending.isSome || m.inboxFull die x.ctx || (c.inflMax != 0 && c.inflMax ≤ fieldOf d.state 32 16) then none
    else
      let (r, m') := m.engineRead (watchAgent q) x.die x.ctx none (m.mem.word64 (q + 16)).1.toNat 128
      match r with
      | .waiting => if m' == m then none else some m'
      | .fault c r k _ => some (m'.stopQueue q x c r k 64)
      | .data raw =>
        let img := imageOf raw
        let f := (img.1.getD 1 0).toNat
        if img.2.extractLsb' 0 2 != 0 then some (m'.stopQueue q x 0 0 0 64)
        else if img.2.extractLsb' 2 2 != 0 then some (m'.stopQueue q x 0 0 0 72)
        else if (img.1.getD 0 0).toNat % 64 != 0 then some (m'.stopQueue q x 0 0 0 64)
        else if f % 32 != 0 then some (m'.stopQueue q x 0 0 0 72)
        else match m'.countTile q x f with
          | (.waiting, m') => if m' == m then none else some m'
          | (.fault c r k _, m') => some (m'.stopQueue q x c r k 72)
          | (.data _, m') => some (m'.queueTileOn q x k die (min (m.readyCount q) (fieldOf d.cfg 22 6 + 1)) img)

/-- A spawn where a condition of R203 holds as the cycle k ends, at most one per queue and cycle (R275). A poisoned word of the
descriptor stops a queue that has a record present, whatever its other words say (R408). -/
def Mach.spawnIf (m : Mach) (q k : Nat) (due : Bool × Bool → Bool) : Option Mach :=
  match tabGet m.spawnqs q with
  | none => none
  | some x => match m.ctx x.ctx with
    | none => none
    | some c =>
      if x.stopped || !c.resident || x.spawnedAt == some k then none
      else match (if x.present.isEmpty then none else m.badDescriptor q) with
        | some o => some (m.stopQueue q x 0 0 0 o)
        | none => if due (m.spawnDue q x k) then m.spawnFrom q x c k else none

/-- The cycle at whose end the conditions of R203 are evaluated (R275): the one before, while the grants of a cycle have not been made. -/
def State.cycleEnded (s : State) : Nat := if s.granted then s.m.clk else s.m.clk - 1

/-- QUEUE_SPAWN (R203): |P| has reached T, or a flush asks. -/
def queueSpawnDue (q : Nat) (s : State) : Option Mach :=
  s.m.spawnIf q s.cycleEnded fun d => d.1
def execQueueSpawn (q : Nat) (s : State) : Host.Outcome State Fault Refusal := event s (queueSpawnDue q s)

/-- FLUSH_TIMER_EXPIRY (R203): the timer has reached its limit, and no other condition holds in the cycle. -/
def flushTimerExpiryDue (q : Nat) (s : State) : Option Mach :=
  s.m.spawnIf q s.cycleEnded fun d => d.2 && !d.1
def execFlushTimerExpiry (q : Nat) (s : State) : Host.Outcome State Fault Refusal := event s (flushTimerExpiryDue q s)

/-- QUEUE_TILE_END (R203): INFL falls by 1, and DONE advances to the earliest tile that has not ended. -/
def Mach.endQueueTile (m : Mach) (q start : Nat) : Option Mach :=
  match tabGet m.spawnqs q with
  | none => none
  | some x =>
    if !(x.tiles.any fun (a, _, ended) => a == start && ended) then none
    else
      let tiles := x.tiles.filter fun (a, _, _) => a != start
      let done := match tiles with
        | (a, _, _) :: _ => BitVec.ofNat 64 a
        | [] => (m.mem.word64 (q + 48)).1
      let st := (m.mem.word64 (q + 56)).1
      some { m with mem := (m.mem.keepPoison64 (q + 40) done).keepPoison64 (q + 56) (st - BitVec.ofNat 64 (2 ^ 32)),
                    spawnqs := tabSet m.spawnqs q { x with tiles := tiles } }

def queueTileEndDue (q start : Nat) (s : State) : Option Mach :=
  s.m.endQueueTile q start
def execQueueTileEnd (q start : Nat) (s : State) : Host.Outcome State Fault Refusal := event s (queueTileEndDue q start s)

end Sys2Proof.Machine
end

