-- ==== Sys2Proof/Machine/Paging.lean ====
section
/-! DEFINITION. Walks and page requests as steps: the start, bound and end of a walk (R363, R364) and the response to a request (R365, R366). -/

namespace Sys2Proof.Machine

/-- TLB_MISS_WALK (R364): the miss that has queued longest starts on a free walker of the die. -/
def Mach.startWalk (m : Mach) (die : Nat) : Option Mach :=
  let ws := (m.die die).walks
  match ws.find? fun (_, w) => !w.started with
  | none => none
  | some (n, w) =>
    if 64 ≤ (ws.filter fun (_, w) => w.started).length then none
    else some (m.modDie die fun d => { d with walks := tabSet d.walks n { w with started := true } })

def tlbMissWalkDue (die : Nat) (s : State) : Option Mach :=
  s.m.startWalk die
def execTlbMissWalk (die : Nat) (s : State) : Host.Outcome State Fault Refusal := event s (tlbMissWalkDue die s)

/-- The waits of resident and parked tasks for a walk: the kind of access and xtask. -/
def Mach.walkWaits (m : Mach) (die walk : Nat) : List (Nat × Word) :=
  let kind := fun (w : Wait) => match w.hold with
    | .page d n a _ => if d == die && n == walk then some a else none
    | _ => none
  (m.tasks.flatMap fun (_, t) => t.waits.filterMap fun (_, w) => (kind w).map fun a => (a, t.xtask)) ++
  (m.ctxs.flatMap fun (_, c) => c.parked.flatMap fun p => p.waits.filterMap fun (_, w) => (kind w).map fun a => (a, m.frameWord p.frame 4))

/-- A walk has found V = 0 (R365): a request for each kind of access that waits; the walk goes on for those for which no slot is free. -/
def Mach.walkAbsent (m : Mach) (die walk : Nat) (w : Walk) (level : Nat) : Mach :=
  let m := [0, 1, 2, 3].foldl (fun (m : Mach) a => match (m.walkWaits die walk).find? fun x => x.1 == a with
    | none => m
    | some (_, xtask) => match m.postRequest w.ctx (w.va / 2 ^ 16) a level (if a == 3 then 0 else xtask) with
      | some (slot, m) => m.walkToRequest die walk a w.ctx slot
      | none => m) m
  if (m.walkWaits die walk).isEmpty then m.modDie die fun d => { d with walks := tabErase d.walks walk } else m

/-- WALK_COMPLETE (R360, R364): the leaf is installed, and every queued miss that its block satisfies ends with it; a fault ends the walk;
an entry with V = 0 makes a page request. -/
def Mach.walkDone (m : Mach) (die walk : Nat) : Option Mach :=
  match tabGet (m.die die).walks walk with
  | none => none
  | some w =>
    if !w.started then none
    else match m.walkTable w.ctx w.va with
      | .leaf e =>
        let m := (m.installDie die e).endWalk die walk []
        some ((m.die die).walks.foldl (fun (m : Mach) (n, o) =>
          if !o.started && e.covers o.ctx o.world o.va then m.endWalk die n [] else m) m)
      | .fault c r d => some (m.endWalk die walk [(w.va / 2 ^ 16, c, r, d)])
      | .absent level => let m' := m.walkAbsent die walk w level; if m' == m then none else some m'

def walkCompleteDue (die walk : Nat) (s : State) : Option Mach :=
  s.m.walkDone die walk
def execWalkComplete (die walk : Nat) (s : State) : Host.Outcome State Fault Refusal := event s (walkCompleteDue die walk s)

/-- WALK_BOUND_EXCEEDED (R364): 4,096 ck after the miss of the walk, or of an instruction that has joined it. -/
def Mach.walkOverdue (m : Mach) (die walk : Nat) : Option Mach :=
  let late := fun (w : Wait) => w.onWalk die walk && !w.overdue && decide (w.since + 4096 ≤ m.clk)
  match tabGet (m.die die).walks walk with
  | none => none
  | some w =>
    let first := !w.overdue && decide (w.since + 4096 ≤ m.clk)
    if first || m.tasks.any fun (_, t) => t.waits.any fun x => late x.2 then
      some ((m.modWaits (fun _ w => late w) fun w => { w with overdue := true }).modDie die fun d =>
        { d with walks := tabSet d.walks walk { w with overdue := w.overdue || first } })
    else none

def walkBoundExceededDue (die walk : Nat) (s : State) : Option Mach :=
  s.m.walkOverdue die walk
def execWalkBoundExceeded (die walk : Nat) (s : State) : Host.Outcome State Fault Refusal := event s (walkBoundExceededDue die walk s)

/-- PAGE_REQUEST_RESPONSE (R365, R366): every instruction that waits on the page, for whichever kind of access, checks again, with the fault that a declined request gives them.
The firmware serves it after the takeover of a live update (R437). -/
def Mach.pageResponse (m : Mach) (ctx slot : Nat) : Option Mach :=
  match m.ctx ctx with
  | none => none
  | some c => match c.prqPosted.find? fun r => r.2.2 == slot with
    | none => none
    | some (page, _, _) =>
      let a := (c.translation.getD 2 0).toNat + 32 * slot
      let resp := (m.mem.word64 (a + 24)).1
      if resp != 1 && resp != 2 then none
      else
        let level := fieldOf (m.mem.word64 (a + 16)).1 9 2
        let found := if resp == 2 then [(page, 4, 2, level)] else []
        let go := fun (w : Wait) => { w with hold := .cond, found := w.found ++ found }
        let m := (m.modWaits (fun _ w => w.onPage ctx page) go).modParked (·.onPage ctx page) go
        let m := m.modCtx ctx fun c => { c with
          prqPosted := c.prqPosted.filter fun r => r.2.2 != slot
          engineWaits := c.engineWaits.filter (· != page)
          faultPage := if resp == 2 && c.engineWaits.contains page then c.faultPage ++ [(page, level)] else c.faultPage }
        some { m with mem := m.mem.setWord64 (a + 24) 3 }

def pageRequestResponseDue (ctx slot : Nat) (s : State) : Option Mach :=
  if 2 ≤ s.fw.updating || s.fw.state == .failed then none else s.m.pageResponse ctx slot
def execPageRequestResponse (ctx slot : Nat) (s : State) : Host.Outcome State Fault Refusal := event s (pageRequestResponseDue ctx slot s)

end Sys2Proof.Machine
end

