-- ==== Sys2Proof/Machine/Arrive.lean ====
section
/-! DEFINITION. What arrives from outside as an answer: frames in the order of their streams (R377), RESP, ACK and NACK (R379 to R382, R388, R390), retransmission, priority flow control (R373), unknown frames (R376), and the host link's completions and translations (R372). -/

namespace Sys2Proof.Machine

/-! ### The order of a stream (R377) -/

/-- The frame's sequence number is one that the receiver has passed. -/
def isPassed (received seq : BitVec 32) : Bool := seq != received && (received - seq).toNat < 2 ^ 31

/-- The frame has been applied. -/
def Mach.noteFrame (m : Mach) (f : Frame) : Mach :=
  let s := m.stream f.world (0x80 ≤ f.opc) f.src.toNat
  m.setStream { s with received := s.received + 1 }

/-- Answer a duplicate again, as it was answered; nothing where it has not been answered yet. -/
def Mach.answerAgain (m : Mach) (f : Frame) : Mach :=
  match m.out.findSome? fun o => match o with
    | .frame _ g => if 0x80 ≤ g.opc && g.rseq == f.seq && g.dst == f.src && g.world == f.world then some g else none
    | _ => none with
  | some g => m.emit g
  | none => m

/-- A frame of a type for this device: a duplicate is answered again, the next of its stream is applied, a later one is not due yet. -/
def Mach.onFrame (m : Mach) (code : BitVec 8) (f : Frame) (apply : Mach → Option Mach) : Option Mach :=
  let s := m.stream f.world (0x80 ≤ f.opc) f.src.toNat
  if f.opc != code || f.dst != m.xdev then none
  else if isPassed s.received f.seq then some (if 0x80 ≤ f.opc then m else m.answerAgain f)
  else if f.seq == s.received then apply m
  else none

/-! ### What an answer does -/

def destSize : Dest → Nat
  | .vec _ ty => accessSize ty
  | .uni _ ty => accessSize ty
  | .shape _ => 32
  | .tile _ => 32

/-- The elements of an answer reach the operation that waits for them. -/
def Mach.landParts (m : Mach) (task op n : Nat) (parts : List (Dest × Nat × Nat)) (a : Answer) : Mach := m.modTask task fun t =>
  { t with pend := t.pend.map fun o => if o.id != op then o else
      let o := parts.foldl (fun (o : PendOp) (d, el, off) => o.land d el (a.datum off (destSize d))) o
      { o with answers := o.answers.filter (· != n) } }

/-- The accept mask of a QPUSH reaches its predicate; a NACK makes it false and poisoned (R379, R381). -/
def Mach.landAccept (m : Mach) (task op n reg : Nat) (lanes : List Mask) (a : Answer) : Mach :=
  let set := fun (acc : Mask) (x : Mask × Nat) => if a.nack.isNone && a.arg.getLsbD x.2 then acc ||| x.1 else acc
  let taken := lanes.zipIdx.foldl set 0
  let all := lanes.foldl (· ||| ·) (0 : Mask)
  m.modTask task fun t => { t with pend := t.pend.map fun o => if o.id != op then o else
    { o with answers := o.answers.filter (· != n), writes := o.writes.map fun w => match w with
      | .p r known new again => if r == reg then .p r (known ||| all) ⟨new.v ||| taken, if a.nack.isSome then new.poi ||| all else new.poi⟩ again else w
      | w => w } }

/-- The bytes of a copy's piece have arrived; after a NACK its destination is not written (R379). -/
def Mach.landCopy (m : Mach) (copy piece : Nat) (a : Answer) : Mach := m.modCopy copy fun c => { c with
  moves := c.moves.zipIdx.map fun (v, i) =>
    if i != piece then v
    else if a.nack.isSome then { v with data := some [], dsts := [] }
    else { v with data := some ((List.range v.len).map fun k => (a.data.getD k 0, chunkPoisoned a.poi k)) } }

/-- The home has answered a page request: the load is made at the owner's frame (R387), or, after a NACK, at the home as it would be
without a page cache. -/
def Mach.pageReplied (m : Mach) (home addr : Nat) (world : Bool) (a : Answer) : Mach :=
  let p := m.page home addr world
  let away := fun (d x : Nat) => m.setPage { p with asked := none, away := some (d, x), frame := if p.valid then p.frame else none }
  if a.nack.isSome then away home addr
  else if a.arg.getLsbD 63 then away (fieldOf a.arg 40 12) (fieldOf a.arg 0 40)
  else m

/-- A relaxed load has seen the record of a line of another device (R160, R385). -/
def Request.seenRecord (r : Request) (a : Answer) : Option Record := match r.frame with
  | some f => if f.ord == 0 && a.nack.isNone then (recordInAnswer a.arg).1.map fun s => ⟨true, f.dst.toNat, 0, s⟩ else none
  | none => none

/-- An answer reaches what its request was for. -/
def Mach.deliver (m : Mach) (n : Nat) (r : Request) (a : Answer) : Mach :=
  let gone := { m with requests := tabErase m.requests n }
  let dev := match r.frame with
    | some f => f.dst.toNat
    | none => 0
  match r.kind with
  | .load task op parts => (gone.landParts task op n parts a).modTask task fun t => t.see (r.seenRecord a)
  | .store task op => gone.opAnswered task op n
  | .accept task op reg lanes => gone.landAccept task op n reg lanes a
  | .kept _ _ _ => { m with requests := tabSet m.requests n { r with answer := some a } }
  | .copyRead copy piece => gone.landCopy copy piece a
  | .copyWrite _ => gone
  | .page home addr => gone.pageReplied home addr (match r.frame with
      | some f => f.world
      | none => false) a
  | .hand addr => gone.pageAnswered addr dev
  | .update addr num => gone.updateAnswered addr num dev
  -- the record of a push is present when its write is performed (R202)
  | .record task op queue pos rec =>
    let m := gone.opAnswered task op n
    if a.nack.isSome then m else m.recordPresent queue pos rec
  | .coll _ _ => gone
  | .free => gone

/-- An answer frame (R377). -/
def Mach.onAnswer (m : Mach) (code : BitVec 8) (f : Frame) (answer : Answer) : Option Mach := m.onFrame code f fun m =>
  let m := m.noteFrame f
  match m.requestOf f with
  | none => some m
  | some n => match tabGet m.requests n with
    | none => some m
    | some r =>
      let m := match answer.nack, r.frame with
        | some k, some g => m.nackRecord r.ctx (m.requestUnit r.kind) g k
        | _, _ => m
      some (m.deliver n r answer)

/-- RESP (R377). -/
def execResp (f : Frame) (s : State) : Host.Outcome State Fault Refusal := event s (s.m.onAnswer 0x80 f ⟨none, f.payload, f.pmask, f.oparg⟩)

/-- ACK (R377). -/
def execAck (f : Frame) (s : State) : Host.Outcome State Fault Refusal := event s (s.m.onAnswer 0x81 f ⟨none, [], 0, 0⟩)

/-- NACK (R379). -/
def execNack (f : Frame) (s : State) : Host.Outcome State Fault Refusal := event s (s.m.onAnswer 0x82 f ⟨some (fieldOf f.oparg 0 8), [], 0, 0⟩)

/-- FRAME_RETRANSMIT (R377): after 2^20 ck without an answer the frame is sent again; after eight times it counts as NACK 0x03. -/
def Mach.resend (m : Mach) (n : Nat) : Option Mach :=
  match tabGet m.requests n with
  | none => none
  | some r => match r.frame, r.answer with
    | some f, none =>
      if m.clk < r.since + 2 ^ 20 then none
      else if r.resends < 8 then
        some ({ m with requests := tabSet m.requests n { r with resends := r.resends + 1, since := m.clk } }.emit f)
      else some ((m.nackRecord r.ctx (m.requestUnit r.kind) f 3).deliver n r ⟨some 3, [], 0, 0⟩)
    | _, _ => none

def frameRetransmitDue (n : Nat) (s : State) : Option Mach :=
  s.m.resend n
def execFrameRetransmit (n : Nat) (s : State) : Host.Outcome State Fault Refusal := event s (frameRetransmitDue n s)

/-- The frame types of R376. -/
def knownFrame (opc : BitVec 8) : Bool :=
  [0x01, 0x02, 0x03, 0x04, 0x05, 0x06, 0x10, 0x11, 0x12, 0x13, 0x14, 0x15, 0x18, 0x19, 0x1A, 0x20, 0x21, 0x80, 0x81, 0x82].contains opc.toNat

/-- FRAME_DISCARD (R376, R421). -/
def execFrameDiscard (f : Frame) (s : State) : Host.Outcome State Fault Refusal :=
  event s (if knownFrame f.opc then none
    else s.m.onFrame f.opc f fun m => some ((m.noteFrame f).logEvent 2 f.addr.toNat f.opc.toNat))

/-- PRIORITY_FLOW_CONTROL (R373): a port stops or resumes sending at a priority; what it held leaves in order. -/
def Mach.flowControl (m : Mach) (port priority : Nat) (pause : Bool) : Option Mach :=
  if 16 ≤ port || 2 ≤ priority then none
  else if pause then some { m with paused := if m.paused.contains (port, priority) then m.paused else m.paused ++ [(port, priority)] }
  else
    let m := { m with paused := m.paused.filter (· != (port, priority)) }
    some (m.held.foldl (fun (m : Mach) f => m.emit f) { m with held := [] })

def execPriorityFlowControl (port priority : Nat) (pause : Bool) (s : State) : Host.Outcome State Fault Refusal :=
  event s (s.m.flowControl port priority pause)

/-! ### The host link (R372) -/

/-- HOST_COMPLETION (R372): a completion for a read or an AtomicOp; a poisoned one poisons every word. -/
def Mach.hostCompleted (m : Mach) (tag : Nat) (bytes : List Byte) (poisoned : Bool) : Option Mach :=
  match tabGet m.requests tag with
  | none => none
  | some r => if r.host == some tag && r.answer.isNone then some (m.deliver tag r ⟨none, bytes, if poisoned then BitVec.allOnes 128 else 0, 0⟩) else none

def execHostCompletion (tag : Nat) (bytes : List Byte) (poisoned : Bool) (s : State) : Host.Outcome State Fault Refusal :=
  event s (s.m.hostCompleted tag bytes poisoned)

/-- The splits that wait for a host page go on, with what is found for it. -/
def Mach.endAts (m : Mach) (page : Nat) (found : List (Nat × Nat × Nat × Nat)) : Mach :=
  let on := fun (w : Wait) => match w.hold with
    | .ats p _ => p == page
    | _ => false
  let go := fun (w : Wait) => { w with hold := .cond, found := w.found ++ found }
  (m.modWaits (fun _ w => on w) go).modParked on go

/-- ATS_TRANSLATION_COMPLETION (R372): the cache of 512 is filled, or a PRI Page Request is sent. -/
def Mach.atsAnswered (m : Mach) (page : Nat) (output : Option Nat) : Option Mach :=
  match m.atsAsked.find? fun a => a.1 == page with
  | none => none
  | some (_, _, secure) => match output with
    | none => some { m with out := m.out ++ [.priRequest page secure] }
    | some o =>
      let l := m.ats.filter fun a => a.1 != page
      some ({ m with atsAsked := m.atsAsked.filter fun a => a.1 != page,
                     ats := (if 512 ≤ l.length then l.drop 1 else l) ++ [(page, o)] }.endAts page [])

def execAtsTranslationCompletion (page : Nat) (output : Option Nat) (s : State) : Host.Outcome State Fault Refusal :=
  event s (s.m.atsAnswered page output)

/-- PRI_RESPONSE (R372): code 0 is Success, and any other makes every waiting access trap XLATE. -/
def Mach.priAnswered (m : Mach) (page code : Nat) : Option Mach :=
  match m.atsAsked.find? fun a => a.1 == page with
  | none => none
  | some (_, engine, secure) =>
    if code == 0 then some { m with out := m.out ++ [.atsRequest page secure] }
    else some ({ m with atsAsked := m.atsAsked.filter fun a => a.1 != page,
                        atsRefused := if engine then insertNat m.atsRefused page else m.atsRefused }.endAts page [(refusedKey page, 4, 4, 0)])

def execPriResponse (page : Nat) (code : Nat) (s : State) : Host.Outcome State Fault Refusal := event s (s.m.priAnswered page code)

/-- ATS_INVALIDATION (R372). -/
def execAtsInvalidation (page pages : Nat) (s : State) : Host.Outcome State Fault Refusal :=
  event s (some { s.m with ats := s.m.ats.filter fun a => !(page ≤ a.1 && a.1 < page + pages), out := s.m.out ++ [.invalidationDone] })

/-- Whether a host request may reach n bytes of BAR 4 (R370, R371). -/
def Mach.barOpen (m : Mach) (req : HostReq) (offset n : Nat) : Bool := match req with
  | .pf0 => m.structureAt false offset n
  | .pf1 => true
  | .pf1Open => false

/-- HOST_BAR4_WRITE (R371). -/
def Mach.barWrite (m : Mach) (offset : Nat) (bytes : List Byte) (req : HostReq) (poisoned : Bool) : Option Mach :=
  if bytes.isEmpty || 512 < bytes.length || 2 ^ 40 < offset + bytes.length then none
  else if !m.barOpen req offset bytes.length then some { m with out := m.out ++ [.unsupported] }
  else
    let m := { m with mem := m.mem.store offset bytes fun _ => poisoned }
    some ((sectorsAt (.mem offset) bytes.length).foldl (fun (m : Mach) a => m.touch a) m)

def execHostBar4Write (offset : Nat) (bytes : List Byte) (req : HostReq) (poisoned : Bool) (s : State) : Host.Outcome State Fault Refusal :=
  answering s (s.m.barWrite offset bytes req poisoned)

/-- HOST_BAR4_READ (R371). -/
def Mach.barRead (m : Mach) (offset size : Nat) (req : HostReq) : Option Mach :=
  if size == 0 || 4096 < size || 2 ^ 40 < offset + size then none
  else if !m.barOpen req offset size then some { m with out := m.out ++ [.unsupported] }
  else
    let m := (sectorsAt (.mem offset) size).foldl (fun (m : Mach) a => m.touch a) m
    some { m with out := m.out ++ [.readAnswer (m.mem.bytes offset size) (m.mem.anyPoison offset size)] }

def execHostBar4Read (offset size : Nat) (req : HostReq) (s : State) : Host.Outcome State Fault Refusal :=
  answering s (s.m.barRead offset size req)

end Sys2Proof.Machine
end

