-- ==== Sys2Proof/Machine/Serve.lean ====
section
/-! DEFINITION. Requests of other devices: plain accesses (R379, R380, R384, R385), waits (R382), spawn queues (R381), pages (R386 to R389) and ordered and loose updates (R390, R391). -/

namespace Sys2Proof.Machine

/-! ### Checks, records and answers (R379, R384, R385) -/

/-- How many bytes from its address a frame for an address of this device names (R376). -/
def frameSpan (f : Frame) : Nat := match f.opc.toNat with
  | 1 | 0x18 | 0x1A => fieldOf f.oparg 16 13
  | 2 => fieldOf f.oparg 0 13
  | 3 => 128 - f.addr.toNat % 128
  | 5 => if fieldOf f.oparg 0 2 == 0 then 32 else 8
  | 0x14 => 4096
  | _ => 64

/-- The reason for which a request is refused before anything of it is applied: memory that is not exported, or a secure carve-out, in any
granule that it names. -/
def Mach.refuseFrame (m : Mach) (f : Frame) : Option Nat :=
  let first := f.addr.toNat / 2 ^ 29
  let gs := [first, (f.addr.toNat + (frameSpan f - 1)) / 2 ^ 29]
  if gs.any fun g => !m.exports.contains (f.world, g) then some 1 else if !f.world && gs.any fun g => m.carveOuts.contains g then some 2 else none

/-- Answer NACK, and record it: with the queue's context for QPUSH and QCTL, else in the device log (R379). -/
def Mach.nackFrame (m : Mach) (f : Frame) (reason : Nat) : Mach :=
  let m := m.answer f 0x82 (BitVec.ofNat 64 reason) [] fun _ => false
  match (if f.opc == 4 || f.opc == 6 then tabGet m.spawnqs f.addr.toNat else none) with
  | some q => m.nackRecord q.ctx (some (unitOf (coreNo q.die 0) 0 6)) f reason
  | none => m.logEvent 7 f.addr.toNat (2 ^ 32 * f.seq.toNat + f.opc.toNat)

/-- A request frame for an address of this device: it takes its turn and its checks. `go` starts from the machine that has noted it. -/
def Mach.serve (m : Mach) (code : BitVec 8) (f : Frame) (go : Mach → Option Mach) : Option Mach := m.onFrame code f fun m =>
  match m.refuseFrame f with
  | some k => some ((m.noteFrame f).nackFrame f k)
  | none => go (m.noteFrame f)

/-- A frame that names an address of its home: it is checked there, and at a holder goes on (R379). -/
def Mach.serveAt (m : Mach) (home : Nat) (f : Frame) (go : Mach → Option Mach) : Option Mach :=
  match (if home == m.xdev.toNat then m.refuseFrame f else none) with
  | some k => some ((m.noteFrame f).nackFrame f k)
  | none => go m

/-- The record of the line that a frame addresses. -/
def Mach.frameRecord (m : Mach) (f : Frame) : Option Record := tabGet m.record (lineOf f.addr.toNat)

/-- Whether a request that acquires is refused by the record of its line (R385). -/
def Mach.frameRefused (m : Mach) (f : Frame) : Bool := acquires (ordOf f.ord) (scopeOf f.scope) && match m.frameRecord f with
  | some r => scopeNat r.scope < 4
  | none => false

/-- A release that arrives in a frame writes a FOREIGN record (R384). -/
def Mach.frameRelease' (m : Mach) (f : Frame) : Mach :=
  if releases (ordOf f.ord) (scopeOf f.scope) then m.setRecord f.addr.toNat ⟨true, f.src.toNat, 0, scopeOf f.scope⟩ else m

/-- The answer to a request without data: ACK, or RESP with the line's record where the request acquires. -/
def Mach.acknowledge (m : Mach) (f : Frame) (r : Option Record) : Mach :=
  if acquires (ordOf f.ord) (scopeOf f.scope) then m.answer f 0x80 (answerRecord r false) [] fun _ => false
  else m.answer f 0x81 0 [] fun _ => false

/-- Refuse an acquiring request with the record (R385). -/
def Mach.refuseAcquire (m : Mach) (f : Frame) : Mach := m.answer f 0x80 (answerRecord (m.frameRecord f) true) [] fun _ => false

/-! ### WRITE, READ and ATOMIC (R376, R380) -/

/-- The bytes that a WRITE frame writes, by runs (R376; DESIGN CHOICE, log 18). -/
def frameRuns (f : Frame) (n : Nat) : List (Nat × List (Byte × Bool)) :=
  let mask := ofBytes ((f.payload.drop (roundUpTo n 32)).take 16)
  runsOf (((List.range n).filter fun i => f.oparg.getLsbD 5 == false || mask.testBit i).map fun i =>
    (f.addr.toNat + i, f.payload.getD i 0, chunkPoisoned f.pmask i))

/-- WRITE. -/
def Mach.serveWrite (m : Mach) (f : Frame) : Option Mach := m.serve 1 f fun m =>
  let a := f.addr.toNat
  let n := fieldOf f.oparg 16 13
  let sectors := sectorsAt (.mem a) n
  let r := m.frameRecord f
  if sectors.any fun x => m.sealed x then some (m.nackFrame f 4)
  else if m.frameRefused f then some (m.refuseAcquire f)
  else
    let m := m.frameRelease' f
    let m := { m with mem := (frameRuns f n).foldl (fun mem (b, bs) => mem.storeBytes b bs) m.mem }
    some ((sectors.foldl (fun (m : Mach) x => m.touch x) m).acknowledge f r)

def execWrite (f : Frame) (s : State) : Host.Outcome State Fault Refusal := answering s (s.m.serveWrite f)

/-- READ. -/
def Mach.serveRead (m : Mach) (f : Frame) : Option Mach := m.serve 2 f fun m =>
  let a := f.addr.toNat
  let n := fieldOf f.oparg 0 13
  if m.frameRefused f then some (m.refuseAcquire f)
  else
    let r := m.frameRecord f
    let m := (sectorsAt (.mem a) n).foldl (fun (m : Mach) x => m.touch x) m
    some (m.answer f 0x80 (answerRecord r false) (m.mem.bytes a n) fun w => m.mem.poi.contains (a / 4 + w))

def execRead (f : Frame) (s : State) : Host.Outcome State Fault Refusal := answering s (s.m.serveRead f)

/-- One lane of an ATOMIC payload at a byte of it: the line offset, the operand and the compare value (R376). -/
def frameLane (f : Frame) (size at' : Nat) (cas : Bool) : Nat × Datum × Datum :=
  let datum := fun (o : Nat) => ((ofBytes ((f.payload.drop o).take size), if chunkPoisoned f.pmask o then 2 ^ (size / 4) - 1 else 0) : Datum)
  (ofBytes ((f.payload.drop at').take 8), datum (at' + 8), if cas then datum (at' + 8 + size) else (0, 0))

/-- ATOMIC: one line group in ascending lanes, or an update of a future (R157, R382). -/
def Mach.serveAtomic (m : Mach) (f : Frame) : Option Mach := m.serve 3 f fun m =>
  let a := f.addr.toNat
  let r := m.frameRecord f
  if m.sealed a then some (m.nackFrame f 4)
  else if m.frameRefused f then some (m.refuseAcquire f)
  else
    let m := m.frameRelease' f
    match futureOfFrame f with
    | some u => some (({ m with mem := m.mem.updateFuture a u }.touch a).acknowledge f r)
    | none =>
      let sub := fieldOf f.oparg 0 3
      let ty := tyOf (f.oparg.extractLsb' 8 5)
      let size := accessSize ty
      let sat := fieldOf f.oparg 13 1 == 1
      let cas := sub == 7
      let len := 8 + size * if cas then 2 else 1
      let (olds, m) := (List.range (fieldOf f.oparg 24 6)).foldl (fun (acc : List Datum × Mach) i =>
        let (off, d, b) := frameLane f size (len * i) cas
        let pa := a + off % 128
        let old := acc.2.mem.load pa size
        let new : Datum := (atomValue sub ty sat old.1 d.1 b.1, if old.2 != 0 || d.2 != 0 || (cas && b.2 != 0) then 2 ^ (size / 4) - 1 else 0)
        (acc.1 ++ [old], { acc.2 with mem := acc.2.mem.put pa size new }.touch pa)) ([], m)
      if fieldOf f.oparg 4 1 == 1 then some (m.acknowledge f r)
      else some (m.answer f 0x80 (answerRecord r false) (olds.flatMap fun d => toBytes size d.1)
        fun w => ((olds.getD (4 * w / size) (0, 0)).2).testBit (w % (size / 4)))

def execAtomic (f : Frame) (s : State) : Host.Outcome State Fault Refusal := answering s (s.m.serveAtomic f)

/-! ### WAITREG (R382) -/

/-- Whether the wait of a WAITREG frame is satisfied, and the bytes of its object. -/
def Mach.remoteHolds (m : Mach) (f : Frame) : Bool × Nat :=
  let a := f.addr.toNat
  let want := BitVec.ofNat 64 (ofBytes (f.payload.take 8))
  let cond := fieldOf f.oparg 2 2
  match fieldOf f.oparg 0 2 with
  | 0 => (futureReady (m.mem.load a 32), 32)
  | 1 => (signalHolds cond want (m.mem.load a 8), 8)
  | _ => (stampHolds cond want (m.mem.load a 8), 8)

/-- A wait keeps the object as the first update that satisfies it leaves it. -/
def Mach.seeRemote (m : Mach) (x : RemoteWait) : RemoteWait :=
  if x.got.isSome then x else match m.remoteHolds x.frame with
    | (true, n) => { x with got := some (m.mem.load x.frame.addr.toNat n) }
    | (false, _) => x

/-- Answer a satisfied wait with the object and the line's record. -/
def Mach.answerWait (m : Mach) (f : Frame) (n : Nat) (d : Datum) : Mach :=
  m.answer f 0x80 (answerRecord (m.frameRecord f) (m.frameRefused f)) (toBytes n d.1) fun w => d.2.testBit w

/-- WAITREG: the wait is kept until an update of the object satisfies it. -/
def Mach.serveWait (m : Mach) (f : Frame) : Option Mach :=
  match m.remoteWaits.find? fun x => x.frame == f with
  | some x => (m.seeRemote x).got.map fun d => { m with remoteWaits := m.remoteWaits.erase x }.answerWait f (m.remoteHolds f).2 d
  | none => m.serve 5 f fun m => match m.remoteHolds f with
    | (true, n) => some (m.answerWait f n (m.mem.load f.addr.toNat n))
    | (false, _) => some { m with remoteWaits := m.remoteWaits ++ [⟨f, none⟩] }

def waitregDue (f : Frame) (s : State) : Option Mach :=
  s.m.serveWait f
def execWaitreg (f : Frame) (s : State) : Host.Outcome State Fault Refusal := answering s (waitregDue f s)

/-! ### QPUSH and QCTL (R204, R381) -/

/-- Record i of a QPUSH frame with its poison. -/
def frameRecordAt (f : Frame) (size i : Nat) : List (Byte × Bool) :=
  (List.range size).map fun k => (f.payload.getD (size * i + k) 0, chunkPoisoned f.pmask (size * i + k))

/-- Where the pages of a ring lie: all of them, a failure, or a wait. -/
def Mach.ringPages (m : Mach) (die ctx : Nat) : List Nat → Option Bool × Mach
  | [] => (some true, m)
  | a :: rest => match m.engineSpot die ctx a .store acceptUpdate with
    | (.found _ _, m) => m.ringPages die ctx rest
    | (.fault _ _ _, m) => (some false, m)
    | (.waiting, m) => (none, m)

/-- The records of a QPUSH frame offered to a queue in ascending lane order, and what it refuses to its fallback (R202, R381). -/
def Mach.qpushFrameOffers (m : Mach) (f : Frame) (x : SpawnQ) : Placing :=
  let p := (List.range (fieldOf f.oparg 0 16)).foldl (fun (p : Placing) i => p.offer m.mem f.addr.toNat i) ⟨[], [], []⟩
  if fieldOf f.oparg 18 1 == 1 then p else m.placeFallbacks x.die x.ctx p

/-- The record of a push of another device (R384). -/
def qpushRecord (f : Frame) : Record := ⟨true, f.src.toNat, 0, scopeOf f.scope⟩

/-- The queues that records were offered to take their new tails and states, and the record of the push. -/
def Mach.qpushFrameQueues (m : Mach) (f : Frame) (p : Placing) : Mach :=
  p.qs.foldl (fun (m : Mach) (qa, q) =>
    let m := { m with mem := (m.mem.setWord64 (qa + 32) q.tail).setWord64 (qa + 56) q.state }.touch qa
    if p.placed.any fun y => y.queue == qa then m.setRecord (qa + 32) (qpushRecord f) else m) m

/-- The accepted records reach their places in the rings. -/
def Mach.qpushFrameStore (m : Mach) (f : Frame) (x : SpawnQ) (p : Placing) : Mach :=
  p.placed.foldl (fun (m : Mach) y =>
    let m := match m.engineSpot x.die x.ctx y.va .store acceptUpdate with
      | (.found e s, m) => m.writePlace .free x.ctx (placeOf m e s) (frameRecordAt f y.size y.lane)
      | (_, m) => m
    m.recordPresent y.queue y.pos (qpushRecord f)) m

/-- The records that were accepted, by lane (R376). -/
def Placing.accepted (p : Placing) : Nat := p.placed.foldl (fun acc y => acc + 2 ^ y.lane) 0

/-- QPUSH: the records are placed as R202 gives, each in ascending lane order, and the answer tells which were accepted. -/
def Mach.serveQpush (m : Mach) (f : Frame) : Option Mach := m.onFrame 4 f fun m =>
  match m.refuseFrame f with
  | some k => some ((m.noteFrame f).nackFrame f k)
  | none =>
    let pa := f.addr.toNat
    let d := QDesc.of m.mem pa
    match tabGet m.spawnqs pa with
    | none => some ((m.noteFrame f).nackFrame f 4)
    | some x =>
      if m.mem.anyPoison pa 64 then
        let m := match m.badDescriptor pa with
          | some o => if x.stopped then m else m.stopQueue pa x 0 0 0 o
          | none => m
        some ((m.noteFrame f).nackFrame f 4)
      else if badCfg d.cfg || !d.enabled || d.rsz != fieldOf f.oparg 16 2 then some ((m.noteFrame f).nackFrame f 4)
      else match m.ringPages x.die x.ctx (pageStarts d.base (d.cap * d.size)) with
        | (none, m') => if m' == m then none else some m'
        | (some false, m) => some ((m.noteFrame f).nackFrame f 4)
        | (some true, m) =>
          let p := m.qpushFrameOffers f x
          some ((((m.noteFrame f).qpushFrameQueues f p).qpushFrameStore f x p).answer f 0x80 (BitVec.ofNat 64 p.accepted) [] fun _ => false)

def execQpushFrame (f : Frame) (s : State) : Host.Outcome State Fault Refusal := answering s (s.m.serveQpush f)

/-- QCTL: QFLUSH, or QSTAT with its value as 8 bytes. -/
def Mach.serveQctl (m : Mach) (f : Frame) : Option Mach := m.serve 6 f fun m =>
  let pa := f.addr.toNat
  let d := QDesc.of m.mem pa
  if (tabGet m.spawnqs pa).isNone || m.mem.anyPoison pa 64 || badCfg d.cfg || !d.enabled || 5 < fieldOf f.oparg 0 3 then some (m.nackFrame f 4)
  else if fieldOf f.oparg 0 3 == 0 then some ((m.flushQueue pa).answer f 0x81 0 [] fun _ => false)
  else some (m.answer f 0x80 0 (toBytes 8 (m.queueStat pa (fieldOf f.oparg 0 3 - 1)).toNat) fun _ => false)

def execQctl (f : Frame) (s : State) : Host.Outcome State Fault Refusal := answering s (s.m.serveQctl f)

/-! ### Pages (R386 to R389) -/

/-- A request for a page of this device (R388); it is answered when it has been served. -/
def Mach.servePageReq (m : Mach) (code : BitVec 8) (own : Bool) (f : Frame) : Option Mach := m.serve code f fun m =>
  some (m.queuePage (pageBase f.addr.toNat) f.world ⟨f.src.toNat, own, f.seq, fieldOf f.oparg 1 39 * 2, fieldOf f.oparg 0 1 == 1, m.clk⟩)

def execReplReq (f : Frame) (s : State) : Host.Outcome State Fault Refusal := answering s (s.m.servePageReq 0x10 false f)
def execOwnReq (f : Frame) (s : State) : Host.Outcome State Fault Refusal := answering s (s.m.servePageReq 0x11 true f)

/-- INVAL (R388): a holder drops its replica; at the home, a holder has dropped it (R389). -/
def Mach.serveInval (m : Mach) (f : Frame) : Option Mach := m.onFrame 0x12 f fun m =>
  let home := fieldOf f.oparg 0 12
  m.serveAt home f fun m =>
  let m := m.noteFrame f
  let p := m.page home (pageBase f.addr.toNat) f.world
  let m := if home == m.xdev.toNat && f.src.toNat != home then m.setPage { p with replicas := p.replicas.filter (· != f.src.toNat) }
    else if p.owned then m else m.releasePage p
  some (m.answer f 0x81 0 [] fun _ => false)

def execInval (f : Frame) (s : State) : Host.Outcome State Fault Refusal := answering s (s.m.serveInval f)

/-- Whether parts of a page that this device has sent to its home have not been answered. -/
def Mach.returning (m : Mach) (p : Page) : Bool := m.requests.any fun (_, r) => r.answer.isNone && match r.frame with
  | some f => f.opc == 0x14 && f.dst.toNat == p.home && pageBase f.addr.toNat == p.addr
  | none => false

/-- FETCH (R388): the owner writes the page back and sends it, or GRANT, to the requester. An owner that is returning the page to its home
(R389) answers once the home has it. -/
def Mach.serveFetch (m : Mach) (f : Frame) : Option Mach := m.onFrame 0x13 f fun m =>
  let p := m.page f.src.toNat (pageBase f.addr.toNat) f.world
  if !p.owned && m.returning p then none
  else
  let m := m.noteFrame f
  let m := if p.owned then m.handOver p (fieldOf f.oparg 0 12) (fieldOf f.oparg 12 1 == 1) (fieldOf f.oparg 13 1 == 1) else m
  some (m.answer f 0x81 0 [] fun _ => false)

def execFetch (f : Frame) (s : State) : Host.Outcome State Fault Refusal := answering s (s.m.serveFetch f)

/-- PAGE_DATA (R376, R388): a part of a page reaches its frame; the last of 16 makes it valid. At the home, a page that comes back with
its ownership makes the home its owner (R389). -/
def Mach.servePageData (m : Mach) (f : Frame) : Option Mach := m.onFrame 0x14 f fun m =>
  let home := fieldOf f.oparg 0 12
  let own := fieldOf f.oparg 12 1 == 1
  let a := f.addr.toNat
  m.serveAt home f fun m =>
  let p := m.page home (pageBase a) f.world
  match p.frame with
  | none => some ((m.noteFrame f).nackFrame f 4)
  | some frame =>
    let m := m.noteFrame f
    let part := a % 65536 / 4096
    let m := { m with mem := m.mem.store (frame + a % 65536) (f.payload.take 4096) fun w => chunkPoisoned f.pmask (4 * w) }
    let parts := insertNat p.parts part
    if parts.length < 16 then some ((m.setPage { p with parts := parts }).answer f 0x81 0 [] fun _ => false)
    else
      let back := own && home == m.xdev.toNat
      let p := { p with parts := [], valid := true, owned := own, shared := false, applied := fieldOf f.oparg 32 32, asked := none, installed := m.clk }
      let m := m.setPage (if back then { p with owner := home, ownerFrame := p.addr } else p)
      -- R389: the home takes ownership by R388, so that no replica is left
      let m := if back && p.serving.isNone && !p.replicas.isEmpty then m.queuePage p.addr p.world ⟨home, true, 0, p.addr, false, m.clk⟩ else m
      some (m.answer f 0x81 0 [] fun _ => false)

def execPageData (f : Frame) (s : State) : Host.Outcome State Fault Refusal := answering s (s.m.servePageData f)

/-- GRANT (R388): ownership of a page whose replica is valid here. -/
def Mach.serveGrant (m : Mach) (f : Frame) : Option Mach := m.onFrame 0x15 f fun m =>
  let m := m.noteFrame f
  let p := m.page (fieldOf f.oparg 0 12) (pageBase f.addr.toNat) f.world
  let p := { p with asked := none, owned := p.owned || p.valid, shared := false }
  some ((m.setPage p).answer f 0x81 0 [] fun _ => false)

def execGrant (f : Frame) (s : State) : Host.Outcome State Fault Refusal := answering s (s.m.serveGrant f)

/-- FPC_EVICTION (R389): the page installed longest ago leaves a context's full page cache: a replica is dropped and the home told so, an
owned page goes back to the home with its ownership. -/
def Mach.evictPage (m : Mach) (ctx : Nat) : Option Mach :=
  match m.ctx ctx with
  | none => none
  | some c =>
    let (base, n) := c.pageCache
    let mine := m.pages.filter fun p => p.home != m.xdev.toNat && p.valid && p.asked.isNone && (match p.frame with
      | some f => decide (base ≤ f) && decide (f < base + 65536 * n)
      | none => false)
    if !m.wanted.contains ctx || (m.freeFrame ctx).isSome then none
    else match mine.find? fun p => mine.all fun q => p.installed ≤ q.installed with
      | none => none
      | some p =>
        let m := { m with wanted := m.wanted.filter (· != ctx) }
        if p.owned then some (m.handOver p p.home true false)
        else some (((m.releasePage p).request .free ctx { blankFrame 0x12 p.home p.addr p.world with oparg := BitVec.ofNat 64 p.home }).2)

def fpcEvictionDue (ctx : Nat) (s : State) : Option Mach :=
  s.m.evictPage ctx
def execFpcEviction (ctx : Nat) (s : State) : Host.Outcome State Fault Refusal := event s (fpcEvictionDue ctx s)

/-! ### Ordered and loose pages (R390, R391) -/

/-- ORD_WRITE: the sequencer numbers, applies and multicasts the write; it is answered when every holder has answered. -/
def Mach.serveOrdered (m : Mach) (f : Frame) : Option Mach := m.serve 0x18 f fun m =>
  some ((m.frameRelease' f).orderWrite f.world
    ⟨f.src.toNat, f.addr.toNat, f.payload.take (fieldOf f.oparg 16 13), f.pmask, f.seq, none⟩)

def execOrdWrite (f : Frame) (s : State) : Host.Outcome State Fault Refusal := answering s (s.m.serveOrdered f)

/-- ORD_UPDATE: in the order of numbers; one that the replica already holds is only answered. -/
def Mach.serveUpdate (m : Mach) (f : Frame) : Option Mach := m.onFrame 0x19 f fun m =>
  let p := m.page f.src.toNat (pageBase f.addr.toNat) f.world
  let num := fieldOf f.oparg 0 32
  let ack := fun (m : Mach) => some ((m.noteFrame f).answer f 0x81 0 [] fun _ => false)
  match p.frame with
  | none => ack m
  | some frame =>
    if !p.valid || p.applied % 2 ^ 32 < num then none
    else if num < p.applied % 2 ^ 32 then ack m
    else ack ((m.applyUpdate (frame + f.addr.toNat % 65536) (f.payload.take (fieldOf f.oparg 32 16)) fun w => chunkPoisoned f.pmask (4 * w)).setPage
      { p with applied := p.applied + 1 })

def execOrdUpdate (f : Frame) (s : State) : Host.Outcome State Fault Refusal := answering s (s.m.serveUpdate f)

/-- LOOSE_UPDATE: applied at this device's copy, if it holds one. The home sends on the update of a device that cannot know the other
holders, outside its poison domain the unpoisoned ones only, and answers once they have answered (DESIGN CHOICE, log 78). -/
def Mach.serveLoose (m : Mach) (f : Frame) : Option Mach := m.onFrame 0x1A f fun m => m.serveAt (fieldOf f.oparg 48 12) f fun m =>
  let p := m.page (fieldOf f.oparg 48 12) (pageBase f.addr.toNat) f.world
  let bytes := f.payload.take (fieldOf f.oparg 16 13)
  let others := if p.home == m.xdev.toNat then p.replicas.filter (· != f.src.toNat) else []
  let m := match p.frame with
    | some frame => m.applyUpdate (frame + f.addr.toNat % 65536) bytes fun w => chunkPoisoned f.pmask (4 * w)
    | none => m
  let m := m.noteFrame f
  if others.isEmpty then some (m.answer f 0x81 0 [] fun _ => false)
  else
    let (sent, kept) := others.partition fun d => m.pdom d || f.pmask == 0
    let m := kept.foldl (fun (m : Mach) d => m.logEvent 7 f.addr.toNat d) m
    let m := sent.foldl (fun (m : Mach) d => (m.request (.update p.addr p.nextUpdate) 0
      { f with dst := BitVec.ofNat 12 d, rseq := 0 }).2) m
    some ((m.setPage { p with nextUpdate := p.nextUpdate + 1, updates := p.updates ++ [⟨p.nextUpdate, sent, f.src.toNat, f.seq, none⟩] }).finishUpdates p.addr)

def execLooseUpdate (f : Frame) (s : State) : Host.Outcome State Fault Refusal := answering s (s.m.serveLoose f)

end Sys2Proof.Machine
end

