-- ==== Sys2Proof/Machine/Collect.lean ====
section
/-! DEFINITION. Collectives (R307, R392 to R397). The layouts of COLL_PARAM and COLL_DATA are those of DESIGN CHOICE, log 18. -/

namespace Sys2Proof.Machine

/-! ### Groups and parameters (R392, R393) -/

/-- A group as firmware defines it: its context, world, the rank of this device, and the device of each rank. -/
structure Group where
  ctx : Nat
  world : Bool
  rank : Nat
  devs : List Nat
deriving DecidableEq, Repr

/-- Group n; its fields are held as context, world, N, rank, and the devices. -/
def Mach.group (m : Mach) (n : Nat) : Option Group := (tabGet m.groups n).bind fun l =>
  let k := l.getD 2 0
  if k < 2 || 4096 < k then none else some ⟨l.getD 0 0, l.getD 1 0 == 1, l.getD 3 0, (l.drop 4).take k⟩

/-- Fields of words 4 and 7 (R393). -/
def collSeq (w : Word) : Nat := fieldOf w 48 16
def collGroup (w : Word) : Nat := fieldOf w 40 8
def collRoot (w : Word) : Nat := fieldOf w 28 12
def collType (w : Word) : Ty := tyOf (w.extractLsb' 11 5)
def collRop (w : Word) : Nat := fieldOf w 8 3
def collOp (w : Word) : Nat := fieldOf w 0 4
def collSize (w : Word) : Nat := accessSize (collType w)

/-- Bytes of a block. -/
def collBlock (w4 w7 : Word) : Nat := fieldOf w7 0 40 * collSize w4

/-- Blocks of the source of a rank, and of its destination (R394). -/
def collSources (w4 : Word) (n rank : Nat) : Nat := match collOp w4 with
  | 1 => n
  | 4 => n
  | 3 => if rank == collRoot w4 then 1 else 0
  | _ => 1
def collDests (w4 : Word) (n : Nat) : Nat := if collOp w4 == 2 || collOp w4 == 4 then n else 1

/-- Reserved values in the body of a packet (R332, R393). -/
def collReserved (w4 w7 : Word) : Bool :=
  fieldOf w4 16 12 != 0 || fieldOf w4 4 4 != 0 || 4 < collOp w4 || 2 < collRop w4 || (collOp w4 != 3 && collRoot w4 != 0) || fieldOf w7 40 24 != 0 ||
  fieldOf w7 0 40 == 0 || !([Ty.f32, .bf16, .f16, .s32, .z32].contains (collType w4)) || collBlock w4 w7 % 32 != 0

/-! ### Combining (R395) -/

/-- The format of a floating-point TYPE of a collective. -/
def collFormat : Ty → Option Fmt
  | .f32 => some fmtF32
  | .bf16 => some fmtBF16
  | .f16 => some fmtF16
  | _ => none

/-- One combination, rounded with `.rne` in TYPE. -/
def collCombine (ty : Ty) (rop : Nat) (a b : Nat) : Nat := match collFormat ty with
  | some f => if rop == 0 then floatOp f .add .rne 0 false a b 0 else minMax f (rop == 2) a b
  | none => (combine rop ty .rne (BitVec.ofNat 32 a) (BitVec.ofNat 32 b)).toNat

/-- The identity of R58 in TYPE. -/
def collIdentity (ty : Ty) (rop : Nat) : Nat := match ty, rop with
  | .bf16, 0 => 0x8000
  | .bf16, 1 => 0x7F80
  | .bf16, _ => 0xFF80
  | .f16, 0 => 0x8000
  | .f16, 1 => 0x7C00
  | .f16, _ => 0xFC00
  | t, r => (identityOf r t).toNat

/-- One level of the tree. -/
def collLevel (ty : Ty) (rop : Nat) : List Nat → List Nat
  | a :: b :: rest => collCombine ty rop a b :: collLevel ty rop rest
  | l => l

/-- The tree over 2^n leaves. -/
def collTree (ty : Ty) (rop : Nat) : Nat → List Nat → Nat
  | 0, l => l.headD 0
  | n + 1, l => collTree ty rop n (collLevel ty rop l)

/-- ⌈log2 n⌉. -/
def collDepth (n : Nat) : Nat := ((List.range 13).find? fun k => n ≤ 2 ^ k).getD 12

/-- The reduction of the ranks' values. -/
def collReduce (ty : Ty) (rop : Nat) (xs : List Nat) : Nat :=
  let d := collDepth xs.length
  collTree ty rop d (xs ++ List.replicate (2 ^ d - xs.length) (collIdentity ty rop))

/-! ### What has arrived -/

/-- n bytes of a rank's block from an offset, once they are here. -/
def Collective.bytes (c : Collective) (rank off n : Nat) : Option (List (Byte × Bool)) :=
  (c.blocks.find? fun (r, o, bs) => r == rank && o ≤ off && off + n ≤ o + bs.length).map fun (_, o, bs) => (bs.drop (off - o)).take n

/-- One reduced element at an offset of a block. -/
def Collective.element (c : Collective) (w4 : Word) (n off : Nat) : Option (List (Byte × Bool)) :=
  let size := collSize w4
  let xs := (List.range n).filterMap fun r => c.bytes r off size
  if xs.length != n then none
  else
    let v := collReduce (collType w4) (collRop w4) (xs.map fun x => ofBytes (x.map (·.1)))
    some ((toBytes size v).map fun b => (b, xs.any fun x => x.any (·.2)))

/-- Word k of the destination, once every contribution that it depends on is here; a word is poisoned as R395 gives. -/
def Collective.word (c : Collective) (w4 w7 : Word) (n k : Nat) : Option (List (Byte × Bool)) :=
  let block := collBlock w4 w7
  let off := 4 * k % block
  match collOp w4 with
  | 3 => c.bytes (collRoot w4) off 4
  | 2 => c.bytes (4 * k / block) off 4
  | 4 => c.bytes (4 * k / block) off 4
  | _ => if collSize w4 == 4 then c.element w4 n off
    else match c.element w4 n off, c.element w4 n (off + 2) with
      | some a, some b => some (a ++ b)
      | _, _ => none

/-- The physical address of an offset of a buffer. -/
def pieceAt : List (Nat × Nat) → Nat → Nat
  | [], o => o
  | (a, n) :: rest, o => if o < n then a + o else pieceAt rest (o - n)

/-! ### Entries -/

def Mach.coll (m : Mach) (group cseq : Nat) : Option Collective := m.collectives.find? fun c => c.group == group && c.cseq == cseq
def Mach.setColl (m : Mach) (c : Collective) : Mach :=
  { m with collectives := c :: m.collectives.filter fun x => !(x.group == c.group && x.cseq == c.cseq) }
def Collective.blank (group cseq : Nat) : Collective := ⟨group, cseq, none, 0, [], [], [], [], [], none, false⟩

/-- Send a COLL_PARAM to every other rank: parameters, or an abort, with a bit for code 0x09 (R396, R397; DESIGN CHOICE, log 18). -/
def Mach.sendParams (m : Mach) (g : Group) (group cseq : Nat) (words : List Word) (abort : Option Nat) : Mach :=
  (g.devs.filter (· != m.xdev.toNat)).foldl (fun (m : Mach) d => (m.request (.coll group cseq) g.ctx
    (withPayload { blankFrame 0x20 d 0 g.world with oparg := BitVec.ofNat 64 (group + 2 ^ 8 * cseq + match abort with
      | some code => 2 ^ 24 + if code == 9 then 2 ^ 25 else 0
      | none => 0) }
      (words.flatMap fun w => toBytes 8 w.toNat) fun _ => false)).2) m

/-- A collective is over: the next one of its group is the one with the next CSEQ (R397). -/
def Mach.endColl (m : Mach) (c : Collective) : Mach :=
  { m.setColl { c with ended := true, packet := none, blocks := [], params := [] } with
    collNext := tabSet m.collNext c.group ((c.cseq + 1) % 2 ^ 16) }

/-- A started packet fails (R332, R397): its queue stops, and the other ranks are told. -/
def Mach.failColl (m : Mach) (c : Collective) (code : Nat) : Mach :=
  let m := m.endColl c
  let m := match m.group c.group with
    | some g => m.sendParams g c.group c.cseq [] (some code)
    | none => m
  match c.packet with
  | none => m
  | some (q, index) => m.modQueue q fun h => { h with
      faulted := true, code := code, failedAt := (index - h.base) % h.size, active := h.active.filter fun p => p.index != index }

/-! ### The start of a packet (R393, R396) -/

/-- The pieces of local memory that a buffer lies in; a failure or a wait otherwise. -/
def collPieces (p : Pk) (use : Use) : List (Nat × Nat) → Mach → List (Nat × Nat) → (Mach → List (Nat × Nat) → PkRes) → PkRes
  | [], m, acc, go => go m acc
  | (a, n) :: rest, m, acc, go => feSpot m p.ctx a use (fun r attr => r == .loc && attr == 0) fun m _ s => match s with
    | .here pa => collPieces p use rest m (acc ++ [(pa, n)]) go
    | _ => .fail 4

/-- COLLECTIVE: the checks, and the parameters go to the other ranks. -/
def startCollective (p : Pk) (m : Mach) : PkRes :=
  let w4 := p.word 4
  let w7 := p.word 7
  let src := (p.word 5).toNat
  let dst := (p.word 6).toNat
  if collReserved w4 w7 then .fail 1
  else if src % 32 != 0 || dst % 32 != 0 then .fail 2
  else match m.group (collGroup w4) with
      | none => .fail 9
      | some g =>
        let n := g.devs.length
        if g.ctx != p.ctx || g.world != p.c.world then .fail 9
        else if n ≤ collRoot w4 then .fail 1
        else
          let block := collBlock w4 w7
          collPieces p .load (pageCuts src (block * collSources w4 n g.rank)) m [] fun m ss =>
          collPieces p .store (pageCuts dst (block * collDests w4 n)) m [] fun m ds =>
            if ss.any fun (a, x) => ds.any fun (b, y) => a < b + y && b < a + x then .fail 2
            else
              let e := match m.coll (collGroup w4) (collSeq w4) with
                | some e => if e.ended then Collective.blank (collGroup w4) (collSeq w4) else e
                | none => Collective.blank (collGroup w4) (collSeq w4)
              match e.aborted with
              | some code => .fail code
              | none =>
                let e := { e with packet := some (p.q, p.index), ctx := p.ctx, words := [w4, w7], src := ss, dst := ds,
                                  params := e.params ++ [(g.rank, [w4, w7])] }
                .go ((m.setColl e).sendParams g e.group e.cseq [w4, w7] none) (some { p.inProgress with collective := some (2 ^ 16 * e.group + e.cseq) })

/-- A rank whose packet fails at its start tells the other ranks of its group (R397). -/
def abortStart (p : Pk) (m : Mach) (code : Nat) : Mach :=
  let (group, cseq) := (collGroup (p.word 4), collSeq (p.word 4))
  match m.group group with
  | some g => (m.endColl ((m.coll group cseq).getD (Collective.blank group cseq))).sendParams g group cseq [] (some code)
  | none => m

/-! ### Data (R307, R395) -/

/-- Every core writes back what it holds dirty of some pieces (R307). -/
def Mach.writebackPieces (m : Mach) (ps : List (Nat × Nat)) : Mach :=
  m.cores.foldl (fun (m : Mach) (k, _) => m.flushWhere k fun n _ => ps.any fun (a, len) => 32 * n < a + len && a < 32 * n + 32) m

/-- The bytes of a source block, poisoned by chunk. -/
def Mach.collRead (m : Mach) (c : Collective) (off n : Nat) : List (Byte × Bool) :=
  let bs := (List.range n).map fun i => let a := pieceAt c.src (off + i); (m.mem.byte a, m.mem.poi.contains (a / 4))
  (chunksOf bs).flatMap fun l => let p := l.any (·.2); l.map fun x => (x.1, p)

/-- Send n bytes of a block to a device in frames of at most 4,096 bytes, and keep them where the device is this one. -/
def Mach.sendBlock (m : Mach) (c : Collective) (g : Group) (rank off n : Nat) : Mach :=
  let bs := m.collRead c off n
  if rank == g.rank then match m.coll c.group c.cseq with
    | some e => m.setColl { e with blocks := e.blocks ++ [(rank, 0, bs)] }
    | none => m
  else (List.range ((n + 4095) / 4096)).foldl (fun (m : Mach) i =>
    let l := (bs.drop (4096 * i)).take 4096
    (m.request (.coll c.group c.cseq) c.ctx (withPayload { blankFrame 0x21 (g.devs.getD rank 0) (4096 * i) g.world with
      oparg := BitVec.ofNat 64 (c.group + 2 ^ 8 * c.cseq + 2 ^ 24 * l.length) } (l.map (·.1)) fun w => (l.getD (4 * w) (0, false)).2)).2) m

/-- The data phase: every rank's packet has started, and the source is read and sent. -/
def Mach.collSend (m : Mach) (c : Collective) (g : Group) : Mach :=
  let w4 := c.words.getD 0 0
  let block := collBlock w4 (c.words.getD 1 0)
  let m := m.writebackPieces (c.src ++ c.dst)
  let m := match collOp w4 with
    | 3 => if g.rank == collRoot w4 then (List.range g.devs.length).foldl (fun (m : Mach) r => m.sendBlock c g r 0 block) m else m
    | 1 => (List.range g.devs.length).foldl (fun (m : Mach) r => m.sendBlock c g r (block * r) block) m
    | 4 => (List.range g.devs.length).foldl (fun (m : Mach) r => m.sendBlock c g r (block * r) block) m
    | _ => (List.range g.devs.length).foldl (fun (m : Mach) r => m.sendBlock c g r 0 block) m
  match m.coll c.group c.cseq with
  | some e => m.setColl { e with blocks := e.blocks ++ [(g.devs.length, 0, [])] }
  | none => m

/-- Whether this rank has sent its data. -/
def Collective.sent (c : Collective) (g : Group) : Bool := c.blocks.any fun (r, _, _) => r == g.devs.length

/-- Write a word of the destination at its home slice. -/
def Mach.collWrite (m : Mach) (c : Collective) (k : Nat) (w : List (Byte × Bool)) : Mach :=
  let a := pieceAt c.dst (4 * k)
  { m with mem := m.mem.storeBytes a w }.touch a

/-- The destination's words, as far as they are known. -/
def Collective.result (c : Collective) (g : Group) : List (Option (List (Byte × Bool))) :=
  let w4 := c.words.getD 0 0
  let w7 := c.words.getD 1 0
  (List.range (collBlock w4 w7 * collDests w4 g.devs.length / 4)).map fun k => c.word w4 w7 g.devs.length k

/-- The results are written, and every L1 drops its copies of the buffers (R307). -/
def Mach.collFinish (m : Mach) (c : Collective) (g : Group) : Mach :=
  let m := (c.result g).zipIdx.foldl (fun (m : Mach) (w, k) => match w with
    | some w => m.collWrite c k w
    | none => m) m
  let m := m.dropEverywhere fun n => (c.src ++ c.dst).any fun (a, len) => 128 * (32 * n / 128) < a + len && a < 128 * (32 * n / 128) + 128
  m.endColl c

/-- Whether it is the turn of a collective in its group (R396): its CSEQ is the next one; where none has run, no lower one is known here
(DEDUCED, log 79). -/
def Mach.collTurn (m : Mach) (c : Collective) : Bool := match tabGet m.collNext c.group with
  | some k => c.cseq == k
  | none => !(m.collectives.any fun x => x.group == c.group && x.cseq < c.cseq && !x.ended)

/-- The context of a collective has been pending pre-emption for PGRACE.CYCLES (R397). -/
def Mach.collLate (m : Mach) (c : Collective) : Bool := match m.ctx c.ctx with
  | some x => (match x.pending with
    | some k => decide (k + fieldOf (x.word 6) 0 40 ≤ m.clk)
    | none => false)
  | none => true

/-- The next step of a started collective: a mismatch, the data phase, or the end; none while it waits for other ranks. -/
def Mach.collStep (m : Mach) (c : Collective) : Option Mach :=
  match m.group c.group with
  | none => some (m.failColl c 9)
  | some g =>
    if c.params.any fun (_, ws) => ws != c.words then some (m.failColl c 9)
    else if !c.sent g then
      if (List.range g.devs.length).all (fun r => c.params.any fun p => p.1 == r) && m.collTurn c then some (m.collSend c g) else none
    else if (c.result g).all (·.isSome) then some (m.collFinish c g)
    else none

/-- COLLECTIVE (R396): the start of a packet, and its later steps. -/
def collectiveDue (q : Nat) (s : State) : Option Mach :=
  match s.m.inProgress q fun p => p.type == 9 && p.collective.any fun k => (s.m.coll (k / 2 ^ 16) (k % 2 ^ 16)).all (·.ended) with
    | some (ctx, p) => s.m.complete q ctx p
    | none => match s.m.collectives.findSome? fun c => if c.packet.any (·.1 == q) && c.aborted.isNone && !s.m.collLate c then s.m.collStep c else none with
      | some m => some m
      | none => startPacket s q (· == 9) startCollective abortStart
def execCollective (q : Nat) (s : State) : Host.Outcome State Fault Refusal := event s (collectiveDue q s)

/-- COLL_PARAM (R396, R397): the parameters of another rank, or its abort. -/
def Mach.collParam (m : Mach) (f : Frame) : Option Mach := m.onFrame 0x20 f fun m =>
  let m := m.noteFrame f
  let group := fieldOf f.oparg 0 8
  let cseq := fieldOf f.oparg 8 16
  match m.group group with
  | none => some (m.nackFrame f 4)
  | some g =>
    if g.world != f.world || !g.devs.contains f.src.toNat then some (m.nackFrame f 4) else
    let m := m.answer f 0x81 0 [] fun _ => false
    let abort := fieldOf f.oparg 24 1 == 1
    let code := if fieldOf f.oparg 25 1 == 1 then 9 else 0x0A
    let words := (List.range 2).map fun i => BitVec.ofNat 64 (ofBytes ((f.payload.drop (8 * i)).take 8))
    match m.coll group cseq with
    | some e =>
      if abort then some (if e.ended then m else m.setColl { e with aborted := some code })
      else
        let e := if e.ended then Collective.blank group cseq else e
        some (m.setColl { e with params := e.params ++ [(g.devs.idxOf f.src.toNat, words)] })
    | none =>
      let e := Collective.blank group cseq
      some (m.setColl (if abort then { e with aborted := some code } else { e with params := [(g.devs.idxOf f.src.toNat, words)] }))

def execCollParam (f : Frame) (s : State) : Host.Outcome State Fault Refusal := answering s (s.m.collParam f)

/-- COLL_DATA (R395): a part of another rank's block. -/
def Mach.collData (m : Mach) (f : Frame) : Option Mach := m.onFrame 0x21 f fun m =>
  let m := m.noteFrame f
  match m.group (fieldOf f.oparg 0 8), m.coll (fieldOf f.oparg 0 8) (fieldOf f.oparg 8 16) with
  | none, _ => some (m.nackFrame f 4)
  | some g, some e =>
    if g.world != f.world || !g.devs.contains f.src.toNat then some (m.nackFrame f 4) else
    let m := m.answer f 0x81 0 [] fun _ => false
    if e.ended then some m
    else
      let bs := (List.range (fieldOf f.oparg 24 13)).map fun i => (f.payload.getD i 0, chunkPoisoned f.pmask i)
      some (m.setColl { e with blocks := e.blocks ++ [(g.devs.idxOf f.src.toNat, f.addr.toNat, bs)] })
  | some _, none => some (m.answer f 0x81 0 [] fun _ => false)

def execCollData (f : Frame) (s : State) : Host.Outcome State Fault Refusal := answering s (s.m.collData f)

/-- COLLECTIVE_END_EARLY (R397): each word of the destination keeps its old value or takes one that the operation could have written
there (DESIGN CHOICE, log 5). -/
def Mach.collEnd (m : Mach) (group cseq : Nat) : Option Mach :=
  match m.coll group cseq, m.group group with
  | some c, some g =>
    if c.ended || c.packet.isNone || !(c.aborted.isSome || m.collLate c) then none
    else
      let m := if !c.sent g then m else (c.result g).zipIdx.foldl (fun (m : Mach) (w, k) => match w with
        | some w => if Config.pick (2 ^ 92 + 2 ^ 41 * m.nextId + k) then m.collWrite c k w else m
        | none => m) m
      some (m.fresh.2.failColl c (c.aborted.getD 0x0A))
  | _, _ => none

def collectiveEndEarlyDue (group cseq : Nat) (s : State) : Option Mach :=
  s.m.collEnd group cseq
def execCollectiveEndEarly (group cseq : Nat) (s : State) : Host.Outcome State Fault Refusal := event s (collectiveEndEarlyDue group cseq s)

end Sys2Proof.Machine
end

