-- ==== Sys2Proof/Machine/Reliability.lean ====
section
/-! DEFINITION. Errors of the arrays and of HBM4E (R295, R403 to R407, R425) and of the die-to-die links (R422, R423, R431). -/

namespace Sys2Proof.Machine

/-- An event that also changes the firmware's state. No event happens while no clock runs (R442). -/
def firmEvent (s : State) (r : Option State) : Host.Outcome State Fault Refusal :=
  if !s.live then .fault .clocksStopped
  else match r with
    | some t => .next t
    | none => .next s

/-- An entry of the device log with reason bits (R421): kind 3 corrected, 4 uncorrectable (reason 1 MISCORRECT, 2 TAGFAIL), 5 INTEG of no
context, 6 link replay, 8 link repair, 9 sparing step, 10 clock cap, 11 thermal trip. -/
def Mach.logReason (m : Mach) (kind reason addr aux : Nat) : Mach :=
  { m with deviceLog := m.deviceLog ++ [⟨kind, 0, reason, BitVec.ofNat 64 addr, BitVec.ofNat 64 aux, 0⟩] }

/-- Every resident context faults (R423, R433). -/
def Mach.faultAll (m : Mach) (err : Nat) : Mach :=
  (m.ctxs.filter fun (_, c) => c.resident).foldl (fun (m : Mach) (ctx, _) => m.faultContext ctx err) m

/-! ### Sectors between L1, L2 and HBM4E -/

/-- L1_EVICTION (R295). -/
def execL1Eviction (core sector : Nat) (s : State) : Host.Outcome State Fault Refusal :=
  event s (if (s.m.l1 core (32 * sector)).isNone then none else some (s.m.evict core (32 * sector)))

/-- A line of the L1 of a core, of 16 ways, that must go for another of its set (R282, R287): the address of one of its sectors. Which line
goes is open, and so is the set of a line (DESIGN CHOICE, log 66). -/
def Mach.overfullLine (m : Mach) (core : Nat) : Option Nat := match (m.ctxOn (dieOf core)).bind m.ctx with
  | none => none
  | some c =>
    let sets := (768 * 1024 - c.spadSize) / (16 * 128)
    let lines := (m.core core).l1.foldl (fun (acc : List Nat) x => insertNat acc (x.1 / 4)) []
    let set := fun (n : Nat) => lines.filter fun l => l % sets == n % sets
    (lines.find? fun n => 16 < (set n).length).bind fun n => (set n)[Config.victim m.nextId % (set n).length]?

/-- An L1 holds no more than its ways (R287): a line is evicted. -/
def l1CapacityDue (core : Nat) (s : State) : Option Mach := (s.m.overfullLine core).map fun n =>
  (List.range 4).foldl (fun (m : Mach) i => m.evict core (128 * n + 32 * i)) s.m.fresh.2

/-- The sectors that the L2 of a die can hold (R4). -/
def l2Sectors : Nat := 2 ^ 24

/-- The words of a sector, by number, whose error this read finds (R403). A word that has been written since holds other bits, or is no
longer poisoned (DEDUCED, log 77). -/
def Mach.foundUpsets (m : Mach) (sector : Nat) : List Nat :=
  (m.upsets.filter fun (w, e) => w / 8 == sector && m.mem.poisoned (4 * w) && m.mem.word32 (4 * w) == e).map (·.1)

/-- All eight words of a sector become poisoned (R404). -/
def Memory.poisonSector (mem : Memory) (sector : Nat) : Memory :=
  (List.range 8).foldl (fun (mem : Memory) i => mem.setPoison (32 * sector + 4 * i) true) mem

/-- What HBM4E holds of a sector as L2 writes it: in a secure carve-out the ciphertext and its tag (R405). L1 and L2 hold plaintext. -/
def Mach.hbmSector (m : Mach) (sector : Nat) : List Byte × Option (BitVec 32) :=
  let plain := m.mem.bytes (32 * sector) 32
  if m.carveOuts.contains (32 * sector / 2 ^ 29) then
    let c := Config.ciphertext m.keys sector plain
    (c, some (Config.kmacTag m.keys sector c))
  else (plain, none)

/-- L2_EVICTION (R403, R404): a sector with a poisoned word is written with the poison codeword. -/
def Mach.l2Evict (m : Mach) (sector : Nat) : Option Mach :=
  if !m.resident.contains sector then none
  else
    let m := if (m.foundUpsets sector).isEmpty then m else m.logReason 4 0 (32 * sector) 0
    let m := { m with resident := m.resident.filter (· != sector), upsets := m.upsets.filter fun w => w.1 / 8 != sector }
    some (if m.mem.anyPoison (32 * sector) 32 then { m with mem := m.mem.poisonSector sector } else m)

/-- The L2 of a die holds no more than 512 MiB (R4): a sector is evicted; which is open (DESIGN CHOICE, log 66). -/
def l2CapacityDue (die : Nat) (s : State) : Option Mach :=
  let held := s.m.resident.filter fun n => homeDie (32 * n) == die
  if held.length ≤ l2Sectors then none
  else (held[Config.victim s.m.nextId % held.length]?).bind fun n => s.m.fresh.2.l2Evict n

def execL2Eviction (sector : Nat) (s : State) : Host.Outcome State Fault Refusal := event s (s.m.l2Evict sector)

/-- The stored bits that an error has left in n words, each a free value, all of them poisoned (R404, R406). -/
def Mach.upsetWords (m : Mach) (a n : Nat) : Mach :=
  (List.range n).foldl (fun (m : Mach) i =>
    let (k, m) := m.fresh
    { m with mem := m.mem.store (a + 4 * i) (toBytes 4 (Config.freeWord k).toNat) fun _ => true }) m

/-- INTEG (R407): charged to a context, which faults, or recorded in the device log. -/
def Mach.integrity (m : Mach) (sector : Nat) : Option Nat → Mach
  | none => m.logReason 5 0 (32 * sector) 0
  | some c => (m.errorRecord c [recordHead 4 0x0F 0 0 (unitOf (coreNo (sector / 2 ^ 32) 0) 0 0) m.xdev.toNat, m.xclk, 0,
      BitVec.ofNat 64 (32 * sector), 0, 0, 0, 0]).faultContext c 2

/-- HBM_FILL (R403, R404, R406, R407): the poison codeword is recognised first, then the ECC is decoded, then in a secure carve-out the
tag is compared. -/
def Mach.hbmFill (m : Mach) (sector : Nat) (ctx : Option Nat) (ecc : Ecc) (tagBad : Bool) : Option Mach :=
  let secure := m.carveOuts.contains (32 * sector / 2 ^ 29)
  let filled := { m with resident := insertNat m.resident sector }
  if 2 ^ 35 ≤ sector || m.resident.contains sector || (tagBad && !secure) || (ctx.any fun c => (m.ctx c).isNone) then none
  else if m.mem.anyPoison (32 * sector) 32 then some { filled with mem := m.mem.poisonSector sector }
  else match ecc, tagBad with
    | .good, false => some filled
    | .corrected, false => some (filled.logReason 3 0 (32 * sector) 0)
    | .corrected, true => some ((filled.upsetWords (32 * sector) 8).logReason 4 1 (32 * sector) 0)
    | .bad, bad => some ((filled.upsetWords (32 * sector) 8).logReason 4 (if bad then 2 else 0) (32 * sector) 0)
    | .good, true => some ((filled.upsetWords (32 * sector) 8).integrity sector ctx)

def execHbmFill (sector : Nat) (ctx : Option Nat) (ecc : Ecc) (tagBad : Bool) (s : State) : Host.Outcome State Fault Refusal :=
  event s (s.m.hbmFill sector ctx ecc tagBad)

/-! ### Control arrays and soft errors (R403, R425) -/

/-- A task killed by an error in its control arrays: KILLED, with a TASKKILL record (R403, R444). -/
def Mach.killControl (m : Mach) (tid : Nat) : Option Mach :=
  match m.task tid with
  | none => none
  | some t =>
    if t.ending.isSome then none
    else
      let future := match m.team t.team with
        | some g => g.future
        | none => 0
      some ((m.errorRecord t.ctx [recordHead 1 0 0 0 (unitOf t.core t.part 0) m.xdev.toNat, m.xclk, t.xtask, 0, t.xepc, t.xsyn, future, 0]).modTask
        tid fun t => t.finish .killed)

/-- An uncorrectable error in a control array (R403). -/
def Mach.controlError (m : Mach) : Site → Option Mach
  | .tlb core idx => if (m.core core).tlb.length ≤ idx then none else some (m.modCore core fun k => { k with tlb := k.tlb.eraseIdx idx })
  | .dieTlb die idx => if (m.die die).tlb.length ≤ idx then none else some (m.modDie die fun d => { d with tlb := d.tlb.eraseIdx idx })
  | .taskControl tid => m.killControl tid
  | .context ctx => if (m.ctx ctx).isNone then none else some (m.faultContext ctx 4)
  | _ => none

def execControlArrayError (site : Site) (s : State) : Host.Outcome State Fault Refusal := event s (s.m.controlError site)

/-- The task of a register that an error upsets. -/
def Mach.upsetTask (m : Mach) (tid : Nat) (good : Bool) (f : Elem → Task → Task) : Option Mach :=
  let (k, m') := m.fresh
  if !good || !(m.task tid).any (·.ending.isNone) then none
  else some (m'.modTask tid (f ((Config.freeWord k).setWidth 32)))

def VReg.upset (x : VReg) (e : Elem) (lane : Nat) : VReg := ⟨setAt x.e lane e, x.poi ||| (1 : Mask) <<< lane⟩
def UReg.upset (x : UReg) (e : Elem) (half : Nat) : UReg :=
  if half == 0 then ⟨(x.v.extractLsb' 32 32 : Elem) ++ e, true, x.hi⟩ else ⟨e ++ (x.v.setWidth 32 : Elem), x.lo, true⟩
def PReg.upset (x : PReg) (e : Elem) (lane : Nat) : PReg :=
  ⟨if e.getLsbD 0 then x.v ^^^ (1 : Mask) <<< lane else x.v, x.poi ||| (1 : Mask) <<< lane⟩
def QReg.upset (x : QReg) (e : Elem) (el : Nat) : QReg := ⟨setAt x.e el e, x.poi ||| (1 : BitVec 16) <<< el⟩
def Tile.upset (x : Tile) (e : Elem) (row col : Nat) : Tile :=
  ⟨setAt x.rows row (setAt (x.rows.getD row []) col e), setAt x.poi row (x.poi.getD row 0 ||| (1 : Mask) <<< col)⟩

/-- A word with one of its halves replaced. -/
def Word.withHalf (w : Word) (e : Elem) (half : Nat) : Word :=
  if half == 0 then (w.extractLsb' 32 32 : Elem) ++ e else e ++ (w.setWidth 32 : Elem)

/-- A 32-bit word of an entry in a deque SRAM: 32 of its image, then those of its side record (R248). -/
def Entry.upset (x : Entry) (e : Elem) (word : Nat) : Entry :=
  if word < 32 then { x with img := setAt x.img (word / 2) (Word.withHalf (x.word (word / 2)) e (word % 2)), poi := x.poi ||| (1 : BitVec 32) <<< word }
  else if word < 34 then { x with pushck := Word.withHalf x.pushck e (word % 2), sidePoi := true }
  else
    let s := Word.withHalf x.side e (word % 2)
    { x with lv := fieldOf s 38 1 == 1, lrec := fieldOf s 32 6, gen := s.extractLsb' 16 16, null := fieldOf s 15 1 == 1,
             pin := fieldOf s 14 1 == 1, who := coreNo (fieldOf s 11 3) (fieldOf s 4 7), sidePoi := true }

/-- An uncorrectable error in a stored word: its bits are free and it is poisoned. A whole-word write made before the word is read
replaces it, and so does not leave it poisoned (R403, R425). -/
def Mach.upset (m : Mach) : Site → Option Mach
  | .vreg t r i => m.upsetTask t (r < 256 && i < 32) fun e t => { t with v := tabSet t.v r ((t.vRaw r).upset e i) }
  | .ureg t r i => m.upsetTask t (r < 64 && i < 2) fun e t => { t with u := tabSet t.u r ((t.uRaw r).upset e i) }
  | .pred t r i => m.upsetTask t (r < 12 && i < 32) fun e t => { t with p := tabSet t.p r ((t.pRaw r).upset e i) }
  | .shape t r i => m.upsetTask t (r < 16 && i < 16) fun e t => { t with q := tabSet t.q r ((t.qRaw r).upset e i) }
  | .acc t r i j => m.upsetTask t (r < 256 && i < 32 && j < 32) fun e t => { t with acc := tabSet t.acc r ((t.aRaw r).upset e i j) }
  | .spad core a =>
    let (k, m') := m.fresh
    if (tabGet m.cores core).isNone || 655360 ≤ a || a % 4 != 0 then none
    else some (m'.modCore core fun x => { x with spad := x.spad.store a (toBytes 4 (Config.freeWord k).toNat) fun _ => true })
  | .l1 core a => match m.l1 core a with
    | none => none
    | some x =>
      let (k, m') := m.fresh
      if a % 4 != 0 then none else some (m'.setL1 core a (x.put a 4 ((Config.freeWord k).toNat % 2 ^ 32, 1)))
  | .l2 a => if !m.resident.contains (sectorOf a) || a % 4 != 0 then none
    else some { m.upsetWords a 1 with upsets := (a / 4, (Config.freeWord m.nextId).setWidth 32) :: m.upsets.filter fun w => w.1 != a / 4 }
  | .deque core idx word =>
    let (k, m') := m.fresh
    if (m.core core).deque.length ≤ idx || 36 ≤ word then none
    else some (m'.modCore core fun x => { x with deque := x.deque.modify idx fun e => e.upset ((Config.freeWord k).setWidth 32) word })
  | site => m.controlError site

/-- SOFT_ERROR (R403, R425): one bit changes nothing until the read that finds and corrects it, for which the event stands, and is counted in
the device log (DEDUCED, log 77); more are not correctable. -/
def execSoftError (site : Site) (bits : Nat) (s : State) : Host.Outcome State Fault Refusal :=
  event s (if bits == 0 then none
    else if bits == 1 then (s.m.upset site).map fun _ => s.m.logReason 3 0 0 0
    else s.m.upset site)

/-! ### Die-to-die links (R422, R423) -/

/-- The replays of a module that lie in the window of 2^21 ck (R423). -/
def State.replays (s : State) (link : Nat) : List Nat := (tabGetD s.fw.linkReplays link []).filter fun t => s.m.clk < t + 2 ^ 21

/-- FLIT_REPLAY (R421 to R423): a flit repeated 16 times is a fatal device error. -/
def State.replayFlit (s : State) (link seq : Nat) : Option State :=
  if !validDomain (domainNo 2 0 link) || 256 ≤ link then none
  else
    let n := match tabGet s.fw.unacked link with
      | some (q, n) => if q == seq then n + 1 else 1
      | none => 1
    let fw := { s.fw with linkReplays := tabSet s.fw.linkReplays link (s.replays link ++ [s.m.clk]),
                          unacked := tabSet s.fw.unacked link (seq, n) }
    let m := s.m.logReason 6 0 link seq
    some { s with fw := fw, m := if 16 ≤ n then m.faultAll 4 else m }

def execFlitReplay (link seq : Nat) (s : State) : Host.Outcome State Fault Refusal := firmEvent s (s.replayFlit link seq)

/-- The data lanes that a module runs with (R422, R423): 64 while its 4 spares cover the failed lanes, 32 beyond, and none where fewer than
32 good lanes of its 68 are left (DEDUCED, log 32). -/
def Firm.moduleLanes (fw : Firm) (link : Nat) : Nat :=
  let failed := (tabGetD fw.linkLanes link []).length
  if failed ≤ 4 then 64 else if failed ≤ 36 then 32 else 0

/-- A module that cannot be retrained any more (R423). -/
def Firm.linkDead (fw : Firm) (link : Nat) : Bool := fw.moduleLanes link == 0

/-- The modules of the boundary of a module (R422, R427). -/
def boundaryModules (link : Nat) : List Nat := (List.range (if link / 16 < 10 then 16 else 4)).map fun i => link / 16 * 16 + i

/-- LINK_REPAIR (R423, R431): due after more than 64 replays in a window, or for a marked module with a spare lane left. -/
def State.repairLink (s : State) (link : Nat) (badLanes : List Nat) : Option State :=
  let d := domainNo 2 0 link
  let marked : Bool := (s.fw.wearOf d).marked && !s.fw.noSpareLane link
  if !validDomain d || 256 ≤ link || badLanes.isEmpty || badLanes.any (68 ≤ ·) || !(64 < (s.replays link).length || marked) then none
  else
    let lanes := badLanes.foldl insertNat (tabGetD s.fw.linkLanes link [])
    let fw := { s.fw with linkLanes := tabSet s.fw.linkLanes link lanes, linkReplays := tabErase s.fw.linkReplays link,
                          unacked := tabErase s.fw.unacked link }
    let fw := if marked then fw.modWear d fun w => { w with marked := false, stopped := false } else fw
    let m := s.m.logReason 8 0 link lanes.length
    some { s with fw := fw.serviced, m := if (boundaryModules link).all fw.linkDead then m.faultAll 4 else m }

def execLinkRepair (link : Nat) (badLanes : List Nat) (s : State) : Host.Outcome State Fault Refusal := firmEvent s (s.repairLink link badLanes)

end Sys2Proof.Machine
end

