-- ==== Sys2Proof/Machine/Firmware.lean ====
section
/-! DEFINITION. Ageing and repair (R428 to R433, R438, R442), the firmware complexes and live update (R434 to R438), attestation (R439, R440), reset and bring-up (R441), and writes to registers (R13). -/

namespace Sys2Proof.Machine

/-! ### Samples and repairs (R428 to R433) -/

/-- What a sample does to a domain (R428). -/
def Wear.sample (w : Wear) (margin : Nat) : Wear :=
  let w := { w with margin := margin, stopped := false }
  if h : margin < 20 ∧ w.voff.val < 24 then { w with voff := ⟨w.voff.val + 1, by omega⟩ }
  else if margin < 20 then { w with marked := true }
  else w

/-- ALMANAC_SAMPLE (R427, R428): every domain is sampled; one that is not listed has kept its margin. -/
def State.sampled (s : State) (margins : List (Nat × Nat)) : Option State :=
  if margins.any fun (d, g) => !validDomain d || 4096 ≤ g then none
  else
    let domains := (margins.map (·.1)).foldl insertNat (s.fw.wear.map (·.1))
    let fw := domains.foldl (fun (fw : Firm) d => fw.modWear d fun w => w.sample (tabGetD margins d w.margin)) s.fw
    some { s with fw := { fw with seconds := fw.seconds + 1 }.serviced }

def execAlmanacSample (margins : List (Nat × Nat)) (s : State) : Host.Outcome State Fault Refusal := firmEvent s (s.sampled margins)

/-- A resident context is pre-empted for a repair; a pre-emption already pending serves (R429, R438). -/
def Mach.repairPreempt (m : Mach) (ctx : Nat) : Mach :=
  m.modCtx ctx fun c => { c with repair := true, pending := some (c.pending.getD m.clk) }

/-- A spare takes a logical number while nothing is resident: the core's release generation goes with the number (DESIGN CHOICE, log 14). -/
def Mach.replaceCore (m : Mach) (core : Nat) : Mach :=
  let m := m.writebackAll core
  m.setCore core { Core.fresh with xrgen := (m.core core).xrgen }

/-- CORE_SPARE (R429, R438): the context of the die is pre-empted; once the die is free, the lowest healthy spare takes the number of the
core, which is retired. -/
def State.spareFor (s : State) (die core : Nat) : Option State :=
  if 8 ≤ die || s.fw.updating != 0 || s.fw.legalCores != some s.m.logCores || (s.fw.wearOf (domainNo 0 die core)).healthy then none
  else match s.fw.logicalOf s.m.logCores die core, s.fw.spareCore s.m.logCores die with
    | some l, some p => match s.m.ctxOn die with
      | some x => if (s.m.ctx x).any (·.repair) then none else some { s with m := s.m.repairPreempt x }
      | none =>
        let fw := { s.fw.modWear (domainNo 0 die core) fun w => { w with retired := true } with
          sparing := tabSet s.fw.sparing (coreNo die l) p }
        some { s with fw := fw, m := (s.m.replaceCore (coreNo die l)).logReason 9 0 (coreNo die l) p }
    | _, _ => none

def coreSpareDue (die core : Nat) (s : State) : Option State :=
  s.spareFor die core
def execCoreSpare (die core : Nat) (s : State) : Host.Outcome State Fault Refusal := firmEvent s (coreSpareDue die core s)

/-- The n healthy cores of a die with the lowest VOFF, in ascending physical index (R430). -/
def Firm.bestCores (fw : Firm) (die n : Nat) : List Nat :=
  let order := sortBy (fun a b => (fw.wearOf (domainNo 0 die a)).voff ≤ (fw.wearOf (domainNo 0 die b)).voff) (fw.healthyCores die)
  sortBy (fun a b => a ≤ b) (order.take n)

/-- The sparing map with n cores a die (R430). -/
def Firm.enable (fw : Firm) (n : Nat) : Firm :=
  { fw with sparing := (List.range 8).flatMap fun d => (fw.bestCores d n).zipIdx.map fun (p, l) => (coreNo d l, p) }

/-- STEP_DOWN (R430): when no launch is in progress every resident context is pre-empted; when none is resident each die enables its
cores. -/
def State.stepped (s : State) : Option State :=
  if !s.stepDue || s.m.ctxs.any fun (_, c) => !c.launches.isEmpty then none
  else
    let there := s.m.ctxs.filter fun (_, c) => c.resident
    if there.any fun (_, c) => !c.repair then some { s with m := there.foldl (fun (m : Mach) (x, _) => m.repairPreempt x) s.m }
    else if !there.isEmpty then none
    else match s.fw.legalCores with
      | none => none
      | some n =>
        let cores := (List.range 8).flatMap fun d => s.m.dieCores d
        let m := cores.foldl (fun (m : Mach) k => m.replaceCore k) s.m
        some { s with fw := s.fw.enable n, m := { m with logCores := n }.logReason 9 1 n 0 }

def stepDownDue (s : State) : Option State :=
  s.stepped
def execStepDown (s : State) : Host.Outcome State Fault Refusal := firmEvent s (stepDownDue s)

/-- A marked channel is copied to a spare of its stack and remapped (R431). -/
def State.remapChannel (s : State) (d : Nat) : Option State :=
  match s.fw.servesChannel d, s.fw.spareChannel d with
  | some c, some p =>
    some { s with fw := { s.fw.modWear d fun w => { w with retired := true } with channels := tabSet s.fw.channels c p },
                  m := s.m.logReason 9 2 c p }
  | _, _ => none

/-- CHANNEL_SPARE (R431). -/
def channelSpareDue (channel : Nat) (s : State) : Option State :=
  if !validDomain channel || domKind channel != 3 || !(s.fw.wearOf channel).marked || (s.fw.wearOf channel).retired then none
    else s.remapChannel channel
def execChannelSpare (channel : Nat) (s : State) : Host.Outcome State Fault Refusal := firmEvent s (channelSpareDue channel s)

/-- DOMAIN_STOP (R428, R431, R432): a core issues nothing further and is retired, and the context of its die faults; a channel goes to a spare;
another domain keeps running, in SERVICE, with the core clock capped further. -/
def State.stopDomain (s : State) (d : Nat) : Option State :=
  let w := s.fw.wearOf d
  if !validDomain d || !w.marked || w.retired || w.stopped || 4 ≤ w.margin then none
  else match domKind d with
    | 0 =>
      let m := if s.enabled d then (match s.m.ctxOn (domDie d) with
        | some x => if (s.m.ctx x).any (·.faulted) then s.m else s.m.faultContext x 5
        | none => s.m) else s.m
      some { s with fw := s.fw.modWear d fun w => { w with retired := true, stopped := true }, m := m }
    | _ =>
      if domKind d == 3 && (s.fw.servesChannel d).isSome && (s.fw.spareChannel d).isSome then s.remapChannel d
      else
        let fw := s.fw.modWear d fun w => { w with stopped := true }
        let cap := if s.fw.beyondRepair d then min 8 (fw.cap + 1) else fw.cap
        some { s with fw := { fw with cap := cap }.serviced, m := if cap == fw.cap then s.m else s.m.logReason 10 0 cap d }

def domainStopDue (domain : Nat) (s : State) : Option State :=
  s.stopDomain domain
def execDomainStop (domain : Nat) (s : State) : Host.Outcome State Fault Refusal := firmEvent s (domainStopDue domain s)

/-- DEVICE_FAIL (R433). -/
def deviceFailDue (die : Nat) (s : State) : Option State :=
  if 8 ≤ die || 64 ≤ s.fw.healthOf die || s.fw.state == .failed || s.fw.state == .boot then none
    else some { s with fw := { s.fw with state := .failed }, m := s.m.faultAll 5 }
def execDeviceFail (die : Nat) (s : State) : Host.Outcome State Fault Refusal := firmEvent s (deviceFailDue die s)

/-! ### Power and temperature (R442) -/

/-- POWER_CAP: the clock of all dies is capped by steps of 125 MHz below 2.0 GHz, down to 1.0 GHz. -/
def execPowerCap (steps : Nat) (s : State) : Host.Outcome State Fault Refusal :=
  firmEvent s (if 8 < steps then none else some { s with fw := { s.fw with cap := steps } })

/-- THERMAL_TRIP: at 115 °C at the lowest cap every clock stops. -/
def execThermalTrip (celsius : Nat) (s : State) : Host.Outcome State Fault Refusal :=
  firmEvent s (if celsius < 115 || s.fw.cap != 8 then none
    else some { s with fw := { s.fw with tripped := true }, grants := [],
                       m := { s.m with out := s.m.out ++ [Out.uncorrectable] }.logReason 11 0 celsius 0 })

/-! ### Mailbox and attestation (R421, R427, R434, R439, R440) -/

/-- A register as the mailbox reads it (R13, R338, R361, R367, R374, R379, R392, R426). -/
def State.registerValue (s : State) : DevReg → Word
  | .context x i => ((s.m.ctx x).getD (Ctx.blank x)).word i
  | .trbase => s.m.trbase
  | .xdev => s.m.xdev.setWidth 64
  | .route w d => ((s.m.routes.find? fun r => r.1 == w && r.2.1 == d).map fun r => (r.2.2.setWidth 64 : Word)).getD 0 |||
      (if s.m.pdom d then 0x10000 else 0)
  | .pdom d => if s.m.pdom d then 1 else 0
  | .carveOut g => if s.m.carveOuts.contains g then 1 else 0
  | .exportGranule w g => if s.m.exports.contains (w, g) then 1 else 0
  | .group n k => BitVec.ofNat 64 ((tabGetD s.m.groups n []).getD k 0)
  | .devstat => s.devstat

/-- The answer to a mailbox or MCTP request. -/
def State.mailAnswer (s : State) : Mail → Word
  | .readRegister r => s.registerValue r
  | .readWear d => s.wearWord d
  | .readLog => Config.mailAnswer 0
  | .other code => Config.mailAnswer (code + 1)

/-- MAILBOX_REQUEST (R434, R437): served by the active complex; it waits while a live update is frozen. DEVSTAT is a register of the device,
which can be read in every state (R426). -/
def State.mail (s : State) (r : Mail) : Option State :=
  if r == .readRegister .devstat then some { s with m := { s.m with out := s.m.out ++ [Out.mail s.devstat] } }
  else if s.fw.state == .boot then none
  else if 2 ≤ s.fw.updating then some { s with fw := { s.fw with mails := s.fw.mails ++ [r] } }
  else some { s with m := { s.m with out := s.m.out ++ [Out.mail (s.mailAnswer r)] }.wakeComplexes }

def execMailboxRequest (r : Mail) (s : State) : Host.Outcome State Fault Refusal := firmEvent s (s.mail r)

/-- The requests that have waited are answered (R434, R437). -/
def State.serveMails (s : State) : State :=
  { s with fw := { s.fw with mails := [] }, m := { s.m with out := s.m.out ++ s.fw.mails.map fun r => .mail (s.mailAnswer r) } }

/-- An SPDM answer (R440): bytes that the manual does not give. -/
def State.spdm (s : State) (kind index : Nat) (input : List Byte) : Option State :=
  if s.fw.state == .boot then none
  else some { s with m := { s.m with out := s.m.out ++ [.spdm (Config.secret kind index input)] } }

/-- Bytes of a number. -/
def numBytes (n : Nat) : List Byte := toBytes 8 n

/-- What a measurement index is taken over (R439): images, the sparing map with NCORE and ACTIVE, the table's MAJOR and MINOR. -/
def State.measured (s : State) : Nat → List Byte
  | 3 => [s.fw.hesper.lo, s.fw.hesper.hi, s.fw.hesper.major, s.fw.hesper.minor, s.fw.hesper.version].flatMap numBytes
  | 4 => [s.fw.phosphor.lo, s.fw.phosphor.hi, s.fw.phosphor.major, s.fw.phosphor.minor, s.fw.phosphor.version].flatMap numBytes
  | 5 => (s.fw.sparing.flatMap fun (l, p) => numBytes l ++ numBytes p) ++ numBytes s.m.logCores ++ [if s.fw.active then 1 else 0]
  | 6 => numBytes s.fw.table.1 ++ numBytes s.fw.table.2
  | _ => []

def execGetVersion (s : State) : Host.Outcome State Fault Refusal := firmEvent s (s.spdm 1 0 [])
def execGetCapabilities (s : State) : Host.Outcome State Fault Refusal := firmEvent s (s.spdm 2 0 [])

/-- NEGOTIATE_ALGORITHMS (R440): SHA3-512 and ML-DSA-87 (numbers 0, DESIGN CHOICE, log 15) are agreed when both are offered; no other is. -/
def execNegotiateAlgorithms (hashes signatures : List Nat) (s : State) : Host.Outcome State Fault Refusal :=
  let agreed := hashes.contains 0 && signatures.contains 0
  firmEvent s ((s.spdm 3 (if agreed then 1 else 0) []).map fun t => { t with fw := { t.fw with agreed := agreed } })

def execGetDigests (s : State) : Host.Outcome State Fault Refusal := firmEvent s (s.spdm 4 0 [])
def execGetCertificate (slot offset length : Nat) (s : State) : Host.Outcome State Fault Refusal :=
  firmEvent s (s.spdm 5 slot (numBytes offset ++ numBytes length))
def execChallenge (slot : Nat) (nonce : List Byte) (s : State) : Host.Outcome State Fault Refusal :=
  firmEvent s (s.spdm 6 slot (nonce ++ (List.range 7).flatMap s.measured))

/-- GET_MEASUREMENTS (R439, R440): the indices 1 to 6 as they stand. -/
def execGetMeasurements (index : Nat) (nonce : List Byte) (s : State) : Host.Outcome State Fault Refusal :=
  firmEvent s (if index == 0 || 6 < index then none else s.spdm 7 index (nonce ++ s.measured index))

/-! ### Heartbeat and live update (R434 to R438) -/

/-- The image of the standby. -/
def Firm.standbyImage (fw : Firm) : FwImage := if fw.active then fw.hesper else fw.phosphor
def Firm.setStandbyImage (fw : Firm) (i : FwImage) : Firm := if fw.active then { fw with hesper := i } else { fw with phosphor := i }

/-- The standby becomes active (R434, R435, R437). -/
def State.flip (s : State) (standby newTable : Bool) : State :=
  let i := s.fw.standbyImage
  { s with fw := { s.fw with active := !s.fw.active, standby := standby, updating := 0, takeovers := s.fw.takeovers + 1,
                             heartbeat := s.m.clk, table := if newTable then (i.major, i.minor) else s.fw.table } }.serveMails

/-- HEARTBEAT_MISS (R434, R438): a live update is abandoned; a standby with a new image takes over only if its import has succeeded. -/
def execHeartbeatMiss (s : State) : Host.Outcome State Fault Refusal :=
  firmEvent s (if s.fw.state == .boot || !s.fw.standby || s.m.clk < s.fw.heartbeat + 2 ^ 26 then none
    else if s.fw.updating == 1 || s.fw.updating == 2 then some { s with fw := { s.fw with updating := 0 } }.serveMails
    else some (s.flip false (s.fw.updating == 3)))

/-- The header of the state table (R435): MAJOR, MINOR and LEN; the takeovers since reset; the offsets of the sections QUEUES, CONTEXTS, ROUTES,
COLLECTIVES, PENDING and ALMANAC; and from +64 the digest. The sections are the firmware's own (DESIGN CHOICE, log 82). -/
def State.tableHeader (s : State) : List Word :=
  [BitVec.ofNat 64 (2 ^ 48 * s.fw.table.1 + 2 ^ 32 * s.fw.table.2 + (Config.tableWord s.fw.takeovers 0).toNat % 2 ^ 32),
   BitVec.ofNat 64 s.fw.takeovers] ++ (List.range 14).map fun i => Config.tableWord s.fw.takeovers (i + 1)

/-- LIVE_UPDATE_LOAD (R437, R439): an image whose signature or security version fails does not run, and nothing changes. -/
def execLiveUpdateLoad (lo hi major minor version : Nat) (signed : Bool) (s : State) : Host.Outcome State Fault Refusal :=
  firmEvent s (if s.fw.state == .boot || !s.fw.standby || s.fw.updating != 0 then none
    else if !signed || version < s.fw.version then some s
    else some { s with fw := { s.fw.setStandbyImage ⟨lo, hi, major, minor, version⟩ with updating := 1 } })

/-- LIVE_UPDATE_FREEZE (R437): UPD := 1; no packet starts from then on. -/
def execLiveUpdateFreeze (s : State) : Host.Outcome State Fault Refusal :=
  firmEvent s (if s.fw.updating != 1 then none else some { s with fw := { s.fw with updating := 2 } })

/-- STATE_TABLE_IMPORT (R435 to R437): MAJOR lies in the range of the image, the digest matches and every section converts; an import that
fails leaves the old complex active and UPD 0. -/
def execStateTableImport (converts : Bool) (s : State) : Host.Outcome State Fault Refusal :=
  let i := s.fw.standbyImage
  let good := converts && i.lo ≤ s.fw.table.1 && s.fw.table.1 ≤ i.hi
  firmEvent s (if s.fw.updating != 2 then none
    else if good then some { s with fw := { s.fw with updating := 3 } }
    else some { s with fw := { s.fw with updating := 0 } }.serveMails)

/-- TAKEOVER (R437). -/
def execTakeover (s : State) : Host.Outcome State Fault Refusal := firmEvent s (if s.fw.updating != 3 then none else some (s.flip true true))

/-! ### Reset and bring-up (R441) -/

/-- Memory without the bytes and poison of some 512 MiB granules. -/
def Memory.without (mem : Memory) (granules : List Nat) : Memory :=
  ⟨mem.cells.filter fun c => !granules.contains (c.1 / 2 ^ 29), mem.poi.filter fun w => !granules.contains (4 * w / 2 ^ 29)⟩

/-- Everything that a reset loses is gone, with the contents of the secure carve-outs, whose keys are drawn anew, and STATE reads BOOT; the
rest of memory stands, error records among it (R9, R405, R441; DEDUCED, log 35). No task waits on a future any more (R314). -/
def State.lost (s : State) : State :=
  { m := { Mach.empty with mem := ((s.m.writeRecords.unlinkWhere fun _ => true).mem).without s.m.carveOuts, keys := s.m.keys + 1, out := s.m.out, deviceLog := s.m.deviceLog, logCores := s.m.logCores, nextId := s.m.nextId },
    fw := { s.fw with state := .boot, standby := false, updating := 0, takeovers := 0, heartbeat := 0, powered := true, tripped := false, cap := 0,
                      linkReplays := [], unacked := [], agreed := false, mails := [] },
    sched := s.sched, grants := [], granted := false }

/-- A firmware complex (R39, R88): it executes in supervisor mode and only the uniform subset, in the system context's translation, with its
accesses made as those of a core of its own I/O die; its instructions come from outside (DESIGN CHOICE, log 81). -/
def complexTask (phosphor : Bool) (clk : Nat) : Task :=
  let core := coreNo (if phosphor then 9 else 8) 0
  { startTask systemContext core (complexTid phosphor) ⟨List.replicate 16 0, 0, 0, false, 0, 0, true, false, 0, false⟩
      ⟨0, 0, 0, ⟨0, 8, 0, false⟩, 0, none⟩ [] 0 clk (2 ^ 60 + if phosphor then 2 ^ 59 else 0) with state := .ready, supervisor := true, onComplex := true }

/-- Both complexes start (R434, R441). -/
def Mach.startComplexes (m : Mach) : Mach :=
  [false, true].foldl (fun (m : Mach) p => m.setTask (complexTid p) (complexTask p m.clk)) m

/-- The bring-up order (R441): the recorded complex becomes active, N is applied, STATE is set as R431 and R433 say. -/
def State.bringUp (s : State) : State :=
  let fw := { s.fw with standby := true, state := .normal }
  let s := { s with m := { s.m with xclk := 0 }.startComplexes }
  match fw.legalCores with
  | none => { s with fw := { fw with state := .failed } }
  | some n =>
    let fw := if n == s.m.logCores then fw else fw.enable n
    { s with fw := fw.serviced, m := { s.m with logCores := n } }

/-- The next part of a reset (R441, R442): what it loses; and then, in BOOT, the bring-up order. -/
def State.resetStep (s : State) : State := if s.fw.powered && s.fw.state == .boot && !s.fw.tripped then s.bringUp else s.lost

/-- COLD_RESET (R441): power returns, or the device is reset as it runs. -/
def execColdReset (s : State) : Host.Outcome State Fault Refusal := .next s.resetStep

/-- WARM_RESET (R441, R442): a thermal trip is over. -/
def execWarmReset (s : State) : Host.Outcome State Fault Refusal :=
  if !s.fw.powered then .fault .clocksStopped else .next s.resetStep

/-- MODULE_UNPOWERED (R427). -/
def execModuleUnpowered (s : State) : Host.Outcome State Fault Refusal :=
  if !s.fw.powered then .fault .clocksStopped
  else
    let t := s.lost
    .next { t with fw := { t.fw with powered := false } }

/-- CONFIGURATION_REQUEST (R441): Request Retry Status until step 7 of the bring-up; then an answer that the manual does not give. -/
def execConfigurationRequest (offset : Nat) (write : Option Elem) (s : State) : Host.Outcome State Fault Refusal :=
  let (k, m) := s.m.fresh
  let retry := s.fw.state == .boot
  let value : Elem := if retry || write.isSome || offset % 4 != 0 then 0 else (Config.freeWord k).setWidth 32
  event s (some { m with out := m.out ++ [.config retry value] })

/-! ### Register writes (R13) -/

/-- The bits of word i of a context record that a write changes (R13, R247, R338, R339, R352): not RSV, not RO. -/
def recordMask (i : Nat) : Word := match i with
  | 0 => 0xCCFF_0000_0000_0000
  | 1 => 0xF_FFFF
  | 2 => 0xFF_FFFF
  | 3 => 0xFF_FFFF_FFFF
  | 4 => 0x0000_FF1F_FF00_FF00
  | 5 => 0xFFFF_01FF
  | 6 => 0xFF_FFFF_FFFF
  | 7 => 0xFFFF_FFFF_FFFF
  | 25 => 0xFFFF_FFFF
  | _ => if 26 ≤ i then 0 else 0xFFFF_FFFF_FFFF_FFFF

/-- A write of word i that makes a context exist (R339). -/
def Ctx.starts (c : Ctx) (i : Nat) (v : Word) : Bool := i == 0 && v.getLsbD 63 && !(c.word 0).getLsbD 63

/-- Firmware writes a word of a context record (R338, R339): RO and RSV bits keep their value, FAULTED is cleared; a context that comes
to exist starts with nothing. -/
def Ctx.writeWord (c : Ctx) (i : Nat) (v : Word) : Ctx :=
  let c := if c.starts i v then { c with framesUsed := [], parked := [], launches := [], prqPos := 0, prqPosted := [], engineWaits := [],
                                         faultPage := [], carry := [] } else c
  let r := c.record.set i ((v &&& recordMask i) ||| (c.word i &&& ~~~recordMask i))
  { c with record := r.set 0 (r.getD 0 0 &&& ~~~((3 : Word) <<< 60)), faulted := false }

/-- The routes with one destination's mask replaced. -/
def setRoute (l : List (Bool × Nat × BitVec 16)) (w : Bool) (d : Nat) (v : BitVec 16) : List (Bool × Nat × BitVec 16) :=
  l.filter (fun r => r.1 != w || r.2.1 != d) ++ [(w, d, v)]

/-- REGISTER_WRITE (R13, R338, R361, R367, R374, R379, R392, R410, R426). -/
def Mach.writeRegister (m : Mach) (v : Word) : DevReg → Option Mach
  | .context x i =>
    let c := (m.ctx x).getD (Ctx.blank x)
    if 256 ≤ x || 32 ≤ i || c.resident then none
    else some { m with ctxs := tabSet m.ctxs x (c.writeWord i v)
                       -- the creation numbers of a context count from 0 (R38)
                       dies := if c.starts i v then m.dies.map fun (d, k) => (d, { k with serial := tabErase k.serial x }) else m.dies }
  | .trbase => some { m with trbase := v }
  | .xdev => some { m with xdev := v.setWidth 12 }
  | .route w d => if 4096 ≤ d then none
    else some { m with routes := setRoute m.routes w d (v.setWidth 16), pdoms := tabSet m.pdoms d (fieldOf v 16 1) }
  | .pdom d => if 4096 ≤ d then none else some { m with pdoms := tabSet m.pdoms d (fieldOf v 0 1) }
  | .carveOut g => if 2048 ≤ g then none
    else some { m with carveOuts := if v.getLsbD 0 then insertNat m.carveOuts g else m.carveOuts.filter (· != g) }
  | .exportGranule w g => if 2048 ≤ g then none
    else some { m with exports := if v.getLsbD 0 then (w, g) :: m.exports.filter (· != (w, g)) else m.exports.filter (· != (w, g)) }
  | .group n k => if 256 ≤ n || 4100 ≤ k then none
    else
      let l := tabGetD m.groups n []
      some { m with groups := tabSet m.groups n ((l ++ List.replicate (k + 1 - l.length) 0).set k v.toNat), collNext := tabErase m.collNext n }
  | .devstat => some m

def execRegisterWrite (reg : DevReg) (value : Word) (s : State) : Host.Outcome State Fault Refusal := event s (s.m.writeRegister value reg)

end Sys2Proof.Machine
end

