-- ==== Sys2Proof/Machine/Sched.lean ====
section
/-! DEFINITION. Time: the events that may be due (DESIGN CHOICE, log 1), what the end of a cycle does (R37, R71, R256, R259, R415), and the instruction that a grant names. -/

namespace Sys2Proof.Machine

/-! ### Events that may be due -/

/-- An event that may be due: the state after it, or none. -/
abbrev Event := State → Option State

/-- Events of the machine. -/
def machEvents (l : List (State → Option Mach)) : List Event := l.map fun f s => (f s).map fun m => { s with m := m }

/-- The events of one task; a stop by the watchdog comes before anything else of a cycle (R416). -/
def taskEvents (n : Nat) (t : Task) : List (State → Option Mach) :=
  [watchdogStopDue n] ++ (t.pend.map fun o => flagCompletionDue n o.id) ++ [mtileStepRetireDue n] ++ ((List.range 8).map (joinCompleteDue n)) ++
  [splitPlacementDue n] ++ ((List.range 4).flatMap fun e => [splitMergeDue n e, waitSatisfiedDue n e, haltTimeoutDue n e, promotionDue n e]) ++
  [parkDue n]

/-- The events of one team. -/
def teamEvents (n : Nat) : List (State → Option Mach) :=
  [stagingCompleteDue n, stagingFaultDue n, teamFutureCompletionDue n, discardTeamDue n, quiescenceParkDue n]

/-- The events of one core. -/
def coreEvents (c : Nat) : List (State → Option Mach) :=
  [l1CapacityDue c, stealReplyDue c, resumeDue c, admitEntryDue c, refillDue c, takeEntryDue c, crossDieStealDue c, stealRequestServedDue c]

/-- The events of one context. -/
def ctxEvents (x : Nat) (c : Ctx) : List (State → Option Mach) :=
  (c.parked.map fun p => resumeEntryCreateDue x p.frame) ++ (c.prqPosted.map fun r => pageRequestResponseDue x r.2.2) ++
  (c.launches.map fun (n, _) => launchCompleteDue x n) ++
  [graceExpiryDue x, preemptWithdrawDue x, preemptPendingDue x, sliceExpiryDue x, switchOutDue x, switchInDue x c.place]

/-- The events of one hardware queue. -/
def queueEvents (q : Nat) : List (State → Option Mach) :=
  [nopPacketDue q, launchRootDue q, launchTileDue q, copyDue q, signalDue q, waitDue q, writeThenSignalDue q, fencePacketDue q,
   collectiveDue q, queueInitEnableDue q, queueInitDisableDue q, timestampDue q]

/-- The events of the engine of a spawn queue. -/
def spawnQueueEvents (q : Nat) (x : SpawnQ) : List (State → Option Mach) :=
  (x.tiles.map fun (k, _) => queueTileEndDue q k) ++ [flushTimerExpiryDue q, queueSpawnDue q]

/-- The events of one die. -/
def dieEvents (d : Nat) (x : Die) : List (State → Option Mach) :=
  [l2CapacityDue d, tlbMissWalkDue d] ++ x.walks.flatMap fun (n, _) => [walkCompleteDue d n, walkBoundExceededDue d n]

/-- The repairs that may be due (R429 to R433). -/
def repairEvents (s : State) : List Event :=
  (s.fw.wear.flatMap fun (d, w) =>
    if !w.marked && !w.retired then []
    else (if domKind d == 0 then [coreSpareDue (domDie d) (domPhys d), deviceFailDue (domDie d)] else if domKind d == 3 then [channelSpareDue d] else []) ++
      [domainStopDue d]) ++ [stepDownDue]

/-- The tasks by core, partition and slot: the order in which their accesses of a cycle reach a slice, one after the other (R296). -/
def Mach.tasksInOrder (m : Mach) : List (Nat × Task) :=
  let place := fun (t : Task) => (t.core * 4 + t.part) * 16 + t.slot
  sortBy (fun a b => place a.2 ≤ place b.2) m.tasks

/-- The events of the machine, in the order in which the model tries them (DESIGN CHOICE, log 1). -/
def Mach.events (m : Mach) : List (State → Option Mach) :=
  (m.tasksInOrder.flatMap fun (n, t) => taskEvents n t) ++ (m.teams.flatMap fun (n, _) => teamEvents n) ++
  (m.copies.map fun (n, _) => copyCompletionDue n) ++ ((List.range m.credits.length).map barrierCreditDue) ++
  (m.dies.flatMap fun (d, x) => dieEvents d x) ++ (m.ctxs.flatMap fun (x, c) => ctxEvents x c) ++
  (m.ctxs.flatMap fun (_, c) => c.dies.flatMap fun d => (m.dieCores d).flatMap coreEvents) ++
  (m.collectives.map fun c => collectiveEndEarlyDue c.group c.cseq) ++ (m.queues.flatMap fun (q, _) => queueEvents q) ++ (m.spawnqs.flatMap fun (q, x) => spawnQueueEvents q x) ++
  (m.remoteWaits.map fun x => waitregDue x.frame) ++ (m.wanted.map fpcEvictionDue) ++
  (m.requests.map fun (n, _) => frameRetransmitDue n) ++ [meridianPublishDue]

/-- Every event that may be due. The bring-up order runs first. -/
def dueEvents (s : State) : List Event :=
  if s.fw.state == .boot then [fun s => some s.resetStep] else repairEvents s ++ machEvents s.m.events

/-! ### The end of a cycle -/

/-- A wait for a host page or a shared page as a cycle ends: it waits as for a walk, and exceeds the walk bound 4,096 ck after its miss (R364, R372, R387). -/
def Wait.late (w : Wait) (clk : Nat) : Wait := match w.hold with
  | .ats _ _ | .shared _ _ _ => { w with overdue := w.overdue || decide (w.since + 4096 ≤ clk + 1) }
  | _ => w

/-- What the end of a cycle does to a task: the flags as they read at its end (R71), the watchdog count (R415), its state (R256). -/
def Mach.ageTask (m : Mach) (t : Task) : Task :=
  let t := m.restate t
  { t with splits := t.splits.map fun o => o.map fun s => { s with wait := s.wait.map fun w => w.late m.clk },
           cfPrev := t.cf, wdog := if t.progressed || t.ending.isSome then 0 else t.wdog + 1, progressed := false }

/-- Whether a core of a die is at step 4 of R253: it seeks, and its die has nothing for it. -/
def Mach.atStep4 (m : Mach) (c : Ctx) (ctx die : Nat) : Bool :=
  !c.pending.isSome && (m.inboxNext c ctx die).isNone && (m.dieCores die).any fun k => m.seeks k && m.bare k

/-- The starvation count of a die (R259). -/
def Mach.ageDie (m : Mach) (die : Nat) : Mach :=
  match m.ctxOn die with
  | none => m
  | some ctx => match m.ctx ctx with
    | none => m
    | some c =>
      let seek := m.atStep4 c ctx die
      m.modDie die fun d => { d with
        took := []
        starve := tabSet d.starve ctx (if d.took.contains ctx || !seek then 0 else tabGetD d.starve ctx 0 + 1) }

/-- Pushes that wait for room (R251). -/
def Mach.drainAll (m : Mach) : Mach := m.cores.foldl (fun (m : Mach) (k, _) => match m.ctxOn (dieOf k) with
  | some ctx => m.drainPushing k ctx
  | none => m) m

/-- Ordered updates whose holders have all answered (R390). -/
def Mach.finishAll (m : Mach) : Mach := m.pages.foldl (fun (m : Mach) p =>
  if p.home == m.xdev.toNat && p.updates.any (·.awaiting.isEmpty) then m.finishUpdates p.addr else m) m

/-- Whether an entry of a task's split table still waits in JOINF, or is parked there (R314). -/
def Mach.linked (m : Mach) (tid e : Nat) : Bool :=
  let joining := fun (ws : List (Nat × Wait)) => ws.any fun x => x.1 == e && match x.2.ins with
    | .joinf _ => true
    | _ => false
  (m.task tid).any (fun t => joining (t.waits ++ t.resumes)) || m.ctxs.any fun (_, c) => c.parked.any fun k => k.tid == tid && joining k.waits

/-- The LINK words of the futures that no task waits on any more are zero again (R314). -/
def Mach.unlink (m : Mach) : Mach := m.unlinkWhere fun l => !m.linked l.tid l.e

/-- Every update is seen by the waits on its object: a wait that it satisfies keeps the object as it then stands (R199, R382). -/
def Mach.noteWaits (m : Mach) : Mach :=
  let see := fun (l : Link) => if l.got.isSome then l else
    let d := m.mem.load l.pa 32
    { l with got := if futureReady d then some d else none }
  { m with links := m.links.map see, remoteWaits := m.remoteWaits.map m.seeRemote }

/-- The outcome of a step once the waits on objects have seen it. -/
def noted : Host.Outcome State Fault Refusal → Host.Outcome State Fault Refusal
  | .next s => .next { s with m := s.m.noteWaits }
  | r => r

/-- The clock (R37): xclk goes on by 1, or holds what SWR wrote. -/
def Mach.tickClock (m : Mach) : Mach := { m with clk := m.clk + 1, xclk := m.xclkNext.getD (m.xclk + 1), xclkNext := none }

/-- The end of a cycle. -/
def Mach.tick (m : Mach) : Mach :=
  let m := m.settleAll.drainAll.sequenceAll.servePages.finishAll
  let m := { m with tasks := m.tasks.map fun (x : Nat × Task) => (x.1, m.ageTask x.2) }
  let m := (List.range 8).foldl (fun (m : Mach) d => m.ageDie d) m
  m.listRunnable.unlink.writeRecords.tickClock

def State.tick (s : State) : State := { s with m := s.m.tick, granted := false }

/-! ### Grants -/

/-- ISSUE_GRANT (R239): the grants of the cycle. The cycle of grants already made ends first; with grants still to issue there is none. -/
def execIssueGrant (s : State) : Host.Outcome State Fault Refusal :=
  if !s.live then .fault .clocksStopped
  else if !s.grants.isEmpty then .next s
  else
    let s := if s.granted then s.tick else s
    let (gs, m) := s.m.grants
    .next { s with m := m, grants := gs, granted := true }

/-- What the first grant of the cycle comes to: the split that has it is gone or may not issue, its slot holds no instruction, or the
instruction that it issues. -/
inductive Granted where
  | stale
  | reserved (tid e : Nat) (s : Split) (op : BitVec 8)
  | instr (i : Instr)
deriving DecidableEq, Repr

/-- The words at the slot of a split. -/
def Mach.fetch (m : Mach) (pa slot : Nat) : Word × Word := ((m.mem.word64 (pa + 8 * slot)).1, (m.mem.word64 (pa + 8 * slot + 8)).1)

/-- Read the instruction of a grant. -/
def Mach.granted (m : Mach) (g : Nat × Nat) : Granted :=
  match m.task g.1 with
  | none => .stale
  | some t => match t.split g.2 with
    | none => .stale
    | some x => match x.pa with
      | none => .stale
      | some pa =>
        if !t.live || x.held || x.wait.isSome then .stale
        else
          let (w, ext) := m.fetch pa x.slot
          match extract w ext with
          | some i => .instr i
          | none => .reserved g.1 g.2 x (opOf w)

/-- A reserved major opcode (R89). -/
def reservedFault : EncFault := ⟨2, 0, 0⟩

/-! ### Placing an instruction where the next step fetches it -/

/-- The clause that a task placed from outside stands at: virtual and physical address. -/
def placedClause : Nat := 0x10000

/-- The entry of a task placed from outside: a closure with no future. -/
def placedEntry : Entry := ⟨List.replicate 16 0, 0, 0, false, 0, 0, true, false, 0, false⟩

/-- A task placed from outside, at slot 1 of its clause: of the system context, with the largest allotment (DESIGN CHOICE, log 24). -/
def placedTask : Task :=
  { startTask systemContext 0 0 placedEntry ⟨0, 0, 0, ⟨32, 8, 8, false⟩, 0, none⟩ (List.range 64) 0 0 0 with
    state := .ready, splits := [some { startSplit (BitVec.ofNat 64 placedClause) 0 with pa := some placedClause, readyAt := 0 }, none, none, none] }

/-- A header for one instruction at slot 1 (R65): NSLOT, and the set flags cf0 and cf1. -/
def placedHeader (slots : Nat) : Word := BitVec.ofNat 64 (2 ^ 22 * slots + 2 ^ 12 + 2 ^ 17 + 2 ^ 18)

/-- The clause with one instruction at slot 1. -/
def Memory.placeWords (mem : Memory) (pa : Nat) (w ext : Word) : Memory :=
  let slots := match extract w ext with
    | some i => slotsOf i
    | none => 1
  ((mem.setWord64 pa (placedHeader slots)).setWord64 (pa + 8) w).setWord64 (pa + 16) ext

/-- Store words where the split of the first grant fetches; it then stands at slot 1. -/
def Mach.placeAtGrant (m : Mach) (tid e pa : Nat) (w ext : Word) : Mach :=
  { m with mem := m.mem.placeWords pa w ext }.modTask tid fun t => t.modSplit e fun x => { x with slot := 1 }

/-- Put a task into the machine whose split has the first grant. -/
def State.placeTask (s : State) (w ext : Word) : State :=
  let (n, m) := s.m.fresh
  let t := placedTask
  let m := m.setTeam 0 (m.newTeam 0 systemContext placedEntry 0 0 0)
  { s with m := (m.setTask n t).placeAtGrant n 0 placedClause w ext, grants := (n, 0) :: s.grants }

/-- The machine with one instruction where the next step fetches it. -/
def State.placeInstr (s : State) (w ext : Word) : State :=
  match s.grants with
  | [] => s.placeTask w ext
  | g :: _ => match s.m.granted g, ((s.m.task g.1).bind (·.split g.2)).bind (·.pa) with
    | .stale, _ => s.placeTask w ext
    | _, some pa => { s with m := s.m.placeAtGrant g.1 g.2 pa w ext }
    | _, none => s.placeTask w ext

end Sys2Proof.Machine
end

