-- ==== Sys2Proof/Machine/Uniform.lean ====
section
/-! DEFINITION. The uniform instructions SMOV to SBFI and SLI (R99, R103 to R105). -/

namespace Sys2Proof.Machine

/-- Operands A, B (register or IMM16) and C of a uniform instruction at its type's width (R103). -/
def Task.uniA (t : Task) (x : FS) : Nat × Bool := t.uniOpnd 1 x.a.toNat (opWidth x.ty)
def Task.uniB (t : Task) (x : FS) : Nat × Bool :=
  if x.imb then (immS x.ty x.imm (opWidth x.ty), false) else t.uniOpnd 2 x.b.toNat (opWidth x.ty)
def Task.uniC (t : Task) (x : FS) : Nat × Bool := t.uniOpnd 3 x.c.toNat (opWidth x.ty)

/-- A uniform instruction that writes sD with a result of its type (R99). -/
def uniBody (x : FS) (f : Task → Nat × Bool) (m : Mach) (ι : Iss) : Res :=
  .done (ι.mod m fun t => t.writeU x.d.toNat (uniResult x.ty (f ι.t)))

/-- A result of A alone, of A and B, and of A, B and C: poisoned if an operand it reads is (R61). -/
def uni1 (x : FS) (f : Nat → Nat) (t : Task) : Nat × Bool := (f (t.uniA x).1, (t.uniA x).2)
def uni2 (x : FS) (f : Nat → Nat → Nat) (t : Task) : Nat × Bool := (f (t.uniA x).1 (t.uniB x).1, (t.uniA x).2 || (t.uniB x).2)
def uni3 (x : FS) (f : Nat → Nat → Nat → Nat) (t : Task) : Nat × Bool :=
  (f (t.uniA x).1 (t.uniB x).1 (t.uniC x).1, (t.uniA x).2 || (t.uniB x).2 || (t.uniC x).2)

/-- An exact integer result of A and B, wrapped or clamped (R51). -/
def uniInt2 (x : FS) (f : Int → Int → Int) : Task → Nat × Bool :=
  uni2 x fun a b => narrow x.ty x.sat (f (intVal x.ty a) (intVal x.ty b))

/-- SMOV (R103). -/
def execSmov (x : FS) (s : State) := issue (.smov x) (uniBody x fun t => t.uniB x) s
/-- SADD (R103). -/
def execSadd (x : FS) (s : State) := issue (.sadd x) (uniBody x (uniInt2 x (· + ·))) s
/-- SSUB (R103). -/
def execSsub (x : FS) (s : State) := issue (.ssub x) (uniBody x (uniInt2 x (· - ·))) s
/-- SMUL (R103). -/
def execSmul (x : FS) (s : State) := issue (.smul x) (uniBody x (uniInt2 x (· * ·))) s
/-- SMULH (R103). -/
def execSmulh (x : FS) (s : State) := issue (.smulh x) (uniBody x (uni2 x (mulHigh x.ty))) s
/-- SMAD (R103). -/
def execSmad (x : FS) (s : State) := issue (.smad x) (uniBody x (uni3 x fun a b c =>
  narrow x.ty x.sat (intVal x.ty a * intVal x.ty b + intVal x.ty c))) s
/-- SAND (R103). -/
def execSand (x : FS) (s : State) := issue (.sand x) (uniBody x (uni2 x (· &&& ·))) s
/-- SOR (R103). -/
def execSor (x : FS) (s : State) := issue (.sor x) (uniBody x (uni2 x (· ||| ·))) s
/-- SXOR (R103). -/
def execSxor (x : FS) (s : State) := issue (.sxor x) (uniBody x (uni2 x (· ^^^ ·))) s
/-- SNOT (R103). -/
def execSnot (x : FS) (s : State) := issue (.snot x) (uniBody x (uni1 x fun a => 2 ^ opWidth x.ty - 1 - a)) s
/-- SSHL (R103). -/
def execSshl (x : FS) (s : State) := issue (.sshl x) (uniBody x (uni2 x (shiftLeft (opWidth x.ty)))) s
/-- SSHR (R103). -/
def execSshr (x : FS) (s : State) := issue (.sshr x) (uniBody x (uni2 x (shiftRight (opWidth x.ty)))) s
/-- SSAR (R103). -/
def execSsar (x : FS) (s : State) := issue (.ssar x) (uniBody x (uni2 x (shiftArith (opWidth x.ty)))) s
/-- SMIN (R103). -/
def execSmin (x : FS) (s : State) := issue (.smin x) (uniBody x (uni2 x (minInt x.ty))) s
/-- SMAX (R103). -/
def execSmax (x : FS) (s : State) := issue (.smax x) (uniBody x (uni2 x (maxInt x.ty))) s
/-- SCMP (R103): 1 or 0 as a 64-bit value. -/
def execScmp (x : FS) (s : State) := issue (.scmp x) (uniBody x (uni2 x fun a b =>
  if intCond x.sub.toNat (intVal x.ty a) (intVal x.ty b) then 1 else 0)) s
/-- SSEL (R103): poison from c and from the operand selected (R61). -/
def execSsel (x : FS) (s : State) := issue (.ssel x) (uniBody x fun t =>
  let sel := if (t.uniC x).1 != 0 then t.uniA x else t.uniB x
  (sel.1, sel.2 || (t.uniC x).2)) s
/-- SPOPC (R103). -/
def execSpopc (x : FS) (s : State) := issue (.spopc x) (uniBody x (uni1 x (popBits (opWidth x.ty)))) s
/-- SCLZ (R103). -/
def execSclz (x : FS) (s : State) := issue (.sclz x) (uniBody x (uni1 x (leadZeros (opWidth x.ty)))) s
/-- SBFE (R104). -/
def execSbfe (x : FS) (s : State) := issue (.sbfe x) (uniBody x (uni2 x (fieldExtract x.ty))) s
/-- SBFI (R104). -/
def execSbfi (x : FS) (s : State) := issue (.sbfi x) (uniBody x (uni3 x fun a ctl c => fieldInsert (opWidth x.ty) a c ctl)) s

/-- The value that SLI and VLI write (R105). -/
def immLoad (x : FX) : Nat :=
  if x.sub == 1 then x.ext.toNat else if wide x.ty then imm48 x.ty x.ext else x.ext.toNat % 2 ^ 32

/-- SLI (R105): a 32-bit result extended as R99 gives, unpoisoned. -/
def execSli (x : FX) (s : State) := issue (.sli x) (fun m ι =>
  .done (ι.mod m fun t => t.writeU x.d.toNat (uniResult x.ty (immLoad x, false)))) s

end Sys2Proof.Machine
end

