-- ==== Sys2Proof/Machine/Dispatch.lean ====
section
/-! DEFINITION. The dispatch of an instruction or event to its meaning. -/

namespace Sys2Proof.Machine

def exec (i : Instr) (s : State) : Host.Outcome State Fault Refusal :=
  match i with
  | .bra a0 => Sys2Proof.Machine.execBra a0 s
  | .brp a0 => Sys2Proof.Machine.execBrp a0 s
  | .brx a0 => Sys2Proof.Machine.execBrx a0 s
  | .brxVector a0 => Sys2Proof.Machine.execBrxVector a0 s
  | .sbrz a0 => Sys2Proof.Machine.execSbrz a0 s
  | .sbrnz a0 => Sys2Proof.Machine.execSbrnz a0 s
  | .call a0 => Sys2Proof.Machine.execCall a0 s
  | .ret a0 => Sys2Proof.Machine.execRet a0 s
  | .jset a0 => Sys2Proof.Machine.execJset a0 s
  | .jwait a0 => Sys2Proof.Machine.execJwait a0 s
  | .jdrop a0 => Sys2Proof.Machine.execJdrop a0 s
  | .exit a0 => Sys2Proof.Machine.execExit a0 s
  | .nop a0 => Sys2Proof.Machine.execNop a0 s
  | .smov a0 => Sys2Proof.Machine.execSmov a0 s
  | .sli a0 => Sys2Proof.Machine.execSli a0 s
  | .sadd a0 => Sys2Proof.Machine.execSadd a0 s
  | .ssub a0 => Sys2Proof.Machine.execSsub a0 s
  | .smul a0 => Sys2Proof.Machine.execSmul a0 s
  | .smulh a0 => Sys2Proof.Machine.execSmulh a0 s
  | .smad a0 => Sys2Proof.Machine.execSmad a0 s
  | .sand a0 => Sys2Proof.Machine.execSand a0 s
  | .sor a0 => Sys2Proof.Machine.execSor a0 s
  | .sxor a0 => Sys2Proof.Machine.execSxor a0 s
  | .snot a0 => Sys2Proof.Machine.execSnot a0 s
  | .sshl a0 => Sys2Proof.Machine.execSshl a0 s
  | .sshr a0 => Sys2Proof.Machine.execSshr a0 s
  | .ssar a0 => Sys2Proof.Machine.execSsar a0 s
  | .smin a0 => Sys2Proof.Machine.execSmin a0 s
  | .smax a0 => Sys2Proof.Machine.execSmax a0 s
  | .scmp a0 => Sys2Proof.Machine.execScmp a0 s
  | .ssel a0 => Sys2Proof.Machine.execSsel a0 s
  | .spopc a0 => Sys2Proof.Machine.execSpopc a0 s
  | .sclz a0 => Sys2Proof.Machine.execSclz a0 s
  | .sbfe a0 => Sys2Proof.Machine.execSbfe a0 s
  | .sbfi a0 => Sys2Proof.Machine.execSbfi a0 s
  | .vmov a0 => Sys2Proof.Machine.execVmov a0 s
  | .vli a0 => Sys2Proof.Machine.execVli a0 s
  | .vadd a0 => Sys2Proof.Machine.execVadd a0 s
  | .vsub a0 => Sys2Proof.Machine.execVsub a0 s
  | .vmul a0 => Sys2Proof.Machine.execVmul a0 s
  | .vmulh a0 => Sys2Proof.Machine.execVmulh a0 s
  | .vmad a0 => Sys2Proof.Machine.execVmad a0 s
  | .vmadw a0 => Sys2Proof.Machine.execVmadw a0 s
  | .vaddc a0 => Sys2Proof.Machine.execVaddc a0 s
  | .vabs a0 => Sys2Proof.Machine.execVabs a0 s
  | .vneg a0 => Sys2Proof.Machine.execVneg a0 s
  | .vmin a0 => Sys2Proof.Machine.execVmin a0 s
  | .vmax a0 => Sys2Proof.Machine.execVmax a0 s
  | .vand a0 => Sys2Proof.Machine.execVand a0 s
  | .vor a0 => Sys2Proof.Machine.execVor a0 s
  | .vxor a0 => Sys2Proof.Machine.execVxor a0 s
  | .vnot a0 => Sys2Proof.Machine.execVnot a0 s
  | .vshl a0 => Sys2Proof.Machine.execVshl a0 s
  | .vshr a0 => Sys2Proof.Machine.execVshr a0 s
  | .vsar a0 => Sys2Proof.Machine.execVsar a0 s
  | .vrot a0 => Sys2Proof.Machine.execVrot a0 s
  | .vbfe a0 => Sys2Proof.Machine.execVbfe a0 s
  | .vbfi a0 => Sys2Proof.Machine.execVbfi a0 s
  | .vpopc a0 => Sys2Proof.Machine.execVpopc a0 s
  | .vclz a0 => Sys2Proof.Machine.execVclz a0 s
  | .vbrev a0 => Sys2Proof.Machine.execVbrev a0 s
  | .vsel a0 => Sys2Proof.Machine.execVsel a0 s
  | .vlea a0 => Sys2Proof.Machine.execVlea a0 s
  | .fadd a0 => Sys2Proof.Machine.execFadd a0 s
  | .fsub a0 => Sys2Proof.Machine.execFsub a0 s
  | .fmul a0 => Sys2Proof.Machine.execFmul a0 s
  | .ffma a0 => Sys2Proof.Machine.execFfma a0 s
  | .fmin a0 => Sys2Proof.Machine.execFmin a0 s
  | .fmax a0 => Sys2Proof.Machine.execFmax a0 s
  | .fabs a0 => Sys2Proof.Machine.execFabs a0 s
  | .fneg a0 => Sys2Proof.Machine.execFneg a0 s
  | .frcp a0 => Sys2Proof.Machine.execFrcp a0 s
  | .frsq a0 => Sys2Proof.Machine.execFrsq a0 s
  | .fsqrt a0 => Sys2Proof.Machine.execFsqrt a0 s
  | .fexp2 a0 => Sys2Proof.Machine.execFexp2 a0 s
  | .flog2 a0 => Sys2Proof.Machine.execFlog2 a0 s
  | .fsin a0 => Sys2Proof.Machine.execFsin a0 s
  | .fcos a0 => Sys2Proof.Machine.execFcos a0 s
  | .frnd a0 => Sys2Proof.Machine.execFrnd a0 s
  | .fclass a0 => Sys2Proof.Machine.execFclass a0 s
  | .fdot2 a0 => Sys2Proof.Machine.execFdot2 a0 s
  | .cvt a0 => Sys2Proof.Machine.execCvt a0 s
  | .pack a0 => Sys2Proof.Machine.execPack a0 s
  | .unpk a0 => Sys2Proof.Machine.execUnpk a0 s
  | .qnt a0 => Sys2Proof.Machine.execQnt a0 s
  | .vcmp a0 => Sys2Proof.Machine.execVcmp a0 s
  | .fcmp a0 => Sys2Proof.Machine.execFcmp a0 s
  | .pand a0 => Sys2Proof.Machine.execPand a0 s
  | .por a0 => Sys2Proof.Machine.execPor a0 s
  | .pxor a0 => Sys2Proof.Machine.execPxor a0 s
  | .pnot a0 => Sys2Proof.Machine.execPnot a0 s
  | .pmov a0 => Sys2Proof.Machine.execPmov a0 s
  | .psets a0 => Sys2Proof.Machine.execPsets a0 s
  | .psetsImm a0 => Sys2Proof.Machine.execPsetsImm a0 s
  | .pgets a0 => Sys2Proof.Machine.execPgets a0 s
  | .shfl a0 => Sys2Proof.Machine.execShfl a0 s
  | .bcast a0 => Sys2Proof.Machine.execBcast a0 s
  | .ballot a0 => Sys2Proof.Machine.execBallot a0 s
  | .vote a0 => Sys2Proof.Machine.execVote a0 s
  | .redx a0 => Sys2Proof.Machine.execRedx a0 s
  | .scan a0 => Sys2Proof.Machine.execScan a0 s
  | .match a0 => Sys2Proof.Machine.execMatch a0 s
  | .ld a0 => Sys2Proof.Machine.execLd a0 s
  | .st a0 => Sys2Proof.Machine.execSt a0 s
  | .lds a0 => Sys2Proof.Machine.execLds a0 s
  | .sts a0 => Sys2Proof.Machine.execSts a0 s
  | .ldn a0 => Sys2Proof.Machine.execLdn a0 s
  | .stn a0 => Sys2Proof.Machine.execStn a0 s
  | .pref a0 => Sys2Proof.Machine.execPref a0 s
  | .atom a0 => Sys2Proof.Machine.execAtom a0 s
  | .atoms a0 => Sys2Proof.Machine.execAtoms a0 s
  | .red a0 => Sys2Proof.Machine.execRed a0 s
  | .fence a0 => Sys2Proof.Machine.execFence a0 s
  | .mwait a0 => Sys2Proof.Machine.execMwait a0 s
  | .seal a0 => Sys2Proof.Machine.execSeal a0 s
  | .unseal a0 => Sys2Proof.Machine.execUnseal a0 s
  | .ptest a0 => Sys2Proof.Machine.execPtest a0 s
  | .pclr a0 => Sys2Proof.Machine.execPclr a0 s
  | .psel a0 => Sys2Proof.Machine.execPsel a0 s
  | .pinj a0 => Sys2Proof.Machine.execPinj a0 s
  | .sigchk a0 => Sys2Proof.Machine.execSigchk a0 s
  | .sigrd a0 => Sys2Proof.Machine.execSigrd a0 s
  | .trap a0 => Sys2Proof.Machine.execTrap a0 s
  | .tret a0 => Sys2Proof.Machine.execTret a0 s
  | .srd a0 => Sys2Proof.Machine.execSrd a0 s
  | .srdVector a0 => Sys2Proof.Machine.execSrdVector a0 s
  | .swr a0 => Sys2Proof.Machine.execSwr a0 s
  | .svc a0 => Sys2Proof.Machine.execSvc a0 s
  | .eret a0 => Sys2Proof.Machine.execEret a0 s
  | .halt a0 => Sys2Proof.Machine.execHalt a0 s
  | .tlbi a0 => Sys2Proof.Machine.execTlbi a0 s
  | .spawn a0 => Sys2Proof.Machine.execSpawn a0 s
  | .spawnHeader a0 => Sys2Proof.Machine.execSpawnHeader a0 s
  | .tend a0 => Sys2Proof.Machine.execTend a0 s
  | .tendValue a0 => Sys2Proof.Machine.execTendValue a0 s
  | .yield a0 => Sys2Proof.Machine.execYield a0 s
  | .role a0 => Sys2Proof.Machine.execRole a0 s
  | .tfetch a0 => Sys2Proof.Machine.execTfetch a0 s
  | .tdone a0 => Sys2Proof.Machine.execTdone a0 s
  | .joinf a0 => Sys2Proof.Machine.execJoinf a0 s
  | .fprobe a0 => Sys2Proof.Machine.execFprobe a0 s
  | .fset a0 => Sys2Proof.Machine.execFset a0 s
  | .ffail a0 => Sys2Proof.Machine.execFfail a0 s
  | .sgadd a0 => Sys2Proof.Machine.execSgadd a0 s
  | .sgwait a0 => Sys2Proof.Machine.execSgwait a0 s
  | .qpush a0 => Sys2Proof.Machine.execQpush a0 s
  | .qflush a0 => Sys2Proof.Machine.execQflush a0 s
  | .qstat a0 => Sys2Proof.Machine.execQstat a0 s
  | .cpy a0 => Sys2Proof.Machine.execCpy a0 s
  | .cpyl a0 => Sys2Proof.Machine.execCpyl a0 s
  | .cpyg a0 => Sys2Proof.Machine.execCpyg a0 s
  | .bari a0 => Sys2Proof.Machine.execBari a0 s
  | .bara a0 => Sys2Proof.Machine.execBara a0 s
  | .barx a0 => Sys2Proof.Machine.execBarx a0 s
  | .barp a0 => Sys2Proof.Machine.execBarp a0 s
  | .barw a0 => Sys2Proof.Machine.execBarw a0 s
  | .qld a0 => Sys2Proof.Machine.execQld a0 s
  | .qst a0 => Sys2Proof.Machine.execQst a0 s
  | .qset a0 => Sys2Proof.Machine.execQset a0 s
  | .qget a0 => Sys2Proof.Machine.execQget a0 s
  | .skwin a0 => Sys2Proof.Machine.execSkwin a0 s
  | .mma a0 => Sys2Proof.Machine.execMma a0 s
  | .mtile a0 => Sys2Proof.Machine.execMtile a0 s
  | .mrsv a0 => Sys2Proof.Machine.execMrsv a0 s
  | .mrel a0 => Sys2Proof.Machine.execMrel a0 s
  | .aclr a0 => Sys2Proof.Machine.execAclr a0 s
  | .amovToVector a0 => Sys2Proof.Machine.execAmovToVector a0 s
  | .amovToTile a0 => Sys2Proof.Machine.execAmovToTile a0 s
  | .amovTile a0 => Sys2Proof.Machine.execAmovTile a0 s
  | .ald a0 => Sys2Proof.Machine.execAld a0 s
  | .ast a0 => Sys2Proof.Machine.execAst a0 s
  | .flagCompletion a0 a1 => Sys2Proof.Machine.execFlagCompletion a0 a1 s
  | .mtileStepRetire a0 => Sys2Proof.Machine.execMtileStepRetire a0 s
  | .waitSatisfied a0 a1 => Sys2Proof.Machine.execWaitSatisfied a0 a1 s
  | .joinComplete a0 a1 => Sys2Proof.Machine.execJoinComplete a0 a1 s
  | .splitPlacement a0 => Sys2Proof.Machine.execSplitPlacement a0 s
  | .splitMerge a0 a1 => Sys2Proof.Machine.execSplitMerge a0 a1 s
  | .issueGrant => Sys2Proof.Machine.execIssueGrant s
  | .promotion a0 a1 => Sys2Proof.Machine.execPromotion a0 a1 s
  | .refill a0 => Sys2Proof.Machine.execRefill a0 s
  | .takeEntry a0 => Sys2Proof.Machine.execTakeEntry a0 s
  | .admitEntry a0 => Sys2Proof.Machine.execAdmitEntry a0 s
  | .stagingComplete a0 => Sys2Proof.Machine.execStagingComplete a0 s
  | .stagingFault a0 => Sys2Proof.Machine.execStagingFault a0 s
  | .meridianPublish => Sys2Proof.Machine.execMeridianPublish s
  | .stealRequestServed a0 => Sys2Proof.Machine.execStealRequestServed a0 s
  | .crossDieSteal a0 => Sys2Proof.Machine.execCrossDieSteal a0 s
  | .stealReply a0 => Sys2Proof.Machine.execStealReply a0 s
  | .writebackRequest a0 a1 => Sys2Proof.Machine.execWritebackRequest a0 a1 s
  | .park a0 => Sys2Proof.Machine.execPark a0 s
  | .resumeEntryCreate a0 a1 => Sys2Proof.Machine.execResumeEntryCreate a0 a1 s
  | .resume a0 => Sys2Proof.Machine.execResume a0 s
  | .teamFutureCompletion a0 => Sys2Proof.Machine.execTeamFutureCompletion a0 s
  | .barrierCredit a0 => Sys2Proof.Machine.execBarrierCredit a0 s
  | .copyCompletion a0 => Sys2Proof.Machine.execCopyCompletion a0 s
  | .queueSpawn a0 => Sys2Proof.Machine.execQueueSpawn a0 s
  | .flushTimerExpiry a0 => Sys2Proof.Machine.execFlushTimerExpiry a0 s
  | .queueTileEnd a0 a1 => Sys2Proof.Machine.execQueueTileEnd a0 a1 s
  | .watchdogStop a0 => Sys2Proof.Machine.execWatchdogStop a0 s
  | .haltTimeout a0 a1 => Sys2Proof.Machine.execHaltTimeout a0 a1 s
  | .l1Eviction a0 a1 => Sys2Proof.Machine.execL1Eviction a0 a1 s
  | .l2Eviction a0 => Sys2Proof.Machine.execL2Eviction a0 s
  | .hbmFill a0 a1 a2 a3 => Sys2Proof.Machine.execHbmFill a0 a1 a2 a3 s
  | .controlArrayError a0 => Sys2Proof.Machine.execControlArrayError a0 s
  | .tlbMissWalk a0 => Sys2Proof.Machine.execTlbMissWalk a0 s
  | .walkComplete a0 a1 => Sys2Proof.Machine.execWalkComplete a0 a1 s
  | .walkBoundExceeded a0 a1 => Sys2Proof.Machine.execWalkBoundExceeded a0 a1 s
  | .pageRequestResponse a0 a1 => Sys2Proof.Machine.execPageRequestResponse a0 a1 s
  | .portalDmwr a0 a1 a2 a3 => Sys2Proof.Machine.execPortalDmwr a0 a1 a2 a3 s
  | .portalPostedWrite a0 => Sys2Proof.Machine.execPortalPostedWrite a0 s
  | .nopPacket a0 => Sys2Proof.Machine.execNopPacket a0 s
  | .launchRoot a0 => Sys2Proof.Machine.execLaunchRoot a0 s
  | .launchTile a0 => Sys2Proof.Machine.execLaunchTile a0 s
  | .copy a0 => Sys2Proof.Machine.execCopy a0 s
  | .signal a0 => Sys2Proof.Machine.execSignal a0 s
  | .wait a0 => Sys2Proof.Machine.execWait a0 s
  | .writeThenSignal a0 => Sys2Proof.Machine.execWriteThenSignal a0 s
  | .fencePacket a0 => Sys2Proof.Machine.execFencePacket a0 s
  | .collective a0 => Sys2Proof.Machine.execCollective a0 s
  | .queueInitEnable a0 => Sys2Proof.Machine.execQueueInitEnable a0 s
  | .queueInitDisable a0 => Sys2Proof.Machine.execQueueInitDisable a0 s
  | .timestamp a0 => Sys2Proof.Machine.execTimestamp a0 s
  | .launchComplete a0 a1 => Sys2Proof.Machine.execLaunchComplete a0 a1 s
  | .queueRecordWrite a0 a1 a2 => Sys2Proof.Machine.execQueueRecordWrite a0 a1 a2 s
  | .registerWrite a0 a1 => Sys2Proof.Machine.execRegisterWrite a0 a1 s
  | .sliceExpiry a0 => Sys2Proof.Machine.execSliceExpiry a0 s
  | .preemptPending a0 => Sys2Proof.Machine.execPreemptPending a0 s
  | .preemptWithdraw a0 => Sys2Proof.Machine.execPreemptWithdraw a0 s
  | .discardTeam a0 => Sys2Proof.Machine.execDiscardTeam a0 s
  | .quiescencePark a0 => Sys2Proof.Machine.execQuiescencePark a0 s
  | .graceExpiry a0 => Sys2Proof.Machine.execGraceExpiry a0 s
  | .switchOut a0 => Sys2Proof.Machine.execSwitchOut a0 s
  | .switchIn a0 a1 => Sys2Proof.Machine.execSwitchIn a0 a1 s
  | .hostBar4Write a0 a1 a2 a3 => Sys2Proof.Machine.execHostBar4Write a0 a1 a2 a3 s
  | .hostBar4Read a0 a1 a2 => Sys2Proof.Machine.execHostBar4Read a0 a1 a2 s
  | .hostCompletion a0 a1 a2 => Sys2Proof.Machine.execHostCompletion a0 a1 a2 s
  | .atsInvalidation a0 a1 => Sys2Proof.Machine.execAtsInvalidation a0 a1 s
  | .priResponse a0 a1 => Sys2Proof.Machine.execPriResponse a0 a1 s
  | .write a0 => Sys2Proof.Machine.execWrite a0 s
  | .read a0 => Sys2Proof.Machine.execRead a0 s
  | .atomic a0 => Sys2Proof.Machine.execAtomic a0 s
  | .qpushFrame a0 => Sys2Proof.Machine.execQpushFrame a0 s
  | .waitreg a0 => Sys2Proof.Machine.execWaitreg a0 s
  | .qctl a0 => Sys2Proof.Machine.execQctl a0 s
  | .replReq a0 => Sys2Proof.Machine.execReplReq a0 s
  | .ownReq a0 => Sys2Proof.Machine.execOwnReq a0 s
  | .inval a0 => Sys2Proof.Machine.execInval a0 s
  | .fetch a0 => Sys2Proof.Machine.execFetch a0 s
  | .pageData a0 => Sys2Proof.Machine.execPageData a0 s
  | .grant a0 => Sys2Proof.Machine.execGrant a0 s
  | .fpcEviction a0 => Sys2Proof.Machine.execFpcEviction a0 s
  | .ordWrite a0 => Sys2Proof.Machine.execOrdWrite a0 s
  | .ordUpdate a0 => Sys2Proof.Machine.execOrdUpdate a0 s
  | .looseUpdate a0 => Sys2Proof.Machine.execLooseUpdate a0 s
  | .collParam a0 => Sys2Proof.Machine.execCollParam a0 s
  | .collData a0 => Sys2Proof.Machine.execCollData a0 s
  | .collectiveEndEarly a0 a1 => Sys2Proof.Machine.execCollectiveEndEarly a0 a1 s
  | .resp a0 => Sys2Proof.Machine.execResp a0 s
  | .ack a0 => Sys2Proof.Machine.execAck a0 s
  | .nack a0 => Sys2Proof.Machine.execNack a0 s
  | .frameDiscard a0 => Sys2Proof.Machine.execFrameDiscard a0 s
  | .frameRetransmit a0 => Sys2Proof.Machine.execFrameRetransmit a0 s
  | .flitReplay a0 a1 => Sys2Proof.Machine.execFlitReplay a0 a1 s
  | .linkRepair a0 a1 => Sys2Proof.Machine.execLinkRepair a0 a1 s
  | .almanacSample a0 => Sys2Proof.Machine.execAlmanacSample a0 s
  | .coreSpare a0 a1 => Sys2Proof.Machine.execCoreSpare a0 a1 s
  | .stepDown => Sys2Proof.Machine.execStepDown s
  | .channelSpare a0 => Sys2Proof.Machine.execChannelSpare a0 s
  | .domainStop a0 => Sys2Proof.Machine.execDomainStop a0 s
  | .deviceFail a0 => Sys2Proof.Machine.execDeviceFail a0 s
  | .powerCap a0 => Sys2Proof.Machine.execPowerCap a0 s
  | .thermalTrip a0 => Sys2Proof.Machine.execThermalTrip a0 s
  | .heartbeatMiss => Sys2Proof.Machine.execHeartbeatMiss s
  | .liveUpdateLoad a0 a1 a2 a3 a4 a5 => Sys2Proof.Machine.execLiveUpdateLoad a0 a1 a2 a3 a4 a5 s
  | .liveUpdateFreeze => Sys2Proof.Machine.execLiveUpdateFreeze s
  | .stateTableImport a0 => Sys2Proof.Machine.execStateTableImport a0 s
  | .takeover => Sys2Proof.Machine.execTakeover s
  | .mailboxRequest a0 => Sys2Proof.Machine.execMailboxRequest a0 s
  | .getVersion => Sys2Proof.Machine.execGetVersion s
  | .getCapabilities => Sys2Proof.Machine.execGetCapabilities s
  | .negotiateAlgorithms a0 a1 => Sys2Proof.Machine.execNegotiateAlgorithms a0 a1 s
  | .getDigests => Sys2Proof.Machine.execGetDigests s
  | .getCertificate a0 a1 a2 => Sys2Proof.Machine.execGetCertificate a0 a1 a2 s
  | .challenge a0 a1 => Sys2Proof.Machine.execChallenge a0 a1 s
  | .getMeasurements a0 a1 => Sys2Proof.Machine.execGetMeasurements a0 a1 s
  | .coldReset => Sys2Proof.Machine.execColdReset s
  | .warmReset => Sys2Proof.Machine.execWarmReset s
  | .atsTranslationCompletion a0 a1 => Sys2Proof.Machine.execAtsTranslationCompletion a0 a1 s
  | .softError a0 a1 => Sys2Proof.Machine.execSoftError a0 a1 s
  | .moduleUnpowered => Sys2Proof.Machine.execModuleUnpowered s
  | .priorityFlowControl a0 a1 a2 => Sys2Proof.Machine.execPriorityFlowControl a0 a1 a2 s
  | .configurationRequest a0 a1 => Sys2Proof.Machine.execConfigurationRequest a0 a1 s

end Sys2Proof.Machine
end

