-- ==== Sys2Proof/Machine/Step.lean ====
section
/-! DEFINITION. One step of the device (DESIGN CHOICE, log 1): an instruction that has been granted, an event that the outside world has chosen, the end of a cycle, an event that is due, or the grants of a cycle. -/

namespace Sys2Proof.Machine

/-- The step of the first grant: the instruction that stands at its split's slot. -/
def stepGrant (s : State) (g : Nat × Nat) (rest : List (Nat × Nat)) : Host.Outcome State Fault Refusal :=
  match s.m.granted g with
  | .stale => .next { s with grants := rest }
  | .reserved tid e x _ => .next { s with m := s.m.raise tid e (illopTrap x reservedFault), grants := rest }
  | .instr i => exec i s

/-- The first event that is due. -/
def firstDue (s : State) : List Event → Option State
  | [] => none
  | f :: l => match f s with
    | some t => some t
    | none => firstDue s l

/-- The steps between the grants of two cycles. -/
def stepCycle (s : State) : Host.Outcome State Fault Refusal :=
  if !s.live then .fault .clocksStopped
  else if s.granted then .next s.tick
  else match firstDue s (dueEvents s) with
    | some t => .next t
    | none => execIssueGrant s

/-- The step that a state takes, before the waits on objects have seen what it has done. -/
def stepRaw (s : State) : Host.Outcome State Fault Refusal :=
  match s.grants with
  | g :: rest => stepGrant s g rest
  | [] => match s.sched with
    | i :: rest => exec i { s with sched := rest }
    | [] => stepCycle s

/-- One step; every wait on an object has then seen its update (R199, R382). -/
def step (s : State) : Host.Outcome State Fault Refusal := noted (stepRaw s)

/-- The state with an instruction stored where the next step fetches it. -/
def State.withFetchWord (s : State) (nbits w : Nat) : State :=
  let v := if nbits == 0 then w else w % 2 ^ nbits
  s.placeInstr (BitVec.ofNat 64 v) (BitVec.ofNat 64 (v / 2 ^ 64))

end Sys2Proof.Machine
end

