-- ==== Sys2Proof/Safety.lean ====
section
/-! DEFINITION. What counts as a safe run, and what statements about one instruction speak of: the split that issues it, and the state in which it has issued and gone on. -/

namespace Sys2Proof.Machine

/-- The state after a number of steps, while they go on. -/
def run : Nat → State → Option State
  | 0, s => some s
  | n + 1, s => match step s with
    | .next t => run n t
    | _ => none

/-- A run that never stops. -/
def SafeRun (s : State) : Prop := ∀ n, (run n s).isSome = true

/-- The split that issues an instruction: its task's number, its table entry, the task and the split, and the contributing lanes (R98). -/
structure Issuer where
  tid : Nat
  e : Nat
  t : Task
  x : Split
  k : Mask
deriving DecidableEq, Repr

/-- The split that issues, when nothing stands between it and the effect of instruction i: it is not held (R132), waits in nothing and
does not go on with an instruction in the middle of which it was parked (R268), the word has no encoding fault (R89), the mode may run
it (R88), and no lane's guard is poisoned (R101). -/
def State.issuer (s : State) (i : Instr) : Option Issuer :=
  match s.issuing with
  | none => none
  | some (tid, e) =>
    match s.m.task tid with
    | none => none
    | some t =>
      match t.split e with
      | none => none
      | some x =>
        if !x.held && x.wait.isNone && x.resumed.isNone && (lowestFault (faults (envOf s.m t x) i)).isNone && (!supervisorOnly (opcodeOf i) || t.supervisor) &&
          (guardLanes t (guardOf i) x.xact).2 == 0
        then some ⟨tid, e, t, x, (guardLanes t (guardOf i) x.xact).1⟩ else none

/-- xsig after the instruction (R169). SIGCHK leaves its own word out until it ends (R170). -/
def Issuer.sig (p : Issuer) (i : Instr) : Elem := if opcodeOf i == 0x94 then p.x.xsig else sigWords p.x.xsig (encode i)

/-- The issuing split once it has issued: it is no longer fresh in its clause. -/
def Issuer.here (p : Issuer) : Split := { p.x with fresh := false }

/-- The issuing task once the instruction has issued: its issue is counted (the number of its free choices), and a progress
instruction or a commit point is noted (R183, R344). Nothing of R17 differs. -/
def Issuer.marked (p : Issuer) (i : Instr) : Task :=
  { p.t.setSplit p.e (some p.here) with
    free := p.t.free + 1, progressed := p.t.progressed || progressAtIssue (opcodeOf i), committed := p.t.committed || commitPoint i }

/-- The split at the slot after the instruction, or at slot 1 of the next clause (R67, R243), with the signature it then has. -/
def Issuer.next (p : Issuer) (m : Mach) (i : Instr) : Split :=
  { p.here with xsig := p.sig i }.advance m.clk (slotsOf i) (headerNslot (headerAt m p.x))

/-- The state in which split p has issued i, its effect on the task was f, the rest of the machine is that of m, and the split goes on at
its next slot. -/
def State.issuedOn (s : State) (m : Mach) (p : Issuer) (i : Instr) (f : Task → Task) : State :=
  { s with grants := s.grants.tail, m := { m with tasks := tabSet s.m.tasks p.tid ((f (p.marked i)).setSplit p.e (some (p.next s.m i))) } }

/-- The state in which split p has issued i, whose effect on the task was f and on the rest of the machine none. -/
def State.issued (s : State) (p : Issuer) (i : Instr) (f : Task → Task) : State := s.issuedOn s.m p i f

/-- The state in which split p has issued i, which moved the split itself: f gives the task, with the split as it stood when it
issued. -/
def State.movedOn (s : State) (p : Issuer) (i : Instr) (f : Task → Task) : State :=
  { s with grants := s.grants.tail, m := s.m.setTask p.tid (f (p.marked i)) }

/-- The split as a control instruction moves it: past the instruction, its signature taken on (R169), waiting in nothing. -/
def Issuer.left (p : Issuer) (i : Instr) : Split := { p.x with xsig := p.sig i, wait := none }

/-- The issuing split continues as a whole at slot 1 of a clause, ready after a delay. -/
def State.jumpedOn (s : State) (p : Issuer) (i : Instr) (target : Word) (delay : Nat) (f : Task → Task) : State :=
  s.movedOn p i fun t => (f t).setSplit p.e (some ((p.left i).goto target 1 (s.m.clk + delay)))

/-- A part of the issuing split, with lanes k, at slot 1 of a clause: a split of its own with the signature the instruction leaves, stamped
with the cycle (R230, R236); its copy of the lanes is a part of the split's copy (R169). -/
def Issuer.part (p : Issuer) (m : Mach) (i : Instr) (target : Word) (k : Mask) (sig : Elem) : Split :=
  { (p.left i).goto target 1 (m.clk + 2) with xact := k, pxact := p.x.pxact &&& k, xsig := sig, stamp := m.clk, held := false, fault := none }

/-- The state in which the instruction that split p has issued raises a trap, which is delivered at once (R132). -/
def State.trappedOn (s : State) (p : Issuer) (i : Instr) (x : TrapInfo) : State :=
  { s with grants := s.grants.tail, m := (s.m.setTask p.tid (p.marked i)).takeTrap p.tid p.e x }

/-- The machine in which split p has issued i, before i has any effect. -/
def State.entered (s : State) (p : Issuer) (i : Instr) : Mach := s.m.setTask p.tid (p.marked i)

/-- The state in which split p leaves instruction i behind, the machine being m: it stands at the slot after it with the signature it
then has. -/
def State.leaves (s : State) (m : Mach) (p : Issuer) (i : Instr) : State :=
  { s with grants := s.grants.tail, m := m.modTask p.tid fun t => t.modSplit p.e fun x =>
      { x with xsig := p.sig i }.advance m.clk (slotsOf i) (headerNslot (headerAt s.m p.x)) }

/-- The instruction waits at its place (R146, R183): `passed` says that it has passed its stopping point, so that its word is in xsig. -/
def State.waitsOn (s : State) (m : Mach) (p : Issuer) (i : Instr) (passed : Bool) (h : Hold) : State :=
  { s with grants := s.grants.tail, m := m.modTask p.tid fun t => t.modSplit p.e fun x =>
      { x with xsig := if passed then p.sig i else x.xsig
               wait := some ⟨false, i, passed, h, s.m.clk, false, p.x.found, p.k, p.t.snap, p.x.xsig⟩ } }

/-- What the issuing split brings to the body of its instruction. -/
def Issuer.iss (p : Issuer) (m : Mach) (i : Instr) : Iss :=
  ⟨p.tid, p.e, p.t, p.x, p.k, i, headerAt m p.x, slotsOf i, p.sig i, p.x.xsig, false, .cond, p.x.found⟩

end Sys2Proof.Machine
end

