-- ==== Sys2Proof/Certificates/Slice0/Obligations.lean ====
section
/-! DEFINITION. The statements about the machine, for the provers. -/

namespace Sys2Proof.Machine

/-! ### Uniform instructions (R99, R103 to R105) -/

/-- What a uniform instruction c does wherever a split issues it: sD takes the result f of the operands as the task reads them, extended
as R99 says; nothing else changes but that the split goes on behind the instruction. -/
def UniSays (c : FS → Instr) (f : FS → Task → Nat × Bool) : Prop :=
  ∀ (s : State) (p : Issuer) (x : FS), s.issuer (c x) = some p →
    exec (c x) s = .next (s.issued p (c x) fun t => t.writeU x.d.toNat (uniResult x.ty (f x p.t)))

/-- A result of operands a and b at the width n of the type, poisoned if one of them is (R61). -/
def onAB (r : FS → Nat → Nat → Nat → Nat) (x : FS) (t : Task) : Nat × Bool :=
  (r x (opWidth x.ty) (t.uniA x).1 (t.uniB x).1, (t.uniA x).2 || (t.uniB x).2)
/-- A result of operand a. -/
def onA (r : FS → Nat → Nat → Nat) (x : FS) (t : Task) : Nat × Bool := (r x (opWidth x.ty) (t.uniA x).1, (t.uniA x).2)
/-- A result of operands a, b and c. -/
def onABC (r : FS → Nat → Nat → Nat → Nat → Nat) (x : FS) (t : Task) : Nat × Bool :=
  (r x (opWidth x.ty) (t.uniA x).1 (t.uniB x).1 (t.uniC x).1, (t.uniA x).2 || (t.uniB x).2 || (t.uniC x).2)

/-- The results of the arithmetic and bitwise rows of R103: wrap or sat of the exact sum, difference, product and multiply-add, the high
half of the product, and, or, xor, not. -/
def UniformArithmeticRows : Prop :=
  UniSays .sadd (onAB fun x _ a b => narrow x.ty x.sat (intVal x.ty a + intVal x.ty b)) ∧
  UniSays .ssub (onAB fun x _ a b => narrow x.ty x.sat (intVal x.ty a - intVal x.ty b)) ∧
  UniSays .smul (onAB fun x _ a b => narrow x.ty x.sat (intVal x.ty a * intVal x.ty b)) ∧
  UniSays .smulh (onAB fun x _ a b => wrapBits (tyBits x.ty) (intVal x.ty a * intVal x.ty b / (2 ^ tyBits x.ty : Nat))) ∧
  UniSays .smad (onABC fun x _ a b c => narrow x.ty x.sat (intVal x.ty a * intVal x.ty b + intVal x.ty c)) ∧
  UniSays .sand (onAB fun _ _ a b => a &&& b) ∧
  UniSays .sor (onAB fun _ _ a b => a ||| b) ∧
  UniSays .sxor (onAB fun _ _ a b => a ^^^ b) ∧
  UniSays .snot (onA fun _ n a => 2 ^ n - 1 - a)

/-- The other rows of R103, the bit fields of R104 and the immediate load of R105. -/
def UniformShiftsAndSelectionsRows : Prop :=
  UniSays .smov (fun x t => t.uniB x) ∧
  UniSays .sshl (onAB fun _ n a b => if n ≤ b then 0 else a * 2 ^ b % 2 ^ n) ∧
  UniSays .sshr (onAB fun _ n a b => if n ≤ b then 0 else a / 2 ^ b) ∧
  UniSays .ssar (onAB fun _ n a b => wrapBits n (sextInt n a / (2 ^ min b n : Nat))) ∧
  UniSays .smin (onAB fun x _ a b => if intVal x.ty b < intVal x.ty a then b else a) ∧
  UniSays .smax (onAB fun x _ a b => if intVal x.ty a < intVal x.ty b then b else a) ∧
  UniSays .scmp (onAB fun x _ a b => if intCond x.sub.toNat (intVal x.ty a) (intVal x.ty b) then 1 else 0) ∧
  UniSays .ssel (fun x t => if (t.uniC x).1 != 0 then ((t.uniA x).1, (t.uniA x).2 || (t.uniC x).2) else ((t.uniB x).1, (t.uniB x).2 || (t.uniC x).2)) ∧
  UniSays .spopc (onA fun _ n a => ((List.range n).filter a.testBit).length) ∧
  UniSays .sclz (onA fun _ n a => if a == 0 then n else n - 1 - Nat.log2 a) ∧
  UniSays .sbfe (onAB fun x _ a ctl => fieldExtract x.ty a ctl) ∧
  UniSays .sbfi (onABC fun _ n a ctl c => fieldInsert n a c ctl) ∧
  (∀ (s : State) (p : Issuer) (x : FX), s.issuer (.sli x) = some p →
    exec (.sli x) s = .next (s.issued p (.sli x) fun t => t.writeU x.d.toNat
      (uniResult x.ty (if x.sub == 1 then x.ext.toNat else if wide x.ty then imm48 x.ty x.ext else x.ext.toNat % 2 ^ 32, false))))

end Sys2Proof.Machine

section

open Sys2Proof Sys2Proof.Machine

/-- The uniform instructions of R103 to R105: the results of every row, extended as R99 says, and the immediate load. -/
def Obligations.UniformResults : Prop := UniformArithmeticRows ∧ UniformShiftsAndSelectionsRows

end

namespace Sys2Proof.Machine

/-! ### Vector integer instructions (R98, R104 to R108) -/

/-- What a vector instruction c does wherever a split issues it: the contributing lanes of vD (of the pair vD, vD+1 for a result of 64
bits) take the results f of the operands as the task reads them; nothing else changes but that the split goes on. -/
def VecSays (c : FV3 → Instr) (n : FV3 → Nat) (f : FV3 → Task → Lanes) : Prop :=
  ∀ (s : State) (p : Issuer) (x : FV3), s.issuer (c x) = some p →
    exec (c x) s = .next (s.issued p (c x) fun t => t.writeVec x.d.toNat (n x) p.k (f x p.t))

/-- Results, lane by lane, of a, of a and b, and of a, b and c at the width n of the type; poisoned where one of them is (R61). -/
def lanesA (r : FV3 → Nat → Nat → Nat) (x : FV3) (t : Task) : Lanes := map1 (r x (opWidth x.ty)) (t.srcA x (opWidth x.ty))
def lanesAB (r : FV3 → Nat → Nat → Nat → Nat) (x : FV3) (t : Task) : Lanes :=
  map2 (r x (opWidth x.ty)) (t.srcA x (opWidth x.ty)) (t.srcB x (opWidth x.ty))
def lanesABC (r : FV3 → Nat → Nat → Nat → Nat → Nat) (x : FV3) (t : Task) : Lanes :=
  map3 (r x (opWidth x.ty)) (t.srcA x (opWidth x.ty)) (t.srcB x (opWidth x.ty)) (t.srcC x (opWidth x.ty))

/-- The width of a V3 result is that of its type. -/
def ownWidth (x : FV3) : Nat := opWidth x.ty

/-- The arithmetic and bitwise rows of R106 with VMADW and VADDC (R107) and VLEA (R108). -/
def VectorArithmeticRows : Prop :=
  VecSays .vmov ownWidth (lanesA fun _ _ a => a) ∧
  VecSays .vadd ownWidth (lanesAB fun x _ a b => narrow x.ty x.sat (intVal x.ty a + intVal x.ty b)) ∧
  VecSays .vsub ownWidth (lanesAB fun x _ a b => narrow x.ty x.sat (intVal x.ty a - intVal x.ty b)) ∧
  VecSays .vmul ownWidth (lanesAB fun x _ a b => narrow x.ty x.sat (intVal x.ty a * intVal x.ty b)) ∧
  VecSays .vmulh ownWidth (lanesAB fun x _ a b => wrapBits (tyBits x.ty) (intVal x.ty a * intVal x.ty b / (2 ^ tyBits x.ty : Nat))) ∧
  VecSays .vmad ownWidth (lanesABC fun x _ a b c => narrow x.ty x.sat (intVal x.ty a * intVal x.ty b + intVal x.ty c)) ∧
  VecSays .vmadw (fun _ => 64) (fun x t => map3 (fun a b z =>
    if signedTy x.ty then narrow .s64 x.sat (intVal x.ty a * intVal x.ty b + intVal .s64 z)
    else narrow .z64 x.sat (intVal x.ty a * intVal x.ty b + intVal .z64 z)) (t.srcA x 32) (t.srcB x 32) (t.srcC x 64)) ∧
  VecSays .vaddc ownWidth (lanesABC fun x _ a b c => if x.sub == 1 then (a + b + c % 2) / 2 ^ 32 % 2 else (a + b + c % 2) % 2 ^ 32) ∧
  VecSays .vabs ownWidth (lanesA fun x _ a => narrow x.ty x.sat (intVal x.ty a).natAbs) ∧
  VecSays .vneg ownWidth (lanesA fun x _ a => narrow x.ty x.sat (-(intVal x.ty a))) ∧
  VecSays .vmin ownWidth (lanesAB fun x _ a b => if intVal x.ty b < intVal x.ty a then b else a) ∧
  VecSays .vmax ownWidth (lanesAB fun x _ a b => if intVal x.ty a < intVal x.ty b then b else a) ∧
  VecSays .vand ownWidth (lanesAB fun _ _ a b => a &&& b) ∧
  VecSays .vor ownWidth (lanesAB fun _ _ a b => a ||| b) ∧
  VecSays .vxor ownWidth (lanesAB fun _ _ a b => a ^^^ b) ∧
  VecSays .vnot ownWidth (lanesA fun _ n a => 2 ^ n - 1 - a) ∧
  VecSays .vlea (fun _ => 64) (fun x t => map2 (fun base idx => wrapBits 64 (base + intVal x.ty idx * (2 ^ x.sub.toNat : Nat)))
    (t.srcA x 64) (t.srcB x (opWidth x.ty)))

/-- The shifts, counts, fields and selections of R104 to R106. -/
def VectorShiftsAndSelectionsRows : Prop :=
  VecSays .vshl ownWidth (lanesAB fun _ n a b => if n ≤ b then 0 else a * 2 ^ b % 2 ^ n) ∧
  VecSays .vshr ownWidth (lanesAB fun _ n a b => if n ≤ b then 0 else a / 2 ^ b) ∧
  VecSays .vsar ownWidth (lanesAB fun _ n a b => wrapBits n (sextInt n a / (2 ^ min b n : Nat))) ∧
  VecSays .vrot ownWidth (lanesAB fun _ n a b => (a * 2 ^ (b % n) + a / 2 ^ (n - b % n)) % 2 ^ n) ∧
  VecSays .vpopc ownWidth (lanesA fun _ _ a => ((List.range 32).filter a.testBit).length) ∧
  VecSays .vclz ownWidth (lanesA fun _ _ a => if a == 0 then 32 else 31 - Nat.log2 a) ∧
  VecSays .vbrev ownWidth (lanesA fun _ _ a => (List.range 32).foldl (fun acc i => acc + if a.testBit i then 2 ^ (31 - i) else 0) 0) ∧
  VecSays .vsel ownWidth (fun x t => ((t.srcA x (opWidth x.ty)).zip (t.srcB x (opWidth x.ty))).zipWith
    (fun ab c => if c.1 != 0 then (ab.1.1, ab.1.2 || c.2) else (ab.2.1, ab.2.2 || c.2)) (t.srcC x 32)) ∧
  (∀ (s : State) (p : Issuer) (x : FVI), s.issuer (.vbfe x) = some p →
    exec (.vbfe x) s = .next (s.issued p (.vbfe x) fun t => t.writeVec x.d.toNat 32 p.k
      (map1 (fun a => fieldExtract x.ty a x.imm.toNat) (p.t.srcVI x 32)))) ∧
  (∀ (s : State) (p : Issuer) (x : FVI), s.issuer (.vbfi x) = some p →
    exec (.vbfi x) s = .next (s.issued p (.vbfi x) fun t => t.writeVec x.d.toNat 32 p.k
      (map2 (fun a c => fieldInsert 32 a c x.imm.toNat) (p.t.srcVI x 32) (p.t.readV 0 x.d.toNat).lanes))) ∧
  (∀ (s : State) (p : Issuer) (x : FX), s.issuer (.vli x) = some p →
    exec (.vli x) s = .next (s.issued p (.vli x) fun t => t.writeVec x.d.toNat (opWidth x.ty) p.k
      (List.replicate 32 (if x.sub == 1 then x.ext.toNat else if wide x.ty then imm48 x.ty x.ext else x.ext.toNat % 2 ^ 32, false))))

end Sys2Proof.Machine

section

open Sys2Proof Sys2Proof.Machine

/-- The vector integer instructions of R104 to R108: the results of every row in the contributing lanes (R98). -/
def Obligations.VectorResults : Prop := VectorArithmeticRows ∧ VectorShiftsAndSelectionsRows

end

namespace Sys2Proof.Machine

/-! ### Floating point and conversion (R47, R109 to R118) -/

/-- The draws that a split makes for an instruction in rounding mode r, n a contributing lane under `.rs` and none otherwise, and the
machine after them: the generators of its partition have advanced (R47). -/
def drawn (s : State) (p : Issuer) (r : Rnd) (n : Nat) : List (List Elem) × Mach :=
  if r == .rs then s.m.draw p.t.core p.t.part p.k n else ([], s.m)

/-- A result of format elements a, b, c under draw r. -/
abbrev FloatRow := FV3 → Fmt → Elem → Nat → Nat → Nat → Nat

/-- What a floating-point instruction c with a number of sources does wherever a split issues it: each contributing lane of vD takes the
result g of its elements, the two halves of a packed pair each on their own with a draw of their own (R109). -/
def FloatSays (c : FV3 → Instr) (sources : Nat) (g : FloatRow) : Prop :=
  ∀ (s : State) (p : Issuer) (x : FV3), s.issuer (c x) = some p →
    let d := drawn s p x.rnd (if isPairTy x.ty then 2 else 1)
    let src := p.t.srcs x sources (opWidth x.ty)
    exec (c x) s = .next (s.issuedOn d.2 p (c x) fun t => t.writeVec x.d.toNat (opWidth x.ty) p.k
      (floatLanes x.ty d.1 (g x (fmtOf x.ty)) src.1 src.2.1 src.2.2))

/-- FADD to FNEG, FSQRT and FRND (R109, R111): the exact result rounded once in the mode of the instruction; FMIN and FMAX (R45); the
sign bit cleared or inverted. -/
def FloatArithmeticRows : Prop :=
  FloatSays .fadd 2 (fun x f r a b c => floatOp f .add x.rnd r x.sat a b c) ∧
  FloatSays .fsub 2 (fun x f r a b c => floatOp f .sub x.rnd r x.sat a b c) ∧
  FloatSays .fmul 2 (fun x f r a b c => floatOp f .mul x.rnd r x.sat a b c) ∧
  FloatSays .ffma 3 (fun x f r a b c => floatOp f .fma x.rnd r x.sat a b c) ∧
  FloatSays .fmin 2 (fun _ f _ a b _ => minMax f false a b) ∧
  FloatSays .fmax 2 (fun _ f _ a b _ => minMax f true a b) ∧
  FloatSays .fabs 1 (fun _ f _ a _ _ => a % 2 ^ (f.width - 1)) ∧
  FloatSays .fneg 1 (fun _ f _ a _ _ => a ^^^ 2 ^ (f.width - 1)) ∧
  FloatSays .fsqrt 1 (fun x f r a b c => floatOp f .sqrt x.rnd r x.sat a b c) ∧
  FloatSays .frnd 1 (fun x f r a b c => floatOp f .rnd x.rnd r x.sat a b c)

/-- The functions of R110, the class test of R112 and the dot product of R113. -/
def FloatFunctionsRows : Prop :=
  FloatSays .frcp 1 (fun x _ _ a _ _ => funOp .rcp x.sat (BitVec.ofNat 32 a)) ∧
  FloatSays .frsq 1 (fun x _ _ a _ _ => funOp .rsq x.sat (BitVec.ofNat 32 a)) ∧
  FloatSays .fexp2 1 (fun x _ _ a _ _ => funOp .exp2 x.sat (BitVec.ofNat 32 a)) ∧
  FloatSays .flog2 1 (fun x _ _ a _ _ => funOp .log2 x.sat (BitVec.ofNat 32 a)) ∧
  FloatSays .fsin 1 (fun x _ _ a _ _ => funOp .sin x.sat (BitVec.ofNat 32 a)) ∧
  FloatSays .fcos 1 (fun x _ _ a _ _ => funOp .cos x.sat (BitVec.ofNat 32 a)) ∧
  (∀ (s : State) (p : Issuer) (x : FVI), s.issuer (.fclass x) = some p →
    let a := p.t.srcVI x (opWidth x.ty)
    exec (.fclass x) s = .next (s.issued p (.fclass x) fun t => t.writeP x.d.toNat p.k (predResult fun l =>
      (x.imm.toNat.testBit (classBit (fmtOf x.ty) ((laneAt a l).1 % 2 ^ (fmtOf x.ty).width)), (laneAt a l).2)))) ∧
  (∀ (s : State) (p : Issuer) (x : FV3), s.issuer (.fdot2 x) = some p →
    let d := drawn s p x.rnd 1
    let a := p.t.srcA x 32
    let b := p.t.srcB x 32
    let c := p.t.opnd 3 x.kc x.c 32 .f32
    exec (.fdot2 x) s = .next (s.issuedOn d.2 p (.fdot2 x) fun t => t.writeVec x.d.toNat 32 p.k (lanes32.map fun l =>
      (dot2 (fmtOf x.ty) x.rnd (rhoAt d.1 l 0) x.sat (laneAt a l).1 (laneAt b l).1 (laneAt c l).1,
       (laneAt a l).2 || (laneAt b l).2 || (laneAt c l).2))))

end Sys2Proof.Machine

section

open Sys2Proof Sys2Proof.Machine

/-- The floating-point instructions of R109 to R113: the results of every row in the contributing lanes (R98). -/
def Obligations.FloatResults : Prop := FloatArithmeticRows ∧ FloatFunctionsRows

/-- CVT (R114, R115), PACK (R116), UNPK (R117) and QNT (R118). A form of PACK that is no pair form merges its element into the group
of vD and writes the word or words that hold it, with the poison of a added to their own. -/
def Obligations.Conversions : Prop :=
  (∀ (s : State) (p : Issuer) (x : FV3), s.issuer (.cvt x) = some p →
    let st := tyOf (x.b.extractLsb' 0 5)
    let d := drawn s p x.rnd 1
    let a := p.t.opnd 1 x.ka x.a (opWidth st) st
    exec (.cvt x) s = .next (s.issuedOn d.2 p (.cvt x) fun t => t.writeVec x.d.toNat (opWidth x.ty) p.k (lanes32.map fun l =>
      (convert x.ty st x.rnd (rhoAt d.1 l 0) x.sat (laneAt a l).1, (laneAt a l).2)))) ∧
  (∀ (s : State) (p : Issuer) (x : FV3), s.issuer (.pack x) = some p → isPairTy x.ty = true →
    let d := drawn s p x.rnd 2
    let a := p.t.opnd 1 x.ka x.a 32 .f32
    let b := p.t.opnd 2 x.kb x.b 32 .f32
    exec (.pack x) s = .next (s.issuedOn d.2 p (.pack x) fun t => t.writeV x.d.toNat p.k (lanesReg (lanes32.map fun l =>
      (packElem x.ty x.rnd (rhoAt d.1 l 0) x.sat (laneAt a l).1 + 2 ^ 16 * packElem x.ty x.rnd (rhoAt d.1 l 1) x.sat (laneAt b l).1,
       (laneAt a l).2 || (laneAt b l).2))))) ∧
  (∀ (s : State) (p : Issuer) (x : FV3), s.issuer (.pack x) = some p → isPairTy x.ty = false →
    let d := drawn s p x.rnd 1
    let a := p.t.opnd 1 x.ka x.a 32 (unpackedTy x.ty)
    let w := (packShape x.ty).1
    let low := w * x.sub.toNat
    let old := p.t.groupLanes 0 x.d.toNat (packRegs x.ty)
    let group := fun (l : Nat) => (old.getD l (0, [])).1 - (old.getD l (0, [])).1 / 2 ^ low % 2 ^ w * 2 ^ low +
      packElem x.ty x.rnd (rhoAt d.1 l 0) x.sat (laneAt a l).1 * 2 ^ low
    exec (.pack x) s = .next (s.issuedOn d.2 p (.pack x) fun t => (List.range (packRegs x.ty)).foldl (fun (t : Task) i =>
      if i == low / 32 || i == (low + w - 1) / 32 then t.writeV (x.d.toNat + i) p.k (lanesReg (lanes32.map fun l =>
        (group l / 2 ^ (32 * i), (old.getD l (0, [])).2.getD i false || (laneAt a l).2))) else t) t)) ∧
  (∀ (s : State) (p : Issuer) (x : FVI), s.issuer (.unpk x) = some p →
    let w := if isPairTy x.ty then 16 else (packShape x.ty).1
    let low := w * (x.imm.extractLsb' 0 4).toNat
    let src : List (Nat × List Bool) := if x.ka == .uni then (p.t.srcVI x 32).map fun a => (a.1, [a.2])
      else p.t.groupLanes 1 x.a.toNat (packRegs x.ty)
    exec (.unpk x) s = .next (s.issued p (.unpk x) fun t => t.writeVec x.d.toNat 32 p.k (src.map fun a =>
      (convert (unpackedTy x.ty) (elementTy x.ty) .rne 0 false (a.1 / 2 ^ low % 2 ^ w),
       a.2.getD (low / 32) false || a.2.getD ((low + w - 1) / 32) false)))) ∧
  (∀ (s : State) (p : Issuer) (x : FV3), s.issuer (.qnt x) = some p →
    let d := drawn s p x.rnd 1
    let a := p.t.readV 1 x.a.toNat
    let scale := qntScale x.ty ((lanesOf (p.k &&& ~~~a.poi)).map (at32 a.e))
    exec (.qnt x) s = .next (s.issuedOn d.2 p (.qnt x) fun t => t.writeVec x.d.toNat 32 p.k (lanes32.map fun l =>
      (2 ^ 8 * scale + qntElem x.ty x.rnd (rhoAt d.1 l 0) scale (at32 a.e l), a.poi.getLsbD l))))

end

section

open Sys2Proof Sys2Proof.Machine

/-- VCMP and FCMP (R119), the predicate logic of R120, PSETS and PGETS (R121). -/
def Obligations.ComparesAndPredicates : Prop :=
  (∀ (s : State) (p : Issuer) (x : FV3), s.issuer (.vcmp x) = some p →
    let a := p.t.srcA x (opWidth x.ty)
    let b := p.t.srcB x (opWidth x.ty)
    exec (.vcmp x) s = .next (s.issued p (.vcmp x) fun t => t.writeP x.d.toNat p.k (predResult fun l =>
      (intCond x.sub.toNat (intVal x.ty (laneAt a l).1) (intVal x.ty (laneAt b l).1), (laneAt a l).2 || (laneAt b l).2)))) ∧
  (∀ (s : State) (p : Issuer) (x : FV3), s.issuer (.fcmp x) = some p →
    let a := p.t.srcA x (opWidth x.ty)
    let b := p.t.srcB x (opWidth x.ty)
    exec (.fcmp x) s = .next (s.issued p (.fcmp x) fun t => t.writeP x.d.toNat p.k (predResult fun l =>
      (floatCond x.sub.toNat (fmtOf x.ty) (laneAt a l).1 (laneAt b l).1, (laneAt a l).2 || (laneAt b l).2)))) ∧
  (∀ row ∈ [(Instr.pand, fun (a b : Mask) => a &&& b), (Instr.por, fun a b => a ||| b), (Instr.pxor, fun a b => a ^^^ b)],
    ∀ (s : State) (p : Issuer) (x : FV3), s.issuer (row.1 x) = some p →
    let a := p.t.predOpnd 1 x.ka x.a
    let b := p.t.predOpnd 2 x.kb x.b
    exec (row.1 x) s = .next (s.issued p (row.1 x) fun t => t.writeP x.d.toNat p.k ⟨row.2 a.v b.v, a.poi ||| b.poi⟩)) ∧
  (∀ row ∈ [(Instr.pnot, fun (a : Mask) => ~~~a), (Instr.pmov, fun a => a)],
    ∀ (s : State) (p : Issuer) (x : FV3), s.issuer (row.1 x) = some p →
    let a := p.t.predOpnd 1 x.ka x.a
    exec (row.1 x) s = .next (s.issued p (row.1 x) fun t => t.writeP x.d.toNat p.k ⟨row.2 a.v, a.poi⟩)) ∧
  (∀ (s : State) (p : Issuer) (x : FVI), s.issuer (.psets x) = some p →
    let a := p.t.uniOpnd 1 x.a.toNat 32
    exec (.psets x) s = .next (s.issued p (.psets x) fun t => t.writeP x.d.toNat p.k
      ⟨BitVec.ofNat 32 a.1, if a.2 then 0xFFFFFFFF else 0⟩)) ∧
  (∀ (s : State) (p : Issuer) (x : FVI), s.issuer (.psetsImm x) = some p →
    exec (.psetsImm x) s = .next (s.issued p (.psetsImm x) fun t => t.writeP x.d.toNat p.k
      ⟨if x.imm.getLsbD 0 then 0xFFFFFFFF else 0, 0⟩)) ∧
  (∀ (s : State) (p : Issuer) (x : FVI), s.issuer (.pgets x) = some p →
    let a := p.t.readP 1 x.a.toNat
    let poisoned := a.poi &&& ~~~p.t.xdead != 0
    exec (.pgets x) s = .next (s.issued p (.pgets x) fun t => t.writeU x.d.toNat
      ⟨(a.v &&& ~~~p.t.xdead).setWidth 64, poisoned, poisoned⟩))

/-- SHFL (R123), BCAST (R124), BALLOT and VOTE (R125), REDX and SCAN (R126), MATCH (R127). -/
def Obligations.LaneExchange : Prop :=
  (∀ (s : State) (p : Issuer) (x : FVI), s.issuer (.shfl x) = some p →
    let n := opWidth x.ty
    let a := p.t.vecOpnd 1 x.a.toNat n
    let seg := 2 ^ (x.imm.extractLsb' 8 3).toNat
    let c := (x.imm.extractLsb' 0 5).toNat
    let idx := p.t.readV 6 (x.imm.extractLsb' 0 8).toNat
    exec (.shfl x) s = .next (s.issued p (.shfl x) fun t => t.writeVec x.d.toNat n p.k (lanes32.map fun L =>
      let val := match shflSource x.sub.toNat c seg L (at32 idx.e L).toNat with
        | some src => if p.t.xdead.getLsbD src then (0, true) else laneAt a src
        | none => laneAt a L
      (val.1, val.2 || (x.sub.toNat == 0 && idx.poi.getLsbD L))))) ∧
  (∀ (s : State) (p : Issuer) (x : FVI) (l : Nat), s.issuer (.bcast x) = some p →
    let n := opWidth x.ty
    let a := p.t.vecOpnd 1 x.a.toNat n
    let px := p.t.readP 5 x.px.toNat
    (if x.sub == 0 then some (x.imm.extractLsb' 0 5).toNat else if x.sub == 1 then lowestLane p.k else lowestLane (p.k &&& px.v)) = some l →
    let val := if p.t.xdead.getLsbD l then (0, true) else laneAt a l
    exec (.bcast x) s = .next (s.issued p (.bcast x) fun t => t.writeVec x.d.toNat n p.k
      (List.replicate 32 (val.1, val.2 || (x.sub == 2 && px.poi &&& p.k != 0))))) ∧
  (∀ (s : State) (p : Issuer) (x : FVI), s.issuer (.bcast x) = some p →
    x.sub ≠ 0 → (if x.sub == 1 then lowestLane p.k else lowestLane (p.k &&& (p.t.readP 5 x.px.toNat).v)) = none →
    exec (.bcast x) s = .next (s.issued p (.bcast x) id)) ∧
  (∀ (s : State) (p : Issuer) (x : FV3), s.issuer (.ballot x) = some p →
    let a := p.t.predOpnd 1 x.ka x.a
    let poisoned := a.poi &&& p.k != 0
    exec (.ballot x) s = .next (s.issued p (.ballot x) fun t => t.writeU x.d.toNat ⟨(a.v &&& p.k).setWidth 64, poisoned, poisoned⟩)) ∧
  (∀ (s : State) (p : Issuer) (x : FV3), s.issuer (.vote x) = some p →
    let a := p.t.predOpnd 1 x.ka x.a
    let all := a.v &&& p.k == p.k
    let any := a.v &&& p.k != 0
    let v := if x.sub == 0 then all else if x.sub == 1 then any else all || !any
    exec (.vote x) s = .next (s.issued p (.vote x) fun t => t.writeP x.d.toNat p.k
      ⟨if v then 0xFFFFFFFF else 0, if a.poi &&& p.k != 0 then 0xFFFFFFFF else 0⟩)) ∧
  (∀ (s : State) (p : Issuer) (x : FV3), s.issuer (.redx x) = some p →
    let op := (x.sub.extractLsb' 0 3).toNat
    let a := p.t.readV 1 x.a.toNat
    let v := if p.k == 0 then emptyOf op x.ty else at32 ((laneTree x a p.k).getD 5 []) 0
    exec (.redx x) s = .next (s.issued p (.redx x) fun t => t.writeU x.d.toNat (uniResult x.ty (v.toNat, a.poi &&& p.k != 0)))) ∧
  (∀ (s : State) (p : Issuer) (x : FV3), s.issuer (.scan x) = some p →
    let op := (x.sub.extractLsb' 0 3).toNat
    let a := p.t.readV 1 x.a.toNat
    exec (.scan x) s = .next (s.issued p (.scan x) fun t => t.writeVec x.d.toNat 32 p.k (lanes32.map fun L =>
      let n := if x.sub.getLsbD 3 then L else L + 1
      let before := p.k &&& maskOf fun l => l < n
      ((if before == 0 then emptyOf op x.ty else prefixValue op x.ty x.rnd (laneTree x a p.k) n).toNat, a.poi &&& before != 0)))) ∧
  (∀ (s : State) (p : Issuer) (x : FV3), s.issuer (.match x) = some p →
    let a := p.t.vecOpnd 1 x.a.toNat (opWidth x.ty)
    exec (.match x) s = .next (s.issued p (.match x) fun t => t.writeVec x.d.toNat 32 p.k (lanes32.map fun L =>
      ((p.k &&& maskOf fun l => (laneAt a l).1 == (laneAt a L).1).toNat, lanesPoi a &&& p.k != 0))))

end

namespace Sys2Proof.Machine

/-- The branches of R136 to R138 and NOP (R143): BRA, SBRZ, SBRNZ, CALL, RET and the uniform BRX move the whole split; an indirect
target that fails a check of R135 traps; NOP only issues. -/
def BranchesOfAWholeSplitRows : Prop :=
  (∀ (s : State) (p : Issuer) (x : FC), s.issuer (.bra x) = some p →
    exec (.bra x) s = .next (s.jumpedOn p (.bra x) (directTarget p.x.clause x.lo) 2 id)) ∧
  (∀ row ∈ [(Instr.sbrz, true), (Instr.sbrnz, false)], ∀ (s : State) (p : Issuer) (x : FC), s.issuer (row.1 x) = some p →
    (p.t.uniOpnd 4 x.reg.toNat 64).2 = false →
    exec (row.1 x) s = .next (if ((p.t.uniOpnd 4 x.reg.toNat 64).1 == 0) = row.2 then
      s.jumpedOn p (row.1 x) (directTarget p.x.clause x.lo) 2 id else s.jumpedOn p (row.1 x) (p.x.clause + 64) 1 id)) ∧
  (∀ (s : State) (p : Issuer) (x : FC), s.issuer (.call x) = some p →
    exec (.call x) s = .next (s.jumpedOn p (.call x) (directTarget p.x.clause x.lo) 2 fun t =>
      t.writeU x.reg.toNat ⟨p.x.clause + 64, false, false⟩)) ∧
  (∀ c ∈ [Instr.brx, Instr.ret], ∀ (s : State) (p : Issuer) (x : FC), s.issuer (c x) = some p →
    let a := p.t.uniOpnd 4 x.reg.toNat 64
    a.2 = false →
    exec (c x) s = .next (
      if a.1 % 64 ≠ 0 then s.trappedOn p (c x) (mkTrap 0x03 p.x.xact 0x02 0 (BitVec.ofNat 64 a.1) 0)
      else if 2 ^ 48 ≤ a.1 then s.trappedOn p (c x) (mkTrap 0x04 p.x.xact 0x01 0 (BitVec.ofNat 64 a.1) 0)
      else s.jumpedOn p (c x) (BitVec.ofNat 64 a.1) 2 id)) ∧
  (∀ (s : State) (p : Issuer) (x : FC), s.issuer (.nop x) = some p → exec (.nop x) s = .next (s.issued p (.nop x) id))

/-- BRP (R136) and the vector BRX (R137), whose lanes take their own ways: BRP with an unpoisoned condition moves the split as a whole,
divides it, or, with no place for the new split, traps STACKOV with no lane moved; BRX does the same for the groups of equal targets in the
order of their lowest lanes. -/
def BranchesThatDivideRows : Prop :=
  (∀ (s : State) (p : Issuer) (x : FC), s.issuer (.brp x) = some p →
    let pr := p.t.readP 5 x.pa.toNat
    let taken := (if x.lo.getLsbD 24 then ~~~pr.v else pr.v) &&& p.x.xact
    let i := Instr.brp x
    pr.poi &&& p.x.xact = 0 →
    exec i s = .next (
      if taken = p.x.xact then s.jumpedOn p i (directTarget p.x.clause x.lo) 2 id
      else if taken = 0 then s.jumpedOn p i (p.x.clause + 64) 1 id
      else
        let stay := { (p.left i).goto (p.x.clause + 64) 1 (s.m.clk + 1) with xact := p.x.xact &&& ~~~taken, pxact := p.x.pxact &&& ~~~taken }
        match ((p.marked i).setSplit p.e (some stay)).place (p.part s.m i (directTarget p.x.clause x.lo) taken (p.sig i)) with
        | some t => s.movedOn p i fun _ => t
        | none => s.trappedOn p i (mkTrap 0x0B p.x.xact 0x01 0 0 0))) ∧
  (∀ (s : State) (p : Issuer) (x : FC) (target : Nat) (lanes : Mask) (rest : List (Nat × Mask)), s.issuer (.brxVector x) = some p →
    let v := p.t.vecOpnd 4 x.reg.toNat 64
    let i := Instr.brxVector x
    lanesPoi v &&& p.x.xact = 0 → (∀ l ∈ lanesOf p.x.xact, targetFault (laneAt v l).1 = none) →
    groupLanesBy v (lanesOf p.x.xact) = (target, lanes) :: rest →
    exec i s = .next (
      let first := { (p.left i).goto (BitVec.ofNat 64 target) 1 (s.m.clk + 2) with xact := lanes, pxact := p.x.pxact &&& lanes }
      match ((p.marked i).setSplit p.e (some first)).placeAll (rest.map fun g => p.part s.m i (BitVec.ofNat 64 g.1) g.2 (p.sig i)) with
      | some t => s.movedOn p i fun _ => t
      | none => s.trappedOn p i (mkTrap 0x0B p.x.xact 0x01 0 0 0)))

/-- Lanes arrive at a join with the signature of their split (R140, R233). -/
def arrived (j : Join) (k : Mask) (sig : Elem) : Join :=
  { j with arrivals := if k = 0 then j.arrivals else j.arrivals ++ [(k, sig)] }.check

end Sys2Proof.Machine

section

open Sys2Proof Sys2Proof.Machine

/-- The branches of R136 to R138, as they move a split whole or divide it. -/
def Obligations.Branches : Prop := BranchesOfAWholeSplitRows ∧ BranchesThatDivideRows

/-- JSET (R139), JWAIT (R140), JDROP (R141) at a join register that is not occupied, and EXIT (R142). The Parallax copy of a join
register makes the same change to what it holds itself (R169). -/
def Obligations.JoinsAndExit : Prop :=
  (∀ (s : State) (p : Issuer) (x : FC), s.issuer (.jset x) = some p →
    let i := Instr.jset x
    let j := p.t.join x.jn.toNat
    let a := p.t.uniOpnd 4 x.reg.toNat 32
    let lanes := if x.kr == .uni then BitVec.ofNat 32 a.1 else p.x.xact
    (x.kr = .uni → a.2 = false) → j.occ = false →
    exec i s = .next (
      match (p.marked i).placeAll (if j.valid then j.arrivals.map fun g => { p.part s.m i j.target g.1 g.2 with pxact := g.1 } else []) with
      | some t =>
        let arm := fun (k : Mask) => (⟨true, false, k &&& ~~~p.t.xdead &&& ~~~p.t.exited, [], directTarget p.x.clause x.lo, false⟩ : Join)
        s.issued p i fun _ => t.setJoins x.jn.toNat (arm lanes) (arm (if x.kr == .uni then lanes else p.x.pxact))
      | none => s.trappedOn p i (mkTrap 0x0B p.x.xact 0x01 0 0 0))) ∧
  (∀ (s : State) (p : Issuer) (x : FC), s.issuer (.jwait x) = some p →
    let i := Instr.jwait x
    let j := p.t.join x.jn.toNat
    j.occ = false →
    exec i s = .next (
      if j.valid then
        let stay := p.x.xact &&& ~~~j.expected
        let arrive := p.x.xact &&& j.expected
        s.movedOn p i fun t =>
          (t.setJoins x.jn.toNat (arrived j arrive (p.sig i))
            (arrived (p.t.pjoin x.jn.toNat) (p.x.pxact &&& (p.t.pjoin x.jn.toNat).expected) (p.sig i))).setSplit p.e
            (if stay = 0 then none else some { (p.left i).goto j.target 1 (s.m.clk + 2) with xact := stay, pxact := p.x.pxact &&& ~~~arrive })
      else s.jumpedOn p i (p.x.clause + 64) 1 id)) ∧
  (∀ (s : State) (p : Issuer) (x : FC), s.issuer (.jdrop x) = some p →
    let i := Instr.jdrop x
    let j := p.t.join x.jn.toNat
    j.occ = false →
    exec i s = .next (s.issued p i fun t =>
      let drop := fun (j : Join) => { j with expected := j.expected &&& ~~~p.k }.check
      if j.valid then t.setJoins x.jn.toNat (drop j) (drop (p.t.pjoin x.jn.toNat)) else t)) ∧
  (∀ (s : State) (p : Issuer) (x : FC), s.issuer (.exit x) = some p →
    let i := Instr.exit x
    let stay := p.x.xact &&& ~~~p.k
    exec i s = .next (s.movedOn p i fun t =>
      ((({ t with exited := t.exited ||| p.k }.unexpect p.k).setSplit p.e
        (if stay = 0 then none else some { (p.left i).goto (p.x.clause + 64) 1 (s.m.clk + 1) with xact := stay, pxact := p.x.pxact &&& ~~~p.k })).endCheck)))

/-- What the delivery of a trap does (R132), for every split that is not held: nothing where the watchdog stops the task in the same cycle
(R424); else the trap registers take what R129 gives; with xhnd not 0,
xhnd becomes 0, the trapping split continues with its lanes at slot 1 of the clause of xhnd and every other split is held; with xhnd 0
the task ends, poisoned for cause POISON and killed for every other, and a TASKKILL is recorded (R444). -/
def Obligations.TrapDelivery : Prop :=
  ∀ (m : Mach) (tid e : Nat) (t : Task) (x : Split) (i : TrapInfo), m.task tid = some t → t.split e = some x → x.held = false →
    let u := t.writeTrap (epcOf x.clause x.slot) i
    (m.timesOut t = true → m.raise tid e i = m) ∧
    (m.timesOut t = false → t.xhnd ≠ 0 → m.raise tid e i = m.setTask tid { u with
      xhnd := 0, hlanes := x.xact,
      splits := (t.splits.map fun o => o.map fun y => { y with held := true }).set e
        (some { x with clause := BitVec.ofNat 64 (t.xhnd.toNat % 2 ^ 48 / 64 * 64), slot := 1, fresh := true, pa := none, promo := 0,
                       promoted := false, readyAt := m.clk + 2, found := [], wait := none, resumed := none, held := false, fault := none }) }) ∧
    (m.timesOut t = false → t.xhnd = 0 → m.raise tid e i =
      (m.setTask tid (u.finish (if i.cause == 8 then .poison else .killed))).killRecord (u.finish (if i.cause == 8 then .poison else .killed)) i x.xact)

/-- TRAP (R172) raises USER; TRET (R173) goes on at xepc and releases every held split; SIGCHK (R170) with nothing to report clears xsig
and goes on, and otherwise writes a SIGMIS record and traps with xsig cleared; HALT (R178) waits. -/
def Obligations.TrapAndSignatureInstructions : Prop :=
  (∀ (s : State) (p : Issuer) (x : FC), s.issuer (.trap x) = some p →
    exec (.trap x) s = .next (s.trappedOn p (.trap x) ⟨0x0E, x.lo.setWidth 64, 0, 0, some (epcOf (p.x.clause + 64) 1)⟩)) ∧
  (∀ (s : State) (p : Issuer) (x : FC), s.issuer (.tret x) = some p →
    exec (.tret x) s = .next { s with grants := s.grants.tail, m := (s.m.setTask p.tid ((p.marked (.tret x)).setSplit p.e
      (some ({ p.x with xsig := p.sig (.tret x) }.goto (BitVec.ofNat 64 (p.t.xepc.toNat % 2 ^ 48 / 64 * 64))
        (if fieldOf p.t.xepc 3 3 == 0 then 1 else fieldOf p.t.xepc 3 3) (s.m.clk + 2))))).releaseHeld p.tid }) ∧
  (∀ (s : State) (p : Issuer) (x : FC), s.issuer (.sigchk x) = some p →
    let i := Instr.sigchk x
    let mis := (if p.x.xsig = x.lo then 0 else 1) +
      (if p.x.pxact = p.x.xact ∧ (∀ j ∈ List.range 8, p.t.join j = p.t.pjoin j) then 0 else 2)
    let syn := BitVec.ofNat 64 (2 ^ 32 * p.x.xsig.toNat + mis)
    let cleared := (p.marked i).setSplit p.e (some { p.here with xsig := 0 })
    exec i s = .next (
      if mis = 0 then s.movedOn p i fun t => t.setSplit p.e
        (some ({ p.here with xsig := 0 }.advance s.m.clk (slotsOf i) (headerNslot (headerAt s.m p.x))))
      else { s with grants := s.grants.tail, m := (sigmisRecord (s.m.setTask p.tid cleared) p.t (epcOf p.x.clause p.x.slot) syn).takeTrap p.tid p.e ⟨9, syn, 0, 2, none⟩ })) ∧
  (∀ (s : State) (p : Issuer) (x : FS), s.issuer (.sigrd x) = some p →
    exec (.sigrd x) s = .next (s.issued p (.sigrd x) fun t => t.writeU x.d.toNat
      ⟨(if x.sub == 0 then p.x.xsig else p.x.pxact).setWidth 64, false, false⟩)) ∧
  (∀ (s : State) (p : Issuer) (x : FC), s.issuer (.halt x) = some p →
    exec (.halt x) s = .next (s.movedOn p (.halt x) fun t => t.setSplit p.e (some { p.here with
      xsig := p.sig (.halt x),
      wait := some ⟨false, .halt x, true, .halt (if x.lo == 0 then none else some (s.m.clk + 256 * x.lo.toNat)), s.m.clk, false, p.x.found, p.k,
        p.t.snap, p.x.xsig⟩ })))

/-- SRD reads a special register as it stands, unpoisoned (R174), by the index of R36; SWR writes what R175 keeps of an unpoisoned sA: in user mode xclk and xsig trap PRIV, in
supervisor mode the new count is held from the next ck and xsig is that of the issuing split. -/
def Obligations.SpecialRegisters : Prop :=
  (∀ (s : State) (p : Issuer) (x : FVI), s.issuer (.srd x) = some p →
    exec (.srd x) s = .next (s.issued p (.srd x) fun t => t.writeU x.d.toNat ⟨specialReg s.m p.t p.x (xregIdx x), false, false⟩)) ∧
  (∀ (s : State) (p : Issuer) (x : FVI), s.issuer (.srdVector x) = some p →
    exec (.srdVector x) s = .next (s.issued p (.srdVector x) fun t => t.writeVec x.d.toNat (opWidth x.ty) p.k
      (if xregIdx x = 3 then lanes32.map fun l => (l, false)
       else List.replicate 32 ((specialReg s.m p.t p.x (xregIdx x)).toNat % 2 ^ opWidth x.ty, false)))) ∧
  (∀ (s : State) (p : Issuer) (x : FVI), s.issuer (.swr x) = some p →
    let i := Instr.swr x
    let a := p.t.uniOpnd 1 x.a.toNat 64
    let v := BitVec.ofNat 64 a.1
    a.2 = false →
    exec i s = .next (
      if xregIdx x = 0x07 ∨ xregIdx x = 0x12 then
        if p.t.supervisor = false then s.trappedOn p i (mkTrap 2 p.x.xact 0x02 (xregIdx x) 0 0)
        else if xregIdx x = 0x07 then s.issuedOn { s.m with xclkNext := some v } p i id
        else s.movedOn p i fun t => t.setSplit p.e
          (some ({ p.here with xsig := v.setWidth 32 }.advance s.m.clk (slotsOf i) (headerNslot (headerAt s.m p.x))))
      else s.issued p i fun t => match xregIdx x with
        | 0x0B => { t with xtagB := v.toNat % 8 }
        | 0x0C => { t with xepc := BitVec.ofNat 64 (v.toNat % 2 ^ 48 / 8 * 8) }
        | 0x0D => { t with xcause := v &&& 0xFF }
        | 0x0E => { t with xsyn := v }
        | 0x0F => { t with xaddr := v }
        | 0x10 => { t with xunit := v &&& 0xFFFF }
        | 0x11 => { t with xhnd := BitVec.ofNat 64 (v.toNat / 64 * 64) }
        | _ => t))

/-- PTEST (R165), PCLR (R166), PSEL (R167) and, in supervisor mode, PINJ (R168), for the four classes of a. -/
def Obligations.PoisonInstructions : Prop :=
  (∀ (s : State) (p : Issuer) (x : FV3), s.issuer (.ptest x) = some p →
    exec (.ptest x) s = .next (s.issued p (.ptest x) fun t => t.writeP x.d.toNat p.k ⟨match x.ka with
      | .vec => lanesPoi (p.t.vecOpnd 1 x.a.toNat (opWidth x.ty))
      | .uni => if (p.t.uniOpnd 1 x.a.toNat (opWidth x.ty)).2 then 0xFFFFFFFF else 0
      | .imm => (p.t.readP 1 x.a.toNat).poi
      | .rsv => (p.t.readA 1 x.a.toNat).poi.getD x.c.toNat 0, 0⟩)) ∧
  (∀ row ∈ [(Instr.pclr, false, (0 : Mask)), (Instr.pinj, true, 0xFFFFFFFF)],
    ∀ (s : State) (p : Issuer) (x : FV3), s.issuer (row.1 x) = some p →
    exec (row.1 x) s = .next (s.issued p (row.1 x) fun t => match x.ka with
      | .vec => t.writeVec x.d.toNat (opWidth x.ty) p.k ((p.t.vecOpnd 1 x.a.toNat (opWidth x.ty)).map fun a => (a.1, row.2.1))
      | .uni => t.writeU x.d.toNat ⟨BitVec.ofNat 64 (p.t.uniOpnd 1 x.a.toNat (opWidth x.ty)).1, row.2.1, row.2.1⟩
      | .imm => t.writeP x.d.toNat p.k ⟨(p.t.readP 1 x.a.toNat).v, row.2.2⟩
      | .rsv => t.writeA x.d.toNat allEls ⟨(p.t.readA 1 x.a.toNat).rows, List.replicate 32 row.2.2⟩)) ∧
  (∀ (s : State) (p : Issuer) (x : FV3), s.issuer (.psel x) = some p →
    let n := opWidth x.ty
    let b := p.t.opnd 2 x.kb x.b n x.ty
    exec (.psel x) s = .next (s.issued p (.psel x) fun t => match x.ka with
      | .vec => t.writeVec x.d.toNat n p.k ((p.t.vecOpnd 1 x.a.toNat n).zipWith (fun a b => if a.2 then b else (a.1, false)) b)
      | .uni => if (p.t.uniOpnd 1 x.a.toNat n).2 then t.writeU x.d.toNat ⟨BitVec.ofNat 64 (laneAt b 0).1, (laneAt b 0).2, (laneAt b 0).2⟩
          else t.writeU x.d.toNat ⟨BitVec.ofNat 64 (p.t.uniOpnd 1 x.a.toNat n).1, false, false⟩
      | .imm => t
      | .rsv =>
          let a := p.t.readA 1 x.a.toNat
          t.writeA x.d.toNat allEls
            ⟨lanes32.map fun r => lanes32.map fun c =>
               if (a.poi.getD r 0).getLsbD c then BitVec.ofNat 32 (laneAt b 0).1 else at32 (a.rows.getD r []) c,
             a.poi.map fun k => if (laneAt b 0).2 then k else 0⟩))

end

namespace Sys2Proof.Machine

/-! ### Accesses to global memory (R144 to R152, R156, R159, R216, R226) -/

/-- The addresses of an instruction pass translation for a use, permission and world, the host has refused none, and their regions and
pages accept it (R145, R185, R357, R372, R387): from the machine m, the elements and the machine after the lookups. -/
def Found (m : Mach) (p : Issuer) (use : Use) (uni : Bool) (accepts : Accepts) (els : List (Nat × Nat)) (es : List Elt) (m' : Mach) : Prop :=
  m.xlateAll p.t.core p.t.ctx use p.x.found els = (⟨es, [], none⟩, m') ∧
  (∀ e ∈ es, uni = true ∨ p.k.getLsbD e.lane = true) ∧ refusedFails p.x.found es = [] ∧
  (∀ e ∈ es, accepts (regionOf e.pa) e.attr = true ∧ (use = .store → regionOf e.pa = .loc → m'.sealed e.pa = false))

/-- The elements lie at places that can be reached at once: no page need be fetched, no earlier access of the task to the same bytes
holds them back, and the host's pages are known (R145, R367, R372, R387). -/
def Spotted (m : Mach) (p : Issuer) (write : Bool) (es : List Elt) (ss : List (Elt × Spot)) (m' : Mach) : Prop :=
  ∃ m1 : Mach, es.foldl (fun (acc : List (Elt × Spot) × Mach) e => (acc.1 ++ [(e, (acc.2.spot p.t.ctx e write).1)], (acc.2.spot p.t.ctx e write).2)) ([], m) = (ss, m1) ∧
  m' = m1.usedAway es ∧ m'.heldBack p.tid ss write = false ∧
  ∀ x ∈ ss, x.2 ≠ .wait ∧ ∀ pa, x.2 = .host pa → (m'.ats.find? fun a => a.1 == hostPage pa).isSome = true

/-- Every element of an access is found and at a place, and its data stays in the poison domain (R146): from the machine m, the elements
at their places and the machine after the lookups. -/
def Reached (m : Mach) (p : Issuer) (P : Plan) (accepts : Accepts) (els : List (Nat × Nat)) (ss : List (Elt × Spot)) (m' : Mach) : Prop :=
  ∃ (es : List Elt) (m1 : Mach),
    Found m p (if P.write then .store else .load) P.uni accepts els es m1 ∧ Spotted m1 p P.write es ss m' ∧
    m'.task p.tid = m.task p.tid ∧ m'.clk = m.clk ∧
    ∀ x ∈ ss, (P.uni = true ∨ p.k.getLsbD x.1.lane = true) ∧
      (P.poisoned x.1.lane = true → m'.leaves x.1 x.2 = false)

/-- The bytes that an access of plan P with elements at places ss stores to. -/
def Plan.stored (P : Plan) (ss : List (Elt × Spot)) : List (Place × Nat) :=
  if P.write then (locals ss).map (fun x => (Place.mem x.2, P.size)) ++
    (remotes ss).flatMap fun g => g.2.map fun x => (Place.away g.1.1 x.2 g.1.2.2, P.size)
  else []

/-- Whether plan P is made at home slices (R291, R156): an ordered access or an atomic at `.die` or wider, or a store in the window of a
release FENCE. -/
def Plan.atHome (P : Plan) (p : Issuer) (ss : List (Elt × Spot)) : Bool :=
  (P.records && !ss.isEmpty && p.t.window.isSome) || (2 ≤ scopeNat P.scope && (P.ord != .rlx || P.atomic))

/-- The rest of the order of R145 and R148 lets the access go on at once: no copy of the task stands before it, a release finds all that
it must, a commit point no counted store (R150, R344), an acquire has local lines only and no record refuses it, and no line is held
dirty elsewhere. -/
def Clear (m : Mach) (p : Issuer) (ι : Iss) (P : Plan) (ss : List (Elt × Spot)) : Prop :=
  let remoteOnly := (locals ss).isEmpty && !(remotes ss).isEmpty && scopeNat P.scope ≤ 3
  m.copiesAt p.tid (P.stored ss) = [] ∧ m.keptOf ι = [] ∧
  (releases P.ord P.scope = true → m.performed p.tid remoteOnly = true) ∧
  ((commitPoint ι.ins || (P.write && !(remotes ss).isEmpty)) = true → (releases P.ord P.scope && remoteOnly) = false → m.countedLeft p.tid = false) ∧
  (acquires P.ord P.scope = true → remotes ss = [] ∧ m.scopeFails p.t.core (locals ss) = []) ∧
  (if acquires P.ord P.scope then m.acquireLines p.t.core P.scope (locals ss) else m).raceFails p.t.core P.write (P.atHome p ss) (locals ss) = []

/-- The machine after such an access: the actions of an acquire (R293), of a release (R292), the elements made in memory in their
order, the requests sent for those that are not local, and the operation left outstanding with the values that have been loaded: its
flag rises, and its destination is written when it completes (R72, R73). -/
def Plan.effect (P : Plan) (m : Mach) (p : Issuer) (ι : Iss) (ss : List (Elt × Spot)) : Mach :=
  let c := p.t.core
  let acq := acquires P.ord P.scope
  let rel := releases P.ord P.scope
  let window := if P.records && !ss.isEmpty then p.t.window else none
  let scope := match window with
    | some w => widerScope P.scope w
    | none => P.scope
  let ord := if window.isNone then P.ord else if P.ord = .rlx then .rel else if P.ord = .acq then .ar else P.ord
  let m := if acq then m.acquireLines c P.scope (locals ss) else m
  let m := if rel then m.bump c P.scope else m
  let record := if rel then some (m.recordOf c scope) else window.map fun w => m.recordOf c w
  let (made, m) := m.makeLocal c P (P.atHome p ss) record (locals ss)
  let (op, m) := m.fresh
  let (answers, m) := m.sendParts ι op P ord scope (remotes ss) ss
  let o := match P.dest with
    | some d => ss.foldl (fun (o : PendOp) x => match x.2 with
        | .chip _ => o.land (d x.1) x.1.lane (chipDatum p.t P.size x.1)
        | _ => o) (made.foldl (fun (o : PendOp) x => o.land (d x.1) x.1.lane x.2.1) (mkOp p.t op P.flag P.dests answers))
    | none => mkOp p.t op P.flag P.dests answers
  m.modTask p.tid fun t =>
    let t := if P.write && ss.any (fun x => !(x.2 matches .here _ | .host _ | .chip _)) then { t with committed := true } else t
    let t := if window.isSome then { t with window := none } else t
    let t := if acq then t.unsee else if P.ord == .rlx then made.foldl (fun (t : Task) x => t.see x.2.2) t else t
    t.startOp o

/-- Instruction c, an access of plan P by lanes, completes: wherever no address is poisoned or misaligned, every element is reached and
nothing holds the access back. -/
def AccessCompletes (c : FM → Instr) (plan : Iss → FM → Plan) (accepts : FM → Accepts) : Prop :=
  ∀ (s : State) (p : Issuer) (x : FM) (ss : List (Elt × Spot)) (m : Mach), s.issuer (c x) = some p →
    let ι := p.iss s.m (c x)
    let P := plan ι x
    let addrs := p.t.addrLanes x
    flagFull p.t P.flag = false →
    (if P.uni || x.ak then (laneAt addrs 0).2 = false else lanesPoi addrs &&& p.k = 0) →
    (∀ a ∈ ι.elements P.uni addrs, a.2 % P.size = 0) →
    Reached (s.entered p (c x)) p P (accepts x) (ι.elements P.uni addrs) ss m →
    Clear m p ι P ss →
    exec (c x) s = .next (s.leaves (P.effect m p ι ss) p (c x))

/-- The same of an instruction that moves a block of memory at an address in sA in parts of 32 bytes; ordered pages take no such store (R390). -/
def BlockCompletes (c : FM → Instr) (applies : FM → Prop) (plan : Iss → FM → Plan) (align parts : Nat) : Prop :=
  ∀ (s : State) (p : Issuer) (x : FM) (ss : List (Elt × Spot)) (m : Mach), s.issuer (c x) = some p → applies x →
    let ι := p.iss s.m (c x)
    let P := { plan ι x with uni := true }
    let a := p.t.uniOpnd 1 x.a.toNat 64
    flagFull p.t P.flag = false → a.2 = false → a.1 % align = 0 →
    Reached (s.entered p (c x)) p P (fun _ attr => !P.write || attr != 2) ((List.range parts).map fun i => (i, wrapBits 64 ((a.1 + 32 * i : Nat) : Int))) ss m →
    Clear m p ι P ss →
    exec (c x) s = .next (s.leaves (P.effect m p ι ss) p (c x))

/-- The destination of an M word as a whole. -/
def wholeDest (x : FM) : Dest := if x.dk then .uni x.d.toNat x.ty else .vec x.d.toNat x.ty

end Sys2Proof.Machine

section

open Sys2Proof Sys2Proof.Machine

/-- LD, ST (R152), ATOM (R156) and RED (R159) complete as accesses: the new memory, records and outstanding operation are those of their
plans. The bytes of a load are read when it issues, and a FENCE window's old or new value is a free choice (DESIGN CHOICE, logs 4 and 5). -/
def Obligations.GlobalAccessesComplete : Prop :=
  AccessCompletes .ld (fun ι x => loadPlan ι x (accessSize x.ty) (fun _ => wholeDest x) [wholeDest x] x.ord x.scope) (fun _ _ _ => true) ∧
  AccessCompletes .st (fun ι x => storePlan ι x (accessSize x.ty) x.ty (ι.t.datum x 0 x.d) x.ord x.scope) (fun _ _ _ => true) ∧
  AccessCompletes .atom (fun ι x => atomPlan ι x false) acceptAtomic ∧
  AccessCompletes .red (fun ι x => atomPlan ι x true) acceptAtomic

/-- QLD and QST of memory (R216) move the 64 bytes of a shape register, ALD and AST of memory (R226) the 4,096 bytes of a tile. The bytes are read when the access issues (DESIGN CHOICE, log 4). -/
def Obligations.BlockAccessesComplete : Prop :=
  BlockCompletes .qld (fun x => x.sub ≠ 1) (fun ι x => loadPlan ι x 32 (fun _ => .shape x.d.toNat) [.shape x.d.toNat] .rlx .team) 64 2 ∧
  BlockCompletes .qst (fun x => x.sub ≠ 1) (fun ι x => storePlan ι x 32 .b128 (ι.t.readQ 0 x.d.toNat).part .rlx .team) 64 2 ∧
  BlockCompletes .ald (fun x => x.sub ≠ 0) (fun ι x => loadPlan ι x 32 (fun _ => .tile x.d.toNat) [.tile x.d.toNat] .rlx .team) 128 128 ∧
  BlockCompletes .ast (fun x => x.sub ≠ 0) (fun ι x => storePlan ι x 32 .b128 (ι.t.readA 0 x.d.toNat).part .rlx .team) 128 128

end

namespace Sys2Proof.Machine

/-! ### The scratchpad, the near map, shapes and windows (R153, R154, R158, R216, R217, R226) -/

/-- Every element of a scratchpad access of split p has an unpoisoned, aligned offset inside the team's allocation, or inside a window of
the team with SK; f gives the physical place of byte i at an offset. The flag has room, and no copy of the task that writes the same bytes
is on its way (R71, R145, R148, R153). -/
def SpadReached (s : State) (p : Issuer) (i : Instr) (x : FM) (writes : Bool) (f : Nat → Nat → Nat) : Prop :=
  let ι := p.iss s.m i
  let els := ι.elements x.dk (p.t.offLanes x)
  let size := accessSize x.ty
  flagFull p.t (ι.flag x.fl) = false ∧
  (if x.dk || x.ak then (laneAt (p.t.offLanes x) 0).2 = false else lanesPoi (p.t.offLanes x) &&& p.k = 0) ∧
  (∀ el ∈ els, spadCheck (s.m.team p.t.team) (if x.sk then some none else none) size el.2 = .ok (f el.2)) ∧
  (s.entered p i).copiesAt p.tid (if writes then els.flatMap fun el =>
    (List.range ((size + 3) / 4)).map fun j => (Place.spad p.t.core (f el.2 (4 * j)), min 4 size) else []) = []

/-- The block of a scratchpad form of QLD, QST, ALD or AST at the offset in sA lies in the allocation: fs gives the places of its parts of
32 bytes. -/
def SpadBlockReached (s : State) (p : Issuer) (i : Instr) (x : FM) (align parts : Nat) (writes : Bool) (fs : List (Nat → Nat)) : Prop :=
  let a := p.t.uniOpnd 1 x.a.toNat 32
  flagFull p.t ((p.iss s.m i).flag x.fl) = false ∧ a.2 = false ∧ a.1 % align = 0 ∧
  blockPlaces (s.m.team p.t.team) x.sk a.1 parts = .ok fs ∧
  (s.entered p i).copiesAt p.tid (if writes then fs.flatMap fun f => (List.range 8).map fun j => (Place.spad p.t.core (f (4 * j)), 4) else []) = []

end Sys2Proof.Machine

section

open Sys2Proof Sys2Proof.Machine

/-- LDS reads, STS writes and ATOMS reads and replaces each element in the scratchpad in lane order (R153, R158); the operation stays
outstanding with what it has read. The bytes are read when the access issues (DESIGN CHOICE, log 4). -/
def Obligations.ScratchpadAccessesComplete : Prop :=
  (∀ (s : State) (p : Issuer) (x : FM) (f : Nat → Nat → Nat), s.issuer (.lds x) = some p → SpadReached s p (.lds x) x false f →
    let ι := p.iss s.m (.lds x)
    let op := s.m.nextId
    let o := (ι.elements x.dk (p.t.offLanes x)).foldl (fun (o : PendOp) el =>
      o.land (wholeDest x) el.1 (s.m.spadGet p.t.core (f el.2) (accessSize x.ty))) (mkOp p.t op (ι.flag x.fl) [wholeDest x] [])
    exec (.lds x) s = .next (s.leaves ((s.entered p (.lds x)).fresh.2.modTask p.tid fun t => t.startOp o) p (.lds x))) ∧
  (∀ (s : State) (p : Issuer) (x : FM) (f : Nat → Nat → Nat), s.issuer (.sts x) = some p → SpadReached s p (.sts x) x true f →
    let ι := p.iss s.m (.sts x)
    let op := s.m.nextId
    let m := (ι.elements x.dk (p.t.offLanes x)).foldl (fun (m : Mach) el =>
      m.spadPut p.t.core (f el.2) (accessSize x.ty) (p.t.datum x 0 x.d el.1)) (s.entered p (.sts x)).fresh.2
    exec (.sts x) s = .next (s.leaves (m.modTask p.tid fun t => t.startOp (mkOp p.t op (ι.flag x.fl) [] [])) p (.sts x))) ∧
  (∀ (s : State) (p : Issuer) (x : FM) (f : Nat → Nat → Nat), s.issuer (.atoms x) = some p → SpadReached s p (.atoms x) x true f →
    let ι := p.iss s.m (.atoms x)
    let op := s.m.nextId
    let r := (ι.elements x.dk (p.t.offLanes x)).foldl (fun (acc : PendOp × Mach) el =>
      let old := acc.2.spadGet p.t.core (f el.2) (accessSize x.ty)
      let b := if x.sub == 7 then p.t.datum x 2 x.b el.1 else (0, 0)
      (acc.1.land (wholeDest x) el.1 old, acc.2.spadPut p.t.core (f el.2) (accessSize x.ty) (atomNew x (p.t.datum x 0 x.d el.1) b old)))
      (mkOp p.t op (ι.flag x.fl) [wholeDest x] [], (s.entered p (.atoms x)).fresh.2)
    exec (.atoms x) s = .next (s.leaves (r.2.modTask p.tid fun t => t.startOp r.1) p (.atoms x)))

/-- The scratchpad forms of QLD, QST (R216), ALD and AST (R226). The bytes are read when the access issues (DESIGN CHOICE, log 4). -/
def Obligations.ScratchpadBlocksComplete : Prop :=
  (∀ row ∈ [(Instr.qld, fun (x : FM) => x.sub = 1, 64, 2, fun (x : FM) => Dest.shape x.d.toNat),
      (Instr.ald, fun x => x.sub = 0, 128, 128, fun x => Dest.tile x.d.toNat)],
    ∀ (s : State) (p : Issuer) (x : FM) (fs : List (Nat → Nat)), s.issuer (row.1 x) = some p → row.2.1 x →
    SpadBlockReached s p (row.1 x) x row.2.2.1 row.2.2.2.1 false fs →
    let d := row.2.2.2.2 x
    let o := fs.zipIdx.foldl (fun (o : PendOp) f => o.land d f.2 (s.m.spadGet p.t.core f.1 32))
      (mkOp p.t s.m.nextId ((p.iss s.m (row.1 x)).flag x.fl) [d] [])
    exec (row.1 x) s = .next (s.leaves ((s.entered p (row.1 x)).fresh.2.modTask p.tid fun t => t.startOp o) p (row.1 x))) ∧
  (∀ row ∈ [(Instr.qst, fun (x : FM) => x.sub = 1, 64, 2, fun (p : Issuer) (x : FM) => (p.t.readQ 0 x.d.toNat).part),
      (Instr.ast, fun x => x.sub = 0, 128, 128, fun p x => (p.t.readA 0 x.d.toNat).part)],
    ∀ (s : State) (p : Issuer) (x : FM) (fs : List (Nat → Nat)), s.issuer (row.1 x) = some p → row.2.1 x →
    SpadBlockReached s p (row.1 x) x row.2.2.1 row.2.2.2.1 true fs →
    let m := fs.zipIdx.foldl (fun (m : Mach) f => m.spadPut p.t.core f.1 32 (row.2.2.2.2 p x f.2)) (s.entered p (row.1 x)).fresh.2
    exec (row.1 x) s = .next (s.leaves (m.modTask p.tid fun t =>
      t.startOp (mkOp p.t s.m.nextId ((p.iss s.m (row.1 x)).flag x.fl) [] [])) p (row.1 x)))

/-- LDN and STN (R154, R302) at near addresses that every check passes: LDN reads a scratchpad or an accumulator of the complex, and with
`.acq` self-invalidates afterwards; STN, once the counted stores of the task are performed (R150), writes a scratchpad, and with `.rel`, once every earlier access is performed, first raises the
generation and completes its write-back. The bytes are read when the access issues (DESIGN CHOICE, log 4). -/
def Obligations.NearAccessesComplete : Prop :=
  (∀ (s : State) (p : Issuer) (x : FM), s.issuer (.ldn x) = some p →
    let i := Instr.ldn x
    let ι := p.iss s.m i
    let addrs := p.t.addrLanes x
    let els := ι.elements x.dk addrs
    flagFull p.t (ι.flag x.fl) = false →
    (if x.dk || x.ak then (laneAt addrs 0).2 = false else lanesPoi addrs &&& p.k = 0) →
    (∀ el ∈ els, el.2 % accessSize x.ty = 0 ∧ (s.entered p i).nearFault p.t.core p.t.ctx false el.2 (accessSize x.ty) = false ∧
      (el.2 / 2 ^ 20 % 2 = 1 → x.ty ∈ [Ty.b32, .b64, .b128])) →
    x.ord ≠ .rel →
    let o := els.foldl (fun (o : PendOp) el => o.land (wholeDest x) el.1
      (if el.2 / 2 ^ 20 % 2 = 1 then (s.entered p i).fresh.2.nearTile p.t.core p.t.ctx el.2 (accessSize x.ty)
       else s.m.spadGet (memberCore p.t.core (el.2 / 2 ^ 21 % 4)) (fun j => el.2 % 2 ^ 20 + j) (accessSize x.ty)))
      (mkOp p.t s.m.nextId (ι.flag x.fl) [wholeDest x] [])
    let m := (s.entered p i).fresh.2
    exec i s = .next (s.leaves ((if x.ord = .acq then m.selfInvalidate p.t.core else m).modTask p.tid fun t =>
      (if x.ord = .acq then t.unsee else t).startOp o) p i)) ∧
  (∀ (s : State) (p : Issuer) (x : FM), s.issuer (.stn x) = some p →
    let i := Instr.stn x
    let ι := p.iss s.m i
    let addrs := p.t.addrLanes x
    let els := ι.elements x.dk addrs
    flagFull p.t (ι.flag x.fl) = false →
    (if x.dk || x.ak then (laneAt addrs 0).2 = false else lanesPoi addrs &&& p.k = 0) →
    (∀ el ∈ els, el.2 % accessSize x.ty = 0 ∧ (s.entered p i).nearFault p.t.core p.t.ctx true el.2 (accessSize x.ty) = false) →
    (x.ord = .rel → (s.entered p i).performed p.tid false = true) → x.ord ≠ .acq → (s.entered p i).countedLeft p.tid = false →
    (s.entered p i).copiesAt p.tid (els.map fun el =>
      (Place.spad (memberCore p.t.core (el.2 / 2 ^ 21 % 4)) (el.2 % 2 ^ 20), accessSize x.ty)) = [] →
    let m := if x.ord = .rel then
        let m := (s.entered p i).bump p.t.core .die
        m.writeback p.t.core (m.core p.t.core).xrgen
      else s.entered p i
    let m' := els.foldl (fun (m : Mach) el => m.spadPut (memberCore p.t.core (el.2 / 2 ^ 21 % 4)) (fun j => el.2 % 2 ^ 20 + j)
      (accessSize x.ty) (p.t.datum x 0 x.d el.1)) m.fresh.2
    exec i s = .next (s.leaves (m'.modTask p.tid fun t => t.startOp (mkOp p.t m.nextId (ι.flag x.fl) [] [])) p i))

/-- QSET, QGET (R216) and SKWIN (R217), which declares an unpoisoned, well-formed shape that fits as a window of the team or removes one. -/
def Obligations.ShapeRegistersAndWindows : Prop :=
  (∀ (s : State) (p : Issuer) (x : FVI), s.issuer (.qset x) = some p →
    let a := p.t.uniOpnd 1 x.a.toNat 32
    exec (.qset x) s = .next (s.issued p (.qset x) fun t => t.writeQ x.d.toNat (1 <<< (x.imm.toNat % 16))
      ⟨List.replicate 16 (BitVec.ofNat 32 a.1), if a.2 then 0xFFFF else 0⟩)) ∧
  (∀ (s : State) (p : Issuer) (x : FVI), s.issuer (.qget x) = some p →
    let q := p.t.readQ 1 x.a.toNat
    let e := x.imm.toNat % 16
    exec (.qget x) s = .next (s.issued p (.qget x) fun t => t.writeU x.d.toNat
      ⟨BitVec.ofNat 64 (at32 q.e e).toNat, q.poi.getLsbD e, q.poi.getLsbD e⟩)) ∧
  (∀ (s : State) (p : Issuer) (x : FVI) (g : Team), s.issuer (.skwin x) = some p → x.imm.getLsbD 2 = false →
    let q := p.t.readQ 1 x.a.toNat
    let w := x.imm.toNat % 4
    q.poisoned = none → q.badElement = none → s.m.team p.t.team = some g → windowFits g w q = true →
    exec (.skwin x) s = .next (s.issuedOn (s.m.setTeam p.t.team { g with windows := tabSet g.windows w q }) p (.skwin x) id)) ∧
  (∀ (s : State) (p : Issuer) (x : FVI), s.issuer (.skwin x) = some p → x.imm.getLsbD 2 = true →
    exec (.skwin x) s = .next (s.issuedOn (s.m.modTeam p.t.team fun g => { g with windows := tabErase g.windows (x.imm.toNat % 4) }) p (.skwin x) id))

end

namespace Sys2Proof.Machine

/-! ### Ordering, sealing and system instructions (R155, R160 to R163, R176, R177, R179) -/

/-- The address a of a uniform form is unpoisoned, aligned and translated for a use, its region and page accept the form, it lies at
the place sp, and no earlier access of the task holds it back (R367, R390); m' is the machine after the lookups. -/
def ObjectSpot (m : Mach) (p : Issuer) (a : Nat × Bool) (align : Nat) (use : Use) (accepts : Accepts) (write : Bool) (e : Elt) (sp : Spot) (m' : Mach) : Prop :=
  a.2 = false ∧ a.1 % align = 0 ∧ e.lane = 0 ∧ e.va = a.1 ∧
  ∃ m1 : Mach, m.xlate p.t.core p.t.ctx e.va use p.x.found = (.ok e.pa e.attr e.secure, m1) ∧
    accepts (regionOf e.pa) e.attr = true ∧ (use = .store → regionOf e.pa = .loc → m1.sealed e.pa = false) ∧ refusedFails p.x.found [e] = [] ∧
    (m1.spot p.t.ctx e write).1 = sp ∧ m' = (m1.spot p.t.ctx e write).2.usedAway [e] ∧ m'.heldBack p.tid [(e, sp)] write = false ∧ m'.task p.tid = m.task p.tid ∧ m'.clk = m.clk

/-- The same of an object at pa of local memory. -/
def ObjectAt (m : Mach) (p : Issuer) (a : Nat × Bool) (align : Nat) (use : Use) (accepts : Accepts) (write : Bool) (e : Elt) (pa : Nat) (m' : Mach) : Prop :=
  ObjectSpot m p a align use accepts write e (.here pa) m'

/-- The value that a waiting core finds in an object of n bytes, and the machine in which it has acted on it: the actions of an acquire
(R293), the end of its place in the list of those that wait (R314), and a load at the home slice (R291). `got`: what the first
update that satisfied a JOINF has left (R199). -/
def objectRead (m : Mach) (p : Issuer) (acq : Bool) (scope : Scope) (pa n : Nat) (got : Option Datum := none) : Datum × Mach :=
  let r := tabGet m.record (lineOf pa)
  let m := if acq then m.acquireWriteback p.t.core scope r else m
  let d := got.getD (m.peek p.t.core pa n)
  let m := if acq then m.acquire p.t.core scope r else m
  let m := ((m.unlinkWhere fun l => l.pa == pa && l.tid == p.tid && l.e == p.e).readHome p.t.core pa n).2.2
  (d, if acq then m.modTask p.tid Task.unsee else m)

/-- Neither a record (R293) nor, for a value not yet got, a sector held dirty elsewhere (R300) stands against a load of an object by the
issuing core. -/
def ObjectOpen (m : Mach) (p : Issuer) (acq : Bool) (scope : Scope) (pa : Nat) (got : Option Datum := none) : Prop :=
  let r := tabGet m.record (lineOf pa)
  (acq = true → refusedBy p.t.core r = none) ∧ (got = none →
  (if acq then m.acquireWriteback p.t.core scope r else m).race p.t.core pa false true = none)

/-- What PREF does for one lane (R155): the whole line comes to the L1 or to the L2, in sectors. -/
def prefetched (p : Issuer) (x : FM) (m : Mach) (l : Nat) : Mach :=
  let a := laneAt (p.t.addrLanes x) l
  if a.2 then m
  else match m.xlate p.t.core p.t.ctx a.1 .load [] with
    | (.ok pa attr _, m) =>
      if regionOf pa ≠ .loc ∨ attr ≠ 0 then m
      else
        let sectors := (List.range 4).map fun i => 128 * lineOf pa + 32 * i
        if x.sub = 1 then sectors.foldl Mach.touch m
        else if m.race p.t.core pa false false ≠ none then m
        else sectors.foldl (fun m a => if m.l1 p.t.core a ≠ none ∨ m.race p.t.core a false false ≠ none then m else m.fill p.t.core a) m
    | (_, m) => m

/-- The range of SEAL and UNSEAL: unpoisoned, both operands multiples of 128, the length 128 to 2^32, every page translated to plain
local memory: its physical pieces. -/
def SealRange (m : Mach) (p : Issuer) (x : FM) (pieces : List (Nat × Nat)) (m' : Mach) : Prop :=
  let a := p.t.uniOpnd 1 x.a.toNat 64
  let b := p.t.uniOpnd 2 x.b.toNat 64
  a.2 = false ∧ b.2 = false ∧ a.1 % 128 = 0 ∧ b.1 % 128 = 0 ∧ 128 ≤ b.1 ∧ b.1 ≤ 2 ^ 32 ∧
  ∃ es : List Elt, m.xlateAll p.t.core p.t.ctx .load p.x.found ((pageStarts a.1 b.1).map fun v => (0, v)) = (⟨es, [], none⟩, m') ∧
    (∀ e ∈ es, regionOf e.pa = .loc ∧ e.attr = 0) ∧ pieces = piecesOf a.1 b.1 (es.map fun e => (e.va, e.pa))

end Sys2Proof.Machine

section

open Sys2Proof Sys2Proof.Machine

/-- PREF (R155) always completes; FENCE (R160) once what it waits for is performed: `.team` ends the window, a release raises the
generation and opens a window, an acquire acquires what the task has seen; MWAIT (R161) on a local stamp goes on where its condition holds
and waits where it does not. -/
def Obligations.FencesAndWaits : Prop :=
  (∀ (s : State) (p : Issuer) (x : FM), s.issuer (.pref x) = some p →
    exec (.pref x) s = .next (s.leaves ((lanesOf p.k).foldl (prefetched p x) (s.entered p (.pref x))) p (.pref x))) ∧
  (∀ (s : State) (p : Issuer) (x : FM), s.issuer (.fence x) = some p → x.scope = .team →
    (s.entered p (.fence x)).performed p.tid false = true → p.t.storesDone = true →
    exec (.fence x) s = .next (s.issued p (.fence x) fun t => { t with window := none })) ∧
  (∀ (s : State) (p : Issuer) (x : FM), s.issuer (.fence x) = some p → x.scope ≠ .team → p.t.storesDone = true →
    let i := Instr.fence x
    let rel := x.ord ∈ [Ord'.rel, .ar, .sc]
    let acq := x.ord ∈ [Ord'.acq, .ar, .sc]
    (rel → (s.entered p i).performed p.tid false = true) →
    let m := (if rel then (s.entered p i).bump p.t.core x.scope else s.entered p i).modTask p.tid fun t =>
      { t with window := if rel then some x.scope else none }
    (¬ acq → exec i s = .next (s.leaves m p i)) ∧
    (acq → ∀ m', m.acquireSeen p.t x.scope = .ok m' → exec i s = .next (s.leaves (m'.modTask p.tid Task.unsee) p i))) ∧
  (∀ (s : State) (p : Issuer) (x : FM) (e : Elt) (pa : Nat) (m : Mach), s.issuer (.mwait x) = some p →
    let i := Instr.mwait x
    let b := p.t.uniOpnd 2 x.b.toNat 64
    let acq := x.ord == .acq && x.scope != .team
    let d := (objectRead m p acq x.scope pa 8).1
    b.2 = false → ObjectAt (s.entered p i) p (p.t.addrUni x) 8 .load acceptObject false e pa m → ObjectOpen m p acq x.scope pa → d.2 = 0 →
    (if x.sub = 0 then 0 ≤ (BitVec.ofNat 64 d.1 - BitVec.ofNat 64 b.1).toInt else BitVec.ofNat 64 d.1 ≠ BitVec.ofNat 64 b.1) →
    exec i s = .next (s.leaves (objectRead m p acq x.scope pa 8).2 p i)) ∧
  (∀ (s : State) (p : Issuer) (x : FM) (e : Elt) (pa : Nat) (m : Mach), s.issuer (.mwait x) = some p →
    let i := Instr.mwait x
    let b := p.t.uniOpnd 2 x.b.toNat 64
    let acq := x.ord == .acq && x.scope != .team
    let d := (objectRead m p acq x.scope pa 8).1
    b.2 = false → ObjectAt (s.entered p i) p (p.t.addrUni x) 8 .load acceptObject false e pa m → ObjectOpen m p acq x.scope pa → d.2 = 0 →
    ¬ (if x.sub = 0 then 0 ≤ (BitVec.ofNat 64 d.1 - BitVec.ofNat 64 b.1).toInt else BitVec.ofNat 64 d.1 ≠ BitVec.ofNat 64 b.1) →
    exec i s = .next (s.waitsOn m p i true .cond))

/-- SEAL (R162) of a range that no other core holds dirty, in a context with fewer than 256 sealed regions, none of them overlapping,
writes the core's own sectors back and records the region; UNSEAL (R163) of a region no copy reads drops every L1 sector of it and the
region. -/
def Obligations.SealAndUnseal : Prop :=
  (∀ (s : State) (p : Issuer) (x : FM) (pieces : List (Nat × Nat)) (m : Mach), s.issuer (.seal x) = some p →
    let i := Instr.seal x
    SealRange (s.entered p i) p x pieces m →
    (∀ h ∈ m.holder, h.2 = p.t.core ∨ inPieces pieces (32 * h.1) 32 = false) →
    (m.seals.filter fun r => r.2.ctx == p.t.ctx).length < 256 →
    (∀ r ∈ m.seals, r.2.ctx = p.t.ctx → piecesMeet r.2.pieces pieces = false) →
    let m1 := m.flushWhere p.t.core fun n _ => inPieces pieces (32 * n) 32
    let m2 := pieces.foldl (fun m r => (List.range (r.2 / 32)).foldl (fun m j => m.touch (r.1 + 32 * j)) m) m1.fresh.2
    exec i s = .next (s.leaves { m2 with seals := tabSet m2.seals m1.nextId ⟨p.t.ctx, BitVec.ofNat 64 (p.t.uniOpnd 1 x.a.toNat 64).1, (p.t.uniOpnd 2 x.b.toNat 64).1, pieces, 0⟩ } p i)) ∧
  (∀ (s : State) (p : Issuer) (x : FM) (pieces : List (Nat × Nat)) (m : Mach) (id : Nat) (r : Seal), s.issuer (.unseal x) = some p →
    let i := Instr.unseal x
    SealRange (s.entered p i) p x pieces m →
    (m.seals.find? fun r => r.2.ctx == p.t.ctx && r.2.va.toNat == (p.t.uniOpnd 1 x.a.toNat 64).1 && r.2.len == (p.t.uniOpnd 2 x.b.toNat 64).1) = some (id, r) →
    exec i s = .next (if r.readers = 0 then
      let m' := m.dropEverywhere fun n => inPieces r.pieces (32 * n) 32
      s.leaves { m' with seals := tabErase m'.seals id } p i
    else s.waitsOn m p i true .cond))

/-- TLBI (R179) drops the entries it names from the TLBs of its scope and goes on unless a walk that could install one is in flight; SVC
(R176) waits for its park with its frame no longer than the context's; ERET (R177) makes the frame of a task parked by SVC and not yet
named ready, pinned while its team is resident, and goes on at the next clause. -/
def Obligations.SystemInstructions : Prop :=
  (∀ (s : State) (p : Issuer) (x : FM), s.issuer (.tlbi x) = some p →
    let i := Instr.tlbi x
    let a := p.t.uniOpnd 1 x.a.toNat 64
    let b := p.t.uniOpnd 2 x.b.toNat 64
    (x.sub = 0 → a.2 = false) → b.2 = false →
    let ctx := b.1 % 2 ^ 16
    let world := b.1 / 2 ^ 16 % 2 == 1
    let m := (s.entered p i).dropTlb p.t.core x.scope fun e => !tlbiMatches x.sub.toNat ctx a.1 world e
    exec i s = .next (if m.walkInTheWay p.t.core x.scope x.sub.toNat ctx a.1 world then s.waitsOn m p i true .cond else s.leaves m p i)) ∧
  (∀ (s : State) (p : Issuer) (x : FC) (c : Ctx), s.issuer (.svc x) = some p → s.m.ctx p.t.ctx = some c →
    let i := Instr.svc x
    let m := s.entered p i
    (p.t.frameBytes (if m.onlyMember p.tid p.t then (m.team p.t.team).map (·.spadLen) else none)) ≤ c.frameSize →
    exec i s = .next (s.waitsOn m p i true .service)) ∧
  (∀ (s : State) (p : Issuer) (x : FC) (n : Nat) (k : Parked), s.issuer (.eret x) = some p →
    let i := Instr.eret x
    let a := p.t.uniOpnd 4 x.reg.toNat 64
    a.2 = false →
    ((s.entered p i).ctxs.findSome? fun c => (c.2.parked.find? fun q => q.frame == a.1 && q.kind == 2 && !q.ready).map fun q => (c.1, q)) = some (n, k) →
    let pin := (s.entered p i).tasks.any fun o => o.2.team == k.team && o.2.state != .retired
    exec i s = .next { s.jumpedOn p i (p.x.clause + 64) 1 id with
      m := (s.jumpedOn p i (p.x.clause + 64) 1 id).m.modCtx n fun c =>
        { c with parked := c.parked.map fun q => if q = k then { q with ready := true, pin := pin } else q } })

end

namespace Sys2Proof.Machine

/-! ### Work creation, futures and signals (R186 to R200) -/

/-- The closure that an image makes when a core pushes it at a time (R186, R248). -/
def closureOf (img : Image) (at' : Word) (core : Nat) (gen : BitVec 16) : Entry := ⟨img.1, img.2, at', false, 0, gen, false, false, core, false⟩

/-- The image of a closure passes the checks of R188 (its header, its future and its descriptor unpoisoned, the future a multiple of 32,
the entry of 64) and its deque or inbox has room (R250, R251). -/
def SpawnReady (m : Mach) (p : Issuer) (img : Image) (c : Ctx) : Prop :=
  img.2.extractLsb' 0 12 = 0 ∧ (img.1.getD 0 0).toNat % 64 = 0 ∧ (img.1.getD 1 0).toNat % 32 = 0 ∧ m.ctx p.t.ctx = some c ∧
  m.spawnRoom p.t.core p.t.ctx (c.spawnDie p.t.core (closureOf img 0 0 0)) = true

/-- The push of a closure as a release at `.dev`: on the core's own deque, or into the inbox of the nearest die that AFF permits (R249). -/
def spawned (m : Mach) (p : Issuer) (ι : Iss) (c : Ctx) (img : Image) : Mach :=
  let m := (m.dropKept ι).bump p.t.core .dev
  let e := closureOf img m.xclk p.t.core (m.core p.t.core).xrgen
  match c.spawnDie p.t.core e with
  | none => m.pushDeque p.t.core p.t.ctx e
  | some d => m.inboxPush d p.t.ctx e

/-- SPAWN i of an image, found in machine m, is a release that pushes the closure, and with `.count` first adds 1 to the COUNT of its future
in local memory. -/
def Spawns (s : State) (p : Issuer) (i : Instr) (count : Bool) (m : Mach) (img : Image) : Prop :=
  ∀ c : Ctx, SpawnReady m p img c →
    let f := (img.1.getD 1 0).toNat
    (count = false ∨ f = 0 → m.performed p.tid false = true → exec i s = .next (s.leaves (spawned m p (p.iss s.m i) c img) p i)) ∧
    (count = true → f ≠ 0 → ∀ (e : Elt) (pa : Nat) (m' : Mach), ObjectAt m p (f, false) 8 .store acceptUpdate true e pa m' →
      m'.race p.t.core pa true true = none → m'.performed p.tid false = true →
      exec i s = .next (s.leaves (spawned (m'.updateAt p.t.core pa fun mem => mem.updateFuture pa .count) p (p.iss s.m i) c img) p i))

/-- Every split's priority stamp becomes that of this cycle (R191). -/
def restamped (m : Mach) (t : Task) : Task :=
  { t with splits := t.splits.map fun o => o.map fun y => { y with stamp := m.clk }, stack := t.stack.map fun y => { y with stamp := m.clk } }

/-- The task once it has told its team that its tile is done, and once TFETCH has counted the fetch (R193, R194). -/
def State.tiled (s : State) (p : Issuer) (i : Instr) : Mach := (s.entered p i).tileDone p.tid
def State.fetching (s : State) (p : Issuer) (i : Instr) : Mach := (s.tiled p i).modTask p.tid fun t => { t with fetches := t.fetches + 1 }

/-- The instruction c updates the object at sA + OFF by the plan of an atomic update with release; `after` is what else it does. -/
def UpdateCompletes (c : FM → Instr) (plan : Issuer → FM → Plan) (ok : Issuer → FM → Prop) (after : Issuer → FM → Mach → Mach) : Prop :=
  ∀ (s : State) (p : Issuer) (x : FM) (ss : List (Elt × Spot)) (m : Mach), s.issuer (c x) = some p → ok p x →
    let P := plan p x
    let a := p.t.addrUni x
    a.2 = false → a.1 % P.size = 0 → Reached (s.entered p (c x)) p P acceptUpdate [(0, a.1)] ss m → Clear m p (p.iss s.m (c x)) P ss →
    exec (c x) s = .next (s.leaves (after p x (P.effect m p (p.iss s.m (c x)) ss)) p (c x))

/-- The team and the task have settled the team's future when FSET or FFAIL names it. -/
def settled' (p : Issuer) (x : FM) (m : Mach) : Mach :=
  if (m.team p.t.team).any fun g => g.future.toNat == (p.t.addrUni x).1 && g.future != 0 then
    (m.modTeam p.t.team fun g => { g with settled := true }).modTask p.tid fun t => { t with settled := true }
  else m

/-- JOINF (R196) and SGWAIT (R200) of an object in local memory go on where it is ready or its condition holds, as acquires, and wait where
it is not; a JOINF that an update has satisfied returns what the first such update left (R199); FPROBE (R197) loads COUNT and STATUS. -/
def FutureAndSignalReadsRows : Prop :=
  (∀ (s : State) (p : Issuer) (x : FM) (e : Elt) (pa : Nat) (m : Mach), s.issuer (.joinf x) = some p →
    let i := Instr.joinf x
    let acq := x.scope != .team
    let got := (m.links.find? fun l => l.pa == pa && l.tid == p.tid && l.e == p.e).bind (·.got)
    let d := (objectRead m p acq x.scope pa 32 got).1
    let bad := d.2 % 4 != 0
    let v := datumReg d 1
    let st := datumReg d 2
    ObjectAt (s.entered p i) p (p.t.addrUni x) 32 .load acceptObject false e pa m → ObjectOpen m p acq x.scope pa got →
    exec i s = .next (if bad ∨ (BitVec.ofNat 64 d.1).toInt ≤ 0 then
      s.leaves ((objectRead m p acq x.scope pa 32 got).2.modTask p.tid fun t =>
        let t := { t.writeU x.d.toNat (if bad then ⟨v.v, true, true⟩ else v) with progressed := true }
        if x.sub.getLsbD 0 then t.writeU x.b.toNat (if bad then { st with v := st.v ||| BitVec.ofNat 64 (2 ^ 32) } else st) else t) p i
      else s.waitsOn (m.link (p.iss s.m i) pa) p i true .cond)) ∧
  (∀ (s : State) (p : Issuer) (x : FM) (e : Elt) (pa : Nat) (m : Mach), s.issuer (.sgwait x) = some p →
    let i := Instr.sgwait x
    let acq := x.scope != .team
    let d := (objectRead m p acq x.scope pa 8).1
    let v := p.t.datumU 0 x.d.toNat 8
    let old := (BitVec.ofNat 64 d.1).toInt
    let want := (BitVec.ofNat 64 v.1).toInt
    v.2 = 0 → ObjectAt (s.entered p i) p (p.t.addrUni x) 8 .load acceptObject false e pa m → ObjectOpen m p acq x.scope pa → d.2 = 0 →
    exec i s = .next (if (if x.sub = 0 then old ≤ want else if x.sub = 1 then old = want else old ≠ want) then
      s.leaves (objectRead m p acq x.scope pa 8).2 p i else s.waitsOn m p i true .cond)) ∧
  (∀ (s : State) (p : Issuer) (x : FM) (ss : List (Elt × Spot)) (m : Mach), s.issuer (.fprobe x) = some p →
    let i := Instr.fprobe x
    let P := { fprobePlan (p.iss s.m i) x with uni := true }
    let a := p.t.addrUni x
    flagFull p.t P.flag = false → a.2 = false → a.1 % 32 = 0 →
    Reached (s.entered p i) p P acceptObject ((0, a.1) :: if x.sub.getLsbD 0 then [(1, a.1 + 16)] else []) ss m → Clear m p (p.iss s.m i) P ss →
    exec i s = .next (s.leaves (P.effect m p (p.iss s.m i) ss) p i))

/-- FSET, FFAIL (R198) and SGADD (R200) complete as atomic updates with release. -/
def FutureAndSignalUpdatesRows : Prop :=
  UpdateCompletes .fset (fun p x => updatePlan x 32 ((p.t.datumU 0 x.d.toNat 8).2 != 0)
    (fun pa mem => mem.updateFuture pa (.set (p.t.datumU 0 x.d.toNat 8))) (fun d a w sc => futureFrame d a w sc (.set (p.t.datumU 0 x.d.toNat 8))))
    (fun _ _ => True) settled' ∧
  UpdateCompletes .ffail (fun p x => updatePlan x 32 false
    (fun pa mem => mem.updateFuture pa (.fail (BitVec.ofNat 64 (p.t.datumU 0 x.d.toNat 8).1)))
    (fun d a w sc => futureFrame d a w sc (.fail (BitVec.ofNat 64 (p.t.datumU 0 x.d.toNat 8).1))))
    (fun p x => (p.t.datumU 0 x.d.toNat 8).2 = 0) settled' ∧
  UpdateCompletes .sgadd (fun p x => updatePlan x 8 ((p.t.datumU 0 x.d.toNat 8).2 != 0) (addSignal (p.t.datumU 0 x.d.toNat 8))
    (signalFrame (p.t.datumU 0 x.d.toNat 8))) (fun _ _ => True) (fun _ _ m => m)

end Sys2Proof.Machine

section

open Sys2Proof Sys2Proof.Machine

/-- The instructions on futures and signals (R196 to R200), reading, waiting and updating. The frames to objects of other devices have the layouts of DESIGN CHOICE, log 18. -/
def Obligations.FutureAndSignalInstructions : Prop := FutureAndSignalReadsRows ∧ FutureAndSignalUpdatesRows

/-- SPAWN (R187, R188) of an image in memory and of one in registers. -/
def Obligations.SpawnsComplete : Prop :=
  (∀ (s : State) (p : Issuer) (x : FX), s.issuer (.spawnHeader x) = some p →
    countAsked ((s.entered p (.spawnHeader x)).keptOf (p.iss s.m (.spawnHeader x))) = none →
    Spawns s p (.spawnHeader x) (x.imm7.getLsbD 0) (s.entered p (.spawnHeader x)) (registerImage p.t x.a.toNat x.ext)) ∧
  (∀ (s : State) (p : Issuer) (x : FX) (e : Elt) (pa : Nat) (m : Mach), s.issuer (.spawn x) = some p →
    countAsked ((s.entered p (.spawn x)).keptOf (p.iss s.m (.spawn x))) = none →
    ObjectAt (s.entered p (.spawn x)) p (p.t.uniOpnd 1 x.a.toNat 64) 128 .load acceptAll false e pa m →
    m.spanRace p.t.core pa 128 false false = none →
    Spawns s p (.spawn x) (x.imm7.getLsbD 0) (m.readSpan p.t.core pa 128 false).2 (imageOf (m.readSpan p.t.core pa 128 false).1))

/-- TEND with and without a value (R189), YIELD (R191), ROLE of a task with one split and nothing outstanding (R192), TFETCH (R193) and
TDONE (R194). -/
def Obligations.TaskInstructions : Prop :=
  (∀ row ∈ [(Instr.tend, false), (Instr.tendValue, true)], ∀ (s : State) (p : Issuer) (x : FC), s.issuer (row.1 x) = some p →
    exec (row.1 x) s = .next { s with grants := s.grants.tail, m := (s.tiled p (row.1 x)).modTask p.tid fun t =>
      { t with endValue := if row.2 then some (p.t.readU 4 x.reg.toNat) else none }.finish .normal }) ∧
  (∀ (s : State) (p : Issuer) (x : FC), s.issuer (.yield x) = some p →
    let i := Instr.yield x
    let pending := (s.m.ctx p.t.ctx).any fun c => c.pending.isSome
    let m := (s.entered p i).modTask p.tid (restamped s.m)
    exec i s = .next (if pending then s.waitsOn m p i true .cond
      else { s with grants := s.grants.tail, m := m.modTask p.tid fun t => t.modSplit p.e fun _ =>
        { (p.left i).goto (p.x.clause + 64) 1 (s.m.clk + 1) with stamp := s.m.clk } })) ∧
  (∀ (s : State) (p : Issuer) (x : FX) (pa attr : Nat) (secure : Bool) (m : Mach) (a : Allot) (xhnd : Word), s.issuer (.role x) = some p →
    let i := Instr.role x
    let at' := wrapBits 64 ((x.ext.toNat : Int) - 64)
    (p.t.splits.filter Option.isSome).length = 1 → p.t.stack = [] → (∀ j < 8, (p.t.join j).arrivals = []) → p.t.flagsZero = true →
    x.ext.toNat % 64 = 0 →
    (s.entered p i).xlate p.t.core p.t.ctx at' .exec p.x.found = (.ok pa attr secure, m) → m.task p.tid = (s.entered p i).task p.tid →
    m.clk = s.m.clk → refusedFails p.x.found [⟨0, at', pa, attr, secure⟩] = [] → m.entryRecord pa = some (a, xhnd) → fits (m.holdings p.t.core (some p.tid)) p.t.part a = true →
    let tiles := if a.acore then List.range 64 else m.freeTiles p.t.core p.t.part (some p.tid) (p.t.tiles.take (8 * a.ablk)) (8 * a.ablk)
    let m' := m.modTask p.tid fun t => t.role p.e x.ext a xhnd (if x.imm7.getLsbD 2 then t.prio else x.imm7.toNat % 4) tiles
      ((p.left i).advance m.clk (slotsOf i) (headerNslot (headerAt s.m p.x)))
    exec i s = .next { s with grants := s.grants.tail, m := m' }) ∧
  (∀ (s : State) (p : Issuer) (x : FS) (t : Machine.Task), s.issuer (.tfetch x) = some p →
    let i := Instr.tfetch x
    let m := s.fetching p i
    let put := fun (m : Mach) (w : Word) => m.modTask p.tid fun t => { t.writeU x.d.toNat ⟨w, false, false⟩ with xtile := w }
    m.task p.tid = some t →
    exec i s = .next (if m.tileLaunch t = false then s.leaves (put m 0) p i
      else match m.teamTile t t.fetches with
        | (some w, m) => s.leaves (put m w) p i
        | (none, m) => s.waitsOn m p i true .cond)) ∧
  (∀ (s : State) (p : Issuer) (x : FS), s.issuer (.tdone x) = some p →
    exec (.tdone x) s = .next (s.leaves ((s.tiled p (.tdone x)).modTask p.tid fun t =>
      { t with xtile := t.xtile &&& ~~~(BitVec.ofNat 64 (2 ^ 63)) }) p (.tdone x)))

end

namespace Sys2Proof.Machine

/-! ### Spawn queues and barrier words (R201 to R204, R210 to R212) -/

/-- The descriptors that a QPUSH found are unpoisoned in the words it reads, hold no reserved value, are enabled, and the record of each
fits the registers that hold it (R22, R201, R202). -/
def QueuesOpen (m : Mach) (p : Issuer) (x : FM) (gs : List QGroup) : Prop :=
  ∀ g ∈ gs, descPoison m [] (x.sub.getLsbD 0) g = none ∧
    descFails (descWord m [] g 1).1 (descWord m [] g 7).1 = none ∧
    let w := 4 * 2 ^ fieldOf (descWord m [] g 1).1 20 2 / (if x.dk then 2 else 1)
    x.d.toNat % w = 0 ∧ x.d.toNat + w ≤ if x.dk then 8 * p.t.sblk else 8 * p.t.vblk

/-- The records of a QPUSH to local queues as they stand once it has issued: the generation raised for its release, TAIL and STATE of each
queue with the record of the release, the records at their places, present at once but for one that goes to another device (R202), and
the lanes accepted, which reach pB when the flag falls. -/
def queued (m : Mach) (p : Issuer) (ι : Iss) (x : FM) (gs : List QGroup) (pl : Placing) (spots : List (Placed × Elt × Spot)) : Mach :=
  let c := p.t.core
  let m := m.dropKept ι
  let m := if gs.isEmpty then m else m.bump c x.scope
  let r := m.recordOf c x.scope
  let (op, m) := m.fresh
  let m := pl.qs.foldl (fun (m : Mach) (pa, q) =>
    let m := (m.updateAt c (pa + 32) fun mem => mem.setWord64 (pa + 32) q.tail).updateAt c pa id
    let m := { m with mem := m.mem.setWord64 (pa + 56) q.state }
    if pl.placed.any fun y => y.queue == pa then m.setRecord (pa + 32) r else m) m
  let (ids, m) := spots.foldl (fun (acc : List Nat × Mach) (y, e, sp) =>
    let (ids, m) := acc
    let d := p.t.recordOf x y.lane (y.size / 4)
    let (ids, m) := match sp with
      | .here pa => (ids, (List.range ((y.size + 31) / 32)).foldl (fun (m : Mach) i =>
          let n := min 32 (y.size - 32 * i)
          m.updateAt c (pa + 32 * i) fun mem => mem.put (pa + 32 * i) n (d.1 / 2 ^ (256 * i) % 2 ^ (8 * n), d.2 / 2 ^ (8 * i) % 2 ^ (n / 4))) m)
      | .away dev a =>
        let (n, m) := m.request (.record p.tid op y.queue y.pos r) p.t.ctx (writeFrame dev a e.secure .rlx .team .b32 (toBytes y.size d.1) fun w => d.2.testBit w)
        (ids ++ [n], m)
      | _ => (ids, m)
    (ids, if sp matches .away _ _ then m else m.recordPresent y.queue y.pos r)) ([], m)
  let lanes := fun (ls : List Nat) => ls.foldl (fun k l => k ||| if x.dk then p.x.xact else (1 : Mask) <<< l) (0 : Mask)
  m.modTask p.tid fun t => t.startOp ⟨op, .access, ι.flag x.fl, false,
    [.p x.b.toNat (lanes (gs.flatMap fun g => g.els.map (·.lane))) ⟨lanes (pl.placed.map (·.lane)), 0⟩ 0], ids⟩

/-- The lines of a descriptor that the core holds are written back before a read of the device (R204). -/
def descFlushed (m : Mach) (p : Issuer) (pa : Nat) : Mach := (m.flush p.t.core pa).flush p.t.core (pa + 32)

/-- A descriptor in local memory that QFLUSH or QSTAT reads: no sector of it is dirty elsewhere, the words read are unpoisoned, no
reserved value, enabled. -/
def DescriptorAt (m : Mach) (p : Issuer) (x : FM) (words : List Nat) (e : Elt) (pa : Nat) (m' : Mach) : Prop :=
  ObjectAt m p (p.t.addrUni x) 64 .load acceptObject false e pa m' ∧ m'.spanRace p.t.core pa 64 false true = none ∧
  (∀ i ∈ words, ((descFlushed m' p pa).mem.word64 (pa + 8 * i)).2 = false) ∧
  descFails ((descFlushed m' p pa).mem.word64 (pa + 8)).1 ((descFlushed m' p pa).mem.word64 (pa + 56)).1 = none

/-- A registered barrier word of the issuing task's team at the offset that x names, unpoisoned: the team, the entry and the word. -/
def BarrierAt (m : Mach) (p : Issuer) (x : FM) (g : Team) (r : Barrier) (b : BarWord) : Prop :=
  let o := p.t.offUni x
  o.2 = false ∧ o.1 % 8 = 0 ∧ m.team p.t.team = some g ∧ o.1 + 8 ≤ g.spadLen ∧ g.barrier o.1 = some r ∧ r.offset = o.1 ∧
  (m.barWord g o.1).2 = false ∧ b = BarWord.of (m.barWord g o.1).1

end Sys2Proof.Machine

section

open Sys2Proof Sys2Proof.Machine

/-- QPUSH (R202) to queues of local memory takes a place for the record of each lane, in ascending lanes, in the named queue or the
fallback; the lanes without a place are refused; with queues on other devices it first reads their descriptors (R381). Their frames have the layouts of DESIGN CHOICE, log 18. -/
def Obligations.QueuePushes : Prop :=
  (∀ (s : State) (p : Issuer) (x : FM) (es : List Elt) (ss : List (Elt × Spot)) (rings : List Elt) (rec : List (Elt × Spot)) (m0 m1 m2 m3 : Mach),
    s.issuer (.qpush x) = some p →
    let i := Instr.qpush x
    let ι := p.iss s.m i
    let addrs := p.t.addrLanes x
    let gs := qGroups ss
    let pl := qpushPlacing x p.t m2 gs
    flagFull p.t (ι.flag x.fl) = false →
    (if x.dk || x.ak then (laneAt addrs 0).2 = false else lanesPoi addrs &&& p.k = 0) →
    (∀ a ∈ ι.elements x.dk addrs, a.2 % 64 = 0) →
    Found (s.entered p i) p .store x.dk acceptUpdate (ι.elements x.dk addrs) es m0 → Spotted m0 p true es ss m1 →
    (∀ y ∈ ss, ∃ pa, y.2 = .here pa) → m1.keptOf ι = [] →
    m1.raceFails p.t.core true true ((locals ss).flatMap fun y => [(y.1, y.2), (y.1, y.2 + 32)]) = [] →
    let m1' := (locals ss).foldl (fun m y => descFlushed m p y.2) m1
    QueuesOpen m1' p x gs →
    Found m1' p .store x.dk acceptUpdate (qpushRings m1' gs) rings m2 →
    Spotted m2 p true (qpushPlaces p.t m2 rings pl) rec m3 →
    m3.raceFails p.t.core true true (qpushSectors pl rec) = [] → m3.performed p.tid false = true →
    exec i s = .next (s.leaves (queued m3 p ι x gs pl (pl.placed.zip rec)) p i)) ∧
  (∀ (s : State) (p : Issuer) (x : FM) (es : List Elt) (ss : List (Elt × Spot)) (m0 m1 : Mach), s.issuer (.qpush x) = some p →
    let i := Instr.qpush x
    let ι := p.iss s.m i
    let addrs := p.t.addrLanes x
    let far := (qGroups ss).filter fun g => g.dev.isSome
    flagFull p.t (ι.flag x.fl) = false →
    (if x.dk || x.ak then (laneAt addrs 0).2 = false else lanesPoi addrs &&& p.k = 0) →
    (∀ a ∈ ι.elements x.dk addrs, a.2 % 64 = 0) →
    Found (s.entered p i) p .store x.dk acceptUpdate (ι.elements x.dk addrs) es m0 → Spotted m0 p true es ss m1 →
    far ≠ [] → m1.keptOf ι = [] →
    exec i s = .next (s.waitsOn (far.foldl (fun m g => (m.request (.kept p.tid p.t.free [(g.dev.getD 0, g.addr)]) p.t.ctx
      (readFrame (g.dev.getD 0) (g.addr + 8) 56 g.secure .rlx .team)).2) m1) p i false .cond))

/-- QFLUSH, with no counted store of the task outstanding (R150), and QSTAT (R204) of a queue of local memory, and their frames to the device of a remote one (R381). Those frames have the layouts of DESIGN CHOICE, log 18. -/
def Obligations.QueueFlushAndStatus : Prop :=
  (∀ (s : State) (p : Issuer) (x : FM) (e : Elt) (pa : Nat) (m : Mach), s.issuer (.qflush x) = some p →
    DescriptorAt (s.entered p (.qflush x)) p x [1, 7] e pa m → (descFlushed m p pa).countedLeft p.tid = false →
    exec (.qflush x) s = .next (s.leaves ((descFlushed m p pa).flushQueue pa) p (.qflush x))) ∧
  (∀ (s : State) (p : Issuer) (x : FM) (e : Elt) (d a : Nat) (m : Mach), s.issuer (.qflush x) = some p →
    ObjectSpot (s.entered p (.qflush x)) p (p.t.addrUni x) 64 .load acceptObject false e (.away d a) m → m.countedLeft p.tid = false →
    exec (.qflush x) s = .next (s.leaves (m.request .free p.t.ctx (blankFrame 0x06 d a e.secure)).2 p (.qflush x))) ∧
  (∀ (s : State) (p : Issuer) (x : FM) (e : Elt) (pa : Nat) (m : Mach), s.issuer (.qstat x) = some p →
    let i := Instr.qstat x
    let flag := (p.iss s.m i).flag x.fl
    let dest := Dest.uni x.d.toNat .b64
    let w := fun k => ((descFlushed m p pa).mem.word64 (pa + 8 * k)).1
    let v := if x.sub = 0 then w 4 - w 5 else if x.sub = 1 then BitVec.ofNat 64 ((descFlushed m p pa).readyCount pa)
      else if x.sub = 2 then BitVec.ofNat 64 (fieldOf (w 7) 32 16) else if x.sub = 3 then BitVec.ofNat 64 (fieldOf (w 7) 0 32)
      else BitVec.ofNat 64 (fieldOf (w 1) 0 20 + 1)
    flagFull p.t flag = false → DescriptorAt (s.entered p i) p x (if x.sub = 0 then [1, 4, 5, 7] else [1, 7]) e pa m →
    exec i s = .next (s.leaves ((descFlushed m p pa).fresh.2.modTask p.tid fun t =>
      t.startOp ((mkOp p.t (descFlushed m p pa).nextId flag [dest] []).land dest 0 (v.toNat, 0))) p i)) ∧
  (∀ (s : State) (p : Issuer) (x : FM) (e : Elt) (d a : Nat) (m : Mach), s.issuer (.qstat x) = some p →
    let i := Instr.qstat x
    let flag := (p.iss s.m i).flag x.fl
    let dest := Dest.uni x.d.toNat .b64
    flagFull p.t flag = false →
    ObjectSpot (s.entered p i) p (p.t.addrUni x) 64 .load acceptObject false e (.away d a) m →
    let r := m.fresh.2.request (.load p.tid m.nextId [(dest, 0, 0)]) p.t.ctx
      { blankFrame 0x06 d a e.secure with oparg := BitVec.ofNat 64 (x.sub.toNat + 1) }
    exec i s = .next (s.leaves (r.2.modTask p.tid fun t => t.startOp (mkOp p.t m.nextId flag [dest] [r.1])) p i))

/-- BARI registers a word and sets EXP, PEND and its members (R211); BARA and BARX arrive, BARP adds to BYTES, each with the completion
check of R212; BARW goes on where PHASE, as of the cycle before, differs from its parity, and waits where it does not. -/
def Obligations.BarrierInstructions : Prop :=
  (∀ (s : State) (p : Issuer) (x : FM) (g : Team), s.issuer (.bari x) = some p →
    let i := Instr.bari x
    let o := p.t.offUni x
    let v := p.t.uniOpnd 0 x.d.toNat 64
    let old := g.barrier o.1
    o.2 = false → v.2 = false → s.m.team p.t.team = some g → o.1 % 8 = 0 → o.1 + 8 ≤ g.spadLen →
    v.1 % 32 ≤ 16 → v.1 / 2 ^ 5 % 2 ^ 11 = 0 → v.1 / 2 ^ 32 = 0 → (old = none → g.barriers.length < 32) →
    let members := if BitVec.ofNat 16 (v.1 / 2 ^ 16) = 0 then BitVec.ofNat 16 (2 ^ g.size - 1) else BitVec.ofNat 16 (v.1 / 2 ^ 16)
    let m := if old.isSome then s.entered p i
      else (s.entered p i).modTeam p.t.team fun g => { g with barriers := g.barriers ++ [⟨o.1, 0, 0, none, none, none⟩] }
    let m := m.changeBarrier p.t.team o.1 (fun _ => ⟨false, v.1 % 32, v.1 % 32, 0⟩)
      fun r => { r with arrived := 0, members := members, changed := some s.m.clk }
    exec i s = .next (s.leaves (m.modCore g.core fun c =>
      { c with spad := (c.spad.setPoison (g.spadBase + o.1) false).setPoison (g.spadBase + o.1 + 4) false }) p i)) ∧
  (∀ row ∈ [(Instr.bara, false), (Instr.barx, true)], ∀ (s : State) (p : Issuer) (x : FM) (g : Team) (r : Barrier) (b : BarWord),
    s.issuer (row.1 x) = some p → BarrierAt s.m p x g r b →
    let v := if row.2 then p.t.uniOpnd 0 x.d.toNat 64 else (0, false)
    v.2 = false → v.1 < 2 ^ 39 →
    exec (row.1 x) s = .next (
      if p.t.storesDone = false ∨ r.arrived.getLsbD p.t.idx = true then s.waitsOn (s.entered p (row.1 x)) p (row.1 x) true .cond
      else s.leaves ((s.entered p (row.1 x)).changeBarrier p.t.team r.offset
        (fun b => { b with pend := b.pend - 1, bytes := (s.entered p (row.1 x)).barBytes (b.bytes + v.1) })
        fun r => { r with arrived := r.arrived ||| ((1 : BitVec 16) <<< p.t.idx), changed := some s.m.clk }) p (row.1 x))) ∧
  (∀ (s : State) (p : Issuer) (x : FM) (g : Team) (r : Barrier) (b : BarWord), s.issuer (.barp x) = some p → BarrierAt s.m p x g r b →
    let v := p.t.uniOpnd 0 x.d.toNat 64
    let n := b.bytes + (BitVec.ofNat 64 v.1).toInt
    v.2 = false → -(2 : Int) ^ 39 ≤ n → n < (2 : Int) ^ 39 →
    exec (.barp x) s = .next (s.leaves ((s.entered p (.barp x)).changeBarrier p.t.team r.offset (fun b => { b with bytes := n })
      fun r => { r with changed := some s.m.clk }) p (.barp x))) ∧
  (∀ (s : State) (p : Issuer) (x : FM) (g : Team) (r : Barrier) (b : BarWord), s.issuer (.barw x) = some p → BarrierAt s.m p x g r b →
    exec (.barw x) s = .next (
      if (match r.before with
        | some (c, ph) => if c = s.m.clk then ph else b.phase
        | none => b.phase) = x.sub.getLsbD 0 then s.waitsOn (s.entered p (.barw x)) p (.barw x) true .cond
      else s.issued p (.barw x) fun t => { t with progressed := true }))

end

namespace Sys2Proof.Machine

/-! ### Copies and the matrix unit (R205 to R209, R218 to R227) -/

/-- The addresses that an instruction names for several uses pass translation, permission and world, and their regions and pages accept
it: the elements of each, and the machine after the lookups. -/
def FoundAll (m : Mach) (p : Issuer) (uni : Bool) (ts : List Target) (ess : List (List Elt)) (m' : Mach) : Prop :=
  ts.foldl (fun (acc : List XlAll × Mach) t =>
    (acc.1 ++ [(acc.2.xlateAll p.t.core p.t.ctx t.use p.x.found t.els).1], (acc.2.xlateAll p.t.core p.t.ctx t.use p.x.found t.els).2)) ([], m) =
    (ess.map fun es => ⟨es, [], none⟩, m') ∧
  (∀ es ∈ ess, refusedFails p.x.found es = []) ∧
  ∀ y ∈ ts.zip ess, ∀ e ∈ y.2, (uni = true ∨ y.1.uni = true ∨ p.k.getLsbD e.lane = true) ∧ y.1.accepts (regionOf e.pa) e.attr = true ∧
    (y.1.use = .store → regionOf e.pa = .loc → m'.sealed e.pa = false)

/-- A copy may start (R205, R162): no earlier copy of the task writes the same bytes, no destination is sealed and no sector of its ranges
is dirty elsewhere, they do not overlap, its flag is not full, a release finds every earlier access performed (R383), a commit point every
counted store (R150), and the sealed regions it reads have room for a reader. -/
def CopyOpen (m : Mach) (p : Issuer) (flag : Option Nat) (scope : Scope) (c : CopyPlan) : Prop :=
  let fails := m.pieceFail p.t.core
  m.copiesAt p.tid (c.targets ++ c.sources) = [] ∧
  (∀ v ∈ c.moves, fails false v.src v.len = none ∧ ∀ d ∈ v.dsts, fails true d v.len = none) ∧
  (∀ y ∈ c.completion.place, fails true y.1 y.2 = none) ∧ c.overlaps = false ∧ flagFull p.t flag = false ∧
  (c.release = true → m.performed p.tid (c.remoteOnly && scopeNat scope ≤ 3) = true) ∧
  (c.counted = true → m.countedLeft p.tid = false) ∧ ∀ r ∈ m.seals, r.1 ∈ m.copyReaders c → r.2.readers < 2 ^ 20 - 1

/-- The machine once a copy has started (R205, R305): the core's lines of both ranges are written back and those of the destination dropped,
a release raises the generation, the engine has the copy, with what it can read now and the requests for the rest, every sealed region it
reads has one reader more, and the flag has risen; an empty copy completes at once. -/
def copyStarted (m : Mach) (p : Issuer) (flag : Option Nat) (scope : Scope) (c : CopyPlan) : Mach :=
  let readers := m.copyReaders c
  let m := (c.targets ++ c.sources).foldl (fun (m : Mach) y => (sectorsAt y.1 y.2).foldl (fun m a => m.flush p.t.core a) m) m
  let m := c.targets.foldl (fun (m : Mach) y => (sectorsAt y.1 y.2).foldl (fun m a => m.dropL1 p.t.core a) m) m
  let m := if c.release then m.bump p.t.core scope else m
  let id := m.nextId
  let m := m.fresh.2
  let op := m.nextId
  let m := m.fresh.2
  let moves := c.moves.map fun v => { v with data := m.readPlace v.src v.len }
  let r := (moves.zipIdx).foldl (fun (acc : List Nat × Mach) y => match y.1.src with
    | .away d a w =>
      let q := acc.2.request (.copyRead id y.2) p.t.ctx (readFrame d a y.1.len w .rlx .team)
      (acc.1 ++ [q.1], q.2)
    | .host a w =>
      let q := acc.2.hostRequest (.copyRead id y.2) p.t.ctx fun tag => .hostRead tag a y.1.len w
      (acc.1 ++ [q.1], q.2)
    | _ => acc) ([], m)
  let m := { r.2 with
    copies := tabSet r.2.copies id ⟨p.tid, op, p.t.ctx, p.t.core, moves, c.completion,
      if c.release then some (r.2.recordOf p.t.core scope) else none, readers, true, c.counted⟩
    seals := r.2.seals.map fun (y : Nat × Seal) => (y.1, if readers.contains y.1 then { y.2 with readers := y.2.readers + 1 } else y.2) }
  let m := m.modTask p.tid fun t => { t.startOp ⟨op, .copy, flag, false, [], r.1⟩ with committed := t.committed || c.counted }
  if moves.isEmpty then (m.copyReads id).finishCopy id else m

/-- A shape register that an instruction uses: unpoisoned in the elements used and well-formed (R215); `stamp`: it uses the stamp address. -/
def ShapeGood (q : QReg) (stamp : Bool := false) : Prop := q.poisoned stamp = none ∧ q.badElement stamp = none

/-- The row of a tile that AMOV moves (R225): an immediate, or an unpoisoned uniform register below 32. -/
def RowIs (p : Issuer) (x : FV3) (row : Nat) : Prop :=
  if x.kc = .uni then (p.t.uniOpnd 3 x.c.toNat 32).2 = false ∧ row = (p.t.uniOpnd 3 x.c.toNat 32).1 ∧ row < 32 else row = x.c.toNat % 32

end Sys2Proof.Machine

section

open Sys2Proof Sys2Proof.Machine

/-- CPY (R206), CPYL (R207) and CPYG (R208) with unpoisoned, aligned operands within bounds start the copy of their plan. -/
def Obligations.CopiesStart : Prop :=
  (∀ (s : State) (p : Issuer) (x : FX) (es fs : List Elt) (ss ds : List (Elt × Spot)) (m1 m2 m : Mach), s.issuer (.cpy x) = some p →
    let i := Instr.cpy x
    let ι := p.iss s.m i
    (cpyD x p.t).2 = false → (cpyA x p.t).2 = false → (cpyB x p.t).2 = false → (cpyB x p.t).1 ≤ 2 ^ 31 →
    cpyAligns x p.t = [] → cpyBounds x p.t (s.entered p i) = [] →
    FoundAll (s.entered p i) p true (cpyTargets x p.t) [es, fs] m1 → Spotted m1 p false es ss m2 → Spotted m2 p true fs ds m →
    (∀ w ∈ cpyWords x p.t m, w.isSome = true) → CopyOpen m p (ι.flag x.fl) x.scope (cpyPlan x p.t m ss ds) →
    exec i s = .next (s.leaves (copyStarted m p (ι.flag x.fl) x.scope (cpyPlan x p.t m ss ds)) p i)) ∧
  (∀ (s : State) (p : Issuer) (x : FM) (es fs : List Elt) (ss sg : List (Elt × Spot)) (m1 m2 m : Mach), s.issuer (.cpyl x) = some p →
    let i := Instr.cpyl x
    let ι := p.iss s.m i
    (lanesPoi (p.t.addrLanes x) ||| lanesPoi (cpylOffsets x p.t)) &&& p.k = 0 → (cpylB x p.t).2 = false →
    cpylAligns x p.t p.k = [] → (x.sub ≠ 0 → (cpylB x p.t).1 % 8 = 0) → cpylBounds x p.t p.k (s.entered p i) = [] →
    FoundAll (s.entered p i) p false [cpylTarget x p.t p.k, cpylSignal x p.t p.x.xact] [es, fs] m1 →
    Spotted m1 p (x.sub != 0) es ss m2 → Spotted m2 p true (fs.take 1) sg m →
    (∀ w ∈ cpylWords x p.t m, w.isSome = true) → CopyOpen m p (ι.flag x.fl) x.scope (cpylPlan x p.t m ss sg) →
    exec i s = .next (s.leaves (copyStarted m p (ι.flag x.fl) x.scope (cpylPlan x p.t m ss sg)) p i)) ∧
  (∀ (s : State) (p : Issuer) (x : FX) (es fs : List Elt) (ss ds : List (Elt × Spot)) (m1 m2 m : Mach), s.issuer (.cpyg x) = some p →
    let i := Instr.cpyg x
    let ι := p.iss s.m i
    let units := cpygUnits x p.t (s.entered p i)
    let qd := p.t.readQ 0 x.d.toNat
    ShapeGood qd (cmode x.ext == 2) → ShapeGood (p.t.readQ 1 x.a.toNat) → (p.t.uniOpnd 2 x.b.toNat 64).2 = false →
    cpygShapes x qd (p.t.readQ 1 x.a.toNat) = none → cpygBounds x p.t (s.entered p i) = [] →
    FoundAll (s.entered p i) p true (cpygTargets x p.t (s.entered p i)) [es, fs] m1 → Spotted m1 p false es ss m2 → Spotted m2 p true fs ds m →
    (∀ w ∈ cpygWords x p.t m, w.isSome = true) → CopyOpen m p (ι.flag x.fl) x.scope (cpygPlan x p.t units m ss ds) →
    exec i s = .next (s.leaves (copyStarted m p (ι.flag x.fl) x.scope (cpygPlan x p.t units m ss ds)) p i))

/-- MMA (R218, R220) issues and leaves its result outstanding; MTILE (R221 to R223) with well-formed shapes that fit begins; ACLR and AMOV
(R225), MRSV and MREL (R227). -/
def Obligations.MatrixInstructions : Prop :=
  (∀ (s : State) (p : Issuer) (x : FX), s.issuer (.mma x) = some p →
    let i := Instr.mma x
    let flag := (p.iss s.m i).flag x.fl
    let m := (s.entered p i).fresh.2.modCore p.t.core fun c =>
      c.setPart p.t.part { c.part p.t.part with matrixFree := s.m.clk + if x.ty = .f16 ∨ x.ty = .bf16 then 16 else 8 }
    flagFull p.t flag = false →
    exec i s = .next (s.leaves (m.modTask p.tid fun t =>
      t.startOp ⟨s.m.nextId, .mma, flag, false, [.a x.d.toNat allEls (mmaResult x p.t) (List.replicate 32 0)], []⟩) p i)) ∧
  (∀ (s : State) (p : Issuer) (x : FX), s.issuer (.mtile x) = some p →
    let i := Instr.mtile x
    let flag := (p.iss s.m i).flag x.fl
    let qa := p.t.readQ 1 x.a.toNat
    let qb := p.t.readQ 2 x.b.toNat
    let qs := p.t.readQ 7 (mtileQs x)
    let qt := p.t.readQ 9 (mtileQt x)
    let used := [qa, qb] ++ if mtileScaled x then [qs, qt] else []
    let keys := (List.range (qa.tY / 32 * (qb.tY / 32))).map fun n => mtileKey p.t (x.d.toNat + n)
    p.t.mtile = none → flagFull p.t flag = false → (∀ q ∈ used, ShapeGood q ∧ tileFault (s.entered p i) p.t q = none) →
    mtileMisfit x p.t qa qb qs qt = none →
    (mtileScaled x = true → scaleShort x qa qb false qs = none ∧ scaleShort x qa qb true qt = none) →
    exec i s = .next (s.leaves ((s.entered p i).fresh.2.modTask p.tid fun now =>
      let now := now.markAgain fun w => match w with
        | .a r l n again => if keys.contains r then .a r l n allEls else .a r l n again
        | w => w
      { now.startOp ⟨s.m.nextId, .mtile, flag, false, [], []⟩ with
        mtile := some ⟨x, p.x.clause, p.x.slot, qa, qb, qs, qt, p.t.readU 7 (mtileQs x), p.t.readU 9 (mtileQt x),
          (s.m.core p.t.core).spad, 0, qa.tY / 32 * (qb.tY / 32) * (qa.tx / matK x.ty), Tile.zero⟩ }) p i)) ∧
  (∀ (s : State) (p : Issuer) (x : FV3), s.issuer (.aclr x) = some p →
    exec (.aclr x) s = .next (s.issued p (.aclr x) fun t =>
      (List.range x.b.toNat).foldl (fun (t : Machine.Task) n => t.writeA (x.d.toNat + n) allEls Tile.zero) t)) ∧
  (∀ (s : State) (p : Issuer) (x : FV3) (row : Nat), s.issuer (.amovToVector x) = some p → RowIs p x row →
    exec (.amovToVector x) s = .next (s.issued p (.amovToVector x) fun t =>
      t.writeV x.d.toNat p.k ⟨(p.t.readA 1 x.a.toNat).rows.getD row [], (p.t.readA 1 x.a.toNat).poi.getD row 0⟩)) ∧
  (∀ (s : State) (p : Issuer) (x : FV3) (row : Nat), s.issuer (.amovToTile x) = some p → RowIs p x row →
    exec (.amovToTile x) s = .next (s.issued p (.amovToTile x) fun t =>
      t.writeA x.d.toNat ((List.replicate 32 0).set row p.k)
        ⟨(List.replicate 32 []).set row (p.t.readV 1 x.a.toNat).e, (List.replicate 32 0).set row (p.t.readV 1 x.a.toNat).poi⟩)) ∧
  (∀ (s : State) (p : Issuer) (x : FV3), s.issuer (.amovTile x) = some p →
    exec (.amovTile x) s = .next (s.issued p (.amovTile x) fun t => t.writeA x.d.toNat allEls (p.t.readA 1 x.a.toNat))) ∧
  (∀ (s : State) (p : Issuer) (x : FC), s.issuer (.mrsv x) = some p →
    exec (.mrsv x) s = .next (s.issued p (.mrsv x) fun t => t.writeP x.pa.toNat p.x.xact ⟨0xFFFFFFFF, 0⟩)) ∧
  (∀ (s : State) (p : Issuer) (x : FC), s.issuer (.mrel x) = some p → exec (.mrel x) s = .next (s.issued p (.mrel x) id))

end

namespace Sys2Proof.Machine

/-! ### Events: the splits and operations of a task (R72, R140, R178, R183, R222, R232 to R243) -/

/-- The event i is due in state s, and it makes the machine m of it. -/
def Gives (i : Instr) (s : State) (m : Mach) : Prop := exec i s = .next { s with m := m }

/-- What a waiting split brings to the instruction that it goes on with (R183). -/
def Wait.iss (w : Wait) (m : Mach) (tid e : Nat) (t : Task) (x : Split) : Iss :=
  { Iss.make m tid e (t.asRead w.regs) { x with wait := none, resumed := none } w.ins (w.lanes &&& x.xact) with
    before := w.before, again := w.passed, hold := w.hold, found := w.found, sig := if w.passed then x.xsig else sigWords x.xsig (encode w.ins) }

end Sys2Proof.Machine

section

open Sys2Proof Sys2Proof.Machine

/-- ISSUE_GRANT (R239) ends a cycle whose grants have been made and makes those of the next; PROMOTION (R242), JOIN_COMPLETE (R140, R235),
SPLIT_PLACEMENT (R232) and SPLIT_MERGE (R237) of a task that has not ended. When an event happens is the model's schedule (DESIGN CHOICE, log 1). -/
def Obligations.SplitEvents : Prop :=
  (∀ s : State, s.live = true → s.grants = [] →
    let s' := if s.granted then s.tick else s
    exec .issueGrant s = .next { s' with m := s'.m.grants.2, grants := s'.m.grants.1, granted := true }) ∧
  (∀ (s : State) (tid e : Nat) (t : Machine.Task) (x : Split), s.live = true → s.m.task tid = some t → t.split e = some x →
    4096 ≤ x.promo → x.promoted = false →
    Gives (.promotion tid e) s (s.m.modTask tid fun t => t.modSplit e fun x => { x with promoted := true, promo := 0 })) ∧
  (∀ (s : State) (tid j : Nat) (t : Machine.Task), s.live = true → s.granted = false → s.m.task tid = some t → t.ending = none →
    (t.join j).valid = true → (t.join j).due = true →
    Gives (.joinComplete tid j) s (s.m.setTask tid (t.modJoin j fun x => { x with valid := false, occ := x.arrived != 0 }))) ∧
  (∀ (s : State) (tid : Nat) (t : Machine.Task), s.live = true → s.granted = false → s.m.task tid = some t → t.ending = none → t.mergedAt ≠ some s.m.clk →
    ((∃ j < 8, (t.join j).occ = true ∧ ((t.join j).due = true ∨ t.freeEntry.isSome = true)) ∨ (t.freeEntry.isSome = true ∧ t.stack ≠ [])) →
    let waiting := (List.range 8).foldl (fun (t : Machine.Task) j => t.placeJoin s.m.clk j false) t
    let completed := (List.range 8).foldl (fun (t : Machine.Task) j => t.placeJoin s.m.clk j true) waiting
    Gives (.splitPlacement tid) s (s.m.setTask tid (completed.popAll s.m.clk 4))) ∧
  (∀ (s : State) (tid e : Nat) (t : Machine.Task) (x : Split) (others : List Nat), s.live = true → s.granted = false → s.m.task tid = some t →
    t.split e = some x → (∀ j < 8, (t.join j).arrivals = []) → others ≠ [] → (∀ k ∈ others, e < k) →
    others = ((List.range 4).filter fun k => k != e && ((t.split k).map (mergeable x)).getD false) →
    let merged := others.foldl (fun (x : Split) k => match t.split k with
      | some y => { x with pa := x.pa.or y.pa, wait := if (x.pa.or y.pa).isSome then none else x.wait.or y.wait, xact := x.xact ||| y.xact,
                           pxact := x.pxact ||| y.pxact, stamp := min x.stamp y.stamp, promo := max x.promo y.promo,
                           promoted := x.promoted || y.promoted, readyAt := max x.readyAt y.readyAt }
      | none => x) x
    Gives (.splitMerge tid e) s (s.m.setTask tid
      { (others.foldl (fun (t : Machine.Task) k => t.setSplit k none) t).setSplit e (some merged) with mergedAt := some s.m.clk }))

/-- WAIT_SATISFIED (R183, R243) of a clause's page and of an instruction that, tried again, completes; HALT_TIMEOUT (R178); FLAG_COMPLETION
(R72) of an access, an MMA, an MTILE and a copy; MTILE_STEP_RETIRE (R222). A load's registers are written at its FLAG_COMPLETION with what it read (DESIGN CHOICE, log 4). -/
def Obligations.WaitAndFlagEvents : Prop :=
  (∀ (s : State) (tid e : Nat) (t : Machine.Task) (x : Split) (w : Machine.Wait), s.live = true → s.m.task tid = some t → t.live = true →
    t.split e = some x → x.wait = some w → (w.hold = .cond ∨ ∃ home addr va, w.hold = .shared home addr va) →
    (w.fetch = true → Gives (.waitSatisfied tid e) s (s.m.modTask tid fun t => t.modSplit e fun x => { x with wait := none, found := w.found })) ∧
    (w.fetch = false → x.pa ≠ none → ∀ (body : Mach → Iss → Res) (m : Mach), bodyOf w.ins = some body →
      let ι := w.iss s.m tid e t x
      body (s.m.modTask tid fun t => t.modSplit e fun x => { x with wait := none }) ι = .done m →
      Gives (.waitSatisfied tid e) s (m.modTask tid fun t => t.modSplit e fun x =>
        { x with xsig := ι.sig }.advance m.clk (slotsOf w.ins) (headerNslot (headerAt s.m x))))) ∧
  (∀ (s : State) (tid e k : Nat) (t : Machine.Task) (x : Split) (w : Machine.Wait), s.live = true → s.m.task tid = some t →
    t.split e = some x → x.wait = some w → w.hold = .halt (some k) → k ≤ s.m.clk →
    Gives (.haltTimeout tid e) s (s.m.modTask tid fun t => t.modSplit e fun x => x.goto (x.clause + 64) 1 (s.m.clk + 1))) ∧
  (∀ (s : State) (tid id : Nat) (t : Machine.Task) (o : PendOp), s.live = true → s.m.task tid = some t →
    t.pend.find? (fun o => o.id == id) = some o → o.answers = [] →
    (o.kind = .access → Gives (.flagCompletion tid id) s (s.m.setTask tid (t.completeOp id))) ∧
    (o.kind = .mma → (∀ q ∈ t.before id, q.kind = .mma → ∀ k ∈ q.tiles, k ∉ o.tiles) →
      Gives (.flagCompletion tid id) s (s.m.setTask tid (t.completeOp id))) ∧
    (o.kind = .mtile → ∀ w : MTile, t.mtile = some w → w.steps ≤ w.step →
      Gives (.flagCompletion tid id) s (s.m.setTask tid { t.completeOp id with mtile := none })) ∧
    (o.kind = .copy → ∀ (n : Nat) (c : Copy), s.m.copies.find? (fun c => c.2.task == tid && c.2.op == id) = some (n, c) → c.readable = true →
      Gives (.flagCompletion tid id) s (((s.m.copyReads n).copySome n).modTask tid fun t => t.completeOp id))) ∧
  (∀ (s : State) (tid : Nat) (t : Machine.Task) (w : MTile) (g : Team), s.live = true → s.m.task tid = some t → t.mtile = some w →
    s.m.team t.team = some g → w.step < w.steps → t.state ≠ .parking →
    ((s.m.core t.core).part (mtilePart t (w.ins.d.toNat + w.step / (w.qa.tx / matK w.ins.ty)))).matrixFree ≤ s.m.clk →
    let x := w.ins
    let kn := w.qa.tx / matK x.ty
    let nb := w.qb.tY / 32
    let blk := w.step / kn
    let kk := w.step % kn
    let key := mtileKey t (x.d.toNat + blk)
    let now := (s.m.core t.core).spad
    let out := matBlock (matInt x.ty) (matSat x) (matZc x && kk == 0)
      (stepSide g w now s.m.clk false (32 * (blk / nb)) (matK x.ty * kk)) (stepSide g w now s.m.clk true (32 * (blk % nb)) (matK x.ty * kk))
      (if kk = 0 then t.readA 0 key else w.block)
    let part := mtilePart t (x.d.toNat + blk)
    let busy := s.m.modCore t.core fun c => c.setPart part { c.part part with matrixFree := s.m.clk + matCycles x.ty }
    Gives (.mtileStepRetire tid) s (busy.modTask tid fun t => { t with
      mtile := some { w with step := w.step + 1, block := out }
      free := t.free + 1
      pend := if kk + 1 < kn then t.pend else t.pend.map fun o =>
        if o.kind == .mtile then { o with writes := o.writes ++ [.a key allEls out (List.replicate 32 0)] } else o }))

end

namespace Sys2Proof.Machine

/-! ### Events: how work moves (R250 to R260, R268, R294) -/

/-- The context of a core's die, resident there. -/
def OnCore (m : Mach) (core ctx : Nat) (c : Ctx) : Prop := m.ctxOn (dieOf core) = some ctx ∧ m.ctx ctx = some c

/-- A core takes no second entry in this cycle. -/
def tookNow (m : Mach) (clk core : Nat) : Mach := m.modCore core fun k => { k with tookAt := some clk }

/-- A core holds an entry that it took in this cycle: the acquire of its side record, or an ENTRYLOST record (R260, R409); its die is not
starved. -/
def takenBy (m : Mach) (core ctx : Nat) (e : Entry) (addr : Nat) : Mach :=
  (if e.lost then m.loseEntry core ctx e addr else (m.acquireEntry core ctx e).modCore core fun k => { k with hand := some e }).noteTake core ctx

/-- A core may take an entry: it seeks work, has taken none in this cycle, and its context is not pending (R253). -/
def MayTake (s : State) (core ctx : Nat) (c : Ctx) : Prop :=
  s.live = true ∧ OnCore s.m core ctx c ∧ s.m.seeks core = true ∧ c.pending = none ∧ (s.m.core core).tookAt ≠ some s.m.clk

/-- The core no longer holds an entry, and what it has read for it is forgotten. -/
def handEmpty (m : Mach) (core : Nat) : Mach := (m.modCore core fun k => { k with hand := none }).dropAgent (stagingAgent core)

/-- A thief's request to a core's deque can be served in this cycle (R252). -/
def MayServe (m : Mach) (thief ctx : Nat) (c : Ctx) : Prop :=
  OnCore m thief ctx c ∧ (m.core thief).reply = none ∧ (m.core thief).tookAt ≠ some m.clk

/-- The reply to a thief from a deque: the coldest entry that may go, unless it is lost. -/
def replied (m : Mach) (thief victim ctx : Nat) (c : Ctx) : Mach :=
  match m.stealable c victim (dieOf thief) with
  | some e =>
    let m := m.modCore victim fun k => { k with deque := k.deque.erase e, gaveAt := some m.clk }
    if e.lost then (m.loseEntry thief ctx e 0).modCore thief fun k => { k with reply := some none }
    else m.modCore thief fun k => { k with reply := some (some e) }
  | none => m.modCore thief fun k => { k with reply := some none }

end Sys2Proof.Machine

section

open Sys2Proof Sys2Proof.Machine

/-- TAKE_ENTRY (R253): an aged entry of the inbox first, then the hot end of the core's deque if it can be admitted, then the inbox, then an
in-die steal request; REFILL (R251) in two steps. The victim of a steal is a free choice where the spec leaves it (DESIGN CHOICE, log 7). -/
def Obligations.TakesAndRefills : Prop :=
  (∀ (s : State) (core ctx : Nat) (c : Ctx) (e : Entry) (addr : Nat) (carried : Bool), MayTake s core ctx c →
    s.m.inboxNext c ctx (dieOf core) = some (e, addr, carried) → (s.m.aged c e = true ∨ s.m.bare core = true) →
    (e.pin = true → e.who = core) → (c.permits e (dieOf core) = true ∨ e.lost = true) →
    Gives (.takeEntry core) s (tookNow (takenBy (s.m.inboxTake ctx (dieOf core) carried) core ctx e addr) s.m.clk core)) ∧
  (∀ (s : State) (core ctx : Nat) (c : Ctx) (e : Entry) (l : List Seat) (n : Nat), MayTake s core ctx c →
    (∀ y, s.m.inboxNext c ctx (dieOf core) = some y → s.m.aged c y.1 = false) →
    (s.m.core core).refilling = false → (s.m.core core).deque.getLast? = some e → (s.m.admission core ctx c e []).1 = .seats l n →
    Gives (.takeEntry core) s (tookNow (takenBy (s.m.modCore core fun k => { k with deque := k.deque.dropLast }) core ctx e 0) s.m.clk core)) ∧
  (∀ (s : State) (core ctx : Nat) (c : Ctx) (v : Nat), MayTake s core ctx c →
    s.m.bare core = true → s.m.inboxNext c ctx (dieOf core) = none → (s.m.core core).request = none →
    (s.m.crossDue c ctx (dieOf core) = false ∨ (s.m.die (dieOf core)).crossRequest ≠ none) →
    let others := ((List.range s.m.logCores).map fun l => coreNo (dieOf core) l).filter (· != core)
    others[Config.victim s.m.nextId % others.length]? = some v →
    Gives (.takeEntry core) s (tookNow (s.m.fresh.2.modCore core fun k => { k with request := some v }) s.m.clk core)) ∧
  (∀ (s : State) (core ctx : Nat) (c : Ctx), s.live = true → OnCore s.m core ctx c →
    let k := s.m.core core
    (k.overflow ≠ 0 → k.refilling = false → k.deque = [] → Gives (.refill core) s (s.m.setCore core { k with refilling := true })) ∧
    (k.overflow ≠ 0 → k.refilling = true →
      let base := c.ovfBlock core (k.overflow - 1)
      Gives (.refill core) s (s.m.setCore core { k with
        refilling := false
        overflow := k.overflow - 1
        deque := ((List.range 256).map fun n => s.m.readEntry (base + 128 * n) (base + 0x8000 + 16 * n)) ++ k.deque })))

/-- STEAL_REQUEST_SERVED (R252, R259), CROSS_DIE_STEAL (R259), STEAL_REPLY (R258, R260), WRITEBACK_REQUEST (R294) and MERIDIAN_PUBLISH
(R257). The victim of a steal is a free choice where the spec leaves it (DESIGN CHOICE, log 7). -/
def Obligations.StealEvents : Prop :=
  (∀ (s : State) (thief ctx v : Nat) (c : Ctx), s.live = true → MayServe s.m thief ctx c → (s.m.core thief).request = some v → v < 2 ^ 16 →
    s.m.servedBefore c ctx thief v = false → s.m.popsNow v = false → (s.m.core v).gaveAt ≠ some s.m.clk →
    Gives (.stealRequestServed thief) s (replied s.m thief v ctx c)) ∧
  (∀ (s : State) (thief ctx die k : Nat) (c : Ctx), s.live = true → MayServe s.m thief ctx c → (s.m.core thief).request = some (2 ^ 16 + die) →
    s.m.bridge c ctx die = some k → s.m.servedBefore c ctx thief k = false → s.m.popsNow k = false → (s.m.core k).gaveAt ≠ some s.m.clk →
    Gives (.stealRequestServed thief) s (replied s.m thief k ctx c)) ∧
  (∀ (s : State) (thief ctx die : Nat) (c : Ctx), s.live = true → MayServe s.m thief ctx c → (s.m.core thief).request = some (2 ^ 16 + die) →
    s.m.bridge c ctx die = none →
    Gives (.stealRequestServed thief) s (match s.m.inboxNext c ctx die with
      | some (e, addr, carried) =>
        if e.pin ∨ c.permits e (dieOf thief) = false then s.m.modCore thief fun k => { k with reply := some none }
        else if e.lost then ((s.m.inboxTake ctx die carried).loseEntry thief ctx e addr).modCore thief fun k => { k with reply := some none }
        else (s.m.inboxTake ctx die carried).modCore thief fun k => { k with reply := some (some e) }
      | none => s.m.modCore thief fun k => { k with reply := some none })) ∧
  (∀ (s : State) (core ctx v : Nat) (c : Ctx), MayTake s core ctx c →
    s.m.bare core = true → (s.m.core core).request = none → (s.m.die (dieOf core)).crossRequest = none →
    s.m.inboxNext c ctx (dieOf core) = none → s.m.crossDue c ctx (dieOf core) = true → s.m.crossVictim c ctx (dieOf core) = some v →
    Gives (.crossDieSteal core) s (tookNow ((s.m.modCore core fun k => { k with request := some (2 ^ 16 + v) }).modDie (dieOf core) fun d =>
      { d with crossRequest := some core }) s.m.clk core)) ∧
  (∀ (s : State) (core ctx v : Nat) (c : Ctx) (r : Option Entry), s.live = true → OnCore s.m core ctx c → (s.m.core core).reply = some r →
    (s.m.core core).request = some v → (r ≠ none → (s.m.core core).hand = none) →
    let m := s.m.setCore core { s.m.core core with request := none, reply := none, tookAt := some s.m.clk }
    let m := if 2 ^ 16 ≤ v then m.modDie (dieOf core) fun d => { d with crossRequest := none } else m
    Gives (.stealReply core) s (match r with
      | none => m
      | some e => if 2 ^ 16 ≤ v then m.takeInHand core ctx e 0 else takenBy m core ctx e 0)) ∧
  (∀ (s : State) (core : Nat) (gen g : BitVec 16) (n : Nat) (x : Sector), s.live = true → (n, x) ∈ (s.m.core core).l1 → x.state = .dirty g →
    g.toNat ≤ gen.toNat → Gives (.writebackRequest core gen) s (s.m.writeback core gen)) ∧
  (∀ s : State, s.live = true → s.m.xclk.toNat % 256 = 0 → s.m.publish ≠ s.m → Gives .meridianPublish s s.m.publish)

/-- ADMIT_ENTRY (R254): the team that admission finds seats for is formed, an entry it kills leaves a team that is over, and one without
room goes back to the core's deque; RESUME (R268) restores the frames; STAGING_COMPLETE and STAGING_FAULT (R255). Partitions, slots and tiles are the lowest free ones (DESIGN CHOICE, log 19), and a task of a spawn queue is known by its arguments (DEDUCED, log 23). -/
def Obligations.AdmissionEvents : Prop :=
  (∀ (s : State) (core ctx : Nat) (c : Ctx) (e : Entry) (m : Mach), s.live = true → OnCore s.m core ctx c → (s.m.core core).hand = some e →
    e.isResume = false →
    (∀ l n, s.m.admission core ctx c e [] = (.seats l n, m) → Gives (.admitEntry core) s (((handEmpty m core).formTeam core ctx c e l n).countReaders m.nextId (m.readersOf core ctx e))) ∧
    (∀ a b d, s.m.admission core ctx c e [] = (.killed a b d, m) → Gives (.admitEntry core) s ((handEmpty m core).killEntry core ctx e a b d)) ∧
    (s.m.admission core ctx c e [] = (.room, m) → Gives (.admitEntry core) s ((handEmpty m core).pushBack core ctx e))) ∧
  (∀ (s : State) (core ctx : Nat) (c : Ctx) (e : Entry) (l : List Seat) (n : Nat) (m m' : Mach), s.live = true → OnCore s.m core ctx c →
    (s.m.core core).hand = some e → e.isResume = true → s.m.admission core ctx c e [] = (.seats l n, m) →
    m.mtilePage core ctx (l.filterMap (·.frame)) = (false, m') →
    (∀ p ∈ c.resumed e.frame, ∃ q ∈ l.filterMap (·.frame), q.tid = p.tid) →
    Gives (.resume core) s ((m'.modCore core fun k => { k with hand := none }).restoreAll core ctx c l n)) ∧
  (∀ (s : State) (team len : Nat) (g : Team) (bytes : List (Nat × List (Byte × Bool))) (m : Mach), s.live = true →
    s.m.stagingTeam team = some g → s.m.stage g = (len, ⟨bytes, none, false⟩, m) →
    let m := (m.modCore g.core fun k => { k with
      spad := bytes.foldl (fun (mem : Memory) y => mem.storeBytes (g.spadBase + y.1) y.2) (k.spad.clear g.spadBase len) }).dropAgent (stagingAgent g.core)
    let m := m.dropReaders team
    Gives (.stagingComplete team) s (m.modMembers team fun t =>
      { t with state := .ready, splits := [some (startSplit t.entry m.clk), none, none, none] })) ∧
  (∀ (s : State) (team len c r d h a : Nat) (g : Team) (bytes : List (Nat × List (Byte × Bool))) (w : Bool) (m : Mach), s.live = true →
    s.m.stagingTeam team = some g → s.m.stage g = (len, ⟨bytes, some (c, r, d, h, a), w⟩, m) →
    let m := m.errorRecord g.ctx [recordHead 6 c r d (unitOf g.core 0 5) m.xdev.toNat, m.xclk, g.leader, BitVec.ofNat 64 a, 0, 0, g.future, 0]
    let m := m.modTeam team fun g => { g with poison := g.poison || c == 8, killed := g.killed || c != 8, unsettled := true }
    Gives (.stagingFault team) s (((m.modMembers team fun t => t.finish (.staging (c == 8))).dropAgent (stagingAgent g.core)).dropReaders team))

end

namespace Sys2Proof.Machine

/-! ### Events: parks, teams and contexts (R190, R264 to R267, R340 to R353, R415, R416) -/

/-- The machine after the park of a task (R266, R270): its frame is written as KIND, WAITON and RELEASE say, the core releases at `.dev`, the
slot is free, and a park by SVC posts its service record (R176). -/
def parkedAt (m : Mach) (tid frame : Nat) (t : Task) (w : ParkOn) (c : Ctx) : Mach :=
  let m := m.fresh.2
  let alone := m.onlyMember tid t
  let m := if w.kind = 2 then m.modTask tid fun t => t.modSplit w.entry fun x => x.goto (x.clause + 64) 1 m.clk else m
  let m := m.parkInto tid frame w alone (!alone)
  if w.kind = 2 then
    ({ m with serviceRecords := m.serviceRecords ++ [[BitVec.ofNat 64 t.ctx, t.xtask, BitVec.ofNat 64 (c.frameAddr frame), w.waitOn]],
              out := m.out ++ [.wakeFirmware 2] } : Mach).wakeComplexes
  else m

/-- A task may be parked in this cycle: it is no firmware complex, it has not ended, and its context has a free frame. -/
def HasFrame (m : Mach) (t : Task) (c : Ctx) : Prop := t.ending = none ∧ t.onComplex = false ∧ m.ctx t.ctx = some c ∧ c.freeFrames ≠ []

/-- What makes a task park now (R176, R265, R347): a split of it waits in SVC; or no task of its core is parking, and it may park and is alone in
the team of a pending context with every split willing, or it is the first of those whose park makes room for the entry that the core
would take. -/
def MustPark (m : Mach) (tid : Nat) (t : Task) : Prop :=
  (∃ x ∈ t.waits, x.2.hold = .service) ∨
  ((∀ o ∈ m.tasks, o.2.core = t.core → o.2.state ≠ .parking) ∧
   (((∃ c, m.ctx t.ctx = some c ∧ c.pending ≠ none) ∧ (∃ g, m.team t.team = some g ∧ g.size = 1) ∧
     (∀ x, some x ∈ t.splits → ∃ w, x.wait = some w ∧ w.parks = true) ∧ m.mayPark tid t = true) ∨
    (m.parkHelps t.core = true ∧ (m.parkOrder t.core).head?.map (·.1) = some tid)))

/-- A team is gone, and its launch has one team less (R276, R334). -/
def teamGone (m : Mach) (team : Nat) (g : Team) : Mach :=
  let m := { m with teams := tabErase m.teams team }
  match g.launch with
  | some n => (m.modLaunch g.ctx n fun l => { l with teams := l.teams - 1 }).noteLaunch g.ctx n
  | none => m

/-- The status that a team leaves in its future (R190). -/
def teamStatus (g : Team) : FutUpdate :=
  .complete g.dead ((if g.poison then 1 else 0) + (if g.killed then 2 else 0) + if g.timeout then 4 else 0) g.unsettled g.settled

end Sys2Proof.Machine

section

open Sys2Proof Sys2Proof.Machine

/-- PARK (R176, R265, R266): a task whose split waits in SVC, or whose turn it is, begins to park; one that is parking completes the park
once nothing of it is outstanding; RESUME_ENTRY_CREATE (R267); QUIESCENCE_PARK (R348). Which free frame a park takes is a free choice (DESIGN CHOICE, log 10). -/
def Obligations.ParkEvents : Prop :=
  (∀ (s : State) (tid f : Nat) (t : Machine.Task) (w : ParkOn) (c : Ctx), s.live = true → s.m.task tid = some t → HasFrame s.m t c →
    t.state = .parking → s.m.settled tid t = true → t.parksOn = some w → c.pickFrames 1 s.m.nextId = some f →
    Gives (.park tid) s (parkedAt s.m tid f t w c)) ∧
  (∀ (s : State) (tid : Nat) (t : Machine.Task) (c : Ctx), s.live = true → s.m.task tid = some t → HasFrame s.m t c → t.live = true →
    MustPark s.m tid t →
    Gives (.park tid) s (s.m.setTask tid { t.suspendMtile with
      state := .parking
      parkOn := t.parkWait.map fun p =>
        ⟨p.1, (s.m.parkKind t tid p.2).1, (s.m.parkKind t tid p.2).2.1, (s.m.parkKind t tid p.2).2.2, false, s.m.clk⟩ })) ∧
  (∀ (s : State) (ctx die : Nat) (c : Ctx) (p : Parked), s.live = true → s.m.ctx ctx = some c → c.resident = true →
    c.parked.find? (fun q => q.frame == p.frame && !q.entered) = some p → s.m.parkOver ctx p = true →
    let r := s.m.frameRelease p.frame
    (if c.dies.contains (dieOf r.who) then some (dieOf r.who) else nearestDie (dieOf r.who) c.dies) = some die →
    Gives (.resumeEntryCreate ctx p.frame) s ((s.m.modCtx ctx fun c => { c with
      parked := c.parked.map fun q => if q.tid = p.tid then { q with entered := true } else q }).pushOrHold (coreNo die (logicalOf r.who)) ctx false
        { r with img := (resumeEntry (c.namedFrame p) 0 0 0 false).img, pushck := s.m.xclk, pin := p.pin })) ∧
  (∀ (s : State) (team j : Nat) (g : Team) (c : Ctx), s.live = true → s.m.team team = some g → s.m.ctx g.ctx = some c → c.pending ≠ none →
    let members := s.m.tasks.filter fun x => x.2.team == team
    members ≠ [] → (∀ x ∈ members, s.m.yielding x.1 x.2 = true) → (∀ i < g.size, i ∈ g.gone ∨ ∃ x ∈ members, x.2.idx = i) →
    c.pickFrames g.size s.m.nextId = some j →
    let last := members.foldl (fun k x => max k x.2.idx) 0
    let m := s.m.modCtx g.ctx fun c => { c with framesUsed := (List.range g.size).foldl (fun l i => insertNat l (j + i)) c.framesUsed }
    Gives (.quiescencePark team) s ((sortBy (fun a b => a.2.idx ≤ b.2.idx) members).foldl (fun (m : Mach) x =>
      (m.modTask x.1 fun t => { t with splits := t.splits.map fun o => o.map fun y => y.goto (y.clause + 64) 1 m.clk }).parkInto
        x.1 (j + x.2.idx) ⟨0, 3, 0, none, false, m.clk⟩ (x.2.idx == last) false) m.fresh.2))

/-- DISCARD_TEAM (R346), TEAM_FUTURE_COMPLETION (R190), WATCHDOG_STOP (R416) and GRACE_EXPIRY (R349). The frame to a future of another device has the layout of DESIGN CHOICE, log 18. -/
def Obligations.TeamEvents : Prop :=
  (∀ (s : State) (team : Nat) (g : Team) (c : Ctx), s.live = true → s.granted = false → s.m.team team = some g → s.m.ctx g.ctx = some c →
    c.pending ≠ none → s.m.discardable team = true →
    let m := ((s.m.reissue g).dropReaders team).setTeam team
      { g with readers := [], discarded := true, future := 0, launch := none, queue := none, tiles := [], barriers := [], windows := [], value := none }
    let m := m.modMembers team fun t => if t.ending.isSome then t else t.finish .discarded
    Gives (.discardTeam team) s ((m.dropAgent (stagingAgent g.core)).pushOrHold g.core g.ctx true g.entry)) ∧
  (∀ (s : State) (team : Nat) (g : Team), s.live = true → s.m.team team = some g → g.isOver = true → s.m.written g = false →
    (g.future = 0 → Gives (.teamFutureCompletion team) s (teamGone s.m team g)) ∧
    (g.future ≠ 0 → g.value = none → ∀ (e : Elt) (m : Mach),
      (∀ pa, s.m.engineSpot (dieOf g.core) g.ctx g.future.toNat .store acceptUpdate = (.found e (.here pa), m) →
        let m := (m.bump g.core .dev).setRecord pa ((m.bump g.core .dev).recordOf g.core .dev)
        Gives (.teamFutureCompletion team) s (teamGone (m.updateAt g.core pa fun mem => mem.updateFuture pa (teamStatus g)) team g)) ∧
      (∀ d a, s.m.engineSpot (dieOf g.core) g.ctx g.future.toNat .store acceptUpdate = (.found e (.away d a), m) →
        Gives (.teamFutureCompletion team) s
          (teamGone ((m.bump g.core .fab).request .free g.ctx (futureFrame d a e.secure .fab (teamStatus g))).2 team g)))) ∧
  (∀ (s : State) (tid : Nat) (t : Machine.Task) (c : Ctx), s.live = true → s.m.task tid = some t → s.m.ctx t.ctx = some c → t.ending = none →
    t.onComplex = false → fieldOf (c.word 7) 0 48 ≤ t.wdog → s.m.discard t.team = none → s.m.parkEnds tid = false →
    let future := ((s.m.team t.team).map (·.future)).getD 0
    let m := s.m.errorRecord t.ctx [recordHead 2 0x0D 0 0 (unitOf t.core t.part 0) s.m.xdev.toNat, s.m.xclk, t.xtask, 0, t.stoppedAt, 0, future, 0]
    Gives (.watchdogStop tid) s ((m.modTask tid fun t => t.finish .timeout).errorCount t.ctx 48 1)) ∧
  (∀ (s : State) (ctx k : Nat) (c : Ctx), s.live = true → s.m.ctx ctx = some c → c.pending = some k → k + fieldOf (c.word 6) 0 40 ≤ s.m.clk →
    c.faulted = false → (∃ x ∈ s.m.tasks, x.2.ctx = ctx ∧ x.2.onComplex = false) →
    Gives (.graceExpiry ctx) s (((s.m.tasks.filter fun x => x.2.ctx == ctx).foldl (fun (m : Mach) x => m.stopTask x.1) s.m).modCtx ctx
      fun c => c.setFault 1))

/-- SLICE_EXPIRY, PREEMPT_PENDING, PREEMPT_WITHDRAW (R342), SWITCH_OUT (R350, R352) of a context whose carry lists fit, and SWITCH_IN (R340,
R353). -/
def Obligations.ContextEvents : Prop :=
  (∀ row ∈ [(Instr.sliceExpiry, Mach.outlived), (Instr.preemptPending, Mach.outranked)], ∀ (s : State) (ctx : Nat) (c : Ctx), s.live = true →
    s.m.ctx ctx = some c → c.resident = true → c.pending = none → s.m.runnable ctx c = true → row.2 s.m ctx c ≠ [] →
    Gives (row.1 ctx) s (s.m.modCtx ctx fun x => { x with pending := some s.m.clk, causes := row.2 s.m ctx c })) ∧
  (∀ (s : State) (ctx : Nat) (c : Ctx), s.live = true → s.m.ctx ctx = some c → c.pending ≠ none → c.repair = false → c.faulted = false →
    (∀ x ∈ c.causes, ∀ cx, s.m.ctx x = some cx → s.m.runnable x cx = false) →
    Gives (.preemptWithdraw ctx) s (s.m.modCtx ctx fun c => { c with pending := none, causes := [] })) ∧
  (∀ (s : State) (ctx lost : Nat) (c : Ctx) (m : Mach) (carryn : List Word), s.live = true → s.m.ctx ctx = some c → c.resident = true →
    s.m.leaving ctx c = true → s.m.vacant ctx c = true →
    let before := (s.m.launchWriteback c).saveSeals ctx c
    before.writeCarry c (1 - c.imgBank) 0 (c.dies.map fun d => before.carried c ctx d) = (m, carryn, lost) →
    let m := c.launches.foldl (fun (m : Mach) x => m.saveLaunch ctx x.1) m
    let m := { m with spawnqs := m.spawnqs.map fun (x : Nat × SpawnQ) =>
      (x.1, if x.2.ctx == ctx then { x.2 with timer := x.2.timer.map fun t => m.clk - t } else x.2) }
    let m := (c.dies.foldl (fun (m : Mach) d => m.clearDie ctx d) m).modCtx ctx fun x =>
      x.writtenBack (1 - c.imgBank) carryn (!x.faulted && lost == 0)
    let m := m.fresh.2.modCtx ctx fun x => { x with listed := some (if c.repair then 0 else m.nextId + 1) }
    Gives (.switchOut ctx) s (if lost = 0 then m
      else (m.errorRecord ctx [recordHead 8 0 0 0 0 m.xdev.toNat, m.xclk, 0, 0, 0, 0, BitVec.ofNat 64 lost, 0] true).modCtx ctx fun x => x.setFault 6)) ∧
  (∀ (s : State) (ctx : Nat) (dies : List Nat) (c : Ctx), s.live = true → s.serving = true → s.stepDue = false →
    (∀ d ∈ dies, s.dieUnfit d = false) → s.m.ctx ctx = some c → s.m.entering ctx c dies = true →
    (s.m.recordGood ctx c = false → Gives (.switchIn ctx dies) s (s.m.modCtx ctx fun c => c.setFault 3)) ∧
    (s.m.recordGood ctx c = true →
      let m := s.m.modCtx ctx fun c => { c with
        translation := s.m.translationRecord ctx
        launches := (List.range 64).filterMap fun n => (s.m.loadLaunch c n).map fun l => (n, l)
        carry := c.attached dies
        resident := true
        dies := dies
        pending := none
        sliceStart := s.m.clk + 1
        record := c.record.set 0 (c.word 0 ||| (1 : Word) <<< 60) }
      let m := dies.foldl (fun (m : Mach) d => (m.changeWorld c.world d).clearDie ctx d) m
      let m := { m with spawnqs := m.spawnqs.map fun (x : Nat × SpawnQ) =>
        (x.1, if x.2.ctx == ctx then { x.2 with timer := x.2.timer.map fun t => m.clk - t } else x.2) }
      Gives (.switchIn ctx dies) s ((m.loadSeals ctx c).withResumes ctx c dies)))

end

namespace Sys2Proof.Machine

/-! ### Events: copies, barriers, spawn queues, arrays, walks and the host link -/

/-- A spawn queue may spawn as the cycle k ends (R203, R275): watched and enabled, no spawn of it made in that cycle, its context resident and not pending, room in the inbox of a
die, below INFL's limit, and its descriptor unpoisoned. -/
def QueueOpen (m : Mach) (q k : Nat) (x : SpawnQ) (c : Ctx) (die : Nat) : Prop :=
  tabGet m.spawnqs q = some x ∧ m.ctx x.ctx = some c ∧ x.stopped = false ∧ x.spawnedAt ≠ some k ∧ (QDesc.of m.mem q).enabled = true ∧ c.resident = true ∧
  c.pending = none ∧ (if c.dies.contains x.die then some x.die else nearestDie x.die c.dies) = some die ∧ m.inboxFull die x.ctx = false ∧
  (c.inflMax = 0 ∨ fieldOf (QDesc.of m.mem q).state 32 16 < c.inflMax) ∧ m.badDescriptor q = none

/-- Bits 32 on of the closure template that a queue's descriptor names: the engine has read it unpoisoned and well-formed. -/
def TemplateRead (m : Mach) (q : Nat) (x : SpawnQ) (img : Image) (m' : Mach) : Prop :=
  ∃ d, m.engineRead (watchAgent q) x.die x.ctx none (m.mem.word64 (q + 16)).1.toNat 128 = (.data d, m') ∧ img = imageOf d ∧
    img.2.extractLsb' 0 4 = 0 ∧ (img.1.getD 0 0).toNat % 64 = 0 ∧ (img.1.getD 1 0).toNat % 32 = 0

end Sys2Proof.Machine

section

open Sys2Proof Sys2Proof.Machine

/-- BARRIER_CREDIT (R212), COPY_COMPLETION (R205), QUEUE_SPAWN and FLUSH_TIMER_EXPIRY (R203) with a template that can be used or a descriptor
that is poisoned (R408), and QUEUE_TILE_END (R203). -/
def Obligations.EngineEvents : Prop :=
  (∀ (s : State) (n : Nat) (c : Credit), s.live = true → s.m.credits[n]? = some c →
    let m := { s.m with credits := s.m.credits.eraseIdx n }
    ((s.m.team c.team).bind (fun g => g.barrier c.offset) = none → Gives (.barrierCredit n) s m) ∧
    (∀ r, (s.m.team c.team).bind (fun g => g.barrier c.offset) = some r → r.credited ≠ some s.m.clk → r.changed ≠ some s.m.clk →
      Gives (.barrierCredit n) s (m.changeBarrier c.team c.offset (fun b => { b with bytes := s.m.barBytes (b.bytes - c.bytes) })
        fun r => { r with credited := some s.m.clk }))) ∧
  (∀ (s : State) (id : Nat) (c : Copy), s.live = true → s.m.copy id = some c →
    (c.reading = true → c.readable = true ∧ ∀ t, s.m.task c.task = some t → ∀ o ∈ t.pend, o.id ≠ c.op) →
    let m := (s.m.copyReads id).copyAll id
    (m.copyUnanswered id c.completion.device = false → Gives (.copyCompletion id) s (m.finishCopy id)) ∧
    (m.copyUnanswered id c.completion.device = true → c.moves ≠ [] → Gives (.copyCompletion id) s m)) ∧
  (∀ row ∈ [(Instr.queueSpawn, fun (d : Bool × Bool) => d.1), (Instr.flushTimerExpiry, fun d => d.2 && !d.1)],
    ∀ (s : State) (q die : Nat) (x : SpawnQ) (c : Ctx) (img : Image) (d : Datum) (m m' : Mach), s.live = true → QueueOpen s.m q s.cycleEnded x c die →
    row.2 (s.m.spawnDue q x s.cycleEnded) = true → TemplateRead s.m q x img m → m.countTile q x (img.1.getD 1 0).toNat = (.data d, m') →
    Gives (row.1 q) s (m'.queueTileOn q x s.cycleEnded die (min (s.m.readyCount q) (fieldOf (QDesc.of s.m.mem q).cfg 22 6 + 1)) img)) ∧
  (∀ (s : State) (q o : Nat) (x : SpawnQ) (c : Ctx), s.live = true → tabGet s.m.spawnqs q = some x → s.m.ctx x.ctx = some c → x.stopped = false →
    c.resident = true → x.spawnedAt ≠ some s.cycleEnded → x.present ≠ [] → s.m.badDescriptor q = some o →
    Gives (.queueSpawn q) s (s.m.stopQueue q x 0 0 0 o)) ∧
  (∀ (s : State) (q start : Nat) (x : SpawnQ), s.live = true → tabGet s.m.spawnqs q = some x → (∃ y ∈ x.tiles, y.1 = start ∧ y.2.2 = true) →
    let tiles := x.tiles.filter fun y => y.1 != start
    let done := match tiles with
      | y :: _ => BitVec.ofNat 64 y.1
      | [] => (s.m.mem.word64 (q + 48)).1
    Gives (.queueTileEnd q start) s { s.m with
      mem := (s.m.mem.keepPoison64 (q + 40) done).keepPoison64 (q + 56) ((s.m.mem.word64 (q + 56)).1 - BitVec.ofNat 64 (2 ^ 32))
      spawnqs := tabSet s.m.spawnqs q { x with tiles := tiles } })

/-- L1_EVICTION (R295), L2_EVICTION (R404), HBM_FILL (R404, R406, R407), CONTROL_ARRAY_ERROR (R403), SOFT_ERROR (R403, R425), FLIT_REPLAY (R422,
R423) and LINK_REPAIR (R423). -/
def Obligations.ArrayAndLinkEvents : Prop :=
  (∀ (s : State) (core n : Nat) (x : Sector), s.live = true → s.m.l1 core (32 * n) = some x →
    Gives (.l1Eviction core n) s ((s.m.flush core (32 * n)).dropL1 core (32 * n))) ∧
  (∀ (s : State) (n : Nat), s.live = true → n ∈ s.m.resident →
    let m := if s.m.foundUpsets n = [] then s.m else s.m.logReason 4 0 (32 * n) 0
    let m := { m with resident := m.resident.filter (· != n), upsets := m.upsets.filter fun w => w.1 / 8 != n }
    Gives (.l2Eviction n) s (if m.mem.anyPoison (32 * n) 32 then { m with mem := m.mem.poisonSector n } else m)) ∧
  (∀ (s : State) (n : Nat) (ctx : Option Nat) (ecc : Ecc) (tagBad : Bool), s.live = true → n < 2 ^ 35 → n ∉ s.m.resident →
    (tagBad = true → 32 * n / 2 ^ 29 ∈ s.m.carveOuts) → (∀ c, ctx = some c → (s.m.ctx c).isSome = true) →
    let m := { s.m with resident := insertNat s.m.resident n }
    Gives (.hbmFill n ctx ecc tagBad) s (if s.m.mem.anyPoison (32 * n) 32 then { m with mem := s.m.mem.poisonSector n }
      else match ecc, tagBad with
        | .good, false => m
        | .corrected, false => m.logReason 3 0 (32 * n) 0
        | .corrected, true => (m.upsetWords (32 * n) 8).logReason 4 1 (32 * n) 0
        | .bad, bad => (m.upsetWords (32 * n) 8).logReason 4 (if bad then 2 else 0) (32 * n) 0
        | .good, true => (m.upsetWords (32 * n) 8).integrity n ctx)) ∧
  (∀ s : State, s.live = true →
    (∀ core idx, idx < (s.m.core core).tlb.length →
      Gives (.controlArrayError (.tlb core idx)) s (s.m.modCore core fun k => { k with tlb := k.tlb.eraseIdx idx })) ∧
    (∀ die idx, idx < (s.m.die die).tlb.length →
      Gives (.controlArrayError (.dieTlb die idx)) s (s.m.modDie die fun d => { d with tlb := d.tlb.eraseIdx idx })) ∧
    (∀ tid t, s.m.task tid = some t → t.ending = none →
      let future := ((s.m.team t.team).map (·.future)).getD 0
      Gives (.controlArrayError (.taskControl tid)) s ((s.m.errorRecord t.ctx [recordHead 1 0 0 0 (unitOf t.core t.part 0) s.m.xdev.toNat,
        s.m.xclk, t.xtask, 0, t.xepc, t.xsyn, future, 0]).modTask tid fun t => t.finish .killed)) ∧
    (∀ ctx c, s.m.ctx ctx = some c → Gives (.controlArrayError (.context ctx)) s (s.m.faultContext ctx 4))) ∧
  (∀ (s : State) (site : Site) (m : Mach), s.live = true → s.m.upset site = some m →
    Gives (.softError site 1) s (s.m.logReason 3 0 0 0) ∧ ∀ bits, 2 ≤ bits → Gives (.softError site bits) s m) ∧
  (∀ (s : State) (link seq : Nat), s.live = true → link < 256 → validDomain (domainNo 2 0 link) = true →
    let n := match tabGet s.fw.unacked link with
      | some (q, n) => if q = seq then n + 1 else 1
      | none => 1
    exec (.flitReplay link seq) s = .next { s with
      fw := { s.fw with linkReplays := tabSet s.fw.linkReplays link (s.replays link ++ [s.m.clk]), unacked := tabSet s.fw.unacked link (seq, n) }
      m := if 16 ≤ n then (s.m.logReason 6 0 link seq).faultAll 4 else s.m.logReason 6 0 link seq }) ∧
  (∀ (s : State) (link : Nat) (bad : List Nat), s.live = true → link < 256 → validDomain (domainNo 2 0 link) = true → bad ≠ [] →
    (∀ b ∈ bad, b < 68) →
    let marked := (s.fw.wearOf (domainNo 2 0 link)).marked && !s.fw.noSpareLane link
    64 < (s.replays link).length ∨ marked = true →
    let lanes := bad.foldl insertNat (tabGetD s.fw.linkLanes link [])
    let fw := { s.fw with linkLanes := tabSet s.fw.linkLanes link lanes, linkReplays := tabErase s.fw.linkReplays link,
                          unacked := tabErase s.fw.unacked link }
    let fw := if marked then fw.modWear (domainNo 2 0 link) fun w => { w with marked := false, stopped := false } else fw
    let m := s.m.logReason 8 0 link lanes.length
    exec (.linkRepair link bad) s = .next { s with fw := fw.serviced, m := if (boundaryModules link).all fw.linkDead then m.faultAll 4 else m })

/-- TLB_MISS_WALK, WALK_COMPLETE, WALK_BOUND_EXCEEDED (R363, R364), PAGE_REQUEST_RESPONSE (R365, R366), and on the host link HOST_COMPLETION,
ATS_TRANSLATION_COMPLETION, PRI_RESPONSE, ATS_INVALIDATION (R372), reads and writes of BAR 4 (R371) and PRIORITY_FLOW_CONTROL (R373). -/
def Obligations.WalkAndHostEvents : Prop :=
  (∀ (s : State) (die n : Nat) (w : Walk), s.live = true → (s.m.die die).walks.find? (fun x => !x.2.started) = some (n, w) →
    ((s.m.die die).walks.filter fun x => x.2.started).length < 64 →
    Gives (.tlbMissWalk die) s (s.m.modDie die fun d => { d with walks := tabSet d.walks n { w with started := true } })) ∧
  (∀ (s : State) (die n : Nat) (w : Walk), s.live = true → tabGet (s.m.die die).walks n = some w → w.started = true →
    (∀ e, s.m.walkTable w.ctx w.va = .leaf e →
      let m := (s.m.installDie die e).endWalk die n []
      Gives (.walkComplete die n) s ((m.die die).walks.foldl (fun (m : Mach) x =>
        if !x.2.started && e.covers x.2.ctx x.2.world x.2.va then m.endWalk die x.1 [] else m) m)) ∧
    (∀ c r d, s.m.walkTable w.ctx w.va = .fault c r d → Gives (.walkComplete die n) s (s.m.endWalk die n [(w.va / 2 ^ 16, c, r, d)])) ∧
    (∀ level, s.m.walkTable w.ctx w.va = .absent level → s.m.walkAbsent die n w level ≠ s.m →
      Gives (.walkComplete die n) s (s.m.walkAbsent die n w level))) ∧
  (∀ (s : State) (die n : Nat) (w : Walk), s.live = true → tabGet (s.m.die die).walks n = some w →
    let late := fun (x : Machine.Wait) => x.onWalk die n && !x.overdue && decide (x.since + 4096 ≤ s.m.clk)
    let first := !w.overdue && decide (w.since + 4096 ≤ s.m.clk)
    first = true ∨ (∃ k ∈ s.m.tasks, ∃ x ∈ k.2.waits, late x.2 = true) →
    Gives (.walkBoundExceeded die n) s ((s.m.modWaits (fun _ x => late x) fun x => { x with overdue := true }).modDie die fun d =>
      { d with walks := tabSet d.walks n { w with overdue := w.overdue || first } })) ∧
  (∀ (s : State) (ctx slot page access : Nat) (c : Ctx), s.live = true → s.fw.updating < 2 → s.fw.state ≠ .failed → s.m.ctx ctx = some c →
    c.prqPosted.find? (fun r => r.2.2 == slot) = some (page, access, slot) →
    let a := (c.translation.getD 2 0).toNat + 32 * slot
    let resp := (s.m.mem.word64 (a + 24)).1
    resp = 1 ∨ resp = 2 →
    let level := fieldOf (s.m.mem.word64 (a + 16)).1 9 2
    let found := if resp = 2 then [(page, 4, 2, level)] else []
    let go := fun (w : Machine.Wait) => { w with hold := .cond, found := w.found ++ found }
    let m := ((s.m.modWaits (fun _ w => w.onPage ctx page) go).modParked (·.onPage ctx page) go).modCtx ctx fun c => { c with
      prqPosted := c.prqPosted.filter fun r => r.2.2 != slot
      engineWaits := c.engineWaits.filter (· != page)
      faultPage := if resp = 2 ∧ page ∈ c.engineWaits then c.faultPage ++ [(page, level)] else c.faultPage }
    Gives (.pageRequestResponse ctx slot) s { m with mem := m.mem.setWord64 (a + 24) 3 }) ∧
  (∀ (s : State) (tag : Nat) (bytes : List Byte) (poisoned : Bool) (r : Request), s.live = true → tabGet s.m.requests tag = some r →
    r.host = some tag → r.answer = none →
    Gives (.hostCompletion tag bytes poisoned) s (s.m.deliver tag r ⟨none, bytes, if poisoned then BitVec.allOnes 128 else 0, 0⟩)) ∧
  (∀ (s : State) (page : Nat) (engine secure : Bool), s.live = true → s.m.atsAsked.find? (fun a => a.1 == page) = some (page, engine, secure) →
    let rest := s.m.atsAsked.filter fun a => a.1 != page
    Gives (.atsTranslationCompletion page none) s { s.m with out := s.m.out ++ [.priRequest page secure] } ∧
    (∀ o, let l := s.m.ats.filter fun a => a.1 != page
      Gives (.atsTranslationCompletion page (some o)) s
        ({ s.m with atsAsked := rest, ats := (if 512 ≤ l.length then l.drop 1 else l) ++ [(page, o)] }.endAts page [])) ∧
    Gives (.priResponse page 0) s { s.m with out := s.m.out ++ [.atsRequest page secure] } ∧
    ∀ code, code ≠ 0 → Gives (.priResponse page code) s
      ({ s.m with atsAsked := rest, atsRefused := if engine then insertNat s.m.atsRefused page else s.m.atsRefused }.endAts page
        [(refusedKey page, 4, 4, 0)])) ∧
  (∀ (s : State) (page n : Nat), s.live = true → Gives (.atsInvalidation page n) s
    { s.m with ats := s.m.ats.filter fun a => !(page ≤ a.1 && a.1 < page + n), out := s.m.out ++ [.invalidationDone] }) ∧
  (∀ (s : State) (offset : Nat) (bytes : List Byte) (req : HostReq) (poisoned : Bool), s.live = true → s.fw.state ≠ .failed → bytes ≠ [] → bytes.length ≤ 512 →
    offset + bytes.length ≤ 2 ^ 40 →
    Gives (.hostBar4Write offset bytes req poisoned) s (if s.m.barOpen req offset bytes.length then
      (sectorsAt (.mem offset) bytes.length).foldl (fun (m : Mach) a => m.touch a) { s.m with mem := s.m.mem.store offset bytes fun _ => poisoned }
      else { s.m with out := s.m.out ++ [.unsupported] })) ∧
  (∀ (s : State) (offset n : Nat) (req : HostReq), s.live = true → s.fw.state ≠ .failed → 0 < n → n ≤ 4096 → offset + n ≤ 2 ^ 40 →
    let m := (sectorsAt (.mem offset) n).foldl (fun (m : Mach) a => m.touch a) s.m
    Gives (.hostBar4Read offset n req) s (if s.m.barOpen req offset n then
      { m with out := m.out ++ [.readAnswer (m.mem.bytes offset n) (m.mem.anyPoison offset n)] } else { s.m with out := s.m.out ++ [.unsupported] })) ∧
  (∀ (s : State) (port priority : Nat), s.live = true → port < 16 → priority < 2 →
    Gives (.priorityFlowControl port priority true) s
      { s.m with paused := if s.m.paused.contains (port, priority) then s.m.paused else s.m.paused ++ [(port, priority)] } ∧
    Gives (.priorityFlowControl port priority false) s (s.m.held.foldl (fun (m : Mach) f => m.emit f)
      { s.m with paused := s.m.paused.filter (· != (port, priority)), held := [] }))

end

namespace Sys2Proof.Machine

/-! ### Events: portals, packets and launches (R322 to R337, R392 to R397) -/

/-- A dependence i of a packet is absent, has been met before, or is met now (R328): the machine after its acquire. -/
def DepMet (p : Pk) (i : Nat) (m m' : Mach) : Prop :=
  if i ≤ p.waited ∨ fieldOf (p.word 0) (8 + i) 1 = 0 then m' = m
  else feWait m p.q p.ctx (p.word i).toNat 0 0 (fun m => .go (m.modQueue p.q fun h => { h with waited := i }) none) = .go m' none

/-- Queue q starts packet p of type t in this cycle (R328): no packet in progress waits only for its own completion signal, the device has not
failed (R433), no live update is frozen, the packet before it lets it start, its dependences are met, it has no reserved value, its addresses are aligned and
that of its completion signal is found; m is the machine at its start. -/
def Starts (s : State) (q t : Nat) (p : Pk) (m : Mach) : Prop :=
  s.live = true ∧ s.fw.updating < 2 ∧ s.fw.state ≠ .failed ∧ (∀ h a, s.m.queue q = some h → a ∈ h.active → a.type ≠ t) ∧ s.m.nextPacket q = some (.ok p) ∧ p.q = q ∧ p.type = t ∧
  ((t = 2 ∨ t = 3) → s.stepDue = false) ∧ (fieldOf (p.word 0) 8 1 = 1 → p.idle = true) ∧
  ∃ m1 m2, DepMet p 1 s.m m1 ∧ DepMet p 2 m1 m2 ∧ pkReserved p.w = false ∧ pkMisaligned p.w = false ∧
    if fieldOf (p.word 0) 11 1 = 1 then ∃ e x, m2.engineSpot feDie p.ctx (p.word 3).toNat .store acceptUpdate = (.found e x, m) else m = m2

/-- The packet has started: STARTED counts it, and it is in progress (R323). -/
def started (m : Mach) (q : Nat) (a : Packet) : Mach :=
  (m.modQueue q fun h => { h with started := h.started + 1, waited := 0, active := h.active ++ [a] }).dropAgent (queueAgent q)

/-- A packet in progress completes, with its completion signal where it asks for one (R330): m' of m. -/
def Completes (m : Mach) (q ctx : Nat) (a : Packet) (m' : Mach) : Prop :=
  if fieldOf (a.words.getD 0 0) 11 1 = 0 then m' = (m.completed q a.index).dropAgent (queueAgent q)
  else ∃ e x m1, m.engineSpot feDie ctx (a.words.getD 3 0).toNat .store acceptUpdate = (.found e x, m1) ∧
    m' = ((m1.feSignal ctx (0 - 1) e x).completed q a.index).dropAgent (queueAgent q)

/-- Event i at queue q starts packet p, whose effect leaves the machine m, and the packet completes at once. -/
def StartsAndEnds (i : Nat → Instr) (s : State) (q : Nat) (p : Pk) (m : Mach) : Prop :=
  ∀ m', Completes (started m q p.inProgress) q p.ctx p.inProgress m' → Gives (i q) s m'

/-- The host's translation of a page is known where a place needs it (R372). -/
def HostKnown (m : Mach) (x : Spot) : Prop := ∀ pa, x = .host pa → (m.ats.find? fun a => a.1 == hostPage pa).isSome = true

/-- The pieces of a packet's range are found one after another. -/
def FePlaced (p : Pk) (use : Use) : List (Nat × Nat) → Mach → List (Elt × Spot) → Mach → Prop
  | [], m, l, m' => l = [] ∧ m' = m
  | (a, _) :: rest, m, l, m' => ∃ e x m1 k, m.engineSpot feDie p.ctx a use acceptCopy = (.found e x, m1) ∧ HostKnown m1 x ∧
      FePlaced p use rest m1 k m' ∧ l = (e, x) :: k

/-- The same of a buffer in plain local memory. -/
def CollPlaced (p : Pk) (use : Use) : List (Nat × Nat) → Mach → List (Nat × Nat) → Mach → Prop
  | [], m, l, m' => l = [] ∧ m' = m
  | (a, n) :: rest, m, l, m' => ∃ e pa m1 k, m.engineSpot feDie p.ctx a use (fun r attr => r == .loc && attr == 0) = (.found e (.here pa), m1) ∧
      CollPlaced p use rest m1 k m' ∧ l = (pa, n) :: k

/-- The front end reads n bytes at an address of the packet. -/
def FeRead (m : Mach) (p : Pk) (va n : Nat) (d : Datum) (m' : Mach) : Prop :=
  ∃ e x m1, m.engineSpot feDie p.ctx va .load (fun _ _ => true) = (.found e x, m1) ∧ m1.spotRead (queueAgent p.q) p.ctx n e x = (.data d, m')

/-- The machine once a COPY packet has started (R331). -/
def copyPacketStarted (m : Mach) (p : Pk) (moves : List Move) : Mach :=
  let plan : CopyPlan := ⟨moves, .none, false, false⟩
  let readers := m.copyReaders plan
  let id := m.nextId
  let m := m.fresh.2
  let moves := moves.map fun v => { v with data := m.readPlace v.src v.len }
  let m := (moves.zipIdx).foldl (fun (m : Mach) y => match y.1.src with
    | .away d x w => (m.request (.copyRead id y.2) p.ctx (readFrame d x y.1.len w .rlx .team)).2
    | .host x w => (m.hostRequest (.copyRead id y.2) p.ctx fun tag => .hostRead tag x y.1.len w).2
    | _ => m) m
  { m with
    copies := tabSet m.copies id ⟨queueAgent p.q, 0, p.ctx, 0, moves, .none, none, readers, true, true⟩
    seals := m.seals.map fun (y : Nat × Seal) => (y.1, if readers.contains y.1 then { y.2 with readers := y.2.readers + 1 } else y.2) }

end Sys2Proof.Machine

section

open Sys2Proof Sys2Proof.Machine

/-- PORTAL_DMWR and PORTAL_POSTED_WRITE (R324), QUEUE_RECORD_WRITE (R322) and REGISTER_WRITE (R13, R338, R361, R367, R374, R379, R392, R410,
R426). -/
def Obligations.PortalAndRegisterEvents : Prop :=
  (∀ (s : State) (q offset : Nat) (words : List Word) (req : HostReq), s.live = true → s.fw.state ≠ .failed → q < 4096 →
    let answer := fun (m : Mach) (st : Nat) => { m with out := m.out ++ [.dmwr st] }
    let ok := fun (h : HwQueue) => offset = 0 ∧ words.length = 8 ∧ h.enabled = true ∧ h.faulted = false ∧ req ≠ .pf1Open ∧ (h.world = true ↔ req = .pf1)
    (∀ h, s.m.queue q = some h → ok h → h.accepted - h.started < h.size →
      Gives (.portalDmwr q offset words req) s (answer ({ s.m with
        mem := words.zipIdx.foldl (fun (mem : Memory) (y : Word × Nat) => mem.setWord64 (h.slot h.accepted + 8 * y.2) y.1) s.m.mem }.modQueue q
          fun h => { h with accepted := h.accepted + 1 }) 0)) ∧
    (∀ h, s.m.queue q = some h → ok h → h.size ≤ h.accepted - h.started → Gives (.portalDmwr q offset words req) s (answer s.m 2)) ∧
    ((∀ h, s.m.queue q = some h → ¬ ok h) → Gives (.portalDmwr q offset words req) s (answer s.m 1))) ∧
  (∀ (s : State) (q : Nat), s.live = true → s.fw.state ≠ .failed → q < 4096 →
    Gives (.portalPostedWrite (.write q)) s
      { s.m with deviceLog := s.m.deviceLog ++ [⟨1, 0, 0, BitVec.ofNat 64 (4096 * q), BitVec.ofNat 64 q, 0⟩] } ∧
    ∀ h, s.m.queue q = some h → ∀ row ∈ [(0x40, BitVec.ofNat 64 h.accepted), (0x48, BitVec.ofNat 64 h.started), (0x50, BitVec.ofNat 64 h.completed),
        (0x58, BitVec.ofNat 64 ((if h.enabled then 2 ^ 63 else 0) + (if h.faulted then 2 ^ 62 else 0) + 2 ^ 48 * h.code + h.failedAt)), (0, 0), (0x60, (0 : Word))],
      Gives (.portalPostedWrite (.read q row.1)) s { s.m with out := s.m.out ++ [.readAnswer (toBytes 8 row.2.toNat) false] }) ∧
  (∀ (s : State) (q : Nat) (w0 w1 : Word), s.live = true → q < 4096 →
    let w0' := w0 &&& ~~~(BitVec.ofNat 64 (2 ^ 40 - 2 ^ 8))
    let h := { (s.m.queue q).getD ⟨0, 0, 0, 0, 0, false, 0, 0, [], 0, 0⟩ with w0 := w0', w1 := w1 }
    let h' := if w0.getLsbD 63 then { h with
        accepted := 0, started := 0, completed := 0, faulted := false, code := 0, failedAt := 0, waited := 0, base := h.base + h.started } else h
    let owner := fieldOf w0' 0 8
    Gives (.queueRecordWrite q w0 w1) s { s.m with
      queues := tabSet s.m.queues q h'
      ctxs := if s.m.ctx owner = none then tabSet s.m.ctxs owner (Ctx.blank owner) else s.m.ctxs }) ∧
  (∀ (s : State) (v : Word), s.live = true →
    (∀ x i, x < 256 → i < 32 → let c := (s.m.ctx x).getD (Ctx.blank x)
      c.resident = false → Gives (.registerWrite (.context x i) v) s { s.m with
        ctxs := tabSet s.m.ctxs x (c.writeWord i v)
        dies := if i = 0 ∧ v.getLsbD 63 = true ∧ (c.word 0).getLsbD 63 = false then
            s.m.dies.map fun d => (d.1, { d.2 with serial := tabErase d.2.serial x }) else s.m.dies }) ∧
    Gives (.registerWrite .trbase v) s { s.m with trbase := v } ∧
    Gives (.registerWrite .xdev v) s { s.m with xdev := v.setWidth 12 } ∧
    (∀ w d, d < 4096 → Gives (.registerWrite (.route w d) v) s { s.m with
      routes := s.m.routes.filter (fun r => r.1 != w || r.2.1 != d) ++ [(w, d, v.setWidth 16)], pdoms := tabSet s.m.pdoms d (fieldOf v 16 1) }) ∧
    (∀ d, d < 4096 → Gives (.registerWrite (.pdom d) v) s { s.m with pdoms := tabSet s.m.pdoms d (fieldOf v 0 1) }) ∧
    (∀ g, g < 2048 → Gives (.registerWrite (.carveOut g) v) s
      { s.m with carveOuts := if v.getLsbD 0 then insertNat s.m.carveOuts g else s.m.carveOuts.filter (· != g) }) ∧
    (∀ w g, g < 2048 → Gives (.registerWrite (.exportGranule w g) v) s { s.m with
      exports := if v.getLsbD 0 then (w, g) :: s.m.exports.filter (· != (w, g)) else s.m.exports.filter (· != (w, g)) }) ∧
    (∀ n k, n < 256 → k < 4100 →
      let l := tabGetD s.m.groups n []
      Gives (.registerWrite (.group n k) v) s
        { s.m with groups := tabSet s.m.groups n ((l ++ List.replicate (k + 1 - l.length) 0).set k v.toNat), collNext := tabErase s.m.collNext n }) ∧
    Gives (.registerWrite .devstat v) s s.m)

/-- NOP_PACKET, SIGNAL, WAIT, WRITE_THEN_SIGNAL, FENCE, TIMESTAMP, COPY and both QUEUE_INITs (R331) start and complete, and a packet with a
reserved value or a misaligned address stops its queue (R332). -/
def Obligations.PacketEvents : Prop :=
  (∀ (s : State) (q : Nat) (p : Pk) (m : Mach), Starts s q 1 p m → StartsAndEnds .nopPacket s q p m) ∧
  (∀ (s : State) (q : Nat) (p : Pk), s.live = true → s.fw.updating < 2 → s.fw.state ≠ .failed → (∀ h, s.m.queue q = some h → h.active = []) →
    s.m.nextPacket q = some (.ok p) → (p.type = 0 ∨ p.type = 1 ∨ 0x0C ≤ p.type) → fieldOf (p.word 0) 9 2 = 0 →
    (pkReserved p.w = true → Gives (.nopPacket q) s (s.m.failPacket q 1)) ∧
    (pkReserved p.w = false → pkMisaligned p.w = true → Gives (.nopPacket q) s (s.m.failPacket q 2))) ∧
  (∀ (s : State) (q : Nat) (p : Pk) (m m1 : Mach) (e : Elt) (x : Spot), Starts s q 5 p m →
    m.engineSpot feDie p.ctx (p.word 4).toNat .store acceptUpdate = (.found e x, m1) →
    StartsAndEnds .signal s q p (m1.feSignal p.ctx (p.word 5) e x)) ∧
  (∀ (s : State) (q : Nat) (p : Pk) (m m1 : Mach), Starts s q 6 p m →
    feWait m q p.ctx (p.word 4).toNat (p.word 6).toNat (p.word 5) (fun m => .go m none) = .go m1 none → StartsAndEnds .wait s q p m1) ∧
  (∀ (s : State) (q : Nat) (p : Pk) (m m1 m2 : Mach) (e e' : Elt) (x x' : Spot), Starts s q 7 p m →
    m.engineSpot feDie p.ctx (p.word 6).toNat .store acceptUpdate = (.found e' x', m1) →
    m1.engineSpot feDie p.ctx (p.word 4).toNat .store (fun _ attr => attr ≤ 1) = (.found e x, m2) → HostKnown m2 x →
    ((∀ d a, x ≠ .away d a) → StartsAndEnds .writeThenSignal s q p ((m2.feWrite p.ctx (p.word 5) e x).feSignal p.ctx (p.word 7) e' x')) ∧
    (∀ d a, x = .away d a → Gives (.writeThenSignal q) s (started (m2.request (.kept (queueAgent q + 2 ^ 20 * (p.index + 1)) 0 [(0, e.va)]) p.ctx
      (writeFrame d a e.secure .rlx .team .b64 (toBytes 8 (p.word 5).toNat) fun _ => false)).2 q p.inProgress))) ∧
  (∀ (s : State) (q ctx : Nat) (a : Packet) (m m1 m' : Mach) (e : Elt) (x : Spot) (y : EngineAt), s.live = true →
    s.m.inProgress q (fun a => a.type == 7) = some (ctx, a) →
    s.m.agentAnswer (queueAgent q + 2 ^ 20 * (a.index + 1)) (a.words.getD 4 0).toNat ≠ some none →
    s.m.engineSpot feDie ctx (a.words.getD 6 0).toNat .store acceptUpdate = (.found e x, m) →
    m.csigSpot ctx a.words = (y, m1) → y ≠ .waiting → Completes (m1.feSignal ctx (a.words.getD 7 0) e x) q ctx a m' → Gives (.writeThenSignal q) s m') ∧
  (∀ (s : State) (q : Nat) (p : Pk) (m : Mach), Starts s q 8 p m → p.idle = true → StartsAndEnds .fencePacket s q p (m.launchWriteback p.c)) ∧
  (∀ (s : State) (q : Nat) (p : Pk) (m m1 : Mach) (e : Elt) (x : Spot), Starts s q 0x0B p m →
    m.engineSpot feDie p.ctx (p.word 4).toNat .store (fun _ attr => attr ≤ 1) = (.found e x, m1) → HostKnown m1 x →
    StartsAndEnds .timestamp s q p (m1.feWrite p.ctx m1.xclk e x)) ∧
  (∀ (s : State) (q : Nat) (p : Pk) (m m1 m2 : Mach) (src dst : List (Elt × Spot)), Starts s q 4 p m →
    let a := (p.word 4).toNat
    let b := (p.word 5).toNat
    let n := (p.word 6).toNat
    FePlaced p .load (pageCuts a n) m src m1 → FePlaced p .store (pageCuts b n) m1 dst m2 →
    let moves := (cuts a b n).map fun (y : Nat × Nat) => (⟨spotAt m2 src (a + y.1), [spotAt m2 dst (b + y.1)], y.2, none⟩ : Move)
    (∀ r ∈ m2.seals, ∀ v ∈ moves, ∀ k, Place.mem k ∈ v.dsts → piecesMeet r.2.pieces [(k, v.len)] = false) →
    CopyPlan.overlaps ⟨moves, .none, false, false⟩ = false →
    (moves = [] → StartsAndEnds .copy s q p m2) ∧
    (moves ≠ [] → Gives (.copy q) s (started (copyPacketStarted m2 p moves) q { p.inProgress with copy := some m2.nextId }))) ∧
  (∀ (s : State) (q ctx : Nat) (a : Packet) (m' : Mach), s.live = true →
    s.m.inProgress q (fun a => a.type == 4 && a.copy.any fun n => (s.m.copy n).isNone) = some (ctx, a) → Completes s.m q ctx a m' → Gives (.copy q) s m') ∧
  (∀ (s : State) (q : Nat) (p : Pk) (m m1 : Mach) (e : Elt) (pa : Nat), Starts s q 0x0A p m → (p.word 5).toNat = 0 →
    m.engineSpot feDie p.ctx (p.word 4).toNat .store acceptUpdate = (.found e (.here pa), m1) → m1.mem.anyPoison pa 64 = false →
    descriptorGood (fun i => (m1.mem.word64 (pa + 8 * i)).1) = true →
    (m1.spawnqs.filter fun y => y.2.die == pa / 2 ^ 37 % 8 && y.2.ctx == p.ctx && (QDesc.of m1.mem y.1).enabled).length < p.c.qMax →
    StartsAndEnds .queueInitEnable s q p { m1 with
      mem := (((m1.mem.setWord64 (pa + 32) 0).setWord64 (pa + 40) 0).setWord64 (pa + 48) 0).setWord64 (pa + 56) (BitVec.ofNat 64 (2 ^ 63))
      spawnqs := tabSet m1.spawnqs pa ⟨p.ctx, pa / 2 ^ 37 % 8, p.word 4, [], none, [], 0, false, none⟩ }) ∧
  (∀ (s : State) (q : Nat) (p : Pk) (m m1 : Mach) (e : Elt) (pa : Nat), Starts s q 0x0A p m → (p.word 5).toNat = 1 →
    m.engineSpot feDie p.ctx (p.word 4).toNat .store acceptUpdate = (.found e (.here pa), m1) → m1.mem.anyPoison pa 64 = false →
    let st := (m1.mem.word64 (pa + 56)).1
    let m2 := { m1 with mem := m1.mem.setWord64 (pa + 56) (st &&& ~~~(BitVec.ofNat 64 (2 ^ 63))) }
    (fieldOf st 32 16 = 0 → StartsAndEnds .queueInitDisable s q p m2) ∧
    (fieldOf st 32 16 ≠ 0 → Gives (.queueInitDisable q) s (started m2 q p.inProgress))) ∧
  (∀ (s : State) (q ctx : Nat) (a : Packet) (m m' : Mach) (e : Elt) (pa : Nat), s.live = true →
    s.m.inProgress q (fun a => a.type == 0x0A) = some (ctx, a) →
    s.m.engineSpot feDie ctx (a.words.getD 4 0).toNat .load acceptUpdate = (.found e (.here pa), m) → fieldOf (m.mem.word64 (pa + 56)).1 32 16 = 0 →
    Completes m q ctx a m' → Gives (.queueInitDisable q) s m')

/-- LAUNCH_ROOT (R334), LAUNCH_TILE (R335, R337), LAUNCH_COMPLETE (R334 to R336) and COLLECTIVE (R393, R395, R396). The frames of collectives have the layouts of DESIGN CHOICE, log 18. -/
def Obligations.LaunchAndCollectiveEvents : Prop :=
  (∀ (s : State) (q n die target : Nat) (p : Pk) (m m1 : Mach) (d : Datum), Starts s q 2 p m → FeRead m p (p.word 4).toNat 128 d m1 →
    closureCode (imageOf d) = none → p.c.dies[(p.word 5).toNat]? = some die → p.c.freeLaunch = some n →
    let e := launchEntry (imageOf d) m1.xclk n none
    (if p.c.permits e die then some die else nearestDie die (p.c.dies.filter fun d => p.c.permits e d)) = some target →
    m1.inboxFull target p.ctx = false →
    Gives (.launchRoot q) s (started ((m1.addLaunch p.ctx n 2 ⟨p.q, p.index, p.word 4, p.word 3, none, 1⟩).inboxPush target p.ctx e) q
      { p.inProgress with launch := some n })) ∧
  (∀ (s : State) (q n : Nat) (p : Pk) (m m1 m2 : Mach) (d : Datum) (size : Nat × Nat × Nat), Starts s q 3 p m →
    FeRead m p (p.word 4).toNat 128 d m1 → closureCode (imageOf d) = none →
    (if fieldOf (p.word 6) 48 1 = 0 then
      m2 = m1 ∧ size = (fieldOf (p.word 5) 0 16 + 1, fieldOf (p.word 5) 16 16 + 1, fieldOf (p.word 5) 32 16 + 1)
     else ∃ v, FeRead m1 p (p.word 7).toNat 8 (v, 0) m2 ∧ size = (v % 2 ^ 16, v / 2 ^ 16 % 2 ^ 16, v / 2 ^ 32 % 2 ^ 16)) →
    p.c.freeLaunch = some n →
    let tiles := size.1 * size.2.1 * size.2.2
    let t : Tiles := ⟨size.1, size.2.1, size.2.2, fieldOf (p.word 6) 0 16, fieldOf (p.word 6) 16 16, fieldOf (p.word 6) 32 16,
      fieldOf (p.word 5) 48 5, List.range tiles, [], []⟩
    let cores := m2.placementCores p.c
    (tiles = 0 → StartsAndEnds .launchTile s q p (m2.launchWriteback p.c)) ∧
    (tiles ≠ 0 → (∀ k ∈ cores, m2.dequeRoom k p.ctx = true) →
      let m3 := m2.addLaunch p.ctx n 3 ⟨p.q, p.index, p.word 4, p.word 3, some t, cores.length⟩
      Gives (.launchTile q) s (started (cores.foldl (fun (m : Mach) k => m.pushDeque k p.ctx (launchEntry (imageOf d) m.xclk n (some k))) m3) q
        { p.inProgress with launch := some n }))) ∧
  (∀ (s : State) (ctx n : Nat) (c : Ctx) (l : Launch), s.live = true → s.m.ctx ctx = some c → tabGet c.launches n = some l → l.isOver = true →
    let m := s.m.launchWriteback c
    let ended := fun (m : Mach) => ({ m with
      mem := m.mem.setWord64 (c.launchAddr n) (((m.mem.word64 (c.launchAddr n)).1 &&& ~~~((1 : Word) <<< 63)) ||| 0x100) }.modCtx ctx fun c =>
      { c with launches := tabErase c.launches n }).completed l.queue l.packet
    (l.csig = 0 → Gives (.launchComplete ctx n) s (ended m)) ∧
    (l.csig ≠ 0 → ∀ e x m', m.engineSpot feDie ctx l.csig.toNat .store acceptUpdate = (.found e x, m') →
      Gives (.launchComplete ctx n) s (ended (m'.feSignal ctx (0 - 1) e x)))) ∧
  (∀ (s : State) (q : Nat) (p : Pk) (m m1 m2 : Mach) (g : Group) (src dst : List (Nat × Nat)) (e : Collective), Starts s q 9 p m →
    (∀ c ∈ s.m.collectives, c.packet.any (·.1 == q) = false) →
    let w4 := p.word 4
    let w7 := p.word 7
    collReserved w4 w7 = false → (p.word 5).toNat % 32 = 0 → (p.word 6).toNat % 32 = 0 → m.group (collGroup w4) = some g →
    g.ctx = p.ctx → g.world = p.c.world → collRoot w4 < g.devs.length →
    CollPlaced p .load (pageCuts (p.word 5).toNat (collBlock w4 w7 * collSources w4 g.devs.length g.rank)) m src m1 →
    CollPlaced p .store (pageCuts (p.word 6).toNat (collBlock w4 w7 * collDests w4 g.devs.length)) m1 dst m2 →
    (∀ x ∈ src, ∀ y ∈ dst, ¬ (x.1 < y.1 + y.2 ∧ y.1 < x.1 + x.2)) →
    e = (match m2.coll (collGroup w4) (collSeq w4) with
      | some e => if e.ended then Collective.blank (collGroup w4) (collSeq w4) else e
      | none => Collective.blank (collGroup w4) (collSeq w4)) → e.aborted = none →
    let e' := { e with packet := some (p.q, p.index), ctx := p.ctx, words := [w4, w7], src := src, dst := dst, params := e.params ++ [(g.rank, [w4, w7])] }
    Gives (.collective q) s (started ((m2.setColl e').sendParams g e'.group e'.cseq [w4, w7] none) q
      { p.inProgress with collective := some (2 ^ 16 * e'.group + e'.cseq) })) ∧
  (∀ (s : State) (q : Nat) (c : Collective) (g : Group), s.live = true →
    (∀ h a, s.m.queue q = some h → a ∈ h.active → a.type ≠ 9 ∨ a.collective = some (2 ^ 16 * c.group + c.cseq)) →
    s.m.coll c.group c.cseq = some c → c.cseq < 2 ^ 16 → c.ended = false → c.aborted = none → s.m.collLate c = false → c.packet.any (·.1 == q) = true →
    (∀ x ∈ s.m.collectives, x.packet.any (·.1 == q) = true → x = c) → s.m.group c.group = some g → (∀ y ∈ c.params, y.2 = c.words) →
    (c.sent g = false → (∀ r < g.devs.length, ∃ y ∈ c.params, y.1 = r) →
      s.m.collTurn c = true → Gives (.collective q) s (s.m.collSend c g)) ∧
    (c.sent g = true → (∀ w ∈ c.result g, w.isSome = true) → Gives (.collective q) s (s.m.collFinish c g))) ∧
  (∀ (s : State) (q ctx : Nat) (a : Packet) (m' : Mach), s.live = true →
    s.m.inProgress q (fun a => a.type == 9 && a.collective.any fun k => (s.m.coll (k / 2 ^ 16) (k % 2 ^ 16)).all (·.ended)) = some (ctx, a) →
    Completes s.m q ctx a m' → Gives (.collective q) s m')

end

namespace Sys2Proof.Machine

/-! ### Events: frames of other devices (R372 to R391) -/

/-- A frame is for this device, of a type, and the next of its stream (R377). -/
def Arrives (s : State) (code : BitVec 8) (f : Frame) : Prop :=
  s.live = true ∧ f.opc = code ∧ f.dst = s.m.xdev ∧ f.seq = (s.m.stream f.world (decide (0x80 ≤ f.opc)) f.src.toNat).received

/-- The 512 MiB granules in which the memory that a frame names begins and ends. -/
def frameGranules (f : Frame) : List Nat := [f.addr.toNat / 2 ^ 29, (f.addr.toNat + (frameSpan f - 1)) / 2 ^ 29]

/-- The memory that a frame names passes the checks of R379: it is exported to the frame's world, and no secure carve-out for a normal frame. -/
def Exported (m : Mach) (f : Frame) : Prop :=
  ∀ g ∈ frameGranules f, (f.world, g) ∈ m.exports ∧ (f.world = false → g ∉ m.carveOuts)

/-- A request arrives at a device that has not failed (R433). -/
def Asks (s : State) (code : BitVec 8) (f : Frame) : Prop := Arrives s code f ∧ s.fw.state ≠ .failed

/-- It names memory of this device, and passes the checks of R379. -/
def Admitted (s : State) (code : BitVec 8) (f : Frame) : Prop := Asks s code f ∧ Exported s.m f

/-- A frame about a page of a home: it is checked there (R379). -/
def AsksAt (s : State) (code : BitVec 8) (home : Nat) (f : Frame) : Prop := Asks s code f ∧ (home = s.m.xdev.toNat → Exported s.m f)

/-- The frame is answered: ACK, or NACK with a reason, on the machine m. -/
def acked (m : Mach) (f : Frame) : Mach := m.answer f 0x81 0 [] fun _ => false

/-- Whether a frame acquires and its line's record is of a scope that it may not pass (R385). -/
def AcquireRefused (m : Mach) (f : Frame) : Prop :=
  acquires (ordOf f.ord) (scopeOf f.scope) = true ∧ ∃ r, tabGet m.record (f.addr.toNat / 128) = some r ∧ scopeNat r.scope < 4

/-- The release of a frame writes a FOREIGN record (R384). -/
def foreignRelease (m : Mach) (f : Frame) : Mach :=
  if releases (ordOf f.ord) (scopeOf f.scope) then m.setRecord f.addr.toNat ⟨true, f.src.toNat, 0, scopeOf f.scope⟩ else m

/-- One lane of an ATOMIC: its place, old value and new value over a memory (R157). -/
def atomicStep (f : Frame) (sub : Nat) (ty : Ty) (sat : Bool) (m : Mach) (i : Nat) : Datum × Mach :=
  let size := accessSize ty
  let (off, d, b) := frameLane f size ((8 + size * if sub = 7 then 2 else 1) * i) (sub == 7)
  let pa := f.addr.toNat + off % 128
  let old := m.mem.load pa size
  let poisoned := old.2 != 0 || d.2 != 0 || (sub == 7 && b.2 != 0)
  (old, { m with mem := m.mem.put pa size (atomValue sub ty sat old.1 d.1 b.1, if poisoned then 2 ^ (size / 4) - 1 else 0) }.touch pa)

def atomicSteps (f : Frame) (sub : Nat) (ty : Ty) (sat : Bool) (n : Nat) (m : Mach) : List Datum × Mach :=
  (List.range n).foldl (fun (acc : List Datum × Mach) i =>
    (acc.1 ++ [(atomicStep f sub ty sat acc.2 i).1], (atomicStep f sub ty sat acc.2 i).2)) ([], m)

/-- The page that a frame names, at a home. -/
def framePage (m : Mach) (home : Nat) (f : Frame) : Page := m.page home (f.addr.toNat / 65536 * 65536) f.world

/-- Event i is the request of a type that a frame makes at an address of this device. -/
def RequestEvent (code : BitVec 8) (f : Frame) (i : Instr) : Prop :=
  (code = 1 ∧ i = .write f) ∨ (code = 2 ∧ i = .read f) ∨ (code = 3 ∧ i = .atomic f) ∨ (code = 4 ∧ i = .qpushFrame f) ∨ (code = 5 ∧ i = .waitreg f) ∨
  (code = 6 ∧ i = .qctl f) ∨ (code = 0x10 ∧ i = .replReq f) ∨ (code = 0x11 ∧ i = .ownReq f) ∨ (code = 0x18 ∧ i = .ordWrite f)

end Sys2Proof.Machine

section

open Sys2Proof Sys2Proof.Machine

/-- WRITE, READ, ATOMIC (R157, R376, R379, R380, R384, R385), WAITREG (R382), QPUSH and QCTL frames (R381), when they arrive in the order of their
stream; the layouts of OPARG are the model's (DESIGN CHOICE, log 18). A duplicate is answered as before, and a frame that a check of R379 refuses is answered NACK
and recorded. -/
def Obligations.AccessFrames : Prop :=
  (∀ (s : State) (f : Frame), Admitted s 1 f →
    let n := fieldOf f.oparg 16 13
    let m := s.m.noteFrame f
    let sectors := sectorsAt (.mem f.addr.toNat) n
    ((∃ x ∈ sectors, m.sealed x = true) → Gives (.write f) s (m.nackFrame f 4)) ∧
    ((∀ x ∈ sectors, m.sealed x = false) → AcquireRefused m f →
      Gives (.write f) s (m.answer f 0x80 (answerRecord (m.frameRecord f) true) [] fun _ => false)) ∧
    ((∀ x ∈ sectors, m.sealed x = false) → ¬ AcquireRefused m f →
      let m1 := foreignRelease m f
      let m2 := { m1 with mem := (frameRuns f n).foldl (fun (mem : Memory) r => mem.storeBytes r.1 r.2) m1.mem }
      Gives (.write f) s ((sectors.foldl (fun (m : Mach) x => m.touch x) m2).acknowledge f (m.frameRecord f)))) ∧
  (∀ (s : State) (f : Frame), Admitted s 2 f →
    let n := fieldOf f.oparg 0 13
    let m := s.m.noteFrame f
    (AcquireRefused m f → Gives (.read f) s (m.answer f 0x80 (answerRecord (m.frameRecord f) true) [] fun _ => false)) ∧
    (¬ AcquireRefused m f →
      let m1 := (sectorsAt (.mem f.addr.toNat) n).foldl (fun (m : Mach) x => m.touch x) m
      Gives (.read f) s (m1.answer f 0x80 (answerRecord (m.frameRecord f) false) (m1.mem.bytes f.addr.toNat n)
        fun w => m1.mem.poi.contains (f.addr.toNat / 4 + w)))) ∧
  (∀ (s : State) (f : Frame), Admitted s 3 f →
    let m := s.m.noteFrame f
    let m1 := foreignRelease m f
    let ty := tyOf (f.oparg.extractLsb' 8 5)
    let l := atomicSteps f (fieldOf f.oparg 0 3) ty (f.oparg.getLsbD 13) (fieldOf f.oparg 24 6) m1
    (m.sealed f.addr.toNat = true → Gives (.atomic f) s (m.nackFrame f 4)) ∧
    (m.sealed f.addr.toNat = false → ¬ AcquireRefused m f →
      (∀ u, futureOfFrame f = some u →
        Gives (.atomic f) s (({ m1 with mem := m1.mem.updateFuture f.addr.toNat u }.touch f.addr.toNat).acknowledge f (m.frameRecord f))) ∧
      (futureOfFrame f = none → f.oparg.getLsbD 4 = true → Gives (.atomic f) s (l.2.acknowledge f (m.frameRecord f))) ∧
      (futureOfFrame f = none → f.oparg.getLsbD 4 = false →
        Gives (.atomic f) s (l.2.answer f 0x80 (answerRecord (m.frameRecord f) false) (l.1.flatMap fun d => toBytes (accessSize ty) d.1)
          fun w => ((l.1.getD (4 * w / accessSize ty) (0, 0)).2).testBit (w % (accessSize ty / 4)))))) ∧
  (∀ (s : State) (f : Frame),
    (Admitted s 5 f → (∀ x ∈ s.m.remoteWaits, x.frame ≠ f) →
      let m := s.m.noteFrame f
      let n := (m.remoteHolds f).2
      ((m.remoteHolds f).1 = true → Gives (.waitreg f) s (m.answerWait f n (m.mem.load f.addr.toNat n))) ∧
      ((m.remoteHolds f).1 = false → Gives (.waitreg f) s { m with remoteWaits := m.remoteWaits ++ [⟨f, none⟩] })) ∧
    (∀ x d, s.live = true → s.fw.state ≠ .failed → s.m.remoteWaits.find? (fun x => x.frame == f) = some x → (s.m.seeRemote x).got = some d →
      Gives (.waitreg f) s ({ s.m with remoteWaits := s.m.remoteWaits.erase x }.answerWait f (s.m.remoteHolds f).2 d))) ∧
  (∀ (s : State) (f : Frame) (x : SpawnQ) (m : Mach), Admitted s 4 f →
    let pa := f.addr.toNat
    let d := QDesc.of s.m.mem pa
    tabGet s.m.spawnqs pa = some x → s.m.mem.anyPoison pa 64 = false → badCfg d.cfg = false → d.enabled = true → d.rsz = fieldOf f.oparg 16 2 →
    s.m.ringPages x.die x.ctx (pageStarts d.base (d.cap * d.size)) = (some true, m) →
    let p := m.qpushFrameOffers f x
    Gives (.qpushFrame f) s ((((m.noteFrame f).qpushFrameQueues f p).qpushFrameStore f x p).answer f 0x80 (BitVec.ofNat 64 p.accepted) [] fun _ => false)) ∧
  (∀ (s : State) (f : Frame), Admitted s 4 f → tabGet s.m.spawnqs f.addr.toNat = none →
    Gives (.qpushFrame f) s ((s.m.noteFrame f).nackFrame f 4)) ∧
  (∀ (s : State) (f : Frame), Admitted s 6 f →
    let pa := f.addr.toNat
    let m := s.m.noteFrame f
    let d := QDesc.of m.mem pa
    let good := (tabGet m.spawnqs pa).isSome = true ∧ m.mem.anyPoison pa 64 = false ∧ badCfg d.cfg = false ∧ d.enabled = true ∧ fieldOf f.oparg 0 3 ≤ 5
    (¬ good → Gives (.qctl f) s (m.nackFrame f 4)) ∧
    (good → fieldOf f.oparg 0 3 = 0 → Gives (.qctl f) s (acked (m.flushQueue pa) f)) ∧
    (good → fieldOf f.oparg 0 3 ≠ 0 →
      Gives (.qctl f) s (m.answer f 0x80 0 (toBytes 8 (m.queueStat pa (fieldOf f.oparg 0 3 - 1)).toNat) fun _ => false))) ∧
  (∀ (s : State) (f : Frame) (x : SpawnQ), Admitted s 4 f → tabGet s.m.spawnqs f.addr.toNat = some x → s.m.mem.anyPoison f.addr.toNat 64 = true →
    let m := match s.m.badDescriptor f.addr.toNat with
      | some o => if x.stopped then s.m else s.m.stopQueue f.addr.toNat x 0 0 0 o
      | none => s.m
    Gives (.qpushFrame f) s ((m.noteFrame f).nackFrame f 4)) ∧
  (∀ (s : State) (f : Frame) (i : Instr), RequestEvent f.opc f i → s.live = true → s.fw.state ≠ .failed → f.dst = s.m.xdev →
    (∀ x ∈ s.m.remoteWaits, x.frame ≠ f) →
    let received := (s.m.stream f.world false f.src.toNat).received
    (f.seq = received → (∃ g ∈ frameGranules f, (f.world, g) ∉ s.m.exports) → Gives i s ((s.m.noteFrame f).nackFrame f 1)) ∧
    (f.seq = received → (∀ g ∈ frameGranules f, (f.world, g) ∈ s.m.exports) → f.world = false → (∃ g ∈ frameGranules f, g ∈ s.m.carveOuts) →
      Gives i s ((s.m.noteFrame f).nackFrame f 2)) ∧
    (f.seq ≠ received → (received - f.seq).toNat < 2 ^ 31 → Gives i s (s.m.answerAgain f)))

/-- RESP, ACK and NACK reach the request they answer (R377, R379), unknown frames are counted (R376), and an unanswered frame is sent again after
2^20 ck, at most eight times (R377). -/
def Obligations.AnswerFrames : Prop :=
  (∀ (s : State) (f : Frame) (n : Nat) (r : Request), let m := s.m.noteFrame f
    m.requestOf f = some n → tabGet m.requests n = some r →
    (Arrives s 0x80 f → Gives (.resp f) s (m.deliver n r ⟨none, f.payload, f.pmask, f.oparg⟩)) ∧
    (Arrives s 0x81 f → Gives (.ack f) s (m.deliver n r ⟨none, [], 0, 0⟩)) ∧
    (Arrives s 0x82 f → ∀ g, r.frame = some g → let reason := fieldOf f.oparg 0 8
      Gives (.nack f) s ((m.nackRecord r.ctx (m.requestUnit r.kind) g reason).deliver n r ⟨some reason, [], 0, 0⟩))) ∧
  (∀ (s : State) (f : Frame), (s.m.noteFrame f).requestOf f = none →
    (Arrives s 0x80 f → Gives (.resp f) s (s.m.noteFrame f)) ∧ (Arrives s 0x81 f → Gives (.ack f) s (s.m.noteFrame f)) ∧
    (Arrives s 0x82 f → Gives (.nack f) s (s.m.noteFrame f))) ∧
  (∀ (s : State) (f : Frame), (∀ k ∈ [0x01, 0x02, 0x03, 0x04, 0x05, 0x06, 0x10, 0x11, 0x12, 0x13, 0x14, 0x15, 0x18, 0x19, 0x1A, 0x20, 0x21, 0x80, 0x81,
      0x82], f.opc.toNat ≠ k) → Arrives s f.opc f → Gives (.frameDiscard f) s ((s.m.noteFrame f).logEvent 2 f.addr.toNat f.opc.toNat)) ∧
  (∀ (s : State) (n : Nat) (r : Request) (f : Frame), s.live = true → tabGet s.m.requests n = some r → r.frame = some f → r.answer = none →
    r.since + 2 ^ 20 ≤ s.m.clk →
    (r.resends < 8 → Gives (.frameRetransmit n) s
      ({ s.m with requests := tabSet s.m.requests n { r with resends := r.resends + 1, since := s.m.clk } }.emit f)) ∧
    (8 ≤ r.resends → Gives (.frameRetransmit n) s ((s.m.nackRecord r.ctx (s.m.requestUnit r.kind) f 3).deliver n r ⟨some 3, [], 0, 0⟩)))

/-- Pages (R386 to R389), ordered and loose updates (R390, R391) and the frames of collectives (R395 to R397), when they arrive in the order of
their stream; the layouts of OPARG are the model's (DESIGN CHOICE, log 18). -/
def Obligations.PageAndCollectiveFrames : Prop :=
  (∀ (s : State) (f : Frame),
    let m := s.m.noteFrame f
    let request := fun (own : Bool) => m.queuePage (f.addr.toNat / 65536 * 65536) f.world
      ⟨f.src.toNat, own, f.seq, fieldOf f.oparg 1 39 * 2, f.oparg.getLsbD 0, m.clk⟩
    (Admitted s 0x10 f → Gives (.replReq f) s (request false)) ∧ (Admitted s 0x11 f → Gives (.ownReq f) s (request true))) ∧
  (∀ (s : State) (f : Frame), AsksAt s 0x12 (fieldOf f.oparg 0 12) f →
    let m := s.m.noteFrame f
    let home := fieldOf f.oparg 0 12
    let p := framePage m home f
    (home = m.xdev.toNat → f.src.toNat ≠ home →
      Gives (.inval f) s (acked (m.setPage { p with replicas := p.replicas.filter (· != f.src.toNat) }) f)) ∧
    (home ≠ m.xdev.toNat → p.owned = false → Gives (.inval f) s (acked (m.releasePage p) f))) ∧
  (∀ (s : State) (f : Frame), Asks s 0x13 f →
    let m := s.m.noteFrame f
    let p := framePage s.m f.src.toNat f
    (p.owned = true → Gives (.fetch f) s (acked (m.handOver p (fieldOf f.oparg 0 12) (f.oparg.getLsbD 12) (f.oparg.getLsbD 13)) f)) ∧
    (p.owned = false → s.m.returning p = false → Gives (.fetch f) s (acked m f))) ∧
  (∀ (s : State) (f : Frame), AsksAt s 0x14 (fieldOf f.oparg 0 12) f →
    let m := s.m.noteFrame f
    let home := fieldOf f.oparg 0 12
    let own := f.oparg.getLsbD 12
    let p := framePage s.m home f
    let parts := insertNat p.parts (f.addr.toNat % 65536 / 4096)
    (p.frame = none → Gives (.pageData f) s (m.nackFrame f 4)) ∧
    (∀ frame, p.frame = some frame →
      let m := { m with mem := m.mem.store (frame + f.addr.toNat % 65536) (f.payload.take 4096) fun w => chunkPoisoned f.pmask (4 * w) }
      let p' := { p with parts := [], valid := true, owned := own, shared := false, applied := fieldOf f.oparg 32 32, asked := none, installed := m.clk }
      let back := m.setPage { p' with owner := home, ownerFrame := p.addr }
      (parts.length < 16 → Gives (.pageData f) s (acked (m.setPage { p with parts := parts }) f)) ∧
      (parts.length = 16 → (own = false ∨ home ≠ s.m.xdev.toNat) → Gives (.pageData f) s (acked (m.setPage p') f)) ∧
      (parts.length = 16 → own = true → home = s.m.xdev.toNat → (p.serving.isSome = true ∨ p.replicas = []) → Gives (.pageData f) s (acked back f)) ∧
      (parts.length = 16 → own = true → home = s.m.xdev.toNat → p.serving = none → p.replicas ≠ [] →
        Gives (.pageData f) s (acked (back.queuePage p.addr p.world ⟨home, true, 0, p.addr, false, m.clk⟩) f)))) ∧
  (∀ (s : State) (f : Frame), Asks s 0x15 f →
    let m := s.m.noteFrame f
    let p := framePage m (fieldOf f.oparg 0 12) f
    Gives (.grant f) s (acked (m.setPage { p with asked := none, owned := p.owned || p.valid, shared := false }) f)) ∧
  (∀ (s : State) (ctx : Nat) (c : Ctx) (p : Page), s.live = true → s.m.ctx ctx = some c → ctx ∈ s.m.wanted → s.m.freeFrame ctx = none →
    let cached := fun (q : Page) => q.home ≠ s.m.xdev.toNat ∧ q.valid = true ∧ q.asked = none ∧
      ∃ f, q.frame = some f ∧ c.pageCache.1 ≤ f ∧ f < c.pageCache.1 + 65536 * c.pageCache.2
    p ∈ s.m.pages → cached p → (∀ q ∈ s.m.pages, cached q → q ≠ p → p.installed < q.installed) →
    let m := { s.m with wanted := s.m.wanted.filter (· != ctx) }
    (p.owned = true → Gives (.fpcEviction ctx) s (m.handOver p p.home true false)) ∧
    (p.owned = false → Gives (.fpcEviction ctx) s
      ((m.releasePage p).request .free ctx { blankFrame 0x12 p.home p.addr p.world with oparg := BitVec.ofNat 64 p.home }).2)) ∧
  (∀ (s : State) (f : Frame), Admitted s 0x18 f →
    Gives (.ordWrite f) s ((foreignRelease (s.m.noteFrame f) f).orderWrite f.world
      ⟨f.src.toNat, f.addr.toNat, f.payload.take (fieldOf f.oparg 16 13), f.pmask, f.seq, none⟩)) ∧
  (∀ (s : State) (f : Frame), Asks s 0x19 f →
    let p := framePage s.m f.src.toNat f
    let num := fieldOf f.oparg 0 32
    (p.frame = none → Gives (.ordUpdate f) s (acked (s.m.noteFrame f) f)) ∧
    (∀ frame, p.frame = some frame → p.valid = true →
      (num < p.applied % 2 ^ 32 → Gives (.ordUpdate f) s (acked (s.m.noteFrame f) f)) ∧
      (num = p.applied % 2 ^ 32 → Gives (.ordUpdate f) s (acked (((s.m.applyUpdate (frame + f.addr.toNat % 65536)
        (f.payload.take (fieldOf f.oparg 32 16)) fun w => chunkPoisoned f.pmask (4 * w)).setPage { p with applied := p.applied + 1 }).noteFrame f) f)))) ∧
  (∀ (s : State) (f : Frame), AsksAt s 0x1A (fieldOf f.oparg 48 12) f →
    let p := framePage s.m (fieldOf f.oparg 48 12) f
    let others := if p.home = s.m.xdev.toNat then p.replicas.filter (· != f.src.toNat) else []
    let m := match p.frame with
      | some frame => s.m.applyUpdate (frame + f.addr.toNat % 65536) (f.payload.take (fieldOf f.oparg 16 13)) fun w => chunkPoisoned f.pmask (4 * w)
      | none => s.m
    let m := m.noteFrame f
    (others = [] → Gives (.looseUpdate f) s (acked m f)) ∧
    (others ≠ [] → (∀ d ∈ others, m.pdom d = true ∨ f.pmask = 0) →
      let m := others.foldl (fun (m : Mach) d => (m.request (.update p.addr p.nextUpdate) 0 { f with dst := BitVec.ofNat 12 d, rseq := 0 }).2) m
      Gives (.looseUpdate f) s ((m.setPage { p with
        nextUpdate := p.nextUpdate + 1, updates := p.updates ++ [⟨p.nextUpdate, others, f.src.toNat, f.seq, none⟩] }).finishUpdates p.addr))) ∧
  (∀ (s : State) (f : Frame) (g : Group), Asks s 0x20 f →
    let m := s.m.noteFrame f
    let n := fieldOf f.oparg 0 8
    let cseq := fieldOf f.oparg 8 16
    let words := [BitVec.ofNat 64 (ofBytes (f.payload.take 8)), BitVec.ofNat 64 (ofBytes ((f.payload.drop 8).take 8))]
    m.group n = some g →
    let entry := match m.coll n cseq with
      | some e => if e.ended then Collective.blank n cseq else e
      | none => Collective.blank n cseq
    (g.world ≠ f.world ∨ f.src.toNat ∉ g.devs → Gives (.collParam f) s (m.nackFrame f 4)) ∧
    (g.world = f.world → f.src.toNat ∈ g.devs → f.oparg.getLsbD 24 = false →
      Gives (.collParam f) s ((acked m f).setColl { entry with params := entry.params ++ [(g.devs.idxOf f.src.toNat, words)] })) ∧
    (g.world = f.world → f.src.toNat ∈ g.devs → f.oparg.getLsbD 24 = true → (∀ e, m.coll n cseq = some e → e.ended = false) →
      Gives (.collParam f) s ((acked m f).setColl { entry with aborted := some (if f.oparg.getLsbD 25 then 9 else 0x0A) }))) ∧
  (∀ (s : State) (f : Frame) (g : Group) (e : Collective), Asks s 0x21 f →
    let m := s.m.noteFrame f
    let n := fieldOf f.oparg 0 8
    m.group n = some g → m.coll n (fieldOf f.oparg 8 16) = some e → e.ended = false → g.world = f.world → f.src.toNat ∈ g.devs →
    let bytes := (List.range (fieldOf f.oparg 24 13)).map fun i => (f.payload.getD i 0, chunkPoisoned f.pmask i)
    Gives (.collData f) s ((acked m f).setColl { e with blocks := e.blocks ++ [(g.devs.idxOf f.src.toNat, f.addr.toNat, bytes)] })) ∧
  (∀ (s : State) (n cseq : Nat) (c : Collective) (g : Group), s.live = true → s.m.coll n cseq = some c → s.m.group n = some g → c.ended = false →
    c.packet.isSome = true → (c.aborted ≠ none ∨ s.m.collLate c = true) → c.sent g = false →
    Gives (.collectiveEndEarly n cseq) s (s.m.fresh.2.failColl c (c.aborted.getD 0x0A)))

end

namespace Sys2Proof.Machine

/-! ### Events: ageing, power, firmware and reset (R426 to R442) -/

/-- The answer is the state t. -/
def Becomes (i : Instr) (s t : State) : Prop := exec i s = .next t

/-- The firmware's state is fw, the machine is as it was. -/
def State.withFw (s : State) (fw : Firm) : State := { s with fw := fw }

/-- A sampled margin below 20 raises VOFF by one, or marks a domain whose VOFF is 24 (R428). -/
def sampledWear (w : Wear) (margin : Nat) (w' : Wear) : Prop :=
  w'.margin = margin ∧ w'.retired = w.retired ∧ w'.stopped = false ∧
  (20 ≤ margin → w'.voff = w.voff ∧ w'.marked = w.marked) ∧
  (margin < 20 → w.voff.val < 24 → w'.voff.val = w.voff.val + 1 ∧ w'.marked = w.marked) ∧
  (margin < 20 → w.voff.val = 24 → w'.voff = w.voff ∧ w'.marked = true)

/-- ALMANAC_SAMPLE (R428), wherever the wear records are in ascending order: every domain that is listed or has a record is sampled; one that is not listed keeps its
margin (DESIGN CHOICE, log 14). -/
def SamplesReachEveryDomain : Prop :=
  ∀ (s : State) (margins : List (Nat × Nat)), s.live = true → numsAbove none (s.fw.wear.map (·.1)) = true → (∀ y ∈ margins, validDomain y.1 = true ∧ y.2 < 4096) →
    ∃ fw, Becomes (.almanacSample margins) s (s.withFw fw) ∧ fw.seconds = s.fw.seconds + 1 ∧ fw.sparing = s.fw.sparing ∧ fw.channels = s.fw.channels ∧
      (∀ d, (∀ y ∈ margins, y.1 ≠ d) → tabGet s.fw.wear d = none → tabGet fw.wear d = none) ∧
      (∀ d, (∃ y ∈ margins, y.1 = d) ∨ (tabGet s.fw.wear d).isSome = true →
        sampledWear (s.fw.wearOf d) (tabGetD margins d (s.fw.wearOf d).margin) (fw.wearOf d)) ∧
      (fw.state = s.fw.state ∨ s.fw.state = .normal ∧ fw.state = .service)

/-- What a reset leaves (R427, R441): contexts, tasks, queue records, sealed regions and the contents of the secure carve-outs are lost; wear records,
sparing, the number of cores and the rest of memory are kept, but for the error records still to be written and the LINK words of futures that tasks
waited on (R9, R314). -/
def ResetLoses (s t : State) : Prop :=
  t.fw.state = .boot ∧ t.fw.wear = s.fw.wear ∧ t.fw.sparing = s.fw.sparing ∧ t.m.logCores = s.m.logCores ∧ t.m.ctxs = [] ∧ t.m.tasks = [] ∧
  t.m.queues = [] ∧ t.m.seals = [] ∧
  (∀ a, a / 2 ^ 29 ∈ s.m.carveOuts → t.m.mem.byte a = 0 ∧ t.m.mem.poisoned a = false) ∧
  (s.m.posted = [] → s.m.links = [] → ∀ a, a / 2 ^ 29 ∉ s.m.carveOuts → t.m.mem.byte a = s.m.mem.byte a ∧ t.m.mem.poisoned a = s.m.mem.poisoned a)

end Sys2Proof.Machine

section

open Sys2Proof Sys2Proof.Machine

/-- ALMANAC_SAMPLE (R428), CORE_SPARE (R429), STEP_DOWN (R430), CHANNEL_SPARE (R431), DOMAIN_STOP (R432), DEVICE_FAIL (R433), POWER_CAP and
THERMAL_TRIP (R442). A domain that a sample does not list keeps its margin (DESIGN CHOICE, log 14). -/
def Obligations.AgeingAndPowerEvents : Prop :=
  SamplesReachEveryDomain ∧
  (∀ (s : State) (die core l p : Nat), s.live = true → die < 8 → s.fw.updating = 0 → s.fw.legalCores = some s.m.logCores →
    (s.fw.wearOf (256 * die + core)).healthy = false → s.fw.logicalOf s.m.logCores die core = some l → s.fw.spareCore s.m.logCores die = some p →
    (∀ x c, s.m.ctxOn die = some x → s.m.ctx x = some c → c.repair = false → Gives (.coreSpare die core) s (s.m.repairPreempt x)) ∧
    (s.m.ctxOn die = none → ∃ fw,
      Becomes (.coreSpare die core) s { s with fw := fw, m := (s.m.replaceCore (coreNo die l)).logReason 9 0 (coreNo die l) p } ∧
      fw.physOf die l = p ∧ (fw.wearOf (256 * die + core)).retired = true ∧
      (∀ d, d ≠ 256 * die + core → fw.wearOf d = s.fw.wearOf d))) ∧
  (∀ (s : State) (n : Nat), s.live = true → s.stepDue = true → s.fw.legalCores = some n → (∀ y ∈ s.m.ctxs, y.2.launches = []) →
    ((∃ y ∈ s.m.ctxs, y.2.resident = true ∧ y.2.repair = false) →
      Gives .stepDown s ((s.m.ctxs.filter fun y => y.2.resident).foldl (fun (m : Mach) y => m.repairPreempt y.1) s.m)) ∧
    ((∀ y ∈ s.m.ctxs, y.2.resident = false) → ∃ m, Becomes .stepDown s { s with fw := s.fw.enable n, m := m } ∧ m.logCores = n)) ∧
  (∀ (s : State) (d c p : Nat), s.live = true → validDomain d = true → domKind d = 3 → (s.fw.wearOf d).marked = true →
    (s.fw.wearOf d).retired = false → s.fw.servesChannel d = some c → s.fw.spareChannel d = some p →
    ∃ fw, Becomes (.channelSpare d) s { s with fw := fw, m := s.m.logReason 9 2 c p } ∧ fw.channelOf c = p ∧ (fw.wearOf d).retired = true) ∧
  (∀ (s : State) (d : Nat), s.live = true → validDomain d = true → (s.fw.wearOf d).marked = true → (s.fw.wearOf d).retired = false →
    (s.fw.wearOf d).stopped = false → (s.fw.wearOf d).margin < 4 →
    (domKind d = 0 → ∃ fw m, Becomes (.domainStop d) s { s with fw := fw, m := m } ∧ (fw.wearOf d).retired = true ∧
      (s.enabled d = true → ∀ x, s.m.ctxOn (domDie d) = some x → (s.m.ctx x).any (·.faulted) = false → m = s.m.faultContext x 5) ∧
      (s.enabled d = false → m = s.m)) ∧
    (domKind d = 1 → ∃ fw m, Becomes (.domainStop d) s { s with fw := fw, m := m } ∧ (fw.wearOf d).stopped = true ∧ fw.cap = min 8 (s.fw.cap + 1))) ∧
  (∀ (s : State) (die : Nat), s.live = true → die < 8 → s.fw.healthOf die < 64 → (s.fw.state = .normal ∨ s.fw.state = .service) →
    Becomes (.deviceFail die) s { s with fw := { s.fw with state := .failed }, m := s.m.faultAll 5 }) ∧
  (∀ (s : State) (steps : Nat), s.live = true → steps ≤ 8 → Becomes (.powerCap steps) s (s.withFw { s.fw with cap := steps })) ∧
  (∀ (s : State) (celsius : Nat), s.live = true → 115 ≤ celsius → s.fw.cap = 8 → ∃ t, Becomes (.thermalTrip celsius) s t ∧ t.live = false ∧
    t.fw = { s.fw with tripped := true } ∧ t.m.mem = s.m.mem ∧ t.m.out = s.m.out ++ [.uncorrectable])

/-- HEARTBEAT_MISS (R434, R438), the live update (R436, R437), mailbox and attestation (R426, R434, R440), COLD_RESET and WARM_RESET (R441), MODULE_UNPOWERED
(R427) and CONFIGURATION_REQUEST (R441). What an answer holds where the spec does not say is a free value (DESIGN CHOICE, logs 15 and 17). -/
def Obligations.FirmwareEvents : Prop :=
  (∀ (s : State), s.live = true → s.fw.state ≠ .boot → s.fw.standby = true → s.fw.heartbeat + 2 ^ 26 ≤ s.m.clk →
    ((s.fw.updating = 1 ∨ s.fw.updating = 2) → Becomes .heartbeatMiss s (s.withFw { s.fw with updating := 0 }).serveMails) ∧
    ((s.fw.updating = 0 ∨ s.fw.updating = 3) → ∃ t, Becomes .heartbeatMiss s t ∧ t.fw.active = !s.fw.active ∧ t.fw.updating = 0 ∧
      t.fw.takeovers = s.fw.takeovers + 1 ∧ t.fw.wear = s.fw.wear ∧ t.fw.mails = [])) ∧
  (∀ (s : State) (lo hi major minor version : Nat), s.live = true → s.fw.state ≠ .boot → s.fw.standby = true → s.fw.updating = 0 →
    (∀ signed, (signed = false ∨ version < s.fw.version) → Becomes (.liveUpdateLoad lo hi major minor version signed) s s) ∧
    (s.fw.version ≤ version → Becomes (.liveUpdateLoad lo hi major minor version true) s
      (s.withFw { s.fw.setStandbyImage ⟨lo, hi, major, minor, version⟩ with updating := 1 }))) ∧
  (∀ (s : State), s.live = true →
    (s.fw.updating = 1 → Becomes .liveUpdateFreeze s (s.withFw { s.fw with updating := 2 })) ∧
    (s.fw.updating = 2 → ∀ converts,
      let good := converts = true ∧ s.fw.standbyImage.lo ≤ s.fw.table.1 ∧ s.fw.table.1 ≤ s.fw.standbyImage.hi
      (good → Becomes (.stateTableImport converts) s (s.withFw { s.fw with updating := 3 })) ∧
      (¬ good → Becomes (.stateTableImport converts) s (s.withFw { s.fw with updating := 0 }).serveMails)) ∧
    (s.fw.updating = 3 → ∃ t, Becomes .takeover s t ∧ t.fw.active = !s.fw.active ∧ t.fw.standby = true ∧ t.fw.updating = 0 ∧
      t.fw.takeovers = s.fw.takeovers + 1 ∧ t.fw.table = (s.fw.standbyImage.major, s.fw.standbyImage.minor) ∧ t.fw.heartbeat = s.m.clk)) ∧
  (∀ (s : State), s.live = true → Gives (.mailboxRequest (.readRegister .devstat)) s { s.m with out := s.m.out ++ [.mail s.devstat] }) ∧
  (∀ (s : State) (r : Mail), s.live = true → s.fw.state ≠ .boot → r ≠ .readRegister .devstat →
    (s.fw.updating < 2 → Gives (.mailboxRequest r) s ({ s.m with out := s.m.out ++ [.mail (s.mailAnswer r)] } : Mach).wakeComplexes) ∧
    (2 ≤ s.fw.updating → Becomes (.mailboxRequest r) s (s.withFw { s.fw with mails := s.fw.mails ++ [r] }))) ∧
  (∀ (s : State), s.live = true → s.fw.state ≠ .boot →
    let answers := fun (m : Mach) (kind index : Nat) (input : List Byte) => { m with out := m.out ++ [.spdm (Config.secret kind index input)] }
    Gives .getVersion s (answers s.m 1 0 []) ∧ Gives .getCapabilities s (answers s.m 2 0 []) ∧ Gives .getDigests s (answers s.m 4 0 []) ∧
    (∀ hashes signatures, let agreed := hashes.contains 0 && signatures.contains 0
      Becomes (.negotiateAlgorithms hashes signatures) s
        { s with m := answers s.m 3 (if agreed then 1 else 0) [], fw := { s.fw with agreed := agreed } }) ∧
    (∀ slot offset length, Gives (.getCertificate slot offset length) s (answers s.m 5 slot (toBytes 8 offset ++ toBytes 8 length))) ∧
    (∀ slot nonce, Gives (.challenge slot nonce) s (answers s.m 6 slot (nonce ++ (List.range 7).flatMap s.measured))) ∧
    (∀ index nonce, 1 ≤ index → index ≤ 6 → Gives (.getMeasurements index nonce) s (answers s.m 7 index (nonce ++ s.measured index)))) ∧
  (∀ (s : State), s.fw.powered = false → ∃ t, Becomes .coldReset s t ∧ t.fw.powered = true ∧ ResetLoses s t) ∧
  (∀ (s : State), s.fw.powered = true → s.fw.state = .boot → s.fw.tripped = false → ∃ t, Becomes .coldReset s t ∧ Becomes .warmReset s t ∧
    t.m.mem = s.m.mem ∧ t.m.xclk = 0 ∧ t.fw.wear = s.fw.wear ∧
    (∀ phosphor, ∃ u, t.m.task (complexTid phosphor) = some u ∧ u.onComplex = true ∧ u.supervisor = true ∧ u.ctx = systemContext) ∧
    (s.fw.legalCores = none → t.fw.state = .failed) ∧
    (∀ n, s.fw.legalCores = some n → t.m.logCores = n ∧ (t.fw.state = .normal ∨ t.fw.state = .service))) ∧
  (∀ (s : State), s.fw.powered = true → (s.fw.state ≠ .boot ∨ s.fw.tripped = true) → ∃ t, Becomes .warmReset s t ∧ Becomes .coldReset s t ∧
    t.fw.tripped = false ∧ ResetLoses s t) ∧
  (∀ (s : State), s.fw.powered = true → ∃ t, Becomes .moduleUnpowered s t ∧ t.fw.powered = false ∧ ResetLoses s t) ∧
  (∀ (s : State) (offset : Nat), s.live = true →
    (∀ write, s.fw.state = .boot → Gives (.configurationRequest offset write) s { s.m.fresh.2 with out := s.m.out ++ [.config true 0] }) ∧
    (s.fw.state ≠ .boot → offset % 4 = 0 → Gives (.configurationRequest offset none) s
      { s.m.fresh.2 with out := s.m.out ++ [.config false ((Config.freeWord s.m.fresh.1).setWidth 32)] }) ∧
    (∀ v, s.fw.state ≠ .boot → Gives (.configurationRequest offset (some v)) s { s.m.fresh.2 with out := s.m.out ++ [.config false 0] }))

end

namespace Sys2Proof.Machine

/-! ### Short rules, and what instructions leave unchanged -/

/-- The result of a uniform instruction as R99 writes it into its 64-bit register. -/
def widened (ty : Ty) (v : Nat) (poisoned : Bool) : UReg :=
  ⟨if ty = .s32 then (BitVec.ofNat 32 v).signExtend 64 else if ty = .z32 ∨ ty = .b32 then (BitVec.ofNat 32 v).setWidth 64 else BitVec.ofNat 64 v,
   poisoned, poisoned⟩

/-- A uniform instruction c has no guard, and is executed once by the split that issues it whatever lanes it has: its result r depends on no split. -/
def UniWidens (c : FS → Instr) : Prop :=
  (∀ (s : State) (x : FS), x.g ≠ ⟨12, false⟩ → s.issuer (c x) = none) ∧
  ∃ r : FS → Task → Nat × Bool, ∀ (s : State) (p : Issuer) (x : FS), s.issuer (c x) = some p →
    let y := r x { p.t with splits := [], stack := [] }
    exec (c x) s = .next (s.issued p (c x) fun t => t.writeU x.d.toNat (widened x.ty y.1 y.2))

/-- Every byte of memory, of the scratchpads and of the L1s, and its poison, reads as before. -/
def MemorySame (m m' : Mach) : Prop :=
  (∀ a, m'.mem.byte a = m.mem.byte a ∧ m'.mem.poisoned a = m.mem.poisoned a) ∧
  ∀ c a, (m'.core c).spad.byte a = (m.core c).spad.byte a ∧ (m'.core c).spad.poisoned a = (m.core c).spad.poisoned a ∧ m'.l1 c a = m.l1 c a

/-- Every other task, the teams, the contexts, what is recorded of releases, the requests and the outputs are as before. -/
def OthersSame (s t : State) (tid : Nat) : Prop :=
  (∀ n, n ≠ tid → t.m.task n = s.m.task n) ∧ t.m.teams = s.m.teams ∧ t.m.ctxs = s.m.ctxs ∧ t.m.record = s.m.record ∧ t.m.holder = s.m.holder ∧
  t.m.seals = s.m.seals ∧ t.m.requests = s.m.requests ∧ t.m.out = s.m.out ∧ t.fw = s.fw

/-- The issuing task, u after the instruction: every special register, join, flag, tile and shape register is as before, so are the other splits and
the issuing split's lanes, and of the other registers all but those named. -/
def TaskSame (p : Issuer) (u : Task) (dv du dp : Nat → Prop) : Prop :=
  (∀ r, ¬ dv r → tabGet u.v r = tabGet p.t.v r) ∧ (∀ r, ¬ du r → tabGet u.u r = tabGet p.t.u r) ∧ (∀ r, ¬ dp r → tabGet u.p r = tabGet p.t.p r) ∧
  u.q = p.t.q ∧ u.acc = p.t.acc ∧ u.joins = p.t.joins ∧ u.cf = p.t.cf ∧ u.xtask = p.t.xtask ∧ u.xdead = p.t.xdead ∧ u.exited = p.t.exited ∧
  u.xtile = p.t.xtile ∧ u.xtagB = p.t.xtagB ∧ u.xepc = p.t.xepc ∧ u.xcause = p.t.xcause ∧ u.xsyn = p.t.xsyn ∧ u.xaddr = p.t.xaddr ∧
  u.xunit = p.t.xunit ∧ u.xhnd = p.t.xhnd ∧ u.stack = p.t.stack ∧ (∀ e, e ≠ p.e → u.split e = p.t.split e) ∧
  ∃ y, u.split p.e = some y ∧ y.xact = p.x.xact ∧ y.pxact = p.x.pxact ∧ y.held = p.x.held

/-- An instruction that has issued and gone on changes registers of its task alone. -/
def RegistersOnly (i : Instr) (dv du dp : Nat → Prop) : Prop :=
  ∀ (s t : State) (p : Issuer), s.issuer i = some p → exec i s = .next t →
    MemorySame s.m t.m ∧ OthersSame s t p.tid ∧ ∃ u, t.m.task p.tid = some u ∧ TaskSame p u dv du dp

/-- No register. -/
def noReg : Nat → Prop := fun _ => False

/-- The byte that core c finds at an address of global memory: its own L1's where it holds the sector, else the home slice's (R286, R295). -/
def Mach.byteSeen (m : Mach) (c a : Nat) : Byte := match m.l1 c a with
  | some x => x.data.getD (a % 32) 0
  | none => m.mem.byte a

/-- What core c sees of a byte once it has stored in its sector, beside the bytes that it stored: a sector that it did not hold dirty is filled from the home slice (R295). -/
def Mach.byteClaimed (m : Mach) (c a : Nat) : Byte :=
  if (m.l1 c a).any (fun x => x.state.dirty?.isSome) then m.byteSeen c a else m.mem.byte a

/-- The L1 of a core holds sectors of 32 bytes. -/
def Mach.fullSectors (m : Mach) (c : Nat) : Prop := ∀ a x, m.l1 c a = some x → x.data.length = 32

/-- A relaxed access of plan P without a release before it, all of whose elements ss lie in local memory, reads or stores there and nowhere else. -/
def StoresOnly (i : Instr) (P : Issuer → State → Plan) (ss : List (Elt × Spot)) : Prop :=
  ∀ (s t : State) (p : Issuer) (m : Mach) (accepts : Accepts) (els : List (Nat × Nat)), s.issuer i = some p → (∀ y ∈ ss, ∃ pa, y.2 = .here pa) →
    p.t.window = none → s.m.fullSectors p.t.core →
    Reached (s.entered p i) p (P p s) accepts els ss m → Clear m p (p.iss s.m i) (P p s) ss →
    exec i s = .next (s.leaves ((P p s).effect m p (p.iss s.m i) ss) p i) → exec i s = .next t →
    (∀ a, t.m.mem.byte a = s.m.mem.byte a ∧ t.m.mem.poisoned a = s.m.mem.poisoned a) ∧
    (∀ c a, c ≠ p.t.core → t.m.byteSeen c a = s.m.byteSeen c a) ∧
    (∀ a, ((P p s).write = true → ∀ y ∈ ss, ∀ pa, y.2 = .here pa → ¬ (pa ≤ a ∧ a < pa + (P p s).size)) →
      (((P p s).write = true ∧ ∃ y ∈ ss, ∃ pa, y.2 = .here pa ∧ sectorOf pa = sectorOf a) → t.m.byteSeen p.t.core a = s.m.byteClaimed p.t.core a) ∧
      (((P p s).write = true → ∀ y ∈ ss, ∀ pa, y.2 = .here pa → sectorOf pa ≠ sectorOf a) → t.m.byteSeen p.t.core a = s.m.byteSeen p.t.core a)) ∧
    (∀ c a, (t.m.core c).spad.byte a = (s.m.core c).spad.byte a) ∧
    (∀ n, n ≠ p.tid → t.m.task n = s.m.task n) ∧
    ∃ u, t.m.task p.tid = some u ∧ u.v = p.t.v ∧ u.u = p.t.u ∧ u.p = p.t.p ∧ u.q = p.t.q ∧ u.acc = p.t.acc ∧ u.joins = p.t.joins ∧
      u.xepc = p.t.xepc ∧ u.xcause = p.t.xcause ∧ u.xsyn = p.t.xsyn ∧ u.xaddr = p.t.xaddr ∧ u.xhnd = p.t.xhnd

end Sys2Proof.Machine

section

open Sys2Proof Sys2Proof.Machine

/-- R99: a uniform instruction is executed once by the split that issues it, whatever that split's xact, and has no guard; a 32-bit result is sign-extended for `.s32`,
zero-extended for `.z32` and `.b32`, and both poison bits are the result's. -/
def Obligations.UniformIssue : Prop :=
  (∀ c ∈ [Instr.smov, .sadd, .ssub, .smul, .smulh, .smad, .sand, .sor, .sxor, .snot, .sshl, .sshr, .ssar, .smin, .smax, .scmp, .ssel, .spopc, .sclz,
    .sbfe, .sbfi], UniWidens c) ∧
  (∀ c ∈ [Instr.sigrd, .tfetch, .tdone], ∀ (s : State) (x : FS), x.g ≠ ⟨12, false⟩ → s.issuer (c x) = none) ∧
  (∀ (s : State) (p : Issuer) (x : FS), s.issuer (.sigrd x) = some p → exec (.sigrd x) s = .next (s.issued p (.sigrd x) fun t =>
    t.writeU x.d.toNat (widened .b64 (if x.sub = 0 then p.x.xsig else p.x.pxact).toNat false))) ∧
  (∀ (s : State) (x : FX), x.g ≠ ⟨12, false⟩ → s.issuer (.sli x) = none) ∧
  ∃ r : FX → Nat, ∀ (s : State) (p : Issuer) (x : FX), s.issuer (.sli x) = some p →
    exec (.sli x) s = .next (s.issued p (.sli x) fun t => t.writeU x.d.toNat (widened x.ty (r x) false))

/-- R141: JDROP removes its contributing lanes from a valid join, completion of the join is checked, and the split goes on; it waits while the join is occupied (R230).
R143: NOP has no effect except issuing, and any other field than OP and PRED = 12 is zero. R227: MRSV writes 1, unpoisoned, in every lane of xact, MREL has no
effect, and their other fields are zero. -/
def Obligations.JoinDropAndIdleInstructions : Prop :=
  (∀ (s : State) (p : Issuer) (x : FC), s.issuer (.jdrop x) = some p →
    let j := p.t.join x.jn.toNat
    let dropped := fun (j : Join) => { j with
      expected := j.expected &&& ~~~p.k, due := j.due || (j.valid && decide (j.expected &&& ~~~p.k &&& ~~~j.arrived = 0)) }
    (j.occ = false → j.valid = true → exec (.jdrop x) s = .next (s.issued p (.jdrop x) fun t =>
      t.setJoins x.jn.toNat (dropped j) (dropped (p.t.pjoin x.jn.toNat)))) ∧
    (j.occ = false → j.valid = false → exec (.jdrop x) s = .next (s.issued p (.jdrop x) id)) ∧
    (j.occ = true → exec (.jdrop x) s = .next (s.waitsOn (s.entered p (.jdrop x)) p (.jdrop x) true .cond))) ∧
  (∀ (s : State) (p : Issuer) (x : FC), s.issuer (.nop x) = some p → exec (.nop x) s = .next (s.issued p (.nop x) id)) ∧
  (∀ (s : State) (x : FC), x ≠ ⟨⟨12, false⟩, 0, 0, 0, .vec, 0, 0⟩ → s.issuer (.nop x) = none) ∧
  (∀ (s : State) (p : Issuer) (x : FC), s.issuer (.mrsv x) = some p →
    exec (.mrsv x) s = .next (s.issued p (.mrsv x) fun t => t.writeP x.pa.toNat p.x.xact ⟨0xFFFFFFFF, 0⟩)) ∧
  (∀ (s : State) (x : FC), { x with pa := 0, lo := x.lo &&& ~~~(3 : BitVec 32) } ≠ ⟨⟨12, false⟩, 0, 0, 0, .vec, 0, 0⟩ → s.issuer (.mrsv x) = none) ∧
  (∀ (s : State) (p : Issuer) (x : FC), s.issuer (.mrel x) = some p → exec (.mrel x) s = .next (s.issued p (.mrel x) id)) ∧
  (∀ (s : State) (x : FC), { x with lo := x.lo &&& ~~~(3 : BitVec 32) } ≠ ⟨⟨12, false⟩, 0, 0, 0, .vec, 0, 0⟩ → s.issuer (.mrel x) = none)

/-- The frame of the instructions that write a register (R98, R99): only their destination differs, a result of 64 bits taking a pair; memory, scratchpads and
caches, the other tasks, every special register, join, flag and tile are as before. -/
def Obligations.RegisterInstructionsChangeOnlyTheirDestination : Prop :=
  (∀ c ∈ [Instr.smov, .sadd, .ssub, .smul, .smulh, .smad, .sand, .sor, .sxor, .snot, .sshl, .sshr, .ssar, .smin, .smax, .scmp, .ssel, .spopc, .sclz,
    .sbfe, .sbfi, .sigrd], ∀ x : FS, RegistersOnly (c x) noReg (· = x.d.toNat) noReg) ∧
  (∀ x : FX, RegistersOnly (.sli x) noReg (· = x.d.toNat) noReg) ∧
  (∀ c ∈ [Instr.srd, .qget, .pgets], ∀ x : FVI, RegistersOnly (c x) noReg (· = x.d.toNat) noReg) ∧
  (∀ c ∈ [Instr.vmov, .vadd, .vsub, .vmul, .vmulh, .vmad, .vaddc, .vabs, .vneg, .vmin, .vmax, .vand, .vor, .vxor, .vnot, .vshl, .vshr, .vsar, .vrot,
    .vpopc, .vclz, .vbrev, .vsel, .fadd, .fsub, .fmul, .ffma, .fmin, .fmax, .fabs, .fneg, .fsqrt, .frnd, .frcp, .frsq, .fexp2, .flog2, .fsin, .fcos],
    ∀ x : FV3, RegistersOnly (c x) (fun r => r = x.d.toNat ∨ (opWidth x.ty = 64 ∧ r = x.d.toNat + 1)) noReg noReg) ∧
  (∀ c ∈ [Instr.vmadw, .vlea], ∀ x : FV3, RegistersOnly (c x) (fun r => r = x.d.toNat ∨ r = x.d.toNat + 1) noReg noReg) ∧
  (∀ c ∈ [Instr.vbfe, .vbfi], ∀ x : FVI, RegistersOnly (c x) (· = x.d.toNat) noReg noReg) ∧
  (∀ c ∈ [Instr.shfl, .bcast, .srdVector], ∀ x : FVI, RegistersOnly (c x) (fun r => r = x.d.toNat ∨ (opWidth x.ty = 64 ∧ r = x.d.toNat + 1)) noReg noReg) ∧
  (∀ x : FX, RegistersOnly (.vli x) (fun r => r = x.d.toNat ∨ (opWidth x.ty = 64 ∧ r = x.d.toNat + 1)) noReg noReg) ∧
  (∀ c ∈ [Instr.scan, .match, .fdot2], ∀ x : FV3, RegistersOnly (c x) (· = x.d.toNat) noReg noReg) ∧
  (∀ c ∈ [Instr.vcmp, .fcmp, .pand, .por, .pxor, .pnot, .pmov, .vote, .ptest], ∀ x : FV3, RegistersOnly (c x) noReg noReg (· = x.d.toNat)) ∧
  (∀ c ∈ [Instr.psets, .psetsImm, .fclass], ∀ x : FVI, RegistersOnly (c x) noReg noReg (· = x.d.toNat)) ∧
  (∀ c ∈ [Instr.ballot, .redx], ∀ x : FV3, RegistersOnly (c x) noReg (· = x.d.toNat) noReg) ∧
  (∀ x : FC, RegistersOnly (.nop x) noReg noReg noReg)

/-- The frame of the accesses to memory: a relaxed LD, QLD or ALD of local memory leaves every byte as every core sees it, a relaxed ST, QST or AST every
byte but those it stores to, where a sector that the core did not hold dirty is filled from its home slice before the store (R295); their registers are written when they complete (R73). LDS, STS and ATOMS leave global memory and every other byte of the
scratchpads. -/
def Obligations.AccessesChangeOnlyWhatTheyStore : Prop :=
  (∀ (x : FM) (ss : List (Elt × Spot)), x.ord = .rlx →
    StoresOnly (.ld x) (fun p s => loadPlan (p.iss s.m (.ld x)) x (accessSize x.ty) (fun _ => wholeDest x) [wholeDest x] x.ord x.scope) ss ∧
    StoresOnly (.st x) (fun p s => storePlan (p.iss s.m (.st x)) x (accessSize x.ty) x.ty ((p.iss s.m (.st x)).t.datum x 0 x.d) x.ord x.scope) ss) ∧
  (∀ (x : FM) (ss : List (Elt × Spot)),
    StoresOnly (.qld x) (fun p s => { loadPlan (p.iss s.m (.qld x)) x 32 (fun _ => .shape x.d.toNat) [.shape x.d.toNat] .rlx .team with uni := true }) ss ∧
    StoresOnly (.qst x) (fun p s =>
      { storePlan (p.iss s.m (.qst x)) x 32 .b128 ((p.iss s.m (.qst x)).t.readQ 0 x.d.toNat).part .rlx .team with uni := true }) ss ∧
    StoresOnly (.ald x) (fun p s => { loadPlan (p.iss s.m (.ald x)) x 32 (fun _ => .tile x.d.toNat) [.tile x.d.toNat] .rlx .team with uni := true }) ss ∧
    StoresOnly (.ast x) (fun p s =>
      { storePlan (p.iss s.m (.ast x)) x 32 .b128 ((p.iss s.m (.ast x)).t.readA 0 x.d.toNat).part .rlx .team with uni := true }) ss) ∧
  (∀ row ∈ [(Instr.lds, false), (Instr.sts, true), (Instr.atoms, true)],
    ∀ (s t : State) (p : Issuer) (x : FM) (f : Nat → Nat → Nat), s.issuer (row.1 x) = some p → SpadReached s p (row.1 x) x row.2 f →
    exec (row.1 x) s = .next t →
    (∀ a, t.m.mem.byte a = s.m.mem.byte a ∧ t.m.mem.poisoned a = s.m.mem.poisoned a) ∧
    (∀ c a, t.m.l1 c a = s.m.l1 c a) ∧
    (∀ c a, (c = p.t.core → row.2 = true → ∀ el ∈ (p.iss s.m (row.1 x)).elements x.dk (p.t.offLanes x), ∀ j < (accessSize x.ty + 3) / 4,
        ¬ (f el.2 (4 * j) ≤ a ∧ a < f el.2 (4 * j) + min 4 (accessSize x.ty - 4 * j))) →
      (t.m.core c).spad.byte a = (s.m.core c).spad.byte a) ∧
    (∀ n, n ≠ p.tid → t.m.task n = s.m.task n) ∧
    ∃ u, t.m.task p.tid = some u ∧ u.v = p.t.v ∧ u.u = p.t.u ∧ u.p = p.t.p ∧ u.q = p.t.q ∧ u.acc = p.t.acc ∧ u.joins = p.t.joins ∧
      u.xepc = p.t.xepc ∧ u.xcause = p.t.xcause ∧ u.xsyn = p.t.xsyn ∧ u.xaddr = p.t.xaddr ∧ u.xhnd = p.t.xhnd)

end

namespace Sys2Proof.Machine

/-! ### Memory as a core sees it, steps, encodings, and what every step keeps -/

/-- The words of an instruction, one after another as little-endian bytes (R11). -/
def wordBytes (ws : List Word) : List Byte := ws.flatMap fun w => toBytes 8 w.toNat

/-- A guard that lets every lane pass, and the fields of the formats at 0. -/
def plainGuard : Guard := ⟨12, false⟩

/-- What every step keeps of the firmware's state: wear records in ascending order with a marked domain at the highest VOFF (R428), a clock cap of at most eight steps,
reached when the thermal trip stops the clocks (R442), a live update in one of its phases, with a standby, and holding requests only while it is frozen (R437),
and BOOT while the module has no power (R427, R441). -/
def Firm.Inv (fw : Firm) : Prop :=
  numsAbove none (fw.wear.map (·.1)) = true ∧ (∀ y ∈ fw.wear, y.2.marked = true → y.2.voff.val = 24) ∧
  fw.cap ≤ 8 ∧ (fw.tripped = true → fw.cap = 8) ∧ fw.updating ≤ 3 ∧ (fw.updating ≠ 0 → fw.standby = true) ∧ (fw.updating < 2 → fw.mails = []) ∧
  (fw.powered = false → fw.state = .boot)

end Sys2Proof.Machine

section

open Sys2Proof Sys2Proof.Machine

/-- What a core sees of global memory (R149, R286, R291, R294, R295): after a store in its L1 or at the home slice it sees the bytes it stored and every
other byte as before, but that a sector which it did not hold dirty is filled from the home slice, and no other core's L1 or home byte has changed by a store in the L1; a load finds what it sees; writing a sector back changes nothing that it
sees, and leaves at the home slice what it saw. -/
def Obligations.CoreSeesItsStores : Prop :=
  ∀ (m : Mach) (c pa n : Nat) (d : Datum), m.fullSectors c → 0 < n → pa % 32 + n ≤ 32 →
    (∀ a, (m.writeL1 c pa n d).byteSeen c a = if pa ≤ a ∧ a < pa + n then BitVec.ofNat 8 (d.1 / 256 ^ (a - pa)) else if sectorOf a = sectorOf pa then m.byteClaimed c a else m.byteSeen c a) ∧
    (∀ c' a, c' ≠ c → (m.writeL1 c pa n d).byteSeen c' a = m.byteSeen c' a) ∧
    (∀ a, (m.writeL1 c pa n d).mem.byte a = m.mem.byte a) ∧
    (m.mem.wf = true → ∀ a,
      (pa ≤ a → a < pa + n → (m.writeHome c pa n d).byteSeen c a = BitVec.ofNat 8 (d.1 / 256 ^ (a - pa)) ∧
        (m.writeHome c pa n d).mem.byte a = BitVec.ofNat 8 (d.1 / 256 ^ (a - pa))) ∧
      ((a < pa ∨ pa + n ≤ a) → (sectorOf a ≠ sectorOf pa ∨ m.l1 c pa = none ∨ ∃ x e, m.l1 c pa = some x ∧ x.state = .dirty e) →
        (m.writeHome c pa n d).byteSeen c a = m.byteSeen c a)) ∧
    (∀ i, i < n → BitVec.ofNat 8 ((m.readL1 c pa n).1.1 / 256 ^ i) = m.byteSeen c (pa + i)) ∧
    (∀ a, (m.readL1 c pa n).2.2.byteSeen c a = m.byteSeen c a) ∧
    (m.mem.wf = true →
      (∀ a, (m.flush c pa).byteSeen c a = m.byteSeen c a) ∧
      (∀ x e, m.l1 c pa = some x → x.state = .dirty e → ∀ a, sectorOf a = sectorOf pa → (m.flush c pa).mem.byte a = m.byteSeen c a))

/-- A step runs the decoded instruction (DESIGN CHOICE, log 1): where the split of the first grant may issue and the words at its slot hold an instruction, the step is that
instruction's; a reserved opcode traps ILLOP with reason 0x02 (R89); a grant whose split is gone is passed over; with no grant an event that the outside has chosen
happens, and then the events of the cycle and its end. After each step a wait on an object that the step has satisfied keeps the object
as it then stands (R199, R382). -/
def Obligations.StepRunsTheDecodedInstruction : Prop :=
  (∀ (s : State) (tid e pa : Nat) (rest : List (Nat × Nat)) (t : Machine.Task) (x : Split), s.grants = (tid, e) :: rest → s.m.task tid = some t →
    t.split e = some x → x.pa = some pa → t.live = true → x.held = false → x.wait = none →
    let w := BitVec.ofNat 64 (ofBytes (s.m.mem.bytes (pa + 8 * x.slot) 8))
    let ext := BitVec.ofNat 64 (ofBytes (s.m.mem.bytes (pa + 8 * x.slot + 8) 8))
    (∀ i, decodeWords [w, ext] = .ok i → step s = noted (exec i s)) ∧
    (∀ i, extract w ext = some i → step s = noted (exec i s)) ∧
    (extract w ext = none → let trap : TrapInfo := ⟨1, 0x20000, x.clause + BitVec.ofNat 64 (8 * x.slot), 0, none⟩
      step s = .next { s with grants := rest, m := (s.m.raise tid e trap).noteWaits })) ∧
  (∀ (s : State) (g : Nat × Nat) (rest : List (Nat × Nat)), s.grants = g :: rest → s.m.task g.1 = none → step s = .next { s with grants := rest, m := s.m.noteWaits }) ∧
  (∀ (s : State) (i : Instr) (rest : List Instr), s.grants = [] → s.sched = i :: rest → step s = noted (exec i { s with sched := rest })) ∧
  (∀ (s : State), s.grants = [] → s.sched = [] → s.live = true → s.granted = true → step s = .next { s.tick with m := s.tick.m.noteWaits }) ∧
  (∀ (s : State), s.grants = [] → s.sched = [] → s.live = false → step s = .fault .clocksStopped) ∧
  (∀ (t : State), noted (.next t) = .next { t with m := t.m.noteWaits }) ∧ (∀ f, noted (.fault f) = .fault f) ∧ (∀ r, noted (.refused r) = .refused r) ∧
  (∀ (m : Mach), m.noteWaits = { m with
    links := m.links.map fun l => if l.got = none ∧ futureReady (m.mem.load l.pa 32) = true then { l with got := some (m.mem.load l.pa 32) } else l
    remoteWaits := m.remoteWaits.map fun x => if x.got = none ∧ (m.remoteHolds x.frame).1 = true then
      { x with got := some (m.mem.load x.frame.addr.toNat (m.remoteHolds x.frame).2) } else x })

/-- Words that the spec writes out decode to the instructions that they stand for: BRA (R135), TRAP, SRD, SSUB, SBRNZ and SLI (R414), SIGCHK (R170), ATOM (R159), ST and
SGADD (R337), QPUSH (R399), TEND (R189), SPAWN (R188), MMA (R220) and VCMP (R128). -/
def Obligations.WordsOfTheSpecDecode : Prop :=
  decodeWords [0x01C0000000FFFFFF] = .ok (.bra ⟨plainGuard, 0, 0, 0, .vec, 0, 0xFFFFFF⟩) ∧
  decodeWords [0x98C0000000005349] = .ok (.trap ⟨plainGuard, 0, 0, 0, .vec, 0, 0x5349⟩) ∧
  decodeWords [0x94C000001234ABCD] = .ok (.sigchk ⟨plainGuard, 0, 0, 0, .vec, 0, 0x1234ABCD⟩) ∧
  decodeWords [0x87C0201000B0D000] = .ok (.atom ⟨plainGuard, 4, 2, 0, false, false, .z32, .rlx, .dev, .setA, false, 0, 0⟩) ∧
  decodeWords [0x81C0301806300000] = .ok (.st ⟨plainGuard, 6, 3, 0, true, true, .b64, .rlx, .team, .none, false, 0, 0⟩) ∧
  decodeWords [0xAAC028200680C000] = .ok (.sgadd ⟨plainGuard, 5, 4, 0, true, true, .s64, .rlx, .dev, .none, false, 0, 0⟩) ∧
  decodeWords [0xAC18605010211100] = .ok (.qpush ⟨⟨1, true⟩, 12, 10, 2, false, false, .b32, .rlx, .fab, .setA, false, 1, 0⟩) ∧
  decodeWords [0x9AC0A0003000000D] = .ok (.srd ⟨plainGuard, 20, 0, .vec, .b64, .rne, false, 0, 0, 0x0D⟩) ∧
  decodeWords [0x13C2AA0003100009] = .ok (.ssub ⟨plainGuard, 21, 20, 0, 0, .z64, false, true, 0, 9⟩) ∧
  decodeWords [0x05C0015400000004] = .ok (.sbrnz ⟨plainGuard, 0, 0, 21, .uni, 0, 4⟩) ∧
  decodeWords [0x11C0A80000C00000, 0xA00000] = .ok (.sli ⟨plainGuard, 21, 0, 0, .b64, .rlx, .team, .none, 0, 0, 0, 0xA00000⟩) ∧
  decodeWords [0xA1C0000800000000] = .ok (.tend ⟨plainGuard, 0, 0, 0, .imm, 0, 0⟩) ∧
  decodeWords [0xA0C0008000000081, 0x0006000000402000] =
    .ok (.spawnHeader ⟨plainGuard, 0, 16, 0, .b8, .rlx, .team, .none, 0, 1, 1, 0x0006000000402000⟩) ∧
  decodeWords [0xC8C02080C4C04080, 0x513] = .ok (.mma ⟨plainGuard, 4, 16, 24, .e4m3, .rlx, .team, .setA, 0, 1, 0, 0x513⟩) ∧
  decodeWords [0x60C0080818010B05] = .ok (.vcmp ⟨plainGuard, 1, 1, 3, 0, .vec, .imm, .vec, .z32, .rne, false, 5⟩)

/-- Decoding and encoding agree (R75 to R83): the bytes of every well-formed program instruction, whatever follows them, decode to it and leave what follows; and
whatever words decode to an instruction are its words. -/
def Obligations.DecodingAndEncodingAgree : Prop :=
  (∀ (i : Instr) (rest : List Byte), (view i).isSome = true → WellFormed i = true → decode (wordBytes (encode i) ++ rest) = .ok (i, rest)) ∧
  (∀ (w ext : Word) (i : Instr), decodeWords [w, ext] = .ok i → encode i = (if twoWords i then [w, ext] else [w])) ∧
  (∀ (w : Word) (i : Instr), decodeWords [w] = .ok i → encode i = [w]) ∧
  (∀ (i : Instr), (view i).isSome = true → WellFormed i = true → ∀ w ext, encode i = [w] ∨ encode i = [w, ext] →
    ∀ nbits v, (encode i).length * 64 ≤ nbits → v = w.toNat + (if twoWords i then 2 ^ 64 * ext.toNat else 0) → decodeTableWord nbits v = some i)

/-- Every step keeps the invariant of the firmware's state, whatever instruction or event it is. -/
def Obligations.StepsKeepTheFirmwareInvariant : Prop := ∀ s t : State, s.fw.Inv → step s = .next t → t.fw.Inv

/-- The state after reset (R4, R40, R426, R427, R441): nothing is resident, no task exists, memory lists nothing, no access has been made, the sparing map is the identity with 72 cores
a die, Hesper is active, STATE is BOOT, the clocks are not capped, and the invariants hold. Which complex is active, and the values of registers that the spec gives no reset value, are
the model's (DESIGN CHOICE, logs 12 to 14). -/
def Obligations.ResetState : Prop :=
  State.reset.fw.Inv ∧ State.reset.m.mem.wf = true ∧ (∀ a, State.reset.m.mem.byte a = 0 ∧ State.reset.m.mem.poisoned a = false) ∧
  State.reset.m.tasks = [] ∧ State.reset.m.teams = [] ∧ State.reset.m.ctxs = [] ∧ State.reset.m.requests = [] ∧ State.reset.m.holder = [] ∧
  State.reset.m.record = [] ∧ State.reset.grants = [] ∧ State.reset.fw.tripped = false ∧ State.reset.fw.updating = 0 ∧ State.reset.fw.cap = 0 ∧
  State.reset.m.logCores = 72 ∧ (∀ die l, State.reset.fw.physOf die l = l) ∧ State.reset.m.xclk = 0

/-- R428: a sample raises VOFF by one or marks a domain whose VOFF is 24; a marked domain of a MARGIN below 4 is stopped, one of a MARGIN of 4 or more keeps running;
VOFF never falls, and resets keep it. -/
def Obligations.VoffNeverFalls : Prop :=
  SamplesReachEveryDomain ∧
  (∀ (s : State) (d : Nat), s.live = true → validDomain d = true → (s.fw.wearOf d).marked = true → (s.fw.wearOf d).retired = false →
    (s.fw.wearOf d).stopped = false →
    ((s.fw.wearOf d).margin < 4 → ∃ t, exec (.domainStop d) s = .next t ∧ (domKind d = 0 → (t.fw.wearOf d).stopped = true)) ∧
    (4 ≤ (s.fw.wearOf d).margin → exec (.domainStop d) s = .next s)) ∧
  (∀ (s t : State) (d : Nat), step s = .next t → (s.fw.wearOf d).voff.val ≤ (t.fw.wearOf d).voff.val) ∧
  (∀ (i : Instr), i ∈ [Instr.coldReset, .warmReset, .moduleUnpowered] → ∀ s t, exec i s = .next t → t.fw.wear = s.fw.wear)

end

namespace Sys2Proof.Machine

/-- The lanes that do not contribute keep their elements and poison in every register, and the contributing lanes are those of the split's xact whose guard is true (R98). -/
def LanesKept (i : Instr) (g : Guard) : Prop :=
  ∀ (s t : State) (p : Issuer), s.issuer i = some p → exec i s = .next t →
    (∀ l, l < 32 → (p.k.getLsbD l = true ↔ p.x.xact.getLsbD l = true ∧
      (g.pred = 12 ∨ ((p.t.readP 8 g.pred.toNat).v.getLsbD l = true ↔ g.neg = false)))) ∧
    ∃ u, t.m.task p.tid = some u ∧ ∀ l, l < 32 → p.k.getLsbD l = false → ∀ r,
      at32 (u.vRaw r).e l = at32 (p.t.vRaw r).e l ∧ (u.vRaw r).poi.getLsbD l = (p.t.vRaw r).poi.getLsbD l ∧
      (u.pRaw r).v.getLsbD l = (p.t.pRaw r).v.getLsbD l ∧ (u.pRaw r).poi.getLsbD l = (p.t.pRaw r).poi.getLsbD l

end Sys2Proof.Machine

section

open Sys2Proof Sys2Proof.Machine

/-- An instruction with a vector or predicate destination writes only the contributing lanes (R98): every other lane keeps its element and its poison bit. -/
def Obligations.OtherLanesKeepTheirElements : Prop :=
  (∀ c ∈ [Instr.vmov, .vadd, .vsub, .vmul, .vmulh, .vmad, .vmadw, .vaddc, .vabs, .vneg, .vmin, .vmax, .vand, .vor, .vxor, .vnot, .vshl, .vshr, .vsar, .vrot,
    .vpopc, .vclz, .vbrev, .vsel, .vlea, .fadd, .fsub, .fmul, .ffma, .fmin, .fmax, .fabs, .fneg, .fsqrt, .frnd, .frcp, .frsq, .fexp2, .flog2, .fsin, .fcos,
    .fdot2, .vcmp, .fcmp, .pand, .por, .pxor, .pnot, .pmov, .vote, .scan, .match, .ptest], ∀ x : FV3, LanesKept (c x) x.g) ∧
  (∀ c ∈ [Instr.vbfe, .vbfi, .psets, .psetsImm, .fclass, .shfl, .bcast], ∀ x : FVI, LanesKept (c x) x.g) ∧
  (∀ x : FX, LanesKept (.vli x) x.g)

end
end

