-- ==== Sys2Proof/Laws/Assoc.lean ====
section
/-! SUPPORT. What the operations on keyed lists do. -/

namespace Sys2Proof.Machine

variable {α : Type}

@[simp] theorem tabGet_tabSet_same (t : Tab α) (k : Nat) (a : α) : tabGet (tabSet t k a) k = some a := by
  induction t with
  | nil => simp [tabSet, tabGet]
  | cons p rest ih =>
    obtain ⟨j, b⟩ := p
    simp only [tabSet]
    split
    · simp [tabGet]
    · split
      · simp [tabGet]
      · simp_all [tabGet]

theorem tabGet_tabSet_other (t : Tab α) {k j : Nat} (a : α) (h : j ≠ k) : tabGet (tabSet t k a) j = tabGet t j := by
  induction t with
  | nil => simp [tabSet, tabGet, Ne.symm h]
  | cons p rest ih =>
    obtain ⟨i, b⟩ := p
    simp only [tabSet]
    split
    · rename_i hik
      have : i = k := by simpa using hik
      subst this
      simp [tabGet, Ne.symm h]
    · split
      · simp [tabGet, Ne.symm h]
      · simp [tabGet, ih]

@[simp] theorem tabSet_tabSet (t : Tab α) (k : Nat) (a b : α) : tabSet (tabSet t k a) k b = tabSet t k b := by
  induction t with
  | nil => simp [tabSet]
  | cons p rest ih =>
    obtain ⟨i, c⟩ := p
    simp only [tabSet]
    split
    · simp [tabSet]
    · split
      · simp [tabSet]
      · rename_i h1 h2
        simp only [tabSet, h1, h2, if_false, ih]
        simp

theorem tabMod_some {t : Tab α} {k : Nat} {a : α} (h : tabGet t k = some a) (f : α → α) : tabMod t k f = tabSet t k (f a) := by
  simp [tabMod, h]

theorem tabMod_none {t : Tab α} {k : Nat} (h : tabGet t k = none) (f : α → α) : tabMod t k f = t := by
  simp [tabMod, h]

theorem tabGet_tabMod_same (t : Tab α) (k : Nat) (f : α → α) : tabGet (tabMod t k f) k = (tabGet t k).map f := by
  cases h : tabGet t k with
  | none => simp [tabMod, h]
  | some a => simp [tabMod, h]

theorem tabGet_tabMod_other (t : Tab α) {k j : Nat} (f : α → α) (h : j ≠ k) : tabGet (tabMod t k f) j = tabGet t j := by
  cases hk : tabGet t k with
  | none => simp [tabMod, hk]
  | some a => simp [tabMod, hk, tabGet_tabSet_other _ _ h]

@[simp] theorem tabMod_tabMod (t : Tab α) (k : Nat) (f g : α → α) : tabMod (tabMod t k f) k g = tabMod t k (fun a => g (f a)) := by
  cases h : tabGet t k with
  | none => simp [tabMod, h]
  | some a => simp [tabMod, h]

@[simp] theorem tabMod_tabSet (t : Tab α) (k : Nat) (a : α) (f : α → α) : tabMod (tabSet t k a) k f = tabSet t k (f a) := by
  simp [tabMod]

theorem tabGetD_tabSet_same (t : Tab α) (k : Nat) (a d : α) : tabGetD (tabSet t k a) k d = a := by simp [tabGetD]

theorem tabGetD_tabSet_other (t : Tab α) {k j : Nat} (a d : α) (h : j ≠ k) : tabGetD (tabSet t k a) j d = tabGetD t j d := by
  simp [tabGetD, tabGet_tabSet_other _ _ h]

end Sys2Proof.Machine
end

