-- ==== Sys2Proof/Laws/State.lean ====
section
/-! SUPPORT. One lemma per field per update of the machine and of a task, so that no proof unfolds a record update. -/

namespace Sys2Proof.Machine


/-! ### Mach.setTask -/

@[simp] theorem Mach.setTask_teams (m : Mach) (i : Nat) (x : Task) : (m.setTask i x).teams = m.teams := rfl
@[simp] theorem Mach.setTask_cores (m : Mach) (i : Nat) (x : Task) : (m.setTask i x).cores = m.cores := rfl
@[simp] theorem Mach.setTask_dies (m : Mach) (i : Nat) (x : Task) : (m.setTask i x).dies = m.dies := rfl
@[simp] theorem Mach.setTask_mem (m : Mach) (i : Nat) (x : Task) : (m.setTask i x).mem = m.mem := rfl
@[simp] theorem Mach.setTask_holder (m : Mach) (i : Nat) (x : Task) : (m.setTask i x).holder = m.holder := rfl
@[simp] theorem Mach.setTask_record (m : Mach) (i : Nat) (x : Task) : (m.setTask i x).record = m.record := rfl
@[simp] theorem Mach.setTask_seals (m : Mach) (i : Nat) (x : Task) : (m.setTask i x).seals = m.seals := rfl
@[simp] theorem Mach.setTask_resident (m : Mach) (i : Nat) (x : Task) : (m.setTask i x).resident = m.resident := rfl
@[simp] theorem Mach.setTask_ctxs (m : Mach) (i : Nat) (x : Task) : (m.setTask i x).ctxs = m.ctxs := rfl
@[simp] theorem Mach.setTask_queues (m : Mach) (i : Nat) (x : Task) : (m.setTask i x).queues = m.queues := rfl
@[simp] theorem Mach.setTask_spawnqs (m : Mach) (i : Nat) (x : Task) : (m.setTask i x).spawnqs = m.spawnqs := rfl
@[simp] theorem Mach.setTask_copies (m : Mach) (i : Nat) (x : Task) : (m.setTask i x).copies = m.copies := rfl
@[simp] theorem Mach.setTask_credits (m : Mach) (i : Nat) (x : Task) : (m.setTask i x).credits = m.credits := rfl
@[simp] theorem Mach.setTask_requests (m : Mach) (i : Nat) (x : Task) : (m.setTask i x).requests = m.requests := rfl
@[simp] theorem Mach.setTask_streams (m : Mach) (i : Nat) (x : Task) : (m.setTask i x).streams = m.streams := rfl
@[simp] theorem Mach.setTask_pages (m : Mach) (i : Nat) (x : Task) : (m.setTask i x).pages = m.pages := rfl
@[simp] theorem Mach.setTask_collectives (m : Mach) (i : Nat) (x : Task) : (m.setTask i x).collectives = m.collectives := rfl
@[simp] theorem Mach.setTask_links (m : Mach) (i : Nat) (x : Task) : (m.setTask i x).links = m.links := rfl
@[simp] theorem Mach.setTask_remoteWaits (m : Mach) (i : Nat) (x : Task) : (m.setTask i x).remoteWaits = m.remoteWaits := rfl
@[simp] theorem Mach.setTask_wanted (m : Mach) (i : Nat) (x : Task) : (m.setTask i x).wanted = m.wanted := rfl
@[simp] theorem Mach.setTask_held (m : Mach) (i : Nat) (x : Task) : (m.setTask i x).held = m.held := rfl
@[simp] theorem Mach.setTask_ats (m : Mach) (i : Nat) (x : Task) : (m.setTask i x).ats = m.ats := rfl
@[simp] theorem Mach.setTask_atsAsked (m : Mach) (i : Nat) (x : Task) : (m.setTask i x).atsAsked = m.atsAsked := rfl
@[simp] theorem Mach.setTask_atsRefused (m : Mach) (i : Nat) (x : Task) : (m.setTask i x).atsRefused = m.atsRefused := rfl
@[simp] theorem Mach.setTask_paused (m : Mach) (i : Nat) (x : Task) : (m.setTask i x).paused = m.paused := rfl
@[simp] theorem Mach.setTask_trbase (m : Mach) (i : Nat) (x : Task) : (m.setTask i x).trbase = m.trbase := rfl
@[simp] theorem Mach.setTask_xdev (m : Mach) (i : Nat) (x : Task) : (m.setTask i x).xdev = m.xdev := rfl
@[simp] theorem Mach.setTask_routes (m : Mach) (i : Nat) (x : Task) : (m.setTask i x).routes = m.routes := rfl
@[simp] theorem Mach.setTask_pdoms (m : Mach) (i : Nat) (x : Task) : (m.setTask i x).pdoms = m.pdoms := rfl
@[simp] theorem Mach.setTask_carveOuts (m : Mach) (i : Nat) (x : Task) : (m.setTask i x).carveOuts = m.carveOuts := rfl
@[simp] theorem Mach.setTask_exports (m : Mach) (i : Nat) (x : Task) : (m.setTask i x).exports = m.exports := rfl
@[simp] theorem Mach.setTask_groups (m : Mach) (i : Nat) (x : Task) : (m.setTask i x).groups = m.groups := rfl
@[simp] theorem Mach.setTask_logCores (m : Mach) (i : Nat) (x : Task) : (m.setTask i x).logCores = m.logCores := rfl
@[simp] theorem Mach.setTask_clk (m : Mach) (i : Nat) (x : Task) : (m.setTask i x).clk = m.clk := rfl
@[simp] theorem Mach.setTask_xclk (m : Mach) (i : Nat) (x : Task) : (m.setTask i x).xclk = m.xclk := rfl
@[simp] theorem Mach.setTask_xclkNext (m : Mach) (i : Nat) (x : Task) : (m.setTask i x).xclkNext = m.xclkNext := rfl
@[simp] theorem Mach.setTask_nextId (m : Mach) (i : Nat) (x : Task) : (m.setTask i x).nextId = m.nextId := rfl
@[simp] theorem Mach.setTask_keys (m : Mach) (i : Nat) (x : Task) : (m.setTask i x).keys = m.keys := rfl
@[simp] theorem Mach.setTask_collNext (m : Mach) (i : Nat) (x : Task) : (m.setTask i x).collNext = m.collNext := rfl
@[simp] theorem Mach.setTask_serviceRecords (m : Mach) (i : Nat) (x : Task) : (m.setTask i x).serviceRecords = m.serviceRecords := rfl
@[simp] theorem Mach.setTask_deviceLog (m : Mach) (i : Nat) (x : Task) : (m.setTask i x).deviceLog = m.deviceLog := rfl
@[simp] theorem Mach.setTask_posted (m : Mach) (i : Nat) (x : Task) : (m.setTask i x).posted = m.posted := rfl
@[simp] theorem Mach.setTask_upsets (m : Mach) (i : Nat) (x : Task) : (m.setTask i x).upsets = m.upsets := rfl
@[simp] theorem Mach.setTask_out (m : Mach) (i : Nat) (x : Task) : (m.setTask i x).out = m.out := rfl
@[simp] theorem Mach.setTask_tasks (m : Mach) (i : Nat) (x : Task) : (m.setTask i x).tasks = tabSet m.tasks i x := rfl

/-! ### Mach.modTask -/

@[simp] theorem Mach.modTask_teams (m : Mach) (i : Nat) (f : Task → Task) : (m.modTask i f).teams = m.teams := rfl
@[simp] theorem Mach.modTask_cores (m : Mach) (i : Nat) (f : Task → Task) : (m.modTask i f).cores = m.cores := rfl
@[simp] theorem Mach.modTask_dies (m : Mach) (i : Nat) (f : Task → Task) : (m.modTask i f).dies = m.dies := rfl
@[simp] theorem Mach.modTask_mem (m : Mach) (i : Nat) (f : Task → Task) : (m.modTask i f).mem = m.mem := rfl
@[simp] theorem Mach.modTask_holder (m : Mach) (i : Nat) (f : Task → Task) : (m.modTask i f).holder = m.holder := rfl
@[simp] theorem Mach.modTask_record (m : Mach) (i : Nat) (f : Task → Task) : (m.modTask i f).record = m.record := rfl
@[simp] theorem Mach.modTask_seals (m : Mach) (i : Nat) (f : Task → Task) : (m.modTask i f).seals = m.seals := rfl
@[simp] theorem Mach.modTask_resident (m : Mach) (i : Nat) (f : Task → Task) : (m.modTask i f).resident = m.resident := rfl
@[simp] theorem Mach.modTask_ctxs (m : Mach) (i : Nat) (f : Task → Task) : (m.modTask i f).ctxs = m.ctxs := rfl
@[simp] theorem Mach.modTask_queues (m : Mach) (i : Nat) (f : Task → Task) : (m.modTask i f).queues = m.queues := rfl
@[simp] theorem Mach.modTask_spawnqs (m : Mach) (i : Nat) (f : Task → Task) : (m.modTask i f).spawnqs = m.spawnqs := rfl
@[simp] theorem Mach.modTask_copies (m : Mach) (i : Nat) (f : Task → Task) : (m.modTask i f).copies = m.copies := rfl
@[simp] theorem Mach.modTask_credits (m : Mach) (i : Nat) (f : Task → Task) : (m.modTask i f).credits = m.credits := rfl
@[simp] theorem Mach.modTask_requests (m : Mach) (i : Nat) (f : Task → Task) : (m.modTask i f).requests = m.requests := rfl
@[simp] theorem Mach.modTask_streams (m : Mach) (i : Nat) (f : Task → Task) : (m.modTask i f).streams = m.streams := rfl
@[simp] theorem Mach.modTask_pages (m : Mach) (i : Nat) (f : Task → Task) : (m.modTask i f).pages = m.pages := rfl
@[simp] theorem Mach.modTask_collectives (m : Mach) (i : Nat) (f : Task → Task) : (m.modTask i f).collectives = m.collectives := rfl
@[simp] theorem Mach.modTask_links (m : Mach) (i : Nat) (f : Task → Task) : (m.modTask i f).links = m.links := rfl
@[simp] theorem Mach.modTask_remoteWaits (m : Mach) (i : Nat) (f : Task → Task) : (m.modTask i f).remoteWaits = m.remoteWaits := rfl
@[simp] theorem Mach.modTask_wanted (m : Mach) (i : Nat) (f : Task → Task) : (m.modTask i f).wanted = m.wanted := rfl
@[simp] theorem Mach.modTask_held (m : Mach) (i : Nat) (f : Task → Task) : (m.modTask i f).held = m.held := rfl
@[simp] theorem Mach.modTask_ats (m : Mach) (i : Nat) (f : Task → Task) : (m.modTask i f).ats = m.ats := rfl
@[simp] theorem Mach.modTask_atsAsked (m : Mach) (i : Nat) (f : Task → Task) : (m.modTask i f).atsAsked = m.atsAsked := rfl
@[simp] theorem Mach.modTask_atsRefused (m : Mach) (i : Nat) (f : Task → Task) : (m.modTask i f).atsRefused = m.atsRefused := rfl
@[simp] theorem Mach.modTask_paused (m : Mach) (i : Nat) (f : Task → Task) : (m.modTask i f).paused = m.paused := rfl
@[simp] theorem Mach.modTask_trbase (m : Mach) (i : Nat) (f : Task → Task) : (m.modTask i f).trbase = m.trbase := rfl
@[simp] theorem Mach.modTask_xdev (m : Mach) (i : Nat) (f : Task → Task) : (m.modTask i f).xdev = m.xdev := rfl
@[simp] theorem Mach.modTask_routes (m : Mach) (i : Nat) (f : Task → Task) : (m.modTask i f).routes = m.routes := rfl
@[simp] theorem Mach.modTask_pdoms (m : Mach) (i : Nat) (f : Task → Task) : (m.modTask i f).pdoms = m.pdoms := rfl
@[simp] theorem Mach.modTask_carveOuts (m : Mach) (i : Nat) (f : Task → Task) : (m.modTask i f).carveOuts = m.carveOuts := rfl
@[simp] theorem Mach.modTask_exports (m : Mach) (i : Nat) (f : Task → Task) : (m.modTask i f).exports = m.exports := rfl
@[simp] theorem Mach.modTask_groups (m : Mach) (i : Nat) (f : Task → Task) : (m.modTask i f).groups = m.groups := rfl
@[simp] theorem Mach.modTask_logCores (m : Mach) (i : Nat) (f : Task → Task) : (m.modTask i f).logCores = m.logCores := rfl
@[simp] theorem Mach.modTask_clk (m : Mach) (i : Nat) (f : Task → Task) : (m.modTask i f).clk = m.clk := rfl
@[simp] theorem Mach.modTask_xclk (m : Mach) (i : Nat) (f : Task → Task) : (m.modTask i f).xclk = m.xclk := rfl
@[simp] theorem Mach.modTask_xclkNext (m : Mach) (i : Nat) (f : Task → Task) : (m.modTask i f).xclkNext = m.xclkNext := rfl
@[simp] theorem Mach.modTask_nextId (m : Mach) (i : Nat) (f : Task → Task) : (m.modTask i f).nextId = m.nextId := rfl
@[simp] theorem Mach.modTask_keys (m : Mach) (i : Nat) (f : Task → Task) : (m.modTask i f).keys = m.keys := rfl
@[simp] theorem Mach.modTask_collNext (m : Mach) (i : Nat) (f : Task → Task) : (m.modTask i f).collNext = m.collNext := rfl
@[simp] theorem Mach.modTask_serviceRecords (m : Mach) (i : Nat) (f : Task → Task) : (m.modTask i f).serviceRecords = m.serviceRecords := rfl
@[simp] theorem Mach.modTask_deviceLog (m : Mach) (i : Nat) (f : Task → Task) : (m.modTask i f).deviceLog = m.deviceLog := rfl
@[simp] theorem Mach.modTask_posted (m : Mach) (i : Nat) (f : Task → Task) : (m.modTask i f).posted = m.posted := rfl
@[simp] theorem Mach.modTask_upsets (m : Mach) (i : Nat) (f : Task → Task) : (m.modTask i f).upsets = m.upsets := rfl
@[simp] theorem Mach.modTask_out (m : Mach) (i : Nat) (f : Task → Task) : (m.modTask i f).out = m.out := rfl
@[simp] theorem Mach.modTask_tasks (m : Mach) (i : Nat) (f : Task → Task) : (m.modTask i f).tasks = tabMod m.tasks i f := rfl

/-! ### Mach.setTeam -/

@[simp] theorem Mach.setTeam_tasks (m : Mach) (i : Nat) (x : Team) : (m.setTeam i x).tasks = m.tasks := rfl
@[simp] theorem Mach.setTeam_cores (m : Mach) (i : Nat) (x : Team) : (m.setTeam i x).cores = m.cores := rfl
@[simp] theorem Mach.setTeam_dies (m : Mach) (i : Nat) (x : Team) : (m.setTeam i x).dies = m.dies := rfl
@[simp] theorem Mach.setTeam_mem (m : Mach) (i : Nat) (x : Team) : (m.setTeam i x).mem = m.mem := rfl
@[simp] theorem Mach.setTeam_holder (m : Mach) (i : Nat) (x : Team) : (m.setTeam i x).holder = m.holder := rfl
@[simp] theorem Mach.setTeam_record (m : Mach) (i : Nat) (x : Team) : (m.setTeam i x).record = m.record := rfl
@[simp] theorem Mach.setTeam_seals (m : Mach) (i : Nat) (x : Team) : (m.setTeam i x).seals = m.seals := rfl
@[simp] theorem Mach.setTeam_resident (m : Mach) (i : Nat) (x : Team) : (m.setTeam i x).resident = m.resident := rfl
@[simp] theorem Mach.setTeam_ctxs (m : Mach) (i : Nat) (x : Team) : (m.setTeam i x).ctxs = m.ctxs := rfl
@[simp] theorem Mach.setTeam_queues (m : Mach) (i : Nat) (x : Team) : (m.setTeam i x).queues = m.queues := rfl
@[simp] theorem Mach.setTeam_spawnqs (m : Mach) (i : Nat) (x : Team) : (m.setTeam i x).spawnqs = m.spawnqs := rfl
@[simp] theorem Mach.setTeam_copies (m : Mach) (i : Nat) (x : Team) : (m.setTeam i x).copies = m.copies := rfl
@[simp] theorem Mach.setTeam_credits (m : Mach) (i : Nat) (x : Team) : (m.setTeam i x).credits = m.credits := rfl
@[simp] theorem Mach.setTeam_requests (m : Mach) (i : Nat) (x : Team) : (m.setTeam i x).requests = m.requests := rfl
@[simp] theorem Mach.setTeam_streams (m : Mach) (i : Nat) (x : Team) : (m.setTeam i x).streams = m.streams := rfl
@[simp] theorem Mach.setTeam_pages (m : Mach) (i : Nat) (x : Team) : (m.setTeam i x).pages = m.pages := rfl
@[simp] theorem Mach.setTeam_collectives (m : Mach) (i : Nat) (x : Team) : (m.setTeam i x).collectives = m.collectives := rfl
@[simp] theorem Mach.setTeam_links (m : Mach) (i : Nat) (x : Team) : (m.setTeam i x).links = m.links := rfl
@[simp] theorem Mach.setTeam_remoteWaits (m : Mach) (i : Nat) (x : Team) : (m.setTeam i x).remoteWaits = m.remoteWaits := rfl
@[simp] theorem Mach.setTeam_wanted (m : Mach) (i : Nat) (x : Team) : (m.setTeam i x).wanted = m.wanted := rfl
@[simp] theorem Mach.setTeam_held (m : Mach) (i : Nat) (x : Team) : (m.setTeam i x).held = m.held := rfl
@[simp] theorem Mach.setTeam_ats (m : Mach) (i : Nat) (x : Team) : (m.setTeam i x).ats = m.ats := rfl
@[simp] theorem Mach.setTeam_atsAsked (m : Mach) (i : Nat) (x : Team) : (m.setTeam i x).atsAsked = m.atsAsked := rfl
@[simp] theorem Mach.setTeam_atsRefused (m : Mach) (i : Nat) (x : Team) : (m.setTeam i x).atsRefused = m.atsRefused := rfl
@[simp] theorem Mach.setTeam_paused (m : Mach) (i : Nat) (x : Team) : (m.setTeam i x).paused = m.paused := rfl
@[simp] theorem Mach.setTeam_trbase (m : Mach) (i : Nat) (x : Team) : (m.setTeam i x).trbase = m.trbase := rfl
@[simp] theorem Mach.setTeam_xdev (m : Mach) (i : Nat) (x : Team) : (m.setTeam i x).xdev = m.xdev := rfl
@[simp] theorem Mach.setTeam_routes (m : Mach) (i : Nat) (x : Team) : (m.setTeam i x).routes = m.routes := rfl
@[simp] theorem Mach.setTeam_pdoms (m : Mach) (i : Nat) (x : Team) : (m.setTeam i x).pdoms = m.pdoms := rfl
@[simp] theorem Mach.setTeam_carveOuts (m : Mach) (i : Nat) (x : Team) : (m.setTeam i x).carveOuts = m.carveOuts := rfl
@[simp] theorem Mach.setTeam_exports (m : Mach) (i : Nat) (x : Team) : (m.setTeam i x).exports = m.exports := rfl
@[simp] theorem Mach.setTeam_groups (m : Mach) (i : Nat) (x : Team) : (m.setTeam i x).groups = m.groups := rfl
@[simp] theorem Mach.setTeam_logCores (m : Mach) (i : Nat) (x : Team) : (m.setTeam i x).logCores = m.logCores := rfl
@[simp] theorem Mach.setTeam_clk (m : Mach) (i : Nat) (x : Team) : (m.setTeam i x).clk = m.clk := rfl
@[simp] theorem Mach.setTeam_xclk (m : Mach) (i : Nat) (x : Team) : (m.setTeam i x).xclk = m.xclk := rfl
@[simp] theorem Mach.setTeam_xclkNext (m : Mach) (i : Nat) (x : Team) : (m.setTeam i x).xclkNext = m.xclkNext := rfl
@[simp] theorem Mach.setTeam_nextId (m : Mach) (i : Nat) (x : Team) : (m.setTeam i x).nextId = m.nextId := rfl
@[simp] theorem Mach.setTeam_keys (m : Mach) (i : Nat) (x : Team) : (m.setTeam i x).keys = m.keys := rfl
@[simp] theorem Mach.setTeam_collNext (m : Mach) (i : Nat) (x : Team) : (m.setTeam i x).collNext = m.collNext := rfl
@[simp] theorem Mach.setTeam_serviceRecords (m : Mach) (i : Nat) (x : Team) : (m.setTeam i x).serviceRecords = m.serviceRecords := rfl
@[simp] theorem Mach.setTeam_deviceLog (m : Mach) (i : Nat) (x : Team) : (m.setTeam i x).deviceLog = m.deviceLog := rfl
@[simp] theorem Mach.setTeam_posted (m : Mach) (i : Nat) (x : Team) : (m.setTeam i x).posted = m.posted := rfl
@[simp] theorem Mach.setTeam_upsets (m : Mach) (i : Nat) (x : Team) : (m.setTeam i x).upsets = m.upsets := rfl
@[simp] theorem Mach.setTeam_out (m : Mach) (i : Nat) (x : Team) : (m.setTeam i x).out = m.out := rfl
@[simp] theorem Mach.setTeam_teams (m : Mach) (i : Nat) (x : Team) : (m.setTeam i x).teams = tabSet m.teams i x := rfl

/-! ### Mach.modTeam -/

@[simp] theorem Mach.modTeam_tasks (m : Mach) (i : Nat) (f : Team → Team) : (m.modTeam i f).tasks = m.tasks := rfl
@[simp] theorem Mach.modTeam_cores (m : Mach) (i : Nat) (f : Team → Team) : (m.modTeam i f).cores = m.cores := rfl
@[simp] theorem Mach.modTeam_dies (m : Mach) (i : Nat) (f : Team → Team) : (m.modTeam i f).dies = m.dies := rfl
@[simp] theorem Mach.modTeam_mem (m : Mach) (i : Nat) (f : Team → Team) : (m.modTeam i f).mem = m.mem := rfl
@[simp] theorem Mach.modTeam_holder (m : Mach) (i : Nat) (f : Team → Team) : (m.modTeam i f).holder = m.holder := rfl
@[simp] theorem Mach.modTeam_record (m : Mach) (i : Nat) (f : Team → Team) : (m.modTeam i f).record = m.record := rfl
@[simp] theorem Mach.modTeam_seals (m : Mach) (i : Nat) (f : Team → Team) : (m.modTeam i f).seals = m.seals := rfl
@[simp] theorem Mach.modTeam_resident (m : Mach) (i : Nat) (f : Team → Team) : (m.modTeam i f).resident = m.resident := rfl
@[simp] theorem Mach.modTeam_ctxs (m : Mach) (i : Nat) (f : Team → Team) : (m.modTeam i f).ctxs = m.ctxs := rfl
@[simp] theorem Mach.modTeam_queues (m : Mach) (i : Nat) (f : Team → Team) : (m.modTeam i f).queues = m.queues := rfl
@[simp] theorem Mach.modTeam_spawnqs (m : Mach) (i : Nat) (f : Team → Team) : (m.modTeam i f).spawnqs = m.spawnqs := rfl
@[simp] theorem Mach.modTeam_copies (m : Mach) (i : Nat) (f : Team → Team) : (m.modTeam i f).copies = m.copies := rfl
@[simp] theorem Mach.modTeam_credits (m : Mach) (i : Nat) (f : Team → Team) : (m.modTeam i f).credits = m.credits := rfl
@[simp] theorem Mach.modTeam_requests (m : Mach) (i : Nat) (f : Team → Team) : (m.modTeam i f).requests = m.requests := rfl
@[simp] theorem Mach.modTeam_streams (m : Mach) (i : Nat) (f : Team → Team) : (m.modTeam i f).streams = m.streams := rfl
@[simp] theorem Mach.modTeam_pages (m : Mach) (i : Nat) (f : Team → Team) : (m.modTeam i f).pages = m.pages := rfl
@[simp] theorem Mach.modTeam_collectives (m : Mach) (i : Nat) (f : Team → Team) : (m.modTeam i f).collectives = m.collectives := rfl
@[simp] theorem Mach.modTeam_links (m : Mach) (i : Nat) (f : Team → Team) : (m.modTeam i f).links = m.links := rfl
@[simp] theorem Mach.modTeam_remoteWaits (m : Mach) (i : Nat) (f : Team → Team) : (m.modTeam i f).remoteWaits = m.remoteWaits := rfl
@[simp] theorem Mach.modTeam_wanted (m : Mach) (i : Nat) (f : Team → Team) : (m.modTeam i f).wanted = m.wanted := rfl
@[simp] theorem Mach.modTeam_held (m : Mach) (i : Nat) (f : Team → Team) : (m.modTeam i f).held = m.held := rfl
@[simp] theorem Mach.modTeam_ats (m : Mach) (i : Nat) (f : Team → Team) : (m.modTeam i f).ats = m.ats := rfl
@[simp] theorem Mach.modTeam_atsAsked (m : Mach) (i : Nat) (f : Team → Team) : (m.modTeam i f).atsAsked = m.atsAsked := rfl
@[simp] theorem Mach.modTeam_atsRefused (m : Mach) (i : Nat) (f : Team → Team) : (m.modTeam i f).atsRefused = m.atsRefused := rfl
@[simp] theorem Mach.modTeam_paused (m : Mach) (i : Nat) (f : Team → Team) : (m.modTeam i f).paused = m.paused := rfl
@[simp] theorem Mach.modTeam_trbase (m : Mach) (i : Nat) (f : Team → Team) : (m.modTeam i f).trbase = m.trbase := rfl
@[simp] theorem Mach.modTeam_xdev (m : Mach) (i : Nat) (f : Team → Team) : (m.modTeam i f).xdev = m.xdev := rfl
@[simp] theorem Mach.modTeam_routes (m : Mach) (i : Nat) (f : Team → Team) : (m.modTeam i f).routes = m.routes := rfl
@[simp] theorem Mach.modTeam_pdoms (m : Mach) (i : Nat) (f : Team → Team) : (m.modTeam i f).pdoms = m.pdoms := rfl
@[simp] theorem Mach.modTeam_carveOuts (m : Mach) (i : Nat) (f : Team → Team) : (m.modTeam i f).carveOuts = m.carveOuts := rfl
@[simp] theorem Mach.modTeam_exports (m : Mach) (i : Nat) (f : Team → Team) : (m.modTeam i f).exports = m.exports := rfl
@[simp] theorem Mach.modTeam_groups (m : Mach) (i : Nat) (f : Team → Team) : (m.modTeam i f).groups = m.groups := rfl
@[simp] theorem Mach.modTeam_logCores (m : Mach) (i : Nat) (f : Team → Team) : (m.modTeam i f).logCores = m.logCores := rfl
@[simp] theorem Mach.modTeam_clk (m : Mach) (i : Nat) (f : Team → Team) : (m.modTeam i f).clk = m.clk := rfl
@[simp] theorem Mach.modTeam_xclk (m : Mach) (i : Nat) (f : Team → Team) : (m.modTeam i f).xclk = m.xclk := rfl
@[simp] theorem Mach.modTeam_xclkNext (m : Mach) (i : Nat) (f : Team → Team) : (m.modTeam i f).xclkNext = m.xclkNext := rfl
@[simp] theorem Mach.modTeam_nextId (m : Mach) (i : Nat) (f : Team → Team) : (m.modTeam i f).nextId = m.nextId := rfl
@[simp] theorem Mach.modTeam_keys (m : Mach) (i : Nat) (f : Team → Team) : (m.modTeam i f).keys = m.keys := rfl
@[simp] theorem Mach.modTeam_collNext (m : Mach) (i : Nat) (f : Team → Team) : (m.modTeam i f).collNext = m.collNext := rfl
@[simp] theorem Mach.modTeam_serviceRecords (m : Mach) (i : Nat) (f : Team → Team) : (m.modTeam i f).serviceRecords = m.serviceRecords := rfl
@[simp] theorem Mach.modTeam_deviceLog (m : Mach) (i : Nat) (f : Team → Team) : (m.modTeam i f).deviceLog = m.deviceLog := rfl
@[simp] theorem Mach.modTeam_posted (m : Mach) (i : Nat) (f : Team → Team) : (m.modTeam i f).posted = m.posted := rfl
@[simp] theorem Mach.modTeam_upsets (m : Mach) (i : Nat) (f : Team → Team) : (m.modTeam i f).upsets = m.upsets := rfl
@[simp] theorem Mach.modTeam_out (m : Mach) (i : Nat) (f : Team → Team) : (m.modTeam i f).out = m.out := rfl
@[simp] theorem Mach.modTeam_teams (m : Mach) (i : Nat) (f : Team → Team) : (m.modTeam i f).teams = tabMod m.teams i f := rfl

/-! ### Mach.setCore -/

@[simp] theorem Mach.setCore_tasks (m : Mach) (i : Nat) (x : Core) : (m.setCore i x).tasks = m.tasks := rfl
@[simp] theorem Mach.setCore_teams (m : Mach) (i : Nat) (x : Core) : (m.setCore i x).teams = m.teams := rfl
@[simp] theorem Mach.setCore_dies (m : Mach) (i : Nat) (x : Core) : (m.setCore i x).dies = m.dies := rfl
@[simp] theorem Mach.setCore_mem (m : Mach) (i : Nat) (x : Core) : (m.setCore i x).mem = m.mem := rfl
@[simp] theorem Mach.setCore_holder (m : Mach) (i : Nat) (x : Core) : (m.setCore i x).holder = m.holder := rfl
@[simp] theorem Mach.setCore_record (m : Mach) (i : Nat) (x : Core) : (m.setCore i x).record = m.record := rfl
@[simp] theorem Mach.setCore_seals (m : Mach) (i : Nat) (x : Core) : (m.setCore i x).seals = m.seals := rfl
@[simp] theorem Mach.setCore_resident (m : Mach) (i : Nat) (x : Core) : (m.setCore i x).resident = m.resident := rfl
@[simp] theorem Mach.setCore_ctxs (m : Mach) (i : Nat) (x : Core) : (m.setCore i x).ctxs = m.ctxs := rfl
@[simp] theorem Mach.setCore_queues (m : Mach) (i : Nat) (x : Core) : (m.setCore i x).queues = m.queues := rfl
@[simp] theorem Mach.setCore_spawnqs (m : Mach) (i : Nat) (x : Core) : (m.setCore i x).spawnqs = m.spawnqs := rfl
@[simp] theorem Mach.setCore_copies (m : Mach) (i : Nat) (x : Core) : (m.setCore i x).copies = m.copies := rfl
@[simp] theorem Mach.setCore_credits (m : Mach) (i : Nat) (x : Core) : (m.setCore i x).credits = m.credits := rfl
@[simp] theorem Mach.setCore_requests (m : Mach) (i : Nat) (x : Core) : (m.setCore i x).requests = m.requests := rfl
@[simp] theorem Mach.setCore_streams (m : Mach) (i : Nat) (x : Core) : (m.setCore i x).streams = m.streams := rfl
@[simp] theorem Mach.setCore_pages (m : Mach) (i : Nat) (x : Core) : (m.setCore i x).pages = m.pages := rfl
@[simp] theorem Mach.setCore_collectives (m : Mach) (i : Nat) (x : Core) : (m.setCore i x).collectives = m.collectives := rfl
@[simp] theorem Mach.setCore_links (m : Mach) (i : Nat) (x : Core) : (m.setCore i x).links = m.links := rfl
@[simp] theorem Mach.setCore_remoteWaits (m : Mach) (i : Nat) (x : Core) : (m.setCore i x).remoteWaits = m.remoteWaits := rfl
@[simp] theorem Mach.setCore_wanted (m : Mach) (i : Nat) (x : Core) : (m.setCore i x).wanted = m.wanted := rfl
@[simp] theorem Mach.setCore_held (m : Mach) (i : Nat) (x : Core) : (m.setCore i x).held = m.held := rfl
@[simp] theorem Mach.setCore_ats (m : Mach) (i : Nat) (x : Core) : (m.setCore i x).ats = m.ats := rfl
@[simp] theorem Mach.setCore_atsAsked (m : Mach) (i : Nat) (x : Core) : (m.setCore i x).atsAsked = m.atsAsked := rfl
@[simp] theorem Mach.setCore_atsRefused (m : Mach) (i : Nat) (x : Core) : (m.setCore i x).atsRefused = m.atsRefused := rfl
@[simp] theorem Mach.setCore_paused (m : Mach) (i : Nat) (x : Core) : (m.setCore i x).paused = m.paused := rfl
@[simp] theorem Mach.setCore_trbase (m : Mach) (i : Nat) (x : Core) : (m.setCore i x).trbase = m.trbase := rfl
@[simp] theorem Mach.setCore_xdev (m : Mach) (i : Nat) (x : Core) : (m.setCore i x).xdev = m.xdev := rfl
@[simp] theorem Mach.setCore_routes (m : Mach) (i : Nat) (x : Core) : (m.setCore i x).routes = m.routes := rfl
@[simp] theorem Mach.setCore_pdoms (m : Mach) (i : Nat) (x : Core) : (m.setCore i x).pdoms = m.pdoms := rfl
@[simp] theorem Mach.setCore_carveOuts (m : Mach) (i : Nat) (x : Core) : (m.setCore i x).carveOuts = m.carveOuts := rfl
@[simp] theorem Mach.setCore_exports (m : Mach) (i : Nat) (x : Core) : (m.setCore i x).exports = m.exports := rfl
@[simp] theorem Mach.setCore_groups (m : Mach) (i : Nat) (x : Core) : (m.setCore i x).groups = m.groups := rfl
@[simp] theorem Mach.setCore_logCores (m : Mach) (i : Nat) (x : Core) : (m.setCore i x).logCores = m.logCores := rfl
@[simp] theorem Mach.setCore_clk (m : Mach) (i : Nat) (x : Core) : (m.setCore i x).clk = m.clk := rfl
@[simp] theorem Mach.setCore_xclk (m : Mach) (i : Nat) (x : Core) : (m.setCore i x).xclk = m.xclk := rfl
@[simp] theorem Mach.setCore_xclkNext (m : Mach) (i : Nat) (x : Core) : (m.setCore i x).xclkNext = m.xclkNext := rfl
@[simp] theorem Mach.setCore_nextId (m : Mach) (i : Nat) (x : Core) : (m.setCore i x).nextId = m.nextId := rfl
@[simp] theorem Mach.setCore_keys (m : Mach) (i : Nat) (x : Core) : (m.setCore i x).keys = m.keys := rfl
@[simp] theorem Mach.setCore_collNext (m : Mach) (i : Nat) (x : Core) : (m.setCore i x).collNext = m.collNext := rfl
@[simp] theorem Mach.setCore_serviceRecords (m : Mach) (i : Nat) (x : Core) : (m.setCore i x).serviceRecords = m.serviceRecords := rfl
@[simp] theorem Mach.setCore_deviceLog (m : Mach) (i : Nat) (x : Core) : (m.setCore i x).deviceLog = m.deviceLog := rfl
@[simp] theorem Mach.setCore_posted (m : Mach) (i : Nat) (x : Core) : (m.setCore i x).posted = m.posted := rfl
@[simp] theorem Mach.setCore_upsets (m : Mach) (i : Nat) (x : Core) : (m.setCore i x).upsets = m.upsets := rfl
@[simp] theorem Mach.setCore_out (m : Mach) (i : Nat) (x : Core) : (m.setCore i x).out = m.out := rfl
@[simp] theorem Mach.setCore_cores (m : Mach) (i : Nat) (x : Core) : (m.setCore i x).cores = tabSet m.cores i x := rfl

/-! ### Mach.modCore -/

@[simp] theorem Mach.modCore_tasks (m : Mach) (i : Nat) (f : Core → Core) : (m.modCore i f).tasks = m.tasks := rfl
@[simp] theorem Mach.modCore_teams (m : Mach) (i : Nat) (f : Core → Core) : (m.modCore i f).teams = m.teams := rfl
@[simp] theorem Mach.modCore_dies (m : Mach) (i : Nat) (f : Core → Core) : (m.modCore i f).dies = m.dies := rfl
@[simp] theorem Mach.modCore_mem (m : Mach) (i : Nat) (f : Core → Core) : (m.modCore i f).mem = m.mem := rfl
@[simp] theorem Mach.modCore_holder (m : Mach) (i : Nat) (f : Core → Core) : (m.modCore i f).holder = m.holder := rfl
@[simp] theorem Mach.modCore_record (m : Mach) (i : Nat) (f : Core → Core) : (m.modCore i f).record = m.record := rfl
@[simp] theorem Mach.modCore_seals (m : Mach) (i : Nat) (f : Core → Core) : (m.modCore i f).seals = m.seals := rfl
@[simp] theorem Mach.modCore_resident (m : Mach) (i : Nat) (f : Core → Core) : (m.modCore i f).resident = m.resident := rfl
@[simp] theorem Mach.modCore_ctxs (m : Mach) (i : Nat) (f : Core → Core) : (m.modCore i f).ctxs = m.ctxs := rfl
@[simp] theorem Mach.modCore_queues (m : Mach) (i : Nat) (f : Core → Core) : (m.modCore i f).queues = m.queues := rfl
@[simp] theorem Mach.modCore_spawnqs (m : Mach) (i : Nat) (f : Core → Core) : (m.modCore i f).spawnqs = m.spawnqs := rfl
@[simp] theorem Mach.modCore_copies (m : Mach) (i : Nat) (f : Core → Core) : (m.modCore i f).copies = m.copies := rfl
@[simp] theorem Mach.modCore_credits (m : Mach) (i : Nat) (f : Core → Core) : (m.modCore i f).credits = m.credits := rfl
@[simp] theorem Mach.modCore_requests (m : Mach) (i : Nat) (f : Core → Core) : (m.modCore i f).requests = m.requests := rfl
@[simp] theorem Mach.modCore_streams (m : Mach) (i : Nat) (f : Core → Core) : (m.modCore i f).streams = m.streams := rfl
@[simp] theorem Mach.modCore_pages (m : Mach) (i : Nat) (f : Core → Core) : (m.modCore i f).pages = m.pages := rfl
@[simp] theorem Mach.modCore_collectives (m : Mach) (i : Nat) (f : Core → Core) : (m.modCore i f).collectives = m.collectives := rfl
@[simp] theorem Mach.modCore_links (m : Mach) (i : Nat) (f : Core → Core) : (m.modCore i f).links = m.links := rfl
@[simp] theorem Mach.modCore_remoteWaits (m : Mach) (i : Nat) (f : Core → Core) : (m.modCore i f).remoteWaits = m.remoteWaits := rfl
@[simp] theorem Mach.modCore_wanted (m : Mach) (i : Nat) (f : Core → Core) : (m.modCore i f).wanted = m.wanted := rfl
@[simp] theorem Mach.modCore_held (m : Mach) (i : Nat) (f : Core → Core) : (m.modCore i f).held = m.held := rfl
@[simp] theorem Mach.modCore_ats (m : Mach) (i : Nat) (f : Core → Core) : (m.modCore i f).ats = m.ats := rfl
@[simp] theorem Mach.modCore_atsAsked (m : Mach) (i : Nat) (f : Core → Core) : (m.modCore i f).atsAsked = m.atsAsked := rfl
@[simp] theorem Mach.modCore_atsRefused (m : Mach) (i : Nat) (f : Core → Core) : (m.modCore i f).atsRefused = m.atsRefused := rfl
@[simp] theorem Mach.modCore_paused (m : Mach) (i : Nat) (f : Core → Core) : (m.modCore i f).paused = m.paused := rfl
@[simp] theorem Mach.modCore_trbase (m : Mach) (i : Nat) (f : Core → Core) : (m.modCore i f).trbase = m.trbase := rfl
@[simp] theorem Mach.modCore_xdev (m : Mach) (i : Nat) (f : Core → Core) : (m.modCore i f).xdev = m.xdev := rfl
@[simp] theorem Mach.modCore_routes (m : Mach) (i : Nat) (f : Core → Core) : (m.modCore i f).routes = m.routes := rfl
@[simp] theorem Mach.modCore_pdoms (m : Mach) (i : Nat) (f : Core → Core) : (m.modCore i f).pdoms = m.pdoms := rfl
@[simp] theorem Mach.modCore_carveOuts (m : Mach) (i : Nat) (f : Core → Core) : (m.modCore i f).carveOuts = m.carveOuts := rfl
@[simp] theorem Mach.modCore_exports (m : Mach) (i : Nat) (f : Core → Core) : (m.modCore i f).exports = m.exports := rfl
@[simp] theorem Mach.modCore_groups (m : Mach) (i : Nat) (f : Core → Core) : (m.modCore i f).groups = m.groups := rfl
@[simp] theorem Mach.modCore_logCores (m : Mach) (i : Nat) (f : Core → Core) : (m.modCore i f).logCores = m.logCores := rfl
@[simp] theorem Mach.modCore_clk (m : Mach) (i : Nat) (f : Core → Core) : (m.modCore i f).clk = m.clk := rfl
@[simp] theorem Mach.modCore_xclk (m : Mach) (i : Nat) (f : Core → Core) : (m.modCore i f).xclk = m.xclk := rfl
@[simp] theorem Mach.modCore_xclkNext (m : Mach) (i : Nat) (f : Core → Core) : (m.modCore i f).xclkNext = m.xclkNext := rfl
@[simp] theorem Mach.modCore_nextId (m : Mach) (i : Nat) (f : Core → Core) : (m.modCore i f).nextId = m.nextId := rfl
@[simp] theorem Mach.modCore_keys (m : Mach) (i : Nat) (f : Core → Core) : (m.modCore i f).keys = m.keys := rfl
@[simp] theorem Mach.modCore_collNext (m : Mach) (i : Nat) (f : Core → Core) : (m.modCore i f).collNext = m.collNext := rfl
@[simp] theorem Mach.modCore_serviceRecords (m : Mach) (i : Nat) (f : Core → Core) : (m.modCore i f).serviceRecords = m.serviceRecords := rfl
@[simp] theorem Mach.modCore_deviceLog (m : Mach) (i : Nat) (f : Core → Core) : (m.modCore i f).deviceLog = m.deviceLog := rfl
@[simp] theorem Mach.modCore_posted (m : Mach) (i : Nat) (f : Core → Core) : (m.modCore i f).posted = m.posted := rfl
@[simp] theorem Mach.modCore_upsets (m : Mach) (i : Nat) (f : Core → Core) : (m.modCore i f).upsets = m.upsets := rfl
@[simp] theorem Mach.modCore_out (m : Mach) (i : Nat) (f : Core → Core) : (m.modCore i f).out = m.out := rfl
@[simp] theorem Mach.modCore_cores (m : Mach) (i : Nat) (f : Core → Core) : (m.modCore i f).cores = tabSet m.cores i (f (m.core i)) := rfl

/-! ### Mach.setDie -/

@[simp] theorem Mach.setDie_tasks (m : Mach) (i : Nat) (x : Die) : (m.setDie i x).tasks = m.tasks := rfl
@[simp] theorem Mach.setDie_teams (m : Mach) (i : Nat) (x : Die) : (m.setDie i x).teams = m.teams := rfl
@[simp] theorem Mach.setDie_cores (m : Mach) (i : Nat) (x : Die) : (m.setDie i x).cores = m.cores := rfl
@[simp] theorem Mach.setDie_mem (m : Mach) (i : Nat) (x : Die) : (m.setDie i x).mem = m.mem := rfl
@[simp] theorem Mach.setDie_holder (m : Mach) (i : Nat) (x : Die) : (m.setDie i x).holder = m.holder := rfl
@[simp] theorem Mach.setDie_record (m : Mach) (i : Nat) (x : Die) : (m.setDie i x).record = m.record := rfl
@[simp] theorem Mach.setDie_seals (m : Mach) (i : Nat) (x : Die) : (m.setDie i x).seals = m.seals := rfl
@[simp] theorem Mach.setDie_resident (m : Mach) (i : Nat) (x : Die) : (m.setDie i x).resident = m.resident := rfl
@[simp] theorem Mach.setDie_ctxs (m : Mach) (i : Nat) (x : Die) : (m.setDie i x).ctxs = m.ctxs := rfl
@[simp] theorem Mach.setDie_queues (m : Mach) (i : Nat) (x : Die) : (m.setDie i x).queues = m.queues := rfl
@[simp] theorem Mach.setDie_spawnqs (m : Mach) (i : Nat) (x : Die) : (m.setDie i x).spawnqs = m.spawnqs := rfl
@[simp] theorem Mach.setDie_copies (m : Mach) (i : Nat) (x : Die) : (m.setDie i x).copies = m.copies := rfl
@[simp] theorem Mach.setDie_credits (m : Mach) (i : Nat) (x : Die) : (m.setDie i x).credits = m.credits := rfl
@[simp] theorem Mach.setDie_requests (m : Mach) (i : Nat) (x : Die) : (m.setDie i x).requests = m.requests := rfl
@[simp] theorem Mach.setDie_streams (m : Mach) (i : Nat) (x : Die) : (m.setDie i x).streams = m.streams := rfl
@[simp] theorem Mach.setDie_pages (m : Mach) (i : Nat) (x : Die) : (m.setDie i x).pages = m.pages := rfl
@[simp] theorem Mach.setDie_collectives (m : Mach) (i : Nat) (x : Die) : (m.setDie i x).collectives = m.collectives := rfl
@[simp] theorem Mach.setDie_links (m : Mach) (i : Nat) (x : Die) : (m.setDie i x).links = m.links := rfl
@[simp] theorem Mach.setDie_remoteWaits (m : Mach) (i : Nat) (x : Die) : (m.setDie i x).remoteWaits = m.remoteWaits := rfl
@[simp] theorem Mach.setDie_wanted (m : Mach) (i : Nat) (x : Die) : (m.setDie i x).wanted = m.wanted := rfl
@[simp] theorem Mach.setDie_held (m : Mach) (i : Nat) (x : Die) : (m.setDie i x).held = m.held := rfl
@[simp] theorem Mach.setDie_ats (m : Mach) (i : Nat) (x : Die) : (m.setDie i x).ats = m.ats := rfl
@[simp] theorem Mach.setDie_atsAsked (m : Mach) (i : Nat) (x : Die) : (m.setDie i x).atsAsked = m.atsAsked := rfl
@[simp] theorem Mach.setDie_atsRefused (m : Mach) (i : Nat) (x : Die) : (m.setDie i x).atsRefused = m.atsRefused := rfl
@[simp] theorem Mach.setDie_paused (m : Mach) (i : Nat) (x : Die) : (m.setDie i x).paused = m.paused := rfl
@[simp] theorem Mach.setDie_trbase (m : Mach) (i : Nat) (x : Die) : (m.setDie i x).trbase = m.trbase := rfl
@[simp] theorem Mach.setDie_xdev (m : Mach) (i : Nat) (x : Die) : (m.setDie i x).xdev = m.xdev := rfl
@[simp] theorem Mach.setDie_routes (m : Mach) (i : Nat) (x : Die) : (m.setDie i x).routes = m.routes := rfl
@[simp] theorem Mach.setDie_pdoms (m : Mach) (i : Nat) (x : Die) : (m.setDie i x).pdoms = m.pdoms := rfl
@[simp] theorem Mach.setDie_carveOuts (m : Mach) (i : Nat) (x : Die) : (m.setDie i x).carveOuts = m.carveOuts := rfl
@[simp] theorem Mach.setDie_exports (m : Mach) (i : Nat) (x : Die) : (m.setDie i x).exports = m.exports := rfl
@[simp] theorem Mach.setDie_groups (m : Mach) (i : Nat) (x : Die) : (m.setDie i x).groups = m.groups := rfl
@[simp] theorem Mach.setDie_logCores (m : Mach) (i : Nat) (x : Die) : (m.setDie i x).logCores = m.logCores := rfl
@[simp] theorem Mach.setDie_clk (m : Mach) (i : Nat) (x : Die) : (m.setDie i x).clk = m.clk := rfl
@[simp] theorem Mach.setDie_xclk (m : Mach) (i : Nat) (x : Die) : (m.setDie i x).xclk = m.xclk := rfl
@[simp] theorem Mach.setDie_xclkNext (m : Mach) (i : Nat) (x : Die) : (m.setDie i x).xclkNext = m.xclkNext := rfl
@[simp] theorem Mach.setDie_nextId (m : Mach) (i : Nat) (x : Die) : (m.setDie i x).nextId = m.nextId := rfl
@[simp] theorem Mach.setDie_keys (m : Mach) (i : Nat) (x : Die) : (m.setDie i x).keys = m.keys := rfl
@[simp] theorem Mach.setDie_collNext (m : Mach) (i : Nat) (x : Die) : (m.setDie i x).collNext = m.collNext := rfl
@[simp] theorem Mach.setDie_serviceRecords (m : Mach) (i : Nat) (x : Die) : (m.setDie i x).serviceRecords = m.serviceRecords := rfl
@[simp] theorem Mach.setDie_deviceLog (m : Mach) (i : Nat) (x : Die) : (m.setDie i x).deviceLog = m.deviceLog := rfl
@[simp] theorem Mach.setDie_posted (m : Mach) (i : Nat) (x : Die) : (m.setDie i x).posted = m.posted := rfl
@[simp] theorem Mach.setDie_upsets (m : Mach) (i : Nat) (x : Die) : (m.setDie i x).upsets = m.upsets := rfl
@[simp] theorem Mach.setDie_out (m : Mach) (i : Nat) (x : Die) : (m.setDie i x).out = m.out := rfl
@[simp] theorem Mach.setDie_dies (m : Mach) (i : Nat) (x : Die) : (m.setDie i x).dies = tabSet m.dies i x := rfl

/-! ### Mach.modDie -/

@[simp] theorem Mach.modDie_tasks (m : Mach) (i : Nat) (f : Die → Die) : (m.modDie i f).tasks = m.tasks := rfl
@[simp] theorem Mach.modDie_teams (m : Mach) (i : Nat) (f : Die → Die) : (m.modDie i f).teams = m.teams := rfl
@[simp] theorem Mach.modDie_cores (m : Mach) (i : Nat) (f : Die → Die) : (m.modDie i f).cores = m.cores := rfl
@[simp] theorem Mach.modDie_mem (m : Mach) (i : Nat) (f : Die → Die) : (m.modDie i f).mem = m.mem := rfl
@[simp] theorem Mach.modDie_holder (m : Mach) (i : Nat) (f : Die → Die) : (m.modDie i f).holder = m.holder := rfl
@[simp] theorem Mach.modDie_record (m : Mach) (i : Nat) (f : Die → Die) : (m.modDie i f).record = m.record := rfl
@[simp] theorem Mach.modDie_seals (m : Mach) (i : Nat) (f : Die → Die) : (m.modDie i f).seals = m.seals := rfl
@[simp] theorem Mach.modDie_resident (m : Mach) (i : Nat) (f : Die → Die) : (m.modDie i f).resident = m.resident := rfl
@[simp] theorem Mach.modDie_ctxs (m : Mach) (i : Nat) (f : Die → Die) : (m.modDie i f).ctxs = m.ctxs := rfl
@[simp] theorem Mach.modDie_queues (m : Mach) (i : Nat) (f : Die → Die) : (m.modDie i f).queues = m.queues := rfl
@[simp] theorem Mach.modDie_spawnqs (m : Mach) (i : Nat) (f : Die → Die) : (m.modDie i f).spawnqs = m.spawnqs := rfl
@[simp] theorem Mach.modDie_copies (m : Mach) (i : Nat) (f : Die → Die) : (m.modDie i f).copies = m.copies := rfl
@[simp] theorem Mach.modDie_credits (m : Mach) (i : Nat) (f : Die → Die) : (m.modDie i f).credits = m.credits := rfl
@[simp] theorem Mach.modDie_requests (m : Mach) (i : Nat) (f : Die → Die) : (m.modDie i f).requests = m.requests := rfl
@[simp] theorem Mach.modDie_streams (m : Mach) (i : Nat) (f : Die → Die) : (m.modDie i f).streams = m.streams := rfl
@[simp] theorem Mach.modDie_pages (m : Mach) (i : Nat) (f : Die → Die) : (m.modDie i f).pages = m.pages := rfl
@[simp] theorem Mach.modDie_collectives (m : Mach) (i : Nat) (f : Die → Die) : (m.modDie i f).collectives = m.collectives := rfl
@[simp] theorem Mach.modDie_links (m : Mach) (i : Nat) (f : Die → Die) : (m.modDie i f).links = m.links := rfl
@[simp] theorem Mach.modDie_remoteWaits (m : Mach) (i : Nat) (f : Die → Die) : (m.modDie i f).remoteWaits = m.remoteWaits := rfl
@[simp] theorem Mach.modDie_wanted (m : Mach) (i : Nat) (f : Die → Die) : (m.modDie i f).wanted = m.wanted := rfl
@[simp] theorem Mach.modDie_held (m : Mach) (i : Nat) (f : Die → Die) : (m.modDie i f).held = m.held := rfl
@[simp] theorem Mach.modDie_ats (m : Mach) (i : Nat) (f : Die → Die) : (m.modDie i f).ats = m.ats := rfl
@[simp] theorem Mach.modDie_atsAsked (m : Mach) (i : Nat) (f : Die → Die) : (m.modDie i f).atsAsked = m.atsAsked := rfl
@[simp] theorem Mach.modDie_atsRefused (m : Mach) (i : Nat) (f : Die → Die) : (m.modDie i f).atsRefused = m.atsRefused := rfl
@[simp] theorem Mach.modDie_paused (m : Mach) (i : Nat) (f : Die → Die) : (m.modDie i f).paused = m.paused := rfl
@[simp] theorem Mach.modDie_trbase (m : Mach) (i : Nat) (f : Die → Die) : (m.modDie i f).trbase = m.trbase := rfl
@[simp] theorem Mach.modDie_xdev (m : Mach) (i : Nat) (f : Die → Die) : (m.modDie i f).xdev = m.xdev := rfl
@[simp] theorem Mach.modDie_routes (m : Mach) (i : Nat) (f : Die → Die) : (m.modDie i f).routes = m.routes := rfl
@[simp] theorem Mach.modDie_pdoms (m : Mach) (i : Nat) (f : Die → Die) : (m.modDie i f).pdoms = m.pdoms := rfl
@[simp] theorem Mach.modDie_carveOuts (m : Mach) (i : Nat) (f : Die → Die) : (m.modDie i f).carveOuts = m.carveOuts := rfl
@[simp] theorem Mach.modDie_exports (m : Mach) (i : Nat) (f : Die → Die) : (m.modDie i f).exports = m.exports := rfl
@[simp] theorem Mach.modDie_groups (m : Mach) (i : Nat) (f : Die → Die) : (m.modDie i f).groups = m.groups := rfl
@[simp] theorem Mach.modDie_logCores (m : Mach) (i : Nat) (f : Die → Die) : (m.modDie i f).logCores = m.logCores := rfl
@[simp] theorem Mach.modDie_clk (m : Mach) (i : Nat) (f : Die → Die) : (m.modDie i f).clk = m.clk := rfl
@[simp] theorem Mach.modDie_xclk (m : Mach) (i : Nat) (f : Die → Die) : (m.modDie i f).xclk = m.xclk := rfl
@[simp] theorem Mach.modDie_xclkNext (m : Mach) (i : Nat) (f : Die → Die) : (m.modDie i f).xclkNext = m.xclkNext := rfl
@[simp] theorem Mach.modDie_nextId (m : Mach) (i : Nat) (f : Die → Die) : (m.modDie i f).nextId = m.nextId := rfl
@[simp] theorem Mach.modDie_keys (m : Mach) (i : Nat) (f : Die → Die) : (m.modDie i f).keys = m.keys := rfl
@[simp] theorem Mach.modDie_collNext (m : Mach) (i : Nat) (f : Die → Die) : (m.modDie i f).collNext = m.collNext := rfl
@[simp] theorem Mach.modDie_serviceRecords (m : Mach) (i : Nat) (f : Die → Die) : (m.modDie i f).serviceRecords = m.serviceRecords := rfl
@[simp] theorem Mach.modDie_deviceLog (m : Mach) (i : Nat) (f : Die → Die) : (m.modDie i f).deviceLog = m.deviceLog := rfl
@[simp] theorem Mach.modDie_posted (m : Mach) (i : Nat) (f : Die → Die) : (m.modDie i f).posted = m.posted := rfl
@[simp] theorem Mach.modDie_upsets (m : Mach) (i : Nat) (f : Die → Die) : (m.modDie i f).upsets = m.upsets := rfl
@[simp] theorem Mach.modDie_out (m : Mach) (i : Nat) (f : Die → Die) : (m.modDie i f).out = m.out := rfl
@[simp] theorem Mach.modDie_dies (m : Mach) (i : Nat) (f : Die → Die) : (m.modDie i f).dies = tabSet m.dies i (f (m.die i)) := rfl

/-! ### Mach.modCtx -/

@[simp] theorem Mach.modCtx_tasks (m : Mach) (i : Nat) (f : Ctx → Ctx) : (m.modCtx i f).tasks = m.tasks := rfl
@[simp] theorem Mach.modCtx_teams (m : Mach) (i : Nat) (f : Ctx → Ctx) : (m.modCtx i f).teams = m.teams := rfl
@[simp] theorem Mach.modCtx_cores (m : Mach) (i : Nat) (f : Ctx → Ctx) : (m.modCtx i f).cores = m.cores := rfl
@[simp] theorem Mach.modCtx_dies (m : Mach) (i : Nat) (f : Ctx → Ctx) : (m.modCtx i f).dies = m.dies := rfl
@[simp] theorem Mach.modCtx_mem (m : Mach) (i : Nat) (f : Ctx → Ctx) : (m.modCtx i f).mem = m.mem := rfl
@[simp] theorem Mach.modCtx_holder (m : Mach) (i : Nat) (f : Ctx → Ctx) : (m.modCtx i f).holder = m.holder := rfl
@[simp] theorem Mach.modCtx_record (m : Mach) (i : Nat) (f : Ctx → Ctx) : (m.modCtx i f).record = m.record := rfl
@[simp] theorem Mach.modCtx_seals (m : Mach) (i : Nat) (f : Ctx → Ctx) : (m.modCtx i f).seals = m.seals := rfl
@[simp] theorem Mach.modCtx_resident (m : Mach) (i : Nat) (f : Ctx → Ctx) : (m.modCtx i f).resident = m.resident := rfl
@[simp] theorem Mach.modCtx_queues (m : Mach) (i : Nat) (f : Ctx → Ctx) : (m.modCtx i f).queues = m.queues := rfl
@[simp] theorem Mach.modCtx_spawnqs (m : Mach) (i : Nat) (f : Ctx → Ctx) : (m.modCtx i f).spawnqs = m.spawnqs := rfl
@[simp] theorem Mach.modCtx_copies (m : Mach) (i : Nat) (f : Ctx → Ctx) : (m.modCtx i f).copies = m.copies := rfl
@[simp] theorem Mach.modCtx_credits (m : Mach) (i : Nat) (f : Ctx → Ctx) : (m.modCtx i f).credits = m.credits := rfl
@[simp] theorem Mach.modCtx_requests (m : Mach) (i : Nat) (f : Ctx → Ctx) : (m.modCtx i f).requests = m.requests := rfl
@[simp] theorem Mach.modCtx_streams (m : Mach) (i : Nat) (f : Ctx → Ctx) : (m.modCtx i f).streams = m.streams := rfl
@[simp] theorem Mach.modCtx_pages (m : Mach) (i : Nat) (f : Ctx → Ctx) : (m.modCtx i f).pages = m.pages := rfl
@[simp] theorem Mach.modCtx_collectives (m : Mach) (i : Nat) (f : Ctx → Ctx) : (m.modCtx i f).collectives = m.collectives := rfl
@[simp] theorem Mach.modCtx_links (m : Mach) (i : Nat) (f : Ctx → Ctx) : (m.modCtx i f).links = m.links := rfl
@[simp] theorem Mach.modCtx_remoteWaits (m : Mach) (i : Nat) (f : Ctx → Ctx) : (m.modCtx i f).remoteWaits = m.remoteWaits := rfl
@[simp] theorem Mach.modCtx_wanted (m : Mach) (i : Nat) (f : Ctx → Ctx) : (m.modCtx i f).wanted = m.wanted := rfl
@[simp] theorem Mach.modCtx_held (m : Mach) (i : Nat) (f : Ctx → Ctx) : (m.modCtx i f).held = m.held := rfl
@[simp] theorem Mach.modCtx_ats (m : Mach) (i : Nat) (f : Ctx → Ctx) : (m.modCtx i f).ats = m.ats := rfl
@[simp] theorem Mach.modCtx_atsAsked (m : Mach) (i : Nat) (f : Ctx → Ctx) : (m.modCtx i f).atsAsked = m.atsAsked := rfl
@[simp] theorem Mach.modCtx_atsRefused (m : Mach) (i : Nat) (f : Ctx → Ctx) : (m.modCtx i f).atsRefused = m.atsRefused := rfl
@[simp] theorem Mach.modCtx_paused (m : Mach) (i : Nat) (f : Ctx → Ctx) : (m.modCtx i f).paused = m.paused := rfl
@[simp] theorem Mach.modCtx_trbase (m : Mach) (i : Nat) (f : Ctx → Ctx) : (m.modCtx i f).trbase = m.trbase := rfl
@[simp] theorem Mach.modCtx_xdev (m : Mach) (i : Nat) (f : Ctx → Ctx) : (m.modCtx i f).xdev = m.xdev := rfl
@[simp] theorem Mach.modCtx_routes (m : Mach) (i : Nat) (f : Ctx → Ctx) : (m.modCtx i f).routes = m.routes := rfl
@[simp] theorem Mach.modCtx_pdoms (m : Mach) (i : Nat) (f : Ctx → Ctx) : (m.modCtx i f).pdoms = m.pdoms := rfl
@[simp] theorem Mach.modCtx_carveOuts (m : Mach) (i : Nat) (f : Ctx → Ctx) : (m.modCtx i f).carveOuts = m.carveOuts := rfl
@[simp] theorem Mach.modCtx_exports (m : Mach) (i : Nat) (f : Ctx → Ctx) : (m.modCtx i f).exports = m.exports := rfl
@[simp] theorem Mach.modCtx_groups (m : Mach) (i : Nat) (f : Ctx → Ctx) : (m.modCtx i f).groups = m.groups := rfl
@[simp] theorem Mach.modCtx_logCores (m : Mach) (i : Nat) (f : Ctx → Ctx) : (m.modCtx i f).logCores = m.logCores := rfl
@[simp] theorem Mach.modCtx_clk (m : Mach) (i : Nat) (f : Ctx → Ctx) : (m.modCtx i f).clk = m.clk := rfl
@[simp] theorem Mach.modCtx_xclk (m : Mach) (i : Nat) (f : Ctx → Ctx) : (m.modCtx i f).xclk = m.xclk := rfl
@[simp] theorem Mach.modCtx_xclkNext (m : Mach) (i : Nat) (f : Ctx → Ctx) : (m.modCtx i f).xclkNext = m.xclkNext := rfl
@[simp] theorem Mach.modCtx_nextId (m : Mach) (i : Nat) (f : Ctx → Ctx) : (m.modCtx i f).nextId = m.nextId := rfl
@[simp] theorem Mach.modCtx_keys (m : Mach) (i : Nat) (f : Ctx → Ctx) : (m.modCtx i f).keys = m.keys := rfl
@[simp] theorem Mach.modCtx_collNext (m : Mach) (i : Nat) (f : Ctx → Ctx) : (m.modCtx i f).collNext = m.collNext := rfl
@[simp] theorem Mach.modCtx_serviceRecords (m : Mach) (i : Nat) (f : Ctx → Ctx) : (m.modCtx i f).serviceRecords = m.serviceRecords := rfl
@[simp] theorem Mach.modCtx_deviceLog (m : Mach) (i : Nat) (f : Ctx → Ctx) : (m.modCtx i f).deviceLog = m.deviceLog := rfl
@[simp] theorem Mach.modCtx_posted (m : Mach) (i : Nat) (f : Ctx → Ctx) : (m.modCtx i f).posted = m.posted := rfl
@[simp] theorem Mach.modCtx_upsets (m : Mach) (i : Nat) (f : Ctx → Ctx) : (m.modCtx i f).upsets = m.upsets := rfl
@[simp] theorem Mach.modCtx_out (m : Mach) (i : Nat) (f : Ctx → Ctx) : (m.modCtx i f).out = m.out := rfl
@[simp] theorem Mach.modCtx_ctxs (m : Mach) (i : Nat) (f : Ctx → Ctx) : (m.modCtx i f).ctxs = tabMod m.ctxs i f := rfl

/-! ### Task.markAgain -/

@[simp] theorem Task.markAgain_ctx (t : Task) (f : PendWrite → PendWrite) : (t.markAgain f).ctx = t.ctx := rfl
@[simp] theorem Task.markAgain_core (t : Task) (f : PendWrite → PendWrite) : (t.markAgain f).core = t.core := rfl
@[simp] theorem Task.markAgain_part (t : Task) (f : PendWrite → PendWrite) : (t.markAgain f).part = t.part := rfl
@[simp] theorem Task.markAgain_slot (t : Task) (f : PendWrite → PendWrite) : (t.markAgain f).slot = t.slot := rfl
@[simp] theorem Task.markAgain_team (t : Task) (f : PendWrite → PendWrite) : (t.markAgain f).team = t.team := rfl
@[simp] theorem Task.markAgain_idx (t : Task) (f : PendWrite → PendWrite) : (t.markAgain f).idx = t.idx := rfl
@[simp] theorem Task.markAgain_sizeM1 (t : Task) (f : PendWrite → PendWrite) : (t.markAgain f).sizeM1 = t.sizeM1 := rfl
@[simp] theorem Task.markAgain_vblk (t : Task) (f : PendWrite → PendWrite) : (t.markAgain f).vblk = t.vblk := rfl
@[simp] theorem Task.markAgain_sblk (t : Task) (f : PendWrite → PendWrite) : (t.markAgain f).sblk = t.sblk := rfl
@[simp] theorem Task.markAgain_ablk (t : Task) (f : PendWrite → PendWrite) : (t.markAgain f).ablk = t.ablk := rfl
@[simp] theorem Task.markAgain_acore (t : Task) (f : PendWrite → PendWrite) : (t.markAgain f).acore = t.acore := rfl
@[simp] theorem Task.markAgain_tiles (t : Task) (f : PendWrite → PendWrite) : (t.markAgain f).tiles = t.tiles := rfl
@[simp] theorem Task.markAgain_prio (t : Task) (f : PendWrite → PendWrite) : (t.markAgain f).prio = t.prio := rfl
@[simp] theorem Task.markAgain_lanekill (t : Task) (f : PendWrite → PendWrite) : (t.markAgain f).lanekill = t.lanekill := rfl
@[simp] theorem Task.markAgain_idem (t : Task) (f : PendWrite → PendWrite) : (t.markAgain f).idem = t.idem := rfl
@[simp] theorem Task.markAgain_entry (t : Task) (f : PendWrite → PendWrite) : (t.markAgain f).entry = t.entry := rfl
@[simp] theorem Task.markAgain_supervisor (t : Task) (f : PendWrite → PendWrite) : (t.markAgain f).supervisor = t.supervisor := rfl
@[simp] theorem Task.markAgain_onComplex (t : Task) (f : PendWrite → PendWrite) : (t.markAgain f).onComplex = t.onComplex := rfl
@[simp] theorem Task.markAgain_xtask (t : Task) (f : PendWrite → PendWrite) : (t.markAgain f).xtask = t.xtask := rfl
@[simp] theorem Task.markAgain_xdead (t : Task) (f : PendWrite → PendWrite) : (t.markAgain f).xdead = t.xdead := rfl
@[simp] theorem Task.markAgain_exited (t : Task) (f : PendWrite → PendWrite) : (t.markAgain f).exited = t.exited := rfl
@[simp] theorem Task.markAgain_xtile (t : Task) (f : PendWrite → PendWrite) : (t.markAgain f).xtile = t.xtile := rfl
@[simp] theorem Task.markAgain_xtagB (t : Task) (f : PendWrite → PendWrite) : (t.markAgain f).xtagB = t.xtagB := rfl
@[simp] theorem Task.markAgain_xepc (t : Task) (f : PendWrite → PendWrite) : (t.markAgain f).xepc = t.xepc := rfl
@[simp] theorem Task.markAgain_xcause (t : Task) (f : PendWrite → PendWrite) : (t.markAgain f).xcause = t.xcause := rfl
@[simp] theorem Task.markAgain_xsyn (t : Task) (f : PendWrite → PendWrite) : (t.markAgain f).xsyn = t.xsyn := rfl
@[simp] theorem Task.markAgain_xaddr (t : Task) (f : PendWrite → PendWrite) : (t.markAgain f).xaddr = t.xaddr := rfl
@[simp] theorem Task.markAgain_xunit (t : Task) (f : PendWrite → PendWrite) : (t.markAgain f).xunit = t.xunit := rfl
@[simp] theorem Task.markAgain_xhnd (t : Task) (f : PendWrite → PendWrite) : (t.markAgain f).xhnd = t.xhnd := rfl
@[simp] theorem Task.markAgain_hlanes (t : Task) (f : PendWrite → PendWrite) : (t.markAgain f).hlanes = t.hlanes := rfl
@[simp] theorem Task.markAgain_v (t : Task) (f : PendWrite → PendWrite) : (t.markAgain f).v = t.v := rfl
@[simp] theorem Task.markAgain_u (t : Task) (f : PendWrite → PendWrite) : (t.markAgain f).u = t.u := rfl
@[simp] theorem Task.markAgain_p (t : Task) (f : PendWrite → PendWrite) : (t.markAgain f).p = t.p := rfl
@[simp] theorem Task.markAgain_q (t : Task) (f : PendWrite → PendWrite) : (t.markAgain f).q = t.q := rfl
@[simp] theorem Task.markAgain_acc (t : Task) (f : PendWrite → PendWrite) : (t.markAgain f).acc = t.acc := rfl
@[simp] theorem Task.markAgain_joins (t : Task) (f : PendWrite → PendWrite) : (t.markAgain f).joins = t.joins := rfl
@[simp] theorem Task.markAgain_pjoins (t : Task) (f : PendWrite → PendWrite) : (t.markAgain f).pjoins = t.pjoins := rfl
@[simp] theorem Task.markAgain_splits (t : Task) (f : PendWrite → PendWrite) : (t.markAgain f).splits = t.splits := rfl
@[simp] theorem Task.markAgain_stack (t : Task) (f : PendWrite → PendWrite) : (t.markAgain f).stack = t.stack := rfl
@[simp] theorem Task.markAgain_cf (t : Task) (f : PendWrite → PendWrite) : (t.markAgain f).cf = t.cf := rfl
@[simp] theorem Task.markAgain_cfPrev (t : Task) (f : PendWrite → PendWrite) : (t.markAgain f).cfPrev = t.cfPrev := rfl
@[simp] theorem Task.markAgain_mtile (t : Task) (f : PendWrite → PendWrite) : (t.markAgain f).mtile = t.mtile := rfl
@[simp] theorem Task.markAgain_state (t : Task) (f : PendWrite → PendWrite) : (t.markAgain f).state = t.state := rfl
@[simp] theorem Task.markAgain_fetches (t : Task) (f : PendWrite → PendWrite) : (t.markAgain f).fetches = t.fetches := rfl
@[simp] theorem Task.markAgain_tileDone (t : Task) (f : PendWrite → PendWrite) : (t.markAgain f).tileDone = t.tileDone := rfl
@[simp] theorem Task.markAgain_seen (t : Task) (f : PendWrite → PendWrite) : (t.markAgain f).seen = t.seen := rfl
@[simp] theorem Task.markAgain_seenMore (t : Task) (f : PendWrite → PendWrite) : (t.markAgain f).seenMore = t.seenMore := rfl
@[simp] theorem Task.markAgain_window (t : Task) (f : PendWrite → PendWrite) : (t.markAgain f).window = t.window := rfl
@[simp] theorem Task.markAgain_wdog (t : Task) (f : PendWrite → PendWrite) : (t.markAgain f).wdog = t.wdog := rfl
@[simp] theorem Task.markAgain_progressed (t : Task) (f : PendWrite → PendWrite) : (t.markAgain f).progressed = t.progressed := rfl
@[simp] theorem Task.markAgain_committed (t : Task) (f : PendWrite → PendWrite) : (t.markAgain f).committed = t.committed := rfl
@[simp] theorem Task.markAgain_fromResume (t : Task) (f : PendWrite → PendWrite) : (t.markAgain f).fromResume = t.fromResume := rfl
@[simp] theorem Task.markAgain_ending (t : Task) (f : PendWrite → PendWrite) : (t.markAgain f).ending = t.ending := rfl
@[simp] theorem Task.markAgain_endValue (t : Task) (f : PendWrite → PendWrite) : (t.markAgain f).endValue = t.endValue := rfl
@[simp] theorem Task.markAgain_departed (t : Task) (f : PendWrite → PendWrite) : (t.markAgain f).departed = t.departed := rfl
@[simp] theorem Task.markAgain_waitSince (t : Task) (f : PendWrite → PendWrite) : (t.markAgain f).waitSince = t.waitSince := rfl
@[simp] theorem Task.markAgain_settled (t : Task) (f : PendWrite → PendWrite) : (t.markAgain f).settled = t.settled := rfl
@[simp] theorem Task.markAgain_mergedAt (t : Task) (f : PendWrite → PendWrite) : (t.markAgain f).mergedAt = t.mergedAt := rfl
@[simp] theorem Task.markAgain_parkOn (t : Task) (f : PendWrite → PendWrite) : (t.markAgain f).parkOn = t.parkOn := rfl
@[simp] theorem Task.markAgain_free (t : Task) (f : PendWrite → PendWrite) : (t.markAgain f).free = t.free := rfl

/-! ### Task.writeV -/

@[simp] theorem Task.writeV_ctx (t : Task) (r : Nat) (k : Mask) (x : VReg) : (t.writeV r k x).ctx = t.ctx := rfl
@[simp] theorem Task.writeV_core (t : Task) (r : Nat) (k : Mask) (x : VReg) : (t.writeV r k x).core = t.core := rfl
@[simp] theorem Task.writeV_part (t : Task) (r : Nat) (k : Mask) (x : VReg) : (t.writeV r k x).part = t.part := rfl
@[simp] theorem Task.writeV_slot (t : Task) (r : Nat) (k : Mask) (x : VReg) : (t.writeV r k x).slot = t.slot := rfl
@[simp] theorem Task.writeV_team (t : Task) (r : Nat) (k : Mask) (x : VReg) : (t.writeV r k x).team = t.team := rfl
@[simp] theorem Task.writeV_idx (t : Task) (r : Nat) (k : Mask) (x : VReg) : (t.writeV r k x).idx = t.idx := rfl
@[simp] theorem Task.writeV_sizeM1 (t : Task) (r : Nat) (k : Mask) (x : VReg) : (t.writeV r k x).sizeM1 = t.sizeM1 := rfl
@[simp] theorem Task.writeV_vblk (t : Task) (r : Nat) (k : Mask) (x : VReg) : (t.writeV r k x).vblk = t.vblk := rfl
@[simp] theorem Task.writeV_sblk (t : Task) (r : Nat) (k : Mask) (x : VReg) : (t.writeV r k x).sblk = t.sblk := rfl
@[simp] theorem Task.writeV_ablk (t : Task) (r : Nat) (k : Mask) (x : VReg) : (t.writeV r k x).ablk = t.ablk := rfl
@[simp] theorem Task.writeV_acore (t : Task) (r : Nat) (k : Mask) (x : VReg) : (t.writeV r k x).acore = t.acore := rfl
@[simp] theorem Task.writeV_tiles (t : Task) (r : Nat) (k : Mask) (x : VReg) : (t.writeV r k x).tiles = t.tiles := rfl
@[simp] theorem Task.writeV_prio (t : Task) (r : Nat) (k : Mask) (x : VReg) : (t.writeV r k x).prio = t.prio := rfl
@[simp] theorem Task.writeV_lanekill (t : Task) (r : Nat) (k : Mask) (x : VReg) : (t.writeV r k x).lanekill = t.lanekill := rfl
@[simp] theorem Task.writeV_idem (t : Task) (r : Nat) (k : Mask) (x : VReg) : (t.writeV r k x).idem = t.idem := rfl
@[simp] theorem Task.writeV_entry (t : Task) (r : Nat) (k : Mask) (x : VReg) : (t.writeV r k x).entry = t.entry := rfl
@[simp] theorem Task.writeV_supervisor (t : Task) (r : Nat) (k : Mask) (x : VReg) : (t.writeV r k x).supervisor = t.supervisor := rfl
@[simp] theorem Task.writeV_onComplex (t : Task) (r : Nat) (k : Mask) (x : VReg) : (t.writeV r k x).onComplex = t.onComplex := rfl
@[simp] theorem Task.writeV_xtask (t : Task) (r : Nat) (k : Mask) (x : VReg) : (t.writeV r k x).xtask = t.xtask := rfl
@[simp] theorem Task.writeV_xdead (t : Task) (r : Nat) (k : Mask) (x : VReg) : (t.writeV r k x).xdead = t.xdead := rfl
@[simp] theorem Task.writeV_exited (t : Task) (r : Nat) (k : Mask) (x : VReg) : (t.writeV r k x).exited = t.exited := rfl
@[simp] theorem Task.writeV_xtile (t : Task) (r : Nat) (k : Mask) (x : VReg) : (t.writeV r k x).xtile = t.xtile := rfl
@[simp] theorem Task.writeV_xtagB (t : Task) (r : Nat) (k : Mask) (x : VReg) : (t.writeV r k x).xtagB = t.xtagB := rfl
@[simp] theorem Task.writeV_xepc (t : Task) (r : Nat) (k : Mask) (x : VReg) : (t.writeV r k x).xepc = t.xepc := rfl
@[simp] theorem Task.writeV_xcause (t : Task) (r : Nat) (k : Mask) (x : VReg) : (t.writeV r k x).xcause = t.xcause := rfl
@[simp] theorem Task.writeV_xsyn (t : Task) (r : Nat) (k : Mask) (x : VReg) : (t.writeV r k x).xsyn = t.xsyn := rfl
@[simp] theorem Task.writeV_xaddr (t : Task) (r : Nat) (k : Mask) (x : VReg) : (t.writeV r k x).xaddr = t.xaddr := rfl
@[simp] theorem Task.writeV_xunit (t : Task) (r : Nat) (k : Mask) (x : VReg) : (t.writeV r k x).xunit = t.xunit := rfl
@[simp] theorem Task.writeV_xhnd (t : Task) (r : Nat) (k : Mask) (x : VReg) : (t.writeV r k x).xhnd = t.xhnd := rfl
@[simp] theorem Task.writeV_hlanes (t : Task) (r : Nat) (k : Mask) (x : VReg) : (t.writeV r k x).hlanes = t.hlanes := rfl
@[simp] theorem Task.writeV_u (t : Task) (r : Nat) (k : Mask) (x : VReg) : (t.writeV r k x).u = t.u := rfl
@[simp] theorem Task.writeV_p (t : Task) (r : Nat) (k : Mask) (x : VReg) : (t.writeV r k x).p = t.p := rfl
@[simp] theorem Task.writeV_q (t : Task) (r : Nat) (k : Mask) (x : VReg) : (t.writeV r k x).q = t.q := rfl
@[simp] theorem Task.writeV_acc (t : Task) (r : Nat) (k : Mask) (x : VReg) : (t.writeV r k x).acc = t.acc := rfl
@[simp] theorem Task.writeV_joins (t : Task) (r : Nat) (k : Mask) (x : VReg) : (t.writeV r k x).joins = t.joins := rfl
@[simp] theorem Task.writeV_pjoins (t : Task) (r : Nat) (k : Mask) (x : VReg) : (t.writeV r k x).pjoins = t.pjoins := rfl
@[simp] theorem Task.writeV_splits (t : Task) (r : Nat) (k : Mask) (x : VReg) : (t.writeV r k x).splits = t.splits := rfl
@[simp] theorem Task.writeV_stack (t : Task) (r : Nat) (k : Mask) (x : VReg) : (t.writeV r k x).stack = t.stack := rfl
@[simp] theorem Task.writeV_cf (t : Task) (r : Nat) (k : Mask) (x : VReg) : (t.writeV r k x).cf = t.cf := rfl
@[simp] theorem Task.writeV_cfPrev (t : Task) (r : Nat) (k : Mask) (x : VReg) : (t.writeV r k x).cfPrev = t.cfPrev := rfl
@[simp] theorem Task.writeV_mtile (t : Task) (r : Nat) (k : Mask) (x : VReg) : (t.writeV r k x).mtile = t.mtile := rfl
@[simp] theorem Task.writeV_state (t : Task) (r : Nat) (k : Mask) (x : VReg) : (t.writeV r k x).state = t.state := rfl
@[simp] theorem Task.writeV_fetches (t : Task) (r : Nat) (k : Mask) (x : VReg) : (t.writeV r k x).fetches = t.fetches := rfl
@[simp] theorem Task.writeV_tileDone (t : Task) (r : Nat) (k : Mask) (x : VReg) : (t.writeV r k x).tileDone = t.tileDone := rfl
@[simp] theorem Task.writeV_seen (t : Task) (r : Nat) (k : Mask) (x : VReg) : (t.writeV r k x).seen = t.seen := rfl
@[simp] theorem Task.writeV_seenMore (t : Task) (r : Nat) (k : Mask) (x : VReg) : (t.writeV r k x).seenMore = t.seenMore := rfl
@[simp] theorem Task.writeV_window (t : Task) (r : Nat) (k : Mask) (x : VReg) : (t.writeV r k x).window = t.window := rfl
@[simp] theorem Task.writeV_wdog (t : Task) (r : Nat) (k : Mask) (x : VReg) : (t.writeV r k x).wdog = t.wdog := rfl
@[simp] theorem Task.writeV_progressed (t : Task) (r : Nat) (k : Mask) (x : VReg) : (t.writeV r k x).progressed = t.progressed := rfl
@[simp] theorem Task.writeV_committed (t : Task) (r : Nat) (k : Mask) (x : VReg) : (t.writeV r k x).committed = t.committed := rfl
@[simp] theorem Task.writeV_fromResume (t : Task) (r : Nat) (k : Mask) (x : VReg) : (t.writeV r k x).fromResume = t.fromResume := rfl
@[simp] theorem Task.writeV_ending (t : Task) (r : Nat) (k : Mask) (x : VReg) : (t.writeV r k x).ending = t.ending := rfl
@[simp] theorem Task.writeV_endValue (t : Task) (r : Nat) (k : Mask) (x : VReg) : (t.writeV r k x).endValue = t.endValue := rfl
@[simp] theorem Task.writeV_departed (t : Task) (r : Nat) (k : Mask) (x : VReg) : (t.writeV r k x).departed = t.departed := rfl
@[simp] theorem Task.writeV_waitSince (t : Task) (r : Nat) (k : Mask) (x : VReg) : (t.writeV r k x).waitSince = t.waitSince := rfl
@[simp] theorem Task.writeV_settled (t : Task) (r : Nat) (k : Mask) (x : VReg) : (t.writeV r k x).settled = t.settled := rfl
@[simp] theorem Task.writeV_mergedAt (t : Task) (r : Nat) (k : Mask) (x : VReg) : (t.writeV r k x).mergedAt = t.mergedAt := rfl
@[simp] theorem Task.writeV_parkOn (t : Task) (r : Nat) (k : Mask) (x : VReg) : (t.writeV r k x).parkOn = t.parkOn := rfl
@[simp] theorem Task.writeV_free (t : Task) (r : Nat) (k : Mask) (x : VReg) : (t.writeV r k x).free = t.free := rfl
@[simp] theorem Task.writeV_v (t : Task) (r : Nat) (k : Mask) (x : VReg) : (t.writeV r k x).v = tabSet t.v r (VReg.merge k x (t.vRaw r)) := rfl

/-! ### Task.writeU -/

@[simp] theorem Task.writeU_ctx (t : Task) (r : Nat) (x : UReg) : (t.writeU r x).ctx = t.ctx := rfl
@[simp] theorem Task.writeU_core (t : Task) (r : Nat) (x : UReg) : (t.writeU r x).core = t.core := rfl
@[simp] theorem Task.writeU_part (t : Task) (r : Nat) (x : UReg) : (t.writeU r x).part = t.part := rfl
@[simp] theorem Task.writeU_slot (t : Task) (r : Nat) (x : UReg) : (t.writeU r x).slot = t.slot := rfl
@[simp] theorem Task.writeU_team (t : Task) (r : Nat) (x : UReg) : (t.writeU r x).team = t.team := rfl
@[simp] theorem Task.writeU_idx (t : Task) (r : Nat) (x : UReg) : (t.writeU r x).idx = t.idx := rfl
@[simp] theorem Task.writeU_sizeM1 (t : Task) (r : Nat) (x : UReg) : (t.writeU r x).sizeM1 = t.sizeM1 := rfl
@[simp] theorem Task.writeU_vblk (t : Task) (r : Nat) (x : UReg) : (t.writeU r x).vblk = t.vblk := rfl
@[simp] theorem Task.writeU_sblk (t : Task) (r : Nat) (x : UReg) : (t.writeU r x).sblk = t.sblk := rfl
@[simp] theorem Task.writeU_ablk (t : Task) (r : Nat) (x : UReg) : (t.writeU r x).ablk = t.ablk := rfl
@[simp] theorem Task.writeU_acore (t : Task) (r : Nat) (x : UReg) : (t.writeU r x).acore = t.acore := rfl
@[simp] theorem Task.writeU_tiles (t : Task) (r : Nat) (x : UReg) : (t.writeU r x).tiles = t.tiles := rfl
@[simp] theorem Task.writeU_prio (t : Task) (r : Nat) (x : UReg) : (t.writeU r x).prio = t.prio := rfl
@[simp] theorem Task.writeU_lanekill (t : Task) (r : Nat) (x : UReg) : (t.writeU r x).lanekill = t.lanekill := rfl
@[simp] theorem Task.writeU_idem (t : Task) (r : Nat) (x : UReg) : (t.writeU r x).idem = t.idem := rfl
@[simp] theorem Task.writeU_entry (t : Task) (r : Nat) (x : UReg) : (t.writeU r x).entry = t.entry := rfl
@[simp] theorem Task.writeU_supervisor (t : Task) (r : Nat) (x : UReg) : (t.writeU r x).supervisor = t.supervisor := rfl
@[simp] theorem Task.writeU_onComplex (t : Task) (r : Nat) (x : UReg) : (t.writeU r x).onComplex = t.onComplex := rfl
@[simp] theorem Task.writeU_xtask (t : Task) (r : Nat) (x : UReg) : (t.writeU r x).xtask = t.xtask := rfl
@[simp] theorem Task.writeU_xdead (t : Task) (r : Nat) (x : UReg) : (t.writeU r x).xdead = t.xdead := rfl
@[simp] theorem Task.writeU_exited (t : Task) (r : Nat) (x : UReg) : (t.writeU r x).exited = t.exited := rfl
@[simp] theorem Task.writeU_xtile (t : Task) (r : Nat) (x : UReg) : (t.writeU r x).xtile = t.xtile := rfl
@[simp] theorem Task.writeU_xtagB (t : Task) (r : Nat) (x : UReg) : (t.writeU r x).xtagB = t.xtagB := rfl
@[simp] theorem Task.writeU_xepc (t : Task) (r : Nat) (x : UReg) : (t.writeU r x).xepc = t.xepc := rfl
@[simp] theorem Task.writeU_xcause (t : Task) (r : Nat) (x : UReg) : (t.writeU r x).xcause = t.xcause := rfl
@[simp] theorem Task.writeU_xsyn (t : Task) (r : Nat) (x : UReg) : (t.writeU r x).xsyn = t.xsyn := rfl
@[simp] theorem Task.writeU_xaddr (t : Task) (r : Nat) (x : UReg) : (t.writeU r x).xaddr = t.xaddr := rfl
@[simp] theorem Task.writeU_xunit (t : Task) (r : Nat) (x : UReg) : (t.writeU r x).xunit = t.xunit := rfl
@[simp] theorem Task.writeU_xhnd (t : Task) (r : Nat) (x : UReg) : (t.writeU r x).xhnd = t.xhnd := rfl
@[simp] theorem Task.writeU_hlanes (t : Task) (r : Nat) (x : UReg) : (t.writeU r x).hlanes = t.hlanes := rfl
@[simp] theorem Task.writeU_v (t : Task) (r : Nat) (x : UReg) : (t.writeU r x).v = t.v := rfl
@[simp] theorem Task.writeU_p (t : Task) (r : Nat) (x : UReg) : (t.writeU r x).p = t.p := rfl
@[simp] theorem Task.writeU_q (t : Task) (r : Nat) (x : UReg) : (t.writeU r x).q = t.q := rfl
@[simp] theorem Task.writeU_acc (t : Task) (r : Nat) (x : UReg) : (t.writeU r x).acc = t.acc := rfl
@[simp] theorem Task.writeU_joins (t : Task) (r : Nat) (x : UReg) : (t.writeU r x).joins = t.joins := rfl
@[simp] theorem Task.writeU_pjoins (t : Task) (r : Nat) (x : UReg) : (t.writeU r x).pjoins = t.pjoins := rfl
@[simp] theorem Task.writeU_splits (t : Task) (r : Nat) (x : UReg) : (t.writeU r x).splits = t.splits := rfl
@[simp] theorem Task.writeU_stack (t : Task) (r : Nat) (x : UReg) : (t.writeU r x).stack = t.stack := rfl
@[simp] theorem Task.writeU_cf (t : Task) (r : Nat) (x : UReg) : (t.writeU r x).cf = t.cf := rfl
@[simp] theorem Task.writeU_cfPrev (t : Task) (r : Nat) (x : UReg) : (t.writeU r x).cfPrev = t.cfPrev := rfl
@[simp] theorem Task.writeU_mtile (t : Task) (r : Nat) (x : UReg) : (t.writeU r x).mtile = t.mtile := rfl
@[simp] theorem Task.writeU_state (t : Task) (r : Nat) (x : UReg) : (t.writeU r x).state = t.state := rfl
@[simp] theorem Task.writeU_fetches (t : Task) (r : Nat) (x : UReg) : (t.writeU r x).fetches = t.fetches := rfl
@[simp] theorem Task.writeU_tileDone (t : Task) (r : Nat) (x : UReg) : (t.writeU r x).tileDone = t.tileDone := rfl
@[simp] theorem Task.writeU_seen (t : Task) (r : Nat) (x : UReg) : (t.writeU r x).seen = t.seen := rfl
@[simp] theorem Task.writeU_seenMore (t : Task) (r : Nat) (x : UReg) : (t.writeU r x).seenMore = t.seenMore := rfl
@[simp] theorem Task.writeU_window (t : Task) (r : Nat) (x : UReg) : (t.writeU r x).window = t.window := rfl
@[simp] theorem Task.writeU_wdog (t : Task) (r : Nat) (x : UReg) : (t.writeU r x).wdog = t.wdog := rfl
@[simp] theorem Task.writeU_progressed (t : Task) (r : Nat) (x : UReg) : (t.writeU r x).progressed = t.progressed := rfl
@[simp] theorem Task.writeU_committed (t : Task) (r : Nat) (x : UReg) : (t.writeU r x).committed = t.committed := rfl
@[simp] theorem Task.writeU_fromResume (t : Task) (r : Nat) (x : UReg) : (t.writeU r x).fromResume = t.fromResume := rfl
@[simp] theorem Task.writeU_ending (t : Task) (r : Nat) (x : UReg) : (t.writeU r x).ending = t.ending := rfl
@[simp] theorem Task.writeU_endValue (t : Task) (r : Nat) (x : UReg) : (t.writeU r x).endValue = t.endValue := rfl
@[simp] theorem Task.writeU_departed (t : Task) (r : Nat) (x : UReg) : (t.writeU r x).departed = t.departed := rfl
@[simp] theorem Task.writeU_waitSince (t : Task) (r : Nat) (x : UReg) : (t.writeU r x).waitSince = t.waitSince := rfl
@[simp] theorem Task.writeU_settled (t : Task) (r : Nat) (x : UReg) : (t.writeU r x).settled = t.settled := rfl
@[simp] theorem Task.writeU_mergedAt (t : Task) (r : Nat) (x : UReg) : (t.writeU r x).mergedAt = t.mergedAt := rfl
@[simp] theorem Task.writeU_parkOn (t : Task) (r : Nat) (x : UReg) : (t.writeU r x).parkOn = t.parkOn := rfl
@[simp] theorem Task.writeU_free (t : Task) (r : Nat) (x : UReg) : (t.writeU r x).free = t.free := rfl
@[simp] theorem Task.writeU_u (t : Task) (r : Nat) (x : UReg) : (t.writeU r x).u = tabSet t.u r x := rfl

/-! ### Task.writeP -/

@[simp] theorem Task.writeP_ctx (t : Task) (r : Nat) (k : Mask) (x : PReg) : (t.writeP r k x).ctx = t.ctx := rfl
@[simp] theorem Task.writeP_core (t : Task) (r : Nat) (k : Mask) (x : PReg) : (t.writeP r k x).core = t.core := rfl
@[simp] theorem Task.writeP_part (t : Task) (r : Nat) (k : Mask) (x : PReg) : (t.writeP r k x).part = t.part := rfl
@[simp] theorem Task.writeP_slot (t : Task) (r : Nat) (k : Mask) (x : PReg) : (t.writeP r k x).slot = t.slot := rfl
@[simp] theorem Task.writeP_team (t : Task) (r : Nat) (k : Mask) (x : PReg) : (t.writeP r k x).team = t.team := rfl
@[simp] theorem Task.writeP_idx (t : Task) (r : Nat) (k : Mask) (x : PReg) : (t.writeP r k x).idx = t.idx := rfl
@[simp] theorem Task.writeP_sizeM1 (t : Task) (r : Nat) (k : Mask) (x : PReg) : (t.writeP r k x).sizeM1 = t.sizeM1 := rfl
@[simp] theorem Task.writeP_vblk (t : Task) (r : Nat) (k : Mask) (x : PReg) : (t.writeP r k x).vblk = t.vblk := rfl
@[simp] theorem Task.writeP_sblk (t : Task) (r : Nat) (k : Mask) (x : PReg) : (t.writeP r k x).sblk = t.sblk := rfl
@[simp] theorem Task.writeP_ablk (t : Task) (r : Nat) (k : Mask) (x : PReg) : (t.writeP r k x).ablk = t.ablk := rfl
@[simp] theorem Task.writeP_acore (t : Task) (r : Nat) (k : Mask) (x : PReg) : (t.writeP r k x).acore = t.acore := rfl
@[simp] theorem Task.writeP_tiles (t : Task) (r : Nat) (k : Mask) (x : PReg) : (t.writeP r k x).tiles = t.tiles := rfl
@[simp] theorem Task.writeP_prio (t : Task) (r : Nat) (k : Mask) (x : PReg) : (t.writeP r k x).prio = t.prio := rfl
@[simp] theorem Task.writeP_lanekill (t : Task) (r : Nat) (k : Mask) (x : PReg) : (t.writeP r k x).lanekill = t.lanekill := rfl
@[simp] theorem Task.writeP_idem (t : Task) (r : Nat) (k : Mask) (x : PReg) : (t.writeP r k x).idem = t.idem := rfl
@[simp] theorem Task.writeP_entry (t : Task) (r : Nat) (k : Mask) (x : PReg) : (t.writeP r k x).entry = t.entry := rfl
@[simp] theorem Task.writeP_supervisor (t : Task) (r : Nat) (k : Mask) (x : PReg) : (t.writeP r k x).supervisor = t.supervisor := rfl
@[simp] theorem Task.writeP_onComplex (t : Task) (r : Nat) (k : Mask) (x : PReg) : (t.writeP r k x).onComplex = t.onComplex := rfl
@[simp] theorem Task.writeP_xtask (t : Task) (r : Nat) (k : Mask) (x : PReg) : (t.writeP r k x).xtask = t.xtask := rfl
@[simp] theorem Task.writeP_xdead (t : Task) (r : Nat) (k : Mask) (x : PReg) : (t.writeP r k x).xdead = t.xdead := rfl
@[simp] theorem Task.writeP_exited (t : Task) (r : Nat) (k : Mask) (x : PReg) : (t.writeP r k x).exited = t.exited := rfl
@[simp] theorem Task.writeP_xtile (t : Task) (r : Nat) (k : Mask) (x : PReg) : (t.writeP r k x).xtile = t.xtile := rfl
@[simp] theorem Task.writeP_xtagB (t : Task) (r : Nat) (k : Mask) (x : PReg) : (t.writeP r k x).xtagB = t.xtagB := rfl
@[simp] theorem Task.writeP_xepc (t : Task) (r : Nat) (k : Mask) (x : PReg) : (t.writeP r k x).xepc = t.xepc := rfl
@[simp] theorem Task.writeP_xcause (t : Task) (r : Nat) (k : Mask) (x : PReg) : (t.writeP r k x).xcause = t.xcause := rfl
@[simp] theorem Task.writeP_xsyn (t : Task) (r : Nat) (k : Mask) (x : PReg) : (t.writeP r k x).xsyn = t.xsyn := rfl
@[simp] theorem Task.writeP_xaddr (t : Task) (r : Nat) (k : Mask) (x : PReg) : (t.writeP r k x).xaddr = t.xaddr := rfl
@[simp] theorem Task.writeP_xunit (t : Task) (r : Nat) (k : Mask) (x : PReg) : (t.writeP r k x).xunit = t.xunit := rfl
@[simp] theorem Task.writeP_xhnd (t : Task) (r : Nat) (k : Mask) (x : PReg) : (t.writeP r k x).xhnd = t.xhnd := rfl
@[simp] theorem Task.writeP_hlanes (t : Task) (r : Nat) (k : Mask) (x : PReg) : (t.writeP r k x).hlanes = t.hlanes := rfl
@[simp] theorem Task.writeP_v (t : Task) (r : Nat) (k : Mask) (x : PReg) : (t.writeP r k x).v = t.v := rfl
@[simp] theorem Task.writeP_u (t : Task) (r : Nat) (k : Mask) (x : PReg) : (t.writeP r k x).u = t.u := rfl
@[simp] theorem Task.writeP_q (t : Task) (r : Nat) (k : Mask) (x : PReg) : (t.writeP r k x).q = t.q := rfl
@[simp] theorem Task.writeP_acc (t : Task) (r : Nat) (k : Mask) (x : PReg) : (t.writeP r k x).acc = t.acc := rfl
@[simp] theorem Task.writeP_joins (t : Task) (r : Nat) (k : Mask) (x : PReg) : (t.writeP r k x).joins = t.joins := rfl
@[simp] theorem Task.writeP_pjoins (t : Task) (r : Nat) (k : Mask) (x : PReg) : (t.writeP r k x).pjoins = t.pjoins := rfl
@[simp] theorem Task.writeP_splits (t : Task) (r : Nat) (k : Mask) (x : PReg) : (t.writeP r k x).splits = t.splits := rfl
@[simp] theorem Task.writeP_stack (t : Task) (r : Nat) (k : Mask) (x : PReg) : (t.writeP r k x).stack = t.stack := rfl
@[simp] theorem Task.writeP_cf (t : Task) (r : Nat) (k : Mask) (x : PReg) : (t.writeP r k x).cf = t.cf := rfl
@[simp] theorem Task.writeP_cfPrev (t : Task) (r : Nat) (k : Mask) (x : PReg) : (t.writeP r k x).cfPrev = t.cfPrev := rfl
@[simp] theorem Task.writeP_mtile (t : Task) (r : Nat) (k : Mask) (x : PReg) : (t.writeP r k x).mtile = t.mtile := rfl
@[simp] theorem Task.writeP_state (t : Task) (r : Nat) (k : Mask) (x : PReg) : (t.writeP r k x).state = t.state := rfl
@[simp] theorem Task.writeP_fetches (t : Task) (r : Nat) (k : Mask) (x : PReg) : (t.writeP r k x).fetches = t.fetches := rfl
@[simp] theorem Task.writeP_tileDone (t : Task) (r : Nat) (k : Mask) (x : PReg) : (t.writeP r k x).tileDone = t.tileDone := rfl
@[simp] theorem Task.writeP_seen (t : Task) (r : Nat) (k : Mask) (x : PReg) : (t.writeP r k x).seen = t.seen := rfl
@[simp] theorem Task.writeP_seenMore (t : Task) (r : Nat) (k : Mask) (x : PReg) : (t.writeP r k x).seenMore = t.seenMore := rfl
@[simp] theorem Task.writeP_window (t : Task) (r : Nat) (k : Mask) (x : PReg) : (t.writeP r k x).window = t.window := rfl
@[simp] theorem Task.writeP_wdog (t : Task) (r : Nat) (k : Mask) (x : PReg) : (t.writeP r k x).wdog = t.wdog := rfl
@[simp] theorem Task.writeP_progressed (t : Task) (r : Nat) (k : Mask) (x : PReg) : (t.writeP r k x).progressed = t.progressed := rfl
@[simp] theorem Task.writeP_committed (t : Task) (r : Nat) (k : Mask) (x : PReg) : (t.writeP r k x).committed = t.committed := rfl
@[simp] theorem Task.writeP_fromResume (t : Task) (r : Nat) (k : Mask) (x : PReg) : (t.writeP r k x).fromResume = t.fromResume := rfl
@[simp] theorem Task.writeP_ending (t : Task) (r : Nat) (k : Mask) (x : PReg) : (t.writeP r k x).ending = t.ending := rfl
@[simp] theorem Task.writeP_endValue (t : Task) (r : Nat) (k : Mask) (x : PReg) : (t.writeP r k x).endValue = t.endValue := rfl
@[simp] theorem Task.writeP_departed (t : Task) (r : Nat) (k : Mask) (x : PReg) : (t.writeP r k x).departed = t.departed := rfl
@[simp] theorem Task.writeP_waitSince (t : Task) (r : Nat) (k : Mask) (x : PReg) : (t.writeP r k x).waitSince = t.waitSince := rfl
@[simp] theorem Task.writeP_settled (t : Task) (r : Nat) (k : Mask) (x : PReg) : (t.writeP r k x).settled = t.settled := rfl
@[simp] theorem Task.writeP_mergedAt (t : Task) (r : Nat) (k : Mask) (x : PReg) : (t.writeP r k x).mergedAt = t.mergedAt := rfl
@[simp] theorem Task.writeP_parkOn (t : Task) (r : Nat) (k : Mask) (x : PReg) : (t.writeP r k x).parkOn = t.parkOn := rfl
@[simp] theorem Task.writeP_free (t : Task) (r : Nat) (k : Mask) (x : PReg) : (t.writeP r k x).free = t.free := rfl
@[simp] theorem Task.writeP_p (t : Task) (r : Nat) (k : Mask) (x : PReg) : (t.writeP r k x).p = tabSet t.p r (PReg.merge k x (t.pRaw r)) := rfl

/-! ### Task.writeQ -/

@[simp] theorem Task.writeQ_ctx (t : Task) (r : Nat) (k : BitVec 16) (x : QReg) : (t.writeQ r k x).ctx = t.ctx := rfl
@[simp] theorem Task.writeQ_core (t : Task) (r : Nat) (k : BitVec 16) (x : QReg) : (t.writeQ r k x).core = t.core := rfl
@[simp] theorem Task.writeQ_part (t : Task) (r : Nat) (k : BitVec 16) (x : QReg) : (t.writeQ r k x).part = t.part := rfl
@[simp] theorem Task.writeQ_slot (t : Task) (r : Nat) (k : BitVec 16) (x : QReg) : (t.writeQ r k x).slot = t.slot := rfl
@[simp] theorem Task.writeQ_team (t : Task) (r : Nat) (k : BitVec 16) (x : QReg) : (t.writeQ r k x).team = t.team := rfl
@[simp] theorem Task.writeQ_idx (t : Task) (r : Nat) (k : BitVec 16) (x : QReg) : (t.writeQ r k x).idx = t.idx := rfl
@[simp] theorem Task.writeQ_sizeM1 (t : Task) (r : Nat) (k : BitVec 16) (x : QReg) : (t.writeQ r k x).sizeM1 = t.sizeM1 := rfl
@[simp] theorem Task.writeQ_vblk (t : Task) (r : Nat) (k : BitVec 16) (x : QReg) : (t.writeQ r k x).vblk = t.vblk := rfl
@[simp] theorem Task.writeQ_sblk (t : Task) (r : Nat) (k : BitVec 16) (x : QReg) : (t.writeQ r k x).sblk = t.sblk := rfl
@[simp] theorem Task.writeQ_ablk (t : Task) (r : Nat) (k : BitVec 16) (x : QReg) : (t.writeQ r k x).ablk = t.ablk := rfl
@[simp] theorem Task.writeQ_acore (t : Task) (r : Nat) (k : BitVec 16) (x : QReg) : (t.writeQ r k x).acore = t.acore := rfl
@[simp] theorem Task.writeQ_tiles (t : Task) (r : Nat) (k : BitVec 16) (x : QReg) : (t.writeQ r k x).tiles = t.tiles := rfl
@[simp] theorem Task.writeQ_prio (t : Task) (r : Nat) (k : BitVec 16) (x : QReg) : (t.writeQ r k x).prio = t.prio := rfl
@[simp] theorem Task.writeQ_lanekill (t : Task) (r : Nat) (k : BitVec 16) (x : QReg) : (t.writeQ r k x).lanekill = t.lanekill := rfl
@[simp] theorem Task.writeQ_idem (t : Task) (r : Nat) (k : BitVec 16) (x : QReg) : (t.writeQ r k x).idem = t.idem := rfl
@[simp] theorem Task.writeQ_entry (t : Task) (r : Nat) (k : BitVec 16) (x : QReg) : (t.writeQ r k x).entry = t.entry := rfl
@[simp] theorem Task.writeQ_supervisor (t : Task) (r : Nat) (k : BitVec 16) (x : QReg) : (t.writeQ r k x).supervisor = t.supervisor := rfl
@[simp] theorem Task.writeQ_onComplex (t : Task) (r : Nat) (k : BitVec 16) (x : QReg) : (t.writeQ r k x).onComplex = t.onComplex := rfl
@[simp] theorem Task.writeQ_xtask (t : Task) (r : Nat) (k : BitVec 16) (x : QReg) : (t.writeQ r k x).xtask = t.xtask := rfl
@[simp] theorem Task.writeQ_xdead (t : Task) (r : Nat) (k : BitVec 16) (x : QReg) : (t.writeQ r k x).xdead = t.xdead := rfl
@[simp] theorem Task.writeQ_exited (t : Task) (r : Nat) (k : BitVec 16) (x : QReg) : (t.writeQ r k x).exited = t.exited := rfl
@[simp] theorem Task.writeQ_xtile (t : Task) (r : Nat) (k : BitVec 16) (x : QReg) : (t.writeQ r k x).xtile = t.xtile := rfl
@[simp] theorem Task.writeQ_xtagB (t : Task) (r : Nat) (k : BitVec 16) (x : QReg) : (t.writeQ r k x).xtagB = t.xtagB := rfl
@[simp] theorem Task.writeQ_xepc (t : Task) (r : Nat) (k : BitVec 16) (x : QReg) : (t.writeQ r k x).xepc = t.xepc := rfl
@[simp] theorem Task.writeQ_xcause (t : Task) (r : Nat) (k : BitVec 16) (x : QReg) : (t.writeQ r k x).xcause = t.xcause := rfl
@[simp] theorem Task.writeQ_xsyn (t : Task) (r : Nat) (k : BitVec 16) (x : QReg) : (t.writeQ r k x).xsyn = t.xsyn := rfl
@[simp] theorem Task.writeQ_xaddr (t : Task) (r : Nat) (k : BitVec 16) (x : QReg) : (t.writeQ r k x).xaddr = t.xaddr := rfl
@[simp] theorem Task.writeQ_xunit (t : Task) (r : Nat) (k : BitVec 16) (x : QReg) : (t.writeQ r k x).xunit = t.xunit := rfl
@[simp] theorem Task.writeQ_xhnd (t : Task) (r : Nat) (k : BitVec 16) (x : QReg) : (t.writeQ r k x).xhnd = t.xhnd := rfl
@[simp] theorem Task.writeQ_hlanes (t : Task) (r : Nat) (k : BitVec 16) (x : QReg) : (t.writeQ r k x).hlanes = t.hlanes := rfl
@[simp] theorem Task.writeQ_v (t : Task) (r : Nat) (k : BitVec 16) (x : QReg) : (t.writeQ r k x).v = t.v := rfl
@[simp] theorem Task.writeQ_u (t : Task) (r : Nat) (k : BitVec 16) (x : QReg) : (t.writeQ r k x).u = t.u := rfl
@[simp] theorem Task.writeQ_p (t : Task) (r : Nat) (k : BitVec 16) (x : QReg) : (t.writeQ r k x).p = t.p := rfl
@[simp] theorem Task.writeQ_acc (t : Task) (r : Nat) (k : BitVec 16) (x : QReg) : (t.writeQ r k x).acc = t.acc := rfl
@[simp] theorem Task.writeQ_joins (t : Task) (r : Nat) (k : BitVec 16) (x : QReg) : (t.writeQ r k x).joins = t.joins := rfl
@[simp] theorem Task.writeQ_pjoins (t : Task) (r : Nat) (k : BitVec 16) (x : QReg) : (t.writeQ r k x).pjoins = t.pjoins := rfl
@[simp] theorem Task.writeQ_splits (t : Task) (r : Nat) (k : BitVec 16) (x : QReg) : (t.writeQ r k x).splits = t.splits := rfl
@[simp] theorem Task.writeQ_stack (t : Task) (r : Nat) (k : BitVec 16) (x : QReg) : (t.writeQ r k x).stack = t.stack := rfl
@[simp] theorem Task.writeQ_cf (t : Task) (r : Nat) (k : BitVec 16) (x : QReg) : (t.writeQ r k x).cf = t.cf := rfl
@[simp] theorem Task.writeQ_cfPrev (t : Task) (r : Nat) (k : BitVec 16) (x : QReg) : (t.writeQ r k x).cfPrev = t.cfPrev := rfl
@[simp] theorem Task.writeQ_mtile (t : Task) (r : Nat) (k : BitVec 16) (x : QReg) : (t.writeQ r k x).mtile = t.mtile := rfl
@[simp] theorem Task.writeQ_state (t : Task) (r : Nat) (k : BitVec 16) (x : QReg) : (t.writeQ r k x).state = t.state := rfl
@[simp] theorem Task.writeQ_fetches (t : Task) (r : Nat) (k : BitVec 16) (x : QReg) : (t.writeQ r k x).fetches = t.fetches := rfl
@[simp] theorem Task.writeQ_tileDone (t : Task) (r : Nat) (k : BitVec 16) (x : QReg) : (t.writeQ r k x).tileDone = t.tileDone := rfl
@[simp] theorem Task.writeQ_seen (t : Task) (r : Nat) (k : BitVec 16) (x : QReg) : (t.writeQ r k x).seen = t.seen := rfl
@[simp] theorem Task.writeQ_seenMore (t : Task) (r : Nat) (k : BitVec 16) (x : QReg) : (t.writeQ r k x).seenMore = t.seenMore := rfl
@[simp] theorem Task.writeQ_window (t : Task) (r : Nat) (k : BitVec 16) (x : QReg) : (t.writeQ r k x).window = t.window := rfl
@[simp] theorem Task.writeQ_wdog (t : Task) (r : Nat) (k : BitVec 16) (x : QReg) : (t.writeQ r k x).wdog = t.wdog := rfl
@[simp] theorem Task.writeQ_progressed (t : Task) (r : Nat) (k : BitVec 16) (x : QReg) : (t.writeQ r k x).progressed = t.progressed := rfl
@[simp] theorem Task.writeQ_committed (t : Task) (r : Nat) (k : BitVec 16) (x : QReg) : (t.writeQ r k x).committed = t.committed := rfl
@[simp] theorem Task.writeQ_fromResume (t : Task) (r : Nat) (k : BitVec 16) (x : QReg) : (t.writeQ r k x).fromResume = t.fromResume := rfl
@[simp] theorem Task.writeQ_ending (t : Task) (r : Nat) (k : BitVec 16) (x : QReg) : (t.writeQ r k x).ending = t.ending := rfl
@[simp] theorem Task.writeQ_endValue (t : Task) (r : Nat) (k : BitVec 16) (x : QReg) : (t.writeQ r k x).endValue = t.endValue := rfl
@[simp] theorem Task.writeQ_departed (t : Task) (r : Nat) (k : BitVec 16) (x : QReg) : (t.writeQ r k x).departed = t.departed := rfl
@[simp] theorem Task.writeQ_waitSince (t : Task) (r : Nat) (k : BitVec 16) (x : QReg) : (t.writeQ r k x).waitSince = t.waitSince := rfl
@[simp] theorem Task.writeQ_settled (t : Task) (r : Nat) (k : BitVec 16) (x : QReg) : (t.writeQ r k x).settled = t.settled := rfl
@[simp] theorem Task.writeQ_mergedAt (t : Task) (r : Nat) (k : BitVec 16) (x : QReg) : (t.writeQ r k x).mergedAt = t.mergedAt := rfl
@[simp] theorem Task.writeQ_parkOn (t : Task) (r : Nat) (k : BitVec 16) (x : QReg) : (t.writeQ r k x).parkOn = t.parkOn := rfl
@[simp] theorem Task.writeQ_free (t : Task) (r : Nat) (k : BitVec 16) (x : QReg) : (t.writeQ r k x).free = t.free := rfl
@[simp] theorem Task.writeQ_q (t : Task) (r : Nat) (k : BitVec 16) (x : QReg) : (t.writeQ r k x).q = tabSet t.q r (QReg.merge k x (t.qRaw r)) := rfl

/-! ### Task.writeA -/

@[simp] theorem Task.writeA_ctx (t : Task) (r : Nat) (k : List Mask) (x : Tile) : (t.writeA r k x).ctx = t.ctx := rfl
@[simp] theorem Task.writeA_core (t : Task) (r : Nat) (k : List Mask) (x : Tile) : (t.writeA r k x).core = t.core := rfl
@[simp] theorem Task.writeA_part (t : Task) (r : Nat) (k : List Mask) (x : Tile) : (t.writeA r k x).part = t.part := rfl
@[simp] theorem Task.writeA_slot (t : Task) (r : Nat) (k : List Mask) (x : Tile) : (t.writeA r k x).slot = t.slot := rfl
@[simp] theorem Task.writeA_team (t : Task) (r : Nat) (k : List Mask) (x : Tile) : (t.writeA r k x).team = t.team := rfl
@[simp] theorem Task.writeA_idx (t : Task) (r : Nat) (k : List Mask) (x : Tile) : (t.writeA r k x).idx = t.idx := rfl
@[simp] theorem Task.writeA_sizeM1 (t : Task) (r : Nat) (k : List Mask) (x : Tile) : (t.writeA r k x).sizeM1 = t.sizeM1 := rfl
@[simp] theorem Task.writeA_vblk (t : Task) (r : Nat) (k : List Mask) (x : Tile) : (t.writeA r k x).vblk = t.vblk := rfl
@[simp] theorem Task.writeA_sblk (t : Task) (r : Nat) (k : List Mask) (x : Tile) : (t.writeA r k x).sblk = t.sblk := rfl
@[simp] theorem Task.writeA_ablk (t : Task) (r : Nat) (k : List Mask) (x : Tile) : (t.writeA r k x).ablk = t.ablk := rfl
@[simp] theorem Task.writeA_acore (t : Task) (r : Nat) (k : List Mask) (x : Tile) : (t.writeA r k x).acore = t.acore := rfl
@[simp] theorem Task.writeA_tiles (t : Task) (r : Nat) (k : List Mask) (x : Tile) : (t.writeA r k x).tiles = t.tiles := rfl
@[simp] theorem Task.writeA_prio (t : Task) (r : Nat) (k : List Mask) (x : Tile) : (t.writeA r k x).prio = t.prio := rfl
@[simp] theorem Task.writeA_lanekill (t : Task) (r : Nat) (k : List Mask) (x : Tile) : (t.writeA r k x).lanekill = t.lanekill := rfl
@[simp] theorem Task.writeA_idem (t : Task) (r : Nat) (k : List Mask) (x : Tile) : (t.writeA r k x).idem = t.idem := rfl
@[simp] theorem Task.writeA_entry (t : Task) (r : Nat) (k : List Mask) (x : Tile) : (t.writeA r k x).entry = t.entry := rfl
@[simp] theorem Task.writeA_supervisor (t : Task) (r : Nat) (k : List Mask) (x : Tile) : (t.writeA r k x).supervisor = t.supervisor := rfl
@[simp] theorem Task.writeA_onComplex (t : Task) (r : Nat) (k : List Mask) (x : Tile) : (t.writeA r k x).onComplex = t.onComplex := rfl
@[simp] theorem Task.writeA_xtask (t : Task) (r : Nat) (k : List Mask) (x : Tile) : (t.writeA r k x).xtask = t.xtask := rfl
@[simp] theorem Task.writeA_xdead (t : Task) (r : Nat) (k : List Mask) (x : Tile) : (t.writeA r k x).xdead = t.xdead := rfl
@[simp] theorem Task.writeA_exited (t : Task) (r : Nat) (k : List Mask) (x : Tile) : (t.writeA r k x).exited = t.exited := rfl
@[simp] theorem Task.writeA_xtile (t : Task) (r : Nat) (k : List Mask) (x : Tile) : (t.writeA r k x).xtile = t.xtile := rfl
@[simp] theorem Task.writeA_xtagB (t : Task) (r : Nat) (k : List Mask) (x : Tile) : (t.writeA r k x).xtagB = t.xtagB := rfl
@[simp] theorem Task.writeA_xepc (t : Task) (r : Nat) (k : List Mask) (x : Tile) : (t.writeA r k x).xepc = t.xepc := rfl
@[simp] theorem Task.writeA_xcause (t : Task) (r : Nat) (k : List Mask) (x : Tile) : (t.writeA r k x).xcause = t.xcause := rfl
@[simp] theorem Task.writeA_xsyn (t : Task) (r : Nat) (k : List Mask) (x : Tile) : (t.writeA r k x).xsyn = t.xsyn := rfl
@[simp] theorem Task.writeA_xaddr (t : Task) (r : Nat) (k : List Mask) (x : Tile) : (t.writeA r k x).xaddr = t.xaddr := rfl
@[simp] theorem Task.writeA_xunit (t : Task) (r : Nat) (k : List Mask) (x : Tile) : (t.writeA r k x).xunit = t.xunit := rfl
@[simp] theorem Task.writeA_xhnd (t : Task) (r : Nat) (k : List Mask) (x : Tile) : (t.writeA r k x).xhnd = t.xhnd := rfl
@[simp] theorem Task.writeA_hlanes (t : Task) (r : Nat) (k : List Mask) (x : Tile) : (t.writeA r k x).hlanes = t.hlanes := rfl
@[simp] theorem Task.writeA_v (t : Task) (r : Nat) (k : List Mask) (x : Tile) : (t.writeA r k x).v = t.v := rfl
@[simp] theorem Task.writeA_u (t : Task) (r : Nat) (k : List Mask) (x : Tile) : (t.writeA r k x).u = t.u := rfl
@[simp] theorem Task.writeA_p (t : Task) (r : Nat) (k : List Mask) (x : Tile) : (t.writeA r k x).p = t.p := rfl
@[simp] theorem Task.writeA_q (t : Task) (r : Nat) (k : List Mask) (x : Tile) : (t.writeA r k x).q = t.q := rfl
@[simp] theorem Task.writeA_joins (t : Task) (r : Nat) (k : List Mask) (x : Tile) : (t.writeA r k x).joins = t.joins := rfl
@[simp] theorem Task.writeA_pjoins (t : Task) (r : Nat) (k : List Mask) (x : Tile) : (t.writeA r k x).pjoins = t.pjoins := rfl
@[simp] theorem Task.writeA_splits (t : Task) (r : Nat) (k : List Mask) (x : Tile) : (t.writeA r k x).splits = t.splits := rfl
@[simp] theorem Task.writeA_stack (t : Task) (r : Nat) (k : List Mask) (x : Tile) : (t.writeA r k x).stack = t.stack := rfl
@[simp] theorem Task.writeA_cf (t : Task) (r : Nat) (k : List Mask) (x : Tile) : (t.writeA r k x).cf = t.cf := rfl
@[simp] theorem Task.writeA_cfPrev (t : Task) (r : Nat) (k : List Mask) (x : Tile) : (t.writeA r k x).cfPrev = t.cfPrev := rfl
@[simp] theorem Task.writeA_mtile (t : Task) (r : Nat) (k : List Mask) (x : Tile) : (t.writeA r k x).mtile = t.mtile := rfl
@[simp] theorem Task.writeA_state (t : Task) (r : Nat) (k : List Mask) (x : Tile) : (t.writeA r k x).state = t.state := rfl
@[simp] theorem Task.writeA_fetches (t : Task) (r : Nat) (k : List Mask) (x : Tile) : (t.writeA r k x).fetches = t.fetches := rfl
@[simp] theorem Task.writeA_tileDone (t : Task) (r : Nat) (k : List Mask) (x : Tile) : (t.writeA r k x).tileDone = t.tileDone := rfl
@[simp] theorem Task.writeA_seen (t : Task) (r : Nat) (k : List Mask) (x : Tile) : (t.writeA r k x).seen = t.seen := rfl
@[simp] theorem Task.writeA_seenMore (t : Task) (r : Nat) (k : List Mask) (x : Tile) : (t.writeA r k x).seenMore = t.seenMore := rfl
@[simp] theorem Task.writeA_window (t : Task) (r : Nat) (k : List Mask) (x : Tile) : (t.writeA r k x).window = t.window := rfl
@[simp] theorem Task.writeA_wdog (t : Task) (r : Nat) (k : List Mask) (x : Tile) : (t.writeA r k x).wdog = t.wdog := rfl
@[simp] theorem Task.writeA_progressed (t : Task) (r : Nat) (k : List Mask) (x : Tile) : (t.writeA r k x).progressed = t.progressed := rfl
@[simp] theorem Task.writeA_committed (t : Task) (r : Nat) (k : List Mask) (x : Tile) : (t.writeA r k x).committed = t.committed := rfl
@[simp] theorem Task.writeA_fromResume (t : Task) (r : Nat) (k : List Mask) (x : Tile) : (t.writeA r k x).fromResume = t.fromResume := rfl
@[simp] theorem Task.writeA_ending (t : Task) (r : Nat) (k : List Mask) (x : Tile) : (t.writeA r k x).ending = t.ending := rfl
@[simp] theorem Task.writeA_endValue (t : Task) (r : Nat) (k : List Mask) (x : Tile) : (t.writeA r k x).endValue = t.endValue := rfl
@[simp] theorem Task.writeA_departed (t : Task) (r : Nat) (k : List Mask) (x : Tile) : (t.writeA r k x).departed = t.departed := rfl
@[simp] theorem Task.writeA_waitSince (t : Task) (r : Nat) (k : List Mask) (x : Tile) : (t.writeA r k x).waitSince = t.waitSince := rfl
@[simp] theorem Task.writeA_settled (t : Task) (r : Nat) (k : List Mask) (x : Tile) : (t.writeA r k x).settled = t.settled := rfl
@[simp] theorem Task.writeA_mergedAt (t : Task) (r : Nat) (k : List Mask) (x : Tile) : (t.writeA r k x).mergedAt = t.mergedAt := rfl
@[simp] theorem Task.writeA_parkOn (t : Task) (r : Nat) (k : List Mask) (x : Tile) : (t.writeA r k x).parkOn = t.parkOn := rfl
@[simp] theorem Task.writeA_free (t : Task) (r : Nat) (k : List Mask) (x : Tile) : (t.writeA r k x).free = t.free := rfl
@[simp] theorem Task.writeA_acc (t : Task) (r : Nat) (k : List Mask) (x : Tile) : (t.writeA r k x).acc = tabSet t.acc r (Tile.merge k x (t.aRaw r)) := rfl

/-! ### Task.setSplit -/

@[simp] theorem Task.setSplit_ctx (t : Task) (e : Nat) (x : Option Split) : (t.setSplit e x).ctx = t.ctx := rfl
@[simp] theorem Task.setSplit_core (t : Task) (e : Nat) (x : Option Split) : (t.setSplit e x).core = t.core := rfl
@[simp] theorem Task.setSplit_part (t : Task) (e : Nat) (x : Option Split) : (t.setSplit e x).part = t.part := rfl
@[simp] theorem Task.setSplit_slot (t : Task) (e : Nat) (x : Option Split) : (t.setSplit e x).slot = t.slot := rfl
@[simp] theorem Task.setSplit_team (t : Task) (e : Nat) (x : Option Split) : (t.setSplit e x).team = t.team := rfl
@[simp] theorem Task.setSplit_idx (t : Task) (e : Nat) (x : Option Split) : (t.setSplit e x).idx = t.idx := rfl
@[simp] theorem Task.setSplit_sizeM1 (t : Task) (e : Nat) (x : Option Split) : (t.setSplit e x).sizeM1 = t.sizeM1 := rfl
@[simp] theorem Task.setSplit_vblk (t : Task) (e : Nat) (x : Option Split) : (t.setSplit e x).vblk = t.vblk := rfl
@[simp] theorem Task.setSplit_sblk (t : Task) (e : Nat) (x : Option Split) : (t.setSplit e x).sblk = t.sblk := rfl
@[simp] theorem Task.setSplit_ablk (t : Task) (e : Nat) (x : Option Split) : (t.setSplit e x).ablk = t.ablk := rfl
@[simp] theorem Task.setSplit_acore (t : Task) (e : Nat) (x : Option Split) : (t.setSplit e x).acore = t.acore := rfl
@[simp] theorem Task.setSplit_tiles (t : Task) (e : Nat) (x : Option Split) : (t.setSplit e x).tiles = t.tiles := rfl
@[simp] theorem Task.setSplit_prio (t : Task) (e : Nat) (x : Option Split) : (t.setSplit e x).prio = t.prio := rfl
@[simp] theorem Task.setSplit_lanekill (t : Task) (e : Nat) (x : Option Split) : (t.setSplit e x).lanekill = t.lanekill := rfl
@[simp] theorem Task.setSplit_idem (t : Task) (e : Nat) (x : Option Split) : (t.setSplit e x).idem = t.idem := rfl
@[simp] theorem Task.setSplit_entry (t : Task) (e : Nat) (x : Option Split) : (t.setSplit e x).entry = t.entry := rfl
@[simp] theorem Task.setSplit_supervisor (t : Task) (e : Nat) (x : Option Split) : (t.setSplit e x).supervisor = t.supervisor := rfl
@[simp] theorem Task.setSplit_onComplex (t : Task) (e : Nat) (x : Option Split) : (t.setSplit e x).onComplex = t.onComplex := rfl
@[simp] theorem Task.setSplit_xtask (t : Task) (e : Nat) (x : Option Split) : (t.setSplit e x).xtask = t.xtask := rfl
@[simp] theorem Task.setSplit_xdead (t : Task) (e : Nat) (x : Option Split) : (t.setSplit e x).xdead = t.xdead := rfl
@[simp] theorem Task.setSplit_exited (t : Task) (e : Nat) (x : Option Split) : (t.setSplit e x).exited = t.exited := rfl
@[simp] theorem Task.setSplit_xtile (t : Task) (e : Nat) (x : Option Split) : (t.setSplit e x).xtile = t.xtile := rfl
@[simp] theorem Task.setSplit_xtagB (t : Task) (e : Nat) (x : Option Split) : (t.setSplit e x).xtagB = t.xtagB := rfl
@[simp] theorem Task.setSplit_xepc (t : Task) (e : Nat) (x : Option Split) : (t.setSplit e x).xepc = t.xepc := rfl
@[simp] theorem Task.setSplit_xcause (t : Task) (e : Nat) (x : Option Split) : (t.setSplit e x).xcause = t.xcause := rfl
@[simp] theorem Task.setSplit_xsyn (t : Task) (e : Nat) (x : Option Split) : (t.setSplit e x).xsyn = t.xsyn := rfl
@[simp] theorem Task.setSplit_xaddr (t : Task) (e : Nat) (x : Option Split) : (t.setSplit e x).xaddr = t.xaddr := rfl
@[simp] theorem Task.setSplit_xunit (t : Task) (e : Nat) (x : Option Split) : (t.setSplit e x).xunit = t.xunit := rfl
@[simp] theorem Task.setSplit_xhnd (t : Task) (e : Nat) (x : Option Split) : (t.setSplit e x).xhnd = t.xhnd := rfl
@[simp] theorem Task.setSplit_hlanes (t : Task) (e : Nat) (x : Option Split) : (t.setSplit e x).hlanes = t.hlanes := rfl
@[simp] theorem Task.setSplit_v (t : Task) (e : Nat) (x : Option Split) : (t.setSplit e x).v = t.v := rfl
@[simp] theorem Task.setSplit_u (t : Task) (e : Nat) (x : Option Split) : (t.setSplit e x).u = t.u := rfl
@[simp] theorem Task.setSplit_p (t : Task) (e : Nat) (x : Option Split) : (t.setSplit e x).p = t.p := rfl
@[simp] theorem Task.setSplit_q (t : Task) (e : Nat) (x : Option Split) : (t.setSplit e x).q = t.q := rfl
@[simp] theorem Task.setSplit_acc (t : Task) (e : Nat) (x : Option Split) : (t.setSplit e x).acc = t.acc := rfl
@[simp] theorem Task.setSplit_joins (t : Task) (e : Nat) (x : Option Split) : (t.setSplit e x).joins = t.joins := rfl
@[simp] theorem Task.setSplit_pjoins (t : Task) (e : Nat) (x : Option Split) : (t.setSplit e x).pjoins = t.pjoins := rfl
@[simp] theorem Task.setSplit_stack (t : Task) (e : Nat) (x : Option Split) : (t.setSplit e x).stack = t.stack := rfl
@[simp] theorem Task.setSplit_pend (t : Task) (e : Nat) (x : Option Split) : (t.setSplit e x).pend = t.pend := rfl
@[simp] theorem Task.setSplit_cf (t : Task) (e : Nat) (x : Option Split) : (t.setSplit e x).cf = t.cf := rfl
@[simp] theorem Task.setSplit_cfPrev (t : Task) (e : Nat) (x : Option Split) : (t.setSplit e x).cfPrev = t.cfPrev := rfl
@[simp] theorem Task.setSplit_mtile (t : Task) (e : Nat) (x : Option Split) : (t.setSplit e x).mtile = t.mtile := rfl
@[simp] theorem Task.setSplit_state (t : Task) (e : Nat) (x : Option Split) : (t.setSplit e x).state = t.state := rfl
@[simp] theorem Task.setSplit_fetches (t : Task) (e : Nat) (x : Option Split) : (t.setSplit e x).fetches = t.fetches := rfl
@[simp] theorem Task.setSplit_tileDone (t : Task) (e : Nat) (x : Option Split) : (t.setSplit e x).tileDone = t.tileDone := rfl
@[simp] theorem Task.setSplit_seen (t : Task) (e : Nat) (x : Option Split) : (t.setSplit e x).seen = t.seen := rfl
@[simp] theorem Task.setSplit_seenMore (t : Task) (e : Nat) (x : Option Split) : (t.setSplit e x).seenMore = t.seenMore := rfl
@[simp] theorem Task.setSplit_window (t : Task) (e : Nat) (x : Option Split) : (t.setSplit e x).window = t.window := rfl
@[simp] theorem Task.setSplit_wdog (t : Task) (e : Nat) (x : Option Split) : (t.setSplit e x).wdog = t.wdog := rfl
@[simp] theorem Task.setSplit_progressed (t : Task) (e : Nat) (x : Option Split) : (t.setSplit e x).progressed = t.progressed := rfl
@[simp] theorem Task.setSplit_committed (t : Task) (e : Nat) (x : Option Split) : (t.setSplit e x).committed = t.committed := rfl
@[simp] theorem Task.setSplit_fromResume (t : Task) (e : Nat) (x : Option Split) : (t.setSplit e x).fromResume = t.fromResume := rfl
@[simp] theorem Task.setSplit_ending (t : Task) (e : Nat) (x : Option Split) : (t.setSplit e x).ending = t.ending := rfl
@[simp] theorem Task.setSplit_endValue (t : Task) (e : Nat) (x : Option Split) : (t.setSplit e x).endValue = t.endValue := rfl
@[simp] theorem Task.setSplit_departed (t : Task) (e : Nat) (x : Option Split) : (t.setSplit e x).departed = t.departed := rfl
@[simp] theorem Task.setSplit_waitSince (t : Task) (e : Nat) (x : Option Split) : (t.setSplit e x).waitSince = t.waitSince := rfl
@[simp] theorem Task.setSplit_settled (t : Task) (e : Nat) (x : Option Split) : (t.setSplit e x).settled = t.settled := rfl
@[simp] theorem Task.setSplit_mergedAt (t : Task) (e : Nat) (x : Option Split) : (t.setSplit e x).mergedAt = t.mergedAt := rfl
@[simp] theorem Task.setSplit_parkOn (t : Task) (e : Nat) (x : Option Split) : (t.setSplit e x).parkOn = t.parkOn := rfl
@[simp] theorem Task.setSplit_free (t : Task) (e : Nat) (x : Option Split) : (t.setSplit e x).free = t.free := rfl
@[simp] theorem Task.setSplit_splits (t : Task) (e : Nat) (x : Option Split) : (t.setSplit e x).splits = t.splits.set e x := rfl

/-! ### Task.setJoins -/

@[simp] theorem Task.setJoins_ctx (t : Task) (j : Nat) (x y : Join) : (t.setJoins j x y).ctx = t.ctx := rfl
@[simp] theorem Task.setJoins_core (t : Task) (j : Nat) (x y : Join) : (t.setJoins j x y).core = t.core := rfl
@[simp] theorem Task.setJoins_part (t : Task) (j : Nat) (x y : Join) : (t.setJoins j x y).part = t.part := rfl
@[simp] theorem Task.setJoins_slot (t : Task) (j : Nat) (x y : Join) : (t.setJoins j x y).slot = t.slot := rfl
@[simp] theorem Task.setJoins_team (t : Task) (j : Nat) (x y : Join) : (t.setJoins j x y).team = t.team := rfl
@[simp] theorem Task.setJoins_idx (t : Task) (j : Nat) (x y : Join) : (t.setJoins j x y).idx = t.idx := rfl
@[simp] theorem Task.setJoins_sizeM1 (t : Task) (j : Nat) (x y : Join) : (t.setJoins j x y).sizeM1 = t.sizeM1 := rfl
@[simp] theorem Task.setJoins_vblk (t : Task) (j : Nat) (x y : Join) : (t.setJoins j x y).vblk = t.vblk := rfl
@[simp] theorem Task.setJoins_sblk (t : Task) (j : Nat) (x y : Join) : (t.setJoins j x y).sblk = t.sblk := rfl
@[simp] theorem Task.setJoins_ablk (t : Task) (j : Nat) (x y : Join) : (t.setJoins j x y).ablk = t.ablk := rfl
@[simp] theorem Task.setJoins_acore (t : Task) (j : Nat) (x y : Join) : (t.setJoins j x y).acore = t.acore := rfl
@[simp] theorem Task.setJoins_tiles (t : Task) (j : Nat) (x y : Join) : (t.setJoins j x y).tiles = t.tiles := rfl
@[simp] theorem Task.setJoins_prio (t : Task) (j : Nat) (x y : Join) : (t.setJoins j x y).prio = t.prio := rfl
@[simp] theorem Task.setJoins_lanekill (t : Task) (j : Nat) (x y : Join) : (t.setJoins j x y).lanekill = t.lanekill := rfl
@[simp] theorem Task.setJoins_idem (t : Task) (j : Nat) (x y : Join) : (t.setJoins j x y).idem = t.idem := rfl
@[simp] theorem Task.setJoins_entry (t : Task) (j : Nat) (x y : Join) : (t.setJoins j x y).entry = t.entry := rfl
@[simp] theorem Task.setJoins_supervisor (t : Task) (j : Nat) (x y : Join) : (t.setJoins j x y).supervisor = t.supervisor := rfl
@[simp] theorem Task.setJoins_onComplex (t : Task) (j : Nat) (x y : Join) : (t.setJoins j x y).onComplex = t.onComplex := rfl
@[simp] theorem Task.setJoins_xtask (t : Task) (j : Nat) (x y : Join) : (t.setJoins j x y).xtask = t.xtask := rfl
@[simp] theorem Task.setJoins_xdead (t : Task) (j : Nat) (x y : Join) : (t.setJoins j x y).xdead = t.xdead := rfl
@[simp] theorem Task.setJoins_exited (t : Task) (j : Nat) (x y : Join) : (t.setJoins j x y).exited = t.exited := rfl
@[simp] theorem Task.setJoins_xtile (t : Task) (j : Nat) (x y : Join) : (t.setJoins j x y).xtile = t.xtile := rfl
@[simp] theorem Task.setJoins_xtagB (t : Task) (j : Nat) (x y : Join) : (t.setJoins j x y).xtagB = t.xtagB := rfl
@[simp] theorem Task.setJoins_xepc (t : Task) (j : Nat) (x y : Join) : (t.setJoins j x y).xepc = t.xepc := rfl
@[simp] theorem Task.setJoins_xcause (t : Task) (j : Nat) (x y : Join) : (t.setJoins j x y).xcause = t.xcause := rfl
@[simp] theorem Task.setJoins_xsyn (t : Task) (j : Nat) (x y : Join) : (t.setJoins j x y).xsyn = t.xsyn := rfl
@[simp] theorem Task.setJoins_xaddr (t : Task) (j : Nat) (x y : Join) : (t.setJoins j x y).xaddr = t.xaddr := rfl
@[simp] theorem Task.setJoins_xunit (t : Task) (j : Nat) (x y : Join) : (t.setJoins j x y).xunit = t.xunit := rfl
@[simp] theorem Task.setJoins_xhnd (t : Task) (j : Nat) (x y : Join) : (t.setJoins j x y).xhnd = t.xhnd := rfl
@[simp] theorem Task.setJoins_hlanes (t : Task) (j : Nat) (x y : Join) : (t.setJoins j x y).hlanes = t.hlanes := rfl
@[simp] theorem Task.setJoins_v (t : Task) (j : Nat) (x y : Join) : (t.setJoins j x y).v = t.v := rfl
@[simp] theorem Task.setJoins_u (t : Task) (j : Nat) (x y : Join) : (t.setJoins j x y).u = t.u := rfl
@[simp] theorem Task.setJoins_p (t : Task) (j : Nat) (x y : Join) : (t.setJoins j x y).p = t.p := rfl
@[simp] theorem Task.setJoins_q (t : Task) (j : Nat) (x y : Join) : (t.setJoins j x y).q = t.q := rfl
@[simp] theorem Task.setJoins_acc (t : Task) (j : Nat) (x y : Join) : (t.setJoins j x y).acc = t.acc := rfl
@[simp] theorem Task.setJoins_splits (t : Task) (j : Nat) (x y : Join) : (t.setJoins j x y).splits = t.splits := rfl
@[simp] theorem Task.setJoins_stack (t : Task) (j : Nat) (x y : Join) : (t.setJoins j x y).stack = t.stack := rfl
@[simp] theorem Task.setJoins_pend (t : Task) (j : Nat) (x y : Join) : (t.setJoins j x y).pend = t.pend := rfl
@[simp] theorem Task.setJoins_cf (t : Task) (j : Nat) (x y : Join) : (t.setJoins j x y).cf = t.cf := rfl
@[simp] theorem Task.setJoins_cfPrev (t : Task) (j : Nat) (x y : Join) : (t.setJoins j x y).cfPrev = t.cfPrev := rfl
@[simp] theorem Task.setJoins_mtile (t : Task) (j : Nat) (x y : Join) : (t.setJoins j x y).mtile = t.mtile := rfl
@[simp] theorem Task.setJoins_state (t : Task) (j : Nat) (x y : Join) : (t.setJoins j x y).state = t.state := rfl
@[simp] theorem Task.setJoins_fetches (t : Task) (j : Nat) (x y : Join) : (t.setJoins j x y).fetches = t.fetches := rfl
@[simp] theorem Task.setJoins_tileDone (t : Task) (j : Nat) (x y : Join) : (t.setJoins j x y).tileDone = t.tileDone := rfl
@[simp] theorem Task.setJoins_seen (t : Task) (j : Nat) (x y : Join) : (t.setJoins j x y).seen = t.seen := rfl
@[simp] theorem Task.setJoins_seenMore (t : Task) (j : Nat) (x y : Join) : (t.setJoins j x y).seenMore = t.seenMore := rfl
@[simp] theorem Task.setJoins_window (t : Task) (j : Nat) (x y : Join) : (t.setJoins j x y).window = t.window := rfl
@[simp] theorem Task.setJoins_wdog (t : Task) (j : Nat) (x y : Join) : (t.setJoins j x y).wdog = t.wdog := rfl
@[simp] theorem Task.setJoins_progressed (t : Task) (j : Nat) (x y : Join) : (t.setJoins j x y).progressed = t.progressed := rfl
@[simp] theorem Task.setJoins_committed (t : Task) (j : Nat) (x y : Join) : (t.setJoins j x y).committed = t.committed := rfl
@[simp] theorem Task.setJoins_fromResume (t : Task) (j : Nat) (x y : Join) : (t.setJoins j x y).fromResume = t.fromResume := rfl
@[simp] theorem Task.setJoins_ending (t : Task) (j : Nat) (x y : Join) : (t.setJoins j x y).ending = t.ending := rfl
@[simp] theorem Task.setJoins_endValue (t : Task) (j : Nat) (x y : Join) : (t.setJoins j x y).endValue = t.endValue := rfl
@[simp] theorem Task.setJoins_departed (t : Task) (j : Nat) (x y : Join) : (t.setJoins j x y).departed = t.departed := rfl
@[simp] theorem Task.setJoins_waitSince (t : Task) (j : Nat) (x y : Join) : (t.setJoins j x y).waitSince = t.waitSince := rfl
@[simp] theorem Task.setJoins_settled (t : Task) (j : Nat) (x y : Join) : (t.setJoins j x y).settled = t.settled := rfl
@[simp] theorem Task.setJoins_mergedAt (t : Task) (j : Nat) (x y : Join) : (t.setJoins j x y).mergedAt = t.mergedAt := rfl
@[simp] theorem Task.setJoins_parkOn (t : Task) (j : Nat) (x y : Join) : (t.setJoins j x y).parkOn = t.parkOn := rfl
@[simp] theorem Task.setJoins_free (t : Task) (j : Nat) (x y : Join) : (t.setJoins j x y).free = t.free := rfl
@[simp] theorem Task.setJoins_joins (t : Task) (j : Nat) (x y : Join) : (t.setJoins j x y).joins = tabSet t.joins j x := rfl
@[simp] theorem Task.setJoins_pjoins (t : Task) (j : Nat) (x y : Join) : (t.setJoins j x y).pjoins = tabSet t.pjoins j y := rfl

/-! ### Task.raiseFlag -/

@[simp] theorem Task.raiseFlag_ctx (t : Task) (n : Nat) : (t.raiseFlag n).ctx = t.ctx := rfl
@[simp] theorem Task.raiseFlag_core (t : Task) (n : Nat) : (t.raiseFlag n).core = t.core := rfl
@[simp] theorem Task.raiseFlag_part (t : Task) (n : Nat) : (t.raiseFlag n).part = t.part := rfl
@[simp] theorem Task.raiseFlag_slot (t : Task) (n : Nat) : (t.raiseFlag n).slot = t.slot := rfl
@[simp] theorem Task.raiseFlag_team (t : Task) (n : Nat) : (t.raiseFlag n).team = t.team := rfl
@[simp] theorem Task.raiseFlag_idx (t : Task) (n : Nat) : (t.raiseFlag n).idx = t.idx := rfl
@[simp] theorem Task.raiseFlag_sizeM1 (t : Task) (n : Nat) : (t.raiseFlag n).sizeM1 = t.sizeM1 := rfl
@[simp] theorem Task.raiseFlag_vblk (t : Task) (n : Nat) : (t.raiseFlag n).vblk = t.vblk := rfl
@[simp] theorem Task.raiseFlag_sblk (t : Task) (n : Nat) : (t.raiseFlag n).sblk = t.sblk := rfl
@[simp] theorem Task.raiseFlag_ablk (t : Task) (n : Nat) : (t.raiseFlag n).ablk = t.ablk := rfl
@[simp] theorem Task.raiseFlag_acore (t : Task) (n : Nat) : (t.raiseFlag n).acore = t.acore := rfl
@[simp] theorem Task.raiseFlag_tiles (t : Task) (n : Nat) : (t.raiseFlag n).tiles = t.tiles := rfl
@[simp] theorem Task.raiseFlag_prio (t : Task) (n : Nat) : (t.raiseFlag n).prio = t.prio := rfl
@[simp] theorem Task.raiseFlag_lanekill (t : Task) (n : Nat) : (t.raiseFlag n).lanekill = t.lanekill := rfl
@[simp] theorem Task.raiseFlag_idem (t : Task) (n : Nat) : (t.raiseFlag n).idem = t.idem := rfl
@[simp] theorem Task.raiseFlag_entry (t : Task) (n : Nat) : (t.raiseFlag n).entry = t.entry := rfl
@[simp] theorem Task.raiseFlag_supervisor (t : Task) (n : Nat) : (t.raiseFlag n).supervisor = t.supervisor := rfl
@[simp] theorem Task.raiseFlag_onComplex (t : Task) (n : Nat) : (t.raiseFlag n).onComplex = t.onComplex := rfl
@[simp] theorem Task.raiseFlag_xtask (t : Task) (n : Nat) : (t.raiseFlag n).xtask = t.xtask := rfl
@[simp] theorem Task.raiseFlag_xdead (t : Task) (n : Nat) : (t.raiseFlag n).xdead = t.xdead := rfl
@[simp] theorem Task.raiseFlag_exited (t : Task) (n : Nat) : (t.raiseFlag n).exited = t.exited := rfl
@[simp] theorem Task.raiseFlag_xtile (t : Task) (n : Nat) : (t.raiseFlag n).xtile = t.xtile := rfl
@[simp] theorem Task.raiseFlag_xtagB (t : Task) (n : Nat) : (t.raiseFlag n).xtagB = t.xtagB := rfl
@[simp] theorem Task.raiseFlag_xepc (t : Task) (n : Nat) : (t.raiseFlag n).xepc = t.xepc := rfl
@[simp] theorem Task.raiseFlag_xcause (t : Task) (n : Nat) : (t.raiseFlag n).xcause = t.xcause := rfl
@[simp] theorem Task.raiseFlag_xsyn (t : Task) (n : Nat) : (t.raiseFlag n).xsyn = t.xsyn := rfl
@[simp] theorem Task.raiseFlag_xaddr (t : Task) (n : Nat) : (t.raiseFlag n).xaddr = t.xaddr := rfl
@[simp] theorem Task.raiseFlag_xunit (t : Task) (n : Nat) : (t.raiseFlag n).xunit = t.xunit := rfl
@[simp] theorem Task.raiseFlag_xhnd (t : Task) (n : Nat) : (t.raiseFlag n).xhnd = t.xhnd := rfl
@[simp] theorem Task.raiseFlag_hlanes (t : Task) (n : Nat) : (t.raiseFlag n).hlanes = t.hlanes := rfl
@[simp] theorem Task.raiseFlag_v (t : Task) (n : Nat) : (t.raiseFlag n).v = t.v := rfl
@[simp] theorem Task.raiseFlag_u (t : Task) (n : Nat) : (t.raiseFlag n).u = t.u := rfl
@[simp] theorem Task.raiseFlag_p (t : Task) (n : Nat) : (t.raiseFlag n).p = t.p := rfl
@[simp] theorem Task.raiseFlag_q (t : Task) (n : Nat) : (t.raiseFlag n).q = t.q := rfl
@[simp] theorem Task.raiseFlag_acc (t : Task) (n : Nat) : (t.raiseFlag n).acc = t.acc := rfl
@[simp] theorem Task.raiseFlag_joins (t : Task) (n : Nat) : (t.raiseFlag n).joins = t.joins := rfl
@[simp] theorem Task.raiseFlag_pjoins (t : Task) (n : Nat) : (t.raiseFlag n).pjoins = t.pjoins := rfl
@[simp] theorem Task.raiseFlag_splits (t : Task) (n : Nat) : (t.raiseFlag n).splits = t.splits := rfl
@[simp] theorem Task.raiseFlag_stack (t : Task) (n : Nat) : (t.raiseFlag n).stack = t.stack := rfl
@[simp] theorem Task.raiseFlag_pend (t : Task) (n : Nat) : (t.raiseFlag n).pend = t.pend := rfl
@[simp] theorem Task.raiseFlag_cfPrev (t : Task) (n : Nat) : (t.raiseFlag n).cfPrev = t.cfPrev := rfl
@[simp] theorem Task.raiseFlag_mtile (t : Task) (n : Nat) : (t.raiseFlag n).mtile = t.mtile := rfl
@[simp] theorem Task.raiseFlag_state (t : Task) (n : Nat) : (t.raiseFlag n).state = t.state := rfl
@[simp] theorem Task.raiseFlag_fetches (t : Task) (n : Nat) : (t.raiseFlag n).fetches = t.fetches := rfl
@[simp] theorem Task.raiseFlag_tileDone (t : Task) (n : Nat) : (t.raiseFlag n).tileDone = t.tileDone := rfl
@[simp] theorem Task.raiseFlag_seen (t : Task) (n : Nat) : (t.raiseFlag n).seen = t.seen := rfl
@[simp] theorem Task.raiseFlag_seenMore (t : Task) (n : Nat) : (t.raiseFlag n).seenMore = t.seenMore := rfl
@[simp] theorem Task.raiseFlag_window (t : Task) (n : Nat) : (t.raiseFlag n).window = t.window := rfl
@[simp] theorem Task.raiseFlag_wdog (t : Task) (n : Nat) : (t.raiseFlag n).wdog = t.wdog := rfl
@[simp] theorem Task.raiseFlag_progressed (t : Task) (n : Nat) : (t.raiseFlag n).progressed = t.progressed := rfl
@[simp] theorem Task.raiseFlag_committed (t : Task) (n : Nat) : (t.raiseFlag n).committed = t.committed := rfl
@[simp] theorem Task.raiseFlag_fromResume (t : Task) (n : Nat) : (t.raiseFlag n).fromResume = t.fromResume := rfl
@[simp] theorem Task.raiseFlag_ending (t : Task) (n : Nat) : (t.raiseFlag n).ending = t.ending := rfl
@[simp] theorem Task.raiseFlag_endValue (t : Task) (n : Nat) : (t.raiseFlag n).endValue = t.endValue := rfl
@[simp] theorem Task.raiseFlag_departed (t : Task) (n : Nat) : (t.raiseFlag n).departed = t.departed := rfl
@[simp] theorem Task.raiseFlag_waitSince (t : Task) (n : Nat) : (t.raiseFlag n).waitSince = t.waitSince := rfl
@[simp] theorem Task.raiseFlag_settled (t : Task) (n : Nat) : (t.raiseFlag n).settled = t.settled := rfl
@[simp] theorem Task.raiseFlag_mergedAt (t : Task) (n : Nat) : (t.raiseFlag n).mergedAt = t.mergedAt := rfl
@[simp] theorem Task.raiseFlag_parkOn (t : Task) (n : Nat) : (t.raiseFlag n).parkOn = t.parkOn := rfl
@[simp] theorem Task.raiseFlag_free (t : Task) (n : Nat) : (t.raiseFlag n).free = t.free := rfl
@[simp] theorem Task.raiseFlag_cf (t : Task) (n : Nat) : (t.raiseFlag n).cf = t.cf.set n (t.cf.getD n 0 + 1) := rfl

/-! ### Task.lowerFlag -/

@[simp] theorem Task.lowerFlag_ctx (t : Task) (n : Nat) : (t.lowerFlag n).ctx = t.ctx := rfl
@[simp] theorem Task.lowerFlag_core (t : Task) (n : Nat) : (t.lowerFlag n).core = t.core := rfl
@[simp] theorem Task.lowerFlag_part (t : Task) (n : Nat) : (t.lowerFlag n).part = t.part := rfl
@[simp] theorem Task.lowerFlag_slot (t : Task) (n : Nat) : (t.lowerFlag n).slot = t.slot := rfl
@[simp] theorem Task.lowerFlag_team (t : Task) (n : Nat) : (t.lowerFlag n).team = t.team := rfl
@[simp] theorem Task.lowerFlag_idx (t : Task) (n : Nat) : (t.lowerFlag n).idx = t.idx := rfl
@[simp] theorem Task.lowerFlag_sizeM1 (t : Task) (n : Nat) : (t.lowerFlag n).sizeM1 = t.sizeM1 := rfl
@[simp] theorem Task.lowerFlag_vblk (t : Task) (n : Nat) : (t.lowerFlag n).vblk = t.vblk := rfl
@[simp] theorem Task.lowerFlag_sblk (t : Task) (n : Nat) : (t.lowerFlag n).sblk = t.sblk := rfl
@[simp] theorem Task.lowerFlag_ablk (t : Task) (n : Nat) : (t.lowerFlag n).ablk = t.ablk := rfl
@[simp] theorem Task.lowerFlag_acore (t : Task) (n : Nat) : (t.lowerFlag n).acore = t.acore := rfl
@[simp] theorem Task.lowerFlag_tiles (t : Task) (n : Nat) : (t.lowerFlag n).tiles = t.tiles := rfl
@[simp] theorem Task.lowerFlag_prio (t : Task) (n : Nat) : (t.lowerFlag n).prio = t.prio := rfl
@[simp] theorem Task.lowerFlag_lanekill (t : Task) (n : Nat) : (t.lowerFlag n).lanekill = t.lanekill := rfl
@[simp] theorem Task.lowerFlag_idem (t : Task) (n : Nat) : (t.lowerFlag n).idem = t.idem := rfl
@[simp] theorem Task.lowerFlag_entry (t : Task) (n : Nat) : (t.lowerFlag n).entry = t.entry := rfl
@[simp] theorem Task.lowerFlag_supervisor (t : Task) (n : Nat) : (t.lowerFlag n).supervisor = t.supervisor := rfl
@[simp] theorem Task.lowerFlag_onComplex (t : Task) (n : Nat) : (t.lowerFlag n).onComplex = t.onComplex := rfl
@[simp] theorem Task.lowerFlag_xtask (t : Task) (n : Nat) : (t.lowerFlag n).xtask = t.xtask := rfl
@[simp] theorem Task.lowerFlag_xdead (t : Task) (n : Nat) : (t.lowerFlag n).xdead = t.xdead := rfl
@[simp] theorem Task.lowerFlag_exited (t : Task) (n : Nat) : (t.lowerFlag n).exited = t.exited := rfl
@[simp] theorem Task.lowerFlag_xtile (t : Task) (n : Nat) : (t.lowerFlag n).xtile = t.xtile := rfl
@[simp] theorem Task.lowerFlag_xtagB (t : Task) (n : Nat) : (t.lowerFlag n).xtagB = t.xtagB := rfl
@[simp] theorem Task.lowerFlag_xepc (t : Task) (n : Nat) : (t.lowerFlag n).xepc = t.xepc := rfl
@[simp] theorem Task.lowerFlag_xcause (t : Task) (n : Nat) : (t.lowerFlag n).xcause = t.xcause := rfl
@[simp] theorem Task.lowerFlag_xsyn (t : Task) (n : Nat) : (t.lowerFlag n).xsyn = t.xsyn := rfl
@[simp] theorem Task.lowerFlag_xaddr (t : Task) (n : Nat) : (t.lowerFlag n).xaddr = t.xaddr := rfl
@[simp] theorem Task.lowerFlag_xunit (t : Task) (n : Nat) : (t.lowerFlag n).xunit = t.xunit := rfl
@[simp] theorem Task.lowerFlag_xhnd (t : Task) (n : Nat) : (t.lowerFlag n).xhnd = t.xhnd := rfl
@[simp] theorem Task.lowerFlag_hlanes (t : Task) (n : Nat) : (t.lowerFlag n).hlanes = t.hlanes := rfl
@[simp] theorem Task.lowerFlag_v (t : Task) (n : Nat) : (t.lowerFlag n).v = t.v := rfl
@[simp] theorem Task.lowerFlag_u (t : Task) (n : Nat) : (t.lowerFlag n).u = t.u := rfl
@[simp] theorem Task.lowerFlag_p (t : Task) (n : Nat) : (t.lowerFlag n).p = t.p := rfl
@[simp] theorem Task.lowerFlag_q (t : Task) (n : Nat) : (t.lowerFlag n).q = t.q := rfl
@[simp] theorem Task.lowerFlag_acc (t : Task) (n : Nat) : (t.lowerFlag n).acc = t.acc := rfl
@[simp] theorem Task.lowerFlag_joins (t : Task) (n : Nat) : (t.lowerFlag n).joins = t.joins := rfl
@[simp] theorem Task.lowerFlag_pjoins (t : Task) (n : Nat) : (t.lowerFlag n).pjoins = t.pjoins := rfl
@[simp] theorem Task.lowerFlag_splits (t : Task) (n : Nat) : (t.lowerFlag n).splits = t.splits := rfl
@[simp] theorem Task.lowerFlag_stack (t : Task) (n : Nat) : (t.lowerFlag n).stack = t.stack := rfl
@[simp] theorem Task.lowerFlag_pend (t : Task) (n : Nat) : (t.lowerFlag n).pend = t.pend := rfl
@[simp] theorem Task.lowerFlag_cfPrev (t : Task) (n : Nat) : (t.lowerFlag n).cfPrev = t.cfPrev := rfl
@[simp] theorem Task.lowerFlag_mtile (t : Task) (n : Nat) : (t.lowerFlag n).mtile = t.mtile := rfl
@[simp] theorem Task.lowerFlag_state (t : Task) (n : Nat) : (t.lowerFlag n).state = t.state := rfl
@[simp] theorem Task.lowerFlag_fetches (t : Task) (n : Nat) : (t.lowerFlag n).fetches = t.fetches := rfl
@[simp] theorem Task.lowerFlag_tileDone (t : Task) (n : Nat) : (t.lowerFlag n).tileDone = t.tileDone := rfl
@[simp] theorem Task.lowerFlag_seen (t : Task) (n : Nat) : (t.lowerFlag n).seen = t.seen := rfl
@[simp] theorem Task.lowerFlag_seenMore (t : Task) (n : Nat) : (t.lowerFlag n).seenMore = t.seenMore := rfl
@[simp] theorem Task.lowerFlag_window (t : Task) (n : Nat) : (t.lowerFlag n).window = t.window := rfl
@[simp] theorem Task.lowerFlag_wdog (t : Task) (n : Nat) : (t.lowerFlag n).wdog = t.wdog := rfl
@[simp] theorem Task.lowerFlag_progressed (t : Task) (n : Nat) : (t.lowerFlag n).progressed = t.progressed := rfl
@[simp] theorem Task.lowerFlag_committed (t : Task) (n : Nat) : (t.lowerFlag n).committed = t.committed := rfl
@[simp] theorem Task.lowerFlag_fromResume (t : Task) (n : Nat) : (t.lowerFlag n).fromResume = t.fromResume := rfl
@[simp] theorem Task.lowerFlag_ending (t : Task) (n : Nat) : (t.lowerFlag n).ending = t.ending := rfl
@[simp] theorem Task.lowerFlag_endValue (t : Task) (n : Nat) : (t.lowerFlag n).endValue = t.endValue := rfl
@[simp] theorem Task.lowerFlag_departed (t : Task) (n : Nat) : (t.lowerFlag n).departed = t.departed := rfl
@[simp] theorem Task.lowerFlag_waitSince (t : Task) (n : Nat) : (t.lowerFlag n).waitSince = t.waitSince := rfl
@[simp] theorem Task.lowerFlag_settled (t : Task) (n : Nat) : (t.lowerFlag n).settled = t.settled := rfl
@[simp] theorem Task.lowerFlag_mergedAt (t : Task) (n : Nat) : (t.lowerFlag n).mergedAt = t.mergedAt := rfl
@[simp] theorem Task.lowerFlag_parkOn (t : Task) (n : Nat) : (t.lowerFlag n).parkOn = t.parkOn := rfl
@[simp] theorem Task.lowerFlag_free (t : Task) (n : Nat) : (t.lowerFlag n).free = t.free := rfl
@[simp] theorem Task.lowerFlag_cf (t : Task) (n : Nat) : (t.lowerFlag n).cf = t.cf.set n (t.cf.getD n 0 - 1) := rfl

/-! ### Task.writeTrap -/

@[simp] theorem Task.writeTrap_ctx (t : Task) (epc : Word) (i : TrapInfo) : (t.writeTrap epc i).ctx = t.ctx := rfl
@[simp] theorem Task.writeTrap_core (t : Task) (epc : Word) (i : TrapInfo) : (t.writeTrap epc i).core = t.core := rfl
@[simp] theorem Task.writeTrap_part (t : Task) (epc : Word) (i : TrapInfo) : (t.writeTrap epc i).part = t.part := rfl
@[simp] theorem Task.writeTrap_slot (t : Task) (epc : Word) (i : TrapInfo) : (t.writeTrap epc i).slot = t.slot := rfl
@[simp] theorem Task.writeTrap_team (t : Task) (epc : Word) (i : TrapInfo) : (t.writeTrap epc i).team = t.team := rfl
@[simp] theorem Task.writeTrap_idx (t : Task) (epc : Word) (i : TrapInfo) : (t.writeTrap epc i).idx = t.idx := rfl
@[simp] theorem Task.writeTrap_sizeM1 (t : Task) (epc : Word) (i : TrapInfo) : (t.writeTrap epc i).sizeM1 = t.sizeM1 := rfl
@[simp] theorem Task.writeTrap_vblk (t : Task) (epc : Word) (i : TrapInfo) : (t.writeTrap epc i).vblk = t.vblk := rfl
@[simp] theorem Task.writeTrap_sblk (t : Task) (epc : Word) (i : TrapInfo) : (t.writeTrap epc i).sblk = t.sblk := rfl
@[simp] theorem Task.writeTrap_ablk (t : Task) (epc : Word) (i : TrapInfo) : (t.writeTrap epc i).ablk = t.ablk := rfl
@[simp] theorem Task.writeTrap_acore (t : Task) (epc : Word) (i : TrapInfo) : (t.writeTrap epc i).acore = t.acore := rfl
@[simp] theorem Task.writeTrap_tiles (t : Task) (epc : Word) (i : TrapInfo) : (t.writeTrap epc i).tiles = t.tiles := rfl
@[simp] theorem Task.writeTrap_prio (t : Task) (epc : Word) (i : TrapInfo) : (t.writeTrap epc i).prio = t.prio := rfl
@[simp] theorem Task.writeTrap_lanekill (t : Task) (epc : Word) (i : TrapInfo) : (t.writeTrap epc i).lanekill = t.lanekill := rfl
@[simp] theorem Task.writeTrap_idem (t : Task) (epc : Word) (i : TrapInfo) : (t.writeTrap epc i).idem = t.idem := rfl
@[simp] theorem Task.writeTrap_entry (t : Task) (epc : Word) (i : TrapInfo) : (t.writeTrap epc i).entry = t.entry := rfl
@[simp] theorem Task.writeTrap_supervisor (t : Task) (epc : Word) (i : TrapInfo) : (t.writeTrap epc i).supervisor = t.supervisor := rfl
@[simp] theorem Task.writeTrap_onComplex (t : Task) (epc : Word) (i : TrapInfo) : (t.writeTrap epc i).onComplex = t.onComplex := rfl
@[simp] theorem Task.writeTrap_xtask (t : Task) (epc : Word) (i : TrapInfo) : (t.writeTrap epc i).xtask = t.xtask := rfl
@[simp] theorem Task.writeTrap_xdead (t : Task) (epc : Word) (i : TrapInfo) : (t.writeTrap epc i).xdead = t.xdead := rfl
@[simp] theorem Task.writeTrap_exited (t : Task) (epc : Word) (i : TrapInfo) : (t.writeTrap epc i).exited = t.exited := rfl
@[simp] theorem Task.writeTrap_xtile (t : Task) (epc : Word) (i : TrapInfo) : (t.writeTrap epc i).xtile = t.xtile := rfl
@[simp] theorem Task.writeTrap_xtagB (t : Task) (epc : Word) (i : TrapInfo) : (t.writeTrap epc i).xtagB = t.xtagB := rfl
@[simp] theorem Task.writeTrap_xhnd (t : Task) (epc : Word) (i : TrapInfo) : (t.writeTrap epc i).xhnd = t.xhnd := rfl
@[simp] theorem Task.writeTrap_hlanes (t : Task) (epc : Word) (i : TrapInfo) : (t.writeTrap epc i).hlanes = t.hlanes := rfl
@[simp] theorem Task.writeTrap_v (t : Task) (epc : Word) (i : TrapInfo) : (t.writeTrap epc i).v = t.v := rfl
@[simp] theorem Task.writeTrap_u (t : Task) (epc : Word) (i : TrapInfo) : (t.writeTrap epc i).u = t.u := rfl
@[simp] theorem Task.writeTrap_p (t : Task) (epc : Word) (i : TrapInfo) : (t.writeTrap epc i).p = t.p := rfl
@[simp] theorem Task.writeTrap_q (t : Task) (epc : Word) (i : TrapInfo) : (t.writeTrap epc i).q = t.q := rfl
@[simp] theorem Task.writeTrap_acc (t : Task) (epc : Word) (i : TrapInfo) : (t.writeTrap epc i).acc = t.acc := rfl
@[simp] theorem Task.writeTrap_joins (t : Task) (epc : Word) (i : TrapInfo) : (t.writeTrap epc i).joins = t.joins := rfl
@[simp] theorem Task.writeTrap_pjoins (t : Task) (epc : Word) (i : TrapInfo) : (t.writeTrap epc i).pjoins = t.pjoins := rfl
@[simp] theorem Task.writeTrap_splits (t : Task) (epc : Word) (i : TrapInfo) : (t.writeTrap epc i).splits = t.splits := rfl
@[simp] theorem Task.writeTrap_stack (t : Task) (epc : Word) (i : TrapInfo) : (t.writeTrap epc i).stack = t.stack := rfl
@[simp] theorem Task.writeTrap_pend (t : Task) (epc : Word) (i : TrapInfo) : (t.writeTrap epc i).pend = t.pend := rfl
@[simp] theorem Task.writeTrap_cf (t : Task) (epc : Word) (i : TrapInfo) : (t.writeTrap epc i).cf = t.cf := rfl
@[simp] theorem Task.writeTrap_cfPrev (t : Task) (epc : Word) (i : TrapInfo) : (t.writeTrap epc i).cfPrev = t.cfPrev := rfl
@[simp] theorem Task.writeTrap_mtile (t : Task) (epc : Word) (i : TrapInfo) : (t.writeTrap epc i).mtile = t.mtile := rfl
@[simp] theorem Task.writeTrap_state (t : Task) (epc : Word) (i : TrapInfo) : (t.writeTrap epc i).state = t.state := rfl
@[simp] theorem Task.writeTrap_fetches (t : Task) (epc : Word) (i : TrapInfo) : (t.writeTrap epc i).fetches = t.fetches := rfl
@[simp] theorem Task.writeTrap_tileDone (t : Task) (epc : Word) (i : TrapInfo) : (t.writeTrap epc i).tileDone = t.tileDone := rfl
@[simp] theorem Task.writeTrap_seen (t : Task) (epc : Word) (i : TrapInfo) : (t.writeTrap epc i).seen = t.seen := rfl
@[simp] theorem Task.writeTrap_seenMore (t : Task) (epc : Word) (i : TrapInfo) : (t.writeTrap epc i).seenMore = t.seenMore := rfl
@[simp] theorem Task.writeTrap_window (t : Task) (epc : Word) (i : TrapInfo) : (t.writeTrap epc i).window = t.window := rfl
@[simp] theorem Task.writeTrap_wdog (t : Task) (epc : Word) (i : TrapInfo) : (t.writeTrap epc i).wdog = t.wdog := rfl
@[simp] theorem Task.writeTrap_progressed (t : Task) (epc : Word) (i : TrapInfo) : (t.writeTrap epc i).progressed = t.progressed := rfl
@[simp] theorem Task.writeTrap_committed (t : Task) (epc : Word) (i : TrapInfo) : (t.writeTrap epc i).committed = t.committed := rfl
@[simp] theorem Task.writeTrap_fromResume (t : Task) (epc : Word) (i : TrapInfo) : (t.writeTrap epc i).fromResume = t.fromResume := rfl
@[simp] theorem Task.writeTrap_ending (t : Task) (epc : Word) (i : TrapInfo) : (t.writeTrap epc i).ending = t.ending := rfl
@[simp] theorem Task.writeTrap_endValue (t : Task) (epc : Word) (i : TrapInfo) : (t.writeTrap epc i).endValue = t.endValue := rfl
@[simp] theorem Task.writeTrap_departed (t : Task) (epc : Word) (i : TrapInfo) : (t.writeTrap epc i).departed = t.departed := rfl
@[simp] theorem Task.writeTrap_waitSince (t : Task) (epc : Word) (i : TrapInfo) : (t.writeTrap epc i).waitSince = t.waitSince := rfl
@[simp] theorem Task.writeTrap_settled (t : Task) (epc : Word) (i : TrapInfo) : (t.writeTrap epc i).settled = t.settled := rfl
@[simp] theorem Task.writeTrap_mergedAt (t : Task) (epc : Word) (i : TrapInfo) : (t.writeTrap epc i).mergedAt = t.mergedAt := rfl
@[simp] theorem Task.writeTrap_parkOn (t : Task) (epc : Word) (i : TrapInfo) : (t.writeTrap epc i).parkOn = t.parkOn := rfl
@[simp] theorem Task.writeTrap_free (t : Task) (epc : Word) (i : TrapInfo) : (t.writeTrap epc i).free = t.free := rfl
@[simp] theorem Task.writeTrap_xepc (t : Task) (epc : Word) (i : TrapInfo) : (t.writeTrap epc i).xepc = i.epc.getD epc := rfl
@[simp] theorem Task.writeTrap_xcause (t : Task) (epc : Word) (i : TrapInfo) : (t.writeTrap epc i).xcause = BitVec.ofNat 64 i.cause := rfl
@[simp] theorem Task.writeTrap_xsyn (t : Task) (epc : Word) (i : TrapInfo) : (t.writeTrap epc i).xsyn = i.syn := rfl
@[simp] theorem Task.writeTrap_xaddr (t : Task) (epc : Word) (i : TrapInfo) : (t.writeTrap epc i).xaddr = i.addr := rfl
@[simp] theorem Task.writeTrap_xunit (t : Task) (epc : Word) (i : TrapInfo) : (t.writeTrap epc i).xunit = BitVec.ofNat 64 (unitOf t.core t.part i.kind) := rfl

/-! ### Task.modSplit and Task.startOp -/

@[simp] theorem Task.modSplit_ctx (t : Task) (e : Nat) (f : Split → Split) : (t.modSplit e f).ctx = t.ctx := by
  unfold Task.modSplit; split <;> rfl
@[simp] theorem Task.modSplit_core (t : Task) (e : Nat) (f : Split → Split) : (t.modSplit e f).core = t.core := by
  unfold Task.modSplit; split <;> rfl
@[simp] theorem Task.modSplit_part (t : Task) (e : Nat) (f : Split → Split) : (t.modSplit e f).part = t.part := by
  unfold Task.modSplit; split <;> rfl
@[simp] theorem Task.modSplit_slot (t : Task) (e : Nat) (f : Split → Split) : (t.modSplit e f).slot = t.slot := by
  unfold Task.modSplit; split <;> rfl
@[simp] theorem Task.modSplit_team (t : Task) (e : Nat) (f : Split → Split) : (t.modSplit e f).team = t.team := by
  unfold Task.modSplit; split <;> rfl
@[simp] theorem Task.modSplit_idx (t : Task) (e : Nat) (f : Split → Split) : (t.modSplit e f).idx = t.idx := by
  unfold Task.modSplit; split <;> rfl
@[simp] theorem Task.modSplit_sizeM1 (t : Task) (e : Nat) (f : Split → Split) : (t.modSplit e f).sizeM1 = t.sizeM1 := by
  unfold Task.modSplit; split <;> rfl
@[simp] theorem Task.modSplit_vblk (t : Task) (e : Nat) (f : Split → Split) : (t.modSplit e f).vblk = t.vblk := by
  unfold Task.modSplit; split <;> rfl
@[simp] theorem Task.modSplit_sblk (t : Task) (e : Nat) (f : Split → Split) : (t.modSplit e f).sblk = t.sblk := by
  unfold Task.modSplit; split <;> rfl
@[simp] theorem Task.modSplit_ablk (t : Task) (e : Nat) (f : Split → Split) : (t.modSplit e f).ablk = t.ablk := by
  unfold Task.modSplit; split <;> rfl
@[simp] theorem Task.modSplit_acore (t : Task) (e : Nat) (f : Split → Split) : (t.modSplit e f).acore = t.acore := by
  unfold Task.modSplit; split <;> rfl
@[simp] theorem Task.modSplit_tiles (t : Task) (e : Nat) (f : Split → Split) : (t.modSplit e f).tiles = t.tiles := by
  unfold Task.modSplit; split <;> rfl
@[simp] theorem Task.modSplit_prio (t : Task) (e : Nat) (f : Split → Split) : (t.modSplit e f).prio = t.prio := by
  unfold Task.modSplit; split <;> rfl
@[simp] theorem Task.modSplit_lanekill (t : Task) (e : Nat) (f : Split → Split) : (t.modSplit e f).lanekill = t.lanekill := by
  unfold Task.modSplit; split <;> rfl
@[simp] theorem Task.modSplit_idem (t : Task) (e : Nat) (f : Split → Split) : (t.modSplit e f).idem = t.idem := by
  unfold Task.modSplit; split <;> rfl
@[simp] theorem Task.modSplit_entry (t : Task) (e : Nat) (f : Split → Split) : (t.modSplit e f).entry = t.entry := by
  unfold Task.modSplit; split <;> rfl
@[simp] theorem Task.modSplit_supervisor (t : Task) (e : Nat) (f : Split → Split) : (t.modSplit e f).supervisor = t.supervisor := by
  unfold Task.modSplit; split <;> rfl
@[simp] theorem Task.modSplit_onComplex (t : Task) (e : Nat) (f : Split → Split) : (t.modSplit e f).onComplex = t.onComplex := by
  unfold Task.modSplit; split <;> rfl
@[simp] theorem Task.modSplit_xtask (t : Task) (e : Nat) (f : Split → Split) : (t.modSplit e f).xtask = t.xtask := by
  unfold Task.modSplit; split <;> rfl
@[simp] theorem Task.modSplit_xdead (t : Task) (e : Nat) (f : Split → Split) : (t.modSplit e f).xdead = t.xdead := by
  unfold Task.modSplit; split <;> rfl
@[simp] theorem Task.modSplit_exited (t : Task) (e : Nat) (f : Split → Split) : (t.modSplit e f).exited = t.exited := by
  unfold Task.modSplit; split <;> rfl
@[simp] theorem Task.modSplit_xtile (t : Task) (e : Nat) (f : Split → Split) : (t.modSplit e f).xtile = t.xtile := by
  unfold Task.modSplit; split <;> rfl
@[simp] theorem Task.modSplit_xtagB (t : Task) (e : Nat) (f : Split → Split) : (t.modSplit e f).xtagB = t.xtagB := by
  unfold Task.modSplit; split <;> rfl
@[simp] theorem Task.modSplit_xepc (t : Task) (e : Nat) (f : Split → Split) : (t.modSplit e f).xepc = t.xepc := by
  unfold Task.modSplit; split <;> rfl
@[simp] theorem Task.modSplit_xcause (t : Task) (e : Nat) (f : Split → Split) : (t.modSplit e f).xcause = t.xcause := by
  unfold Task.modSplit; split <;> rfl
@[simp] theorem Task.modSplit_xsyn (t : Task) (e : Nat) (f : Split → Split) : (t.modSplit e f).xsyn = t.xsyn := by
  unfold Task.modSplit; split <;> rfl
@[simp] theorem Task.modSplit_xaddr (t : Task) (e : Nat) (f : Split → Split) : (t.modSplit e f).xaddr = t.xaddr := by
  unfold Task.modSplit; split <;> rfl
@[simp] theorem Task.modSplit_xunit (t : Task) (e : Nat) (f : Split → Split) : (t.modSplit e f).xunit = t.xunit := by
  unfold Task.modSplit; split <;> rfl
@[simp] theorem Task.modSplit_xhnd (t : Task) (e : Nat) (f : Split → Split) : (t.modSplit e f).xhnd = t.xhnd := by
  unfold Task.modSplit; split <;> rfl
@[simp] theorem Task.modSplit_hlanes (t : Task) (e : Nat) (f : Split → Split) : (t.modSplit e f).hlanes = t.hlanes := by
  unfold Task.modSplit; split <;> rfl
@[simp] theorem Task.modSplit_v (t : Task) (e : Nat) (f : Split → Split) : (t.modSplit e f).v = t.v := by
  unfold Task.modSplit; split <;> rfl
@[simp] theorem Task.modSplit_u (t : Task) (e : Nat) (f : Split → Split) : (t.modSplit e f).u = t.u := by
  unfold Task.modSplit; split <;> rfl
@[simp] theorem Task.modSplit_p (t : Task) (e : Nat) (f : Split → Split) : (t.modSplit e f).p = t.p := by
  unfold Task.modSplit; split <;> rfl
@[simp] theorem Task.modSplit_q (t : Task) (e : Nat) (f : Split → Split) : (t.modSplit e f).q = t.q := by
  unfold Task.modSplit; split <;> rfl
@[simp] theorem Task.modSplit_acc (t : Task) (e : Nat) (f : Split → Split) : (t.modSplit e f).acc = t.acc := by
  unfold Task.modSplit; split <;> rfl
@[simp] theorem Task.modSplit_joins (t : Task) (e : Nat) (f : Split → Split) : (t.modSplit e f).joins = t.joins := by
  unfold Task.modSplit; split <;> rfl
@[simp] theorem Task.modSplit_pjoins (t : Task) (e : Nat) (f : Split → Split) : (t.modSplit e f).pjoins = t.pjoins := by
  unfold Task.modSplit; split <;> rfl
@[simp] theorem Task.modSplit_stack (t : Task) (e : Nat) (f : Split → Split) : (t.modSplit e f).stack = t.stack := by
  unfold Task.modSplit; split <;> rfl
@[simp] theorem Task.modSplit_pend (t : Task) (e : Nat) (f : Split → Split) : (t.modSplit e f).pend = t.pend := by
  unfold Task.modSplit; split <;> rfl
@[simp] theorem Task.modSplit_cf (t : Task) (e : Nat) (f : Split → Split) : (t.modSplit e f).cf = t.cf := by
  unfold Task.modSplit; split <;> rfl
@[simp] theorem Task.modSplit_cfPrev (t : Task) (e : Nat) (f : Split → Split) : (t.modSplit e f).cfPrev = t.cfPrev := by
  unfold Task.modSplit; split <;> rfl
@[simp] theorem Task.modSplit_mtile (t : Task) (e : Nat) (f : Split → Split) : (t.modSplit e f).mtile = t.mtile := by
  unfold Task.modSplit; split <;> rfl
@[simp] theorem Task.modSplit_state (t : Task) (e : Nat) (f : Split → Split) : (t.modSplit e f).state = t.state := by
  unfold Task.modSplit; split <;> rfl
@[simp] theorem Task.modSplit_fetches (t : Task) (e : Nat) (f : Split → Split) : (t.modSplit e f).fetches = t.fetches := by
  unfold Task.modSplit; split <;> rfl
@[simp] theorem Task.modSplit_tileDone (t : Task) (e : Nat) (f : Split → Split) : (t.modSplit e f).tileDone = t.tileDone := by
  unfold Task.modSplit; split <;> rfl
@[simp] theorem Task.modSplit_seen (t : Task) (e : Nat) (f : Split → Split) : (t.modSplit e f).seen = t.seen := by
  unfold Task.modSplit; split <;> rfl
@[simp] theorem Task.modSplit_seenMore (t : Task) (e : Nat) (f : Split → Split) : (t.modSplit e f).seenMore = t.seenMore := by
  unfold Task.modSplit; split <;> rfl
@[simp] theorem Task.modSplit_window (t : Task) (e : Nat) (f : Split → Split) : (t.modSplit e f).window = t.window := by
  unfold Task.modSplit; split <;> rfl
@[simp] theorem Task.modSplit_wdog (t : Task) (e : Nat) (f : Split → Split) : (t.modSplit e f).wdog = t.wdog := by
  unfold Task.modSplit; split <;> rfl
@[simp] theorem Task.modSplit_progressed (t : Task) (e : Nat) (f : Split → Split) : (t.modSplit e f).progressed = t.progressed := by
  unfold Task.modSplit; split <;> rfl
@[simp] theorem Task.modSplit_committed (t : Task) (e : Nat) (f : Split → Split) : (t.modSplit e f).committed = t.committed := by
  unfold Task.modSplit; split <;> rfl
@[simp] theorem Task.modSplit_fromResume (t : Task) (e : Nat) (f : Split → Split) : (t.modSplit e f).fromResume = t.fromResume := by
  unfold Task.modSplit; split <;> rfl
@[simp] theorem Task.modSplit_ending (t : Task) (e : Nat) (f : Split → Split) : (t.modSplit e f).ending = t.ending := by
  unfold Task.modSplit; split <;> rfl
@[simp] theorem Task.modSplit_endValue (t : Task) (e : Nat) (f : Split → Split) : (t.modSplit e f).endValue = t.endValue := by
  unfold Task.modSplit; split <;> rfl
@[simp] theorem Task.modSplit_departed (t : Task) (e : Nat) (f : Split → Split) : (t.modSplit e f).departed = t.departed := by
  unfold Task.modSplit; split <;> rfl
@[simp] theorem Task.modSplit_waitSince (t : Task) (e : Nat) (f : Split → Split) : (t.modSplit e f).waitSince = t.waitSince := by
  unfold Task.modSplit; split <;> rfl
@[simp] theorem Task.modSplit_settled (t : Task) (e : Nat) (f : Split → Split) : (t.modSplit e f).settled = t.settled := by
  unfold Task.modSplit; split <;> rfl
@[simp] theorem Task.modSplit_mergedAt (t : Task) (e : Nat) (f : Split → Split) : (t.modSplit e f).mergedAt = t.mergedAt := by
  unfold Task.modSplit; split <;> rfl
@[simp] theorem Task.modSplit_parkOn (t : Task) (e : Nat) (f : Split → Split) : (t.modSplit e f).parkOn = t.parkOn := by
  unfold Task.modSplit; split <;> rfl
@[simp] theorem Task.modSplit_free (t : Task) (e : Nat) (f : Split → Split) : (t.modSplit e f).free = t.free := by
  unfold Task.modSplit; split <;> rfl
@[simp] theorem Task.startOp_ctx (t : Task) (o : PendOp) : (t.startOp o).ctx = t.ctx := by
  unfold Task.startOp; split <;> rfl
@[simp] theorem Task.startOp_core (t : Task) (o : PendOp) : (t.startOp o).core = t.core := by
  unfold Task.startOp; split <;> rfl
@[simp] theorem Task.startOp_part (t : Task) (o : PendOp) : (t.startOp o).part = t.part := by
  unfold Task.startOp; split <;> rfl
@[simp] theorem Task.startOp_slot (t : Task) (o : PendOp) : (t.startOp o).slot = t.slot := by
  unfold Task.startOp; split <;> rfl
@[simp] theorem Task.startOp_team (t : Task) (o : PendOp) : (t.startOp o).team = t.team := by
  unfold Task.startOp; split <;> rfl
@[simp] theorem Task.startOp_idx (t : Task) (o : PendOp) : (t.startOp o).idx = t.idx := by
  unfold Task.startOp; split <;> rfl
@[simp] theorem Task.startOp_sizeM1 (t : Task) (o : PendOp) : (t.startOp o).sizeM1 = t.sizeM1 := by
  unfold Task.startOp; split <;> rfl
@[simp] theorem Task.startOp_vblk (t : Task) (o : PendOp) : (t.startOp o).vblk = t.vblk := by
  unfold Task.startOp; split <;> rfl
@[simp] theorem Task.startOp_sblk (t : Task) (o : PendOp) : (t.startOp o).sblk = t.sblk := by
  unfold Task.startOp; split <;> rfl
@[simp] theorem Task.startOp_ablk (t : Task) (o : PendOp) : (t.startOp o).ablk = t.ablk := by
  unfold Task.startOp; split <;> rfl
@[simp] theorem Task.startOp_acore (t : Task) (o : PendOp) : (t.startOp o).acore = t.acore := by
  unfold Task.startOp; split <;> rfl
@[simp] theorem Task.startOp_tiles (t : Task) (o : PendOp) : (t.startOp o).tiles = t.tiles := by
  unfold Task.startOp; split <;> rfl
@[simp] theorem Task.startOp_prio (t : Task) (o : PendOp) : (t.startOp o).prio = t.prio := by
  unfold Task.startOp; split <;> rfl
@[simp] theorem Task.startOp_lanekill (t : Task) (o : PendOp) : (t.startOp o).lanekill = t.lanekill := by
  unfold Task.startOp; split <;> rfl
@[simp] theorem Task.startOp_idem (t : Task) (o : PendOp) : (t.startOp o).idem = t.idem := by
  unfold Task.startOp; split <;> rfl
@[simp] theorem Task.startOp_entry (t : Task) (o : PendOp) : (t.startOp o).entry = t.entry := by
  unfold Task.startOp; split <;> rfl
@[simp] theorem Task.startOp_supervisor (t : Task) (o : PendOp) : (t.startOp o).supervisor = t.supervisor := by
  unfold Task.startOp; split <;> rfl
@[simp] theorem Task.startOp_onComplex (t : Task) (o : PendOp) : (t.startOp o).onComplex = t.onComplex := by
  unfold Task.startOp; split <;> rfl
@[simp] theorem Task.startOp_xtask (t : Task) (o : PendOp) : (t.startOp o).xtask = t.xtask := by
  unfold Task.startOp; split <;> rfl
@[simp] theorem Task.startOp_xdead (t : Task) (o : PendOp) : (t.startOp o).xdead = t.xdead := by
  unfold Task.startOp; split <;> rfl
@[simp] theorem Task.startOp_exited (t : Task) (o : PendOp) : (t.startOp o).exited = t.exited := by
  unfold Task.startOp; split <;> rfl
@[simp] theorem Task.startOp_xtile (t : Task) (o : PendOp) : (t.startOp o).xtile = t.xtile := by
  unfold Task.startOp; split <;> rfl
@[simp] theorem Task.startOp_xtagB (t : Task) (o : PendOp) : (t.startOp o).xtagB = t.xtagB := by
  unfold Task.startOp; split <;> rfl
@[simp] theorem Task.startOp_xepc (t : Task) (o : PendOp) : (t.startOp o).xepc = t.xepc := by
  unfold Task.startOp; split <;> rfl
@[simp] theorem Task.startOp_xcause (t : Task) (o : PendOp) : (t.startOp o).xcause = t.xcause := by
  unfold Task.startOp; split <;> rfl
@[simp] theorem Task.startOp_xsyn (t : Task) (o : PendOp) : (t.startOp o).xsyn = t.xsyn := by
  unfold Task.startOp; split <;> rfl
@[simp] theorem Task.startOp_xaddr (t : Task) (o : PendOp) : (t.startOp o).xaddr = t.xaddr := by
  unfold Task.startOp; split <;> rfl
@[simp] theorem Task.startOp_xunit (t : Task) (o : PendOp) : (t.startOp o).xunit = t.xunit := by
  unfold Task.startOp; split <;> rfl
@[simp] theorem Task.startOp_xhnd (t : Task) (o : PendOp) : (t.startOp o).xhnd = t.xhnd := by
  unfold Task.startOp; split <;> rfl
@[simp] theorem Task.startOp_hlanes (t : Task) (o : PendOp) : (t.startOp o).hlanes = t.hlanes := by
  unfold Task.startOp; split <;> rfl
@[simp] theorem Task.startOp_v (t : Task) (o : PendOp) : (t.startOp o).v = t.v := by
  unfold Task.startOp; split <;> rfl
@[simp] theorem Task.startOp_u (t : Task) (o : PendOp) : (t.startOp o).u = t.u := by
  unfold Task.startOp; split <;> rfl
@[simp] theorem Task.startOp_p (t : Task) (o : PendOp) : (t.startOp o).p = t.p := by
  unfold Task.startOp; split <;> rfl
@[simp] theorem Task.startOp_q (t : Task) (o : PendOp) : (t.startOp o).q = t.q := by
  unfold Task.startOp; split <;> rfl
@[simp] theorem Task.startOp_acc (t : Task) (o : PendOp) : (t.startOp o).acc = t.acc := by
  unfold Task.startOp; split <;> rfl
@[simp] theorem Task.startOp_joins (t : Task) (o : PendOp) : (t.startOp o).joins = t.joins := by
  unfold Task.startOp; split <;> rfl
@[simp] theorem Task.startOp_pjoins (t : Task) (o : PendOp) : (t.startOp o).pjoins = t.pjoins := by
  unfold Task.startOp; split <;> rfl
@[simp] theorem Task.startOp_splits (t : Task) (o : PendOp) : (t.startOp o).splits = t.splits := by
  unfold Task.startOp; split <;> rfl
@[simp] theorem Task.startOp_stack (t : Task) (o : PendOp) : (t.startOp o).stack = t.stack := by
  unfold Task.startOp; split <;> rfl
@[simp] theorem Task.startOp_cfPrev (t : Task) (o : PendOp) : (t.startOp o).cfPrev = t.cfPrev := by
  unfold Task.startOp; split <;> rfl
@[simp] theorem Task.startOp_mtile (t : Task) (o : PendOp) : (t.startOp o).mtile = t.mtile := by
  unfold Task.startOp; split <;> rfl
@[simp] theorem Task.startOp_state (t : Task) (o : PendOp) : (t.startOp o).state = t.state := by
  unfold Task.startOp; split <;> rfl
@[simp] theorem Task.startOp_fetches (t : Task) (o : PendOp) : (t.startOp o).fetches = t.fetches := by
  unfold Task.startOp; split <;> rfl
@[simp] theorem Task.startOp_tileDone (t : Task) (o : PendOp) : (t.startOp o).tileDone = t.tileDone := by
  unfold Task.startOp; split <;> rfl
@[simp] theorem Task.startOp_seen (t : Task) (o : PendOp) : (t.startOp o).seen = t.seen := by
  unfold Task.startOp; split <;> rfl
@[simp] theorem Task.startOp_seenMore (t : Task) (o : PendOp) : (t.startOp o).seenMore = t.seenMore := by
  unfold Task.startOp; split <;> rfl
@[simp] theorem Task.startOp_window (t : Task) (o : PendOp) : (t.startOp o).window = t.window := by
  unfold Task.startOp; split <;> rfl
@[simp] theorem Task.startOp_wdog (t : Task) (o : PendOp) : (t.startOp o).wdog = t.wdog := by
  unfold Task.startOp; split <;> rfl
@[simp] theorem Task.startOp_progressed (t : Task) (o : PendOp) : (t.startOp o).progressed = t.progressed := by
  unfold Task.startOp; split <;> rfl
@[simp] theorem Task.startOp_committed (t : Task) (o : PendOp) : (t.startOp o).committed = t.committed := by
  unfold Task.startOp; split <;> rfl
@[simp] theorem Task.startOp_fromResume (t : Task) (o : PendOp) : (t.startOp o).fromResume = t.fromResume := by
  unfold Task.startOp; split <;> rfl
@[simp] theorem Task.startOp_ending (t : Task) (o : PendOp) : (t.startOp o).ending = t.ending := by
  unfold Task.startOp; split <;> rfl
@[simp] theorem Task.startOp_endValue (t : Task) (o : PendOp) : (t.startOp o).endValue = t.endValue := by
  unfold Task.startOp; split <;> rfl
@[simp] theorem Task.startOp_departed (t : Task) (o : PendOp) : (t.startOp o).departed = t.departed := by
  unfold Task.startOp; split <;> rfl
@[simp] theorem Task.startOp_waitSince (t : Task) (o : PendOp) : (t.startOp o).waitSince = t.waitSince := by
  unfold Task.startOp; split <;> rfl
@[simp] theorem Task.startOp_settled (t : Task) (o : PendOp) : (t.startOp o).settled = t.settled := by
  unfold Task.startOp; split <;> rfl
@[simp] theorem Task.startOp_mergedAt (t : Task) (o : PendOp) : (t.startOp o).mergedAt = t.mergedAt := by
  unfold Task.startOp; split <;> rfl
@[simp] theorem Task.startOp_parkOn (t : Task) (o : PendOp) : (t.startOp o).parkOn = t.parkOn := by
  unfold Task.startOp; split <;> rfl
@[simp] theorem Task.startOp_free (t : Task) (o : PendOp) : (t.startOp o).free = t.free := by
  unfold Task.startOp; split <;> rfl

end Sys2Proof.Machine
end

