-- ==== Sys2Proof/Laws/Issue.lean ====
section
/-! SUPPORT. What the issue of a program instruction does, once for every instruction. -/

namespace Sys2Proof.Machine

theorem Task.split_setSplit_same {t : Task} {e : Nat} {x : Split} (h : t.split e = some x) (y : Option Split) :
    (t.setSplit e y).split e = y := by
  simp only [Task.split, Task.setSplit, List.getD_eq_getElem?_getD] at *
  rw [List.getElem?_set]
  by_cases hl : e < t.splits.length
  · simp [hl]
  · simp [List.getElem?_eq_none (by omega : t.splits.length ≤ e)] at h

theorem Task.split_setSplit_other {t : Task} {e d : Nat} (y : Option Split) (h : d ≠ e) :
    (t.setSplit e y).split d = t.split d := by
  simp [Task.split, Task.setSplit, List.getD_eq_getElem?_getD, Ne.symm h]

theorem Task.setSplit_setSplit (t : Task) (e : Nat) (x y : Option Split) : (t.setSplit e x).setSplit e y = t.setSplit e y := by
  simp [Task.setSplit]

theorem Task.modSplit_some {t : Task} {e : Nat} {x : Split} (h : t.split e = some x) (f : Split → Split) :
    t.modSplit e f = t.setSplit e (some (f x)) := by
  simp [Task.modSplit, h]

/-- What it means that a split issues an instruction. -/
theorem State.issuer_some {s : State} {i : Instr} {p : Issuer} (h : s.issuer i = some p) :
    s.issuing = some (p.tid, p.e) ∧ s.m.task p.tid = some p.t ∧ p.t.split p.e = some p.x ∧ p.x.held = false ∧ p.x.wait = none ∧
    p.x.resumed = none ∧ lowestFault (faults (envOf s.m p.t p.x) i) = none ∧ (supervisorOnly (opcodeOf i) = true → p.t.supervisor = true) ∧
    guardLanes p.t (guardOf i) p.x.xact = (p.k, 0) := by
  unfold State.issuer at h
  split at h
  · cases h
  · rename_i tid e hg
    split at h
    · cases h
    · rename_i t ht
      split at h
      · cases h
      · rename_i x hx
        split at h
        · rename_i hc
          cases h
          simp only [Bool.and_eq_true, Bool.not_eq_true', Option.isNone_iff_eq_none, Bool.or_eq_true, beq_iff_eq] at hc
          obtain ⟨⟨⟨⟨⟨h1, h2⟩, h6⟩, h3⟩, h4⟩, h5⟩ := hc
          refine ⟨hg, ht, hx, h1, h2, h6, h3, ?_, Prod.ext rfl h5⟩
          intro hs
          rcases h4 with h4 | h4
          · simp [hs] at h4
          · exact h4
        · cases h

theorem Mach.markIssue_eq {m : Mach} {p : Issuer} {i : Instr} (ht : m.task p.tid = some p.t) (hx : p.t.split p.e = some p.x) :
    m.markIssue p.tid p.e i = m.setTask p.tid (p.marked i) := by
  unfold Mach.markIssue Mach.modTask Mach.setTask
  rw [tabMod_some ht, Task.modSplit_some hx]
  rfl

theorem Issuer.split_marked {p : Issuer} (i : Instr) (hx : p.t.split p.e = some p.x) : (p.marked i).split p.e = some p.here :=
  Task.split_setSplit_same hx _

/-- An instruction that its split issues runs its body, and what the body answers is concluded. -/
theorem issue_issuer {i : Instr} {body : Mach → Iss → Res} {s : State} {p : Issuer} (h : s.issuer i = some p) :
    issue i body s = .next { s with m := conclude (p.iss s.m i) s.m.clk (body (s.m.setTask p.tid (p.marked i)) (p.iss s.m i)), grants := s.grants.tail } := by
  obtain ⟨hg, ht, hx, hh, hw, hr, hf, hp, hk⟩ := State.issuer_some h
  unfold issue
  rw [hg]
  simp only [ht, hx, hh, hw, Option.isSome_none, Bool.or_self, Bool.false_eq_true, if_false]
  congr 2
  unfold runIssue
  rw [hr]
  dsimp only
  unfold runFirst
  rw [Mach.markIssue_eq ht hx]
  have he : envOf (s.m.setTask p.tid (p.marked i)) p.t p.x = envOf s.m p.t p.x := rfl
  dsimp only
  rw [he, hf]
  have hp' : (supervisorOnly (opcodeOf i) && !p.t.supervisor) = false := by
    cases hs : supervisorOnly (opcodeOf i) with
    | false => rfl
    | true => simp [hp hs]
  simp only [hp', hk, Bool.false_eq_true, if_false]
  rfl

/-- A body that is done: the split goes on at its next slot. -/
theorem issue_done {i : Instr} {body : Mach → Iss → Res} {s : State} {p : Issuer} {m : Mach} (h : s.issuer i = some p)
    (hb : body (s.m.setTask p.tid (p.marked i)) (p.iss s.m i) = .done m) :
    issue i body s = .next { s with
      m := m.modTask p.tid fun t => t.modSplit p.e fun x => { x with xsig := p.sig i }.advance m.clk (slotsOf i) (headerNslot (headerAt s.m p.x)),
      grants := s.grants.tail } := by
  rw [issue_issuer h, hb]; rfl

/-- A body that is done, changed its own task by f, its issuing split not, and the rest of the machine to that of m. -/
theorem issue_effect {i : Instr} {body : Mach → Iss → Res} {s : State} {p : Issuer} {m : Mach} {f : Task → Task} (h : s.issuer i = some p)
    (hb : body (s.m.setTask p.tid (p.marked i)) (p.iss s.m i) = .done ({ m with tasks := tabSet s.m.tasks p.tid (p.marked i) }.modTask p.tid f))
    (hc : m.clk = s.m.clk) (hf : (f (p.marked i)).split p.e = (p.marked i).split p.e) :
    issue i body s = .next (s.issuedOn m p i f) := by
  obtain ⟨hg, ht, hx, -⟩ := State.issuer_some h
  rw [issue_done h hb]
  unfold State.issuedOn
  have hsp : (f (p.marked i)).split p.e = some p.here := by rw [hf]; exact Issuer.split_marked i hx
  simp only [Mach.modTask, tabMod_tabSet, Task.modSplit_some hsp, hc]
  rfl

/-- A body that is done and changed its own task alone, its issuing split not. -/
theorem issue_task {i : Instr} {body : Mach → Iss → Res} {s : State} {p : Issuer} {f : Task → Task} (h : s.issuer i = some p)
    (hb : body (s.m.setTask p.tid (p.marked i)) (p.iss s.m i) = .done ((s.m.setTask p.tid (p.marked i)).modTask p.tid f))
    (hf : (f (p.marked i)).split p.e = (p.marked i).split p.e) :
    issue i body s = .next (s.issued p i f) := issue_effect h hb rfl hf

/-- A body that has moved its split: the machine is what the body made. -/
theorem issue_moved {i : Instr} {body : Mach → Iss → Res} {s : State} {p : Issuer} {m : Mach} (h : s.issuer i = some p)
    (hb : body (s.m.setTask p.tid (p.marked i)) (p.iss s.m i) = .moved m) :
    issue i body s = .next { s with m := m, grants := s.grants.tail } := by
  rw [issue_issuer h, hb]; rfl

/-- A body that waits: its split keeps its place and waits in the instruction. -/
theorem issue_wait {i : Instr} {body : Mach → Iss → Res} {s : State} {p : Issuer} {m : Mach} {passed : Bool} {hold : Hold} (h : s.issuer i = some p)
    (hb : body (s.m.setTask p.tid (p.marked i)) (p.iss s.m i) = .wait m passed hold) :
    issue i body s = .next { s with
      m := m.modTask p.tid fun t => t.modSplit p.e fun x => { x with
        xsig := if passed then p.sig i else x.xsig,
        wait := some ⟨false, i, passed || false, hold, s.m.clk, false, p.x.found, p.k, p.t.snap, p.x.xsig⟩ },
      grants := s.grants.tail } := by
  rw [issue_issuer h, hb]; rfl

/-- A body that traps: the trap is delivered at once, since the split is not held. -/
theorem issue_trap {i : Instr} {body : Mach → Iss → Res} {s : State} {p : Issuer} {m : Mach} {x : TrapInfo} (h : s.issuer i = some p)
    (hb : body (s.m.setTask p.tid (p.marked i)) (p.iss s.m i) = .trap m x) :
    issue i body s = .next { s with m := m.raise p.tid p.e (x.from' i), grants := s.grants.tail } := by
  rw [issue_issuer h, hb]; rfl

theorem Task.writeVec_splits (t : Task) (d n k xs) : (t.writeVec d n k xs).splits = t.splits := by
  unfold Task.writeVec; split <;> rfl
theorem Task.split_of_splits {t u : Task} (h : t.splits = u.splits) (e) : t.split e = u.split e := by simp [Task.split, h]

/-- A body that writes a vector register, or a pair. -/
theorem issue_vec {s : State} {p : Issuer} {i : Instr} {d n k : _} {xs} {m} {body}
   (h : s.issuer i = some p)
   (hb : body (s.m.setTask p.tid (p.marked i)) (p.iss s.m i) = .done ({ m with tasks := tabSet s.m.tasks p.tid (p.marked i) }.modTask p.tid fun t => t.writeVec d n k xs)) (hc : m.clk = s.m.clk) :
   issue i body s = .next (s.issuedOn m p i fun t => t.writeVec d n k xs) := issue_effect h hb hc (Task.split_of_splits (Task.writeVec_splits ..) _)

/-- The task that has issued is the one in the machine. -/
theorem Mach.modTask_marked (s : State) (p : Issuer) (i : Instr) (f) : (s.m.setTask p.tid (p.marked i)).modTask p.tid f = s.m.setTask p.tid (f (p.marked i)) := by
  simp [Mach.modTask, Mach.setTask]
theorem Mach.task_marked (s : State) (p : Issuer) (i : Instr) : (s.m.setTask p.tid (p.marked i)).task p.tid = some (p.marked i) := by
  simp [Mach.task, Mach.setTask]
theorem Mach.setTask_setTask (m : Mach) (t x y) : (m.setTask t x).setTask t y = m.setTask t y := by simp [Mach.setTask]

/-- A body that has moved its split by a change of its own task. -/
theorem issue_movedOn {s : State} {p : Issuer} {i : Instr} {f : Task → Task} {body}
   (h : s.issuer i = some p)
   (hb : body (s.m.setTask p.tid (p.marked i)) (p.iss s.m i) = .moved ((s.m.setTask p.tid (p.marked i)).modTask p.tid f)) :
   issue i body s = .next (s.movedOn p i f) := by
  rw [issue_moved h hb, Mach.modTask_marked]; rfl
theorem issue_movedTo {s : State} {p : Issuer} {i : Instr} {t : Task} {body}
   (h : s.issuer i = some p)
   (hb : body (s.m.setTask p.tid (p.marked i)) (p.iss s.m i) = .moved ((s.m.setTask p.tid (p.marked i)).setTask p.tid t)) (f : Task → Task) (hf : f (p.marked i) = t) :
   issue i body s = .next (s.movedOn p i f) := by
  rw [issue_moved h hb, Mach.setTask_setTask, ← hf]; rfl

/-- A trap of an issuing split is delivered at once. -/
theorem Mach.raise_marked (s : State) (p : Issuer) (i : Instr) (x) (h : s.issuer i = some p) :
   (s.m.setTask p.tid (p.marked i)).raise p.tid p.e x = (s.m.setTask p.tid (p.marked i)).takeTrap p.tid p.e x := by
  obtain ⟨hg, ht, hx, hh, -⟩ := State.issuer_some h
  unfold Mach.raise
  rw [Mach.task_marked]
  simp only [Option.bind_some, Issuer.split_marked i hx, Issuer.here, hh]
  rfl

/-- A body that traps before it has changed anything. -/
theorem issue_trapped {s : State} {p : Issuer} {i : Instr} {x} {body}
   (h : s.issuer i = some p)
   (hb : body (s.m.setTask p.tid (p.marked i)) (p.iss s.m i) = .trap (s.m.setTask p.tid (p.marked i)) x) :
   issue i body s = .next (s.trappedOn p i (x.from' i)) := by
  rw [issue_trap h hb, Mach.raise_marked s p i _ h]; rfl

/-- Nothing poisoned is consumed. -/
theorem consume_zero (m ι r d a k go) : consume m ι 0 r d a k go = go m ι := by simp [consume]
theorem consumeUni_false (m ι r d a k go) : consumeUni m ι false r d a k go = go m ι := by simp [consumeUni, consume]

/-- A trap names the unit of its instruction. -/
theorem TrapInfo.from_same {x : TrapInfo} {i : Instr} (h : x.kind = unitKind (opcodeOf i)) : x.from' i = x := by
  unfold TrapInfo.from'; split
  · rw [← h]
  · rfl
theorem issue_trapped_same {s : State} {p : Issuer} {i : Instr} {x} {body}
   (h : s.issuer i = some p)
   (hb : body (s.m.setTask p.tid (p.marked i)) (p.iss s.m i) = .trap (s.m.setTask p.tid (p.marked i)) x) (hx : x.kind = unitKind (opcodeOf i)) :
   issue i body s = .next (s.trappedOn p i x) := by
  rw [issue_trapped h hb, TrapInfo.from_same hx]

end Sys2Proof.Machine
end

