-- ==== Sys2Proof/Laws/Access.lean ====
section
/-! SUPPORT. The checks of an access to memory, each where it lets the access go on. -/

namespace Sys2Proof.Machine

/-- No failed check, no trap. -/
theorem failTrap_nil (ι u) : failTrap ι u [] = none := rfl

/-- Unpoisoned addresses go on. -/
theorem withAddresses_ok {m ι ub u addrs go} (h : if u || ub then (laneAt addrs 0).2 = false else lanesPoi addrs &&& ι.k = 0) :
   withAddresses m ι ub u addrs go = go m ι := by
  unfold withAddresses
  have : (if u || ub then (if (laneAt addrs 0).2 then (if u then ι.s.xact else if ub then (if ι.k == 0 then 0 else ι.s.xact) else ι.k) else 0) else lanesPoi addrs &&& (if u then ι.s.xact else if ub then (if ι.k == 0 then 0 else ι.s.xact) else ι.k)) = 0 := by
    cases hu : u <;> cases hb : ub <;> simp_all
  simp only [this, consume_zero]

/-- Every place accepts the access. -/
theorem placeFails_nil {m : Mach} {w acc es} (h : ∀ e ∈ es, acc (regionOf e.pa) e.attr = true ∧ (w = true → regionOf e.pa = .loc → m.sealed e.pa = false)) :
   m.placeFails w acc es = [] := by
  unfold Mach.placeFails
  rw [List.filterMap_eq_nil_iff]
  intro e he
  obtain ⟨h1, h2⟩ := h e he
  simp only [h1, Bool.not_true, Bool.false_eq_true, if_false]
  cases hw : w with
  | false => simp
  | true => 
    by_cases hr : regionOf e.pa = .loc
    · simp [h2 hw hr]
    · simp [hr]

theorem filter_all {α} {l : List α} {f} (h : ∀ a ∈ l, f a = true) : l.filter f = l := List.filter_eq_self.mpr h

/-- Aligned, translated, permitted elements go on. -/
theorem withPlaces_ok {m ι uni al use acc els go es m1} (ha : ∀ a ∈ els, a.2 % al = 0)
   (hx : m.xlateAll ι.t.core ι.t.ctx use ι.found els = (⟨es, [], none⟩, m1))
   (hk : ∀ e ∈ es, uni = true ∨ ι.k.getLsbD e.lane = true)
   (hr : refusedFails ι.found es = []) (hp : m1.placeFails (use == .store) acc es = []) :
   withPlaces m ι uni al use acc els go = go m1 ι es := by
  unfold withPlaces
  have h0 : alignFails al els = [] := by
    unfold alignFails; rw [List.filterMap_eq_nil_iff]; intro a h; simp [ha a h]
  rw [h0, failTrap_nil]
  simp only [hx, List.partition_eq_filter_filter, List.filter_nil, List.isEmpty_nil, if_true]
  rw [consume_zero]
  have h1 : es.filter (fun e => uni || ι.k.getLsbD e.lane) = es := filter_all fun e he => by
    rcases hk e he with h | h <;> simp [h]
  simp only [h1, hr, hp, List.nil_append, failTrap_nil]

/-- Elements whose pages are at hand, and which no earlier access of the task holds back, go on. -/
theorem withSpots_ok {m : Mach} {ι w es go ss m'}
   (hs : es.foldl (fun (acc : List (Elt × Spot) × Mach) e => (acc.1 ++ [(e, (acc.2.spot ι.t.ctx e w).1)], (acc.2.spot ι.t.ctx e w).2)) ([], m) = (ss, m'))
   (hw : ∀ x ∈ ss, x.2 ≠ .wait) (hb : (m'.usedAway es).heldBack ι.tid ss w = false)
   (hh : ∀ x ∈ ss, ∀ pa, x.2 = .host pa → ((m'.usedAway es).ats.find? fun a => a.1 == hostPage pa).isSome = true) :
   withSpots m ι w es go = go (m'.usedAway es) ι ss := by
  unfold withSpots
  have : (es.foldl (fun (acc : List (Elt × Spot) × Mach) e =>
    let (s, m) := acc.2.spot ι.t.ctx e w
    (acc.1 ++ [(e, s)], m)) ([], m)) = (ss, m') := hs
  rw [this]
  have h0 : (ss.find? fun x => x.2 == Spot.wait) = none := by
    rw [List.find?_eq_none]; intro x hx; simpa using hw x hx
  simp only [h0, hb, Bool.false_eq_true, if_false]
  have hn : (ss.find? fun x => match x.2 with
    | .host pa => ((m'.usedAway es).ats.find? fun a => a.1 == hostPage pa).isNone
    | _ => false) = none := by
    rw [List.find?_eq_none]; intro x hx
    split
    · rename_i pa he; simpa using hh x hx pa he
    · simp
  generalize hf : List.find? _ ss = out
  have ho : out = none := hf ▸ hn
  subst ho; rfl

/-- Data that stays in the poison domain goes on. -/
theorem withBoundary_ok {m : Mach} {ι uni poi ss go}
   (hb : ∀ x ∈ ss, (uni = true ∨ ι.k.getLsbD x.1.lane = true) ∧ (poi x.1.lane = true → m.leaves x.1 x.2 = false)) :
   withBoundary m ι uni poi ss go = go m ι ss := by
  unfold withBoundary
  have h0 : (ss.filter fun x => poi x.1.lane && m.leaves x.1 x.2) = [] := by
    rw [List.filter_eq_nil_iff]
    intro x hx
    obtain ⟨-, h⟩ := hb _ hx
    cases hp : poi x.1.lane with
    | false => simp
    | true => simp [h hp]
  have h1 : ss.filter (fun x => uni || ι.k.getLsbD x.1.lane) = ss := filter_all fun e he => by
    rcases (hb e he).1 with h | h <;> simp [h]
  simp only [h0, List.isEmpty_nil, if_true, consume_zero, h1]

/-- With no copy of the task writing the same bytes a store waits for none and overtakes none. -/
theorem copiesAt_nil {m : Mach} {t ps} (h : m.copiesAt t ps = []) : m.copyAhead t ps = false ∧ m.overtaken t ps = m := by
  unfold Mach.copyAhead Mach.overtaken; rw [h]; exact ⟨rfl, rfl⟩

end Sys2Proof.Machine
end

