-- ==== Sys2Proof/Laws/Mem.lean ====
section
/-! SUPPORT. What the operations on a memory do: reads after writes, and the canonical form that every one of them keeps. -/

namespace Sys2Proof.Machine

/-- A rising list with a bound below it, with that bound taken away. -/
theorem cellsAbove_none (l : List Host.Cell) (b : Option Nat) (h : cellsAbove b l = true) : cellsAbove none l = true := by
  cases l <;> cases b <;> simp_all [cellsAbove]

/-- A cell below the bound is not listed. -/
theorem cellGet_below (l : List Host.Cell) (b a : Nat) (h : cellsAbove (some b) l = true) (k : a ≤ b) : cellGet l a = Memory.unlisted := by
  cases l with
  | nil => rfl
  | cons c rest =>
    obtain ⟨j, v⟩ := c
    simp only [cellsAbove, Bool.and_eq_true, decide_eq_true_eq] at h
    simp [cellGet, show ¬ j = a by omega, show a < j by omega]

theorem cellsAbove_weaken (l : List Host.Cell) (b b' : Nat) (h : cellsAbove (some b) l = true) (k : b' ≤ b) : cellsAbove (some b') l = true := by
  cases l with
  | nil => rfl
  | cons c rest =>
    simp only [cellsAbove, Bool.and_eq_true, decide_eq_true_eq] at h ⊢
    exact ⟨⟨by omega, h.1.2⟩, h.2⟩

/-- A write keeps the cells rising above a bound below its address. -/
theorem cellSet_above (l : List Host.Cell) (b a : Nat) (v : Byte) (h : cellsAbove (some b) l = true) (k : b < a) :
    cellsAbove (some b) (cellSet l a v) = true := by
  induction l generalizing b with
  | nil => simp only [cellSet]; split <;> simp_all [cellsAbove]
  | cons c rest ih =>
    obtain ⟨j, w⟩ := c
    simp only [cellsAbove, Bool.and_eq_true, decide_eq_true_eq] at h
    simp only [cellSet, beq_iff_eq]
    split
    · split
      · exact cellsAbove_weaken _ _ _ h.2 (by omega)
      · subst j; simp_all [cellsAbove]
    · split
      · split <;> simp_all [cellsAbove]
      · simp only [cellsAbove, Bool.and_eq_true, decide_eq_true_eq]
        exact ⟨h.1, ih j h.2 (by omega)⟩

/-- A write keeps the canonical form of the cells. -/
theorem cellSet_wf (l : List Host.Cell) (a : Nat) (v : Byte) (h : cellsAbove none l = true) : cellsAbove none (cellSet l a v) = true := by
  cases l with
  | nil => simp only [cellSet]; split <;> simp_all [cellsAbove]
  | cons c rest =>
    obtain ⟨j, w⟩ := c
    simp only [cellsAbove, Bool.and_eq_true] at h
    simp only [cellSet, beq_iff_eq]
    split
    · split
      · exact cellsAbove_none _ _ h.2
      · subst j; simp_all [cellsAbove]
    · split
      · split <;> simp_all [cellsAbove]
      · simp only [cellsAbove, Bool.and_eq_true]
        exact ⟨h.1, cellSet_above rest j a v h.2 (by omega)⟩

/-- A read after a write, where the read after a write to the cells behind the first is known. -/
theorem cellGet_cellSet_cons (j : Nat) (w : Byte) (rest : List Host.Cell) (a c : Nat) (v : Byte) (h : cellsAbove (some j) rest = true)
    (next : cellGet (cellSet rest a v) c = if c = a then v else cellGet rest c) :
    cellGet (cellSet ((j, w) :: rest) a v) c = if c = a then v else cellGet ((j, w) :: rest) c := by
  have low := cellGet_below rest j c h
  by_cases e : c = a
  · subst c
    simp only [cellSet, beq_iff_eq, if_true]
    split
    · subst j; split <;> simp_all [cellGet]
    · split
      · split <;> simp_all [cellGet]
      · rename_i n k
        simp only [cellGet, beq_iff_eq, if_neg n, if_neg k, next, if_true]
  · rw [if_neg e] at next ⊢
    have f : ¬ a = c := fun k => e k.symm
    simp only [cellSet, beq_iff_eq]
    split
    · subst j
      split
      · simp only [cellGet, beq_iff_eq, if_neg f]
        split
        · exact low (by omega)
        · rfl
      · simp [cellGet, f]
    · split
      · split
        · rfl
        · simp only [cellGet, beq_iff_eq, if_neg f]
          split
          · rw [if_neg (by omega), if_pos (by omega)]
          · rfl
      · simp only [cellGet, next]

theorem cellGet_cellSet_above (l : List Host.Cell) (b a c : Nat) (v : Byte) (h : cellsAbove (some b) l = true) :
    cellGet (cellSet l a v) c = if c = a then v else cellGet l c := by
  induction l generalizing b with
  | nil =>
    by_cases e : c = a
    · subst c; simp only [cellSet]; split <;> simp_all [cellGet]
    · have f : ¬ a = c := fun k => e k.symm
      simp only [cellSet]; split <;> simp_all [cellGet]
  | cons x rest ih =>
    obtain ⟨j, w⟩ := x
    simp only [cellsAbove, Bool.and_eq_true, decide_eq_true_eq] at h
    exact cellGet_cellSet_cons j w rest a c v h.2 (ih j h.2)

/-- A read after a write, among cells in canonical form. -/
theorem cellGet_cellSet (l : List Host.Cell) (a c : Nat) (v : Byte) (h : cellsAbove none l = true) :
    cellGet (cellSet l a v) c = if c = a then v else cellGet l c := by
  cases l with
  | nil => exact cellGet_cellSet_above [] 0 a c v rfl
  | cons x rest =>
    obtain ⟨j, w⟩ := x
    simp only [cellsAbove, Bool.and_eq_true] at h
    exact cellGet_cellSet_cons j w rest a c v h.2 (cellGet_cellSet_above rest j a c v h.2)

theorem numsAbove_none (l : List Nat) (b : Option Nat) (h : numsAbove b l = true) : numsAbove none l = true := by
  cases l <;> cases b <;> simp_all [numsAbove]

theorem numsAbove_weaken (l : List Nat) (b b' : Nat) (h : numsAbove (some b) l = true) (k : b' ≤ b) : numsAbove (some b') l = true := by
  cases l with
  | nil => rfl
  | cons c rest =>
    simp only [numsAbove, Bool.and_eq_true, decide_eq_true_eq] at h ⊢
    exact ⟨by omega, h.2⟩

theorem insertNat_above (l : List Nat) (b a : Nat) (h : numsAbove (some b) l = true) (k : b < a) : numsAbove (some b) (insertNat l a) = true := by
  induction l generalizing b with
  | nil => simpa [insertNat, numsAbove] using k
  | cons c rest ih =>
    simp only [numsAbove, Bool.and_eq_true, decide_eq_true_eq] at h
    simp only [insertNat, beq_iff_eq]
    split
    · simp_all [numsAbove]
    · split
      · simp_all [numsAbove]
      · simp only [numsAbove, Bool.and_eq_true, decide_eq_true_eq]
        exact ⟨h.1, ih c h.2 (by omega)⟩

/-- Adding a number keeps a rising list rising. -/
theorem insertNat_wf (l : List Nat) (a : Nat) (h : numsAbove none l = true) : numsAbove none (insertNat l a) = true := by
  cases l with
  | nil => rfl
  | cons c rest =>
    simp only [numsAbove] at h
    simp only [insertNat, beq_iff_eq]
    split
    · simpa [numsAbove] using h
    · split
      · simp_all [numsAbove]
      · simpa [numsAbove] using insertNat_above rest c a h (by omega)

theorem removeNat_above (l : List Nat) (b a : Nat) (h : numsAbove (some b) l = true) : numsAbove (some b) (removeNat l a) = true := by
  induction l generalizing b with
  | nil => rfl
  | cons c rest ih =>
    simp only [numsAbove, Bool.and_eq_true, decide_eq_true_eq] at h
    simp only [removeNat, beq_iff_eq]
    split
    · exact numsAbove_weaken _ _ _ h.2 (by omega)
    · simp only [numsAbove, Bool.and_eq_true, decide_eq_true_eq]
      exact ⟨h.1, ih c h.2⟩

/-- Taking a number away keeps a rising list rising. -/
theorem removeNat_wf (l : List Nat) (a : Nat) (h : numsAbove none l = true) : numsAbove none (removeNat l a) = true := by
  cases l with
  | nil => rfl
  | cons c rest =>
    simp only [numsAbove] at h
    simp only [removeNat, beq_iff_eq]
    split
    · exact numsAbove_none _ _ h
    · simpa [numsAbove] using removeNat_above rest c a h

theorem Memory.wf_iff (m : Memory) : m.wf = true ↔ cellsAbove none m.cells = true ∧ numsAbove none m.poi = true := by
  simp [Memory.wf]

/-- A byte read after one byte is written. -/
theorem Memory.byte_setByte (m : Memory) (a c : Nat) (v : Byte) (h : m.wf = true) :
    (m.setByte a v).byte c = if c = a then v else m.byte c :=
  cellGet_cellSet _ _ _ _ ((m.wf_iff).1 h).1

theorem Memory.setByte_wf (m : Memory) (a : Nat) (v : Byte) (h : m.wf = true) : (m.setByte a v).wf = true :=
  (wf_iff _).2 ⟨cellSet_wf _ _ _ ((m.wf_iff).1 h).1, ((m.wf_iff).1 h).2⟩

theorem Memory.setPoison_wf (m : Memory) (a : Nat) (p : Bool) (h : m.wf = true) : (m.setPoison a p).wf = true := by
  refine (wf_iff _).2 ⟨((m.wf_iff).1 h).1, ?_⟩
  simp only [setPoison]
  split
  · exact insertNat_wf _ _ ((m.wf_iff).1 h).2
  · exact removeNat_wf _ _ ((m.wf_iff).1 h).2

@[simp] theorem Memory.byte_setPoison (m : Memory) (a c : Nat) (p : Bool) : (m.setPoison a p).byte c = m.byte c := rfl
@[simp] theorem Memory.poi_setByte (m : Memory) (a : Nat) (v : Byte) : (m.setByte a v).poi = m.poi := rfl

theorem Memory.setBytes_cons (m : Memory) (a : Nat) (b : Byte) (bs : List Byte) : m.setBytes a (b :: bs) = (m.setByte a b).setBytes (a + 1) bs := rfl

theorem Memory.setBytes_wf (m : Memory) (a : Nat) (bs : List Byte) (h : m.wf = true) : (m.setBytes a bs).wf = true := by
  induction bs generalizing m a with
  | nil => exact h
  | cons b rest ih => exact ih _ _ (m.setByte_wf a b h)

/-- A byte read after a run of bytes is written. -/
theorem Memory.byte_setBytes (m : Memory) (a c : Nat) (bs : List Byte) (h : m.wf = true) :
    (m.setBytes a bs).byte c = if a ≤ c ∧ c < a + bs.length then bs.getD (c - a) 0 else m.byte c := by
  induction bs generalizing m a with
  | nil => simp [setBytes] <;> omega
  | cons b rest ih =>
    rw [setBytes_cons, ih _ _ (m.setByte_wf a b h), byte_setByte _ _ _ _ h]
    by_cases e : c = a
    · subst c
      rw [if_neg (by omega), if_pos rfl, if_pos (by simp)]
      simp
    · rw [if_neg e, List.length_cons]
      by_cases k : a + 1 ≤ c ∧ c < a + 1 + rest.length
      · rw [if_pos k, if_pos (by omega), show c - a = (c - (a + 1)) + 1 by omega]
        rfl
      · rw [if_neg k, if_neg (by omega)]

/-- Setting the poison of words one after another keeps the canonical form and every byte. -/
theorem Memory.foldl_setPoison (ws : List Nat) (f : Memory → Nat → Bool) (m : Memory) :
    (m.wf = true → (ws.foldl (fun acc w => acc.setPoison (4 * w) (f acc w)) m).wf = true) ∧
      ∀ c, (ws.foldl (fun acc w => acc.setPoison (4 * w) (f acc w)) m).byte c = m.byte c := by
  induction ws generalizing m with
  | nil => exact ⟨id, fun _ => rfl⟩
  | cons w rest ih => exact ⟨fun h => (ih _).1 (m.setPoison_wf _ _ h), fun c => (ih _).2 c⟩

/-- A store keeps the canonical form. -/
theorem Memory.store_wf (m : Memory) (a : Nat) (bs : List Byte) (p : Nat → Bool) (h : m.wf = true) : (m.store a bs p).wf = true :=
  (foldl_setPoison _ _ _).1 (m.setBytes_wf a bs h)

/-- A byte read after a store. -/
theorem Memory.byte_store (m : Memory) (a c : Nat) (bs : List Byte) (p : Nat → Bool) (h : m.wf = true) :
    (m.store a bs p).byte c = if a ≤ c ∧ c < a + bs.length then bs.getD (c - a) 0 else m.byte c :=
  ((foldl_setPoison _ _ _).2 c).trans (m.byte_setBytes a c bs h)

theorem Memory.setWord64_wf (m : Memory) (a : Nat) (w : Word) (h : m.wf = true) : (m.setWord64 a w).wf = true := m.store_wf _ _ _ h

/-! ### The operations built on them -/

theorem Memory.put_wf (m : Memory) (a n : Nat) (d : Datum) (h : m.wf = true) : (m.put a n d).wf = true := m.store_wf _ _ _ h
theorem Memory.storeBytes_wf (m : Memory) (a : Nat) (bs : List (Byte × Bool)) (h : m.wf = true) : (m.storeBytes a bs).wf = true := m.store_wf _ _ _ h
theorem Memory.keepPoison64_wf (m : Memory) (a : Nat) (w : Word) (h : m.wf = true) : (m.keepPoison64 a w).wf = true := m.store_wf _ _ _ h
theorem addSignal_wf (v : Datum) (a : Nat) (m : Memory) (h : m.wf = true) : (addSignal v a m).wf = true := m.put_wf _ _ _ h

/-- A fold of an operation that keeps the canonical form keeps it. -/
theorem Memory.foldl_wf {α : Type} (f : Memory → α → Memory) (k : ∀ m x, m.wf = true → (f m x).wf = true) (l : List α) (m : Memory) (h : m.wf = true) :
    (l.foldl f m).wf = true := by
  induction l generalizing m with
  | nil => exact h
  | cons x rest ih => exact ih _ (k m x h)

theorem Memory.decrement_wf (m : Memory) (a : Nat) (h : m.wf = true) : (m.decrement a).wf = true := by
  refine keepPoison64_wf _ _ _ ?_
  split
  · exact m.keepPoison64_wf _ _ h
  · exact h

theorem Memory.poisonSector_wf (m : Memory) (sector : Nat) (h : m.wf = true) : (m.poisonSector sector).wf = true :=
  foldl_wf _ (fun m _ h => m.setPoison_wf _ _ h) _ _ h

theorem Memory.scatter_wf (m : Memory) (f : Nat → Nat) (n : Nat) (d : Datum) (h : m.wf = true) : (m.scatter f n d).wf = true :=
  foldl_wf _ (fun m _ h => m.put_wf _ _ _ h) _ _ h

theorem Memory.putWords_wf (m : Memory) (size base : Nat) (ws : List (Nat × Nat)) (h : m.wf = true) : (m.putWords size base ws).wf = true := by
  refine foldl_wf _ (fun m x h => ?_) _ _ h
  dsimp only
  split
  · exact h
  · exact m.store_wf _ _ _ h

theorem Memory.placeWords_wf (m : Memory) (pa : Nat) (w ext : Word) (h : m.wf = true) : (m.placeWords pa w ext).wf = true :=
  setWord64_wf _ _ _ (setWord64_wf _ _ _ (setWord64_wf _ _ _ h))

theorem Memory.updateFuture_wf (m : Memory) (a : Nat) (u : FutUpdate) (h : m.wf = true) : (m.updateFuture a u).wf = true := by
  have poison := fun m (h : Memory.wf m = true) => setPoison_wf _ (a + 12) true (setPoison_wf m (a + 8) true h)
  cases u with
  | set v => exact decrement_wf _ _ (put_wf _ _ _ _ h)
  | fail w => exact decrement_wf _ _ (keepPoison64_wf _ _ _ (poison _ h))
  | complete dead bits p settled =>
    have base := keepPoison64_wf m (a + 16) (((m.word64 (a + 16)).1 &&& ~~~(0xFFFFFFFF : Word) |||
      BitVec.ofNat 64 (((m.word64 (a + 16)).1.toNat + dead) % 2 ^ 32)) ||| BitVec.ofNat 64 (2 ^ 32 * bits)) h
    cases p <;> cases settled
    · exact decrement_wf _ _ base
    · exact base
    · exact decrement_wf _ _ (poison _ base)
    · exact poison _ base
  | value v => exact put_wf _ _ _ _ h
  | count => exact keepPoison64_wf _ _ _ h

theorem cellsAbove_filter (f : Host.Cell → Bool) (l : List Host.Cell) (b : Option Nat) (h : cellsAbove b l = true) : cellsAbove b (l.filter f) = true := by
  induction l generalizing b with
  | nil => cases b <;> rfl
  | cons c rest ih =>
    obtain ⟨j, v⟩ := c
    have tail : cellsAbove (some j) rest = true := by cases b <;> simp_all [cellsAbove]
    simp only [List.filter_cons]
    split
    · cases b <;> simp_all [cellsAbove]
    · cases b with
      | none => exact cellsAbove_none _ _ (ih _ tail)
      | some k =>
        simp only [cellsAbove, Bool.and_eq_true, decide_eq_true_eq] at h
        exact cellsAbove_weaken _ j k (ih _ tail) (by omega)

theorem numsAbove_filter (f : Nat → Bool) (l : List Nat) (b : Option Nat) (h : numsAbove b l = true) : numsAbove b (l.filter f) = true := by
  induction l generalizing b with
  | nil => cases b <;> rfl
  | cons j rest ih =>
    have tail : numsAbove (some j) rest = true := by cases b <;> simp_all [numsAbove]
    simp only [List.filter_cons]
    split
    · cases b <;> simp_all [numsAbove]
    · cases b with
      | none => exact numsAbove_none _ _ (ih _ tail)
      | some k =>
        simp only [numsAbove, Bool.and_eq_true, decide_eq_true_eq] at h
        exact numsAbove_weaken _ j k (ih _ tail) (by omega)

theorem Memory.clear_wf (m : Memory) (a n : Nat) (h : m.wf = true) : (m.clear a n).wf = true :=
  (wf_iff _).2 ⟨cellsAbove_filter _ _ _ ((m.wf_iff).1 h).1, numsAbove_filter _ _ _ ((m.wf_iff).1 h).2⟩

theorem Memory.without_wf (m : Memory) (granules : List Nat) (h : m.wf = true) : (m.without granules).wf = true :=
  (wf_iff _).2 ⟨cellsAbove_filter _ _ _ ((m.wf_iff).1 h).1, numsAbove_filter _ _ _ ((m.wf_iff).1 h).2⟩

/-- The memory after reset has the canonical form. -/
theorem reset_mem_wf : State.reset.m.mem.wf = true := rfl

end Sys2Proof.Machine
end

