-- ==== Sys2Proof/Laws/PerInstr.lean ====
section
/-! SUPPORT. The fields of an instruction's words are read back as they were written, format by format, and then for every constructor. -/

namespace Sys2Proof.Laws

open Machine

-- one theorem at a time: side by side they take more memory than a check allows
set_option Elab.async false

/-- The upper part of an appended word. -/
theorem extract_high {n k : Nat} (x : BitVec n) (y : BitVec k) (a w : Nat) (h : k ≤ a) :
    (x ++ y).extractLsb' a w = x.extractLsb' (a - k) w := by
  ext i hi
  rw [BitVec.getElem_extractLsb', BitVec.getElem_extractLsb', BitVec.getLsbD_append, if_neg (by omega)]
  congr 1
  omega

/-- The lower part of an appended word. -/
theorem extract_low {n k : Nat} (x : BitVec n) (y : BitVec k) (a w : Nat) (h : a + w ≤ k) :
    (x ++ y).extractLsb' a w = y.extractLsb' a w := by
  ext i hi
  simp [BitVec.getLsbD_append]
  omega

theorem extract_full {n : Nat} (x : BitVec n) : x.extractLsb' 0 n = x := by
  ext i hi
  simp

/-- A bit from a field of one bit. -/
theorem bit_of {n : Nat} (x : BitVec n) (b : Bool) (a : Nat) (h : x.extractLsb' a 1 = BitVec.ofBool b) : x.getLsbD a = b := by
  simpa using congrArg (·.getLsbD 0) h

/-- A coded field from its code. -/
theorem code_of {α : Type} {n : Nat} (f : BitVec n → α) (x y : BitVec n) (r : α) (h : x = y) (k : f y = r) : f x = r := h ▸ k

/-- The fields of a V3 word are read back (R78). -/
theorem unpackV3_packV3 (op : BitVec 8) (f : FV3) : opOf (packV3 op f) = op ∧ unpackV3 (packV3 op f) = f := by
  obtain ⟨⟨p, n⟩, d, a, b, c, ka, kb, kc, ty, rnd, sat, sub⟩ := f
  unfold unpackV3 guardOf opOf
  simp only [FV3.mk.injEq, Guard.mk.injEq]
  refine ⟨((extract_high (n := 60) (k := 4) _ _ _ _ (by decide)).trans ((extract_high (n := 59) (k := 1) _ _ _ _ (by decide)).trans ((extract_high (n := 56) (k := 3) _ _ _ _ (by decide)).trans ((extract_high (n := 51) (k := 5) _ _ _ _ (by decide)).trans ((extract_high (n := 49) (k := 2) _ _ _ _ (by decide)).trans ((extract_high (n := 47) (k := 2) _ _ _ _ (by decide)).trans ((extract_high (n := 45) (k := 2) _ _ _ _ (by decide)).trans ((extract_high (n := 37) (k := 8) _ _ _ _ (by decide)).trans ((extract_high (n := 29) (k := 8) _ _ _ _ (by decide)).trans ((extract_high (n := 21) (k := 8) _ _ _ _ (by decide)).trans ((extract_high (n := 13) (k := 8) _ _ _ _ (by decide)).trans ((extract_high (n := 8) (k := 5) _ _ _ _ (by decide)).trans ((extract_full _)))))))))))))), ⟨((extract_high (n := 60) (k := 4) _ _ _ _ (by decide)).trans ((extract_high (n := 59) (k := 1) _ _ _ _ (by decide)).trans ((extract_high (n := 56) (k := 3) _ _ _ _ (by decide)).trans ((extract_high (n := 51) (k := 5) _ _ _ _ (by decide)).trans ((extract_high (n := 49) (k := 2) _ _ _ _ (by decide)).trans ((extract_high (n := 47) (k := 2) _ _ _ _ (by decide)).trans ((extract_high (n := 45) (k := 2) _ _ _ _ (by decide)).trans ((extract_high (n := 37) (k := 8) _ _ _ _ (by decide)).trans ((extract_high (n := 29) (k := 8) _ _ _ _ (by decide)).trans ((extract_high (n := 21) (k := 8) _ _ _ _ (by decide)).trans ((extract_high (n := 13) (k := 8) _ _ _ _ (by decide)).trans ((extract_low (n := 8) (k := 5) _ _ _ _ (by decide)).trans ((extract_high (n := 4) (k := 1) _ _ _ _ (by decide)).trans ((extract_full _))))))))))))))),
    bit_of _ _ _ ((extract_high (n := 60) (k := 4) _ _ _ _ (by decide)).trans ((extract_high (n := 59) (k := 1) _ _ _ _ (by decide)).trans ((extract_high (n := 56) (k := 3) _ _ _ _ (by decide)).trans ((extract_high (n := 51) (k := 5) _ _ _ _ (by decide)).trans ((extract_high (n := 49) (k := 2) _ _ _ _ (by decide)).trans ((extract_high (n := 47) (k := 2) _ _ _ _ (by decide)).trans ((extract_high (n := 45) (k := 2) _ _ _ _ (by decide)).trans ((extract_high (n := 37) (k := 8) _ _ _ _ (by decide)).trans ((extract_high (n := 29) (k := 8) _ _ _ _ (by decide)).trans ((extract_high (n := 21) (k := 8) _ _ _ _ (by decide)).trans ((extract_high (n := 13) (k := 8) _ _ _ _ (by decide)).trans ((extract_low (n := 8) (k := 5) _ _ _ _ (by decide)).trans ((extract_low (n := 4) (k := 1) _ _ _ _ (by decide)).trans ((extract_full _)))))))))))))))⟩,
    ((extract_high (n := 60) (k := 4) _ _ _ _ (by decide)).trans ((extract_high (n := 59) (k := 1) _ _ _ _ (by decide)).trans ((extract_high (n := 56) (k := 3) _ _ _ _ (by decide)).trans ((extract_high (n := 51) (k := 5) _ _ _ _ (by decide)).trans ((extract_high (n := 49) (k := 2) _ _ _ _ (by decide)).trans ((extract_high (n := 47) (k := 2) _ _ _ _ (by decide)).trans ((extract_high (n := 45) (k := 2) _ _ _ _ (by decide)).trans ((extract_high (n := 37) (k := 8) _ _ _ _ (by decide)).trans ((extract_high (n := 29) (k := 8) _ _ _ _ (by decide)).trans ((extract_high (n := 21) (k := 8) _ _ _ _ (by decide)).trans ((extract_low (n := 13) (k := 8) _ _ _ _ (by decide)).trans ((extract_full _))))))))))))),
    ((extract_high (n := 60) (k := 4) _ _ _ _ (by decide)).trans ((extract_high (n := 59) (k := 1) _ _ _ _ (by decide)).trans ((extract_high (n := 56) (k := 3) _ _ _ _ (by decide)).trans ((extract_high (n := 51) (k := 5) _ _ _ _ (by decide)).trans ((extract_high (n := 49) (k := 2) _ _ _ _ (by decide)).trans ((extract_high (n := 47) (k := 2) _ _ _ _ (by decide)).trans ((extract_high (n := 45) (k := 2) _ _ _ _ (by decide)).trans ((extract_high (n := 37) (k := 8) _ _ _ _ (by decide)).trans ((extract_high (n := 29) (k := 8) _ _ _ _ (by decide)).trans ((extract_low (n := 21) (k := 8) _ _ _ _ (by decide)).trans ((extract_full _)))))))))))),
    ((extract_high (n := 60) (k := 4) _ _ _ _ (by decide)).trans ((extract_high (n := 59) (k := 1) _ _ _ _ (by decide)).trans ((extract_high (n := 56) (k := 3) _ _ _ _ (by decide)).trans ((extract_high (n := 51) (k := 5) _ _ _ _ (by decide)).trans ((extract_high (n := 49) (k := 2) _ _ _ _ (by decide)).trans ((extract_high (n := 47) (k := 2) _ _ _ _ (by decide)).trans ((extract_high (n := 45) (k := 2) _ _ _ _ (by decide)).trans ((extract_high (n := 37) (k := 8) _ _ _ _ (by decide)).trans ((extract_low (n := 29) (k := 8) _ _ _ _ (by decide)).trans ((extract_full _))))))))))),
    ((extract_high (n := 60) (k := 4) _ _ _ _ (by decide)).trans ((extract_high (n := 59) (k := 1) _ _ _ _ (by decide)).trans ((extract_high (n := 56) (k := 3) _ _ _ _ (by decide)).trans ((extract_high (n := 51) (k := 5) _ _ _ _ (by decide)).trans ((extract_high (n := 49) (k := 2) _ _ _ _ (by decide)).trans ((extract_high (n := 47) (k := 2) _ _ _ _ (by decide)).trans ((extract_high (n := 45) (k := 2) _ _ _ _ (by decide)).trans ((extract_low (n := 37) (k := 8) _ _ _ _ (by decide)).trans ((extract_full _)))))))))),
    code_of kindOf _ _ _ ((extract_high (n := 60) (k := 4) _ _ _ _ (by decide)).trans ((extract_high (n := 59) (k := 1) _ _ _ _ (by decide)).trans ((extract_high (n := 56) (k := 3) _ _ _ _ (by decide)).trans ((extract_high (n := 51) (k := 5) _ _ _ _ (by decide)).trans ((extract_high (n := 49) (k := 2) _ _ _ _ (by decide)).trans ((extract_high (n := 47) (k := 2) _ _ _ _ (by decide)).trans ((extract_low (n := 45) (k := 2) _ _ _ _ (by decide)).trans ((extract_full _))))))))) (by cases ka <;> rfl),
    code_of kindOf _ _ _ ((extract_high (n := 60) (k := 4) _ _ _ _ (by decide)).trans ((extract_high (n := 59) (k := 1) _ _ _ _ (by decide)).trans ((extract_high (n := 56) (k := 3) _ _ _ _ (by decide)).trans ((extract_high (n := 51) (k := 5) _ _ _ _ (by decide)).trans ((extract_high (n := 49) (k := 2) _ _ _ _ (by decide)).trans ((extract_low (n := 47) (k := 2) _ _ _ _ (by decide)).trans ((extract_full _)))))))) (by cases kb <;> rfl),
    code_of kindOf _ _ _ ((extract_high (n := 60) (k := 4) _ _ _ _ (by decide)).trans ((extract_high (n := 59) (k := 1) _ _ _ _ (by decide)).trans ((extract_high (n := 56) (k := 3) _ _ _ _ (by decide)).trans ((extract_high (n := 51) (k := 5) _ _ _ _ (by decide)).trans ((extract_low (n := 49) (k := 2) _ _ _ _ (by decide)).trans ((extract_full _))))))) (by cases kc <;> rfl),
    code_of tyOf _ _ _ ((extract_high (n := 60) (k := 4) _ _ _ _ (by decide)).trans ((extract_high (n := 59) (k := 1) _ _ _ _ (by decide)).trans ((extract_high (n := 56) (k := 3) _ _ _ _ (by decide)).trans ((extract_low (n := 51) (k := 5) _ _ _ _ (by decide)).trans ((extract_full _)))))) (by cases ty <;> rfl),
    code_of rndOf _ _ _ ((extract_high (n := 60) (k := 4) _ _ _ _ (by decide)).trans ((extract_high (n := 59) (k := 1) _ _ _ _ (by decide)).trans ((extract_low (n := 56) (k := 3) _ _ _ _ (by decide)).trans ((extract_full _))))) (by cases rnd <;> rfl),
    bit_of _ _ _ ((extract_high (n := 60) (k := 4) _ _ _ _ (by decide)).trans ((extract_low (n := 59) (k := 1) _ _ _ _ (by decide)).trans ((extract_full _)))),
    ((extract_low (n := 60) (k := 4) _ _ _ _ (by decide)).trans ((extract_full _)))⟩

/-- The fields of a VI word are read back (R79). -/
theorem unpackVI_packVI (op : BitVec 8) (f : FVI) : opOf (packVI op f) = op ∧ unpackVI (packVI op f) = f := by
  obtain ⟨⟨p, n⟩, d, a, ka, ty, rnd, sat, sub, px, imm⟩ := f
  unfold unpackVI guardOf opOf
  simp only [FVI.mk.injEq, Guard.mk.injEq]
  refine ⟨((extract_high (n := 48) (k := 16) _ _ _ _ (by decide)).trans ((extract_high (n := 44) (k := 4) _ _ _ _ (by decide)).trans ((extract_high (n := 40) (k := 4) _ _ _ _ (by decide)).trans ((extract_high (n := 39) (k := 1) _ _ _ _ (by decide)).trans ((extract_high (n := 36) (k := 3) _ _ _ _ (by decide)).trans ((extract_high (n := 31) (k := 5) _ _ _ _ (by decide)).trans ((extract_high (n := 29) (k := 2) _ _ _ _ (by decide)).trans ((extract_high (n := 21) (k := 8) _ _ _ _ (by decide)).trans ((extract_high (n := 13) (k := 8) _ _ _ _ (by decide)).trans ((extract_high (n := 8) (k := 5) _ _ _ _ (by decide)).trans ((extract_full _)))))))))))), ⟨((extract_high (n := 48) (k := 16) _ _ _ _ (by decide)).trans ((extract_high (n := 44) (k := 4) _ _ _ _ (by decide)).trans ((extract_high (n := 40) (k := 4) _ _ _ _ (by decide)).trans ((extract_high (n := 39) (k := 1) _ _ _ _ (by decide)).trans ((extract_high (n := 36) (k := 3) _ _ _ _ (by decide)).trans ((extract_high (n := 31) (k := 5) _ _ _ _ (by decide)).trans ((extract_high (n := 29) (k := 2) _ _ _ _ (by decide)).trans ((extract_high (n := 21) (k := 8) _ _ _ _ (by decide)).trans ((extract_high (n := 13) (k := 8) _ _ _ _ (by decide)).trans ((extract_low (n := 8) (k := 5) _ _ _ _ (by decide)).trans ((extract_high (n := 4) (k := 1) _ _ _ _ (by decide)).trans ((extract_full _))))))))))))),
    bit_of _ _ _ ((extract_high (n := 48) (k := 16) _ _ _ _ (by decide)).trans ((extract_high (n := 44) (k := 4) _ _ _ _ (by decide)).trans ((extract_high (n := 40) (k := 4) _ _ _ _ (by decide)).trans ((extract_high (n := 39) (k := 1) _ _ _ _ (by decide)).trans ((extract_high (n := 36) (k := 3) _ _ _ _ (by decide)).trans ((extract_high (n := 31) (k := 5) _ _ _ _ (by decide)).trans ((extract_high (n := 29) (k := 2) _ _ _ _ (by decide)).trans ((extract_high (n := 21) (k := 8) _ _ _ _ (by decide)).trans ((extract_high (n := 13) (k := 8) _ _ _ _ (by decide)).trans ((extract_low (n := 8) (k := 5) _ _ _ _ (by decide)).trans ((extract_low (n := 4) (k := 1) _ _ _ _ (by decide)).trans ((extract_full _)))))))))))))⟩,
    ((extract_high (n := 48) (k := 16) _ _ _ _ (by decide)).trans ((extract_high (n := 44) (k := 4) _ _ _ _ (by decide)).trans ((extract_high (n := 40) (k := 4) _ _ _ _ (by decide)).trans ((extract_high (n := 39) (k := 1) _ _ _ _ (by decide)).trans ((extract_high (n := 36) (k := 3) _ _ _ _ (by decide)).trans ((extract_high (n := 31) (k := 5) _ _ _ _ (by decide)).trans ((extract_high (n := 29) (k := 2) _ _ _ _ (by decide)).trans ((extract_high (n := 21) (k := 8) _ _ _ _ (by decide)).trans ((extract_low (n := 13) (k := 8) _ _ _ _ (by decide)).trans ((extract_full _))))))))))),
    ((extract_high (n := 48) (k := 16) _ _ _ _ (by decide)).trans ((extract_high (n := 44) (k := 4) _ _ _ _ (by decide)).trans ((extract_high (n := 40) (k := 4) _ _ _ _ (by decide)).trans ((extract_high (n := 39) (k := 1) _ _ _ _ (by decide)).trans ((extract_high (n := 36) (k := 3) _ _ _ _ (by decide)).trans ((extract_high (n := 31) (k := 5) _ _ _ _ (by decide)).trans ((extract_high (n := 29) (k := 2) _ _ _ _ (by decide)).trans ((extract_low (n := 21) (k := 8) _ _ _ _ (by decide)).trans ((extract_full _)))))))))),
    code_of kindOf _ _ _ ((extract_high (n := 48) (k := 16) _ _ _ _ (by decide)).trans ((extract_high (n := 44) (k := 4) _ _ _ _ (by decide)).trans ((extract_high (n := 40) (k := 4) _ _ _ _ (by decide)).trans ((extract_high (n := 39) (k := 1) _ _ _ _ (by decide)).trans ((extract_high (n := 36) (k := 3) _ _ _ _ (by decide)).trans ((extract_high (n := 31) (k := 5) _ _ _ _ (by decide)).trans ((extract_low (n := 29) (k := 2) _ _ _ _ (by decide)).trans ((extract_full _))))))))) (by cases ka <;> rfl),
    code_of tyOf _ _ _ ((extract_high (n := 48) (k := 16) _ _ _ _ (by decide)).trans ((extract_high (n := 44) (k := 4) _ _ _ _ (by decide)).trans ((extract_high (n := 40) (k := 4) _ _ _ _ (by decide)).trans ((extract_high (n := 39) (k := 1) _ _ _ _ (by decide)).trans ((extract_high (n := 36) (k := 3) _ _ _ _ (by decide)).trans ((extract_low (n := 31) (k := 5) _ _ _ _ (by decide)).trans ((extract_full _)))))))) (by cases ty <;> rfl),
    code_of rndOf _ _ _ ((extract_high (n := 48) (k := 16) _ _ _ _ (by decide)).trans ((extract_high (n := 44) (k := 4) _ _ _ _ (by decide)).trans ((extract_high (n := 40) (k := 4) _ _ _ _ (by decide)).trans ((extract_high (n := 39) (k := 1) _ _ _ _ (by decide)).trans ((extract_low (n := 36) (k := 3) _ _ _ _ (by decide)).trans ((extract_full _))))))) (by cases rnd <;> rfl),
    bit_of _ _ _ ((extract_high (n := 48) (k := 16) _ _ _ _ (by decide)).trans ((extract_high (n := 44) (k := 4) _ _ _ _ (by decide)).trans ((extract_high (n := 40) (k := 4) _ _ _ _ (by decide)).trans ((extract_low (n := 39) (k := 1) _ _ _ _ (by decide)).trans ((extract_full _)))))),
    ((extract_high (n := 48) (k := 16) _ _ _ _ (by decide)).trans ((extract_high (n := 44) (k := 4) _ _ _ _ (by decide)).trans ((extract_low (n := 40) (k := 4) _ _ _ _ (by decide)).trans ((extract_full _))))),
    ((extract_high (n := 48) (k := 16) _ _ _ _ (by decide)).trans ((extract_low (n := 44) (k := 4) _ _ _ _ (by decide)).trans ((extract_full _)))),
    ((extract_low (n := 48) (k := 16) _ _ _ _ (by decide)).trans ((extract_full _)))⟩

/-- The fields of an S word are read back (R80). -/
theorem unpackS_packS (op : BitVec 8) (f : FS) : opOf (packS op f) = op ∧ unpackS (packS op f) = f := by
  obtain ⟨⟨p, n⟩, d, a, b, c, ty, sat, imb, sub, imm⟩ := f
  unfold unpackS guardOf opOf
  simp only [FS.mk.injEq, Guard.mk.injEq]
  refine ⟨((extract_high (n := 48) (k := 16) _ _ _ _ (by decide)).trans ((extract_high (n := 44) (k := 4) _ _ _ _ (by decide)).trans ((extract_high (n := 43) (k := 1) _ _ _ _ (by decide)).trans ((extract_high (n := 42) (k := 1) _ _ _ _ (by decide)).trans ((extract_high (n := 37) (k := 5) _ _ _ _ (by decide)).trans ((extract_high (n := 31) (k := 6) _ _ _ _ (by decide)).trans ((extract_high (n := 25) (k := 6) _ _ _ _ (by decide)).trans ((extract_high (n := 19) (k := 6) _ _ _ _ (by decide)).trans ((extract_high (n := 13) (k := 6) _ _ _ _ (by decide)).trans ((extract_high (n := 8) (k := 5) _ _ _ _ (by decide)).trans ((extract_full _)))))))))))), ⟨((extract_high (n := 48) (k := 16) _ _ _ _ (by decide)).trans ((extract_high (n := 44) (k := 4) _ _ _ _ (by decide)).trans ((extract_high (n := 43) (k := 1) _ _ _ _ (by decide)).trans ((extract_high (n := 42) (k := 1) _ _ _ _ (by decide)).trans ((extract_high (n := 37) (k := 5) _ _ _ _ (by decide)).trans ((extract_high (n := 31) (k := 6) _ _ _ _ (by decide)).trans ((extract_high (n := 25) (k := 6) _ _ _ _ (by decide)).trans ((extract_high (n := 19) (k := 6) _ _ _ _ (by decide)).trans ((extract_high (n := 13) (k := 6) _ _ _ _ (by decide)).trans ((extract_low (n := 8) (k := 5) _ _ _ _ (by decide)).trans ((extract_high (n := 4) (k := 1) _ _ _ _ (by decide)).trans ((extract_full _))))))))))))),
    bit_of _ _ _ ((extract_high (n := 48) (k := 16) _ _ _ _ (by decide)).trans ((extract_high (n := 44) (k := 4) _ _ _ _ (by decide)).trans ((extract_high (n := 43) (k := 1) _ _ _ _ (by decide)).trans ((extract_high (n := 42) (k := 1) _ _ _ _ (by decide)).trans ((extract_high (n := 37) (k := 5) _ _ _ _ (by decide)).trans ((extract_high (n := 31) (k := 6) _ _ _ _ (by decide)).trans ((extract_high (n := 25) (k := 6) _ _ _ _ (by decide)).trans ((extract_high (n := 19) (k := 6) _ _ _ _ (by decide)).trans ((extract_high (n := 13) (k := 6) _ _ _ _ (by decide)).trans ((extract_low (n := 8) (k := 5) _ _ _ _ (by decide)).trans ((extract_low (n := 4) (k := 1) _ _ _ _ (by decide)).trans ((extract_full _)))))))))))))⟩,
    ((extract_high (n := 48) (k := 16) _ _ _ _ (by decide)).trans ((extract_high (n := 44) (k := 4) _ _ _ _ (by decide)).trans ((extract_high (n := 43) (k := 1) _ _ _ _ (by decide)).trans ((extract_high (n := 42) (k := 1) _ _ _ _ (by decide)).trans ((extract_high (n := 37) (k := 5) _ _ _ _ (by decide)).trans ((extract_high (n := 31) (k := 6) _ _ _ _ (by decide)).trans ((extract_high (n := 25) (k := 6) _ _ _ _ (by decide)).trans ((extract_high (n := 19) (k := 6) _ _ _ _ (by decide)).trans ((extract_low (n := 13) (k := 6) _ _ _ _ (by decide)).trans ((extract_full _))))))))))),
    ((extract_high (n := 48) (k := 16) _ _ _ _ (by decide)).trans ((extract_high (n := 44) (k := 4) _ _ _ _ (by decide)).trans ((extract_high (n := 43) (k := 1) _ _ _ _ (by decide)).trans ((extract_high (n := 42) (k := 1) _ _ _ _ (by decide)).trans ((extract_high (n := 37) (k := 5) _ _ _ _ (by decide)).trans ((extract_high (n := 31) (k := 6) _ _ _ _ (by decide)).trans ((extract_high (n := 25) (k := 6) _ _ _ _ (by decide)).trans ((extract_low (n := 19) (k := 6) _ _ _ _ (by decide)).trans ((extract_full _)))))))))),
    ((extract_high (n := 48) (k := 16) _ _ _ _ (by decide)).trans ((extract_high (n := 44) (k := 4) _ _ _ _ (by decide)).trans ((extract_high (n := 43) (k := 1) _ _ _ _ (by decide)).trans ((extract_high (n := 42) (k := 1) _ _ _ _ (by decide)).trans ((extract_high (n := 37) (k := 5) _ _ _ _ (by decide)).trans ((extract_high (n := 31) (k := 6) _ _ _ _ (by decide)).trans ((extract_low (n := 25) (k := 6) _ _ _ _ (by decide)).trans ((extract_full _))))))))),
    ((extract_high (n := 48) (k := 16) _ _ _ _ (by decide)).trans ((extract_high (n := 44) (k := 4) _ _ _ _ (by decide)).trans ((extract_high (n := 43) (k := 1) _ _ _ _ (by decide)).trans ((extract_high (n := 42) (k := 1) _ _ _ _ (by decide)).trans ((extract_high (n := 37) (k := 5) _ _ _ _ (by decide)).trans ((extract_low (n := 31) (k := 6) _ _ _ _ (by decide)).trans ((extract_full _)))))))),
    code_of tyOf _ _ _ ((extract_high (n := 48) (k := 16) _ _ _ _ (by decide)).trans ((extract_high (n := 44) (k := 4) _ _ _ _ (by decide)).trans ((extract_high (n := 43) (k := 1) _ _ _ _ (by decide)).trans ((extract_high (n := 42) (k := 1) _ _ _ _ (by decide)).trans ((extract_low (n := 37) (k := 5) _ _ _ _ (by decide)).trans ((extract_full _))))))) (by cases ty <;> rfl),
    bit_of _ _ _ ((extract_high (n := 48) (k := 16) _ _ _ _ (by decide)).trans ((extract_high (n := 44) (k := 4) _ _ _ _ (by decide)).trans ((extract_high (n := 43) (k := 1) _ _ _ _ (by decide)).trans ((extract_low (n := 42) (k := 1) _ _ _ _ (by decide)).trans ((extract_full _)))))),
    bit_of _ _ _ ((extract_high (n := 48) (k := 16) _ _ _ _ (by decide)).trans ((extract_high (n := 44) (k := 4) _ _ _ _ (by decide)).trans ((extract_low (n := 43) (k := 1) _ _ _ _ (by decide)).trans ((extract_full _))))),
    ((extract_high (n := 48) (k := 16) _ _ _ _ (by decide)).trans ((extract_low (n := 44) (k := 4) _ _ _ _ (by decide)).trans ((extract_full _)))),
    ((extract_low (n := 48) (k := 16) _ _ _ _ (by decide)).trans ((extract_full _)))⟩

/-- The fields of an M word are read back (R81). -/
theorem unpackM_packM (op : BitVec 8) (f : FM) : opOf (packM op f) = op ∧ unpackM (packM op f) = f := by
  obtain ⟨⟨p, n⟩, d, a, b, dk, ak, ty, ord, scope, fl, sk, sub, off⟩ := f
  unfold unpackM guardOf opOf
  simp only [FM.mk.injEq, Guard.mk.injEq]
  refine ⟨((extract_high (n := 56) (k := 8) _ _ _ _ (by decide)).trans ((extract_high (n := 53) (k := 3) _ _ _ _ (by decide)).trans ((extract_high (n := 52) (k := 1) _ _ _ _ (by decide)).trans ((extract_high (n := 50) (k := 2) _ _ _ _ (by decide)).trans ((extract_high (n := 47) (k := 3) _ _ _ _ (by decide)).trans ((extract_high (n := 44) (k := 3) _ _ _ _ (by decide)).trans ((extract_high (n := 39) (k := 5) _ _ _ _ (by decide)).trans ((extract_high (n := 38) (k := 1) _ _ _ _ (by decide)).trans ((extract_high (n := 37) (k := 1) _ _ _ _ (by decide)).trans ((extract_high (n := 29) (k := 8) _ _ _ _ (by decide)).trans ((extract_high (n := 21) (k := 8) _ _ _ _ (by decide)).trans ((extract_high (n := 13) (k := 8) _ _ _ _ (by decide)).trans ((extract_high (n := 8) (k := 5) _ _ _ _ (by decide)).trans ((extract_full _))))))))))))))), ⟨((extract_high (n := 56) (k := 8) _ _ _ _ (by decide)).trans ((extract_high (n := 53) (k := 3) _ _ _ _ (by decide)).trans ((extract_high (n := 52) (k := 1) _ _ _ _ (by decide)).trans ((extract_high (n := 50) (k := 2) _ _ _ _ (by decide)).trans ((extract_high (n := 47) (k := 3) _ _ _ _ (by decide)).trans ((extract_high (n := 44) (k := 3) _ _ _ _ (by decide)).trans ((extract_high (n := 39) (k := 5) _ _ _ _ (by decide)).trans ((extract_high (n := 38) (k := 1) _ _ _ _ (by decide)).trans ((extract_high (n := 37) (k := 1) _ _ _ _ (by decide)).trans ((extract_high (n := 29) (k := 8) _ _ _ _ (by decide)).trans ((extract_high (n := 21) (k := 8) _ _ _ _ (by decide)).trans ((extract_high (n := 13) (k := 8) _ _ _ _ (by decide)).trans ((extract_low (n := 8) (k := 5) _ _ _ _ (by decide)).trans ((extract_high (n := 4) (k := 1) _ _ _ _ (by decide)).trans ((extract_full _)))))))))))))))),
    bit_of _ _ _ ((extract_high (n := 56) (k := 8) _ _ _ _ (by decide)).trans ((extract_high (n := 53) (k := 3) _ _ _ _ (by decide)).trans ((extract_high (n := 52) (k := 1) _ _ _ _ (by decide)).trans ((extract_high (n := 50) (k := 2) _ _ _ _ (by decide)).trans ((extract_high (n := 47) (k := 3) _ _ _ _ (by decide)).trans ((extract_high (n := 44) (k := 3) _ _ _ _ (by decide)).trans ((extract_high (n := 39) (k := 5) _ _ _ _ (by decide)).trans ((extract_high (n := 38) (k := 1) _ _ _ _ (by decide)).trans ((extract_high (n := 37) (k := 1) _ _ _ _ (by decide)).trans ((extract_high (n := 29) (k := 8) _ _ _ _ (by decide)).trans ((extract_high (n := 21) (k := 8) _ _ _ _ (by decide)).trans ((extract_high (n := 13) (k := 8) _ _ _ _ (by decide)).trans ((extract_low (n := 8) (k := 5) _ _ _ _ (by decide)).trans ((extract_low (n := 4) (k := 1) _ _ _ _ (by decide)).trans ((extract_full _))))))))))))))))⟩,
    ((extract_high (n := 56) (k := 8) _ _ _ _ (by decide)).trans ((extract_high (n := 53) (k := 3) _ _ _ _ (by decide)).trans ((extract_high (n := 52) (k := 1) _ _ _ _ (by decide)).trans ((extract_high (n := 50) (k := 2) _ _ _ _ (by decide)).trans ((extract_high (n := 47) (k := 3) _ _ _ _ (by decide)).trans ((extract_high (n := 44) (k := 3) _ _ _ _ (by decide)).trans ((extract_high (n := 39) (k := 5) _ _ _ _ (by decide)).trans ((extract_high (n := 38) (k := 1) _ _ _ _ (by decide)).trans ((extract_high (n := 37) (k := 1) _ _ _ _ (by decide)).trans ((extract_high (n := 29) (k := 8) _ _ _ _ (by decide)).trans ((extract_high (n := 21) (k := 8) _ _ _ _ (by decide)).trans ((extract_low (n := 13) (k := 8) _ _ _ _ (by decide)).trans ((extract_full _)))))))))))))),
    ((extract_high (n := 56) (k := 8) _ _ _ _ (by decide)).trans ((extract_high (n := 53) (k := 3) _ _ _ _ (by decide)).trans ((extract_high (n := 52) (k := 1) _ _ _ _ (by decide)).trans ((extract_high (n := 50) (k := 2) _ _ _ _ (by decide)).trans ((extract_high (n := 47) (k := 3) _ _ _ _ (by decide)).trans ((extract_high (n := 44) (k := 3) _ _ _ _ (by decide)).trans ((extract_high (n := 39) (k := 5) _ _ _ _ (by decide)).trans ((extract_high (n := 38) (k := 1) _ _ _ _ (by decide)).trans ((extract_high (n := 37) (k := 1) _ _ _ _ (by decide)).trans ((extract_high (n := 29) (k := 8) _ _ _ _ (by decide)).trans ((extract_low (n := 21) (k := 8) _ _ _ _ (by decide)).trans ((extract_full _))))))))))))),
    ((extract_high (n := 56) (k := 8) _ _ _ _ (by decide)).trans ((extract_high (n := 53) (k := 3) _ _ _ _ (by decide)).trans ((extract_high (n := 52) (k := 1) _ _ _ _ (by decide)).trans ((extract_high (n := 50) (k := 2) _ _ _ _ (by decide)).trans ((extract_high (n := 47) (k := 3) _ _ _ _ (by decide)).trans ((extract_high (n := 44) (k := 3) _ _ _ _ (by decide)).trans ((extract_high (n := 39) (k := 5) _ _ _ _ (by decide)).trans ((extract_high (n := 38) (k := 1) _ _ _ _ (by decide)).trans ((extract_high (n := 37) (k := 1) _ _ _ _ (by decide)).trans ((extract_low (n := 29) (k := 8) _ _ _ _ (by decide)).trans ((extract_full _)))))))))))),
    bit_of _ _ _ ((extract_high (n := 56) (k := 8) _ _ _ _ (by decide)).trans ((extract_high (n := 53) (k := 3) _ _ _ _ (by decide)).trans ((extract_high (n := 52) (k := 1) _ _ _ _ (by decide)).trans ((extract_high (n := 50) (k := 2) _ _ _ _ (by decide)).trans ((extract_high (n := 47) (k := 3) _ _ _ _ (by decide)).trans ((extract_high (n := 44) (k := 3) _ _ _ _ (by decide)).trans ((extract_high (n := 39) (k := 5) _ _ _ _ (by decide)).trans ((extract_high (n := 38) (k := 1) _ _ _ _ (by decide)).trans ((extract_low (n := 37) (k := 1) _ _ _ _ (by decide)).trans ((extract_full _))))))))))),
    bit_of _ _ _ ((extract_high (n := 56) (k := 8) _ _ _ _ (by decide)).trans ((extract_high (n := 53) (k := 3) _ _ _ _ (by decide)).trans ((extract_high (n := 52) (k := 1) _ _ _ _ (by decide)).trans ((extract_high (n := 50) (k := 2) _ _ _ _ (by decide)).trans ((extract_high (n := 47) (k := 3) _ _ _ _ (by decide)).trans ((extract_high (n := 44) (k := 3) _ _ _ _ (by decide)).trans ((extract_high (n := 39) (k := 5) _ _ _ _ (by decide)).trans ((extract_low (n := 38) (k := 1) _ _ _ _ (by decide)).trans ((extract_full _)))))))))),
    code_of tyOf _ _ _ ((extract_high (n := 56) (k := 8) _ _ _ _ (by decide)).trans ((extract_high (n := 53) (k := 3) _ _ _ _ (by decide)).trans ((extract_high (n := 52) (k := 1) _ _ _ _ (by decide)).trans ((extract_high (n := 50) (k := 2) _ _ _ _ (by decide)).trans ((extract_high (n := 47) (k := 3) _ _ _ _ (by decide)).trans ((extract_high (n := 44) (k := 3) _ _ _ _ (by decide)).trans ((extract_low (n := 39) (k := 5) _ _ _ _ (by decide)).trans ((extract_full _))))))))) (by cases ty <;> rfl),
    code_of ordOf _ _ _ ((extract_high (n := 56) (k := 8) _ _ _ _ (by decide)).trans ((extract_high (n := 53) (k := 3) _ _ _ _ (by decide)).trans ((extract_high (n := 52) (k := 1) _ _ _ _ (by decide)).trans ((extract_high (n := 50) (k := 2) _ _ _ _ (by decide)).trans ((extract_high (n := 47) (k := 3) _ _ _ _ (by decide)).trans ((extract_low (n := 44) (k := 3) _ _ _ _ (by decide)).trans ((extract_full _)))))))) (by cases ord <;> rfl),
    code_of scopeOf _ _ _ ((extract_high (n := 56) (k := 8) _ _ _ _ (by decide)).trans ((extract_high (n := 53) (k := 3) _ _ _ _ (by decide)).trans ((extract_high (n := 52) (k := 1) _ _ _ _ (by decide)).trans ((extract_high (n := 50) (k := 2) _ _ _ _ (by decide)).trans ((extract_low (n := 47) (k := 3) _ _ _ _ (by decide)).trans ((extract_full _))))))) (by cases scope <;> rfl),
    code_of flagOf _ _ _ ((extract_high (n := 56) (k := 8) _ _ _ _ (by decide)).trans ((extract_high (n := 53) (k := 3) _ _ _ _ (by decide)).trans ((extract_high (n := 52) (k := 1) _ _ _ _ (by decide)).trans ((extract_low (n := 50) (k := 2) _ _ _ _ (by decide)).trans ((extract_full _)))))) (by cases fl <;> rfl),
    bit_of _ _ _ ((extract_high (n := 56) (k := 8) _ _ _ _ (by decide)).trans ((extract_high (n := 53) (k := 3) _ _ _ _ (by decide)).trans ((extract_low (n := 52) (k := 1) _ _ _ _ (by decide)).trans ((extract_full _))))),
    ((extract_high (n := 56) (k := 8) _ _ _ _ (by decide)).trans ((extract_low (n := 53) (k := 3) _ _ _ _ (by decide)).trans ((extract_full _)))),
    ((extract_low (n := 56) (k := 8) _ _ _ _ (by decide)).trans ((extract_full _)))⟩

/-- The fields of a C word are read back (R82). -/
theorem unpackC_packC (op : BitVec 8) (f : FC) : opOf (packC op f) = op ∧ unpackC (packC op f) = f := by
  obtain ⟨⟨p, n⟩, pa, jn, reg, kr, rsv, lo⟩ := f
  unfold unpackC guardOf opOf
  simp only [FC.mk.injEq, Guard.mk.injEq]
  refine ⟨((extract_high (n := 32) (k := 32) _ _ _ _ (by decide)).trans ((extract_high (n := 30) (k := 2) _ _ _ _ (by decide)).trans ((extract_high (n := 28) (k := 2) _ _ _ _ (by decide)).trans ((extract_high (n := 20) (k := 8) _ _ _ _ (by decide)).trans ((extract_high (n := 17) (k := 3) _ _ _ _ (by decide)).trans ((extract_high (n := 13) (k := 4) _ _ _ _ (by decide)).trans ((extract_high (n := 8) (k := 5) _ _ _ _ (by decide)).trans ((extract_full _))))))))), ⟨((extract_high (n := 32) (k := 32) _ _ _ _ (by decide)).trans ((extract_high (n := 30) (k := 2) _ _ _ _ (by decide)).trans ((extract_high (n := 28) (k := 2) _ _ _ _ (by decide)).trans ((extract_high (n := 20) (k := 8) _ _ _ _ (by decide)).trans ((extract_high (n := 17) (k := 3) _ _ _ _ (by decide)).trans ((extract_high (n := 13) (k := 4) _ _ _ _ (by decide)).trans ((extract_low (n := 8) (k := 5) _ _ _ _ (by decide)).trans ((extract_high (n := 4) (k := 1) _ _ _ _ (by decide)).trans ((extract_full _)))))))))),
    bit_of _ _ _ ((extract_high (n := 32) (k := 32) _ _ _ _ (by decide)).trans ((extract_high (n := 30) (k := 2) _ _ _ _ (by decide)).trans ((extract_high (n := 28) (k := 2) _ _ _ _ (by decide)).trans ((extract_high (n := 20) (k := 8) _ _ _ _ (by decide)).trans ((extract_high (n := 17) (k := 3) _ _ _ _ (by decide)).trans ((extract_high (n := 13) (k := 4) _ _ _ _ (by decide)).trans ((extract_low (n := 8) (k := 5) _ _ _ _ (by decide)).trans ((extract_low (n := 4) (k := 1) _ _ _ _ (by decide)).trans ((extract_full _))))))))))⟩,
    ((extract_high (n := 32) (k := 32) _ _ _ _ (by decide)).trans ((extract_high (n := 30) (k := 2) _ _ _ _ (by decide)).trans ((extract_high (n := 28) (k := 2) _ _ _ _ (by decide)).trans ((extract_high (n := 20) (k := 8) _ _ _ _ (by decide)).trans ((extract_high (n := 17) (k := 3) _ _ _ _ (by decide)).trans ((extract_low (n := 13) (k := 4) _ _ _ _ (by decide)).trans ((extract_full _)))))))),
    ((extract_high (n := 32) (k := 32) _ _ _ _ (by decide)).trans ((extract_high (n := 30) (k := 2) _ _ _ _ (by decide)).trans ((extract_high (n := 28) (k := 2) _ _ _ _ (by decide)).trans ((extract_high (n := 20) (k := 8) _ _ _ _ (by decide)).trans ((extract_low (n := 17) (k := 3) _ _ _ _ (by decide)).trans ((extract_full _))))))),
    ((extract_high (n := 32) (k := 32) _ _ _ _ (by decide)).trans ((extract_high (n := 30) (k := 2) _ _ _ _ (by decide)).trans ((extract_high (n := 28) (k := 2) _ _ _ _ (by decide)).trans ((extract_low (n := 20) (k := 8) _ _ _ _ (by decide)).trans ((extract_full _)))))),
    code_of kindOf _ _ _ ((extract_high (n := 32) (k := 32) _ _ _ _ (by decide)).trans ((extract_high (n := 30) (k := 2) _ _ _ _ (by decide)).trans ((extract_low (n := 28) (k := 2) _ _ _ _ (by decide)).trans ((extract_full _))))) (by cases kr <;> rfl),
    ((extract_high (n := 32) (k := 32) _ _ _ _ (by decide)).trans ((extract_low (n := 30) (k := 2) _ _ _ _ (by decide)).trans ((extract_full _)))),
    ((extract_low (n := 32) (k := 32) _ _ _ _ (by decide)).trans ((extract_full _)))⟩

/-- The fields of an X word are read back (R83). -/
theorem unpackX_packX (op : BitVec 8) (f : FX) : opOf (packX op f) = op ∧ unpackX (packX op f) f.ext = f := by
  obtain ⟨⟨p, n⟩, d, a, b, ty, ord, scope, fl, pb, sub, imm7, ext⟩ := f
  unfold unpackX guardOf opOf
  simp only [FX.mk.injEq, Guard.mk.injEq, and_true]
  refine ⟨((extract_high (n := 57) (k := 7) _ _ _ _ (by decide)).trans ((extract_high (n := 54) (k := 3) _ _ _ _ (by decide)).trans ((extract_high (n := 50) (k := 4) _ _ _ _ (by decide)).trans ((extract_high (n := 48) (k := 2) _ _ _ _ (by decide)).trans ((extract_high (n := 45) (k := 3) _ _ _ _ (by decide)).trans ((extract_high (n := 42) (k := 3) _ _ _ _ (by decide)).trans ((extract_high (n := 37) (k := 5) _ _ _ _ (by decide)).trans ((extract_high (n := 29) (k := 8) _ _ _ _ (by decide)).trans ((extract_high (n := 21) (k := 8) _ _ _ _ (by decide)).trans ((extract_high (n := 13) (k := 8) _ _ _ _ (by decide)).trans ((extract_high (n := 8) (k := 5) _ _ _ _ (by decide)).trans ((extract_full _))))))))))))), ⟨((extract_high (n := 57) (k := 7) _ _ _ _ (by decide)).trans ((extract_high (n := 54) (k := 3) _ _ _ _ (by decide)).trans ((extract_high (n := 50) (k := 4) _ _ _ _ (by decide)).trans ((extract_high (n := 48) (k := 2) _ _ _ _ (by decide)).trans ((extract_high (n := 45) (k := 3) _ _ _ _ (by decide)).trans ((extract_high (n := 42) (k := 3) _ _ _ _ (by decide)).trans ((extract_high (n := 37) (k := 5) _ _ _ _ (by decide)).trans ((extract_high (n := 29) (k := 8) _ _ _ _ (by decide)).trans ((extract_high (n := 21) (k := 8) _ _ _ _ (by decide)).trans ((extract_high (n := 13) (k := 8) _ _ _ _ (by decide)).trans ((extract_low (n := 8) (k := 5) _ _ _ _ (by decide)).trans ((extract_high (n := 4) (k := 1) _ _ _ _ (by decide)).trans ((extract_full _)))))))))))))),
    bit_of _ _ _ ((extract_high (n := 57) (k := 7) _ _ _ _ (by decide)).trans ((extract_high (n := 54) (k := 3) _ _ _ _ (by decide)).trans ((extract_high (n := 50) (k := 4) _ _ _ _ (by decide)).trans ((extract_high (n := 48) (k := 2) _ _ _ _ (by decide)).trans ((extract_high (n := 45) (k := 3) _ _ _ _ (by decide)).trans ((extract_high (n := 42) (k := 3) _ _ _ _ (by decide)).trans ((extract_high (n := 37) (k := 5) _ _ _ _ (by decide)).trans ((extract_high (n := 29) (k := 8) _ _ _ _ (by decide)).trans ((extract_high (n := 21) (k := 8) _ _ _ _ (by decide)).trans ((extract_high (n := 13) (k := 8) _ _ _ _ (by decide)).trans ((extract_low (n := 8) (k := 5) _ _ _ _ (by decide)).trans ((extract_low (n := 4) (k := 1) _ _ _ _ (by decide)).trans ((extract_full _))))))))))))))⟩,
    ((extract_high (n := 57) (k := 7) _ _ _ _ (by decide)).trans ((extract_high (n := 54) (k := 3) _ _ _ _ (by decide)).trans ((extract_high (n := 50) (k := 4) _ _ _ _ (by decide)).trans ((extract_high (n := 48) (k := 2) _ _ _ _ (by decide)).trans ((extract_high (n := 45) (k := 3) _ _ _ _ (by decide)).trans ((extract_high (n := 42) (k := 3) _ _ _ _ (by decide)).trans ((extract_high (n := 37) (k := 5) _ _ _ _ (by decide)).trans ((extract_high (n := 29) (k := 8) _ _ _ _ (by decide)).trans ((extract_high (n := 21) (k := 8) _ _ _ _ (by decide)).trans ((extract_low (n := 13) (k := 8) _ _ _ _ (by decide)).trans ((extract_full _)))))))))))),
    ((extract_high (n := 57) (k := 7) _ _ _ _ (by decide)).trans ((extract_high (n := 54) (k := 3) _ _ _ _ (by decide)).trans ((extract_high (n := 50) (k := 4) _ _ _ _ (by decide)).trans ((extract_high (n := 48) (k := 2) _ _ _ _ (by decide)).trans ((extract_high (n := 45) (k := 3) _ _ _ _ (by decide)).trans ((extract_high (n := 42) (k := 3) _ _ _ _ (by decide)).trans ((extract_high (n := 37) (k := 5) _ _ _ _ (by decide)).trans ((extract_high (n := 29) (k := 8) _ _ _ _ (by decide)).trans ((extract_low (n := 21) (k := 8) _ _ _ _ (by decide)).trans ((extract_full _))))))))))),
    ((extract_high (n := 57) (k := 7) _ _ _ _ (by decide)).trans ((extract_high (n := 54) (k := 3) _ _ _ _ (by decide)).trans ((extract_high (n := 50) (k := 4) _ _ _ _ (by decide)).trans ((extract_high (n := 48) (k := 2) _ _ _ _ (by decide)).trans ((extract_high (n := 45) (k := 3) _ _ _ _ (by decide)).trans ((extract_high (n := 42) (k := 3) _ _ _ _ (by decide)).trans ((extract_high (n := 37) (k := 5) _ _ _ _ (by decide)).trans ((extract_low (n := 29) (k := 8) _ _ _ _ (by decide)).trans ((extract_full _)))))))))),
    code_of tyOf _ _ _ ((extract_high (n := 57) (k := 7) _ _ _ _ (by decide)).trans ((extract_high (n := 54) (k := 3) _ _ _ _ (by decide)).trans ((extract_high (n := 50) (k := 4) _ _ _ _ (by decide)).trans ((extract_high (n := 48) (k := 2) _ _ _ _ (by decide)).trans ((extract_high (n := 45) (k := 3) _ _ _ _ (by decide)).trans ((extract_high (n := 42) (k := 3) _ _ _ _ (by decide)).trans ((extract_low (n := 37) (k := 5) _ _ _ _ (by decide)).trans ((extract_full _))))))))) (by cases ty <;> rfl),
    code_of ordOf _ _ _ ((extract_high (n := 57) (k := 7) _ _ _ _ (by decide)).trans ((extract_high (n := 54) (k := 3) _ _ _ _ (by decide)).trans ((extract_high (n := 50) (k := 4) _ _ _ _ (by decide)).trans ((extract_high (n := 48) (k := 2) _ _ _ _ (by decide)).trans ((extract_high (n := 45) (k := 3) _ _ _ _ (by decide)).trans ((extract_low (n := 42) (k := 3) _ _ _ _ (by decide)).trans ((extract_full _)))))))) (by cases ord <;> rfl),
    code_of scopeOf _ _ _ ((extract_high (n := 57) (k := 7) _ _ _ _ (by decide)).trans ((extract_high (n := 54) (k := 3) _ _ _ _ (by decide)).trans ((extract_high (n := 50) (k := 4) _ _ _ _ (by decide)).trans ((extract_high (n := 48) (k := 2) _ _ _ _ (by decide)).trans ((extract_low (n := 45) (k := 3) _ _ _ _ (by decide)).trans ((extract_full _))))))) (by cases scope <;> rfl),
    code_of flagOf _ _ _ ((extract_high (n := 57) (k := 7) _ _ _ _ (by decide)).trans ((extract_high (n := 54) (k := 3) _ _ _ _ (by decide)).trans ((extract_high (n := 50) (k := 4) _ _ _ _ (by decide)).trans ((extract_low (n := 48) (k := 2) _ _ _ _ (by decide)).trans ((extract_full _)))))) (by cases fl <;> rfl),
    ((extract_high (n := 57) (k := 7) _ _ _ _ (by decide)).trans ((extract_high (n := 54) (k := 3) _ _ _ _ (by decide)).trans ((extract_low (n := 50) (k := 4) _ _ _ _ (by decide)).trans ((extract_full _))))),
    ((extract_high (n := 57) (k := 7) _ _ _ _ (by decide)).trans ((extract_low (n := 54) (k := 3) _ _ _ _ (by decide)).trans ((extract_full _)))),
    ((extract_low (n := 57) (k := 7) _ _ _ _ (by decide)).trans ((extract_full _)))⟩

/-- Where several instructions share a major opcode, the field that tells which of them a word is (R137, R121, R174, R188, R189, R225). -/
def Told : Instr → Prop
  | .brx f => f.kr ≠ .vec
  | .brxVector f => f.kr = .vec
  | .psets f => f.sub ≠ 1
  | .psetsImm f => f.sub = 1
  | .srd f => f.sub ≠ 1
  | .srdVector f => f.sub = 1
  | .spawn f => f.sub ≠ 1
  | .spawnHeader f => f.sub = 1
  | .tend f => f.kr ≠ .uni
  | .tendValue f => f.kr = .uni
  | .amovToTile f => f.sub = 1
  | .amovTile f => f.sub = 2
  | .amovToVector f => f.sub ≠ 1 ∧ f.sub ≠ 2
  | _ => True



/-- The words of an instruction, whatever its fields hold, are read back as that instruction; an event has no words. -/
def ReadBack.Statement (i : Instr) : Prop :=
  match encode i with
  | [] => view i = none
  | w :: rest => Told i → extract w (rest.getD 0 0) = some i

theorem ReadBack.bra (f : FC) : ReadBack.Statement (.bra f) := by
  obtain ⟨h, k⟩ := unpackC_packC 0x01 f
  intro t
  simp_all [extract, extractRow0, Told]

theorem ReadBack.brp (f : FC) : ReadBack.Statement (.brp f) := by
  obtain ⟨h, k⟩ := unpackC_packC 0x02 f
  intro t
  simp_all [extract, extractRow0, Told]

theorem ReadBack.brx (f : FC) : ReadBack.Statement (.brx f) := by
  obtain ⟨h, k⟩ := unpackC_packC 0x03 f
  intro t
  simp_all [extract, extractRow0, Told]

theorem ReadBack.brxVector (f : FC) : ReadBack.Statement (.brxVector f) := by
  obtain ⟨h, k⟩ := unpackC_packC 0x03 f
  intro t
  simp_all [extract, extractRow0, Told]

theorem ReadBack.sbrz (f : FC) : ReadBack.Statement (.sbrz f) := by
  obtain ⟨h, k⟩ := unpackC_packC 0x04 f
  intro t
  simp_all [extract, extractRow0, Told]

theorem ReadBack.sbrnz (f : FC) : ReadBack.Statement (.sbrnz f) := by
  obtain ⟨h, k⟩ := unpackC_packC 0x05 f
  intro t
  simp_all [extract, extractRow0, Told]

theorem ReadBack.call (f : FC) : ReadBack.Statement (.call f) := by
  obtain ⟨h, k⟩ := unpackC_packC 0x06 f
  intro t
  simp_all [extract, extractRow0, Told]

theorem ReadBack.ret (f : FC) : ReadBack.Statement (.ret f) := by
  obtain ⟨h, k⟩ := unpackC_packC 0x07 f
  intro t
  simp_all [extract, extractRow0, Told]

theorem ReadBack.jset (f : FC) : ReadBack.Statement (.jset f) := by
  obtain ⟨h, k⟩ := unpackC_packC 0x08 f
  intro t
  simp_all [extract, extractRow0, Told]

theorem ReadBack.jwait (f : FC) : ReadBack.Statement (.jwait f) := by
  obtain ⟨h, k⟩ := unpackC_packC 0x09 f
  intro t
  simp_all [extract, extractRow0, Told]

theorem ReadBack.jdrop (f : FC) : ReadBack.Statement (.jdrop f) := by
  obtain ⟨h, k⟩ := unpackC_packC 0x0A f
  intro t
  simp_all [extract, extractRow0, Told]

theorem ReadBack.exit (f : FC) : ReadBack.Statement (.exit f) := by
  obtain ⟨h, k⟩ := unpackC_packC 0x0B f
  intro t
  simp_all [extract, extractRow0, Told]

theorem ReadBack.nop (f : FC) : ReadBack.Statement (.nop f) := by
  obtain ⟨h, k⟩ := unpackC_packC 0x0C f
  intro t
  simp_all [extract, extractRow0, Told]

theorem ReadBack.smov (f : FS) : ReadBack.Statement (.smov f) := by
  obtain ⟨h, k⟩ := unpackS_packS 0x10 f
  intro t
  simp_all [extract, extractRow1, Told]

theorem ReadBack.sli (f : FX) : ReadBack.Statement (.sli f) := by
  obtain ⟨h, k⟩ := unpackX_packX 0x11 f
  intro t
  simp_all [extract, extractRow1, Told]

theorem ReadBack.sadd (f : FS) : ReadBack.Statement (.sadd f) := by
  obtain ⟨h, k⟩ := unpackS_packS 0x12 f
  intro t
  simp_all [extract, extractRow1, Told]

theorem ReadBack.ssub (f : FS) : ReadBack.Statement (.ssub f) := by
  obtain ⟨h, k⟩ := unpackS_packS 0x13 f
  intro t
  simp_all [extract, extractRow1, Told]

theorem ReadBack.smul (f : FS) : ReadBack.Statement (.smul f) := by
  obtain ⟨h, k⟩ := unpackS_packS 0x14 f
  intro t
  simp_all [extract, extractRow1, Told]

theorem ReadBack.smulh (f : FS) : ReadBack.Statement (.smulh f) := by
  obtain ⟨h, k⟩ := unpackS_packS 0x15 f
  intro t
  simp_all [extract, extractRow1, Told]

theorem ReadBack.smad (f : FS) : ReadBack.Statement (.smad f) := by
  obtain ⟨h, k⟩ := unpackS_packS 0x16 f
  intro t
  simp_all [extract, extractRow1, Told]

theorem ReadBack.sand (f : FS) : ReadBack.Statement (.sand f) := by
  obtain ⟨h, k⟩ := unpackS_packS 0x17 f
  intro t
  simp_all [extract, extractRow1, Told]

theorem ReadBack.sor (f : FS) : ReadBack.Statement (.sor f) := by
  obtain ⟨h, k⟩ := unpackS_packS 0x18 f
  intro t
  simp_all [extract, extractRow1, Told]

theorem ReadBack.sxor (f : FS) : ReadBack.Statement (.sxor f) := by
  obtain ⟨h, k⟩ := unpackS_packS 0x19 f
  intro t
  simp_all [extract, extractRow1, Told]

theorem ReadBack.snot (f : FS) : ReadBack.Statement (.snot f) := by
  obtain ⟨h, k⟩ := unpackS_packS 0x1A f
  intro t
  simp_all [extract, extractRow1, Told]

theorem ReadBack.sshl (f : FS) : ReadBack.Statement (.sshl f) := by
  obtain ⟨h, k⟩ := unpackS_packS 0x1B f
  intro t
  simp_all [extract, extractRow1, Told]

theorem ReadBack.sshr (f : FS) : ReadBack.Statement (.sshr f) := by
  obtain ⟨h, k⟩ := unpackS_packS 0x1C f
  intro t
  simp_all [extract, extractRow1, Told]

theorem ReadBack.ssar (f : FS) : ReadBack.Statement (.ssar f) := by
  obtain ⟨h, k⟩ := unpackS_packS 0x1D f
  intro t
  simp_all [extract, extractRow1, Told]

theorem ReadBack.smin (f : FS) : ReadBack.Statement (.smin f) := by
  obtain ⟨h, k⟩ := unpackS_packS 0x1E f
  intro t
  simp_all [extract, extractRow1, Told]

theorem ReadBack.smax (f : FS) : ReadBack.Statement (.smax f) := by
  obtain ⟨h, k⟩ := unpackS_packS 0x1F f
  intro t
  simp_all [extract, extractRow1, Told]

theorem ReadBack.scmp (f : FS) : ReadBack.Statement (.scmp f) := by
  obtain ⟨h, k⟩ := unpackS_packS 0x20 f
  intro t
  simp_all [extract, extractRow2, Told]

theorem ReadBack.ssel (f : FS) : ReadBack.Statement (.ssel f) := by
  obtain ⟨h, k⟩ := unpackS_packS 0x21 f
  intro t
  simp_all [extract, extractRow2, Told]

theorem ReadBack.spopc (f : FS) : ReadBack.Statement (.spopc f) := by
  obtain ⟨h, k⟩ := unpackS_packS 0x22 f
  intro t
  simp_all [extract, extractRow2, Told]

theorem ReadBack.sclz (f : FS) : ReadBack.Statement (.sclz f) := by
  obtain ⟨h, k⟩ := unpackS_packS 0x23 f
  intro t
  simp_all [extract, extractRow2, Told]

theorem ReadBack.sbfe (f : FS) : ReadBack.Statement (.sbfe f) := by
  obtain ⟨h, k⟩ := unpackS_packS 0x24 f
  intro t
  simp_all [extract, extractRow2, Told]

theorem ReadBack.sbfi (f : FS) : ReadBack.Statement (.sbfi f) := by
  obtain ⟨h, k⟩ := unpackS_packS 0x25 f
  intro t
  simp_all [extract, extractRow2, Told]

theorem ReadBack.vmov (f : FV3) : ReadBack.Statement (.vmov f) := by
  obtain ⟨h, k⟩ := unpackV3_packV3 0x28 f
  intro t
  simp_all [extract, extractRow2, Told]

theorem ReadBack.vli (f : FX) : ReadBack.Statement (.vli f) := by
  obtain ⟨h, k⟩ := unpackX_packX 0x29 f
  intro t
  simp_all [extract, extractRow2, Told]

theorem ReadBack.vadd (f : FV3) : ReadBack.Statement (.vadd f) := by
  obtain ⟨h, k⟩ := unpackV3_packV3 0x2A f
  intro t
  simp_all [extract, extractRow2, Told]

theorem ReadBack.vsub (f : FV3) : ReadBack.Statement (.vsub f) := by
  obtain ⟨h, k⟩ := unpackV3_packV3 0x2B f
  intro t
  simp_all [extract, extractRow2, Told]

theorem ReadBack.vmul (f : FV3) : ReadBack.Statement (.vmul f) := by
  obtain ⟨h, k⟩ := unpackV3_packV3 0x2C f
  intro t
  simp_all [extract, extractRow2, Told]

theorem ReadBack.vmulh (f : FV3) : ReadBack.Statement (.vmulh f) := by
  obtain ⟨h, k⟩ := unpackV3_packV3 0x2D f
  intro t
  simp_all [extract, extractRow2, Told]

theorem ReadBack.vmad (f : FV3) : ReadBack.Statement (.vmad f) := by
  obtain ⟨h, k⟩ := unpackV3_packV3 0x2E f
  intro t
  simp_all [extract, extractRow2, Told]

theorem ReadBack.vmadw (f : FV3) : ReadBack.Statement (.vmadw f) := by
  obtain ⟨h, k⟩ := unpackV3_packV3 0x2F f
  intro t
  simp_all [extract, extractRow2, Told]

theorem ReadBack.vaddc (f : FV3) : ReadBack.Statement (.vaddc f) := by
  obtain ⟨h, k⟩ := unpackV3_packV3 0x30 f
  intro t
  simp_all [extract, extractRow3, Told]

theorem ReadBack.vabs (f : FV3) : ReadBack.Statement (.vabs f) := by
  obtain ⟨h, k⟩ := unpackV3_packV3 0x31 f
  intro t
  simp_all [extract, extractRow3, Told]

theorem ReadBack.vneg (f : FV3) : ReadBack.Statement (.vneg f) := by
  obtain ⟨h, k⟩ := unpackV3_packV3 0x32 f
  intro t
  simp_all [extract, extractRow3, Told]

theorem ReadBack.vmin (f : FV3) : ReadBack.Statement (.vmin f) := by
  obtain ⟨h, k⟩ := unpackV3_packV3 0x33 f
  intro t
  simp_all [extract, extractRow3, Told]

theorem ReadBack.vmax (f : FV3) : ReadBack.Statement (.vmax f) := by
  obtain ⟨h, k⟩ := unpackV3_packV3 0x34 f
  intro t
  simp_all [extract, extractRow3, Told]

theorem ReadBack.vand (f : FV3) : ReadBack.Statement (.vand f) := by
  obtain ⟨h, k⟩ := unpackV3_packV3 0x35 f
  intro t
  simp_all [extract, extractRow3, Told]

theorem ReadBack.vor (f : FV3) : ReadBack.Statement (.vor f) := by
  obtain ⟨h, k⟩ := unpackV3_packV3 0x36 f
  intro t
  simp_all [extract, extractRow3, Told]

theorem ReadBack.vxor (f : FV3) : ReadBack.Statement (.vxor f) := by
  obtain ⟨h, k⟩ := unpackV3_packV3 0x37 f
  intro t
  simp_all [extract, extractRow3, Told]

theorem ReadBack.vnot (f : FV3) : ReadBack.Statement (.vnot f) := by
  obtain ⟨h, k⟩ := unpackV3_packV3 0x38 f
  intro t
  simp_all [extract, extractRow3, Told]

theorem ReadBack.vshl (f : FV3) : ReadBack.Statement (.vshl f) := by
  obtain ⟨h, k⟩ := unpackV3_packV3 0x39 f
  intro t
  simp_all [extract, extractRow3, Told]

theorem ReadBack.vshr (f : FV3) : ReadBack.Statement (.vshr f) := by
  obtain ⟨h, k⟩ := unpackV3_packV3 0x3A f
  intro t
  simp_all [extract, extractRow3, Told]

theorem ReadBack.vsar (f : FV3) : ReadBack.Statement (.vsar f) := by
  obtain ⟨h, k⟩ := unpackV3_packV3 0x3B f
  intro t
  simp_all [extract, extractRow3, Told]

theorem ReadBack.vrot (f : FV3) : ReadBack.Statement (.vrot f) := by
  obtain ⟨h, k⟩ := unpackV3_packV3 0x3C f
  intro t
  simp_all [extract, extractRow3, Told]

theorem ReadBack.vbfe (f : FVI) : ReadBack.Statement (.vbfe f) := by
  obtain ⟨h, k⟩ := unpackVI_packVI 0x3D f
  intro t
  simp_all [extract, extractRow3, Told]

theorem ReadBack.vbfi (f : FVI) : ReadBack.Statement (.vbfi f) := by
  obtain ⟨h, k⟩ := unpackVI_packVI 0x3E f
  intro t
  simp_all [extract, extractRow3, Told]

theorem ReadBack.vpopc (f : FV3) : ReadBack.Statement (.vpopc f) := by
  obtain ⟨h, k⟩ := unpackV3_packV3 0x3F f
  intro t
  simp_all [extract, extractRow3, Told]

theorem ReadBack.vclz (f : FV3) : ReadBack.Statement (.vclz f) := by
  obtain ⟨h, k⟩ := unpackV3_packV3 0x40 f
  intro t
  simp_all [extract, extractRow4, Told]

theorem ReadBack.vbrev (f : FV3) : ReadBack.Statement (.vbrev f) := by
  obtain ⟨h, k⟩ := unpackV3_packV3 0x41 f
  intro t
  simp_all [extract, extractRow4, Told]

theorem ReadBack.vsel (f : FV3) : ReadBack.Statement (.vsel f) := by
  obtain ⟨h, k⟩ := unpackV3_packV3 0x42 f
  intro t
  simp_all [extract, extractRow4, Told]

theorem ReadBack.vlea (f : FV3) : ReadBack.Statement (.vlea f) := by
  obtain ⟨h, k⟩ := unpackV3_packV3 0x43 f
  intro t
  simp_all [extract, extractRow4, Told]

theorem ReadBack.fadd (f : FV3) : ReadBack.Statement (.fadd f) := by
  obtain ⟨h, k⟩ := unpackV3_packV3 0x48 f
  intro t
  simp_all [extract, extractRow4, Told]

theorem ReadBack.fsub (f : FV3) : ReadBack.Statement (.fsub f) := by
  obtain ⟨h, k⟩ := unpackV3_packV3 0x49 f
  intro t
  simp_all [extract, extractRow4, Told]

theorem ReadBack.fmul (f : FV3) : ReadBack.Statement (.fmul f) := by
  obtain ⟨h, k⟩ := unpackV3_packV3 0x4A f
  intro t
  simp_all [extract, extractRow4, Told]

theorem ReadBack.ffma (f : FV3) : ReadBack.Statement (.ffma f) := by
  obtain ⟨h, k⟩ := unpackV3_packV3 0x4B f
  intro t
  simp_all [extract, extractRow4, Told]

theorem ReadBack.fmin (f : FV3) : ReadBack.Statement (.fmin f) := by
  obtain ⟨h, k⟩ := unpackV3_packV3 0x4C f
  intro t
  simp_all [extract, extractRow4, Told]

theorem ReadBack.fmax (f : FV3) : ReadBack.Statement (.fmax f) := by
  obtain ⟨h, k⟩ := unpackV3_packV3 0x4D f
  intro t
  simp_all [extract, extractRow4, Told]

theorem ReadBack.fabs (f : FV3) : ReadBack.Statement (.fabs f) := by
  obtain ⟨h, k⟩ := unpackV3_packV3 0x4E f
  intro t
  simp_all [extract, extractRow4, Told]

theorem ReadBack.fneg (f : FV3) : ReadBack.Statement (.fneg f) := by
  obtain ⟨h, k⟩ := unpackV3_packV3 0x4F f
  intro t
  simp_all [extract, extractRow4, Told]

theorem ReadBack.frcp (f : FV3) : ReadBack.Statement (.frcp f) := by
  obtain ⟨h, k⟩ := unpackV3_packV3 0x50 f
  intro t
  simp_all [extract, extractRow5, Told]

theorem ReadBack.frsq (f : FV3) : ReadBack.Statement (.frsq f) := by
  obtain ⟨h, k⟩ := unpackV3_packV3 0x51 f
  intro t
  simp_all [extract, extractRow5, Told]

theorem ReadBack.fsqrt (f : FV3) : ReadBack.Statement (.fsqrt f) := by
  obtain ⟨h, k⟩ := unpackV3_packV3 0x52 f
  intro t
  simp_all [extract, extractRow5, Told]

theorem ReadBack.fexp2 (f : FV3) : ReadBack.Statement (.fexp2 f) := by
  obtain ⟨h, k⟩ := unpackV3_packV3 0x53 f
  intro t
  simp_all [extract, extractRow5, Told]

theorem ReadBack.flog2 (f : FV3) : ReadBack.Statement (.flog2 f) := by
  obtain ⟨h, k⟩ := unpackV3_packV3 0x54 f
  intro t
  simp_all [extract, extractRow5, Told]

theorem ReadBack.fsin (f : FV3) : ReadBack.Statement (.fsin f) := by
  obtain ⟨h, k⟩ := unpackV3_packV3 0x55 f
  intro t
  simp_all [extract, extractRow5, Told]

theorem ReadBack.fcos (f : FV3) : ReadBack.Statement (.fcos f) := by
  obtain ⟨h, k⟩ := unpackV3_packV3 0x56 f
  intro t
  simp_all [extract, extractRow5, Told]

theorem ReadBack.frnd (f : FV3) : ReadBack.Statement (.frnd f) := by
  obtain ⟨h, k⟩ := unpackV3_packV3 0x57 f
  intro t
  simp_all [extract, extractRow5, Told]

theorem ReadBack.fclass (f : FVI) : ReadBack.Statement (.fclass f) := by
  obtain ⟨h, k⟩ := unpackVI_packVI 0x58 f
  intro t
  simp_all [extract, extractRow5, Told]

theorem ReadBack.fdot2 (f : FV3) : ReadBack.Statement (.fdot2 f) := by
  obtain ⟨h, k⟩ := unpackV3_packV3 0x59 f
  intro t
  simp_all [extract, extractRow5, Told]

theorem ReadBack.cvt (f : FV3) : ReadBack.Statement (.cvt f) := by
  obtain ⟨h, k⟩ := unpackV3_packV3 0x5C f
  intro t
  simp_all [extract, extractRow5, Told]

theorem ReadBack.pack (f : FV3) : ReadBack.Statement (.pack f) := by
  obtain ⟨h, k⟩ := unpackV3_packV3 0x5D f
  intro t
  simp_all [extract, extractRow5, Told]

theorem ReadBack.unpk (f : FVI) : ReadBack.Statement (.unpk f) := by
  obtain ⟨h, k⟩ := unpackVI_packVI 0x5E f
  intro t
  simp_all [extract, extractRow5, Told]

theorem ReadBack.qnt (f : FV3) : ReadBack.Statement (.qnt f) := by
  obtain ⟨h, k⟩ := unpackV3_packV3 0x5F f
  intro t
  simp_all [extract, extractRow5, Told]

theorem ReadBack.vcmp (f : FV3) : ReadBack.Statement (.vcmp f) := by
  obtain ⟨h, k⟩ := unpackV3_packV3 0x60 f
  intro t
  simp_all [extract, extractRow6, Told]

theorem ReadBack.fcmp (f : FV3) : ReadBack.Statement (.fcmp f) := by
  obtain ⟨h, k⟩ := unpackV3_packV3 0x61 f
  intro t
  simp_all [extract, extractRow6, Told]

theorem ReadBack.pand (f : FV3) : ReadBack.Statement (.pand f) := by
  obtain ⟨h, k⟩ := unpackV3_packV3 0x62 f
  intro t
  simp_all [extract, extractRow6, Told]

theorem ReadBack.por (f : FV3) : ReadBack.Statement (.por f) := by
  obtain ⟨h, k⟩ := unpackV3_packV3 0x63 f
  intro t
  simp_all [extract, extractRow6, Told]

theorem ReadBack.pxor (f : FV3) : ReadBack.Statement (.pxor f) := by
  obtain ⟨h, k⟩ := unpackV3_packV3 0x64 f
  intro t
  simp_all [extract, extractRow6, Told]

theorem ReadBack.pnot (f : FV3) : ReadBack.Statement (.pnot f) := by
  obtain ⟨h, k⟩ := unpackV3_packV3 0x65 f
  intro t
  simp_all [extract, extractRow6, Told]

theorem ReadBack.pmov (f : FV3) : ReadBack.Statement (.pmov f) := by
  obtain ⟨h, k⟩ := unpackV3_packV3 0x66 f
  intro t
  simp_all [extract, extractRow6, Told]

theorem ReadBack.psets (f : FVI) : ReadBack.Statement (.psets f) := by
  obtain ⟨h, k⟩ := unpackVI_packVI 0x67 f
  intro t
  simp_all [extract, extractRow6, Told]

theorem ReadBack.psetsImm (f : FVI) : ReadBack.Statement (.psetsImm f) := by
  obtain ⟨h, k⟩ := unpackVI_packVI 0x67 f
  intro t
  simp_all [extract, extractRow6, Told]

theorem ReadBack.pgets (f : FVI) : ReadBack.Statement (.pgets f) := by
  obtain ⟨h, k⟩ := unpackVI_packVI 0x68 f
  intro t
  simp_all [extract, extractRow6, Told]

theorem ReadBack.shfl (f : FVI) : ReadBack.Statement (.shfl f) := by
  obtain ⟨h, k⟩ := unpackVI_packVI 0x70 f
  intro t
  simp_all [extract, extractRow7, Told]

theorem ReadBack.bcast (f : FVI) : ReadBack.Statement (.bcast f) := by
  obtain ⟨h, k⟩ := unpackVI_packVI 0x71 f
  intro t
  simp_all [extract, extractRow7, Told]

theorem ReadBack.ballot (f : FV3) : ReadBack.Statement (.ballot f) := by
  obtain ⟨h, k⟩ := unpackV3_packV3 0x72 f
  intro t
  simp_all [extract, extractRow7, Told]

theorem ReadBack.vote (f : FV3) : ReadBack.Statement (.vote f) := by
  obtain ⟨h, k⟩ := unpackV3_packV3 0x73 f
  intro t
  simp_all [extract, extractRow7, Told]

theorem ReadBack.redx (f : FV3) : ReadBack.Statement (.redx f) := by
  obtain ⟨h, k⟩ := unpackV3_packV3 0x74 f
  intro t
  simp_all [extract, extractRow7, Told]

theorem ReadBack.scan (f : FV3) : ReadBack.Statement (.scan f) := by
  obtain ⟨h, k⟩ := unpackV3_packV3 0x75 f
  intro t
  simp_all [extract, extractRow7, Told]

theorem ReadBack.match (f : FV3) : ReadBack.Statement (.match f) := by
  obtain ⟨h, k⟩ := unpackV3_packV3 0x76 f
  intro t
  simp_all [extract, extractRow7, Told]

theorem ReadBack.ld (f : FM) : ReadBack.Statement (.ld f) := by
  obtain ⟨h, k⟩ := unpackM_packM 0x80 f
  intro t
  simp_all [extract, extractRow8, Told]

theorem ReadBack.st (f : FM) : ReadBack.Statement (.st f) := by
  obtain ⟨h, k⟩ := unpackM_packM 0x81 f
  intro t
  simp_all [extract, extractRow8, Told]

theorem ReadBack.lds (f : FM) : ReadBack.Statement (.lds f) := by
  obtain ⟨h, k⟩ := unpackM_packM 0x82 f
  intro t
  simp_all [extract, extractRow8, Told]

theorem ReadBack.sts (f : FM) : ReadBack.Statement (.sts f) := by
  obtain ⟨h, k⟩ := unpackM_packM 0x83 f
  intro t
  simp_all [extract, extractRow8, Told]

theorem ReadBack.ldn (f : FM) : ReadBack.Statement (.ldn f) := by
  obtain ⟨h, k⟩ := unpackM_packM 0x84 f
  intro t
  simp_all [extract, extractRow8, Told]

theorem ReadBack.stn (f : FM) : ReadBack.Statement (.stn f) := by
  obtain ⟨h, k⟩ := unpackM_packM 0x85 f
  intro t
  simp_all [extract, extractRow8, Told]

theorem ReadBack.pref (f : FM) : ReadBack.Statement (.pref f) := by
  obtain ⟨h, k⟩ := unpackM_packM 0x86 f
  intro t
  simp_all [extract, extractRow8, Told]

theorem ReadBack.atom (f : FM) : ReadBack.Statement (.atom f) := by
  obtain ⟨h, k⟩ := unpackM_packM 0x87 f
  intro t
  simp_all [extract, extractRow8, Told]

theorem ReadBack.atoms (f : FM) : ReadBack.Statement (.atoms f) := by
  obtain ⟨h, k⟩ := unpackM_packM 0x88 f
  intro t
  simp_all [extract, extractRow8, Told]

theorem ReadBack.red (f : FM) : ReadBack.Statement (.red f) := by
  obtain ⟨h, k⟩ := unpackM_packM 0x89 f
  intro t
  simp_all [extract, extractRow8, Told]

theorem ReadBack.fence (f : FM) : ReadBack.Statement (.fence f) := by
  obtain ⟨h, k⟩ := unpackM_packM 0x8A f
  intro t
  simp_all [extract, extractRow8, Told]

theorem ReadBack.mwait (f : FM) : ReadBack.Statement (.mwait f) := by
  obtain ⟨h, k⟩ := unpackM_packM 0x8B f
  intro t
  simp_all [extract, extractRow8, Told]

theorem ReadBack.seal (f : FM) : ReadBack.Statement (.seal f) := by
  obtain ⟨h, k⟩ := unpackM_packM 0x8C f
  intro t
  simp_all [extract, extractRow8, Told]

theorem ReadBack.unseal (f : FM) : ReadBack.Statement (.unseal f) := by
  obtain ⟨h, k⟩ := unpackM_packM 0x8D f
  intro t
  simp_all [extract, extractRow8, Told]

theorem ReadBack.ptest (f : FV3) : ReadBack.Statement (.ptest f) := by
  obtain ⟨h, k⟩ := unpackV3_packV3 0x90 f
  intro t
  simp_all [extract, extractRow9, Told]

theorem ReadBack.pclr (f : FV3) : ReadBack.Statement (.pclr f) := by
  obtain ⟨h, k⟩ := unpackV3_packV3 0x91 f
  intro t
  simp_all [extract, extractRow9, Told]

theorem ReadBack.psel (f : FV3) : ReadBack.Statement (.psel f) := by
  obtain ⟨h, k⟩ := unpackV3_packV3 0x92 f
  intro t
  simp_all [extract, extractRow9, Told]

theorem ReadBack.pinj (f : FV3) : ReadBack.Statement (.pinj f) := by
  obtain ⟨h, k⟩ := unpackV3_packV3 0x93 f
  intro t
  simp_all [extract, extractRow9, Told]

theorem ReadBack.sigchk (f : FC) : ReadBack.Statement (.sigchk f) := by
  obtain ⟨h, k⟩ := unpackC_packC 0x94 f
  intro t
  simp_all [extract, extractRow9, Told]

theorem ReadBack.sigrd (f : FS) : ReadBack.Statement (.sigrd f) := by
  obtain ⟨h, k⟩ := unpackS_packS 0x95 f
  intro t
  simp_all [extract, extractRow9, Told]

theorem ReadBack.trap (f : FC) : ReadBack.Statement (.trap f) := by
  obtain ⟨h, k⟩ := unpackC_packC 0x98 f
  intro t
  simp_all [extract, extractRow9, Told]

theorem ReadBack.tret (f : FC) : ReadBack.Statement (.tret f) := by
  obtain ⟨h, k⟩ := unpackC_packC 0x99 f
  intro t
  simp_all [extract, extractRow9, Told]

theorem ReadBack.srd (f : FVI) : ReadBack.Statement (.srd f) := by
  obtain ⟨h, k⟩ := unpackVI_packVI 0x9A f
  intro t
  simp_all [extract, extractRow9, Told]

theorem ReadBack.srdVector (f : FVI) : ReadBack.Statement (.srdVector f) := by
  obtain ⟨h, k⟩ := unpackVI_packVI 0x9A f
  intro t
  simp_all [extract, extractRow9, Told]

theorem ReadBack.swr (f : FVI) : ReadBack.Statement (.swr f) := by
  obtain ⟨h, k⟩ := unpackVI_packVI 0x9B f
  intro t
  simp_all [extract, extractRow9, Told]

theorem ReadBack.svc (f : FC) : ReadBack.Statement (.svc f) := by
  obtain ⟨h, k⟩ := unpackC_packC 0x9C f
  intro t
  simp_all [extract, extractRow9, Told]

theorem ReadBack.eret (f : FC) : ReadBack.Statement (.eret f) := by
  obtain ⟨h, k⟩ := unpackC_packC 0x9F f
  intro t
  simp_all [extract, extractRow9, Told]

theorem ReadBack.halt (f : FC) : ReadBack.Statement (.halt f) := by
  obtain ⟨h, k⟩ := unpackC_packC 0x9E f
  intro t
  simp_all [extract, extractRow9, Told]

theorem ReadBack.tlbi (f : FM) : ReadBack.Statement (.tlbi f) := by
  obtain ⟨h, k⟩ := unpackM_packM 0x9D f
  intro t
  simp_all [extract, extractRow9, Told]

theorem ReadBack.spawn (f : FX) : ReadBack.Statement (.spawn f) := by
  obtain ⟨h, k⟩ := unpackX_packX 0xA0 f
  intro t
  simp_all [extract, extractRowA, Told]

theorem ReadBack.spawnHeader (f : FX) : ReadBack.Statement (.spawnHeader f) := by
  obtain ⟨h, k⟩ := unpackX_packX 0xA0 f
  intro t
  simp_all [extract, extractRowA, Told]

theorem ReadBack.tend (f : FC) : ReadBack.Statement (.tend f) := by
  obtain ⟨h, k⟩ := unpackC_packC 0xA1 f
  intro t
  simp_all [extract, extractRowA, Told]

theorem ReadBack.tendValue (f : FC) : ReadBack.Statement (.tendValue f) := by
  obtain ⟨h, k⟩ := unpackC_packC 0xA1 f
  intro t
  simp_all [extract, extractRowA, Told]

theorem ReadBack.yield (f : FC) : ReadBack.Statement (.yield f) := by
  obtain ⟨h, k⟩ := unpackC_packC 0xA2 f
  intro t
  simp_all [extract, extractRowA, Told]

theorem ReadBack.role (f : FX) : ReadBack.Statement (.role f) := by
  obtain ⟨h, k⟩ := unpackX_packX 0xA3 f
  intro t
  simp_all [extract, extractRowA, Told]

theorem ReadBack.tfetch (f : FS) : ReadBack.Statement (.tfetch f) := by
  obtain ⟨h, k⟩ := unpackS_packS 0xA4 f
  intro t
  simp_all [extract, extractRowA, Told]

theorem ReadBack.tdone (f : FS) : ReadBack.Statement (.tdone f) := by
  obtain ⟨h, k⟩ := unpackS_packS 0xA5 f
  intro t
  simp_all [extract, extractRowA, Told]

theorem ReadBack.joinf (f : FM) : ReadBack.Statement (.joinf f) := by
  obtain ⟨h, k⟩ := unpackM_packM 0xA6 f
  intro t
  simp_all [extract, extractRowA, Told]

theorem ReadBack.fprobe (f : FM) : ReadBack.Statement (.fprobe f) := by
  obtain ⟨h, k⟩ := unpackM_packM 0xA7 f
  intro t
  simp_all [extract, extractRowA, Told]

theorem ReadBack.fset (f : FM) : ReadBack.Statement (.fset f) := by
  obtain ⟨h, k⟩ := unpackM_packM 0xA8 f
  intro t
  simp_all [extract, extractRowA, Told]

theorem ReadBack.ffail (f : FM) : ReadBack.Statement (.ffail f) := by
  obtain ⟨h, k⟩ := unpackM_packM 0xA9 f
  intro t
  simp_all [extract, extractRowA, Told]

theorem ReadBack.sgadd (f : FM) : ReadBack.Statement (.sgadd f) := by
  obtain ⟨h, k⟩ := unpackM_packM 0xAA f
  intro t
  simp_all [extract, extractRowA, Told]

theorem ReadBack.sgwait (f : FM) : ReadBack.Statement (.sgwait f) := by
  obtain ⟨h, k⟩ := unpackM_packM 0xAB f
  intro t
  simp_all [extract, extractRowA, Told]

theorem ReadBack.qpush (f : FM) : ReadBack.Statement (.qpush f) := by
  obtain ⟨h, k⟩ := unpackM_packM 0xAC f
  intro t
  simp_all [extract, extractRowA, Told]

theorem ReadBack.qflush (f : FM) : ReadBack.Statement (.qflush f) := by
  obtain ⟨h, k⟩ := unpackM_packM 0xAD f
  intro t
  simp_all [extract, extractRowA, Told]

theorem ReadBack.qstat (f : FM) : ReadBack.Statement (.qstat f) := by
  obtain ⟨h, k⟩ := unpackM_packM 0xAE f
  intro t
  simp_all [extract, extractRowA, Told]

theorem ReadBack.cpy (f : FX) : ReadBack.Statement (.cpy f) := by
  obtain ⟨h, k⟩ := unpackX_packX 0xB0 f
  intro t
  simp_all [extract, extractRowB, Told]

theorem ReadBack.cpyl (f : FM) : ReadBack.Statement (.cpyl f) := by
  obtain ⟨h, k⟩ := unpackM_packM 0xB1 f
  intro t
  simp_all [extract, extractRowB, Told]

theorem ReadBack.cpyg (f : FX) : ReadBack.Statement (.cpyg f) := by
  obtain ⟨h, k⟩ := unpackX_packX 0xB2 f
  intro t
  simp_all [extract, extractRowB, Told]

theorem ReadBack.bari (f : FM) : ReadBack.Statement (.bari f) := by
  obtain ⟨h, k⟩ := unpackM_packM 0xB8 f
  intro t
  simp_all [extract, extractRowB, Told]

theorem ReadBack.bara (f : FM) : ReadBack.Statement (.bara f) := by
  obtain ⟨h, k⟩ := unpackM_packM 0xB9 f
  intro t
  simp_all [extract, extractRowB, Told]

theorem ReadBack.barx (f : FM) : ReadBack.Statement (.barx f) := by
  obtain ⟨h, k⟩ := unpackM_packM 0xBA f
  intro t
  simp_all [extract, extractRowB, Told]

theorem ReadBack.barp (f : FM) : ReadBack.Statement (.barp f) := by
  obtain ⟨h, k⟩ := unpackM_packM 0xBC f
  intro t
  simp_all [extract, extractRowB, Told]

theorem ReadBack.barw (f : FM) : ReadBack.Statement (.barw f) := by
  obtain ⟨h, k⟩ := unpackM_packM 0xBB f
  intro t
  simp_all [extract, extractRowB, Told]

theorem ReadBack.qld (f : FM) : ReadBack.Statement (.qld f) := by
  obtain ⟨h, k⟩ := unpackM_packM 0xC0 f
  intro t
  simp_all [extract, extractRowC, Told]

theorem ReadBack.qst (f : FM) : ReadBack.Statement (.qst f) := by
  obtain ⟨h, k⟩ := unpackM_packM 0xC1 f
  intro t
  simp_all [extract, extractRowC, Told]

theorem ReadBack.qset (f : FVI) : ReadBack.Statement (.qset f) := by
  obtain ⟨h, k⟩ := unpackVI_packVI 0xC2 f
  intro t
  simp_all [extract, extractRowC, Told]

theorem ReadBack.qget (f : FVI) : ReadBack.Statement (.qget f) := by
  obtain ⟨h, k⟩ := unpackVI_packVI 0xC3 f
  intro t
  simp_all [extract, extractRowC, Told]

theorem ReadBack.skwin (f : FVI) : ReadBack.Statement (.skwin f) := by
  obtain ⟨h, k⟩ := unpackVI_packVI 0xD0 f
  intro t
  simp_all [extract, extractRowD, Told]

theorem ReadBack.mma (f : FX) : ReadBack.Statement (.mma f) := by
  obtain ⟨h, k⟩ := unpackX_packX 0xC8 f
  intro t
  simp_all [extract, extractRowC, Told]

theorem ReadBack.mtile (f : FX) : ReadBack.Statement (.mtile f) := by
  obtain ⟨h, k⟩ := unpackX_packX 0xC9 f
  intro t
  simp_all [extract, extractRowC, Told]

theorem ReadBack.mrsv (f : FC) : ReadBack.Statement (.mrsv f) := by
  obtain ⟨h, k⟩ := unpackC_packC 0xCA f
  intro t
  simp_all [extract, extractRowC, Told]

theorem ReadBack.mrel (f : FC) : ReadBack.Statement (.mrel f) := by
  obtain ⟨h, k⟩ := unpackC_packC 0xCB f
  intro t
  simp_all [extract, extractRowC, Told]

theorem ReadBack.aclr (f : FV3) : ReadBack.Statement (.aclr f) := by
  obtain ⟨h, k⟩ := unpackV3_packV3 0xCC f
  intro t
  simp_all [extract, extractRowC, Told]

theorem ReadBack.amovToVector (f : FV3) : ReadBack.Statement (.amovToVector f) := by
  obtain ⟨h, k⟩ := unpackV3_packV3 0xCD f
  intro t
  simp_all [extract, extractRowC, Told]

theorem ReadBack.amovToTile (f : FV3) : ReadBack.Statement (.amovToTile f) := by
  obtain ⟨h, k⟩ := unpackV3_packV3 0xCD f
  intro t
  simp_all [extract, extractRowC, Told]

theorem ReadBack.amovTile (f : FV3) : ReadBack.Statement (.amovTile f) := by
  obtain ⟨h, k⟩ := unpackV3_packV3 0xCD f
  intro t
  simp_all [extract, extractRowC, Told]

theorem ReadBack.ald (f : FM) : ReadBack.Statement (.ald f) := by
  obtain ⟨h, k⟩ := unpackM_packM 0xCE f
  intro t
  simp_all [extract, extractRowC, Told]

theorem ReadBack.ast (f : FM) : ReadBack.Statement (.ast f) := by
  obtain ⟨h, k⟩ := unpackM_packM 0xCF f
  intro t
  simp_all [extract, extractRowC, Told]

theorem ReadBack.flagCompletion (x0) (x1) : ReadBack.Statement (.flagCompletion x0 x1) := rfl

theorem ReadBack.mtileStepRetire (x0) : ReadBack.Statement (.mtileStepRetire x0) := rfl

theorem ReadBack.waitSatisfied (x0) (x1) : ReadBack.Statement (.waitSatisfied x0 x1) := rfl

theorem ReadBack.joinComplete (x0) (x1) : ReadBack.Statement (.joinComplete x0 x1) := rfl

theorem ReadBack.splitPlacement (x0) : ReadBack.Statement (.splitPlacement x0) := rfl

theorem ReadBack.splitMerge (x0) (x1) : ReadBack.Statement (.splitMerge x0 x1) := rfl

theorem ReadBack.issueGrant : ReadBack.Statement (.issueGrant) := rfl

theorem ReadBack.promotion (x0) (x1) : ReadBack.Statement (.promotion x0 x1) := rfl

theorem ReadBack.refill (x0) : ReadBack.Statement (.refill x0) := rfl

theorem ReadBack.takeEntry (x0) : ReadBack.Statement (.takeEntry x0) := rfl

theorem ReadBack.admitEntry (x0) : ReadBack.Statement (.admitEntry x0) := rfl

theorem ReadBack.stagingComplete (x0) : ReadBack.Statement (.stagingComplete x0) := rfl

theorem ReadBack.stagingFault (x0) : ReadBack.Statement (.stagingFault x0) := rfl

theorem ReadBack.meridianPublish : ReadBack.Statement (.meridianPublish) := rfl

theorem ReadBack.stealRequestServed (x0) : ReadBack.Statement (.stealRequestServed x0) := rfl

theorem ReadBack.crossDieSteal (x0) : ReadBack.Statement (.crossDieSteal x0) := rfl

theorem ReadBack.stealReply (x0) : ReadBack.Statement (.stealReply x0) := rfl

theorem ReadBack.writebackRequest (x0) (x1) : ReadBack.Statement (.writebackRequest x0 x1) := rfl

theorem ReadBack.park (x0) : ReadBack.Statement (.park x0) := rfl

theorem ReadBack.resumeEntryCreate (x0) (x1) : ReadBack.Statement (.resumeEntryCreate x0 x1) := rfl

theorem ReadBack.resume (x0) : ReadBack.Statement (.resume x0) := rfl

theorem ReadBack.teamFutureCompletion (x0) : ReadBack.Statement (.teamFutureCompletion x0) := rfl

theorem ReadBack.barrierCredit (x0) : ReadBack.Statement (.barrierCredit x0) := rfl

theorem ReadBack.copyCompletion (x0) : ReadBack.Statement (.copyCompletion x0) := rfl

theorem ReadBack.queueSpawn (x0) : ReadBack.Statement (.queueSpawn x0) := rfl

theorem ReadBack.flushTimerExpiry (x0) : ReadBack.Statement (.flushTimerExpiry x0) := rfl

theorem ReadBack.queueTileEnd (x0) (x1) : ReadBack.Statement (.queueTileEnd x0 x1) := rfl

theorem ReadBack.watchdogStop (x0) : ReadBack.Statement (.watchdogStop x0) := rfl

theorem ReadBack.haltTimeout (x0) (x1) : ReadBack.Statement (.haltTimeout x0 x1) := rfl

theorem ReadBack.l1Eviction (x0) (x1) : ReadBack.Statement (.l1Eviction x0 x1) := rfl

theorem ReadBack.l2Eviction (x0) : ReadBack.Statement (.l2Eviction x0) := rfl

theorem ReadBack.hbmFill (x0) (x1) (x2) (x3) : ReadBack.Statement (.hbmFill x0 x1 x2 x3) := rfl

theorem ReadBack.controlArrayError (x0) : ReadBack.Statement (.controlArrayError x0) := rfl

theorem ReadBack.tlbMissWalk (x0) : ReadBack.Statement (.tlbMissWalk x0) := rfl

theorem ReadBack.walkComplete (x0) (x1) : ReadBack.Statement (.walkComplete x0 x1) := rfl

theorem ReadBack.walkBoundExceeded (x0) (x1) : ReadBack.Statement (.walkBoundExceeded x0 x1) := rfl

theorem ReadBack.pageRequestResponse (x0) (x1) : ReadBack.Statement (.pageRequestResponse x0 x1) := rfl

theorem ReadBack.portalDmwr (x0) (x1) (x2) (x3) : ReadBack.Statement (.portalDmwr x0 x1 x2 x3) := rfl

theorem ReadBack.portalPostedWrite (x0) : ReadBack.Statement (.portalPostedWrite x0) := rfl

theorem ReadBack.nopPacket (x0) : ReadBack.Statement (.nopPacket x0) := rfl

theorem ReadBack.launchRoot (x0) : ReadBack.Statement (.launchRoot x0) := rfl

theorem ReadBack.launchTile (x0) : ReadBack.Statement (.launchTile x0) := rfl

theorem ReadBack.copy (x0) : ReadBack.Statement (.copy x0) := rfl

theorem ReadBack.signal (x0) : ReadBack.Statement (.signal x0) := rfl

theorem ReadBack.wait (x0) : ReadBack.Statement (.wait x0) := rfl

theorem ReadBack.writeThenSignal (x0) : ReadBack.Statement (.writeThenSignal x0) := rfl

theorem ReadBack.fencePacket (x0) : ReadBack.Statement (.fencePacket x0) := rfl

theorem ReadBack.collective (x0) : ReadBack.Statement (.collective x0) := rfl

theorem ReadBack.queueInitEnable (x0) : ReadBack.Statement (.queueInitEnable x0) := rfl

theorem ReadBack.queueInitDisable (x0) : ReadBack.Statement (.queueInitDisable x0) := rfl

theorem ReadBack.timestamp (x0) : ReadBack.Statement (.timestamp x0) := rfl

theorem ReadBack.launchComplete (x0) (x1) : ReadBack.Statement (.launchComplete x0 x1) := rfl

theorem ReadBack.queueRecordWrite (x0) (x1) (x2) : ReadBack.Statement (.queueRecordWrite x0 x1 x2) := rfl

theorem ReadBack.registerWrite (x0) (x1) : ReadBack.Statement (.registerWrite x0 x1) := rfl

theorem ReadBack.sliceExpiry (x0) : ReadBack.Statement (.sliceExpiry x0) := rfl

theorem ReadBack.preemptPending (x0) : ReadBack.Statement (.preemptPending x0) := rfl

theorem ReadBack.preemptWithdraw (x0) : ReadBack.Statement (.preemptWithdraw x0) := rfl

theorem ReadBack.discardTeam (x0) : ReadBack.Statement (.discardTeam x0) := rfl

theorem ReadBack.quiescencePark (x0) : ReadBack.Statement (.quiescencePark x0) := rfl

theorem ReadBack.graceExpiry (x0) : ReadBack.Statement (.graceExpiry x0) := rfl

theorem ReadBack.switchOut (x0) : ReadBack.Statement (.switchOut x0) := rfl

theorem ReadBack.switchIn (x0) (x1) : ReadBack.Statement (.switchIn x0 x1) := rfl

theorem ReadBack.hostBar4Write (x0) (x1) (x2) (x3) : ReadBack.Statement (.hostBar4Write x0 x1 x2 x3) := rfl

theorem ReadBack.hostBar4Read (x0) (x1) (x2) : ReadBack.Statement (.hostBar4Read x0 x1 x2) := rfl

theorem ReadBack.hostCompletion (x0) (x1) (x2) : ReadBack.Statement (.hostCompletion x0 x1 x2) := rfl

theorem ReadBack.atsInvalidation (x0) (x1) : ReadBack.Statement (.atsInvalidation x0 x1) := rfl

theorem ReadBack.priResponse (x0) (x1) : ReadBack.Statement (.priResponse x0 x1) := rfl

theorem ReadBack.write (x0) : ReadBack.Statement (.write x0) := rfl

theorem ReadBack.read (x0) : ReadBack.Statement (.read x0) := rfl

theorem ReadBack.atomic (x0) : ReadBack.Statement (.atomic x0) := rfl

theorem ReadBack.qpushFrame (x0) : ReadBack.Statement (.qpushFrame x0) := rfl

theorem ReadBack.waitreg (x0) : ReadBack.Statement (.waitreg x0) := rfl

theorem ReadBack.qctl (x0) : ReadBack.Statement (.qctl x0) := rfl

theorem ReadBack.replReq (x0) : ReadBack.Statement (.replReq x0) := rfl

theorem ReadBack.ownReq (x0) : ReadBack.Statement (.ownReq x0) := rfl

theorem ReadBack.inval (x0) : ReadBack.Statement (.inval x0) := rfl

theorem ReadBack.fetch (x0) : ReadBack.Statement (.fetch x0) := rfl

theorem ReadBack.pageData (x0) : ReadBack.Statement (.pageData x0) := rfl

theorem ReadBack.grant (x0) : ReadBack.Statement (.grant x0) := rfl

theorem ReadBack.fpcEviction (x0) : ReadBack.Statement (.fpcEviction x0) := rfl

theorem ReadBack.ordWrite (x0) : ReadBack.Statement (.ordWrite x0) := rfl

theorem ReadBack.ordUpdate (x0) : ReadBack.Statement (.ordUpdate x0) := rfl

theorem ReadBack.looseUpdate (x0) : ReadBack.Statement (.looseUpdate x0) := rfl

theorem ReadBack.collParam (x0) : ReadBack.Statement (.collParam x0) := rfl

theorem ReadBack.collData (x0) : ReadBack.Statement (.collData x0) := rfl

theorem ReadBack.collectiveEndEarly (x0) (x1) : ReadBack.Statement (.collectiveEndEarly x0 x1) := rfl

theorem ReadBack.resp (x0) : ReadBack.Statement (.resp x0) := rfl

theorem ReadBack.ack (x0) : ReadBack.Statement (.ack x0) := rfl

theorem ReadBack.nack (x0) : ReadBack.Statement (.nack x0) := rfl

theorem ReadBack.frameDiscard (x0) : ReadBack.Statement (.frameDiscard x0) := rfl

theorem ReadBack.frameRetransmit (x0) : ReadBack.Statement (.frameRetransmit x0) := rfl

theorem ReadBack.flitReplay (x0) (x1) : ReadBack.Statement (.flitReplay x0 x1) := rfl

theorem ReadBack.linkRepair (x0) (x1) : ReadBack.Statement (.linkRepair x0 x1) := rfl

theorem ReadBack.almanacSample (x0) : ReadBack.Statement (.almanacSample x0) := rfl

theorem ReadBack.coreSpare (x0) (x1) : ReadBack.Statement (.coreSpare x0 x1) := rfl

theorem ReadBack.stepDown : ReadBack.Statement (.stepDown) := rfl

theorem ReadBack.channelSpare (x0) : ReadBack.Statement (.channelSpare x0) := rfl

theorem ReadBack.domainStop (x0) : ReadBack.Statement (.domainStop x0) := rfl

theorem ReadBack.deviceFail (x0) : ReadBack.Statement (.deviceFail x0) := rfl

theorem ReadBack.powerCap (x0) : ReadBack.Statement (.powerCap x0) := rfl

theorem ReadBack.thermalTrip (x0) : ReadBack.Statement (.thermalTrip x0) := rfl

theorem ReadBack.heartbeatMiss : ReadBack.Statement (.heartbeatMiss) := rfl

theorem ReadBack.liveUpdateLoad (x0) (x1) (x2) (x3) (x4) (x5) : ReadBack.Statement (.liveUpdateLoad x0 x1 x2 x3 x4 x5) := rfl

theorem ReadBack.liveUpdateFreeze : ReadBack.Statement (.liveUpdateFreeze) := rfl

theorem ReadBack.stateTableImport (x0) : ReadBack.Statement (.stateTableImport x0) := rfl

theorem ReadBack.takeover : ReadBack.Statement (.takeover) := rfl

theorem ReadBack.mailboxRequest (x0) : ReadBack.Statement (.mailboxRequest x0) := rfl

theorem ReadBack.getVersion : ReadBack.Statement (.getVersion) := rfl

theorem ReadBack.getCapabilities : ReadBack.Statement (.getCapabilities) := rfl

theorem ReadBack.negotiateAlgorithms (x0) (x1) : ReadBack.Statement (.negotiateAlgorithms x0 x1) := rfl

theorem ReadBack.getDigests : ReadBack.Statement (.getDigests) := rfl

theorem ReadBack.getCertificate (x0) (x1) (x2) : ReadBack.Statement (.getCertificate x0 x1 x2) := rfl

theorem ReadBack.challenge (x0) (x1) : ReadBack.Statement (.challenge x0 x1) := rfl

theorem ReadBack.getMeasurements (x0) (x1) : ReadBack.Statement (.getMeasurements x0 x1) := rfl

theorem ReadBack.coldReset : ReadBack.Statement (.coldReset) := rfl

theorem ReadBack.warmReset : ReadBack.Statement (.warmReset) := rfl

theorem ReadBack.atsTranslationCompletion (x0) (x1) : ReadBack.Statement (.atsTranslationCompletion x0 x1) := rfl

theorem ReadBack.softError (x0) (x1) : ReadBack.Statement (.softError x0 x1) := rfl

theorem ReadBack.moduleUnpowered : ReadBack.Statement (.moduleUnpowered) := rfl

theorem ReadBack.priorityFlowControl (x0) (x1) (x2) : ReadBack.Statement (.priorityFlowControl x0 x1 x2) := rfl

theorem ReadBack.configurationRequest (x0) (x1) : ReadBack.Statement (.configurationRequest x0 x1) := rfl

end Sys2Proof.Laws
end

