-- ==== Sys2Proof/Tests/Slice0.lean ====
section
/-! SUPPORT. Tests on fixed values: words of the spec and what they decode to, ill-formed words that the checks refuse, single steps, and for the hypotheses of every statement a state
that meets them. -/

namespace Sys2Proof.Tests

set_option maxRecDepth 1000000
-- one theorem at a time: evaluated side by side they take more memory together than a check allows
set_option Elab.async false

open Sys2Proof.Machine

/-! ### Small states -/

/-- Every lane, no guard. -/
def g0 : Guard := ⟨12, false⟩
def v3 (ty : Ty) : FV3 := ⟨g0, 2, 4, 6, 0, .vec, .vec, .vec, ty, .rne, false, 0⟩
def v3c (ty : Ty) : FV3 := { v3 ty with c := 8 }
def v1 (ty : Ty) : FV3 := { v3 ty with b := 0 }
def vi (ty : Ty) (imm : BitVec 16) : FVI := ⟨g0, 2, 4, .vec, ty, .rne, false, 0, 0, imm⟩
def fs (ty : Ty) : FS := ⟨g0, 1, 2, 3, 0, ty, false, false, 0, 0⟩
def fm (ty : Ty) : FM := ⟨g0, 2, 4, 0, false, false, ty, .rlx, .team, .none, false, 0, 0⟩
def fc (lo : BitVec 32) : FC := ⟨g0, 0, 0, 0, .vec, 0, lo⟩
def fx (ty : Ty) (ext : Word) : FX := ⟨g0, 2, 0, 0, ty, .rlx, .team, .none, 0, 0, 0, ext⟩

/-- A core whose TLB maps the first 4 TiB of virtual addresses to the same local addresses, the next to the host and the next to device 5, for contexts 0 and 1. -/
def core0 : Core := { Core.fresh with
  tlb := [0, 1].flatMap fun c => [⟨c, false, 1, 0, 0, true, true, false, 0⟩, ⟨c, false, 1, 1, 2 ^ 53, true, false, false, 0⟩,
    ⟨c, false, 1, 2, 2 ^ 54 + 5 * 2 ^ 40, true, false, false, 0⟩] }

/-- Context 1, resident on die 0: 16 frames from 16 MiB on, its overflow segments, carry pool, launch records and error records behind them. -/
def ctx1 : Ctx := { Ctx.blank 1 with
  record := (((((((Ctx.blank 1).record.set 0 0x8001000000000001).set 4 0x100A10001000).set 8 0x8000000).set 9 0x4000000).set 10 0x1000000).set 11 16).set 14 0x5000000
  resident := true
  dies := [0] }

/-- A device that runs, with one core in use and one context. -/
def up : State := { State.reset with
  fw := { State.reset.fw with state := .normal, standby := true }
  m := { Mach.empty with cores := [(0, core0)], dies := [(0, { Die.fresh with tlb := core0.tlb })], ctxs := [(1, ctx1)], nextId := 1, clk := 100 } }

/-- The state in which the next step issues i: a task of the largest allotment, alone in its team with 4 KiB of scratchpad, as f makes it; g makes the rest. -/
def readyWith (i : Instr) (f : Machine.Task → Machine.Task) (g : Mach → Mach) : State :=
  let s := up.placeInstr ((encode i).getD 0 0) ((encode i).getD 1 0)
  let m := s.m.modTeam 0 fun t => { t with spadLen := 4096 }
  { s with m := g (m.modTask 1 f) }

def ready (i : Instr) : State := readyWith i id id

/-- The instruction has a split that issues it with nothing in the way. -/
def issues (i : Instr) : Bool := ((ready i).issuer i).isSome

/-- Every instruction of a list has one. -/
def allIssue (l : List Instr) : Bool := l.all issues

/-- The same in context 1. -/
def inContext (i : Instr) (f : Machine.Task → Machine.Task) (g : Mach → Mach) : State :=
  readyWith i (fun t => f { t with ctx := 1, supervisor := false }) fun m => g (m.modTeam 0 fun t => { t with ctx := 1 })

/-! ### Splits that issue: the hypotheses of UniformResults, VectorResults, FloatResults, Conversions, ComparesAndPredicates and LaneExchange -/

theorem witness_uniform_arithmetic : allIssue [.sadd (fs .s32), .ssub (fs .s32), .smul (fs .s32), .smulh (fs .s32), .smad { fs .s32 with c := 5 }, .sand (fs .b64),
    .sor (fs .b64), .sxor (fs .b64), .snot { fs .b64 with b := 0 }] = true := by decide +kernel

theorem witness_uniform_shifts : allIssue [.smov { fs .b64 with a := 0 }, .sshl (fs .b64), .sshr (fs .b64), .ssar (fs .b64), .smin (fs .s64), .smax (fs .s64),
    .scmp (fs .s64), .ssel { fs .b64 with c := 5 }, .spopc { fs .b64 with b := 0 }, .sclz { fs .b64 with b := 0 }, .sbfe (fs .z32), .sbfi { fs .b32 with c := 5 },
    .sli { fx .b64 7 with a := 0 }] = true := by decide +kernel

theorem witness_vector_arithmetic : allIssue [.vmov (v1 .b32), .vadd (v3 .s32), .vsub (v3 .s32), .vmul (v3 .s32), .vmulh (v3 .s32), .vmad (v3c .s32),
    .vmadw (v3c .s32), .vaddc (v3c .z32), .vabs (v1 .s32), .vneg (v1 .s32), .vmin (v3 .s32), .vmax (v3 .s32), .vand (v3 .b32), .vor (v3 .b32), .vxor (v3 .b32),
    .vnot (v1 .b32), .vlea (v3 .s32)] = true := by decide +kernel

theorem witness_vector_shifts : allIssue [.vshl (v3 .b32), .vshr (v3 .b32), .vsar (v3 .b32), .vrot (v3 .b32), .vpopc (v1 .b32), .vclz (v1 .b32), .vbrev (v1 .b32),
    .vsel (v3c .b32), .vbfe (vi .z32 0x800), .vbfi (vi .b32 0x800), .vli { fx .b32 7 with d := 2 }] = true := by decide +kernel

theorem witness_float_arithmetic : allIssue [.fadd (v3 .f32), .fadd { v3 .f32 with rnd := .rs }, .fsub (v3 .f32), .fmul (v3 .f32), .ffma (v3c .f32), .fmin (v3 .f32),
    .fmax (v3 .f32), .fabs (v1 .f32), .fneg (v1 .f32), .fsqrt (v1 .f32), .frnd (v1 .f32)] = true := by decide +kernel

theorem witness_float_functions : allIssue [.frcp (v1 .f32), .frsq (v1 .f32), .fexp2 (v1 .f32), .flog2 (v1 .f32), .fsin (v1 .f32), .fcos (v1 .f32),
    .fclass (vi .f32 0x3FF), .fdot2 (v3c .f16x2)] = true := by decide +kernel

/-- A pair form of PACK, a form that is none, and the other conversions. -/
theorem witness_conversions : allIssue [.cvt { v3 .f32 with b := 7 }, .pack (v3 .f16x2), .pack { v3 .e4m3 with b := 0 }, .unpk (vi .e4m3 0),
    .qnt { v1 .e4m3 with d := 8 }] = true := by decide +kernel

theorem witness_predicates : allIssue [.vcmp { v3 .s32 with d := 1 }, .fcmp { v3 .f32 with d := 1 }, .pand { v3 .b8 with d := 1, a := 2, b := 3 },
    .por { v3 .b8 with d := 1, a := 2, b := 3 }, .pxor { v3 .b8 with d := 1, a := 2, b := 3 }, .pnot { v1 .b8 with d := 1, a := 2 }, .pmov { v1 .b8 with d := 1, a := 2 },
    .psets { vi .b8 0 with ka := .uni }, .psetsImm { vi .b8 1 with a := 0, sub := 1 }, .pgets { vi .b8 0 with a := 2 }] = true := by decide +kernel

theorem witness_lane_exchange : allIssue [.shfl { vi .b32 0x500 with sub := 1 }, .ballot { v1 .b8 with a := 2 }, .vote { v1 .b8 with d := 1, a := 2 }, .redx (v1 .s32),
    .scan (v1 .s32), .match (v1 .b32)] = true := by decide +kernel

/-- A split of state s that issues i and of which f holds. -/
def issuesWith (s : State) (i : Instr) (f : Issuer → Bool) : Bool :=
  match s.issuer i with
  | some p => f p
  | none => false

/-- BCAST of the lowest contributing lane has a source, and BCAST of the lowest lane of a false predicate has none. -/
theorem witness_bcast :
    (let i := Instr.bcast { vi .b32 0 with sub := 1 }
     issuesWith (ready i) i fun p => lowestLane p.k == some 0) = true ∧
    (let i := Instr.bcast { vi .b32 0 with sub := 2, px := 3 }
     issuesWith (ready i) i fun p => lowestLane (p.k &&& (p.t.readP 5 3).v) == none) = true := by decide +kernel

/-! ### Control, traps, signatures, special registers and poison -/

theorem witness_control : allIssue [.bra (fc 2), .call { fc 2 with reg := 3, kr := .uni }, .nop (fc 0), .exit (fc 0), .trap (fc 5), .tret (fc 0), .sigchk (fc 5),
    .sigrd { fs .b64 with a := 0, b := 0 }, .halt (fc 0), .ptest { v1 .b32 with d := 1 }, .pclr (v1 .b32), .psel (v3 .b32), .srd { vi .b64 7 with a := 0 },
    .srdVector { vi .b32 3 with a := 0, sub := 1 }] = true := by decide +kernel

/-- The same with the task in user mode. -/
def asUser (i : Instr) : State := readyWith i (fun t => { t with supervisor := false }) id

/-- PINJ in supervisor mode. -/
theorem witness_pinj : issuesWith (ready (.pinj (v1 .b32))) (.pinj (v1 .b32)) (fun p => p.t.supervisor) = true := by decide +kernel

/-- The uniform branches whose register is unpoisoned, with a target that is aligned, one that is not and one beyond 2^48. -/
theorem witness_uniform_branches :
    ([Instr.sbrz, .sbrnz].all fun c => let i := c { fc 2 with reg := 3, kr := .uni }; issuesWith (ready i) i fun p => !(p.t.uniOpnd 4 3 64).2) = true ∧
    ([(0 : Word), 64, 4, 0x1000000000000].all fun a => [Instr.brx, .ret].all fun c =>
      let i := c { fc 0 with reg := 3, kr := .uni }
      issuesWith (readyWith i (fun t => t.writeU 3 ⟨a, false, false⟩) id) i fun p => p.t.uniOpnd 4 3 64 == (a.toNat, false)) = true := by decide +kernel

/-- BRP with every lane, some lane and no lane taken; BRX of a vector with one group of lanes and with two. -/
theorem witness_dividing_branches :
    ([(0xFFFFFFFF : Mask), 1, 0].all fun v => let i := Instr.brp { fc 2 with pa := 1 }
      issuesWith (readyWith i (fun t => t.writeP 1 0xFFFFFFFF ⟨v, 0⟩) id) i fun p => p.t.readP 5 1 == ⟨v, 0⟩) = true ∧
    ([(0 : Mask), 0xFF].all fun k => let i := Instr.brxVector { fc 0 with reg := 4 }
      issuesWith (readyWith i (fun t => t.writeVec 4 64 k (List.replicate 32 (64, false))) id) i fun p =>
        lanesPoi (p.t.vecOpnd 4 4 64) == 0 && (lanesOf p.x.xact).all (fun l => (targetFault (laneAt (p.t.vecOpnd 4 4 64) l).1).isNone) &&
        (groupLanesBy (p.t.vecOpnd 4 4 64) (lanesOf p.x.xact)).length == (if k == 0 then 1 else 2)) = true := by decide +kernel

/-- JSET with xact and with an unpoisoned register, JWAIT and JDROP, at a join that is not occupied. -/
theorem witness_joins :
    ([Instr.jset { fc 2 with jn := 1, kr := .imm }, .jset { fc 2 with jn := 1, reg := 3, kr := .uni }, .jwait { fc 0 with jn := 1 }, .jdrop { fc 0 with jn := 1 }].all fun i =>
      issuesWith (ready i) i fun p => !(p.t.join 1).occ && !(p.t.uniOpnd 4 3 32).2) = true := by decide +kernel

/-- A split that is not held, in a task with a handler and in one without, with the watchdog at 0 and at its limit. -/
theorem witness_trap_delivery : ([(0 : Word), 64].all fun h => [0, 2 ^ 48].all fun w =>
    let m := (inContext (.nop (fc 0)) (fun t => { t with xhnd := h, wdog := w }) id).m
    match m.task 1 with
    | some t => t.xhnd == h && m.timesOut t == (w != 0) && (match t.split 0 with | some x => !x.held | none => false)
    | none => false) = true := by decide +kernel

/-- SWR of an unpoisoned register: the trap vector in user mode, the counter in user and in supervisor mode. -/
theorem witness_swr :
    (let i := Instr.swr { vi .b64 0x11 with d := 0, ka := .uni }; issuesWith (ready i) i fun p => !(p.t.uniOpnd 1 4 64).2) = true ∧
    (let i := Instr.swr { vi .b64 0x07 with d := 0, ka := .uni }
     issuesWith (asUser i) i (fun p => !(p.t.uniOpnd 1 4 64).2 && !p.t.supervisor) = true ∧
     issuesWith (ready i) i (fun p => !(p.t.uniOpnd 1 4 64).2 && p.t.supervisor) = true) := by decide +kernel

/-! ### Accesses: elements found, at places, and nothing in the way -/

/-- What a walk over the elements els finds. -/
def walked (m : Mach) (p : Issuer) (write : Bool) (els : List (Nat × Nat)) : XlAll × Mach :=
  m.xlateAll p.t.core p.t.ctx (if write then .store else .load) p.x.found els

/-- Where the elements that it found lie, before the answers that they have used go. -/
def spots (m : Mach) (p : Issuer) (write : Bool) (es : List Elt) : List (Elt × Spot) × Mach :=
  es.foldl (fun (acc : List (Elt × Spot) × Mach) e => (acc.1 ++ [(e, (acc.2.spot p.t.ctx e write).1)], (acc.2.spot p.t.ctx e write).2)) ([], m)

/-- The same, with the machine after. -/
def spotted (m : Mach) (p : Issuer) (write : Bool) (es : List Elt) : List (Elt × Spot) × Mach :=
  ((spots m p write es).1, (spots m p write es).2.usedAway es)

/-- The conditions of Found. -/
def foundOk (m : Mach) (p : Issuer) (write uni : Bool) (accepts : Accepts) (els : List (Nat × Nat)) : Bool :=
  let r := walked m p write els
  r.1.fails.isEmpty && r.1.miss.isNone && (refusedFails p.x.found r.1.oks).isEmpty && r.1.oks.all (fun e => (uni || p.k.getLsbD e.lane) && accepts (regionOf e.pa) e.attr &&
    !(write && regionOf e.pa == .loc && r.2.sealed e.pa))

theorem found_of {m : Mach} {p : Issuer} {write uni : Bool} {accepts : Accepts} {els : List (Nat × Nat)} (h : foundOk m p write uni accepts els = true) :
    Found m p (if write then .store else .load) uni accepts els (walked m p write els).1.oks (walked m p write els).2 := by
  simp only [foundOk, Bool.and_eq_true, List.isEmpty_iff, Option.isNone_iff_eq_none, List.all_eq_true] at h
  obtain ⟨⟨⟨f, n⟩, g⟩, k⟩ := h
  refine ⟨?_, fun e he => by simpa using (k e he).1.1, g, fun e he => ⟨(k e he).1.2, fun u l => ?_⟩⟩
  · exact Prod.ext (by rw [← f, ← n]; rfl) rfl
  · have := (k e he).2
    cases write <;> simp_all

/-- The conditions of Spotted. -/
def spottedOk (m : Mach) (p : Issuer) (write : Bool) (es : List Elt) : Bool :=
  let q := spotted m p write es
  !q.2.heldBack p.tid q.1 write && q.1.all fun x => match x.2 with
    | .wait => false
    | .host pa => (q.2.ats.find? fun a => a.1 == hostPage pa).isSome
    | _ => true

theorem spotted_of {m : Mach} {p : Issuer} {write : Bool} {es : List Elt} (h : spottedOk m p write es = true) :
    Spotted m p write es (spotted m p write es).1 (spotted m p write es).2 := by
  simp only [spottedOk, Bool.and_eq_true, Bool.not_eq_true'] at h
  refine ⟨(spots m p write es).2, rfl, rfl, h.1, fun x hx => ?_⟩
  have k := List.all_eq_true.1 h.2 x hx
  refine ⟨fun e => ?_, fun pa e => ?_⟩ <;> simp [e] at k
  simpa using k

/-- The conditions of Reached. -/
def reachedOk (m : Mach) (p : Issuer) (P : Plan) (accepts : Accepts) (els : List (Nat × Nat)) : Bool :=
  let r := walked m p P.write els
  let q := spotted r.2 p P.write r.1.oks
  foundOk m p P.write P.uni accepts els && spottedOk r.2 p P.write r.1.oks && decide (q.2.task p.tid = m.task p.tid) && q.2.clk == m.clk &&
    q.1.all fun x => (P.uni || p.k.getLsbD x.1.lane) && !P.poisoned x.1.lane

/-- Where the elements lie, and the machine, after both. -/
def reachedAt (m : Mach) (p : Issuer) (write : Bool) (els : List (Nat × Nat)) : List (Elt × Spot) × Mach :=
  spotted (walked m p write els).2 p write (walked m p write els).1.oks

theorem reached_of {m : Mach} {p : Issuer} {P : Plan} {accepts : Accepts} {els : List (Nat × Nat)} (h : reachedOk m p P accepts els = true) :
    Reached m p P accepts els (reachedAt m p P.write els).1 (reachedAt m p P.write els).2 := by
  simp only [reachedOk, Bool.and_eq_true, decide_eq_true_eq, beq_iff_eq] at h
  obtain ⟨⟨⟨⟨f, s⟩, t⟩, c⟩, k⟩ := h
  refine ⟨_, _, found_of f, spotted_of s, t, c, fun x hx => ?_⟩
  have g := List.all_eq_true.1 k x hx
  simp only [Bool.and_eq_true, Bool.or_eq_true, Bool.not_eq_true'] at g
  exact ⟨g.1, fun e => absurd e (by simp [g.2])⟩

/-- The conditions of Clear. -/
def clearOk (m : Mach) (p : Issuer) (ι : Iss) (P : Plan) (ss : List (Elt × Spot)) : Bool :=
  let remoteOnly := (locals ss).isEmpty && !(remotes ss).isEmpty && scopeNat P.scope ≤ 3
  (m.copiesAt p.tid (P.stored ss)).isEmpty && (m.keptOf ι).isEmpty &&
  (!releases P.ord P.scope || m.performed p.tid remoteOnly) &&
  (!(commitPoint ι.ins || (P.write && !(remotes ss).isEmpty)) || (releases P.ord P.scope && remoteOnly) || !m.countedLeft p.tid) &&
  (!acquires P.ord P.scope || ((remotes ss).isEmpty && (m.scopeFails p.t.core (locals ss)).isEmpty)) &&
  ((if acquires P.ord P.scope then m.acquireLines p.t.core P.scope (locals ss) else m).raceFails p.t.core P.write (P.atHome p ss) (locals ss)).isEmpty

theorem clear_of {m : Mach} {p : Issuer} {ι : Iss} {P : Plan} {ss : List (Elt × Spot)} (h : clearOk m p ι P ss = true) : Clear m p ι P ss := by
  simp only [clearOk, Bool.and_eq_true, Bool.or_eq_true, Bool.not_eq_true', List.isEmpty_iff] at h
  obtain ⟨⟨⟨⟨⟨b, c⟩, d⟩, g⟩, e⟩, f⟩ := h
  refine ⟨b, c, fun r => by simpa [r] using d, fun r k => ?_, fun r => by simpa [r] using e, f⟩
  rcases g with (g | g) | g
  · simp [g] at r
  · simp [g.1, g.2] at k
  · exact g

/-- The conditions of AccessCompletes at a state. -/
def accessOk (c : FM → Instr) (plan : Iss → FM → Plan) (accepts : FM → Accepts) (s : State) (x : FM) (kind : Spot → Bool) : Bool :=
  issuesWith s (c x) fun p =>
    let ι := p.iss s.m (c x)
    let P := plan ι x
    let els := ι.elements P.uni (p.t.addrLanes x)
    let q := reachedAt (s.entered p (c x)) p P.write els
    !flagFull p.t P.flag && (if P.uni || x.ak then !(laneAt (p.t.addrLanes x) 0).2 else lanesPoi (p.t.addrLanes x) &&& p.k == 0) &&
    els.all (fun a => a.2 % P.size == 0) && reachedOk (s.entered p (c x)) p P (accepts x) els && clearOk q.2 p ι P q.1 &&
    q.1.length == els.length && q.1.all fun y => kind y.2

theorem issuesWith_of {s : State} {i : Instr} {f : Issuer → Bool} (h : issuesWith s i f = true) : ∃ p, s.issuer i = some p ∧ f p = true := by
  simp only [issuesWith] at h
  split at h
  · exact ⟨_, ‹_›, h⟩
  · cases h

/-- They meet the hypotheses of the statement. -/
theorem access_of {c : FM → Instr} {plan : Iss → FM → Plan} {accepts : FM → Accepts} {s : State} {x : FM} {kind : Spot → Bool}
    (h : accessOk c plan accepts s x kind = true) :
    ∃ p ss m, s.issuer (c x) = some p ∧
      flagFull p.t (plan (p.iss s.m (c x)) x).flag = false ∧
      (if (plan (p.iss s.m (c x)) x).uni || x.ak then (laneAt (p.t.addrLanes x) 0).2 = false else lanesPoi (p.t.addrLanes x) &&& p.k = 0) ∧
      (∀ a ∈ (p.iss s.m (c x)).elements (plan (p.iss s.m (c x)) x).uni (p.t.addrLanes x), a.2 % (plan (p.iss s.m (c x)) x).size = 0) ∧
      Reached (s.entered p (c x)) p (plan (p.iss s.m (c x)) x) (accepts x)
        ((p.iss s.m (c x)).elements (plan (p.iss s.m (c x)) x).uni (p.t.addrLanes x)) ss m ∧
      Clear m p (p.iss s.m (c x)) (plan (p.iss s.m (c x)) x) ss := by
  obtain ⟨p, i, k⟩ := issuesWith_of h
  simp only [Bool.and_eq_true, Bool.not_eq_true', List.all_eq_true, beq_iff_eq] at k
  obtain ⟨⟨⟨⟨⟨⟨f, a⟩, al⟩, r⟩, cl⟩, -⟩, -⟩ := k
  exact ⟨p, _, _, i, f, by split <;> simp_all, al, reached_of r, clear_of cl⟩

/-- The state in which a split of two lanes of context 1 issues i with the addresses a and a + 4 in v5:v4, and a in s4. -/
def addressed (i : Instr) (a : Nat) : State := inContext i (fun t =>
    let t := (t.writeVec 4 64 3 ((List.range 32).map fun l => (a + 4 * l, false))).writeU 4 ⟨BitVec.ofNat 64 a, false, false⟩
    t.setSplit 0 ((t.split 0).map fun x => { x with xact := 3, pxact := 3 }))
  fun m => { m with ats := [(hostPage (2 ^ 53), 0)] }

/-- An access with a completion flag. -/
def fl (ty : Ty) : FM := { fm ty with fl := .setA }

/-- Places, by kind. -/
def isHere : Spot → Bool | .here _ => true | _ => false
def isAway : Spot → Bool | .away _ _ => true | _ => false
def isHost : Spot → Bool | .host _ => true | _ => false

/-- LD, ST, ATOM and RED of local memory, at the first and the last word of a line; LD of the host and of another device, and in uniform registers. -/
theorem witness_ld : ([(fl .b32, 0, isHere), (fl .b32, 0xFFFC, isHere), (fl .b32, 2 ^ 42, isHost), (fl .b32, 2 ^ 43, isAway),
    ({ fl .b64 with ak := true, dk := true }, 8, isHere)].all fun r =>
      accessOk .ld (fun ι x => loadPlan ι x (accessSize x.ty) (fun _ => wholeDest x) [wholeDest x] x.ord x.scope) (fun _ _ _ => true)
        (addressed (.ld r.1) r.2.1) r.1 r.2.2) = true := by decide +kernel
theorem witness_st : ([(fm .b32, 0, isHere), (fm .b32, 2 ^ 43, isAway)].all fun r =>
      accessOk .st (fun ι x => storePlan ι x (accessSize x.ty) x.ty (ι.t.datum x 0 x.d) x.ord x.scope) (fun _ _ _ => true)
        (addressed (.st r.1) r.2.1) r.1 r.2.2) = true := by decide +kernel
theorem witness_atom : accessOk .atom (fun ι x => atomPlan ι x false) acceptAtomic (addressed (.atom (fl .z32)) 0) (fl .z32) isHere = true := by decide +kernel
theorem witness_red : accessOk .red (fun ι x => atomPlan ι x true) acceptAtomic (addressed (.red (fm .z32)) 0) (fm .z32) isHere = true := by decide +kernel

/-- The conditions of BlockCompletes at a state. -/
def blockOk (c : FM → Instr) (plan : Iss → FM → Plan) (align parts : Nat) (s : State) (x : FM) : Bool :=
  issuesWith s (c x) fun p =>
    let ι := p.iss s.m (c x)
    let P := { plan ι x with uni := true }
    let a := p.t.uniOpnd 1 x.a.toNat 64
    let els := (List.range parts).map fun i => (i, wrapBits 64 ((a.1 + 32 * i : Nat) : Int))
    let q := reachedAt (s.entered p (c x)) p P.write els
    !flagFull p.t P.flag && !a.2 && a.1 % align == 0 && reachedOk (s.entered p (c x)) p P (fun _ attr => !P.write || attr != 2) els && clearOk q.2 p ι P q.1

theorem witness_qld : blockOk .qld (fun ι x => loadPlan ι x 32 (fun _ => .shape x.d.toNat) [.shape x.d.toNat] .rlx .team) 64 2
    (addressed (.qld { fl .b128 with ak := true, dk := true }) 64) { fl .b128 with ak := true, dk := true } = true := by decide +kernel
theorem witness_qst : blockOk .qst (fun ι x => storePlan ι x 32 .b128 (ι.t.readQ 0 x.d.toNat).part .rlx .team) 64 2
    (addressed (.qst { fm .b128 with ak := true, dk := true }) 64) { fm .b128 with ak := true, dk := true } = true := by decide +kernel
theorem witness_ald : blockOk .ald (fun ι x => loadPlan ι x 32 (fun _ => .tile x.d.toNat) [.tile x.d.toNat] .rlx .team) 128 128
    (addressed (.ald { fl .b32 with ak := true, dk := true, sub := 1 }) 128) { fl .b32 with ak := true, dk := true, sub := 1 } = true := by decide +kernel
theorem witness_ast : blockOk .ast (fun ι x => storePlan ι x 32 .b128 (ι.t.readA 0 x.d.toNat).part .rlx .team) 128 128
    (addressed (.ast { fm .b32 with ak := true, dk := true, sub := 1 }) 128) { fm .b32 with ak := true, dk := true, sub := 1 } = true := by decide +kernel

/-! ### The scratchpad, the near map, shapes and windows -/

/-- The places that a check of an offset answers. -/
def placesOf (s : State) (p : Issuer) (x : FM) (o : Nat) : Nat → Nat :=
  match spadCheck (s.m.team p.t.team) (if x.sk then some none else none) (accessSize x.ty) o with
  | .ok f => f
  | .error _ => id

/-- The conditions of SpadReached at a state. -/
def spadOk (c : FM → Instr) (s : State) (x : FM) (writes : Bool) : Bool :=
  issuesWith s (c x) fun p =>
    let ι := p.iss s.m (c x)
    let els := ι.elements x.dk (p.t.offLanes x)
    let size := accessSize x.ty
    !flagFull p.t (ι.flag x.fl) && (if x.dk || x.ak then !(laneAt (p.t.offLanes x) 0).2 else lanesPoi (p.t.offLanes x) &&& p.k == 0) &&
    els.all (fun el => match spadCheck (s.m.team p.t.team) (if x.sk then some none else none) size el.2 with | .ok _ => true | .error _ => false) &&
    ((s.entered p (c x)).copiesAt p.tid (if writes then els.flatMap fun el =>
      (List.range ((size + 3) / 4)).map fun j => (Place.spad p.t.core (placesOf s p x el.2 (4 * j)), min 4 size) else [])).isEmpty

/-- They meet the hypotheses of the statements. -/
theorem spad_of {c : FM → Instr} {s : State} {x : FM} {writes : Bool} (h : spadOk c s x writes = true) :
    ∃ p f, s.issuer (c x) = some p ∧ SpadReached s p (c x) x writes f := by
  obtain ⟨p, i, k⟩ := issuesWith_of h
  simp only [Bool.and_eq_true, Bool.not_eq_true', List.all_eq_true, List.isEmpty_iff] at k
  obtain ⟨⟨⟨f, a⟩, e⟩, n⟩ := k
  refine ⟨p, placesOf s p x, i, f, by split <;> simp_all, fun el hel => ?_, n⟩
  have := e el hel
  simp only [placesOf]
  split at this
  · simp [*]
  · cases this

/-- LDS, STS and ATOMS at offset 0, at the last words of the allocation, and with a uniform register. -/
theorem witness_lds : ([(fl .b32, 0), (fl .b32, 4088), ({ fl .b64 with ak := true, dk := true }, 8)].all fun r =>
    spadOk .lds (addressed (.lds r.1) r.2) r.1 false) = true := by decide +kernel
theorem witness_sts : ([(fm .b32, 0), (fm .b32, 4088)].all fun r => spadOk .sts (addressed (.sts r.1) r.2) r.1 true) = true := by decide +kernel
theorem witness_atoms : ([(fl .z32, 0), ({ fl .b32 with sub := 7, b := 8 }, 4088)].all fun r => spadOk .atoms (addressed (.atoms r.1) r.2) r.1 true) = true := by
  decide +kernel

/-- The conditions of SpadBlockReached at a state. -/
def spadBlockOk (c : FM → Instr) (s : State) (x : FM) (align parts : Nat) (writes : Bool) : Bool :=
  issuesWith s (c x) fun p =>
    let a := p.t.uniOpnd 1 x.a.toNat 32
    !flagFull p.t ((p.iss s.m (c x)).flag x.fl) && !a.2 && a.1 % align == 0 &&
    match blockPlaces (s.m.team p.t.team) x.sk a.1 parts with
    | .ok fs => ((s.entered p (c x)).copiesAt p.tid (if writes then fs.flatMap fun f => (List.range 8).map fun j => (Place.spad p.t.core (f (4 * j)), 4) else [])).isEmpty
    | .error _ => false

theorem witness_scratchpad_blocks :
    (let x := { fl .b128 with ak := true, dk := true, sub := 1 }; spadBlockOk .qld (addressed (.qld x) 4032) x 64 2 false) = true ∧
    (let x := { fl .b32 with ak := true, dk := true }; spadBlockOk .ald (addressed (.ald x) 0) x 128 128 false) = true ∧
    (let x := { fm .b128 with ak := true, dk := true, sub := 1 }; spadBlockOk .qst (addressed (.qst x) 4032) x 64 2 true) = true ∧
    (let x := { fm .b32 with ak := true, dk := true }; spadBlockOk .ast (addressed (.ast x) 0) x 128 128 true) = true := by decide +kernel

/-- LDN of the scratchpad and, with `.acq`, of an accumulator; STN, relaxed and with `.rel`. -/
def nearOk (c : FM → Instr) (s : State) (x : FM) (store : Bool) : Bool :=
  issuesWith s (c x) fun p =>
    let ι := p.iss s.m (c x)
    let addrs := p.t.addrLanes x
    let els := ι.elements x.dk addrs
    let m := s.entered p (c x)
    !flagFull p.t (ι.flag x.fl) && (if x.dk || x.ak then !(laneAt addrs 0).2 else lanesPoi addrs &&& p.k == 0) &&
    els.all (fun el => el.2 % accessSize x.ty == 0 && !m.nearFault p.t.core p.t.ctx store el.2 (accessSize x.ty)) &&
    (!store || (x.ord != .acq && !m.countedLeft p.tid)) && (store || (x.ord != .rel && els.all fun el => el.2 / 2 ^ 20 % 2 != 1 || x.ty == .b32)) &&
    (x.ord != .rel || m.performed p.tid false) &&
    (m.copiesAt p.tid (els.map fun el => (Place.spad (memberCore p.t.core (el.2 / 2 ^ 21 % 4)) (el.2 % 2 ^ 20), accessSize x.ty))).isEmpty

theorem witness_near :
    ([(fl .b32, 0), (fl .b32, 4088), ({ fl .b32 with ord := .acq, scope := .die }, 2 ^ 20)].all fun r => nearOk .ldn (addressed (.ldn r.1) r.2) r.1 false) = true ∧
    ([(fm .b32, 0), ({ fm .b32 with ord := .rel, scope := .die }, 4088)].all fun r => nearOk .stn (addressed (.stn r.1) r.2) r.1 true) = true := by decide +kernel

/-- A shape of four rows of 32 words in the scratchpad. -/
def window0 : QReg := ⟨[0, 0, 0x47, 0x3001F] ++ List.replicate 12 0, 0⟩

theorem witness_shapes :
    allIssue [.qset { vi .b32 3 with d := 1, ka := .uni }, .qget { vi .b32 3 with a := 1 }] = true ∧
    (let i := Instr.skwin { vi .b8 2 with d := 0, a := 1 }
     issuesWith (readyWith i (fun t => t.writeQ 1 0xFFFF window0) id) i fun p =>
       (p.t.readQ 1 1).poisoned.isNone && (p.t.readQ 1 1).badElement.isNone &&
       (match (ready i).m.team p.t.team with | some g => windowFits g 2 (p.t.readQ 1 1) | none => false)) = true ∧
    allIssue [.skwin { vi .b8 5 with d := 0, a := 1 }] = true := by decide +kernel

/-! ### Fences, waits, sealing and system instructions -/

/-- The element of an object at the address in a, and where it lies. -/
def objectElt (m : Mach) (p : Issuer) (a : Nat × Bool) (use : Use) : Elt × Mach :=
  match m.xlate p.t.core p.t.ctx a.1 use p.x.found with
  | (.ok pa attr secure, m') => (⟨0, a.1, pa, attr, secure⟩, m')
  | (_, m') => (⟨0, a.1, 0, 0, false⟩, m')

/-- Where it lies, and the machine after, less the answer that the place has used. -/
def objectPlace (m : Mach) (p : Issuer) (a : Nat × Bool) (use : Use) (write : Bool) : Spot × Mach :=
  let e := objectElt m p a use
  ((e.2.spot p.t.ctx e.1 write).1, (e.2.spot p.t.ctx e.1 write).2.usedAway [e.1])

/-- The conditions of ObjectSpot. -/
def objectOk (m : Mach) (p : Issuer) (a : Nat × Bool) (align : Nat) (use : Use) (accepts : Accepts) (write : Bool) (kind : Spot → Bool) : Bool :=
  let e := objectElt m p a use
  let q := objectPlace m p a use write
  !a.2 && a.1 % align == 0 && (match (m.xlate p.t.core p.t.ctx a.1 use p.x.found).1 with | .ok _ _ _ => true | _ => false) &&
  accepts (regionOf e.1.pa) e.1.attr && !(use == .store && regionOf e.1.pa == .loc && e.2.sealed e.1.pa) && kind q.1 &&
  (refusedFails p.x.found [e.1]).isEmpty && !q.2.heldBack p.tid [(e.1, q.1)] write && decide (q.2.task p.tid = m.task p.tid) && q.2.clk == m.clk

/-- They meet ObjectSpot, with the place and the machine that the lookups answer. -/
theorem object_of {m : Mach} {p : Issuer} {a : Nat × Bool} {align : Nat} {use : Use} {accepts : Accepts} {write : Bool} {kind : Spot → Bool}
    (h : objectOk m p a align use accepts write kind = true) :
    ObjectSpot m p a align use accepts write (objectElt m p a use).1 (objectPlace m p a use write).1 (objectPlace m p a use write).2 := by
  simp only [objectOk, Bool.and_eq_true, Bool.not_eq_true', beq_iff_eq, decide_eq_true_eq, List.isEmpty_iff] at h
  obtain ⟨⟨⟨⟨⟨⟨⟨⟨⟨u, al⟩, x⟩, ac⟩, se⟩, -⟩, rf⟩, hb⟩, t⟩, c⟩ := h
  cases r : m.xlate p.t.core p.t.ctx a.1 use p.x.found with
  | mk l m' =>
    cases l with
    | ok pa attr secure =>
      have e : objectElt m p a use = (⟨0, a.1, pa, attr, secure⟩, m') := by simp [objectElt, r]
      rw [e] at ac se rf hb ⊢
      refine ⟨u, al, rfl, rfl, m', r, ac, fun h l => ?_, rf, by simp [objectPlace, e], by simp [objectPlace, e], hb, t, c⟩
      simpa [h, l] using se
    | fault _ _ _ => simp [r] at x
    | miss => simp [r] at x

/-- A place in local memory as its address. -/
def hereAt : Spot → Nat | .here pa => pa | _ => 0

/-- PREF; FENCE.team with nothing open; FENCE with a release, with neither and with an acquire that finds what it has seen. -/
theorem witness_fences :
    allIssue [.pref { fm .b8 with d := 0 }] = true ∧
    (let i := Instr.fence { fm .b8 with d := 0, a := 0, ord := .sc }
     issuesWith (ready i) i fun p => ((ready i).entered p i).performed p.tid false && p.t.storesDone) = true ∧
    ([Ord'.rel, .acq, .sc].all fun o => let i := Instr.fence { fm .b8 with d := 0, a := 0, ord := o, scope := .die }
     issuesWith (ready i) i fun p => ((ready i).entered p i).performed p.tid false && p.t.storesDone &&
       match ((ready i).entered p i).acquireSeen p.t .die with | .ok _ => true | .error _ => false) = true := by decide +kernel

/-- The conditions of MWAIT on a local stamp of value v against s6 = b. -/
def mwaitOk (x : FM) (v b : Word) (goes : Bool) : Bool :=
  let i := Instr.mwait x
  let s := inContext i (fun t => (t.writeU 4 ⟨128, false, false⟩).writeU 6 ⟨b, false, false⟩) fun m => { m with mem := m.mem.setWord64 128 v }
  issuesWith s i fun p =>
    let m := s.entered p i
        let q := objectPlace m p (p.t.addrUni x) .load false
    let acq := x.ord == .acq && x.scope != .team
    let r := tabGet q.2.record (lineOf (hereAt q.1))
    let d := (objectRead q.2 p acq x.scope (hereAt q.1) 8).1
    !(p.t.uniOpnd 2 6 64).2 && objectOk m p (p.t.addrUni x) 8 .load acceptObject false isHere && (!acq || (refusedBy p.t.core r).isNone) &&
    ((if acq then q.2.acquireWriteback p.t.core x.scope r else q.2).race p.t.core (hereAt q.1) false true).isNone && d.2 == 0 &&
    goes == (if x.sub == 0 then decide (0 ≤ (BitVec.ofNat 64 d.1 - b).toInt) else BitVec.ofNat 64 d.1 != b)

/-- MWAIT for a stamp that has been reached, is reached exactly, has not been reached; that differs and that does not; with an acquire. -/
theorem witness_mwait :
    (let x := { fm .b64 with d := 0, b := 6, ak := true, dk := true }
     mwaitOk x 5 4 true && mwaitOk x 5 5 true && mwaitOk x 4 5 false && mwaitOk { x with sub := 1 } 4 5 true && mwaitOk { x with sub := 1 } 5 5 false &&
       mwaitOk { x with ord := .acq, scope := .die } 5 5 true) = true := by decide +kernel

/-- The conditions of SealRange for the range of a page of 64 KiB at 0 and of a line on each side of a page's end. -/
def sealOk (c : FM → Instr) (s : State) (x : FM) (more : Issuer → List (Nat × Nat) → Mach → Bool) : Bool :=
  issuesWith s (c x) fun p =>
    let a := p.t.uniOpnd 1 x.a.toNat 64
    let b := p.t.uniOpnd 2 x.b.toNat 64
    let r := walked (s.entered p (c x)) p false ((pageStarts a.1 b.1).map fun v => (0, v))
    !a.2 && !b.2 && a.1 % 128 == 0 && b.1 % 128 == 0 && 128 ≤ b.1 && b.1 ≤ 2 ^ 32 && r.1.fails.isEmpty && r.1.miss.isNone &&
    r.1.oks.all (fun e => regionOf e.pa == .loc && e.attr == 0) && more p (piecesOf a.1 b.1 (r.1.oks.map fun e => (e.va, e.pa))) r.2

/-- The state that issues i with a range in s4 and s6. -/
def ranged (i : Instr) (a n : Nat) (g : Mach → Mach) : State :=
  inContext i (fun t => (t.writeU 4 ⟨BitVec.ofNat 64 a, false, false⟩).writeU 6 ⟨BitVec.ofNat 64 n, false, false⟩) g

theorem witness_seal : ([(0, 65536), (65408, 256), (0, 128)].all fun r =>
    let x := { fm .b8 with d := 0, b := 6, ak := true, dk := true }
    sealOk .seal (ranged (.seal x) r.1 r.2 id) x fun p pieces m =>
      m.holder.all (fun h => h.2 == p.t.core || !inPieces pieces (32 * h.1) 32) && decide ((m.seals.filter fun r => r.2.ctx == p.t.ctx).length < 256) &&
      m.seals.all fun r => r.2.ctx != p.t.ctx || !piecesMeet r.2.pieces pieces) = true := by decide +kernel

/-- UNSEAL of a region that no copy reads, and of one that a copy reads. -/
theorem witness_unseal : ([0, 1].all fun readers =>
    let x := { fm .b8 with d := 0, b := 6, ak := true, dk := true }
    sealOk .unseal (ranged (.unseal x) 0 128 fun m => { m with seals := [(7, ⟨1, 0, 128, [(0, 128)], readers⟩)] }) x fun p _ m =>
      match m.seals.find? fun r => r.2.ctx == p.t.ctx && r.2.va.toNat == (p.t.uniOpnd 1 x.a.toNat 64).1 && r.2.len == (p.t.uniOpnd 2 x.b.toNat 64).1 with
      | some (_, r) => r.readers == readers
      | none => false) = true := by decide +kernel

/-- TLBI of an address and of a context; SVC with a frame that is long enough; ERET of a task parked by SVC. -/
theorem witness_system :
    ([0, 1].all fun sub => let i := Instr.tlbi { fm .b64 with d := 0, a := if sub == 0 then 4 else 0, b := 6, ak := true, dk := true, sub := sub, scope := .die }
      issuesWith (ready i) i fun p => !(p.t.uniOpnd 1 4 64).2 && !(p.t.uniOpnd 2 6 64).2) = true ∧
    (let i := Instr.svc (fc 5)
     let s := inContext i (fun t => { t with vblk := 0, ablk := 0 }) fun m => m.modCtx 1 fun c => { c with record := c.record.set 4 0x0000100A20041000 }
     issuesWith s i fun p => match s.m.ctx p.t.ctx with
       | some c => p.t.frameBytes (if (s.entered p i).onlyMember p.tid p.t then ((s.entered p i).team p.t.team).map (·.spadLen) else none) ≤ c.frameSize
       | none => false) = true ∧
    (let i := Instr.eret { fc 0 with reg := 3, kr := .uni }
     let k : Parked := ⟨9, 0x1000000, 4, 2, 0, none, false, false, false, 0, 0, false, none, [], [], false, none⟩
     let s := readyWith i (fun t => t.writeU 3 ⟨0x1000000, false, false⟩) fun m => m.modCtx 1 fun c => { c with parked := [k] }
     issuesWith s i fun p => p.t.supervisor && p.t.uniOpnd 4 3 64 == (0x1000000, false) &&
       ((s.entered p i).ctxs.findSome? fun c => (c.2.parked.find? fun q => q.frame == 0x1000000 && q.kind == 2 && !q.ready).map fun q => (c.1, q)) == some (1, k)) =
         true := by decide +kernel

/-! ### Futures, signals, spawns and tasks -/

/-- The conditions that JOINF and SGWAIT share: an object of n bytes at s4 that nothing stands against. -/
def objectWaitOk (c : FM → Instr) (s : State) (x : FM) (n : Nat) (more : Issuer → Datum → Bool) : Bool :=
  issuesWith s (c x) fun p =>
    let m := s.entered p (c x)
    let q := objectPlace m p (p.t.addrUni x) .load false
    let acq := x.scope != .team
    let r := tabGet q.2.record (lineOf (hereAt q.1))
    objectOk m p (p.t.addrUni x) n .load acceptObject false isHere && (!acq || (refusedBy p.t.core r).isNone) &&
    ((if acq then q.2.acquireWriteback p.t.core x.scope r else q.2).race p.t.core (hereAt q.1) false true).isNone &&
    more p (objectRead q.2 p acq x.scope (hereAt q.1) n).1

/-- The state that issues i with an object at 128, its first words given, and its address in s4. -/
def withObject (i : Instr) (ws : List Word) (d : Word) : State :=
  inContext i (fun t => (t.writeU 4 ⟨128, false, false⟩).writeU 2 ⟨d, false, false⟩) fun m =>
    { m with mem := ws.zipIdx.foldl (fun (mem : Memory) (w, i) => mem.setWord64 (128 + 8 * i) w) m.mem }

/-- JOINF of a future that is ready and of one that is not, at each scope; SGWAIT of a signal whose condition holds and does not, for each condition. -/
theorem witness_joinf : ([(0, true), (1, false)].all fun r => [Scope.core, .sys].all fun sc =>
    let x := { fm .b64 with b := 0, ak := true, dk := true, scope := sc }
    objectWaitOk .joinf (withObject (.joinf x) [BitVec.ofNat 64 r.1, 5, 0] 0) x 32 fun _ d => r.2 == decide ((BitVec.ofNat 64 d.1).toInt ≤ 0)) = true := by decide +kernel
theorem witness_sgwait : ([(0, 4, true), (0, 6, false), (1, 5, true), (1, 4, false), (2, 4, true), (2, 5, false)].all fun r =>
    let x := { fm .s64 with b := 0, ak := true, dk := true, sub := r.1, scope := .dev }
    objectWaitOk .sgwait (withObject (.sgwait x) [BitVec.ofNat 64 r.2.1] 5) x 8 fun p d => d.2 == 0 && (p.t.datumU 0 2 8).2 == 0 &&
      r.2.2 == decide (if r.1 == 0 then (BitVec.ofNat 64 d.1).toInt ≤ 5 else if r.1 == 1 then (BitVec.ofNat 64 d.1).toInt = 5 else (BitVec.ofNat 64 d.1).toInt ≠ 5)) =
      true := by decide +kernel

/-- FPROBE of COUNT and of COUNT and STATUS. -/
theorem witness_fprobe : ([0, 1].all fun sub =>
    let x := { fl .b64 with b := if sub == 0 then 0 else 6, ak := true, dk := true, sub := sub }
    let i := Instr.fprobe x
    let s := withObject i [0, 5, 0] 0
    issuesWith s i fun p =>
      let P := { fprobePlan (p.iss s.m i) x with uni := true }
      let a := p.t.addrUni x
      let els := (0, a.1) :: if x.sub.getLsbD 0 then [(1, a.1 + 16)] else []
      let q := reachedAt (s.entered p i) p P.write els
      !flagFull p.t P.flag && !a.2 && a.1 % 32 == 0 && reachedOk (s.entered p i) p P acceptObject els && clearOk q.2 p (p.iss s.m i) P q.1) = true := by decide +kernel

/-- The conditions of UpdateCompletes at a state. -/
def updateOk (c : FM → Instr) (plan : Issuer → FM → Plan) (ok : Issuer → FM → Bool) (s : State) (x : FM) : Bool :=
  issuesWith s (c x) fun p =>
    let P := plan p x
    let a := p.t.addrUni x
    let q := reachedAt (s.entered p (c x)) p P.write [(0, a.1)]
    ok p x && !a.2 && a.1 % P.size == 0 && reachedOk (s.entered p (c x)) p P acceptUpdate [(0, a.1)] && clearOk q.2 p (p.iss s.m (c x)) P q.1

theorem witness_updates :
    (let x := { fm .b64 with ak := true, dk := true, scope := .dev }
     updateOk .fset (fun p x => updatePlan x 32 ((p.t.datumU 0 x.d.toNat 8).2 != 0) (fun pa mem => mem.updateFuture pa (.set (p.t.datumU 0 x.d.toNat 8)))
       (fun d a w sc => futureFrame d a w sc (.set (p.t.datumU 0 x.d.toNat 8)))) (fun _ _ => true) (withObject (.fset x) [1] 0) x) = true ∧
    (let x := { fm .b64 with ak := true, dk := true, scope := .dev }
     updateOk .ffail (fun p x => updatePlan x 32 false (fun pa mem => mem.updateFuture pa (.fail (BitVec.ofNat 64 (p.t.datumU 0 x.d.toNat 8).1)))
       (fun d a w sc => futureFrame d a w sc (.fail (BitVec.ofNat 64 (p.t.datumU 0 x.d.toNat 8).1)))) (fun p x => (p.t.datumU 0 x.d.toNat 8).2 == 0)
       (withObject (.ffail x) [1] 0) x) = true ∧
    (let x := { fm .s64 with ak := true, dk := true, scope := .dev }
     updateOk .sgadd (fun p x => updatePlan x 8 ((p.t.datumU 0 x.d.toNat 8).2 != 0) (addSignal (p.t.datumU 0 x.d.toNat 8)) (signalFrame (p.t.datumU 0 x.d.toNat 8)))
       (fun _ _ => true) (withObject (.sgadd x) [1] 0) x) = true := by decide +kernel

/-- The image's entry, future and poison pass the checks of R188, and its deque or inbox has room. -/
def spawnOk (m : Mach) (p : Issuer) (img : Image) : Bool :=
  img.2.extractLsb' 0 12 == 0 && (img.1.getD 0 0).toNat % 64 == 0 && (img.1.getD 1 0).toNat % 32 == 0 &&
  match m.ctx p.t.ctx with
  | some c => m.spawnRoom p.t.core p.t.ctx (c.spawnDie p.t.core (closureOf img 0 0 0))
  | none => false

/-- The future that a counting SPAWN adds to is in local memory, with nothing against it. -/
def countOk (m : Mach) (p : Issuer) (f : Nat) : Bool :=
  let q := objectPlace m p (f, false) .store true
  objectOk m p (f, false) 8 .store acceptUpdate true isHere && (q.2.race p.t.core (hereAt q.1) true true).isNone && q.2.performed p.tid false

/-- SPAWN of an image in s16 to s31, without a count, with a count and no future, and with a count and a future. -/
theorem witness_spawn_header : ([(false, 0), (true, 0), (true, 256)].all fun r =>
    let x : FX := ⟨g0, 0, 16, 0, .b8, .rlx, .team, .none, 0, 1, if r.1 then 1 else 0, 0x0006000000402000⟩
    let i := Instr.spawnHeader x
    let s := inContext i (fun t => t.writeU 16 ⟨BitVec.ofNat 64 r.2, false, false⟩) id
    issuesWith s i fun p =>
      let m := s.entered p i
      let img := registerImage p.t 16 x.ext
      (countAsked (m.keptOf (p.iss s.m i))).isNone && spawnOk m p img && (img.1.getD 1 0).toNat == r.2 && m.performed p.tid false && (r.2 == 0 || countOk m p r.2)) =
      true := by decide +kernel

/-- SPAWN of an image at 4096. -/
theorem witness_spawn : ([(false, 0), (true, 256)].all fun r =>
    let x : FX := ⟨g0, 0, 16, 0, .b8, .rlx, .team, .none, 0, 0, if r.1 then 1 else 0, 0⟩
    let i := Instr.spawn x
    let s := inContext i (fun t => t.writeU 16 ⟨0x1000, false, false⟩) fun m =>
      { m with mem := (m.mem.setWord64 0x1000 0x0006000000402000).setWord64 0x1008 (BitVec.ofNat 64 r.2) }
    issuesWith s i fun p =>
      let m := s.entered p i
      let a := p.t.uniOpnd 1 16 64
      let q := objectPlace m p a .load false
      let read := q.2.readSpan p.t.core (hereAt q.1) 128 false
      let img := imageOf read.1
      (countAsked (m.keptOf (p.iss s.m i))).isNone && objectOk m p a 128 .load acceptAll false isHere &&
      (q.2.spanRace p.t.core (hereAt q.1) 128 false false).isNone && spawnOk read.2 p img && (img.1.getD 1 0).toNat == r.2 && read.2.performed p.tid false &&
      (r.2 == 0 || countOk read.2 p r.2)) = true := by decide +kernel

theorem witness_tasks : allIssue [.tend { fc 0 with kr := .imm }, .tendValue { fc 0 with reg := 3, kr := .uni }, .yield (fc 0), .tfetch { fs .b64 with a := 0, b := 0 },
    .tdone { fs .b8 with d := 0, a := 0, b := 0 }] = true := by decide +kernel

/-- ROLE to a clause whose record asks for less, by a task with one split and nothing outstanding. -/
theorem witness_role :
    (let x : FX := ⟨g0, 0, 0, 0, .b8, .rlx, .team, .none, 0, 0, 0, 0x2000⟩
     let i := Instr.role x
     let s := inContext i id fun m => { m with mem := m.mem.setWord64 0x1FC8 0x0101 }
     issuesWith s i fun p =>
       let e := objectElt (s.entered p i) p (wrapBits 64 ((x.ext.toNat : Int) - 64), false) .exec
       (p.t.splits.filter Option.isSome).length == 1 && p.t.stack.isEmpty && (List.range 8).all (fun j => (p.t.join j).arrivals.isEmpty) && p.t.flagsZero &&
       decide (e.2.task p.tid = (s.entered p i).task p.tid) && e.2.clk == s.m.clk && (refusedFails p.x.found [e.1]).isEmpty &&
       (match e.2.entryRecord e.1.pa with
        | some (a, _) => fits (e.2.holdings p.t.core (some p.tid)) p.t.part a
        | none => false)) = true := by decide +kernel

/-! ### Spawn queues and barrier words -/

/-- A queue descriptor at an address: ring at base, records of 16 bytes, capacity cap, enabled. -/
def queueAt (m : Mach) (a base cap : Nat) : Mach :=
  { m with mem := ((m.mem.setWord64 a (BitVec.ofNat 64 base)).setWord64 (a + 8) (BitVec.ofNat 64 (cap - 1))).setWord64 (a + 56) 0x8000000000000000 }

/-- Two lanes that name the queue at address q, with a queue of capacity cap at 4096. -/
def pushing (i : Instr) (q cap : Nat) : State := inContext i (fun t =>
    let t := (t.writeVec 4 64 3 (List.replicate 32 (q, false))).writeU 4 ⟨BitVec.ofNat 64 q, false, false⟩
    t.setSplit 0 ((t.split 0).map fun x => { x with xact := 3, pxact := 3 }))
  fun m => queueAt m 4096 8192 cap

/-- QPUSH of v8 to v11 with the accepted lanes to p2, without a fallback. -/
def push : FM := { fl .b32 with d := 8, b := 2, scope := .dev, sub := 1 }

/-- A push of two lanes to a local queue with room for both, and with room for one. -/
theorem witness_qpush : ([2, 1].all fun cap =>
    let i := Instr.qpush push
    let s := pushing i 4096 cap
    issuesWith s i fun p =>
      let ι := p.iss s.m i
      let addrs := p.t.addrLanes push
      let els := ι.elements false addrs
      let r0 := walked (s.entered p i) p true els
      let q1 := spotted r0.2 p true r0.1.oks
      let gs := qGroups q1.1
      let m1 := (locals q1.1).foldl (fun m y => descFlushed m p y.2) q1.2
      let r2 := walked m1 p true (qpushRings m1 gs)
      let pl := qpushPlacing push p.t r2.2 gs
      let places := qpushPlaces p.t r2.2 r2.1.oks pl
      let q3 := spotted r2.2 p true places
      !flagFull p.t (ι.flag push.fl) && lanesPoi addrs &&& p.k == 0 && els.all (fun a => a.2 % 64 == 0) &&
      foundOk (s.entered p i) p true false acceptUpdate els && spottedOk r0.2 p true r0.1.oks && q1.1.all (fun y => isHere y.2) && (q1.2.keptOf ι).isEmpty &&
      (q1.2.raceFails p.t.core true true ((locals q1.1).flatMap fun y => [(y.1, y.2), (y.1, y.2 + 32)])).isEmpty &&
      gs.all (fun g => (descPoison m1 [] true g).isNone && (descFails (descWord m1 [] g 1).1 (descWord m1 [] g 7).1).isNone) &&
      foundOk m1 p true false acceptUpdate (qpushRings m1 gs) && spottedOk r2.2 p true places && (q3.2.raceFails p.t.core true true (qpushSectors pl q3.1)).isEmpty &&
      q3.2.performed p.tid false && pl.placed.length == cap && pl.refused.length == 2 - cap) = true := by decide +kernel

/-- A push to a queue of device 5. -/
theorem witness_qpush_away :
    (let i := Instr.qpush push
     let s := pushing i (2 ^ 43) 2
     issuesWith s i fun p =>
       let els := (p.iss s.m i).elements false (p.t.addrLanes push)
       let r0 := walked (s.entered p i) p true els
       let q1 := spotted r0.2 p true r0.1.oks
       !flagFull p.t ((p.iss s.m i).flag push.fl) && lanesPoi (p.t.addrLanes push) &&& p.k == 0 && els.all (fun a => a.2 % 64 == 0) &&
       foundOk (s.entered p i) p true false acceptUpdate els && spottedOk r0.2 p true r0.1.oks && ((qGroups q1.1).filter fun g => g.dev.isSome).length == 1 &&
       (q1.2.keptOf (p.iss s.m i)).isEmpty) = true := by decide +kernel

/-- The conditions of DescriptorAt, or of a queue on another device. -/
def descriptorOk (c : FM → Instr) (x : FM) (a : Nat) (words : List Nat) (kind : Spot → Bool) : Bool :=
  let s := pushing (c x) a 2
  issuesWith s (c x) fun p =>
    let m := s.entered p (c x)
    let q := objectPlace m p (p.t.addrUni x) .load false
    let pa := hereAt q.1
    let w := fun k => (descFlushed q.2 p pa).mem.word64 (pa + 8 * k)
    !flagFull p.t ((p.iss s.m (c x)).flag x.fl) && objectOk m p (p.t.addrUni x) 64 .load acceptObject false kind &&
    (if isAway q.1 then !q.2.countedLeft p.tid else !(descFlushed q.2 p pa).countedLeft p.tid) && (isAway q.1 || ((q.2.spanRace p.t.core pa 64 false true).isNone && words.all (fun i => !(w i).2) && (descFails (w 1).1 (w 7).1).isNone))

theorem witness_qflush_qstat :
    (let x := { fm .b64 with d := 0, ak := true, dk := true }
     descriptorOk .qflush x 4096 [1, 7] isHere && descriptorOk .qflush x (2 ^ 43) [] isAway) = true ∧
    ([0, 1, 2, 3, 4].all fun sub => let x := { fl .b64 with ak := true, dk := true, sub := sub }
     descriptorOk .qstat x 4096 [1, 4, 5, 7] isHere && descriptorOk .qstat x (2 ^ 43) [] isAway) = true := by decide +kernel

/-- A task whose team has a barrier word at offset 8 and, in s4, that offset; in s2 a value. -/
def atBarrier (i : Instr) (v : Word) : State :=
  readyWith i (fun t => (t.writeU 4 ⟨8, false, false⟩).writeU 2 ⟨v, false, false⟩) fun m =>
    m.modTeam 0 fun g => { g with barriers := [⟨8, 0, 1, none, none, none⟩] }

/-- BARI of a new word and of one that is registered. -/
theorem witness_bari :
    (let i := Instr.bari { fm .b64 with ak := true, dk := true }
     [readyWith i (fun t => (t.writeU 4 ⟨8, false, false⟩).writeU 2 ⟨0x10010, false, false⟩) id, atBarrier i 1].all fun s => issuesWith s i fun p =>
       let o := p.t.offUni { fm .b64 with ak := true, dk := true }
       let v := p.t.uniOpnd 0 2 64
       !o.2 && !v.2 && o.1 % 8 == 0 && v.1 % 32 ≤ 16 && v.1 / 2 ^ 5 % 2 ^ 11 == 0 && v.1 / 2 ^ 32 == 0 &&
       match s.m.team p.t.team with
       | some g => o.1 + 8 ≤ g.spadLen && g.barriers.length < 32
       | none => false) = true := by decide +kernel

/-- BARA, BARX, BARP and BARW at a registered word; BARP with the largest number of bytes. -/
theorem witness_barriers :
    ([(Instr.bara { fm .b64 with d := 0, ak := true, dk := true }, 0), (.barx { fm .b64 with ak := true, dk := true }, 2 ^ 39 - 1),
      (.barp { fm .b64 with ak := true, dk := true }, 2 ^ 39 - 1), (.barw { fm .b64 with d := 0, ak := true, dk := true, sub := 1 }, 0)].all fun (r : Instr × Nat) =>
      let s := atBarrier r.1 (BitVec.ofNat 64 r.2)
      issuesWith s r.1 fun p =>
        let o := p.t.offUni { fm .b64 with ak := true, dk := true }
        let v := p.t.uniOpnd 0 2 64
        !o.2 && o.1 % 8 == 0 && !v.2 && v.1 < 2 ^ 39 &&
        match s.m.team p.t.team with
        | some g => o.1 + 8 ≤ g.spadLen && (g.barrier o.1).any (fun r => r.offset == o.1) && !(s.m.barWord g o.1).2 &&
            (BarWord.of (s.m.barWord g o.1).1).bytes + (BitVec.ofNat 64 v.1).toInt < (2 : Int) ^ 39
        | none => false) = true := by decide +kernel

/-! ### Copies and the matrix unit -/

/-- What walking over the addresses of several uses finds. -/
def walkedAll (m : Mach) (p : Issuer) (ts : List Target) : List XlAll × Mach :=
  ts.foldl (fun (acc : List XlAll × Mach) t =>
    (acc.1 ++ [(acc.2.xlateAll p.t.core p.t.ctx t.use p.x.found t.els).1], (acc.2.xlateAll p.t.core p.t.ctx t.use p.x.found t.els).2)) ([], m)

/-- The conditions of FoundAll. -/
def foundAllOk (m : Mach) (p : Issuer) (uni : Bool) (ts : List Target) : Bool :=
  let r := walkedAll m p ts
  r.1.all (fun w => w.fails.isEmpty && w.miss.isNone && (refusedFails p.x.found w.oks).isEmpty) && (ts.zip r.1).all fun y => y.2.oks.all fun e => (uni || y.1.uni || p.k.getLsbD e.lane) &&
    y.1.accepts (regionOf e.pa) e.attr && !(y.1.use == .store && regionOf e.pa == .loc && r.2.sealed e.pa)

/-- The conditions of CopyOpen. -/
def copyOpenOk (m : Mach) (p : Issuer) (flag : Option Nat) (scope : Scope) (c : CopyPlan) : Bool :=
  let fails := m.pieceFail p.t.core
  (m.copiesAt p.tid (c.targets ++ c.sources)).isEmpty && c.moves.all (fun v => (fails false v.src v.len).isNone && v.dsts.all fun d => (fails true d v.len).isNone) &&
  c.completion.place.all (fun y => (fails true y.1 y.2).isNone) && !c.overlaps && !flagFull p.t flag &&
  (!c.release || m.performed p.tid (c.remoteOnly && scopeNat scope ≤ 3)) && (!c.counted || !m.countedLeft p.tid) && m.seals.all fun r => !(m.copyReaders c).contains r.1 || r.2.readers < 2 ^ 20 - 1

/-- The elements at place n of a walk. -/
def oksAt (r : List XlAll × Mach) (n : Nat) : List Elt := ((r.1[n]?).map (·.oks)).getD []

/-- The state that issues a CPY of n bytes from a to d. -/
def copying (i : Instr) (d a n : Nat) : State := inContext i (fun t =>
  ((t.writeU 2 ⟨BitVec.ofNat 64 d, false, false⟩).writeU 4 ⟨BitVec.ofNat 64 a, false, false⟩).writeU 6 ⟨BitVec.ofNat 64 n, false, false⟩) id

/-- A CPY in a direction, with a completion. -/
def cpy (sub : BitVec 3) (ext : Word) : FX := ⟨g0, 2, 4, 6, .b32, .rlx, .core, .setA, 0, sub, 0, ext⟩

/-- CPY into the scratchpad, out of it with a stamp, within memory and within the scratchpad; of nothing and up to the end of the allocation. -/
theorem witness_cpy : ([(0, 0, 4096, 64, 0), (0, 4032, 4096, 64, 0), (1, 4096, 0, 64, 0x8000000000000005), (2, 4096, 8192, 0, 0), (3, 0, 64, 64, 0)].all
      fun (r : BitVec 3 × Nat × Nat × Nat × Word) =>
    let x := cpy r.1 r.2.2.2.2
    let i := Instr.cpy x
    let s := copying i r.2.1 r.2.2.1 r.2.2.2.1
    issuesWith s i fun p =>
      let ι := p.iss s.m i
      let w := walkedAll (s.entered p i) p (cpyTargets x p.t)
      let a := spotted w.2 p false (oksAt w 0)
      let b := spotted a.2 p true (oksAt w 1)
      !(cpyD x p.t).2 && !(cpyA x p.t).2 && !(cpyB x p.t).2 && (cpyB x p.t).1 ≤ 2 ^ 31 && (cpyAligns x p.t).isEmpty && (cpyBounds x p.t (s.entered p i)).isEmpty &&
      foundAllOk (s.entered p i) p true (cpyTargets x p.t) && spottedOk w.2 p false (oksAt w 0) && spottedOk a.2 p true (oksAt w 1) &&
      (cpyWords x p.t b.2).all Option.isSome && copyOpenOk b.2 p (ι.flag x.fl) x.scope (cpyPlan x p.t b.2 a.1 b.1)) = true := by decide +kernel

/-- CPYL into the scratchpad, towards a barrier word, and out of it, towards a signal; two lanes. -/
theorem witness_cpyl : ([0, 1].all fun (sub : BitVec 3) =>
    let x : FM := { fl .b32 with b := 6, sub := sub, scope := .core }
    let i := Instr.cpyl x
    let s := inContext i (fun t =>
        let t := (t.writeVec 4 64 3 ((List.range 32).map fun l => (4096 + 4 * l, false))).writeVec 2 32 3 ((List.range 32).map fun l => (4 * l, false))
        let t := t.writeU 6 ⟨8, false, false⟩
        t.setSplit 0 ((t.split 0).map fun x => { x with xact := 3, pxact := 3 }))
      fun m => m.modTeam 0 fun g => { g with barriers := [⟨8, 0, 1, none, none, none⟩] }
    issuesWith s i fun p =>
      let ι := p.iss s.m i
      let w := walkedAll (s.entered p i) p [cpylTarget x p.t p.k, cpylSignal x p.t p.x.xact]
      let a := spotted w.2 p (x.sub != 0) (oksAt w 0)
      let b := spotted a.2 p true ((oksAt w 1).take 1)
      (lanesPoi (p.t.addrLanes x) ||| lanesPoi (cpylOffsets x p.t)) &&& p.k == 0 && !(cpylB x p.t).2 && (cpylAligns x p.t p.k).isEmpty &&
      (x.sub == 0 || (cpylB x p.t).1 % 8 == 0) && (cpylBounds x p.t p.k (s.entered p i)).isEmpty && foundAllOk (s.entered p i) p false [cpylTarget x p.t p.k, cpylSignal x p.t p.x.xact] &&
      spottedOk w.2 p (x.sub != 0) (oksAt w 0) && spottedOk a.2 p true ((oksAt w 1).take 1) &&
      (cpylWords x p.t b.2).all Option.isSome && copyOpenOk b.2 p (ι.flag x.fl) x.scope (cpylPlan x p.t b.2 a.1 b.1)) = true := by decide +kernel

/-- The conditions of ShapeGood. -/
def shapeGood (q : QReg) (stamp : Bool := false) : Bool := (q.poisoned stamp).isNone && (q.badElement stamp).isNone

/-- A shape of two rows of four words in global memory, and one in the scratchpad. -/
def rows (space : Bool) (base : Elem) : QReg := ⟨[base, 0, if space then 0x47 else 0x07, 0x10003, 0, 16, 32, 0x10003] ++ List.replicate 8 0, 0⟩

theorem witness_cpyg :
    (let x : FX := ⟨g0, 2, 1, 6, .b8, .rlx, .core, .setA, 0, 0, 0, 0⟩
     let i := Instr.cpyg x
     let s := inContext i (fun t => (t.writeQ 2 0xFFFF (rows true 0)).writeQ 1 0xFFFF (rows false 4096)) id
     issuesWith s i fun p =>
       let ι := p.iss s.m i
       let units := cpygUnits x p.t (s.entered p i)
       let qd := p.t.readQ 0 x.d.toNat
       let w := walkedAll (s.entered p i) p (cpygTargets x p.t (s.entered p i))
       let a := spotted w.2 p false (oksAt w 0)
       let b := spotted a.2 p true (oksAt w 1)
       shapeGood qd (cmode x.ext == 2) && shapeGood (p.t.readQ 1 x.a.toNat) && !(p.t.uniOpnd 2 x.b.toNat 64).2 && (cpygShapes x qd (p.t.readQ 1 x.a.toNat)).isNone &&
       (cpygBounds x p.t (s.entered p i)).isEmpty && foundAllOk (s.entered p i) p true (cpygTargets x p.t (s.entered p i)) && spottedOk w.2 p false (oksAt w 0) &&
       spottedOk a.2 p true (oksAt w 1) && (cpygWords x p.t b.2).all Option.isSome &&
       copyOpenOk b.2 p (ι.flag x.fl) x.scope (cpygPlan x p.t units b.2 a.1 b.1) && units.length == 8) = true := by decide +kernel

/-- A tile of 32 rows of n elements of a type, row by row at a scratchpad offset. -/
def tileShape (ty : Nat) (n base : Nat) : QReg :=
  ⟨[BitVec.ofNat 32 base, 0, BitVec.ofNat 32 (0x40 + ty), BitVec.ofNat 32 (0x1F0000 + n - 1), 0, BitVec.ofNat 32 n, 0, BitVec.ofNat 32 (0x1F0000 + n - 1)] ++
    List.replicate 8 0, 0⟩

/-- MMA; MTILE without scales and with them, into the first and into the last tile of the allotment. -/
theorem witness_mma : (let i := Instr.mma ⟨g0, 4, 16, 24, .e4m3, .rlx, .team, .setA, 0, 1, 0, 0x513⟩
    issuesWith (ready i) i fun p => !flagFull p.t ((p.iss (ready i).m i).flag .setA)) = true := by decide +kernel

theorem witness_mtile : ([(5, 0, Ty.s8, 0, 0x05), (19, 63, .e4m3, 1, 0x813)].all fun (r : Nat × BitVec 8 × Ty × BitVec 3 × Word) =>
    let x : FX := ⟨g0, r.2.1, 1, 2, r.2.2.1, .rlx, .team, .setA, 0, r.2.2.2.1, 0, r.2.2.2.2⟩
    let i := Instr.mtile x
    let s := readyWith i (fun t => ((((t.writeQ 1 0xFFFF (tileShape r.1 32 0)).writeQ 2 0xFFFF (tileShape r.1 32 1024)).writeQ 0 0xFFFF (tileShape 0x18 1 2048)).writeQ
      4 0xFFFF (tileShape 0x18 1 2048))) id
    issuesWith s i fun p =>
      let qa := p.t.readQ 1 x.a.toNat
      let qb := p.t.readQ 2 x.b.toNat
      let qs := p.t.readQ 7 (mtileQs x)
      let qt := p.t.readQ 9 (mtileQt x)
      let used := [qa, qb] ++ if mtileScaled x then [qs, qt] else []
      p.t.mtile.isNone && !flagFull p.t ((p.iss s.m i).flag x.fl) && used.all (fun q => shapeGood q && (tileFault (s.entered p i) p.t q).isNone) &&
      (mtileMisfit x p.t qa qb qs qt).isNone && mtileScaled x == (r.1 == 19) &&
      (!mtileScaled x || ((scaleShort x qa qb false qs).isNone && (scaleShort x qa qb true qt).isNone))) = true := by decide +kernel

/-- AMOV by an immediate row and by the last row in a register; the other instructions on tiles. -/
theorem witness_tiles :
    allIssue [.aclr { v3 .b32 with d := 0, a := 0, b := 64, ka := .vec, kb := .imm }, .amovTile { v3 .b32 with d := 1, a := 2, b := 0, sub := 2 },
      .mrsv { fc 0 with pa := 1 }, .mrel (fc 0)] = true ∧
    (let i := Instr.amovToVector { v3 .b32 with a := 1, b := 0, c := 31, kc := .imm }; issuesWith (ready i) i fun _ => true) = true ∧
    ([Instr.amovToVector, .amovToTile].all fun c =>
      let i := c { v3 .b32 with a := 2, b := 0, c := 5, kc := .uni, sub := if c (v3 .b32) = Instr.amovToVector (v3 .b32) then 0 else 1 }
      issuesWith (readyWith i (fun t => t.writeU 5 ⟨31, false, false⟩) id) i fun p => p.t.uniOpnd 3 5 32 == (31, false)) = true := by decide +kernel

/-! ### Events of splits and operations -/

/-- A live device with one task and no grant to be used. -/
def tasked (f : Machine.Task → Machine.Task) (g : Mach → Mach) : State := { readyWith (.nop (fc 0)) f g with grants := [], granted := false }

/-- What f says of task 1 and its split 0, in a live state. -/
def taskIs (s : State) (f : Machine.Task → Split → Bool) : Bool :=
  s.live && !s.granted && s.grants.isEmpty && match s.m.task 1 with
    | some t => (t.split 0).any (f t) && t.ending.isNone
    | none => false

/-- The task with its split 0 changed. -/
def splitAs (f : Split → Split) : State := tasked (fun t => t.modSplit 0 f) id

/-- ISSUE_GRANT before and after the grants of a cycle; PROMOTION at 4,096; JOIN_COMPLETE of a join that every expected lane has reached; SPLIT_PLACEMENT of its lanes,
and of a split in the stack; SPLIT_MERGE of two splits. -/
theorem witness_splits :
    (up.live && up.grants.isEmpty && !up.granted && ({ up with granted := true } : State).live) = true ∧
    taskIs (splitAs fun x => { x with promo := 4096 }) (fun _ x => 4096 ≤ x.promo && !x.promoted) = true ∧
    taskIs (tasked (fun t => t.modJoin 1 fun _ => ⟨true, false, 3, [(3, 0)], 64, true⟩) id) (fun t _ => (t.join 1).valid && (t.join 1).due) = true ∧
    taskIs (tasked (fun t => t.modJoin 1 fun _ => ⟨false, true, 3, [(3, 0)], 64, true⟩) id) (fun t _ => (t.join 1).occ && (t.join 1).due) = true ∧
    taskIs (tasked (fun t => { t with stack := [startSplit 64 0] }) id) (fun t _ => t.mergedAt.isNone && t.freeEntry.isSome && !t.stack.isEmpty) = true ∧
    taskIs (tasked (fun t => { t with splits := [some (startSplit 64 0), some (startSplit 64 0), none, none] }) id) (fun t x =>
      (List.range 8).all (fun j => (t.join j).arrivals.isEmpty) &&
        ((List.range 4).filter fun k => k != 0 && ((t.split k).map (mergeable x)).getD false) == [1]) = true := by decide +kernel

/-- A split that waits with an instruction. -/
def waits (fetch : Bool) (i : Instr) (h : Hold) : State :=
  splitAs fun x => { x with wait := some ⟨fetch, i, false, h, 0, false, [], 0xFFFFFFFF, ⟨[], [], [], [], [], [], 0⟩, 0⟩ }

/-- WAIT_SATISFIED of a clause's page, and of a FENCE that, tried again, completes; HALT_TIMEOUT at its time. -/
theorem witness_waits :
    taskIs (waits true (.nop (fc 0)) .cond) (fun t x => t.live && x.wait.any fun w => w.hold == .cond && w.fetch) = true ∧
    (let i := Instr.fence { fm .b8 with d := 0, a := 0, ord := .sc }
     let s := waits false i .cond
     taskIs s (fun t x => t.live && x.pa.isSome && x.wait.any fun w => w.hold == .cond && !w.fetch &&
       match bodyOf w.ins with
       | some body => (match body (s.m.modTask 1 fun t => t.modSplit 0 fun x => { x with wait := none }) (Wait.iss w s.m 1 0 t x) with
         | .done _ => true
         | _ => false)
       | none => false)) = true ∧
    (let s := waits false (.halt (fc 0)) (.halt (some 100))
     taskIs s fun _ x => x.wait.any fun w => w.hold == .halt (some 100) && 100 ≤ s.m.clk) = true := by decide +kernel

/-- A task with an operation of a kind that has all its answers. -/
def operating (k : OpKind) (f : Machine.Task → Machine.Task) (g : Mach → Mach) : State := tasked (fun t => f { t with pend := [⟨5, k, none, false, [], []⟩] }) g

/-- An MTILE of one step. -/
def mtile1 (step : Nat) : MTile := ⟨⟨g0, 0, 1, 2, .s8, .rlx, .team, .setA, 0, 0, 0, 5⟩, 64, 1, tileShape 5 32 0, tileShape 5 32 1024, QReg.zero, QReg.zero,
  UReg.zero, UReg.zero, ⟨[], []⟩, step, 1, Tile.zero⟩

/-- FLAG_COMPLETION of each kind of operation, and MTILE_STEP_RETIRE of an MTILE that has a step left. -/
theorem witness_completions :
    ([OpKind.access, .mma].all fun k => taskIs (operating k id id) fun t _ => t.pend.any fun o => o.id == 5 && o.kind == k && o.answers.isEmpty && (t.before 5).isEmpty) =
      true ∧
    taskIs (operating .mtile (fun t => { t with mtile := some (mtile1 1) }) id) (fun t _ => t.pend.any (fun o => o.kind == .mtile && o.answers.isEmpty) &&
      t.mtile.any fun w => w.steps ≤ w.step) = true ∧
    (let s := operating .copy id fun m => { m with copies := [(9, ⟨1, 5, 0, 0, [⟨.zero, [.mem 0], 4, some (List.replicate 4 (0, false))⟩], .none, none, [], true, false⟩)] }
     taskIs s fun t _ => t.pend.any (fun o => o.kind == .copy && o.answers.isEmpty) && s.m.copies.any fun c => c.2.task == 1 && c.2.op == 5 && c.2.readable) = true ∧
    (let s := tasked (fun t => { t with mtile := some (mtile1 0) }) id
     taskIs s fun t _ => t.state != .parking && t.mtile.any (fun w => w.step < w.steps && ((s.m.core t.core).part (mtilePart t w.ins.d.toNat)).matrixFree ≤ s.m.clk) && (s.m.team t.team).isSome) = true := by decide +kernel

/-! ### Events of cores and dies -/

/-- A closure whose entry is at 32 MiB, and one with AFF of another die. -/
def entry0 : Entry := ⟨[0x0006000002000000] ++ List.replicate 15 0, 0, 0, false, 0, 0, false, false, 0, false⟩

/-- The device with core 0 changed, and the record of the entry at 32 MiB asking for one block of each kind of register. -/
def onCore (f : Core → Core) (g : Mach → Mach) : State :=
  { up with m := g ({ up.m with mem := up.m.mem.setWord64 0x1FFFFC8 0x0101 }.modCore 0 f) }

/-- The conditions of MayTake for core 0 and context 1. -/
def mayTake (s : State) : Bool :=
  s.live && s.m.ctxOn 0 == some 1 && s.m.seeks 0 && (s.m.core 0).tookAt != some s.m.clk && (s.m.ctx 1).any fun c => c.pending.isNone

/-- What f says of context 1. -/
def inCtx (s : State) (f : Ctx → Bool) : Bool := (s.m.ctx 1).any f

/-- TAKE_ENTRY of the inbox by a core that has nothing, of its own deque, and by a steal; REFILL in its two steps. -/
theorem witness_takes :
    (let s := onCore id fun m => m.inboxPush 0 1 entry0
     mayTake s && s.m.bare 0 && inCtx s fun c => (s.m.inboxNext c 1 0).any fun y => !y.1.pin && c.permits y.1 0) = true ∧
    (let s := onCore (fun k => { k with deque := [entry0] }) id
     mayTake s && !(s.m.core 0).refilling && (s.m.core 0).deque.getLast? == some entry0 && inCtx s fun c => (s.m.inboxNext c 1 0).isNone &&
       match (s.m.admission 0 1 c entry0 []).1 with | .seats _ _ => true | _ => false) = true ∧
    (mayTake up && up.m.bare 0 && (up.m.core 0).request.isNone && inCtx up (fun c => (up.m.inboxNext c 1 0).isNone && !up.m.crossDue c 1 0) &&
      0 < (((List.range up.m.logCores).map fun l => coreNo 0 l).filter (· != 0)).length) = true ∧
    ([false, true].all fun r => let k := ((onCore (fun k => { k with overflow := 1, refilling := r }) id).m.core 0)
     k.overflow != 0 && k.refilling == r && k.deque.isEmpty) = true := by decide +kernel

/-- Core 1, a thief, and core 128 of die 1, with context 1 on both dies. -/
def stealing (v : Nat) (f : Core → Core) (g : Mach → Mach) : State :=
  onCore id fun m => g (((m.modCtx 1 fun c => { c with dies := [0, 1] }).setCore 1 { Core.fresh with request := some v }).setCore 128 (f Core.fresh))

/-- The conditions of MayServe for thief 1, at a die that is not popping. -/
def mayServe (s : State) (v : Nat) : Bool :=
  s.live && s.m.ctxOn 0 == some 1 && (s.m.core 1).reply.isNone && (s.m.core 1).tookAt != some s.m.clk && !s.m.popsNow v && (s.m.core v).gaveAt != some s.m.clk

/-- STEAL_REQUEST_SERVED from a core of the die, through a bridge with and without a core that has work; CROSS_DIE_STEAL; STEAL_REPLY with an entry and without;
WRITEBACK_REQUEST; MERIDIAN_PUBLISH. -/
theorem witness_steals :
    (let s := stealing 0 id fun m => m.modCore 0 fun k => { k with deque := [entry0], tookAt := some 100 }
     mayServe s 0 && (s.m.core 1).request == some 0 && inCtx s fun c => !s.m.servedBefore c 1 1 0) = true ∧
    (let s := stealing (2 ^ 16 + 1) (fun k => { k with deque := [entry0], tookAt := some 100 }) id
     mayServe s 128 && (s.m.core 1).request == some (2 ^ 16 + 1) && inCtx s fun c => s.m.bridge c 1 1 == some 128 && !s.m.servedBefore c 1 1 128) = true ∧
    (let s := stealing (2 ^ 16 + 1) id id; mayServe s 128 && inCtx s fun c => (s.m.bridge c 1 1).isNone) = true ∧
    (let s := stealing 0 id fun m => (m.modDie 0 fun d => { d with starve := [(1, 0x800)] }).modDie 1 fun d => { d with depth := [(1, 64)] }
     mayTake s && s.m.bare 0 && (s.m.core 0).request.isNone && (s.m.die 0).crossRequest.isNone && inCtx s fun c => (s.m.inboxNext c 1 0).isNone && s.m.crossDue c 1 0 &&
       s.m.crossVictim c 1 0 == some 1) = true ∧
    ([none, some entry0].all fun r => let s := stealing 0 id fun m => m.modCore 1 fun k => { k with reply := some r }
     s.live && s.m.ctxOn 0 == some 1 && (s.m.core 1).reply == some r && (s.m.core 1).request == some 0 && (s.m.core 1).hand.isNone) = true ∧
    (let s := onCore (fun k => { k with l1 := [(3, ⟨.dirty 0, List.replicate 32 0, 0⟩)] }) id; (s.m.core 0).l1.any fun x => x.2.state == .dirty 0) = true ∧
    (up.live && up.m.xclk.toNat % 256 == 0 && up.m.publish != up.m) = true := by decide +kernel

/-- ADMIT_ENTRY with seats, of an entry that is killed, and without room. -/
theorem witness_admissions :
    ([0, 1, 2].all fun n =>
      let s := onCore (fun k => { k with hand := some entry0 }) fun m =>
        if n == 0 then m
        else if n == 1 then { m with mem := m.mem.setWord64 0x1FFFFC8 0 }
        else { m with teams := [(50, m.newTeam 0 1 entry0 0 262144 0)] }
      s.live && s.m.ctxOn 0 == some 1 && (s.m.core 0).hand == some entry0 && !entry0.isResume && inCtx s fun c =>
        match n, (s.m.admission 0 1 c entry0 []).1 with
        | 0, .seats _ _ => true
        | 1, .killed _ _ _ => true
        | 2, .room => true
        | _, _ => false) = true := by decide +kernel

/-- A parked task of context 1 whose frame at 16 MiB asks for one block of each kind of register. -/
def parkedAt (kind : Nat) : Parked := ⟨9, 0x1000000, 4, kind, 0, none, false, false, false, 0, 0, false, none, [], [], false, none⟩
def withFrame (kind : Nat) (m : Mach) : Mach :=
  { m with mem := m.mem.setWord64 0x1000008 0x0101 }.modCtx 1 fun c => { c with parked := [parkedAt kind], framesUsed := [0] }

/-- RESUME of a parked task whose entry a core holds. -/
theorem witness_resume :
    (let e := resumeEntry 0x1000000 0 0 0 false
     let s := onCore (fun k => { k with hand := some e }) (withFrame 1)
     s.live && s.m.ctxOn 0 == some 1 && e.isResume && inCtx s fun c => match s.m.admission 0 1 c e [] with
       | (.seats l _, m) => !(m.mtilePage 0 1 (l.filterMap (·.frame))).1 &&
           (c.resumed e.frame).all fun p => (l.filterMap (·.frame)).any fun q => q.tid == p.tid
       | _ => false) = true := by decide +kernel

/-- A team of context 1 whose member is being staged, with the words of its closure's operands. -/
def staging (e : Entry) : State := onCore id fun m =>
  { m with teams := [(4, m.newTeam 0 1 e 0 4096 0)], tasks := [(9, { placedTask with ctx := 1, team := 4, state := .staging })] }

/-- STAGING_COMPLETE without operands; STAGING_FAULT of an operand whose record is not aligned. -/
theorem witness_staging :
    (let s := staging entry0
     s.live && (s.m.stagingTeam 4).any fun g => (s.m.stage g).2.1.fault.isNone && !(s.m.stage g).2.1.waiting) = true ∧
    (let s := staging { entry0 with img := [0x0006000002000000, 0, 4] ++ List.replicate 13 0 }
     s.live && (s.m.stagingTeam 4).any fun g => (s.m.stage g).2.1.fault == some (3, 1, 64, 0, 4)) = true := by decide +kernel

/-! ### Events of parks, teams and contexts -/

/-- A task of context 1 that waits at split 0. -/
def parker (i : Instr) (h : Hold) (overdue : Bool) (f : Machine.Task → Machine.Task) (g : Mach → Mach) : State :=
  { inContext (.nop (fc 0)) (fun t => f (t.modSplit 0 fun x =>
      { x with wait := some ⟨false, i, true, h, 0, overdue, [], 0xFFFFFFFF, ⟨[], [], [], [], [], [], 0⟩, 0⟩ })) g with grants := [], granted := false }

/-- What f says of task 1 and its context, which has a free frame. -/
def parks (s : State) (f : Machine.Task → Ctx → Bool) : Bool :=
  s.live && match s.m.task 1 with
    | some t => t.ending.isNone && !t.onComplex && match s.m.ctx t.ctx with
      | some c => !c.freeFrames.isEmpty && f t c
      | none => false
    | none => false

/-- A pool with consecutive free frames gives some. -/
theorem pickFrames_gives (c : Ctx) (n k : Nat) (h : (c.freeFrames.filter fun i => (List.range n).all fun j => c.freeFrames.contains (i + j)) ≠ []) :
    ∃ f, c.pickFrames n k = some f := by
  unfold Ctx.pickFrames
  rw [if_neg (by simpa using h)]
  have := List.length_pos_iff.mpr h
  exact ⟨_, List.getElem?_eq_getElem (Nat.mod_lt _ this)⟩

/-- The premise of that lemma for the pools of these tests. -/
def pools (c : Ctx) (n : Nat) : Bool := !(c.freeFrames.filter fun i => (List.range n).all fun j => c.freeFrames.contains (i + j)).isEmpty

/-- PARK that completes; that begins by SVC with something outstanding and with nothing; that begins for a pending context; and for an entry that finds no slot. -/
theorem witness_parks :
    ([ParkOn.mk 0 2 5 none false 90, ⟨0, 1, 0x10000, none, false, 90⟩].all fun w =>
     let s := parker (.svc (fc 0)) .service false (fun t => { t with state := .parking, parkOn := some w }) id
     parks s fun t c => t.state == .parking && s.m.settled 1 t && t.parksOn.any (fun o => o.kind == w.kind) && pools c 1) = true ∧
    (let s := parker (.svc (fc 0)) .service false id id
     parks s fun t _ => t.live && t.waits.any (fun x => x.2.hold == .service)) = true ∧
    (let s := parker (.nop (fc 0)) (.request 1 0 0x10000) true id fun m => m.modCtx 1 fun c => { c with pending := some 1 }
     parks s fun t c => t.live && c.pending.isSome && (s.m.team t.team).any (·.size == 1) &&
       t.splits.all (fun o => o.all fun x => x.wait.any Wait.parks) && s.m.mayPark 1 t && s.m.tasks.all (fun o => o.2.core != t.core || o.2.state != .parking)) = true ∧
    (let s := parker (.nop (fc 0)) (.request 1 0 0x10000) true id fun m =>
       { ((m.modCore 0 fun k => { k with deque := [entry0] }).modTeam 0 fun t => { t with spadLen := 262144 }) with mem := (m.mem.setWord64 0x1FFFFC8 0x0101) }
     parks s fun t _ => t.live && s.m.tasks.all (fun o => o.2.core != t.core || o.2.state != .parking) && s.m.parkHelps t.core && (s.m.parkOrder t.core).head?.map (·.1) == some 1) = true := by decide +kernel

/-- RESUME_ENTRY_CREATE of a park that is over; QUIESCENCE_PARK of a team whose only member stands in YIELD. -/
theorem witness_park_ends :
    (let p := { parkedAt 1 with ready := true }
     let s := onCore id fun m => (withFrame 1 m).modCtx 1 fun c => { c with parked := [p] }
     s.live && inCtx s fun c => c.resident && c.parked.find? (fun q => q.frame == p.frame && !q.entered) == some p && s.m.parkOver 1 p &&
       c.dies.contains (dieOf (s.m.frameRelease p.frame).who)) = true ∧
    (let s := parker (.yield (fc 0)) .cond false id fun m => m.modCtx 1 fun c => { c with pending := some 1 }
     parks s fun t c => c.pending.isSome && pools c 1 && (s.m.team t.team).any (fun g => g.size == 1) &&
       (s.m.tasks.filter fun x => x.2.team == t.team).all fun x => s.m.yielding x.1 x.2 && x.2.idx == 0) = true := by decide +kernel

/-- A team of context 1 without members, of a launch or with a future. -/
def teamed (f : Team → Team) (g : Mach → Mach) : State := onCore id fun m => g { m with teams := [(4, f (m.newTeam 0 1 entry0 0 4096 0))] }

/-- DISCARD_TEAM of a team in STAGING; TEAM_FUTURE_COMPLETION without a future, with one of this device and with one of another; WATCHDOG_STOP; GRACE_EXPIRY. -/
theorem witness_teams :
    (let s := onCore id fun m => { (m.modCtx 1 fun c => { c with pending := some 1 }) with
       teams := [(4, m.newTeam 0 1 entry0 0 4096 0)], tasks := [(9, { placedTask with ctx := 1, team := 4, state := .staging })] }
     s.live && !s.granted && (s.m.team 4).isSome && inCtx s (·.pending.isSome) && s.m.discardable 4) = true ∧
    ([0, 0x2000, 2 ^ 43].all fun a => let s := teamed (fun g => { g with gone := List.range g.size, future := BitVec.ofNat 64 a }) id
     s.live && (s.m.team 4).any fun g => g.isOver && !s.m.written g && g.value.isNone && match (s.m.engineSpot 0 1 a .store acceptUpdate).1 with
       | .found _ (.here _) => a != 2 ^ 43
       | .found _ (.away _ _) => a == 2 ^ 43
       | _ => a == 0) = true ∧
    (let s := parker (.nop (fc 0)) .cond false (fun t => { t with wdog := 2 ^ 48 }) id
     parks s fun t c => fieldOf (c.word 7) 0 48 ≤ t.wdog && (s.m.discard t.team).isNone && !s.m.parkEnds 1) = true ∧
    (let s := parker (.nop (fc 0)) .cond false id fun m => m.modCtx 1 fun c => { c with pending := some 1, record := c.record.set 6 5 }
     parks s fun t c => t.ctx == 1 && c.pending == some 1 && 1 + fieldOf (c.word 6) 0 40 ≤ s.m.clk && !c.faulted) = true := by decide +kernel

/-- Two contexts that want die 0: context 1 has it, context 2 has a park. -/
def rivals (start now prio : Nat) : State :=
  let two := { ctx1 with record := ctx1.record.set 0 0x8001000000000002, resident := false, dies := [], framesUsed := [0] }
  let queue : HwQueue := ⟨BitVec.ofNat 64 (2 ^ 63 + prio * 2 ^ 60 + 2), 0, 2, 1, 0, false, 0, 0, [], 0, 0⟩
  onCore id fun m => { m with clk := now, ctxs := [(1, { ctx1 with sliceStart := start, framesUsed := [0] }), (2, two)], queues := [(3, queue)] }

/-- The record of a context that obeys every check, for a device whose memory holds a translation record and a capability block for it. -/
def goodRecord : List Word :=
  ((((((((ctx1.record.set 12 0x6000000).set 13 0x7000000).set 15 0x6010000).set 4 0x608000100).set 5 0x10).set 7 0x100000).set 25 0x10000).set 11 16).set 0
    0x8001000000000001
def withRecords (m : Mach) : Mach := { m with trbase := 0x9000000, mem := ((((m.mem.setWord64 0x6010000 4).setWord64 0x9000040 0x8000000000000001).setWord64
  0x9000048 0xA000000).setWord64 0x9000050 0xA010000) }

def leaves (good : Bool) (m : Mach) : Mach :=
  withRecords (m.modCtx 1 fun c => { c with record := if good then goodRecord else c.record, resident := false, dies := [], framesUsed := [0] })

/-- SLICE_EXPIRY, PREEMPT_PENDING, PREEMPT_WITHDRAW; SWITCH_OUT; SWITCH_IN of a context whose record is bad, and of one whose record is good. -/
theorem witness_contexts :
    ([0, 1].all fun p => let s := rivals 0 5000 p
     s.live && inCtx s fun c => c.resident && c.pending.isNone && s.m.runnable 1 c && !(if p == 0 then s.m.outlived 1 c else s.m.outranked 1 c).isEmpty) = true ∧
    (let s := onCore id fun m => m.modCtx 1 fun c => { c with pending := some 1, causes := [7] }
     s.live && inCtx s fun c => c.pending.isSome && !c.repair && !c.faulted && c.causes.all (fun x => (s.m.ctx x).all fun cx => !s.m.runnable x cx)) = true ∧
    (let s := onCore id fun m => m.modCtx 1 fun c => { c with pending := some 1 }
     s.live && inCtx s fun c => c.resident && s.m.leaving 1 c && s.m.vacant 1 c) = true ∧
    ([false, true].all fun good => let s := onCore id (leaves good)
     s.live && s.serving && !s.stepDue && !s.dieUnfit 0 && inCtx s fun c => s.m.entering 1 c [0] && s.m.recordGood 1 c == good) = true := by decide +kernel

/-! ### Events of copies, barriers, spawn queues, arrays, walks and the host link -/

/-- BARRIER_CREDIT to a barrier that is no longer registered, and to one that is; COPY_COMPLETION of a copy that still reads, and one that waits for an answer of another
device when its bytes are moved. -/
theorem witness_credits :
    ([true, false].all fun there =>
     let s := teamed (fun g => { g with barriers := if there then [⟨64, 0, 3, none, none, none⟩] else [] }) (fun m => { m with credits := [⟨4, 64, 8⟩] })
     s.live && match s.m.credits[0]? with
       | some c => ((s.m.team c.team).bind (fun g => g.barrier c.offset)).isSome == there &&
         ((s.m.team c.team).bind (fun g => g.barrier c.offset)).all fun r => r.credited != some s.m.clk && r.changed != some s.m.clk
       | none => false) = true ∧
    ([Place.mem 0x3000, .away 5 0x3000 false].all fun p =>
      let s := onCore id fun m => { m with copies := [(9, ⟨1, 5, 1, 0, [⟨.mem 0x2000, [p], 4, none⟩], .none, none, [], true, false⟩)] }
      s.live && match s.m.copy 9 with
        | some c => c.readable && (s.m.task c.task).isNone && ((s.m.copyReads 9).copyAll 9).copyUnanswered 9 c.completion.device == (p != .mem 0x3000)
        | none => false) = true := by decide +kernel

/-- A watched queue with one record, the descriptor of a batch of n + 1, and the template at 0x50000. -/
def queued (n : Nat) : State := onCore id fun m =>
  let q : SpawnQ := ⟨1, 0, 0x40000, [(0, m.recordOf 0 .dev)], some 0, [(0, 1, true)], 0, false, none⟩
  { m with mem := ((m.mem.setWord64 0x40008 (BitVec.ofNat 64 (15 + 2 ^ 22 * n))).setWord64 0x40010 0x50000).setWord64 0x40038 (2 ^ 63), spawnqs := [(0x40000, q)] }

/-- QUEUE_SPAWN of a full batch; FLUSH_TIMER_EXPIRY of a smaller one; QUEUE_TILE_END. -/
theorem witness_queue_engine :
    ([0, 1].all fun n => let s := queued n
     s.live && match tabGet s.m.spawnqs 0x40000, s.m.ctx 1 with
       | some x, some c => x.ctx == 1 && !x.stopped && x.spawnedAt.isNone && (QDesc.of s.m.mem 0x40000).enabled && c.resident && c.pending.isNone && c.dies.contains x.die &&
         !s.m.inboxFull x.die 1 && (c.inflMax == 0 || fieldOf (QDesc.of s.m.mem 0x40000).state 32 16 < c.inflMax) && (s.m.badDescriptor 0x40000).isNone &&
         s.m.spawnDue 0x40000 x s.cycleEnded == (n == 0, true) && x.tiles.any (fun y => y.2.2) &&
         (match s.m.engineRead (watchAgent 0x40000) x.die x.ctx none (s.m.mem.word64 0x40010).1.toNat 128 with
          | (.data d, m) => (imageOf d).2.extractLsb' 0 4 == 0 && ((imageOf d).1.getD 0 0).toNat % 64 == 0 && ((imageOf d).1.getD 1 0).toNat % 32 == 0 &&
              (match m.countTile 0x40000 x ((imageOf d).1.getD 1 0).toNat with
               | (.data _, _) => true
               | _ => false)
          | _ => false)
       | _, _ => false) = true := by decide +kernel

/-- L1_EVICTION; L2_EVICTION and HBM_FILL of an absent sector, in a carve-out where the tag is bad; CONTROL_ARRAY_ERROR of each control array. -/
theorem witness_arrays :
    (let s := onCore (fun k => { k with l1 := [(3, ⟨.dirty 0, List.replicate 32 0, 0⟩)] }) fun m => { m with resident := [7], carveOuts := [0] }
     s.live && (s.m.l1 0 96).isSome && s.m.resident.contains 7 && !s.m.resident.contains 8 && s.m.carveOuts.contains (32 * 8 / 2 ^ 29) && (s.m.ctx 1).isSome &&
       0 < (s.m.core 0).tlb.length && 0 < (s.m.die 0).tlb.length) = true ∧
    taskIs (tasked id id) (fun _ _ => true) = true := by decide +kernel

/-- SOFT_ERROR at a place of each kind that holds something. -/
theorem witness_upsets :
    (let s := onCore (fun k => { k with l1 := [(3, ⟨.dirty 0, List.replicate 32 0, 0⟩)], deque := [entry0] }) fun m =>
       { m with resident := [7], tasks := (tasked id id).m.tasks }
     s.live && [Site.vreg 1 4 31, .ureg 1 6 1, .pred 1 3 0, .shape 1 15 15, .acc 1 0 31 31, .spad 0 655356, .l1 0 100, .l2 228, .deque 0 0 31, .tlb 0 0, .dieTlb 0 0,
       .context 1].all fun x => (s.m.upset x).isSome) = true := by decide +kernel

/-- FLIT_REPLAY; LINK_REPAIR after 65 replays, and of a marked link. -/
theorem witness_links :
    (up.live && validDomain (domainNo 2 0 5) && validDomain (domainNo 2 0 163)) = true ∧
    (let s := { up with fw := { up.fw with linkReplays := [(5, List.replicate 65 100)] } }; 64 < (s.replays 5).length) = true ∧
    (let s := { up with fw := up.fw.modWear (domainNo 2 0 5) fun w => { w with marked := true } }
     (s.fw.wearOf (domainNo 2 0 5)).marked && !s.fw.noSpareLane 5) = true := by decide +kernel

/-- Context 1 with a translation table at 0xA000000 whose first entry is e, a request ring at 0xA010000, and on die 0 one walk of address 0. -/
def walking (e : Word) (started overdue : Bool) (f : Machine.Task → Machine.Task) : State := onCore id fun m =>
  let m := (m.modDie 0 fun d => { d with walks := [(6, ⟨1, false, 0, 0, overdue, started⟩)] }).modCtx 1 fun c =>
    { c with translation := [0x8000000000000001, 0xA000000, 0xA010000, 15, 0, 0, 0, 0] }
  { m with clk := 5000, mem := (m.mem.setWord64 0xA000000 e).setWord64 0xA010018 3,
           tasks := [(1, f ((parker (.nop (fc 0)) (.page 0 6 0 0) false id id).m.task 1 |>.getD placedTask))] }

/-- What f says of the walk. -/
def walkIs (s : State) (f : Walk → Bool) : Bool := s.live && (tabGet (s.m.die 0).walks 6).any f

/-- TLB_MISS_WALK; WALK_COMPLETE at a leaf, at a faulty entry, and at an absent one that makes a request; WALK_BOUND_EXCEEDED. -/
theorem witness_walks :
    (let s := walking 0 false false id; walkIs s fun w => (s.m.die 0).walks.find? (fun x => !x.2.started) == some (6, w) &&
      ((s.m.die 0).walks.filter fun x => x.2.started).length < 64) = true ∧
    ([0x7, 0x80, 0].all fun e => let s := walking e true false id
      walkIs s fun w => w.started && match s.m.walkTable w.ctx w.va with
        | .leaf _ => e == 0x7
        | .fault _ _ _ => e == 0x81
        | .absent level => e % 2 == 0 && s.m.walkAbsent 0 6 w level != s.m) = true ∧
    (let s := walking 0x81 true false id; walkIs s fun w => match s.m.walkTable w.ctx w.va with
        | .fault _ _ _ => true
        | _ => false) = true ∧
    (let s := walking 0 true false id; walkIs s fun w => !w.overdue && w.since + 4096 ≤ s.m.clk) = true ∧
    (let s := { walking 0 true false id with m := (walking 0 true false id).m.modDie 0 fun d => { d with walks := [(6, ⟨1, false, 0, 0, true, true⟩)] } }
     walkIs s fun w => w.overdue && s.m.tasks.any fun k => k.2.waits.any fun x => x.2.onWalk 0 6 && !x.2.overdue && decide (x.2.since + 4096 ≤ s.m.clk)) = true := by decide +kernel

/-- PAGE_REQUEST_RESPONSE of a request granted and of one declined. -/
theorem witness_page_responses :
    ([1, 2].all fun r => let s := onCore id fun m => { (m.modCtx 1 fun c =>
        { c with prqPosted := [(3, 0, 0)], translation := [0x8000000000000001, 0xA000000, 0xA010000, 15, 0, 0, 0, 0] }) with mem := m.mem.setWord64 0xA010018 r }
     s.live && s.fw.updating < 2 && s.fw.state != .failed && inCtx s fun c => c.prqPosted.find? (fun r => r.2.2 == 0) == some (3, 0, 0) &&
       (s.m.mem.word64 ((c.translation.getD 2 0).toNat + 24)).1 == r) = true := by decide +kernel

/-- HOST_COMPLETION of a request to the host; ATS_TRANSLATION_COMPLETION and PRI_RESPONSE of a page that has been asked for; BAR 4; PRIORITY_FLOW_CONTROL. -/
theorem witness_host :
    (let r : Request := ⟨.free, none, some 12, 1, 0, 0, none⟩
     let s := onCore id fun m => { m with requests := [(12, r)], atsAsked := [(8, true, false)] }
     s.live && tabGet s.m.requests 12 == some r && r.host == some 12 && r.answer.isNone && s.m.atsAsked.find? (fun a => a.1 == 8) == some (8, true, false)) = true := by
  decide +kernel

/-! ### Events of portals, packets and launches -/

/-- Queue 3 of context 1 with one packet at 0x20000, and a TLB of the I/O dies; completion signals and dependences are words of 0x30000. -/
def packetAt (words : List Nat) (f : HwQueue → HwQueue) (g : Mach → Mach) : State := onCore id fun m =>
  let m := { m with dies := m.dies ++ [(8, { Die.fresh with tlb := core0.tlb })], queues := [(3, f ⟨0x8000000000000001, 0x20000, 1, 0, 0, false, 0, 0, [], 0, 0⟩)] }
  g { m with mem := words.zipIdx.foldl (fun (mem : Memory) (y : Nat × Nat) => mem.setWord64 (0x20000 + 8 * y.2) (BitVec.ofNat 64 y.1)) m.mem }

/-- The conditions of Starts for a packet with a barrier bit, both dependences and a completion signal, and what f says of it. -/
def starts (s : State) (t : Nat) (f : Pk → Mach → Bool) : Bool :=
  s.live && s.fw.updating < 2 && s.fw.state != .failed && (s.m.queue 3).any (fun h => h.active.all fun a => a.type != t) && !s.stepDue && match s.m.nextPacket 3 with
    | some (.ok p) => p.q == 3 && p.type == t && fieldOf (p.word 0) 8 4 == 15 && p.idle && !pkReserved p.w && !pkMisaligned p.w &&
      (match feWait s.m 3 p.ctx (p.word 1).toNat 0 0 (fun m => .go m none) with
       | .go m1 none => (match feWait m1 3 p.ctx (p.word 2).toNat 0 0 (fun m => .go m none) with
         | .go m2 none => (match m2.engineSpot feDie p.ctx (p.word 3).toNat .store acceptUpdate with
           | (.found _ _, m) => f p m
           | _ => false)
         | _ => false)
       | _ => false)
    | _ => false

/-- A packet of a type with those bits and a body. -/
def packet (t : Nat) (body : List Nat) : List Nat := [0xF00 + t, 0x30000, 0x30008, 0x30010] ++ body

/-- An address of the packet is found, here or on another device. -/
def found (m : Mach) (p : Pk) (i : Nat) (use : Use) (accepts : Accepts) (here : Bool) : Bool :=
  match (m.engineSpot feDie p.ctx (p.word i).toNat use accepts).1 with
  | .found _ (.here _) => here
  | .found _ (.away _ _) => !here
  | _ => false

/-- NOP_PACKET, a reserved field, a misaligned address; SIGNAL; WAIT; FENCE; TIMESTAMP; the packet completes. -/
theorem witness_packets :
    starts (packetAt (packet 1 []) id id) 1 (fun p m => found (started m 3 p.inProgress) p 3 .store acceptUpdate true) = true ∧
    ([[0x1001], [0x801, 0, 0, 1]].all fun ws => match (packetAt ws id id).m.nextPacket 3 with
      | some (.ok p) => fieldOf (p.word 0) 9 2 == 0 && p.type == 1 && pkReserved p.w == (ws == [0x1001]) && pkMisaligned p.w == (ws != [0x1001])
      | _ => false) = true ∧
    starts (packetAt (packet 5 [0x30020, 7]) id id) 5 (fun p m => found m p 4 .store acceptUpdate true) = true ∧
    starts (packetAt (packet 6 [0x30020, 0, 0]) id id) 6 (fun p m => match feWait m 3 p.ctx (p.word 4).toNat (p.word 6).toNat (p.word 5) (fun m => .go m none) with
      | .go _ none => true
      | _ => false) = true ∧
    starts (packetAt (packet 8 []) id id) 8 (fun p _ => p.idle) = true ∧
    starts (packetAt (packet 0x0B [0x30020]) id id) 0x0B (fun p m => found m p 4 .store (fun _ attr => attr ≤ 1) true) = true := by decide +kernel

/-- WRITE_THEN_SIGNAL to local memory and to another device, and its end once the device has answered. -/
theorem witness_writes :
    ([0x30020, 2 ^ 43].all fun a => starts (packetAt (packet 7 [a, 5, 0x30028, 1]) id id) 7 fun p m =>
      found m p 6 .store acceptUpdate true && found m p 4 .store (fun _ attr => attr ≤ 1) (a == 0x30020)) = true ∧
    (let s := packetAt [] (fun h => { h with started := 1, active := [⟨0, (packet 7 [2 ^ 43, 5, 0x30028, 1]).map (BitVec.ofNat 64), none, none, none⟩] }) id
     s.live && match s.m.inProgress 3 (fun a => a.type == 7) with
       | some (1, a) => s.m.agentAnswer (queueAgent 3 + 2 ^ 20 * (a.index + 1)) (a.words.getD 4 0).toNat != some none &&
           (match s.m.engineSpot feDie 1 (a.words.getD 6 0).toNat .store acceptUpdate with
            | (.found _ _, m) => (match (m.csigSpot 1 a.words).1 with
              | .waiting => false
              | _ => true)
            | _ => false)
       | _ => false) = true := by decide +kernel

/-- The 4 KiB pages of a copy are found. -/
def copies (n : Nat) : State := packetAt (packet 4 [0x40000, 0x50000, n]) id id

/-- COPY of nothing and of 8 bytes, and its end; QUEUE_INIT that enables, that disables with and without a task in flight, and its end. -/
theorem witness_copies :
    ([0, 8].all fun n => starts (copies n) 4 fun p m => (pageCuts 0x40000 n).length == n / 8 && (pageCuts 0x50000 n).length == n / 8 &&
      found m p 4 .load acceptCopy true && found m p 5 .store acceptCopy true && m.seals.isEmpty &&
      !(CopyPlan.overlaps ⟨(cuts 0x40000 0x50000 n).map fun y => ⟨.mem (0x40000 + y.1), [.mem (0x50000 + y.1)], y.2, none⟩, .none, false, false⟩)) = true ∧
    (let s := packetAt [] (fun h => { h with started := 1, active := [⟨0, (packet 4 [0x40000, 0x50000, 8]).map (BitVec.ofNat 64), some 77, none, none⟩] }) id
     (s.m.inProgress 3 (fun a => a.type == 4 && a.copy.any fun n => (s.m.copy n).isNone)).isSome) = true ∧
    starts (packetAt (packet 0x0A [0x40000, 0]) id fun m => { m with mem := m.mem.setWord64 0x40008 15 }) 0x0A (fun p m => (p.word 5).toNat == 0 &&
      found m p 4 .store acceptUpdate true && !m.mem.anyPoison 0x40000 64 && descriptorGood (fun i => (m.mem.word64 (0x40000 + 8 * i)).1) &&
      0 < p.c.qMax && m.spawnqs.isEmpty) = true ∧
    ([0, 1].all fun n => starts (packetAt (packet 0x0A [0x40000, 1]) id fun m => { m with mem := m.mem.setWord64 0x40038 (BitVec.ofNat 64 (2 ^ 63 + 2 ^ 32 * n)) }) 0x0A
      fun p m => (p.word 5).toNat == 1 && found m p 4 .store acceptUpdate true && !m.mem.anyPoison 0x40000 64 && fieldOf (m.mem.word64 0x40038).1 32 16 == n) = true ∧
    (let s := packetAt [] (fun h => { h with started := 1, active := [⟨0, (packet 0x0A [0x40000, 1]).map (BitVec.ofNat 64), none, none, none⟩] }) id
     match s.m.inProgress 3 (fun a => a.type == 0x0A) with
       | some (ctx, a) => (match s.m.engineSpot feDie ctx (a.words.getD 4 0).toNat .load acceptUpdate with
         | (.found _ (.here pa), m) => fieldOf (m.mem.word64 (pa + 56)).1 32 16 == 0
         | _ => false)
       | none => false) = true := by decide +kernel

/-- A closure image at 0x50000 whose entry is at 32 MiB. -/
def withClosure (m : Mach) : Mach := { m with mem := m.mem.setWord64 0x50000 0x2000000 }

/-- What f says of the closure that the front end reads. -/
def closureIs (p : Pk) (m : Mach) (f : Image → Mach → Bool) : Bool := match m.engineSpot feDie p.ctx (p.word 4).toNat .load (fun _ _ => true) with
  | (.found e x, m) => (match m.spotRead (queueAgent p.q) p.ctx 128 e x with
    | (.data d, m) => (closureCode (imageOf d)).isNone && f (imageOf d) m
    | _ => false)
  | _ => false

/-- LAUNCH_ROOT; LAUNCH_TILE of 2 × 1 × 1 tiles, and of none whose sizes are in memory; LAUNCH_COMPLETE with and without a signal. -/
theorem witness_launches :
    starts (packetAt (packet 2 [0x50000, 0]) id withClosure) 2 (fun p m => closureIs p m fun img m => match p.c.dies[(p.word 5).toNat]?, p.c.freeLaunch with
      | some die, some n => p.c.permits (launchEntry img m.xclk n none) die && !m.inboxFull die p.ctx
      | _, _ => false) = true ∧
    starts (packetAt (packet 3 [0x50000, 1, 0]) id fun m => withClosure { m with logCores := 2 }) 3 (fun p m => closureIs p m fun _ m =>
      p.c.freeLaunch.isSome && fieldOf (p.word 6) 48 1 == 0 && (m.placementCores p.c).all fun k => m.dequeRoom k p.ctx) = true ∧
    starts (packetAt (packet 3 [0x50000, 0, 2 ^ 48, 0x60000]) id withClosure) 3 (fun p m => closureIs p m fun _ m =>
      p.c.freeLaunch.isSome && fieldOf (p.word 6) 48 1 == 1 && match m.engineSpot feDie p.ctx (p.word 7).toNat .load (fun _ _ => true) with
        | (.found e x, m) => (match m.spotRead (queueAgent p.q) p.ctx 8 e x with
          | (.data d, _) => d == (0, 0)
          | _ => false)
        | _ => false) = true ∧
    ([0, 0x30000].all fun a => let s := packetAt [] id fun m => m.modCtx 1 fun c => { c with launches := [(5, ⟨3, 0, 0x50000, BitVec.ofNat 64 a, none, 0⟩)] }
     s.live && inCtx s fun c => (tabGet c.launches 5).any fun l => l.isOver && l.csig == BitVec.ofNat 64 a &&
       match ({ s.m with logCores := 1 }.launchWriteback c).engineSpot feDie 1 a .store acceptUpdate with
         | (.found _ _, _) => true
         | _ => false) = true := by decide +kernel

/-- A device of number 0 in group 2 with device 5, of context 1. -/
def grouped (m : Mach) : Mach := { m with groups := [(2, [1, 0, 2, 0, 0, 5])] }

/-- A COLLECTIVE of s32 sums: source at 0x40000, destination at 0x50000, 8 elements. -/
def collWord : Nat := 2 ^ 40 * 2 + 2 ^ 11 * (tyCode .s32).toNat
def collAt (g : Mach → Mach) : State := packetAt (packet 9 [collWord, 0x40000, 0x50000, 8]) id fun m => g (grouped m)

/-- The same once it has started, with the parameters of both ranks. -/
def collRuns (sent ended : Bool) : State :=
  let w := [BitVec.ofNat 64 collWord, 8]
  let all := [(0, 0, List.replicate 32 (0, false)), (1, 0, List.replicate 32 (0, false)), (2, 0, [])]
  let c : Collective := ⟨2, 0, some (3, 0), 1, w, [(0x40000, 32)], [(0x50000, 32)], [(0, w), (1, w)], if sent then all else [], none, ended⟩
  packetAt [] (fun h => { h with started := 1, active := [⟨0, (packet 9 [collWord, 0x40000, 0x50000, 8]).map (BitVec.ofNat 64), none, none, some (2 ^ 16 * 2)⟩] })
    fun m => { grouped m with collectives := [c] }

/-- COLLECTIVE that starts, sends, finishes and completes. -/
theorem witness_collectives :
    starts (collAt id) 9 (fun p m => !collReserved (p.word 4) (p.word 7) && (p.word 5).toNat % 32 == 0 && (p.word 6).toNat % 32 == 0 &&
      ((collAt id).m.collectives.isEmpty) && (m.group (collGroup (p.word 4))).any (fun g => g.ctx == p.ctx && g.world == p.c.world && collRoot (p.word 4) < g.devs.length &&
        (pageCuts 0x40000 (collBlock (p.word 4) (p.word 7) * collSources (p.word 4) g.devs.length g.rank)).length == 1 &&
        (pageCuts 0x50000 (collBlock (p.word 4) (p.word 7) * collDests (p.word 4) g.devs.length)).length == 1) &&
      found m p 5 .load (fun r attr => r == .loc && attr == 0) true && found m p 6 .store (fun r attr => r == .loc && attr == 0) true) = true ∧
    ([false, true].all fun b => let s := collRuns b false
     s.live && match s.m.coll 2 0, s.m.group 2, s.m.queue 3 with
       | some c, some g, some h => h.active.all (fun a => a.collective == some (2 ^ 16 * 2)) && c.packet == some (3, 0) && c.cseq < 2 ^ 16 && !c.ended && c.aborted.isNone && !s.m.collLate c && (b || s.m.collTurn c) &&
         c.params.all (fun y => y.2 == c.words) && s.m.collectives.length == 1 && c.sent g == b &&
         (if b then (c.result g).all (·.isSome) else (List.range g.devs.length).all fun r => c.params.any fun y => y.1 == r)
       | _, _, _ => false) = true ∧
    (let s := collRuns true true
     (s.m.inProgress 3 (fun a => a.type == 9 && a.collective.any fun k => (s.m.coll (k / 2 ^ 16) (k % 2 ^ 16)).all (·.ended))).isSome) = true := by decide +kernel

/-- PORTAL_DMWR that is taken, that finds the queue full, and that is refused; writes of the registers of a context that is not resident. -/
theorem witness_portals :
    (let s := packetAt [] id id; s.live && (s.m.queue 3).any fun h => h.enabled && !h.faulted && !h.world && h.accepted - h.started < h.size) = true ∧
    (let s := packetAt [] (fun h => { h with accepted := 16 }) id; (s.m.queue 3).any fun h => h.enabled && !h.faulted && !h.world && h.size ≤ h.accepted - h.started) = true ∧
    ((packetAt [] id id).fw.state ≠ .failed ∧ (packetAt [] id id).m.queue 4 = none ∧ ((packetAt [] id id).m.ctx 2).isNone = true) := by decide +kernel

/-! ### Events of frames -/

/-- A frame of device 5, and a device whose first granule is exported to normal frames. -/
def frameOf (opc : BitVec 8) (addr oparg : Nat) (payload : List Byte) : Frame :=
  { blankFrame opc 0 addr false with src := 5, oparg := BitVec.ofNat 64 oparg, payload := payload }
def exporting (g : Mach → Mach) : State := onCore id fun m => g { m with exports := [(false, 0)] }

/-- The conditions of Arrives, of Asks and of Admitted. -/
def arrives (s : State) (f : Frame) : Bool := s.live && f.dst == s.m.xdev && f.seq == (s.m.stream f.world (decide (0x80 ≤ f.opc)) f.src.toNat).received
def asks (s : State) (f : Frame) : Bool := arrives s f && s.fw.state != .failed
def admitted (s : State) (f : Frame) : Bool :=
  asks s f && (frameGranules f).all fun g => s.m.exports.contains (f.world, g) && (f.world || !s.m.carveOuts.contains g)

/-- The conditions of AsksAt. -/
def asksAt (s : State) (home : Nat) (f : Frame) : Bool := asks s f && (home != s.m.xdev.toNat || admitted s f)

/-- An acquire that meets a record of a scope below `.fab`. -/
def refusing (m : Mach) : Mach := m.setRecord 0x3000 ⟨true, 5, 0, .dev⟩
def refused (m : Mach) (f : Frame) : Bool := acquires (ordOf f.ord) (scopeOf f.scope) && (tabGet m.record (f.addr.toNat / 128)).any fun r => scopeNat r.scope < 4

/-- WRITE, READ and ATOMIC frames: plain, refused by a record, and at a sealed sector. -/
theorem witness_frame_accesses :
    ([1, 2, 3].all fun k => let f := frameOf k 0x3000 (if k == 2 then 8 else 2 ^ 19) []; admitted (exporting id) f && !refused (exporting id).m f &&
      !(exporting id).m.sealed 0x3000) = true ∧
    ([1, 2].all fun k => let f := { frameOf k 0x3000 (if k == 2 then 8 else 2 ^ 19) [] with ord := 1, scope := scopeCode .fab }
      admitted (exporting refusing) f && refused ((exporting refusing).m.noteFrame f) f && !((exporting refusing).m.noteFrame f).sealed 0x3000) = true ∧
    ([1, 3].all fun k => let s := exporting fun m => { m with seals := [(8, ⟨1, 0x3000, 128, [(0x3000, 128)], 0⟩)] }
      let f := frameOf k 0x3000 (2 ^ 19) []; admitted s f && (s.m.noteFrame f).sealed 0x3000) = true ∧
    ([0, 2 ^ 4, 2 ^ 16].all fun o => let f := frameOf 3 0x3000 (o + 2 ^ 24) []; admitted (exporting id) f && (futureOfFrame f).isSome == (o == 2 ^ 16) &&
      f.oparg.getLsbD 4 == (o == 2 ^ 4)) = true := by decide +kernel

/-- WAITREG that holds, that does not, and that holds later; a queue that another device pushes to, asks and flushes; the checks of R379 and a duplicate. -/
theorem witness_frame_objects :
    ([0, 1].all fun v => let s := exporting fun m => { m with mem := m.mem.setWord64 0x3000 (BitVec.ofNat 64 v) }
      let f := frameOf 5 0x3000 1 []
      admitted s f && s.m.remoteWaits.isEmpty && ((s.m.noteFrame f).remoteHolds f).1 == (v == 0)) = true ∧
    (let f := frameOf 5 0x3000 1 []; let s := exporting fun m => { m with remoteWaits := [⟨f, none⟩] }
     s.live && s.fw.state != .failed && s.m.remoteWaits.any fun x => x.frame == f && (s.m.seeRemote x).got == some (0, 0)) = true ∧
    (let s := exporting fun m => { m with spawnqs := (queued 0).m.spawnqs, mem := (queued 0).m.mem, exports := m.exports }
     let f := frameOf 4 0x40000 0 []
     admitted s f && (match tabGet s.m.spawnqs 0x40000 with
       | some x => !s.m.mem.anyPoison 0x40000 64 && !badCfg (QDesc.of s.m.mem 0x40000).cfg && (QDesc.of s.m.mem 0x40000).enabled &&
           (QDesc.of s.m.mem 0x40000).rsz == fieldOf f.oparg 16 2 &&
           (s.m.ringPages x.die x.ctx (pageStarts (QDesc.of s.m.mem 0x40000).base ((QDesc.of s.m.mem 0x40000).cap * (QDesc.of s.m.mem 0x40000).size))).1 == some true
       | none => false) && [0, 5].all fun k => admitted s (frameOf 6 0x40000 k []) && fieldOf (frameOf 6 0x40000 k []).oparg 0 3 ≤ 5) = true ∧
    (let s := exporting fun m => { m with spawnqs := (queued 0).m.spawnqs, mem := (queued 0).m.mem.poisonSector (0x40000 / 32), exports := m.exports }
     admitted s (frameOf 4 0x40000 0 []) && (tabGet s.m.spawnqs 0x40000).isSome && s.m.mem.anyPoison 0x40000 64) = true ∧
    ([4, 6].all fun k => let f := frameOf k 0x40000 0 []; admitted (exporting id) f && (tabGet (exporting id).m.spawnqs 0x40000).isNone) = true ∧
    (let f := frameOf 1 0x3000 0 []
     up.live && f.dst == up.m.xdev && f.seq == (up.m.stream false false 5).received && !up.m.exports.contains (false, 0) &&
       (let s := exporting fun m => { m with carveOuts := [0] }; f.seq == (s.m.stream false false 5).received && s.m.exports.contains (false, 0) && s.m.carveOuts.contains 0) &&
       (let r := ((exporting id).m.noteFrame f).stream false false 5; f.seq != r.received && (r.received - f.seq).toNat < 2 ^ 31)) = true := by decide +kernel

/-- RESP, ACK and NACK of a request that is known, and of none; a frame of an unknown type; a frame that is due to be sent again, and one that has been eight times. -/
theorem witness_answers :
    (let g := { blankFrame 1 5 0x3000 false with src := 0 }
     let s := exporting fun m => { m with requests := [(12, ⟨.free, some g, none, 1, 0, 0, none⟩)], clk := 2 ^ 20 }
     [0x80, 0x81, 0x82].all (fun k => let f := frameOf k 0 0 []; arrives s f && (s.m.noteFrame f).requestOf f == some 12 && (tabGet (s.m.noteFrame f).requests 12).isSome &&
       arrives up f && ((up.m.noteFrame f).requestOf f).isNone) &&
     (tabGet s.m.requests 12).any (fun r => r.frame.isSome && r.answer.isNone && r.since + 2 ^ 20 ≤ s.m.clk && r.resends < 8)) = true ∧
    (arrives up (frameOf 0x77 0 0 []) = true) := by decide +kernel

/-- A device that is home to no page it caches but this one, at 64 KiB, of device 5, held at the frame of 0x20000. -/
def caching (g : Page → Page) (h : Mach → Mach) : State := exporting fun m =>
  h { (m.modCtx 1 fun c => { c with translation := [0, 0, 0, 0, 0x20000, 1, 0, 0] }) with
      pages := [g { Page.blank 0 5 0x10000 false with frame := some 0x20000 }] }

/-- What f says of that page. -/
def pageIs (s : State) (home : Nat) (f : Page → Bool) : Bool := f (s.m.page home 0x10000 false)

/-- REPL_REQ, OWN_REQ; INVAL at the home and at a holder; FETCH of a page owned and of one no longer; PAGE_DATA of a page without a frame, of its first part and of its
last, also at its home; GRANT. -/
theorem witness_frame_pages :
    ([0x10, 0x11].all fun k => admitted (exporting id) (frameOf k 0x10000 2 [])) = true ∧
    ([0, 5].all fun h => let f := frameOf 0x12 0x10000 h []; let s := caching id id
      asksAt s h f && fieldOf f.oparg 0 12 == h && s.m.xdev.toNat == 0 && f.src.toNat != 0 && pageIs s h fun p => h == 0 || !p.owned) = true ∧
    ([false, true].all fun b => let f := frameOf 0x13 0x10000 0 []; let s := caching (fun p => { p with owned := b }) id
      asks s f && pageIs s 5 fun p => p.owned == b && (b || !s.m.returning p)) = true ∧
    (let f := frameOf 0x14 0x10000 5 []; asksAt (exporting id) 5 f && pageIs (exporting id) 5 fun p => p.frame.isNone) = true ∧
    ([0, 15].all fun n => let f := frameOf 0x14 0x10000 5 []; let s := caching (fun p => { p with parts := (List.range n).map (· + 1) }) id
      asksAt s 5 f && pageIs s 5 fun p => p.frame.isSome && (insertNat p.parts 0).length == n + 1) = true ∧
    ([[], [3]].all fun l => let f := frameOf 0x14 0x10000 (2 ^ 12) []
     let s := exporting fun m => { m with pages := [{ Page.blank 0 0 0x10000 false with frame := some 0x10000, parts := (List.range 15).map (· + 1), replicas := l }] }
     asksAt s 0 f && f.oparg.getLsbD 12 && pageIs s 0 fun p => p.frame.isSome && p.serving.isNone && p.replicas == l && (insertNat p.parts 0).length == 16) = true ∧
    asks (caching id id) (frameOf 0x15 0x10000 0 []) = true := by decide +kernel

/-- FPC_EVICTION of a page owned and of a replica; ORD_WRITE; ORD_UPDATE that is next, that is late, and to a page without a frame; LOOSE_UPDATE. -/
theorem witness_frame_updates :
    ([false, true].all fun b => let s := caching (fun p => { p with owned := b, valid := true }) fun m => { m with wanted := [1] }
      s.live && inCtx s fun c => s.m.wanted.contains 1 && (s.m.freeFrame 1).isNone && c.pageCache == (0x20000, 1) && pageIs s 5 fun p =>
        p.owned == b && p.valid && p.asked.isNone && p.frame == some 0x20000 && s.m.pages == [p] && p.home != s.m.xdev.toNat) = true ∧
    admitted (exporting id) (frameOf 0x18 0x10000 (2 ^ 18) []) = true ∧
    ([0, 1].all fun k => let f := frameOf 0x19 0x10000 (2 ^ 34) []; let s := caching (fun p => { p with valid := true, applied := k }) id
      asks s f && fieldOf f.oparg 0 32 == 0 && pageIs s 5 fun p => p.frame.isSome && p.valid && p.applied == k) = true ∧
    (let f := frameOf 0x1A 0x10000 (2 ^ 18 + 5 * 2 ^ 48) []; asksAt (caching id id) 5 f && (pageIs (caching id id) 5 fun p => p.frame.isSome) &&
      asksAt (exporting id) 5 f && (pageIs (exporting id) 5 fun p => p.frame.isNone)) = true ∧
    (let f := frameOf 0x1A 0x10000 (2 ^ 18) []
     let s := exporting fun m => { m with pages := [{ Page.blank 0 0 0x10000 false with replicas := [3, 5] }] }
     asksAt s 0 f && pageIs s 0 fun p => p.home == s.m.xdev.toNat && p.replicas.filter (· != f.src.toNat) == [3] && f.pmask == 0) = true := by decide +kernel

/-- COLL_PARAM of a rank and its abort; COLL_DATA; COLLECTIVE_END_EARLY of a collective that another rank has ended. -/
theorem witness_frame_collectives :
    ([0, 2 ^ 24, 2 ^ 25 + 2 ^ 24].all fun o => let s := exporting grouped; let f := frameOf 0x20 0 (o + 2) []
      asks s f && ((s.m.noteFrame f).group 2).any (fun g => g.world == f.world && g.devs.contains f.src.toNat) && ((s.m.noteFrame f).coll 2 0).isNone && f.oparg.getLsbD 24 == (o != 0)) = true ∧
    (let s := exporting grouped; let f := { frameOf 0x20 0 2 [] with src := 6 }
     asks s f && ((s.m.noteFrame f).group 2).any fun g => !g.devs.contains f.src.toNat) = true ∧
    (let s := collRuns false false; let f := frameOf 0x21 0 (2 + 32 * 2 ^ 24) []
     asks s f && ((s.m.noteFrame f).group 2).any (fun g => g.world == f.world && g.devs.contains f.src.toNat) && ((s.m.noteFrame f).coll 2 0).any fun e => !e.ended) = true ∧
    (let s := { collRuns false false with m := { (collRuns false false).m with collectives := (collRuns false false).m.collectives.map fun (c : Collective) => { c with aborted := some 9 } } }
     s.live && match s.m.coll 2 0, s.m.group 2 with
       | some c, some g => !c.ended && c.packet.isSome && c.aborted.isSome && !c.sent g
       | _, _ => false) = true := by decide +kernel

/-! ### Events of ageing, power and firmware -/

/-- The device with its firmware's state changed. -/
def firm (f : Firm → Firm) : State := { up with fw := f up.fw, m := { up.m with logCores := 72 } }
def marked (d margin : Nat) (fw : Firm) : Firm := fw.modWear d fun w => { w with marked := true, margin := margin }

/-- ALMANAC_SAMPLE of records in order; CORE_SPARE on a die in use and on a free one; STEP_DOWN before and after the contexts have left; CHANNEL_SPARE; DOMAIN_STOP of a core
and of another domain; DEVICE_FAIL; THERMAL_TRIP. -/
theorem witness_ageing :
    ((firm (marked 5 10)).live && numsAbove none ((firm (marked 5 10)).fw.wear.map (·.1)) && validDomain 5) = true ∧
    ([0, 1].all fun d => let s := firm (marked (256 * d + 5) 10)
     s.live && s.fw.updating == 0 && s.fw.legalCores == some s.m.logCores && !(s.fw.wearOf (256 * d + 5)).healthy && s.fw.logicalOf s.m.logCores d 5 == some 5 &&
       (s.fw.spareCore s.m.logCores d).isSome && (s.m.ctxOn d).isSome == (d == 0) && inCtx s fun c => !c.repair) = true ∧
    ([true, false].all fun b => let s := firm fun fw => [0, 1, 2, 3, 4].foldl (fun (fw : Firm) d => marked d 10 fw) fw
     let t : State := { s with m := s.m.modCtx 1 fun c => { c with resident := b, dies := if b then [0] else [] } }
     t.live && t.stepDue && t.fw.legalCores == some 68 && t.m.ctxs.all (fun y => y.2.launches == []) && t.m.ctxs.all fun y => y.2.resident == b && !y.2.repair) = true ∧
    (let d := domainNo 3 0 7; let s := firm (marked d 10)
     s.live && validDomain d && domKind d == 3 && (s.fw.wearOf d).marked && !(s.fw.wearOf d).retired && (s.fw.servesChannel d).isSome && (s.fw.spareChannel d).isSome) = true ∧
    ([domainNo 0 0 5, domainNo 0 0 75, domainNo 1 0 2].all fun d => let s := firm (marked d 3)
     s.live && validDomain d && (s.fw.wearOf d).marked && !(s.fw.wearOf d).retired && !(s.fw.wearOf d).stopped && (s.fw.wearOf d).margin < 4 &&
       (s.enabled d == (d != domainNo 0 0 75)) && inCtx s fun c => s.m.ctxOn 0 == some 1 && !c.faulted) = true := by decide +kernel

/-- DEVICE_FAIL of a die with 63 healthy cores; THERMAL_TRIP at the lowest cap. -/
theorem witness_failures :
    (let s := firm fun fw => (List.range 13).foldl (fun (fw : Firm) d => marked d 10 fw) fw; s.live && s.fw.healthOf 0 < 64 && s.fw.state == .normal) = true ∧
    (let s := firm fun fw => { fw with cap := 8 }; s.live && s.fw.cap == 8) = true := by decide +kernel

/-- A device with a standby, in step n of a live update, whose firmware has missed its heartbeats. -/
def updating (n : Nat) : State :=
  let s := firm fun fw => { fw with standby := true, updating := n }
  { s with m := { s.m with clk := 2 ^ 26 } }

/-- HEARTBEAT_MISS and the live update in each step; the mailbox and attestation outside BOOT. -/
theorem witness_firmware :
    ([0, 1, 2, 3].all fun n => let s := updating n
     s.live && s.fw.state != .boot && s.fw.standby && s.fw.updating == n && s.fw.heartbeat + 2 ^ 26 ≤ s.m.clk && s.fw.version ≤ 0 &&
       s.fw.standbyImage.lo ≤ s.fw.table.1 && s.fw.table.1 ≤ s.fw.standbyImage.hi) = true ∧
    ((firm fun fw => { fw with version := 2 }).fw.version = 2) ∧ Mail.readLog ≠ .readRegister .devstat ∧
    (firm fun fw => { fw with state := .boot }).live = true := by decide +kernel

/-- COLD_RESET of an unpowered device and of one in BOOT; WARM_RESET of one that runs; MODULE_UNPOWERED; CONFIGURATION_REQUEST in and after BOOT. -/
theorem witness_resets :
    ((firm fun fw => { fw with powered := false }).fw.powered = false) ∧
    (let s := firm fun fw => { fw with state := .boot }; s.fw.powered && s.live && s.fw.state == .boot && !s.fw.tripped && s.fw.legalCores == some 72) = true ∧
    (let s := firm fun fw => (List.range 13).foldl (fun (fw : Firm) d => marked d 10 fw) { fw with state := .boot }; s.fw.powered && s.fw.legalCores == none) = true ∧
    (up.fw.powered && up.fw.state != .boot && up.m.mem.wf && up.live) = true := by decide +kernel

/-! ### Short rules, frames of instructions, memory as a core sees it, steps and encodings -/

/-- MRSV, MREL, SIGRD and SLI issue, and one of them with a field that must be zero does not. -/
theorem witness_idle : allIssue [.mrsv { fc 0 with pa := 1 }, .mrel (fc 0), .sigrd { fs .b64 with a := 0, b := 0, sub := 1 }, .sli { fx .b64 7 with a := 0 }] = true ∧
    ([Instr.nop (fc 3), .mrsv { fc 0 with reg := 1 }, .mrel { fc 0 with jn := 1 }].all fun i => !issues i) = true := by decide +kernel

/-- JDROP of a join that is valid, that is not, and that is occupied. -/
theorem witness_jdrop :
    ([Join.mk false true 3 [] 64 false, Join.mk false false 0 [] 0 false, Join.mk true true 3 [] 64 false].all fun j =>
      let i := Instr.jdrop { fc 0 with jn := 1 }
      issuesWith (readyWith i (fun t => t.modJoin 1 fun _ => j) id) i fun p => (p.t.join 1) == j) = true := by decide +kernel

/-- An instruction that issues and goes on to a next state. -/
def goesOn (s : State) (i : Instr) : Bool := (s.issuer i).isSome && match exec i s with
  | .next _ => true
  | _ => false

/-- One instruction of each form whose frame is stated. -/
theorem witness_register_frames : ([.sadd (fs .s32), .sigrd { fs .b64 with a := 0, b := 0 }, .sli { fx .b64 7 with a := 0 }, .srd { vi .b64 7 with a := 0 },
    .pgets { vi .b8 0 with a := 2 }, .vadd (v3 .s64), .vmadw (v3c .s32), .fadd (v3 .f32), .vbfe (vi .z32 0x800), .shfl { vi .b32 0x500 with sub := 1 },
    .vli { fx .b32 7 with d := 2 }, .scan (v1 .s32), .vcmp { v3 .s32 with d := 1 }, .psetsImm { vi .b8 1 with a := 0, sub := 1 }, .redx (v1 .s32), .nop (fc 0)].all fun i =>
      goesOn (ready i) i) = true := by decide +kernel

/-- The task has no FENCE window, and the sectors of its core are whole. -/
def ownSector (s : State) : Bool := (s.m.task 1).any (fun t => t.window.isNone && t.core == 0) && (s.m.core 0).l1.all fun x => x.2.data.length == 32

/-- LD, ST and STS of local memory reach it, and go on to a next state; so do the blocks. -/
theorem witness_access_frames :
    ([.ld (fl .b32), .st (fm .b32), .sts (fm .b32), .qld { fl .b128 with ak := true, dk := true }, .qst { fm .b128 with ak := true, dk := true }].all fun i =>
      let s := addressed i 64; goesOn s i && ownSector s) = true := by decide +kernel

/-- A core that holds a whole dirty sector, in a memory in canonical form. -/
theorem witness_sectors :
    (let m := (onCore (fun k => { k with l1 := [(3, ⟨.dirty 0, List.replicate 32 0, 0⟩)] }) id).m
     m.mem.wf && (m.core 0).l1.all (fun x => x.2.data.length == 32) && (m.l1 0 96).isSome && 96 % 32 + 8 ≤ 32) = true := by decide +kernel

/-- The first grant's split, at an instruction and at a reserved opcode; a grant whose task is gone; an event chosen outside; the end of a cycle. -/
theorem witness_steps :
    ([0x01C0000000FFFFFF, 0xFF00000000000000].all fun w => let s := up.placeInstr w 0
     match s.grants with
       | (tid, e) :: _ => (match s.m.task tid with
         | some t => t.live && (match t.split e with
           | some x => !x.held && x.wait.isNone && (match x.pa with
             | some pa => (extract (BitVec.ofNat 64 (ofBytes (s.m.mem.bytes (pa + 8 * x.slot) 8))) 0).isSome == (w != 0xFF00000000000000)
             | none => false)
           | none => false)
         | none => false)
       | [] => false) = true ∧
    (up.m.task 7).isNone = true ∧ up.grants = [] ∧ up.sched = [] ∧ up.live = true := by decide +kernel

/-- Instructions of each format that are well formed. -/
theorem witness_encodings : ([.bra (fc 2), .sadd (fs .s32), .vadd (v3 .s32), .vbfe (vi .z32 0x800), .ld (fl .b32), .sli { fx .b64 7 with a := 0 }].all fun i =>
    (view i).isSome && WellFormed i) = true := by decide +kernel

/-- The invariant of the firmware's state at reset, and at a state with a step. -/
theorem witness_firmware_invariant : (numsAbove none (State.reset.fw.wear.map (·.1)) = true ∧ State.reset.fw.cap ≤ 8 ∧ State.reset.fw.updating = 0 ∧
    State.reset.fw.tripped = false ∧ State.reset.fw.mails = [] ∧ State.reset.fw.state = .boot) ∧
    (up.fw.cap ≤ 8 ∧ up.fw.wear = [] ∧ up.fw.updating = 0 ∧ up.fw.tripped = false ∧ up.fw.mails = [] ∧ up.fw.powered = true) ∧
    goesOn (ready (.nop (fc 0))) (.nop (fc 0)) = true := by decide +kernel

/-- A marked domain of a MARGIN below 4 and one of 4. -/
theorem witness_marked : ([3, 4].all fun n => let s := firm (marked 5 n)
    s.live && validDomain 5 && (s.fw.wearOf 5).marked && !(s.fw.wearOf 5).retired && !(s.fw.wearOf 5).stopped && (s.fw.wearOf 5).margin == n) = true := by
  decide +kernel

/-- An instruction whose guard is false in some lanes, in a split of some lanes. -/
theorem witness_lanes :
    (let i := Instr.vadd { v3 .s32 with g := ⟨1, false⟩ }
     let s := readyWith i (fun t => (t.writeP 1 0xFFFFFFFF ⟨0xF0, 0⟩).setSplit 0 ((t.split 0).map fun x => { x with xact := 0x3C, pxact := 0x3C })) id
     goesOn s i && issuesWith s i fun p => p.k == 0x30) = true := by decide +kernel

/-! ### Words, ill-formed terms, and steps with the values that the spec gives -/

/-- Words that decode to an instruction. -/
def decodesTo (ws : List Word) (i : Instr) : Bool := match decodeWords ws with
  | .ok j => j == i
  | .error _ => false

/-- Words of the fork and join example: BRP, JSET, JWAIT, PSETS and EXIT with a guard (R236 and its worked case). -/
theorem test_words_control :
    decodesTo [0x02C0800000000003] (.brp { fc 3 with pa := 1 }) ∧
    decodesTo [0x02C1000001000003] (.brp { fc 0x1000003 with pa := 2 }) ∧
    decodesTo [0x08C0000800000006] (.jset { fc 6 with kr := .imm }) ∧
    decodesTo [0x09C0000000000000] (.jwait (fc 0)) ∧
    decodesTo [0x67C0181A00000000] (.psets { vi .b8 0 with d := 3, a := 3, ka := .uni }) ∧
    decodesTo [0x0B30000000000000] (.exit { fc 0 with g := ⟨3, false⟩ }) := by decide +kernel

/-- Words of the worked cases of chapters 3 and 4: SLI, SADD, VLI, VADD, VMOV, REDX, SCAN, BALLOT. -/
theorem test_words_arithmetic :
    decodesTo [0x11C0180003000000, 0x0000000100000000] (.sli { fx .z64 0x100000000 with d := 3, a := 0 }) ∧
    decodesTo [0x12C0408603000000] (.sadd { fs .z64 with d := 2, a := 1, b := 3 }) ∧
    decodesTo [0x29C0100000800000, 2] (.vli { fx .b32 2 with d := 2, a := 0 }) ∧
    decodesTo [0x2AC0181320010B00] (.vadd { v3 .z32 with d := 3, a := 2, b := 100, kb := .imm }) ∧
    decodesTo [0x2810100800040200] (.vmov { v1 .b32 with g := ⟨1, false⟩, a := 1, ka := .imm }) ∧
    decodesTo [0x74C0281000000B00] (.redx { v1 .z32 with d := 5, a := 2 }) ∧
    decodesTo [0x75C0181000000B08] (.scan { v1 .z32 with d := 3, a := 2, sub := 8 }) ∧
    decodesTo [0x72C0200800000000] (.ballot { v1 .b8 with d := 4, a := 1 }) := by decide +kernel

/-- Words of memory, barriers, traps and special registers: LD (R96), BARX (R213), SWR and TRET (R414). -/
theorem test_words_system :
    decodesTo [0x80C0080006B01002] (.ld { fl .z32 with d := 1, a := 0, ak := true, dk := true, off := 2 }) ∧
    decodesTo [0xBAC0181006300000] (.barx { fm .b64 with d := 3, a := 2, ak := true, dk := true }) ∧
    decodesTo [0x9BC000AA30000011] (.swr { vi .b64 0x11 with d := 0, a := 21, ka := .uni }) ∧
    decodesTo [0x99C0000000000000] (.tret (fc 0)) := by decide +kernel

/-- Words put together from the fields of R78, R80 and R83: FADD.f32 v2, v4, v6; VADDC; LDS with cf0; PNOT. -/
theorem test_words_built :
    decodesTo [0x48C0102030000F00] (.fadd (v3 .f32)) ∧
    decodesTo [0x82C0102000201000] (.lds (fl .b32)) ∧
    decodesTo [0x65C0081000000000] (.pnot { v1 .b8 with d := 1, a := 2 }) := by decide +kernel

/-- The reason of an instruction's encoding fault (R89). -/
def reasonOf (i : Instr) : Option Nat := (lowestFault (faults (Env.largest (twoWords i)) i)).map (·.reason)

/-- One ill-formed term for each reason of R89 that an instruction can have by itself; and events that nothing outside could send. -/
theorem test_ill_formed :
    [reasonOf (.vadd { v3 .s64 with d := 255 }), reasonOf (.sadd { fs .s32 with g := ⟨1, false⟩ }), reasonOf (.exit { fc 0 with jn := 1 }),
      reasonOf (.ld (fm .b32)), reasonOf (.vadd (v3 .f32)), reasonOf (.vadd { v3 .s64 with d := 3 }), reasonOf (.srd { vi .b64 0x15 with a := 0 }),
      reasonOf (.read (blankFrame 0x01 0 0 false)), reasonOf (.portalDmwr 0 0 [] .pf1Open)] =
    [some 0x01, some 0x03, some 0x04, some 0x08, some 0x09, some 0x0A, some 0x0C, some 0x03, some 0x03] := by decide +kernel

/-- Reasons that depend on the place of a word (R67, R68, R88): a word that straddles its clause, an ending before the last slot, and an instruction that a firmware complex lacks. -/
theorem test_misplaced :
    ((faults ⟨256, 64, 64, true, true, 7, 7, false⟩ (.sli { fx .b64 7 with a := 0 })).map (·.reason),
     (faults ⟨256, 64, 64, true, true, 1, 7, false⟩ (.exit (fc 0))).map (·.reason),
     (faults ⟨256, 64, 64, true, true, 7, 7, true⟩ (.vadd (v3 .s32))).map (·.reason)) = ([0x06], [0x07], [0x0B]) := by decide +kernel

/-- A word placed at the fetch runs as the first step after reset: SADD, and SLI with its EXT. -/
theorem test_first_step :
    ([(64, 0x12C0408603000000), (128, 0x11C0180003000000 + 2 ^ 64 * 0x100000000)].all fun r => (decodeTableWord r.1 r.2).isSome &&
      match step (State.reset.withFetchWord r.1 r.2) with
      | .next _ => true
      | _ => false) = true := by decide +kernel

/-- What f says of the issuing task after i has issued in s. -/
def after (s : State) (i : Instr) (f : State → Machine.Task → Bool) : Bool := match exec i s with
  | .next t => (t.m.task 1).any (f t)
  | _ => false

/-- The sum of the worked case of R96: s2 = 0x0000_0001_0000_0007. -/
theorem test_sadd :
    (let i := Instr.sadd { fs .z64 with d := 2, a := 1, b := 3 }
     after (readyWith i (fun t => (t.writeU 1 ⟨7, false, false⟩).writeU 3 ⟨0x100000000, false, false⟩) id) i fun _ t =>
       t.readU 0 2 == ⟨0x100000007, false, false⟩) = true := by decide +kernel

/-- The ballot of the worked case of R127: lanes 3, 4, 8, 13, 14, 18, 19, 23, 24, 28 and 29, lane 13 poisoned. -/
theorem test_ballot :
    (let i := Instr.ballot { v1 .b8 with d := 4, a := 1 }
     after (readyWith i (fun t => t.writeP 1 0xFFFFFFFF ⟨0x318C6118, 0x2000⟩) id) i fun _ t => t.readU 0 4 == ⟨0x318C6118, true, true⟩) = true := by decide +kernel

/-- The histogram of the worked case of R159: bins 2, 0, 2, 1, 2, 0, 3, 2 over 10, 20, 30 and 40. -/
theorem test_atom :
    (let i := Instr.atom { fl .z32 with d := 6, scope := .dev }
     let s := readyWith i (fun t =>
         let t := (t.writeVec 4 64 0xFF ([2, 0, 2, 1, 2, 0, 3, 2].map (fun b => (0x10000100 + 4 * b, false)) ++ List.replicate 24 (0, false))).writeVec 6 32 0xFF
           (List.replicate 32 (1, false))
         t.setSplit 0 ((t.split 0).map fun x => { x with xact := 0xFF, pxact := 0xFF }))
       (fun m => { m with mem := (m.mem.setWord64 0x10000100 (10 + 2 ^ 32 * 20)).setWord64 0x10000108 (30 + 2 ^ 32 * 40) })
     after s i fun s _ => (s.m.mem.word64 0x10000100).1 == 12 + 2 ^ 32 * 21 && (s.m.mem.word64 0x10000108).1 == 34 + 2 ^ 32 * 41) = true := by decide +kernel

/-- DEVSTAT of the worked case of R433, and the step to 68 cores with the spares that each die then has. -/
def aged : State :=
  let retire := fun (fw : Firm) (l : List (Nat × Nat)) => l.foldl (fun (fw : Firm) x => fw.modWear (256 * x.1 + x.2) fun w => { w with retired := true }) fw
  { up with fw := retire { up.fw with active := false, standby := true } [(1, 75), (3, 72), (3, 73), (3, 74), (3, 75), (5, 74), (5, 75)],
            m := { up.m with logCores := 72, ctxs := [] } }
theorem test_devstat :
    aged.devstat = 0x1400480044240434 ∧
    (let s := { aged with fw := marked (3 * 256 + 41) 19 aged.fw }
     s.fw.legalCores = some 68 ∧ (List.range 8).map (fun d => s.fw.healthOf d - 68) = [8, 7, 8, 3, 8, 6, 8, 8]) := by decide +kernel

/-- The frame of the worked case of R270: 40 vector and 16 uniform registers, one block of tiles, a team of one with 4 KiB: 43,456 bytes. -/
theorem test_frame_length :
    (let regs := (List.range 20).map fun r => (r, if r < 12 then (List.range 32).map fun l => BitVec.ofNat 32 (l * l) else (List.range 32).map fun l => BitVec.ofNat 32 l)
     let more := (List.range 8).map fun r => (20 + r, (List.range 32).map fun l => BitVec.ofNat 32 (l * l))
     ({ placedTask with vblk := 5, sblk := 2, ablk := 1, v := (regs ++ more).map fun x => (x.1, ⟨x.2, 0⟩) } : Machine.Task).frameBytes (some 4096)) = 43456 := by
  decide +kernel

/-- R314: LINK reads 0 once no task waits on the future. -/
theorem test_link_is_zero_when_no_task_waits :
    (let m := { up.m with links := [⟨128, 7, 0, none⟩], mem := up.m.mem.setWord64 152 77 }
     m.unlink.mem.word64 152 == (0, false) && m.unlink.links.isEmpty) = true := by decide +kernel

/-- R295: a store in the L1 over a sector that the core holds clean fills it from the home slice; one that it holds dirty is kept. -/
theorem test_store_over_a_clean_sector_fills_it :
    (((Mach.empty.setL1 0 0 ⟨.clean, List.replicate 32 9, 0⟩).writeL1 0 0 4 (7, 0)).readL1 0 0 8).1 = (7, 0) ∧
    (((Mach.empty.setL1 0 0 ⟨.dirty 1, List.replicate 32 9, 0⟩).writeL1 0 0 4 (7, 0)).readL1 0 0 8).1 = (0x0909090900000007, 0) := by decide +kernel

/-- The worked run of R414: the SIGCHK that finds 0x1234_ABCF enters the handler with xsig 0, counts one SIGMIS and writes one record; TRET then enters the retry copy at slot 1. -/
theorem test_sigchk_retry :
    (let i := Instr.sigchk (fc 0x1234ABCD)
     after (inContext i (fun t => ({ t with xhnd := 0xA00000 } : Machine.Task).setSplit 0 ((t.split 0).map fun x => { x with xsig := 0x1234ABCF })) id) i fun s t =>
       [t.xcause, t.xsyn, t.xaddr, (s.m.mem.word64 40).1] == [9, 0x1234ABCF00000001, 0, 1] && s.m.posted.length == 1 &&
         ((t.split 0).any fun x => x.xsig == 0 && x.clause == 0xA00000)) = true := by decide +kernel

/-- R424: W reaching its limit and a trap in one cycle: nothing is delivered. -/
theorem test_stop_wins_over_a_trap :
    (let i := Instr.trap (fc 5)
     after (inContext i (fun t => { t with wdog := 2 ^ 34 - 1, progressed := false }) id) i fun s t =>
       [t.xcause] == [0] && t.ending.isNone && s.m.posted.isEmpty && s.m.timesOut t && !s.m.timedOut t) = true := by decide +kernel

theorem test_epc_of_the_worked_run : epcOf 0xB00200 3 = 0xB00218 := by decide +kernel

/-- The address of the worked case of R286. -/
theorem test_home : homeDie 0x2000001F80 = 1 ∧ homeSlice 0x2000001F80 = 30 := by decide +kernel

/-- The header of the worked case of R400. -/
theorem test_header :
    (let f : Frame := ⟨4, 1, false, 4, 2, 4, 0x40000080, 0x40010, 0, 2, 0, List.replicate 256 0⟩
     (wireHeader f).map BitVec.toNat = [0x0800400100004204, 0x40000080, 0x40010, 2, 0, 0] ∧ wireFrame (wireHeader f) f.payload = f) := by decide +kernel

end Sys2Proof.Tests
end

section
/-! PROOFS. The state after reset (R4, R40, R426, R427, R441). -/

namespace Sys2Proof.Machine

/-- A memory that lists no cell reads 0 everywhere (DESIGN CHOICE, log 2). -/
theorem Memory.byte_of_cells_nil {m : Memory} (h : m.cells = []) (a : Nat) : m.byte a = 0 := by
  simp [Memory.byte, h, cellGet, Memory.unlisted]

theorem Memory.poisoned_of_poi_nil {m : Memory} (h : m.poi = []) (a : Nat) : m.poisoned a = false := by
  simp [Memory.poisoned, h]

/-- With no core spared, a logical core is the physical core of its number (R4). -/
theorem Firm.physOf_of_sparing_nil {fw : Firm} (h : fw.sparing = []) (die l : Nat) : fw.physOf die l = l := by
  simp [Firm.physOf, h, tabGetD, tabGet]

/-- Firmware in which nothing is worn, the clocks run uncapped and no live update is under way keeps the invariant if it holds no request and
BOOT stands while there is no power. -/
theorem Firm.inv_of_unworn {fw : Firm} (wear : fw.wear = []) (cap : fw.cap = 0) (tripped : fw.tripped = false) (updating : fw.updating = 0)
    (mails : fw.mails = []) (boot : fw.powered = false → fw.state = .boot) : fw.Inv := by
  refine ⟨?rising, ?marked, ?capped, ?trip, ?phase, ?standby, fun _ => mails, boot⟩
  case rising => rw [wear]; rfl
  case marked => simp [wear]
  case capped => omega
  case trip => simp [tripped]
  case phase => omega
  case standby => exact fun h => absurd updating h

/-- The firmware of a part as shipped meets the invariant (R426 to R428). -/
theorem Firm.shipped_inv : Firm.shipped.Inv :=
  Firm.inv_of_unworn rfl rfl rfl rfl rfl fun _ => rfl

/-- Settles O58: the firmware is the shipped one and the machine the empty one; unlisted memory reads 0, unpoisoned, and an empty sparing map is
the identity. -/
theorem resetState : Obligations.ResetState := by
  unfold Obligations.ResetState
  have memory (a : Nat) : State.reset.m.mem.byte a = 0 ∧ State.reset.m.mem.poisoned a = false :=
    ⟨Memory.byte_of_cells_nil rfl a, Memory.poisoned_of_poi_nil rfl a⟩
  have identity (die l : Nat) : State.reset.fw.physOf die l = l := Firm.physOf_of_sparing_nil rfl die l
  exact ⟨Firm.shipped_inv, reset_mem_wf, memory, rfl, rfl, rfl, rfl, rfl, rfl, rfl, rfl, rfl, rfl, rfl, identity, rfl⟩

end Sys2Proof.Machine
end

section
/-! PROOFS. Decoding and encoding agree (R75 to R83): packing undoes unpacking, each row of the opcode map reads the instruction of its opcode (R87), and bytes are read as the words
that they were written from (R11). -/

namespace Sys2Proof.Laws

open Machine

/-! ### Packing the fields that a word holds gives the word -/

theorem ofBool_getLsbD {n : Nat} (x : BitVec n) (a : Nat) : BitVec.ofBool (x.getLsbD a) = x.extractLsb' a 1 := by
  ext i hi
  obtain rfl : i = 0 := by omega
  simp

theorem kindCode_kindOf (b : BitVec 2) : kindCode (kindOf b) = b := by decide +revert
theorem flagCode_flagOf (b : BitVec 2) : flagCode (flagOf b) = b := by decide +revert
theorem rndCode_rndOf (b : BitVec 3) : rndCode (rndOf b) = b := by decide +revert
theorem ordCode_ordOf (b : BitVec 3) : ordCode (ordOf b) = b := by decide +revert
theorem scopeCode_scopeOf (b : BitVec 3) : scopeCode (scopeOf b) = b := by decide +revert
theorem tyCode_tyOf (b : BitVec 5) : tyCode (tyOf b) = b := by decide +revert

theorem guardBits_guardOf (w : Word) : guardBits (guardOf w) = w.extractLsb' 51 5 := by
  simp only [guardBits, guardOf, ofBool_getLsbD, BitVec.extractLsb'_append_extractLsb'_eq_extractLsb']

/-- R78. -/
theorem packV3_unpackV3 (w : Word) : packV3 (opOf w) (unpackV3 w) = w := by
  simp only [packV3, unpackV3, opOf, guardBits_guardOf, kindCode_kindOf, tyCode_tyOf, rndCode_rndOf, ofBool_getLsbD,
    BitVec.extractLsb'_append_extractLsb'_eq_extractLsb']
  exact BitVec.extractLsb'_eq_self

/-- R79. -/
theorem packVI_unpackVI (w : Word) : packVI (opOf w) (unpackVI w) = w := by
  simp only [packVI, unpackVI, opOf, guardBits_guardOf, kindCode_kindOf, tyCode_tyOf, rndCode_rndOf, ofBool_getLsbD,
    BitVec.extractLsb'_append_extractLsb'_eq_extractLsb']
  exact BitVec.extractLsb'_eq_self

/-- R80. -/
theorem packS_unpackS (w : Word) : packS (opOf w) (unpackS w) = w := by
  simp only [packS, unpackS, opOf, guardBits_guardOf, tyCode_tyOf, ofBool_getLsbD, BitVec.extractLsb'_append_extractLsb'_eq_extractLsb']
  exact BitVec.extractLsb'_eq_self

/-- R81. -/
theorem packM_unpackM (w : Word) : packM (opOf w) (unpackM w) = w := by
  simp only [packM, unpackM, opOf, guardBits_guardOf, tyCode_tyOf, ordCode_ordOf, scopeCode_scopeOf, flagCode_flagOf, ofBool_getLsbD,
    BitVec.extractLsb'_append_extractLsb'_eq_extractLsb']
  exact BitVec.extractLsb'_eq_self

/-- R82. -/
theorem packC_unpackC (w : Word) : packC (opOf w) (unpackC w) = w := by
  simp only [packC, unpackC, opOf, guardBits_guardOf, kindCode_kindOf, BitVec.extractLsb'_append_extractLsb'_eq_extractLsb']
  exact BitVec.extractLsb'_eq_self

/-- R83. -/
theorem packX_unpackX (w ext : Word) : packX (opOf w) (unpackX w ext) = w := by
  simp only [packX, unpackX, opOf, guardBits_guardOf, tyCode_tyOf, ordCode_ordOf, scopeCode_scopeOf, flagCode_flagOf,
    BitVec.extractLsb'_append_extractLsb'_eq_extractLsb']
  exact BitVec.extractLsb'_eq_self

/-- The fields are those that the words hold. -/
def HeldBy (w ext : Word) : Body → Prop
  | .v3 f => f = unpackV3 w
  | .vi f => f = unpackVI w
  | .s f => f = unpackS w
  | .m f => f = unpackM w
  | .c f => f = unpackC w
  | .x f => f = unpackX w ext

theorem encodeBody_of_heldBy {w ext : Word} {b : Body} (h : HeldBy w ext b) :
    encodeBody (opOf w) b = if b.twoWords then [w, ext] else [w] := by
  cases b <;> cases h
  case v3 => exact congrArg (fun x => [x]) (packV3_unpackV3 w)
  case vi => exact congrArg (fun x => [x]) (packVI_unpackVI w)
  case s => exact congrArg (fun x => [x]) (packS_unpackS w)
  case m => exact congrArg (fun x => [x]) (packM_unpackM w)
  case c => exact congrArg (fun x => [x]) (packC_unpackC w)
  case x => exact congrArg (fun x => [x, ext]) (packX_unpackX w ext)

/-! ### What the opcode map reads -/

/-- Row `hi` of the opcode map reads from two words an instruction of major opcode `hi`·16 + `lo` with the fields that the words hold; one without an EXT word is read from
the first word alone, since only the arms of the X format look at the second. -/
def RowReads (hi : Nat) (row : Nat → Word → Word → Option Instr) : Prop :=
  ∀ lo w ext i, row lo w ext = some i →
    ∃ b, view i = some (BitVec.ofNat 8 (16 * hi + lo), b) ∧ HeldBy w ext b ∧ (b.twoWords = false → ∀ other, row lo w other = some i)

theorem extractRow0_reads : RowReads 0 extractRow0 := by
  intro lo w ext i h
  have read := h
  simp only [extractRow0] at h
  split at h
  case h_3 => split at h <;> cases h <;> exact ⟨_, rfl, rfl, fun _ _ => read⟩
  all_goals cases h
  all_goals exact ⟨_, rfl, rfl, fun _ _ => read⟩

theorem extractRow1_reads : RowReads 1 extractRow1 := by
  intro lo w ext i h
  have read := h
  unfold extractRow1 at h
  split at h
  case h_2 => cases h; exact ⟨_, rfl, rfl, nofun⟩
  all_goals cases h
  all_goals exact ⟨_, rfl, rfl, fun _ _ => read⟩

theorem extractRow2_reads : RowReads 2 extractRow2 := by
  intro lo w ext i h
  have read := h
  unfold extractRow2 at h
  split at h
  case h_8 => cases h; exact ⟨_, rfl, rfl, nofun⟩
  all_goals cases h
  all_goals exact ⟨_, rfl, rfl, fun _ _ => read⟩

theorem extractRow3_reads : RowReads 3 extractRow3 := by
  intro lo w ext i h
  have read := h
  unfold extractRow3 at h
  split at h <;> cases h <;> exact ⟨_, rfl, rfl, fun _ _ => read⟩

theorem extractRow4_reads : RowReads 4 extractRow4 := by
  intro lo w ext i h
  have read := h
  unfold extractRow4 at h
  split at h <;> cases h <;> exact ⟨_, rfl, rfl, fun _ _ => read⟩

theorem extractRow5_reads : RowReads 5 extractRow5 := by
  intro lo w ext i h
  have read := h
  unfold extractRow5 at h
  split at h <;> cases h <;> exact ⟨_, rfl, rfl, fun _ _ => read⟩

theorem extractRow6_reads : RowReads 6 extractRow6 := by
  intro lo w ext i h
  have read := h
  simp only [extractRow6] at h
  split at h
  case h_8 => split at h <;> cases h <;> exact ⟨_, rfl, rfl, fun _ _ => read⟩
  all_goals cases h
  all_goals exact ⟨_, rfl, rfl, fun _ _ => read⟩

theorem extractRow7_reads : RowReads 7 extractRow7 := by
  intro lo w ext i h
  have read := h
  unfold extractRow7 at h
  split at h <;> cases h <;> exact ⟨_, rfl, rfl, fun _ _ => read⟩

theorem extractRow8_reads : RowReads 8 extractRow8 := by
  intro lo w ext i h
  have read := h
  unfold extractRow8 at h
  split at h <;> cases h <;> exact ⟨_, rfl, rfl, fun _ _ => read⟩

theorem extractRow9_reads : RowReads 9 extractRow9 := by
  intro lo w ext i h
  have read := h
  simp only [extractRow9] at h
  split at h
  case h_9 => split at h <;> cases h <;> exact ⟨_, rfl, rfl, fun _ _ => read⟩
  all_goals cases h
  all_goals exact ⟨_, rfl, rfl, fun _ _ => read⟩

theorem extractRowA_reads : RowReads 10 extractRowA := by
  intro lo w ext i h
  have read := h
  simp only [extractRowA] at h
  split at h
  case h_1 => split at h <;> cases h <;> exact ⟨_, rfl, rfl, nofun⟩
  case h_2 => split at h <;> cases h <;> exact ⟨_, rfl, rfl, fun _ _ => read⟩
  case h_4 => cases h; exact ⟨_, rfl, rfl, nofun⟩
  all_goals cases h
  all_goals exact ⟨_, rfl, rfl, fun _ _ => read⟩

theorem extractRowB_reads : RowReads 11 extractRowB := by
  intro lo w ext i h
  have read := h
  unfold extractRowB at h
  split at h
  case h_1 => cases h; exact ⟨_, rfl, rfl, nofun⟩
  case h_3 => cases h; exact ⟨_, rfl, rfl, nofun⟩
  all_goals cases h
  all_goals exact ⟨_, rfl, rfl, fun _ _ => read⟩

theorem extractRowC_reads : RowReads 12 extractRowC := by
  intro lo w ext i h
  have read := h
  simp only [extractRowC] at h
  split at h
  case h_5 => cases h; exact ⟨_, rfl, rfl, nofun⟩
  case h_6 => cases h; exact ⟨_, rfl, rfl, nofun⟩
  case h_10 =>
    split at h
    · cases h; exact ⟨_, rfl, rfl, fun _ _ => read⟩
    · split at h <;> cases h <;> exact ⟨_, rfl, rfl, fun _ _ => read⟩
  all_goals cases h
  all_goals exact ⟨_, rfl, rfl, fun _ _ => read⟩

theorem extractRowD_reads : RowReads 13 extractRowD := by
  intro lo w ext i h
  have read := h
  unfold extractRowD at h
  split at h <;> cases h
  exact ⟨_, rfl, rfl, fun _ _ => read⟩

/-- The rows of the opcode map by number (R87). -/
def extractRow : Nat → Nat → Word → Word → Option Instr
  | 0 => extractRow0 | 1 => extractRow1 | 2 => extractRow2 | 3 => extractRow3 | 4 => extractRow4 | 5 => extractRow5 | 6 => extractRow6
  | 7 => extractRow7 | 8 => extractRow8 | 9 => extractRow9 | 10 => extractRowA | 11 => extractRowB | 12 => extractRowC | 13 => extractRowD
  | _ => fun _ _ _ => none

theorem extract_eq_extractRow (w ext : Word) : extract w ext = extractRow ((opOf w).toNat / 16) ((opOf w).toNat % 16) w ext := by
  unfold extract
  split <;> simp only [*, extractRow]

theorem extractRow_reads (hi : Nat) : RowReads hi (extractRow hi) := by
  unfold extractRow
  split
  case h_1 => exact extractRow0_reads
  case h_2 => exact extractRow1_reads
  case h_3 => exact extractRow2_reads
  case h_4 => exact extractRow3_reads
  case h_5 => exact extractRow4_reads
  case h_6 => exact extractRow5_reads
  case h_7 => exact extractRow6_reads
  case h_8 => exact extractRow7_reads
  case h_9 => exact extractRow8_reads
  case h_10 => exact extractRow9_reads
  case h_11 => exact extractRowA_reads
  case h_12 => exact extractRowB_reads
  case h_13 => exact extractRowC_reads
  case h_14 => exact extractRowD_reads
  case h_15 => exact fun _ _ _ _ h => nomatch h

/-- The instruction that two words hold has their major opcode and their fields, and without an EXT word it is read from the first word alone (R75 to R83, R87). -/
theorem extract_reads {w ext : Word} {i : Instr} (h : extract w ext = some i) :
    ∃ b, view i = some (opOf w, b) ∧ HeldBy w ext b ∧ (b.twoWords = false → ∀ other, extract w other = some i) := by
  simp only [extract_eq_extractRow] at h ⊢
  obtain ⟨b, hview, hfields, hone⟩ := extractRow_reads _ _ _ _ _ h
  rw [Nat.div_add_mod, BitVec.ofNat_toNat, BitVec.setWidth_eq] at hview
  exact ⟨b, hview, hfields, hone⟩

theorem encode_of_view {i : Instr} {op : BitVec 8} {b : Body} (h : view i = some (op, b)) : encode i = encodeBody op b := by
  simp only [encode, h]

theorem twoWords_of_view {i : Instr} {op : BitVec 8} {b : Body} (h : view i = some (op, b)) : twoWords i = b.twoWords := by
  simp only [twoWords, h]

/-- The words of an instruction that words hold are those words. -/
theorem encode_of_extract {w ext : Word} {i : Instr} (h : extract w ext = some i) : encode i = if twoWords i then [w, ext] else [w] := by
  obtain ⟨b, hview, hfields, -⟩ := extract_reads h
  rw [encode_of_view hview, twoWords_of_view hview, encodeBody_of_heldBy hfields]

/-- An instruction without an EXT word is read from its first word alone. -/
theorem extract_of_oneWord {w ext : Word} {i : Instr} (h : extract w ext = some i) (one : twoWords i = false) (other : Word) :
    extract w other = some i := by
  obtain ⟨b, hview, -, hone⟩ := extract_reads h
  exact hone (twoWords_of_view hview ▸ one) other

/-! ### The decoder answers what the words hold, if it is well formed -/

theorem lowestFault_eq_none_iff (l : List EncFault) : lowestFault l = none ↔ l.isEmpty = true := by
  cases l with
  | nil => simp [lowestFault]
  | cons x xs =>
    simp only [lowestFault]
    split <;> simp

/-- R64, R89. -/
theorem decodeWords_cons_eq_ok_iff {w : Word} {rest : List Word} {i : Instr} :
    decodeWords (w :: rest) = .ok i ↔ extract w (rest.getD 0 0) = some i ∧ (twoWords i = true → rest ≠ []) ∧ WellFormed i = true := by
  unfold decodeWords
  constructor
  · intro h
    dsimp only at h
    split at h
    · cases h
    · next j hextract =>
      split at h
      · cases h
      · next hroom =>
        split at h
        · cases h
        · next hfault =>
          cases h
          exact ⟨hextract, by simpa using hroom, (lowestFault_eq_none_iff _).mp hfault⟩
  · rintro ⟨hextract, hroom, wf⟩
    have hfault := (lowestFault_eq_none_iff _).mpr wf
    have hext : (twoWords i && rest.isEmpty) = false := by simpa using hroom
    simp only [hextract, hext, hfault, Bool.false_eq_true, if_false]

theorem told_of_rowMatches {i : Instr} (h : rowMatches i = true) : Told i := by
  unfold Told
  split
  case h_14 => trivial
  all_goals simpa [rowMatches] using h

/-- A well-formed program instruction is the one that its selector field tells (R137, R121, R174, R188, R189, R225). -/
theorem told_of_wellFormed {i : Instr} (program : (view i).isSome = true) (h : WellFormed i = true) : Told i := by
  obtain ⟨⟨op, b⟩, hview⟩ := Option.isSome_iff_exists.mp program
  refine told_of_rowMatches ?_
  cases hrow : rowMatches i with
  | true => rfl
  | false => simp [WellFormed, faults, hview, hrow] at h

/-- Every program instruction is read back from its words, each by its own lemma; an event has none (R87). -/
theorem readBack : ∀ i : Instr, ReadBack.Statement i
  | .bra f => ReadBack.bra f
  | .brp f => ReadBack.brp f
  | .brx f => ReadBack.brx f
  | .brxVector f => ReadBack.brxVector f
  | .sbrz f => ReadBack.sbrz f
  | .sbrnz f => ReadBack.sbrnz f
  | .call f => ReadBack.call f
  | .ret f => ReadBack.ret f
  | .jset f => ReadBack.jset f
  | .jwait f => ReadBack.jwait f
  | .jdrop f => ReadBack.jdrop f
  | .exit f => ReadBack.exit f
  | .nop f => ReadBack.nop f
  | .smov f => ReadBack.smov f
  | .sli f => ReadBack.sli f
  | .sadd f => ReadBack.sadd f
  | .ssub f => ReadBack.ssub f
  | .smul f => ReadBack.smul f
  | .smulh f => ReadBack.smulh f
  | .smad f => ReadBack.smad f
  | .sand f => ReadBack.sand f
  | .sor f => ReadBack.sor f
  | .sxor f => ReadBack.sxor f
  | .snot f => ReadBack.snot f
  | .sshl f => ReadBack.sshl f
  | .sshr f => ReadBack.sshr f
  | .ssar f => ReadBack.ssar f
  | .smin f => ReadBack.smin f
  | .smax f => ReadBack.smax f
  | .scmp f => ReadBack.scmp f
  | .ssel f => ReadBack.ssel f
  | .spopc f => ReadBack.spopc f
  | .sclz f => ReadBack.sclz f
  | .sbfe f => ReadBack.sbfe f
  | .sbfi f => ReadBack.sbfi f
  | .vmov f => ReadBack.vmov f
  | .vli f => ReadBack.vli f
  | .vadd f => ReadBack.vadd f
  | .vsub f => ReadBack.vsub f
  | .vmul f => ReadBack.vmul f
  | .vmulh f => ReadBack.vmulh f
  | .vmad f => ReadBack.vmad f
  | .vmadw f => ReadBack.vmadw f
  | .vaddc f => ReadBack.vaddc f
  | .vabs f => ReadBack.vabs f
  | .vneg f => ReadBack.vneg f
  | .vmin f => ReadBack.vmin f
  | .vmax f => ReadBack.vmax f
  | .vand f => ReadBack.vand f
  | .vor f => ReadBack.vor f
  | .vxor f => ReadBack.vxor f
  | .vnot f => ReadBack.vnot f
  | .vshl f => ReadBack.vshl f
  | .vshr f => ReadBack.vshr f
  | .vsar f => ReadBack.vsar f
  | .vrot f => ReadBack.vrot f
  | .vbfe f => ReadBack.vbfe f
  | .vbfi f => ReadBack.vbfi f
  | .vpopc f => ReadBack.vpopc f
  | .vclz f => ReadBack.vclz f
  | .vbrev f => ReadBack.vbrev f
  | .vsel f => ReadBack.vsel f
  | .vlea f => ReadBack.vlea f
  | .fadd f => ReadBack.fadd f
  | .fsub f => ReadBack.fsub f
  | .fmul f => ReadBack.fmul f
  | .ffma f => ReadBack.ffma f
  | .fmin f => ReadBack.fmin f
  | .fmax f => ReadBack.fmax f
  | .fabs f => ReadBack.fabs f
  | .fneg f => ReadBack.fneg f
  | .frcp f => ReadBack.frcp f
  | .frsq f => ReadBack.frsq f
  | .fsqrt f => ReadBack.fsqrt f
  | .fexp2 f => ReadBack.fexp2 f
  | .flog2 f => ReadBack.flog2 f
  | .fsin f => ReadBack.fsin f
  | .fcos f => ReadBack.fcos f
  | .frnd f => ReadBack.frnd f
  | .fclass f => ReadBack.fclass f
  | .fdot2 f => ReadBack.fdot2 f
  | .cvt f => ReadBack.cvt f
  | .pack f => ReadBack.pack f
  | .unpk f => ReadBack.unpk f
  | .qnt f => ReadBack.qnt f
  | .vcmp f => ReadBack.vcmp f
  | .fcmp f => ReadBack.fcmp f
  | .pand f => ReadBack.pand f
  | .por f => ReadBack.por f
  | .pxor f => ReadBack.pxor f
  | .pnot f => ReadBack.pnot f
  | .pmov f => ReadBack.pmov f
  | .psets f => ReadBack.psets f
  | .psetsImm f => ReadBack.psetsImm f
  | .pgets f => ReadBack.pgets f
  | .shfl f => ReadBack.shfl f
  | .bcast f => ReadBack.bcast f
  | .ballot f => ReadBack.ballot f
  | .vote f => ReadBack.vote f
  | .redx f => ReadBack.redx f
  | .scan f => ReadBack.scan f
  | .match f => ReadBack.match f
  | .ld f => ReadBack.ld f
  | .st f => ReadBack.st f
  | .lds f => ReadBack.lds f
  | .sts f => ReadBack.sts f
  | .ldn f => ReadBack.ldn f
  | .stn f => ReadBack.stn f
  | .pref f => ReadBack.pref f
  | .atom f => ReadBack.atom f
  | .atoms f => ReadBack.atoms f
  | .red f => ReadBack.red f
  | .fence f => ReadBack.fence f
  | .mwait f => ReadBack.mwait f
  | .seal f => ReadBack.seal f
  | .unseal f => ReadBack.unseal f
  | .ptest f => ReadBack.ptest f
  | .pclr f => ReadBack.pclr f
  | .psel f => ReadBack.psel f
  | .pinj f => ReadBack.pinj f
  | .sigchk f => ReadBack.sigchk f
  | .sigrd f => ReadBack.sigrd f
  | .trap f => ReadBack.trap f
  | .tret f => ReadBack.tret f
  | .srd f => ReadBack.srd f
  | .srdVector f => ReadBack.srdVector f
  | .swr f => ReadBack.swr f
  | .svc f => ReadBack.svc f
  | .eret f => ReadBack.eret f
  | .halt f => ReadBack.halt f
  | .tlbi f => ReadBack.tlbi f
  | .spawn f => ReadBack.spawn f
  | .spawnHeader f => ReadBack.spawnHeader f
  | .tend f => ReadBack.tend f
  | .tendValue f => ReadBack.tendValue f
  | .yield f => ReadBack.yield f
  | .role f => ReadBack.role f
  | .tfetch f => ReadBack.tfetch f
  | .tdone f => ReadBack.tdone f
  | .joinf f => ReadBack.joinf f
  | .fprobe f => ReadBack.fprobe f
  | .fset f => ReadBack.fset f
  | .ffail f => ReadBack.ffail f
  | .sgadd f => ReadBack.sgadd f
  | .sgwait f => ReadBack.sgwait f
  | .qpush f => ReadBack.qpush f
  | .qflush f => ReadBack.qflush f
  | .qstat f => ReadBack.qstat f
  | .cpy f => ReadBack.cpy f
  | .cpyl f => ReadBack.cpyl f
  | .cpyg f => ReadBack.cpyg f
  | .bari f => ReadBack.bari f
  | .bara f => ReadBack.bara f
  | .barx f => ReadBack.barx f
  | .barp f => ReadBack.barp f
  | .barw f => ReadBack.barw f
  | .qld f => ReadBack.qld f
  | .qst f => ReadBack.qst f
  | .qset f => ReadBack.qset f
  | .qget f => ReadBack.qget f
  | .skwin f => ReadBack.skwin f
  | .mma f => ReadBack.mma f
  | .mtile f => ReadBack.mtile f
  | .mrsv f => ReadBack.mrsv f
  | .mrel f => ReadBack.mrel f
  | .aclr f => ReadBack.aclr f
  | .amovToVector f => ReadBack.amovToVector f
  | .amovToTile f => ReadBack.amovToTile f
  | .amovTile f => ReadBack.amovTile f
  | .ald f => ReadBack.ald f
  | .ast f => ReadBack.ast f
  | .flagCompletion .. | .mtileStepRetire .. | .waitSatisfied .. | .joinComplete .. | .splitPlacement .. | .splitMerge .. | .issueGrant
  | .promotion .. | .refill .. | .takeEntry .. | .admitEntry .. | .stagingComplete .. | .stagingFault .. | .meridianPublish | .stealRequestServed ..
  | .crossDieSteal .. | .stealReply .. | .writebackRequest .. | .park .. | .resumeEntryCreate .. | .resume .. | .teamFutureCompletion ..
  | .barrierCredit .. | .copyCompletion .. | .queueSpawn .. | .flushTimerExpiry .. | .queueTileEnd .. | .watchdogStop .. | .haltTimeout ..
  | .l1Eviction .. | .l2Eviction .. | .hbmFill .. | .controlArrayError .. | .tlbMissWalk .. | .walkComplete .. | .walkBoundExceeded ..
  | .pageRequestResponse .. | .portalDmwr .. | .portalPostedWrite .. | .nopPacket .. | .launchRoot .. | .launchTile .. | .copy .. | .signal ..
  | .wait .. | .writeThenSignal .. | .fencePacket .. | .collective .. | .queueInitEnable .. | .queueInitDisable .. | .timestamp ..
  | .launchComplete .. | .queueRecordWrite .. | .registerWrite .. | .sliceExpiry .. | .preemptPending .. | .preemptWithdraw .. | .discardTeam ..
  | .quiescencePark .. | .graceExpiry .. | .switchOut .. | .switchIn .. | .hostBar4Write .. | .hostBar4Read .. | .hostCompletion ..
  | .atsInvalidation .. | .priResponse .. | .write .. | .read .. | .atomic .. | .qpushFrame .. | .waitreg .. | .qctl .. | .replReq .. | .ownReq ..
  | .inval .. | .fetch .. | .pageData .. | .grant .. | .fpcEviction .. | .ordWrite .. | .ordUpdate .. | .looseUpdate .. | .collParam .. | .collData ..
  | .collectiveEndEarly .. | .resp .. | .ack .. | .nack .. | .frameDiscard .. | .frameRetransmit .. | .flitReplay .. | .linkRepair ..
  | .almanacSample .. | .coreSpare .. | .stepDown | .channelSpare .. | .domainStop .. | .deviceFail .. | .powerCap .. | .thermalTrip ..
  | .heartbeatMiss | .liveUpdateLoad .. | .liveUpdateFreeze | .stateTableImport .. | .takeover | .mailboxRequest .. | .getVersion | .getCapabilities
  | .negotiateAlgorithms .. | .getDigests | .getCertificate .. | .challenge .. | .getMeasurements .. | .coldReset | .warmReset
  | .atsTranslationCompletion .. | .softError .. | .moduleUnpowered | .priorityFlowControl .. | .configurationRequest .. => rfl


/-- A program instruction has one word, or two if its format has an EXT word (R83). -/
theorem encode_shape {i : Instr} (program : (view i).isSome = true) :
    ∃ w, (twoWords i = false ∧ encode i = [w]) ∨ (twoWords i = true ∧ ∃ ext, encode i = [w, ext]) := by
  obtain ⟨⟨op, b⟩, hview⟩ := Option.isSome_iff_exists.mp program
  rw [encode_of_view hview, twoWords_of_view hview]
  cases b with
  | x f => exact ⟨_, .inr ⟨rfl, _, rfl⟩⟩
  | v3 f | vi f | s f | m f | c f => exact ⟨_, .inl ⟨rfl, rfl⟩⟩

/-- The words of a well-formed program instruction, whatever words follow them, decode to it. -/
theorem decodeWords_encode_append {i : Instr} (program : (view i).isSome = true) (wf : WellFormed i = true) (more : List Word) :
    decodeWords (encode i ++ more) = .ok i := by
  have told := told_of_wellFormed program wf
  have back := readBack i
  unfold ReadBack.Statement at back
  obtain ⟨w, ⟨one, henc⟩ | ⟨two, ext, henc⟩⟩ := encode_shape program
  all_goals rw [henc] at back ⊢
  · exact decodeWords_cons_eq_ok_iff.mpr ⟨extract_of_oneWord (back told) one _, by simp [one], wf⟩
  · exact decodeWords_cons_eq_ok_iff.mpr ⟨back told, by simp, wf⟩

/-! ### Bytes and words -/

theorem length_toBytes (n v : Nat) : (toBytes n v).length = n := by
  induction n generalizing v with
  | zero => rfl
  | succ n ih => simp [toBytes, ih]

theorem wordOfBytes_append {bs : List Byte} (h : bs.length = 8) (rest : List Byte) : wordOfBytes (bs ++ rest) = wordOfBytes bs := by
  rw [wordOfBytes, wordOfBytes, List.take_left' h, List.take_of_length_le (Nat.le_of_eq h)]

theorem wordOfBytes_cons {bs : List Byte} (h : bs.length < 8) (b : Byte) : wordOfBytes (b :: bs) = wordOfBytes bs <<< 8 ||| b.setWidth 64 := by
  simp only [wordOfBytes, List.take_of_length_le (Nat.le_of_lt h), List.take_of_length_le (show (b :: bs).length ≤ 8 from h), List.foldr_cons]

/-- A word holds of the bytes of a number the bits that the bytes hold. -/
theorem getLsbD_wordOfBytes_toBytes {n : Nat} (h : n ≤ 8) (v k : Nat) :
    (wordOfBytes (toBytes n v)).getLsbD k = (decide (k < 8 * n) && v.testBit k) := by
  induction n generalizing v k with
  | zero => simp [toBytes, wordOfBytes]
  | succ n ih =>
    rw [toBytes, wordOfBytes_cons (by rw [length_toBytes]; omega)]
    simp only [BitVec.getLsbD_or, BitVec.getLsbD_shiftLeft, BitVec.getLsbD_setWidth, BitVec.getLsbD_ofNat, ih (by omega : n ≤ 8)]
    by_cases low : k < 8
    · have inside : k < 8 * (n + 1) := by omega
      have word : k < 64 := by omega
      simp [low, inside, word]
    · have high : (v / 256).testBit (k - 8) = v.testBit k := by
        rw [show 256 = 2 ^ 8 from rfl, Nat.testBit_div_two_pow, Nat.sub_add_cancel (Nat.le_of_not_lt low)]
      have inside : k - 8 < 8 * n ↔ k < 8 * (n + 1) := by omega
      have word : k < 8 * (n + 1) → k < 64 := by omega
      simp [low, high, inside]
      omega

theorem wordOfBytes_toBytes (w : Word) : wordOfBytes (toBytes 8 w.toNat) = w := by
  ext k hk
  rw [← BitVec.getLsbD_eq_getElem, getLsbD_wordOfBytes_toBytes (Nat.le_refl 8)]
  simp [hk, BitVec.testBit_toNat]

theorem wordsOfBytes_toBytes_append (n : Nat) (w : Word) (rest : List Byte) :
    wordsOfBytes (n + 1) (toBytes 8 w.toNat ++ rest) = w :: wordsOfBytes n rest := by
  simp [wordsOfBytes, wordOfBytes_append, length_toBytes, wordOfBytes_toBytes]

theorem wordsOfBytes_wordBytes_append (ws : List Word) (n : Nat) (rest : List Byte) :
    wordsOfBytes (ws.length + n) (wordBytes ws ++ rest) = ws ++ wordsOfBytes n rest := by
  induction ws with
  | nil => simp [wordBytes]
  | cons w ws ih =>
    rw [List.length_cons, Nat.add_right_comm, List.cons_append, ← ih, ← wordsOfBytes_toBytes_append]
    simp [wordBytes]

theorem length_wordBytes (ws : List Word) : (wordBytes ws).length = 8 * ws.length := by
  induction ws with
  | nil => rfl
  | cons w ws ih =>
    have tail : wordBytes (w :: ws) = toBytes 8 w.toNat ++ wordBytes ws := rfl
    rw [tail, List.length_append, length_toBytes, ih, List.length_cons]
    omega

theorem length_encode {i : Instr} (program : (view i).isSome = true) : (encode i).length = if twoWords i then 2 else 1 := by
  obtain ⟨w, ⟨one, henc⟩ | ⟨two, ext, henc⟩⟩ := encode_shape program <;> simp [*]

/-- The bytes of a well-formed program instruction decode to it and leave what follows. -/
theorem decode_wordBytes_encode_append {i : Instr} (program : (view i).isSome = true) (wf : WellFormed i = true) (rest : List Byte) :
    decode (wordBytes (encode i) ++ rest) = .ok (i, rest) := by
  have len := length_encode program
  have words : wordsOfBytes 2 (wordBytes (encode i) ++ rest) = encode i ++ wordsOfBytes (2 - (encode i).length) rest := by
    rw [← wordsOfBytes_wordBytes_append]
    congr 1
    split at len <;> omega
  have left : (wordBytes (encode i) ++ rest).drop (if twoWords i then 16 else 8) = rest := by
    rw [List.drop_left' (by rw [length_wordBytes, len]; split <;> rfl)]
  simp only [decode, words, decodeWords_encode_append program wf, left]

/-- Words that decode to an instruction are its words. -/
theorem encode_of_decodeWords {w : Word} {rest : List Word} {i : Instr} (h : decodeWords (w :: rest) = .ok i) :
    encode i = if twoWords i then [w, rest.getD 0 0] else [w] :=
  encode_of_extract (decodeWords_cons_eq_ok_iff.mp h).1

/-- A number of at most as many bits as are read is read as its two words. -/
theorem decodeTableWord_of_decodeWords {nbits v : Nat} {i : Instr} (h : v < 2 ^ nbits)
    (hd : decodeWords [BitVec.ofNat 64 v, BitVec.ofNat 64 (v / 2 ^ 64)] = .ok i) : decodeTableWord nbits v = some i := by
  unfold decodeTableWord
  simp only [Nat.mod_eq_of_lt h, ite_self, hd]

/-- The host's number of an instruction's words (R83) decodes to it. -/
theorem decodeTableWord_encode {i : Instr} (program : (view i).isSome = true) (wf : WellFormed i = true) {w ext : Word}
    (words : encode i = [w] ∨ encode i = [w, ext]) {nbits : Nat} (room : (encode i).length * 64 ≤ nbits) :
    decodeTableWord nbits (w.toNat + if twoWords i then 2 ^ 64 * ext.toNat else 0) = some i := by
  have decodes := decodeWords_encode_append program wf
  have len := length_encode program
  have hw := w.isLt
  have bound := Nat.pow_le_pow_right (n := 2) (by decide) room
  cases two : twoWords i with
  | false =>
    have henc : encode i = [w] := words.resolve_right fun h => by simp [h, two] at len
    rw [henc] at decodes bound
    simp only [Bool.false_eq_true, if_false, Nat.add_zero]
    refine decodeTableWord_of_decodeWords (Nat.lt_of_lt_of_le hw bound) ?_
    rw [BitVec.ofNat_toNat, BitVec.setWidth_eq]
    exact decodes [_]
  | true =>
    have henc : encode i = [w, ext] := words.resolve_left fun h => by simp [h, two] at len
    rw [henc] at decodes bound
    have hext := ext.isLt
    simp only [if_true]
    have low : BitVec.ofNat 64 (w.toNat + 2 ^ 64 * ext.toNat) = w := BitVec.eq_of_toNat_eq (by rw [BitVec.toNat_ofNat]; omega)
    have high : (w.toNat + 2 ^ 64 * ext.toNat) / 2 ^ 64 = ext.toNat := by omega
    refine decodeTableWord_of_decodeWords (Nat.lt_of_lt_of_le ?_ bound) ?_
    · simp only [List.length_cons, List.length_nil]; omega
    · rw [low, high, BitVec.ofNat_toNat, BitVec.setWidth_eq]
      exact decodes []

/-- Settles O56: the words of each constructor are read back (ReadBack), each row of the opcode map reads instructions of its opcodes with the fields of the words, and the
decoder answers what it reads just where there is no encoding fault. -/
theorem decodingAndEncodingAgree : Obligations.DecodingAndEncodingAgree := by
  unfold Obligations.DecodingAndEncodingAgree
  refine ⟨fun i rest program wf => decode_wordBytes_encode_append program wf rest, fun w ext i h => encode_of_decodeWords h, fun w i h => ?single,
    fun i program wf w ext words nbits v room hv => hv ▸ decodeTableWord_encode program wf words room⟩
  case single =>
    have one : twoWords i = false := by simpa using (decodeWords_cons_eq_ok_iff.mp h).2.1
    simpa [one] using encode_of_decodeWords h

end Sys2Proof.Laws
end

section
/-! PROOFS. A step runs the instruction that its grant's words hold (R89, R238, R239), and every wait on an object then keeps it as it stands (R199, R382). -/

namespace Sys2Proof.Machine

open Laws

/-! ### What a grant comes to -/

/-- A grant whose split may issue comes to what the words at its slot hold. -/
theorem Mach.granted_of_split {m : Mach} {tid e pa : Nat} {t : Task} {x : Split} (ht : m.task tid = some t) (hx : t.split e = some x)
    (hpa : x.pa = some pa) (live : t.live = true) (held : x.held = false) (wait : x.wait = none) :
    m.granted (tid, e) =
      (extract (m.fetch pa x.slot).1 (m.fetch pa x.slot).2).elim (.reserved tid e x (opOf (m.fetch pa x.slot).1)) Granted.instr := by
  simp only [Mach.granted, ht, hx, hpa, live, held, wait, Bool.not_true, Option.isSome_none, Bool.or_self, Bool.false_eq_true, if_false]
  cases extract (m.fetch pa x.slot).1 (m.fetch pa x.slot).2 <;> rfl

theorem Mach.granted_of_task_none {m : Mach} {g : Nat × Nat} (h : m.task g.1 = none) : m.granted g = .stale := by
  simp only [Mach.granted, h]

/-- A reserved opcode traps ILLOP with reason 0x02 at the word of its slot (R89). -/
theorem illopTrap_reservedFault (x : Split) : illopTrap x reservedFault = ⟨1, 0x20000, x.clause + BitVec.ofNat 64 (8 * x.slot), 0, none⟩ := rfl

/-! ### The step of each kind of state -/

theorem step_of_instr {s : State} {g : Nat × Nat} {rest : List (Nat × Nat)} {i : Instr} (hg : s.grants = g :: rest)
    (h : s.m.granted g = .instr i) : step s = noted (exec i s) := by
  simp only [step, stepRaw, hg, stepGrant, h]

theorem step_of_reserved {s : State} {g : Nat × Nat} {rest : List (Nat × Nat)} {tid e : Nat} {x : Split} {op : BitVec 8} (hg : s.grants = g :: rest)
    (h : s.m.granted g = .reserved tid e x op) :
    step s = .next { s with grants := rest, m := (s.m.raise tid e (illopTrap x reservedFault)).noteWaits } := by
  simp only [step, stepRaw, hg, stepGrant, h, noted]

theorem step_of_stale {s : State} {g : Nat × Nat} {rest : List (Nat × Nat)} (hg : s.grants = g :: rest) (h : s.m.granted g = .stale) :
    step s = .next { s with grants := rest, m := s.m.noteWaits } := by
  simp only [step, stepRaw, hg, stepGrant, h, noted]

theorem step_of_sched {s : State} {i : Instr} {rest : List Instr} (hg : s.grants = []) (hs : s.sched = i :: rest) :
    step s = noted (exec i { s with sched := rest }) := by
  simp only [step, stepRaw, hg, hs]

theorem step_of_idle {s : State} (hg : s.grants = []) (hs : s.sched = []) : step s = noted (stepCycle s) := by
  simp only [step, stepRaw, hg, hs]

theorem stepCycle_of_granted {s : State} (live : s.live = true) (granted : s.granted = true) : stepCycle s = .next s.tick := by
  simp only [stepCycle, live, granted, Bool.not_true, Bool.false_eq_true, if_false, if_true]

theorem stepCycle_of_not_live {s : State} (h : s.live = false) : stepCycle s = .fault .clocksStopped := by
  simp only [stepCycle, h, Bool.not_false, if_true]

/-! ### Waits that see an update -/

/-- A remote wait not yet satisfied keeps its object once the object satisfies it (R382). -/
theorem Mach.seeRemote_eq (m : Mach) (x : RemoteWait) :
    m.seeRemote x = if x.got = none ∧ (m.remoteHolds x.frame).1 = true then
      { x with got := some (m.mem.load x.frame.addr.toNat (m.remoteHolds x.frame).2) } else x := by
  unfold Mach.seeRemote
  obtain ⟨holds, n⟩ := m.remoteHolds x.frame
  cases hgot : x.got with
  | some d => simp
  | none => cases holds <;> simp

/-- Every wait not yet satisfied keeps its object once the object satisfies it (R199, R382). -/
theorem Mach.noteWaits_eq (m : Mach) : m.noteWaits = { m with
    links := m.links.map fun l => if l.got = none ∧ futureReady (m.mem.load l.pa 32) = true then { l with got := some (m.mem.load l.pa 32) } else l
    remoteWaits := m.remoteWaits.map fun x => if x.got = none ∧ (m.remoteHolds x.frame).1 = true then
      { x with got := some (m.mem.load x.frame.addr.toNat (m.remoteHolds x.frame).2) } else x } := by
  dsimp only [Mach.noteWaits]
  congr 1
  · refine List.map_congr_left fun l _ => ?_
    obtain ⟨pa, tid, e, got⟩ := l
    cases got with
    | some d => simp
    | none => cases hready : futureReady (m.mem.load pa 32) <;> simp
  · exact List.map_congr_left fun x _ => m.seeRemote_eq x

/-- Settles O54: the first grant comes to what the words at its split's slot hold (Mach.granted_of_split); the other clauses are the branches of a step. -/
theorem stepRunsTheDecodedInstruction : Obligations.StepRunsTheDecodedInstruction := by
  unfold Obligations.StepRunsTheDecodedInstruction
  refine ⟨?grant, fun s g rest hg gone => step_of_stale hg (Mach.granted_of_task_none gone), fun s i rest hg hs => step_of_sched hg hs,
    fun s hg hs live granted => ?tick, fun s hg hs stopped => ?stopped, fun _ => rfl, fun _ => rfl, fun _ => rfl, Mach.noteWaits_eq⟩
  case grant =>
    intro s tid e pa rest t x hg ht hx hpa live held wait w ext
    have comes : s.m.granted (tid, e) = (extract w ext).elim (.reserved tid e x (opOf w)) Granted.instr :=
      Mach.granted_of_split ht hx hpa live held wait
    have runs (i : Instr) (h : extract w ext = some i) : step s = noted (exec i s) := step_of_instr hg (by rw [comes, h, Option.elim_some])
    refine ⟨fun i h => runs i (decodeWords_cons_eq_ok_iff.mp h).1, runs, fun reserved => ?_⟩
    rw [step_of_reserved hg (by rw [comes, reserved, Option.elim_none]), illopTrap_reservedFault]
  case tick => rw [step_of_idle hg hs, stepCycle_of_granted live granted]; rfl
  case stopped => rw [step_of_idle hg hs, stepCycle_of_not_live stopped]; rfl

end Sys2Proof.Machine
end

section
/-! PROOFS. The results of the compute instructions (R98, R99, R103 to R127): the rules for a body that is done, then the rows of each group. -/

namespace Sys2Proof.Machine

/-! ### Bodies that are done -/

/-- A body that is done and has changed nothing. -/
theorem issue_unchanged {s : State} {p : Issuer} {i : Instr} {body : Mach → Iss → Res} (h : s.issuer i = some p)
    (hb : body (s.m.setTask p.tid (p.marked i)) (p.iss s.m i) = .done (s.m.setTask p.tid (p.marked i))) :
    issue i body s = .next (s.issued p i id) :=
  issue_task h (by rw [hb, Mach.modTask_marked]; rfl) rfl

/-- What an instruction draws is what its split draws before it has any effect; the mark of its issue stays (R47). -/
theorem Iss.draw_iss (s : State) (p : Issuer) (i : Instr) (r : Rnd) (n : Nat) :
    (p.iss s.m i).draw (s.m.setTask p.tid (p.marked i)) r n =
      ((drawn s p r n).1, { (drawn s p r n).2 with tasks := tabSet s.m.tasks p.tid (p.marked i) }) := by
  unfold Iss.draw drawn
  split <;> rfl

theorem drawn_clk (s : State) (p : Issuer) (r : Rnd) (n : Nat) : (drawn s p r n).2.clk = s.m.clk := by
  unfold drawn
  split <;> rfl

/-- A body that draws from the generators and then changes its own task by f, which may depend on the draws. -/
theorem issue_drawn {s : State} {p : Issuer} {i : Instr} {body : Mach → Iss → Res} {r : Rnd} {n : Nat} {f : Task → Task} (h : s.issuer i = some p)
    (hb : ∀ entered after, (p.iss s.m i).draw entered r n = ((drawn s p r n).1, after) →
      body entered (p.iss s.m i) = .done (after.modTask p.tid f))
    (hf : (f (p.marked i)).splits = (p.marked i).splits) : issue i body s = .next (s.issuedOn (drawn s p r n).2 p i f) :=
  issue_effect h (hb _ _ (Iss.draw_iss s p i r n)) (drawn_clk s p r n) (Task.split_of_splits hf _)

/-! ### Uniform instructions -/

theorem uniSays_of_exec {c : FS → Instr} {f : FS → Task → Nat × Bool} (h : ∀ x s, exec (c x) s = issue (c x) (uniBody x (f x)) s) : UniSays c f :=
  fun s _ x hp => (h x s).trans (issue_task hp rfl rfl)

theorem uniformArithmeticRows : UniformArithmeticRows := by
  refine ⟨?sadd, ?ssub, ?smul, ?smulh, ?smad, ?sand, ?sor, ?sxor, ?snot⟩
  all_goals exact uniSays_of_exec fun _ _ => rfl

theorem uniformShiftsAndSelectionsRows : UniformShiftsAndSelectionsRows := by
  refine ⟨?smov, ?sshl, ?sshr, ?ssar, ?smin, ?smax, ?scmp, ?ssel, ?spopc, ?sclz, ?sbfe, ?sbfi, fun s p x hp => issue_task hp rfl rfl⟩
  case ssel =>
    refine uniSays_of_exec fun x s => congrArg (fun f => issue (.ssel x) (uniBody x f) s) (funext fun t => ?_)
    split <;> rfl
  all_goals exact uniSays_of_exec fun _ _ => rfl

/-- Settles O1: each body writes sD with its row's result, which is the definition of its operation but for the selection of SSEL. -/
theorem uniformResults : Obligations.UniformResults := ⟨uniformArithmeticRows, uniformShiftsAndSelectionsRows⟩

/-! ### Vector integer instructions -/

theorem vecSays_of_exec {c : FV3 → Instr} {n : FV3 → Nat} {f : FV3 → Task → Lanes}
    (h : ∀ x s, exec (c x) s = issue (c x) (vecBody x.d.toNat (n x) (f x)) s) : VecSays c n f :=
  fun s _ x hp => (h x s).trans (issue_vec hp rfl rfl)

theorem vectorArithmeticRows : VectorArithmeticRows := by
  refine ⟨?vmov, ?vadd, ?vsub, ?vmul, ?vmulh, ?vmad, ?vmadw, ?vaddc, ?vabs, ?vneg, ?vmin, ?vmax, ?vand, ?vor, ?vxor, ?vnot, ?vlea⟩
  case vmadw =>
    refine vecSays_of_exec fun x s => congrArg (fun f => issue (.vmadw x) (vecBody x.d.toNat 64 f) s) (funext fun t => ?_)
    have row : madWide x.ty x.sat = fun a b z =>
        if signedTy x.ty then narrow .s64 x.sat (intVal x.ty a * intVal x.ty b + intVal .s64 z)
        else narrow .z64 x.sat (intVal x.ty a * intVal x.ty b + intVal .z64 z) := by
      funext a b z
      unfold madWide
      split <;> rfl
    rw [row]
  all_goals exact vecSays_of_exec fun _ _ => rfl

theorem vectorShiftsAndSelectionsRows : VectorShiftsAndSelectionsRows := by
  refine ⟨?vshl, ?vshr, ?vsar, ?vrot, ?vpopc, ?vclz, ?vbrev, ?vsel, fun s p x hp => issue_vec hp rfl rfl, fun s p x hp => issue_vec hp rfl rfl,
    fun s p x hp => issue_vec hp rfl rfl⟩
  case vsel =>
    refine vecSays_of_exec fun x s => congrArg (fun f => issue (.vsel x) (vecBody x.d.toNat (opWidth x.ty) f) s) (funext fun t => ?_)
    refine congrArg (fun r => List.zipWith r _ _) (funext fun ab => funext fun c => ?_)
    split <;> rfl
  all_goals exact vecSays_of_exec fun _ _ => rfl

/-- Settles O2: each body writes the contributing lanes of vD with its row's result; VMADW and VSEL choose between two. -/
theorem vectorResults : Obligations.VectorResults := ⟨vectorArithmeticRows, vectorShiftsAndSelectionsRows⟩

/-! ### Floating point and conversion -/

theorem floatSays_of_exec {c : FV3 → Instr} {sources : Nat} {g : FloatRow}
    (h : ∀ x s, exec (c x) s = issue (c x) (floatBody x sources (g x (fmtOf x.ty))) s) : FloatSays c sources g := by
  intro s p x hp d src
  rw [h]
  refine issue_drawn hp (fun entered after draws => ?_) (Task.writeVec_splits ..)
  simp only [floatBody, draws]
  rfl

theorem floatArithmeticRows : FloatArithmeticRows := by
  refine ⟨?fadd, ?fsub, ?fmul, ?ffma, ?fmin, ?fmax, ?fabs, ?fneg, ?fsqrt, ?frnd⟩
  all_goals exact floatSays_of_exec fun _ _ => rfl

theorem floatFunctionsRows : FloatFunctionsRows := by
  refine ⟨?frcp, ?frsq, ?fexp2, ?flog2, ?fsin, ?fcos, fun s p x hp => issue_task hp rfl rfl, ?fdot2⟩
  case fdot2 =>
    intro s p x hp d a b c
    refine issue_drawn hp (fun entered after draws => ?_) (Task.writeVec_splits ..)
    simp only [draws]
    rfl
  all_goals exact floatSays_of_exec fun _ _ => rfl

/-- Settles O3: the draws of the body are those of its split (issue_drawn), and each row is the definition of its operation.
What FEXP2, FLOG2, FSIN and FCOS give where the model's intervals do not decide it is a free value inside funOp (DESIGN CHOICE, log 17). -/
theorem floatResults : Obligations.FloatResults := ⟨floatArithmeticRows, floatFunctionsRows⟩

/-- A pair form of PACK reads FP32 (R116). -/
theorem unpackedTy_of_pair {t : Ty} (h : isPairTy t = true) : unpackedTy t = .f32 := by
  unfold unpackedTy
  split
  case h_5 => rfl
  all_goals cases h

/-- Writing some words of a register group leaves the splits. -/
theorem Task.splits_foldl_writeV (words : List Nat) (written : Nat → Bool) (d : Nat) (k : Mask) (new : Nat → VReg) (t : Task) :
    (words.foldl (fun t i => if written i then t.writeV (d + i) k (new i) else t) t).splits = t.splits := by
  induction words generalizing t with
  | nil => rfl
  | cons i words ih =>
    rw [List.foldl_cons, ih]
    split <;> rfl

/-- Settles O4: CVT, PACK and QNT draw first (issue_drawn); PACK writes one register in a pair form and else those words of its
group that hold the element. The immediates of PACK and an infinity converted to E8M0 are the model's (logs 63 and 71). -/
theorem conversions : Obligations.Conversions := by
  unfold Obligations.Conversions
  refine ⟨fun s p x hp => ?cvt, fun s p x hp pair => ?packPair, fun s p x hp single => ?packSingle, fun s p x hp => issue_vec hp rfl rfl,
    fun s p x hp => ?qnt⟩
  case cvt =>
    intro st d a
    refine issue_drawn hp (fun entered after draws => ?_) (Task.writeVec_splits ..)
    simp only [draws]
    rfl
  case packPair =>
    intro d a b
    refine issue_drawn hp (fun entered after draws => ?_) rfl
    simp only [pair, if_true, draws, unpackedTy_of_pair pair]
    rfl
  case packSingle =>
    intro d a w low old group
    refine issue_drawn hp (fun entered after draws => ?_) (Task.splits_foldl_writeV ..)
    simp only [single, Bool.false_eq_true, if_false, draws]
    rfl
  case qnt =>
    intro d a scale
    refine issue_drawn hp (fun entered after draws => ?_) (Task.writeVec_splits ..)
    simp only [draws]
    rfl

/-! ### Predicates and lane exchange -/

/-- Settles O5: each body writes sD or the contributing lanes of pD with the value of its rule. -/
theorem comparesAndPredicates : Obligations.ComparesAndPredicates := by
  unfold Obligations.ComparesAndPredicates
  simp only [List.forall_mem_cons, List.not_mem_nil, false_implies, implies_true, and_true]
  refine ⟨?vcmp, ?fcmp, ⟨?pand, ?por, ?pxor⟩, ⟨?pnot, ?pmov⟩, ?psets, ?psetsImm, ?pgets⟩
  all_goals exact fun s p x hp => issue_task hp rfl rfl

/-- The choice by SUB between 0, 1 and every other code, as a condition and as the model's match. -/
theorem chosen_by_sub {α : Type} (sub : BitVec 4) (a b c : α) :
    (if sub == 0 then a else if sub == 1 then b else c) = match sub.toNat with | 0 => a | 1 => b | _ => c := by
  by_cases zero : sub = 0
  · subst zero; rfl
  by_cases one : sub = 1
  · subst one; rfl
  rw [if_neg (by simpa using zero), if_neg (by simpa using one)]
  split
  · exact absurd (BitVec.eq_of_toNat_eq ‹_›) zero
  · exact absurd (BitVec.eq_of_toNat_eq ‹_›) one
  · rfl

/-- The lane that BCAST reads, from the contributing lanes k and the lanes p of its predicate; there may be none (R124). -/
def bcastSource (x : FVI) (k p : Mask) : Option Nat :=
  if x.sub == 0 then some (x.imm.extractLsb' 0 5).toNat else if x.sub == 1 then lowestLane k else lowestLane (k &&& p)

/-- What BCAST does once its source lane is known (R124). -/
def bcastFrom (x : FVI) (m : Mach) (ι : Iss) : Option Nat → Res
  | none => .done m
  | some l =>
    let v := laneOrDead ι.t (ι.t.vecOpnd 1 x.a.toNat (opWidth x.ty)) l
    let poisoned := v.2 || (x.sub == 2 && (ι.t.readP 5 x.px.toNat).poi &&& ι.k != 0)
    .done (ι.mod m fun t => t.writeVec x.d.toNat (opWidth x.ty) ι.k (sameLanes (v.1, poisoned)))

theorem exec_bcast (x : FVI) (s : State) :
    exec (.bcast x) s = issue (.bcast x) (fun m ι => bcastFrom x m ι (bcastSource x ι.k (ι.t.readP 5 x.px.toNat).v)) s := by
  refine congrArg (fun body => issue (.bcast x) body s) (funext fun m => funext fun ι => ?_)
  rw [bcastSource, chosen_by_sub]
  rfl

theorem exec_bcast_of_some {s : State} {p : Issuer} {x : FVI} {l : Nat} (hp : s.issuer (.bcast x) = some p)
    (source : bcastSource x p.k (p.t.readP 5 x.px.toNat).v = some l) :
    let v := laneOrDead p.t (p.t.vecOpnd 1 x.a.toNat (opWidth x.ty)) l
    exec (.bcast x) s = .next (s.issued p (.bcast x) fun t => t.writeVec x.d.toNat (opWidth x.ty) p.k
      (sameLanes (v.1, v.2 || (x.sub == 2 && (p.t.readP 5 x.px.toNat).poi &&& p.k != 0)))) :=
  (exec_bcast x s).trans (issue_vec hp (congrArg (bcastFrom x _ _) source) rfl)

theorem exec_bcast_of_none {s : State} {p : Issuer} {x : FVI} (hp : s.issuer (.bcast x) = some p)
    (source : bcastSource x p.k (p.t.readP 5 x.px.toNat).v = none) : exec (.bcast x) s = .next (s.issued p (.bcast x) id) :=
  (exec_bcast x s).trans (issue_unchanged hp (congrArg (bcastFrom x _ _) source))

/-- Settles O6: each body writes its destination with the value of its rule; BCAST by its source lane, VOTE by its mode. -/
theorem laneExchange : Obligations.LaneExchange := by
  unfold Obligations.LaneExchange
  refine ⟨fun s p x hp => issue_vec hp rfl rfl, fun s p x l hp source => exec_bcast_of_some hp source,
    fun s p x hp sub none => exec_bcast_of_none hp ?bcast, fun s p x hp => issue_task hp rfl rfl, fun s p x hp => ?vote,
    fun s p x hp => issue_task hp rfl rfl, fun s p x hp => issue_vec hp rfl rfl, fun s p x hp => issue_vec hp rfl rfl⟩
  case bcast => rw [bcastSource, if_neg (by simpa using sub), none]
  case vote =>
    intro a all any v
    refine issue_task hp ?_ rfl
    have mode : v = _ := chosen_by_sub ..
    rw [mode]
    rfl

end Sys2Proof.Machine
end

section
/-! PROOFS. A uniform instruction has no guard, and is executed once, with its result extended (R99). -/

namespace Sys2Proof.Machine

/-! ### Instructions that must be unguarded -/

theorem Guard.neg_of_ne_always {g : Guard} (h : g ≠ ⟨12, false⟩) (always : g.pred = 12) : g.neg = true := by
  obtain ⟨pred, neg⟩ := g
  cases neg
  · exact absurd (congrArg (Guard.mk · false) always) h
  · rfl

/-- A guard on an unguarded instruction is an encoding fault (R76, R89). -/
theorem checkGuard_ne_nil {op : BitVec 8} {b : Body} (hun : unguarded op b = true) (guard : b.guard ≠ ⟨12, false⟩) : checkGuard op b ≠ [] := by
  unfold checkGuard
  split
  · simp
  · split
    · next always => simp [need, Guard.neg_of_ne_always guard (eq_of_beq always)]
    · simp [need, hun]

/-- No split issues an unguarded instruction that has a guard (R76, R89). -/
theorem State.issuer_of_guarded {i : Instr} {op : BitVec 8} {b : Body} (hview : view i = some (op, b)) (hun : unguarded op b = true)
    (guard : b.guard ≠ ⟨12, false⟩) (s : State) : s.issuer i = none := by
  cases h : s.issuer i with
  | none => rfl
  | some p =>
    obtain ⟨-, -, -, -, -, -, clean, -⟩ := State.issuer_some h
    rw [Laws.lowestFault_eq_none_iff, List.isEmpty_iff] at clean
    simp only [faults, hview, bodyFaults, List.append_eq_nil_iff] at clean
    obtain ⟨-, ⟨⟨⟨hguard, -⟩, -⟩, -⟩, -⟩ := clean
    exact absurd hguard (checkGuard_ne_nil hun guard)

/-! ### The result in its 64-bit register -/

theorem wordOfInt_sextInt_32 (v : Nat) : wordOfInt (sextInt 32 v) = (BitVec.ofNat 32 v).signExtend 64 := by
  have value : sextInt 32 v = (BitVec.ofNat 32 v).toInt := by
    simp only [sextInt, BitVec.toInt_eq_toNat_cond, BitVec.toNat_ofNat]
    split <;> split <;> omega
  rw [value]
  rfl

/-- The model's extension of a result is that of R99 applied to the result at the width of its type. -/
theorem uniResult_eq_widened (ty : Ty) (y : Nat × Bool) : uniResult ty y = widened ty (if wide ty then y.1 else y.1 % 2 ^ 32) y.2 := by
  cases hw : wide ty with
  | true =>
    have narrow : ty ≠ .s32 ∧ ty ≠ .z32 ∧ ty ≠ .b32 := by
      refine ⟨?_, ?_, ?_⟩ <;> rintro rfl <;> cases hw
    simp [uniResult, widened, hw, narrow]
  | false =>
    have low : BitVec.ofNat 32 (y.1 % 2 ^ 32) = BitVec.ofNat 32 y.1 := BitVec.eq_of_toNat_eq (by simp)
    have zext : BitVec.ofNat 64 (y.1 % 2 ^ 32) = (BitVec.ofNat 32 y.1).setWidth 64 := BitVec.eq_of_toNat_eq (by simp)
    by_cases signed : ty = .s32
    · simp [uniResult, widened, signed, wordOfInt_sextInt_32, low, -Nat.reducePow]
    · simp [uniResult, widened, signed, hw, low, zext, -Nat.reducePow]

theorem widened_b64_toNat (v : Elem) : widened .b64 v.toNat false = ⟨v.setWidth 64, false, false⟩ := by
  simp [widened, BitVec.ofNat_toNat]

/-- A row of O1 gives R99 for its instruction: its operands are registers, which are the task's and no split's. -/
theorem uniWidens_of_uniSays {c : FS → Instr} {f : FS → Task → Nat × Bool} (h : UniSays c f)
    (hview : ∀ x, ∃ op, view (c x) = some (op, .s x) := by exact fun _ => ⟨_, rfl⟩)
    (anySplits : ∀ x t, f x { t with splits := [], stack := [] } = f x t := by exact fun _ _ => rfl) : UniWidens c := by
  refine ⟨fun s x guard => ?unguarded, fun x t => (if wide x.ty then (f x t).1 else (f x t).1 % 2 ^ 32, (f x t).2), fun s p x hp => ?result⟩
  case unguarded =>
    obtain ⟨op, hview⟩ := hview x
    exact State.issuer_of_guarded hview rfl guard s
  case result => simp only [h s p x hp, uniResult_eq_widened, anySplits]

/-- Settles O49: the rows of O1, with the extension of R99 written out; a guard is an encoding fault of every S-format instruction and of SLI. -/
theorem uniformIssue : Obligations.UniformIssue := by
  unfold Obligations.UniformIssue
  obtain ⟨⟨sadd, ssub, smul, smulh, smad, sand, sor, sxor, snot⟩,
    smov, sshl, sshr, ssar, smin, smax, scmp, ssel, spopc, sclz, sbfe, sbfi, sli⟩ := uniformResults
  simp only [List.forall_mem_cons, List.not_mem_nil, false_implies, implies_true, and_true]
  refine ⟨?rows, ⟨?sigrdGuard, ?tfetchGuard, ?tdoneGuard⟩, fun s p x hp => ?sigrd,
    fun s x guard => State.issuer_of_guarded (b := .x x) rfl rfl guard s,
    fun x => if wide x.ty then immLoad x else immLoad x % 2 ^ 32, fun s p x hp => ?sli⟩
  case rows =>
    exact ⟨uniWidens_of_uniSays smov, uniWidens_of_uniSays sadd, uniWidens_of_uniSays ssub, uniWidens_of_uniSays smul, uniWidens_of_uniSays smulh,
      uniWidens_of_uniSays smad, uniWidens_of_uniSays sand, uniWidens_of_uniSays sor, uniWidens_of_uniSays sxor, uniWidens_of_uniSays snot,
      uniWidens_of_uniSays sshl, uniWidens_of_uniSays sshr, uniWidens_of_uniSays ssar, uniWidens_of_uniSays smin, uniWidens_of_uniSays smax,
      uniWidens_of_uniSays scmp, uniWidens_of_uniSays ssel, uniWidens_of_uniSays spopc, uniWidens_of_uniSays sclz, uniWidens_of_uniSays sbfe,
      uniWidens_of_uniSays sbfi⟩
  case sigrd =>
    refine issue_task hp ?_ rfl
    rw [widened_b64_toNat]
    simp only [beq_iff_eq]
    rfl
  case sli =>
    rw [sli s p x hp]
    exact congrArg (fun r => Host.Outcome.next (s.issued p (.sli x) fun t => t.writeU x.d.toNat r)) (uniResult_eq_widened x.ty (immLoad x, false))
  all_goals exact fun s x guard => State.issuer_of_guarded (b := .s x) rfl rfl guard s

end Sys2Proof.Machine
end

section
/-! PROOFS. The frames of the instructions that write a register (R98, R99): the class of each one's destination, then what a write of that class leaves unchanged. -/

namespace Sys2Proof.Machine

/-! ### What each instruction writes -/

/-- m' is m but for the stochastic generators of a partition, which may have advanced (R47). -/
def Mach.Redrawn (m m' : Mach) : Prop :=
  m' = m ∨ ∃ core part rng, m' = m.modCore core fun c => c.setPart part { c.part part with rng := rng }

/-- Wherever a split issues i, it goes on, and all that has changed is its task, by a change of which P holds, and perhaps the generators of a partition. -/
def HasEffect (i : Instr) (P : Issuer → (Task → Task) → Prop) : Prop :=
  ∀ (s : State) (p : Issuer), s.issuer i = some p → ∃ m f, s.m.Redrawn m ∧ P p f ∧ exec i s = .next (s.issuedOn m p i f)

/-- The contributing lanes of vD are written, of the pair vD, vD+1 for 64 bits; BCAST without a source writes none (R98, R124). -/
def WritesV (d n : Nat) (p : Issuer) (f : Task → Task) : Prop := f = id ∨ ∃ xs, f = fun t => t.writeVec d n p.k xs
/-- The contributing lanes of pD are written (R98). -/
def WritesP (d : Nat) (p : Issuer) (f : Task → Task) : Prop := ∃ x, f = fun t => t.writeP d p.k x
/-- sD is written (R99). -/
def WritesU (d : Nat) (_ : Issuer) (f : Task → Task) : Prop := ∃ x, f = fun t => t.writeU d x

theorem drawn_redrawn (s : State) (p : Issuer) (r : Rnd) (n : Nat) : s.m.Redrawn (drawn s p r n).2 := by
  unfold drawn
  split
  · exact .inr ⟨_, _, _, rfl⟩
  · exact .inl rfl

theorem hasEffect_of_issued {i : Instr} {P : Issuer → (Task → Task) → Prop}
    (h : ∀ (s : State) (p : Issuer), s.issuer i = some p → ∃ f, P p f ∧ exec i s = .next (s.issued p i f)) : HasEffect i P := by
  intro s p hp
  obtain ⟨f, hP, hexec⟩ := h s p hp
  exact ⟨s.m, f, .inl rfl, hP, hexec⟩

theorem UniSays.effect {c : FS → Instr} {f : FS → Task → Nat × Bool} (h : UniSays c f) (x : FS) : HasEffect (c x) (WritesU x.d.toNat) :=
  hasEffect_of_issued fun s p hp => ⟨_, ⟨_, rfl⟩, h s p x hp⟩

theorem VecSays.effect {c : FV3 → Instr} {n : FV3 → Nat} {f : FV3 → Task → Lanes} (h : VecSays c n f) (x : FV3) :
    HasEffect (c x) (WritesV x.d.toNat (n x)) :=
  hasEffect_of_issued fun s p hp => ⟨_, .inr ⟨_, rfl⟩, h s p x hp⟩

theorem FloatSays.effect {c : FV3 → Instr} {sources : Nat} {g : FloatRow} (h : FloatSays c sources g) (x : FV3) :
    HasEffect (c x) (WritesV x.d.toNat (opWidth x.ty)) :=
  fun s p hp => ⟨_, _, drawn_redrawn .., .inr ⟨_, rfl⟩, h s p x hp⟩

theorem uniformRows_effect : ∀ c ∈ [Instr.smov, .sadd, .ssub, .smul, .smulh, .smad, .sand, .sor, .sxor, .snot, .sshl, .sshr, .ssar, .smin, .smax, .scmp,
    .ssel, .spopc, .sclz, .sbfe, .sbfi, .sigrd], ∀ x : FS, HasEffect (c x) (WritesU x.d.toNat) := by
  obtain ⟨⟨sadd, ssub, smul, smulh, smad, sand, sor, sxor, snot⟩,
    smov, sshl, sshr, ssar, smin, smax, scmp, ssel, spopc, sclz, sbfe, sbfi, -⟩ := uniformResults
  simp only [List.forall_mem_cons, List.not_mem_nil, false_implies, implies_true, and_true]
  exact ⟨smov.effect, sadd.effect, ssub.effect, smul.effect, smulh.effect, smad.effect, sand.effect, sor.effect, sxor.effect, snot.effect, sshl.effect,
    sshr.effect, ssar.effect, smin.effect, smax.effect, scmp.effect, ssel.effect, spopc.effect, sclz.effect, sbfe.effect, sbfi.effect,
    fun _ => hasEffect_of_issued fun _ _ hp => ⟨_, ⟨_, rfl⟩, issue_task hp rfl rfl⟩⟩

theorem sli_effect (x : FX) : HasEffect (.sli x) (WritesU x.d.toNat) :=
  hasEffect_of_issued fun _ _ hp => ⟨_, ⟨_, rfl⟩, issue_task hp rfl rfl⟩

theorem readRows_effect : ∀ c ∈ [Instr.srd, .qget, .pgets], ∀ x : FVI, HasEffect (c x) (WritesU x.d.toNat) := by
  simp only [List.forall_mem_cons, List.not_mem_nil, false_implies, implies_true, and_true]
  refine ⟨?srd, ?qget, ?pgets⟩
  all_goals exact fun _ => hasEffect_of_issued fun _ _ hp => ⟨_, ⟨_, rfl⟩, issue_task hp rfl rfl⟩

theorem reductionRows_effect : ∀ c ∈ [Instr.ballot, .redx], ∀ x : FV3, HasEffect (c x) (WritesU x.d.toNat) := by
  simp only [List.forall_mem_cons, List.not_mem_nil, false_implies, implies_true, and_true]
  refine ⟨?ballot, ?redx⟩
  all_goals exact fun _ => hasEffect_of_issued fun _ _ hp => ⟨_, ⟨_, rfl⟩, issue_task hp rfl rfl⟩

theorem ownWidthRows_effect : ∀ c ∈ [Instr.vmov, .vadd, .vsub, .vmul, .vmulh, .vmad, .vaddc, .vabs, .vneg, .vmin, .vmax, .vand, .vor, .vxor, .vnot, .vshl,
    .vshr, .vsar, .vrot, .vpopc, .vclz, .vbrev, .vsel, .fadd, .fsub, .fmul, .ffma, .fmin, .fmax, .fabs, .fneg, .fsqrt, .frnd, .frcp, .frsq, .fexp2, .flog2,
    .fsin, .fcos], ∀ x : FV3, HasEffect (c x) (WritesV x.d.toNat (opWidth x.ty)) := by
  obtain ⟨⟨vmov, vadd, vsub, vmul, vmulh, vmad, -, vaddc, vabs, vneg, vmin, vmax, vand, vor, vxor, vnot, -⟩,
    vshl, vshr, vsar, vrot, vpopc, vclz, vbrev, vsel, -⟩ := vectorResults
  obtain ⟨⟨fadd, fsub, fmul, ffma, fmin, fmax, fabs, fneg, fsqrt, frnd⟩, frcp, frsq, fexp2, flog2, fsin, fcos, -⟩ := floatResults
  simp only [List.forall_mem_cons, List.not_mem_nil, false_implies, implies_true, and_true]
  exact ⟨vmov.effect, vadd.effect, vsub.effect, vmul.effect, vmulh.effect, vmad.effect, vaddc.effect, vabs.effect, vneg.effect, vmin.effect, vmax.effect,
    vand.effect, vor.effect, vxor.effect, vnot.effect, vshl.effect, vshr.effect, vsar.effect, vrot.effect, vpopc.effect, vclz.effect, vbrev.effect,
    vsel.effect, fadd.effect, fsub.effect, fmul.effect, ffma.effect, fmin.effect, fmax.effect, fabs.effect, fneg.effect, fsqrt.effect, frnd.effect,
    frcp.effect, frsq.effect, fexp2.effect, flog2.effect, fsin.effect, fcos.effect⟩

theorem doubleWidthRows_effect : ∀ c ∈ [Instr.vmadw, .vlea], ∀ x : FV3, HasEffect (c x) (WritesV x.d.toNat 64) := by
  obtain ⟨⟨-, -, -, -, -, -, vmadw, -, -, -, -, -, -, -, -, -, vlea⟩, -⟩ := vectorResults
  simp only [List.forall_mem_cons, List.not_mem_nil, false_implies, implies_true, and_true]
  exact ⟨vmadw.effect, vlea.effect⟩

theorem singleWidthRows_effect : ∀ c ∈ [Instr.scan, .match, .fdot2], ∀ x : FV3, HasEffect (c x) (WritesV x.d.toNat 32) := by
  obtain ⟨-, -, -, -, -, -, scan, equal⟩ := laneExchange
  obtain ⟨-, -, -, -, -, -, -, -, fdot2⟩ := floatResults
  simp only [List.forall_mem_cons, List.not_mem_nil, false_implies, implies_true, and_true]
  exact ⟨fun x => hasEffect_of_issued fun s p hp => ⟨_, .inr ⟨_, rfl⟩, scan s p x hp⟩,
    fun x => hasEffect_of_issued fun s p hp => ⟨_, .inr ⟨_, rfl⟩, equal s p x hp⟩,
    fun x s p hp => ⟨_, _, drawn_redrawn .., .inr ⟨_, rfl⟩, fdot2 s p x hp⟩⟩

theorem fieldRows_effect : ∀ c ∈ [Instr.vbfe, .vbfi], ∀ x : FVI, HasEffect (c x) (WritesV x.d.toNat 32) := by
  simp only [List.forall_mem_cons, List.not_mem_nil, false_implies, implies_true, and_true]
  refine ⟨?vbfe, ?vbfi⟩
  all_goals exact fun _ => hasEffect_of_issued fun _ _ hp => ⟨_, .inr ⟨_, rfl⟩, issue_vec hp rfl rfl⟩

theorem bcast_effect (x : FVI) : HasEffect (.bcast x) (WritesV x.d.toNat (opWidth x.ty)) := by
  refine hasEffect_of_issued fun s p hp => ?_
  cases source : bcastSource x p.k (p.t.readP 5 x.px.toNat).v with
  | none => exact ⟨id, .inl rfl, exec_bcast_of_none hp source⟩
  | some l => exact ⟨_, .inr ⟨_, rfl⟩, exec_bcast_of_some hp source⟩

theorem exchangeRows_effect : ∀ c ∈ [Instr.shfl, .bcast, .srdVector], ∀ x : FVI, HasEffect (c x) (WritesV x.d.toNat (opWidth x.ty)) := by
  simp only [List.forall_mem_cons, List.not_mem_nil, false_implies, implies_true, and_true]
  refine ⟨?shfl, bcast_effect, ?srdVector⟩
  all_goals exact fun _ => hasEffect_of_issued fun _ _ hp => ⟨_, .inr ⟨_, rfl⟩, issue_vec hp rfl rfl⟩

theorem vli_effect (x : FX) : HasEffect (.vli x) (WritesV x.d.toNat (opWidth x.ty)) :=
  hasEffect_of_issued fun _ _ hp => ⟨_, .inr ⟨_, rfl⟩, issue_vec hp rfl rfl⟩

theorem predicateRows_effect : ∀ c ∈ [Instr.vcmp, .fcmp, .pand, .por, .pxor, .pnot, .pmov, .vote, .ptest], ∀ x : FV3,
    HasEffect (c x) (WritesP x.d.toNat) := by
  simp only [List.forall_mem_cons, List.not_mem_nil, false_implies, implies_true, and_true]
  refine ⟨?vcmp, ?fcmp, ?pand, ?por, ?pxor, ?pnot, ?pmov, ?vote, ?ptest⟩
  all_goals exact fun _ => hasEffect_of_issued fun _ _ hp => ⟨_, ⟨_, rfl⟩, issue_task hp rfl rfl⟩

theorem immPredicateRows_effect : ∀ c ∈ [Instr.psets, .psetsImm, .fclass], ∀ x : FVI, HasEffect (c x) (WritesP x.d.toNat) := by
  simp only [List.forall_mem_cons, List.not_mem_nil, false_implies, implies_true, and_true]
  refine ⟨?psets, ?psetsImm, ?fclass⟩
  all_goals exact fun _ => hasEffect_of_issued fun _ _ hp => ⟨_, ⟨_, rfl⟩, issue_task hp rfl rfl⟩

theorem nop_effect (x : FC) : HasEffect (.nop x) fun _ f => f = id :=
  hasEffect_of_issued fun _ _ hp => ⟨_, rfl, issue_unchanged hp rfl⟩

/-! ### Only the destination differs -/

/-- u is t but for the registers named and the marks of outstanding writes (R73). -/
def Task.ChangedIn (t u : Task) (dv du dp : Nat → Prop) : Prop :=
  ∃ vs us ps pend, u = { t with v := vs, u := us, p := ps, pend := pend } ∧
    (∀ r, ¬ dv r → tabGet vs r = tabGet t.v r) ∧ (∀ r, ¬ du r → tabGet us r = tabGet t.u r) ∧ (∀ r, ¬ dp r → tabGet ps r = tabGet t.p r)

section
variable {dv du dp : Nat → Prop}

theorem Task.changedIn_self (t : Task) : t.ChangedIn t dv du dp :=
  ⟨_, _, _, _, rfl, fun _ _ => rfl, fun _ _ => rfl, fun _ _ => rfl⟩

theorem Task.changedIn_writeV (t : Task) {d : Nat} (k : Mask) (x : VReg) (named : dv d) : t.ChangedIn (t.writeV d k x) dv du dp :=
  ⟨_, _, _, _, rfl, fun _ h => tabGet_tabSet_other _ _ fun hr => h (hr ▸ named), fun _ _ => rfl, fun _ _ => rfl⟩

theorem Task.changedIn_writeU (t : Task) {d : Nat} (x : UReg) (named : du d) : t.ChangedIn (t.writeU d x) dv du dp :=
  ⟨_, _, _, _, rfl, fun _ _ => rfl, fun _ h => tabGet_tabSet_other _ _ fun hr => h (hr ▸ named), fun _ _ => rfl⟩

theorem Task.changedIn_writeP (t : Task) {d : Nat} (k : Mask) (x : PReg) (named : dp d) : t.ChangedIn (t.writeP d k x) dv du dp :=
  ⟨_, _, _, _, rfl, fun _ _ => rfl, fun _ _ => rfl, fun _ h => tabGet_tabSet_other _ _ fun hr => h (hr ▸ named)⟩

theorem Task.ChangedIn.trans {t u w : Task} (h : t.ChangedIn u dv du dp) (h' : u.ChangedIn w dv du dp) : t.ChangedIn w dv du dp := by
  obtain ⟨_, _, _, _, rfl, hv, hu, hp⟩ := h
  obtain ⟨_, _, _, _, rfl, hv', hu', hp'⟩ := h'
  exact ⟨_, _, _, _, rfl, fun r hr => (hv' r hr).trans (hv r hr), fun r hr => (hu' r hr).trans (hu r hr), fun r hr => (hp' r hr).trans (hp r hr)⟩

/-- A result of 64 bits takes a pair (R98). -/
theorem Task.changedIn_writeVec (t : Task) {d n : Nat} (k : Mask) (xs : Lanes) (named : dv d) (pair : n = 64 → dv (d + 1)) :
    t.ChangedIn (t.writeVec d n k xs) dv du dp := by
  unfold Task.writeVec
  split
  · next wide => exact (t.changedIn_writeV _ _ named).trans (Task.changedIn_writeV _ _ _ (pair (eq_of_beq wide)))
  · exact t.changedIn_writeV _ _ named

theorem Task.ChangedIn.fields {t u : Task} (h : t.ChangedIn u dv du dp) :
    (∀ r, ¬ dv r → tabGet u.v r = tabGet t.v r) ∧ (∀ r, ¬ du r → tabGet u.u r = tabGet t.u r) ∧ (∀ r, ¬ dp r → tabGet u.p r = tabGet t.p r) ∧
    u.q = t.q ∧ u.acc = t.acc ∧ u.joins = t.joins ∧ u.cf = t.cf ∧ u.xtask = t.xtask ∧ u.xdead = t.xdead ∧ u.exited = t.exited ∧
    u.xtile = t.xtile ∧ u.xtagB = t.xtagB ∧ u.xepc = t.xepc ∧ u.xcause = t.xcause ∧ u.xsyn = t.xsyn ∧ u.xaddr = t.xaddr ∧
    u.xunit = t.xunit ∧ u.xhnd = t.xhnd ∧ u.stack = t.stack ∧ u.splits = t.splits := by
  obtain ⟨_, _, _, _, rfl, hv, hu, hp⟩ := h
  exact ⟨hv, hu, hp, rfl, rfl, rfl, rfl, rfl, rfl, rfl, rfl, rfl, rfl, rfl, rfl, rfl, rfl, rfl, rfl, rfl⟩

/-- A split that goes on keeps its lanes. -/
theorem Split.advance_lanes (x : Split) (clk words nslot : Nat) :
    (x.advance clk words nslot).xact = x.xact ∧ (x.advance clk words nslot).pxact = x.pxact ∧ (x.advance clk words nslot).held = x.held := by
  unfold Split.advance
  split <;> exact ⟨rfl, rfl, rfl⟩

/-- The issuing task after a change of registers, its split being at y. -/
theorem taskSame_of_changedIn {p : Issuer} {i : Instr} {w : Task} (hx : p.t.split p.e = some p.x) (h : (p.marked i).ChangedIn w dv du dp) {y : Split}
    (lanes : y.xact = p.x.xact ∧ y.pxact = p.x.pxact ∧ y.held = p.x.held) : TaskSame p (w.setSplit p.e (some y)) dv du dp := by
  obtain ⟨v, u, pr, q, acc, joins, cf, xtask, xdead, exited, xtile, xtagB, xepc, xcause, xsyn, xaddr, xunit, xhnd, stack, splits⟩ := h.fields
  have others (e : Nat) (he : e ≠ p.e) : w.split e = p.t.split e :=
    (Task.split_of_splits splits e).trans (Task.split_setSplit_other _ he)
  have own : w.split p.e = some p.here := (Task.split_of_splits splits p.e).trans (Issuer.split_marked i hx)
  exact ⟨v, u, pr, q, acc, joins, cf, xtask, xdead, exited, xtile, xtagB, xepc, xcause, xsyn, xaddr, xunit, xhnd, stack,
    fun e he => (Task.split_setSplit_other _ he).trans (others e he), y, Task.split_setSplit_same own _, lanes⟩

end

theorem Mach.core_modCore (m : Mach) (i c : Nat) (f : Core → Core) : (m.modCore i f).core c = if c = i then f (m.core c) else m.core c := by
  split
  · next h => subst h; exact tabGetD_tabSet_same ..
  · next h => exact tabGetD_tabSet_other _ _ _ h

/-- The generators are no part of the memories of a core. -/
theorem Mach.Redrawn.core_memories {m m' : Mach} (h : m.Redrawn m') (c : Nat) : (m'.core c).spad = (m.core c).spad ∧ (m'.core c).l1 = (m.core c).l1 := by
  obtain rfl | ⟨core, part, rng, rfl⟩ := h
  · exact ⟨rfl, rfl⟩
  · rw [Mach.core_modCore]
    split <;> exact ⟨rfl, rfl⟩

section
variable {s : State} {m : Mach} {p : Issuer} {i : Instr} {f : Task → Task}

theorem Mach.Redrawn.memorySame (h : s.m.Redrawn m) : MemorySame s.m (s.issuedOn m p i f).m := by
  have home : m.mem = s.m.mem := by obtain rfl | ⟨_, _, _, rfl⟩ := h <;> rfl
  refine ⟨fun a => ?_, fun c a => ?_⟩
  · exact ⟨congrArg (Memory.byte · a) home, congrArg (Memory.poisoned · a) home⟩
  · obtain ⟨spad, l1⟩ := h.core_memories c
    exact ⟨congrArg (Memory.byte · a) spad, congrArg (Memory.poisoned · a) spad, congrArg (tabGet · (sectorOf a)) l1⟩

theorem Mach.Redrawn.othersSame (h : s.m.Redrawn m) : OthersSame s (s.issuedOn m p i f) p.tid := by
  have others (n : Nat) (hn : n ≠ p.tid) : (s.issuedOn m p i f).m.task n = s.m.task n := tabGet_tabSet_other _ _ hn
  obtain rfl | ⟨core, part, rng, rfl⟩ := h
  all_goals exact ⟨others, rfl, rfl, rfl, rfl, rfl, rfl, rfl, rfl⟩

end

section
variable {i : Instr} {d n : Nat} {dv du dp : Nat → Prop}

theorem HasEffect.registersOnly {P : Issuer → (Task → Task) → Prop} (h : HasEffect i P)
    (changes : ∀ p f (t : Task), P p f → t.ChangedIn (f t) dv du dp) : RegistersOnly i dv du dp := by
  intro s t p hp hexec
  obtain ⟨m, f, redrawn, hP, runs⟩ := h s p hp
  obtain ⟨-, -, hx, -⟩ := State.issuer_some hp
  obtain rfl : s.issuedOn m p i f = t := Host.Outcome.next.inj (runs.symm.trans hexec)
  exact ⟨redrawn.memorySame, redrawn.othersSame, _, tabGet_tabSet_same ..,
    taskSame_of_changedIn hx (changes p f _ hP) (Split.advance_lanes ..)⟩

theorem HasEffect.registersOnly_of_writesV (h : HasEffect i (WritesV d n)) (named : dv d) (pair : n = 64 → dv (d + 1)) :
    RegistersOnly i dv noReg noReg := by
  refine h.registersOnly ?_
  rintro p _ t (rfl | ⟨xs, rfl⟩)
  · exact t.changedIn_self
  · exact t.changedIn_writeVec _ _ named pair

theorem HasEffect.registersOnly_of_writesU (h : HasEffect i (WritesU d)) : RegistersOnly i noReg (· = d) noReg :=
  h.registersOnly fun _ _ t ⟨_, hf⟩ => hf ▸ t.changedIn_writeU _ rfl

theorem HasEffect.registersOnly_of_writesP (h : HasEffect i (WritesP d)) : RegistersOnly i noReg noReg (· = d) :=
  h.registersOnly fun _ _ t ⟨_, hf⟩ => hf ▸ t.changedIn_writeP _ _ rfl

end

/-- Settles O51: each instruction has an effect of the class of its destination (HasEffect), and a write of that class leaves all else. -/
theorem registerInstructionsChangeOnlyTheirDestination : Obligations.RegisterInstructionsChangeOnlyTheirDestination := by
  unfold Obligations.RegisterInstructionsChangeOnlyTheirDestination
  exact ⟨fun c hc x => (uniformRows_effect c hc x).registersOnly_of_writesU, fun x => (sli_effect x).registersOnly_of_writesU,
    fun c hc x => (readRows_effect c hc x).registersOnly_of_writesU,
    fun c hc x => (ownWidthRows_effect c hc x).registersOnly_of_writesV (.inl rfl) fun wide => .inr ⟨wide, rfl⟩,
    fun c hc x => (doubleWidthRows_effect c hc x).registersOnly_of_writesV (.inl rfl) fun _ => .inr rfl,
    fun c hc x => (fieldRows_effect c hc x).registersOnly_of_writesV rfl nofun,
    fun c hc x => (exchangeRows_effect c hc x).registersOnly_of_writesV (.inl rfl) fun wide => .inr ⟨wide, rfl⟩,
    fun x => (vli_effect x).registersOnly_of_writesV (.inl rfl) fun wide => .inr ⟨wide, rfl⟩,
    fun c hc x => (singleWidthRows_effect c hc x).registersOnly_of_writesV rfl nofun,
    fun c hc x => (predicateRows_effect c hc x).registersOnly_of_writesP,
    fun c hc x => (immPredicateRows_effect c hc x).registersOnly_of_writesP,
    fun c hc x => (reductionRows_effect c hc x).registersOnly_of_writesU,
    fun x => (nop_effect x).registersOnly fun _ _ t hf => hf ▸ t.changedIn_self⟩

/-! ### Only the contributing lanes are written -/

/-- Outside lanes k every vector register and predicate of u is that of t. -/
def Task.SameOutside (k : Mask) (t u : Task) : Prop :=
  ∀ l, l < 32 → k.getLsbD l = false → ∀ r,
    at32 (u.vRaw r).e l = at32 (t.vRaw r).e l ∧ (u.vRaw r).poi.getLsbD l = (t.vRaw r).poi.getLsbD l ∧
    (u.pRaw r).v.getLsbD l = (t.pRaw r).v.getLsbD l ∧ (u.pRaw r).poi.getLsbD l = (t.pRaw r).poi.getLsbD l

section
variable {k : Mask} {l : Nat}

theorem VReg.at32_merge_outside (lane : l < 32) (outside : k.getLsbD l = false) (new old : VReg) :
    at32 (VReg.merge k new old).e l = at32 old.e l := by
  simp [at32, VReg.merge, lanes32, lane, outside, -BitVec.getLsbD_eq_getElem]

theorem getLsbD_merge_outside (lane : l < 32) (outside : k.getLsbD l = false) (new old : Mask) :
    ((new &&& k) ||| (old &&& ~~~k)).getLsbD l = old.getLsbD l := by
  simp [lane, outside, -BitVec.getLsbD_eq_getElem]

end

theorem Task.vRaw_writeV (t : Task) (d r : Nat) (k : Mask) (x : VReg) :
    (t.writeV d k x).vRaw r = if r = d then VReg.merge k x (t.vRaw r) else t.vRaw r := by
  split
  · next h => subst h; exact tabGetD_tabSet_same ..
  · next h => exact tabGetD_tabSet_other _ _ _ h

theorem Task.pRaw_writeP (t : Task) (d r : Nat) (k : Mask) (x : PReg) :
    (t.writeP d k x).pRaw r = if r = d then PReg.merge k x (t.pRaw r) else t.pRaw r := by
  split
  · next h => subst h; exact tabGetD_tabSet_same ..
  · next h => exact tabGetD_tabSet_other _ _ _ h

theorem Task.sameOutside_self (k : Mask) (t : Task) : t.SameOutside k t := fun _ _ _ _ => ⟨rfl, rfl, rfl, rfl⟩

theorem Task.SameOutside.trans {k : Mask} {t u w : Task} (h : t.SameOutside k u) (h' : u.SameOutside k w) : t.SameOutside k w := by
  intro l lane outside r
  obtain ⟨ve, vp, pv, pp⟩ := h l lane outside r
  obtain ⟨ve', vp', pv', pp'⟩ := h' l lane outside r
  exact ⟨ve'.trans ve, vp'.trans vp, pv'.trans pv, pp'.trans pp⟩

theorem Task.sameOutside_writeV (t : Task) (d : Nat) (k : Mask) (x : VReg) : t.SameOutside k (t.writeV d k x) := by
  intro l lane outside r
  rw [Task.vRaw_writeV]
  split
  · exact ⟨VReg.at32_merge_outside lane outside .., getLsbD_merge_outside lane outside .., rfl, rfl⟩
  · exact ⟨rfl, rfl, rfl, rfl⟩

theorem Task.sameOutside_writeP (t : Task) (d : Nat) (k : Mask) (x : PReg) : t.SameOutside k (t.writeP d k x) := by
  intro l lane outside r
  rw [Task.pRaw_writeP]
  split
  · exact ⟨rfl, rfl, getLsbD_merge_outside lane outside .., getLsbD_merge_outside lane outside ..⟩
  · exact ⟨rfl, rfl, rfl, rfl⟩

theorem Task.sameOutside_writeVec (t : Task) (d n : Nat) (k : Mask) (xs : Lanes) : t.SameOutside k (t.writeVec d n k xs) := by
  unfold Task.writeVec
  split
  · exact (t.sameOutside_writeV _ _ _).trans (Task.sameOutside_writeV _ _ _ _)
  · exact t.sameOutside_writeV _ _ _

/-- The contributing lanes are those of xact whose guard is true (R98). -/
theorem getLsbD_guardLanes (t : Task) (g : Guard) (xact : Mask) {l : Nat} (lane : l < 32) :
    (guardLanes t g xact).1.getLsbD l = true ↔
      xact.getLsbD l = true ∧ (g.pred = 12 ∨ ((t.readP 8 g.pred.toNat).v.getLsbD l = true ↔ g.neg = false)) := by
  unfold guardLanes
  split
  · next always => simp [eq_of_beq always]
  · next guarded =>
    have pred : g.pred ≠ 12 := by simpa using guarded
    rw [or_iff_right pred]
    cases g.neg <;> simp [lane, and_comm, -BitVec.getLsbD_eq_getElem]

section
variable {i : Instr} {d n : Nat}

theorem HasEffect.lanesKept {P : Issuer → (Task → Task) → Prop} (h : HasEffect i P)
    (outside : ∀ p f (t : Task), P p f → t.SameOutside p.k (f t)) : LanesKept i (guardOf i) := by
  intro s t p hp hexec
  obtain ⟨m, f, -, hP, runs⟩ := h s p hp
  obtain ⟨-, -, -, -, -, -, -, -, lanes⟩ := State.issuer_some hp
  obtain rfl : s.issuedOn m p i f = t := Host.Outcome.next.inj (runs.symm.trans hexec)
  refine ⟨fun l lane => ?_, _, tabGet_tabSet_same .., outside p f (p.marked i) hP⟩
  rw [← getLsbD_guardLanes p.t (guardOf i) p.x.xact lane, lanes]

theorem HasEffect.lanesKept_of_writesV (h : HasEffect i (WritesV d n)) : LanesKept i (guardOf i) := by
  refine h.lanesKept ?_
  rintro p _ t (rfl | ⟨xs, rfl⟩)
  · exact t.sameOutside_self p.k
  · exact t.sameOutside_writeVec _ _ _ _

theorem HasEffect.lanesKept_of_writesP (h : HasEffect i (WritesP d)) : LanesKept i (guardOf i) :=
  h.lanesKept fun _ _ t ⟨_, hf⟩ => hf ▸ t.sameOutside_writeP _ _ _

end

/-- Settles O60: each instruction writes the contributing lanes of one register or pair (HasEffect), and a merge keeps the elements and poison of the others. -/
theorem otherLanesKeepTheirElements : Obligations.OtherLanesKeepTheirElements := by
  unfold Obligations.OtherLanesKeepTheirElements
  have own := fun c hc x => (ownWidthRows_effect c hc x).lanesKept_of_writesV
  have double := fun c hc x => (doubleWidthRows_effect c hc x).lanesKept_of_writesV
  have single := fun c hc x => (singleWidthRows_effect c hc x).lanesKept_of_writesV
  have predicates := fun c hc x => (predicateRows_effect c hc x).lanesKept_of_writesP
  have fields := fun c hc x => (fieldRows_effect c hc x).lanesKept_of_writesV
  have exchange := fun c hc x => (exchangeRows_effect c hc x).lanesKept_of_writesV
  have immPredicates := fun c hc x => (immPredicateRows_effect c hc x).lanesKept_of_writesP
  simp only [List.forall_mem_cons, List.not_mem_nil, false_implies, implies_true, and_true] at own double single predicates fields exchange immPredicates ⊢
  refine ⟨?v3, ?vi, fun x => (vli_effect x).lanesKept_of_writesV⟩
  case v3 =>
    obtain ⟨vmov, vadd, vsub, vmul, vmulh, vmad, vaddc, vabs, vneg, vmin, vmax, vand, vor, vxor, vnot, vshl, vshr, vsar, vrot, vpopc, vclz, vbrev, vsel,
      fadd, fsub, fmul, ffma, fmin, fmax, fabs, fneg, fsqrt, frnd, frcp, frsq, fexp2, flog2, fsin, fcos⟩ := own
    obtain ⟨vmadw, vlea⟩ := double
    obtain ⟨scan, equal, fdot2⟩ := single
    obtain ⟨vcmp, fcmp, pand, por, pxor, pnot, pmov, vote, ptest⟩ := predicates
    exact ⟨vmov, vadd, vsub, vmul, vmulh, vmad, vmadw, vaddc, vabs, vneg, vmin, vmax, vand, vor, vxor, vnot, vshl, vshr, vsar, vrot, vpopc, vclz, vbrev,
      vsel, vlea, fadd, fsub, fmul, ffma, fmin, fmax, fabs, fneg, fsqrt, frnd, frcp, frsq, fexp2, flog2, fsin, fcos, fdot2, vcmp, fcmp, pand, por, pxor,
      pnot, pmov, vote, scan, equal, ptest⟩
  case vi =>
    obtain ⟨vbfe, vbfi⟩ := fields
    obtain ⟨shfl, bcast, -⟩ := exchange
    obtain ⟨psets, psetsImm, fclass⟩ := immPredicates
    exact ⟨vbfe, vbfi, psets, psetsImm, fclass, shfl, bcast⟩

end Sys2Proof.Machine
end

section
/-! PROOFS. Words that the spec writes out (R128, R135, R159, R170, R188, R189, R220, R337, R399, R414). -/

namespace Sys2Proof.Machine

/-- Settles O55: the decoder is run on each word. -/
theorem wordsOfTheSpecDecode : Obligations.WordsOfTheSpecDecode := by
  unfold Obligations.WordsOfTheSpecDecode
  refine ⟨?bra, ?trap, ?sigchk, ?atom, ?st, ?sgadd, ?qpush, ?srd, ?ssub, ?sbrnz, ?sli, ?tend, ?spawnHeader, ?mma, ?vcmp⟩
  all_goals rfl

end Sys2Proof.Machine
end

section
/-! PROOFS. The events of the splits of a task (R140, R232, R235, R237, R239, R242): where each one is due, and what it makes of the task. -/

namespace Sys2Proof.Machine

/-- An event of the machine that is due in a live state happens. -/
theorem gives_of_due {i : Instr} {s : State} {r : Option Mach} {m : Mach} (runs : exec i s = event s r) (live : s.live = true) (due : r = some m) :
    Gives i s m := by
  simp only [Gives, runs, due, event, live, Bool.not_true, Bool.false_eq_true, if_false]

theorem execIssueGrant_of_no_grants {s : State} (live : s.live = true) (grants : s.grants = []) :
    execIssueGrant s =
      let s' := if s.granted then s.tick else s
      .next { s' with m := s'.m.grants.2, grants := s'.m.grants.1, granted := true } := by
  simp only [execIssueGrant, live, grants, Bool.not_true, Bool.false_eq_true, List.isEmpty_nil, if_false]

theorem promotionDue_of_count {s : State} {tid e : Nat} {t : Task} {x : Split} (ht : s.m.task tid = some t) (hx : t.split e = some x)
    (count : 4096 ≤ x.promo) (unpromoted : x.promoted = false) :
    promotionDue tid e s = some (s.m.modTask tid fun t => t.modSplit e fun x => { x with promoted := true, promo := 0 }) := by
  simp only [promotionDue, ht, Option.bind_some, hx, count, unpromoted, decide_true, Bool.not_false, Bool.and_self, if_true]

/-- A completed join that holds no arrivals only becomes invalid (DEDUCED, log 29). -/
theorem joinCompleteDue_of_arrived {s : State} {tid j : Nat} {t : Task} (ungranted : s.granted = false) (ht : s.m.task tid = some t)
    (alive : t.ending = none) (valid : (t.join j).valid = true) (due : (t.join j).due = true) :
    joinCompleteDue tid j s = some (s.m.setTask tid (t.modJoin j fun x => { x with valid := false, occ := x.arrived != 0 })) := by
  simp only [joinCompleteDue, ht, ungranted, alive, valid, due, Bool.not_false, Option.isNone_none, Bool.and_self, if_true]

/-! ### Placements -/

/-- An occupied join can be placed, or an entry is free for the top of the stack (R232, R235). -/
def Task.Placeable (t : Task) : Prop :=
  (∃ j < 8, (t.join j).occ = true ∧ ((t.join j).due = true ∨ t.freeEntry.isSome = true)) ∨ (t.freeEntry.isSome = true ∧ t.stack ≠ [])

theorem Task.placeable_iff (t : Task) :
    t.Placeable ↔ ((List.range 8).any (fun j => (t.join j).occ && ((t.join j).due || t.freeEntry.isSome)) ||
      (t.freeEntry.isSome && !t.stack.isEmpty)) = true := by
  simp [Task.Placeable]

theorem splitPlacementDue_of_placeable {s : State} {tid : Nat} {t : Task} (ungranted : s.granted = false) (ht : s.m.task tid = some t)
    (alive : t.ending = none) (unmerged : t.mergedAt ≠ some s.m.clk) (placeable : t.Placeable) :
    splitPlacementDue tid s =
      let waiting := (List.range 8).foldl (fun (t : Task) j => t.placeJoin s.m.clk j false) t
      let completed := (List.range 8).foldl (fun (t : Task) j => t.placeJoin s.m.clk j true) waiting
      some (s.m.setTask tid (completed.popAll s.m.clk 4)) := by
  simp only [splitPlacementDue, ht, ungranted, alive, bne_iff_ne.mpr unmerged, t.placeable_iff.mp placeable, Bool.not_false, Option.isNone_none,
    Bool.and_self, if_true]

/-! ### Merges -/

/-- The entries whose splits merge with the split x of entry e (R237). -/
def Task.mates (t : Task) (e : Nat) (x : Split) : List Nat :=
  (List.range 4).filter fun k => k != e && match t.split k with
    | some y => mergeable x y
    | none => false

/-- The split x once the split of entry k has merged into it (R237). -/
def Task.joinEntry (t : Task) (x : Split) (k : Nat) : Split :=
  match t.split k with
  | some y => x.join y
  | none => x

/-- The task once the splits of some entries have merged into the split x of entry e at the start of cycle clk (R237). -/
def Task.mergedInto (t : Task) (clk e : Nat) (x : Split) (others : List Nat) : Task :=
  { (others.foldl (fun t k => t.setSplit k none) t).setSplit e (some (others.foldl t.joinEntry x)) with mergedAt := some clk }

theorem Task.mates_eq (t : Task) (e : Nat) (x : Split) :
    t.mates e x = (List.range 4).filter fun k => k != e && ((t.split k).map (mergeable x)).getD false :=
  List.filter_congr fun k _ => by cases t.split k <;> rfl

theorem splitMergeDue_eq {s : State} {tid e : Nat} {t : Task} {x : Split} (ht : s.m.task tid = some t) (hx : t.split e = some x) :
    splitMergeDue tid e s =
      if s.granted || (t.mates e x).isEmpty || (t.mates e x).any (· < e) || (List.range 8).any (fun j => !(t.join j).arrivals.isEmpty) then none
      else some (s.m.setTask tid (t.mergedInto s.m.clk e x (t.mates e x))) := by
  simp only [splitMergeDue, ht, hx]
  rfl

theorem splitMergeDue_of_mates {s : State} {tid e : Nat} {t : Task} {x : Split} (ungranted : s.granted = false) (ht : s.m.task tid = some t)
    (hx : t.split e = some x) (unarrived : ∀ j < 8, (t.join j).arrivals = []) (mates : t.mates e x ≠ []) (lowest : ∀ k ∈ t.mates e x, e < k) :
    splitMergeDue tid e s = some (s.m.setTask tid (t.mergedInto s.m.clk e x (t.mates e x))) := by
  have nonempty : (t.mates e x).isEmpty = false := List.isEmpty_eq_false_iff.mpr mates
  have noLower : (t.mates e x).any (· < e) = false := by
    simpa using fun k hk => Nat.le_of_lt (lowest k hk)
  have noArrival : (List.range 8).any (fun j => !(t.join j).arrivals.isEmpty) = false := by
    simpa using unarrived
  simp only [splitMergeDue_eq ht hx, ungranted, nonempty, noLower, noArrival, Bool.or_self, Bool.false_eq_true, if_false]

/-- Settles O30: in each clause the event is due and makes of the task what its definition says; a merge joins the parts one after the other. -/
theorem splitEvents : Obligations.SplitEvents := by
  unfold Obligations.SplitEvents
  refine ⟨fun s live grants => execIssueGrant_of_no_grants live grants,
    fun s tid e t x live ht hx count unpromoted => gives_of_due rfl live (promotionDue_of_count ht hx count unpromoted),
    fun s tid j t live ungranted ht alive valid due => gives_of_due rfl live (joinCompleteDue_of_arrived ungranted ht alive valid due),
    fun s tid t live ungranted ht alive unmerged placeable =>
      gives_of_due rfl live (splitPlacementDue_of_placeable ungranted ht alive unmerged placeable), ?merge⟩
  case merge =>
    intro s tid e t x others live ungranted ht hx unarrived mates lowest hothers
    obtain rfl : others = t.mates e x := hothers.trans (t.mates_eq e x).symm
    exact gives_of_due rfl live (splitMergeDue_of_mates ungranted ht hx unarrived mates lowest)

end Sys2Proof.Machine
end

section
/-! PROOFS. Takes and refills (R251, R253): the sources that a core tries in turn, and the two steps of the read of a spilled block. -/

namespace Sys2Proof.Machine

/-! ### The sources of a take -/

theorem takenBy_eq (m : Mach) (core ctx : Nat) (e : Entry) (addr : Nat) :
    takenBy m core ctx e addr = (m.takeInHand core ctx e addr).noteTake core ctx := rfl

theorem Mach.onceACycle_of_untaken {m m' : Mach} {core : Nat} {r : Option Mach} (untaken : (m.core core).tookAt ≠ some m.clk) (took : r = some m') :
    m.onceACycle core r = some (tookNow m' m.clk core) := by
  simp only [Mach.onceACycle, beq_eq_false_iff_ne.mpr untaken, took, Bool.false_eq_true, if_false, Option.map_some, tookNow]

/-- Whether the entry at the head of a die's inbox is aged (R247). -/
def Mach.headAged (m : Mach) (c : Ctx) (ctx die : Nat) : Bool := match m.inboxNext c ctx die with
  | some (e, _, _) => m.aged c e
  | none => false

theorem Mach.headAged_of_next {m : Mach} {c : Ctx} {ctx die addr : Nat} {e : Entry} {carried : Bool}
    (next : m.inboxNext c ctx die = some (e, addr, carried)) : m.headAged c ctx die = m.aged c e := by
  simp only [Mach.headAged, next]

theorem Mach.headAged_of_young {m : Mach} {c : Ctx} {ctx die : Nat} (young : ∀ y, m.inboxNext c ctx die = some y → m.aged c y.1 = false) :
    m.headAged c ctx die = false := by
  cases next : m.inboxNext c ctx die with
  | none => simp only [Mach.headAged, next]
  | some y => exact (m.headAged_of_next next).trans (young y next)

/-- The request that a core sends when its own sources are empty: in-die, unless it has one out or its die is due to steal across dies (R258, R259). -/
def Mach.inDieRequest (m : Mach) (core ctx : Nat) (c : Ctx) : Option Mach :=
  if (m.core core).request.isSome then none
  else if m.crossDue c ctx (dieOf core) && (m.die (dieOf core)).crossRequest.isNone then none
  else m.stealInDie core

/-- Sources that are tried in turn, as the first that gives something. -/
theorem sources_eq_or (aged own inbox request : Option Mach) (bare : Bool) :
    (match aged with
      | some m => some m
      | none => match own with
        | some m => some m
        | none => if !bare then none else match inbox with
          | some m => some m
          | none => request) = aged.or (own.or (if bare then inbox.or request else none)) := by
  cases aged with
  | some m => rfl
  | none => cases own with
    | some m => rfl
    | none => cases bare with
      | false => rfl
      | true => cases inbox <;> rfl

/-- The sources of a take, in the order in which a core that may take tries them (R253). -/
theorem MayTake.take_eq {s : State} {core ctx : Nat} {c : Ctx} (may : MayTake s core ctx c) :
    s.m.take core =
      (if s.m.headAged c ctx (dieOf core) then s.m.takeInbox core ctx c else none).or
        ((s.m.takeOwn core ctx c).or
          (if s.m.bare core then (s.m.takeInbox core ctx c).or (s.m.inDieRequest core ctx c) else none)) := by
  obtain ⟨-, ⟨hctx, hc⟩, seeks, running, -⟩ := may
  simp only [Mach.take, hctx, hc, seeks, running, Bool.not_true, Option.isSome_none, Bool.false_eq_true, if_false]
  exact sources_eq_or ..

theorem Mach.takeInbox_of_none {m : Mach} {core ctx : Nat} {c : Ctx} (empty : m.inboxNext c ctx (dieOf core) = none) : m.takeInbox core ctx c = none := by
  simp only [Mach.takeInbox, empty]

theorem Mach.takeInbox_of_next {m : Mach} {core ctx : Nat} {c : Ctx} {e : Entry} {addr : Nat} {carried : Bool}
    (next : m.inboxNext c ctx (dieOf core) = some (e, addr, carried)) (mine : e.pin = true → e.who = core)
    (allowed : c.permits e (dieOf core) = true ∨ e.lost = true) :
    m.takeInbox core ctx c = some (takenBy (m.inboxTake ctx (dieOf core) carried) core ctx e addr) := by
  have unpinned : (e.pin && e.who != core) = false := by
    cases hp : e.pin with
    | false => rfl
    | true => simp [mine hp]
  simp only [Mach.takeInbox, next, unpinned, Bool.or_eq_true, allowed, Bool.false_eq_true, if_true, if_false, takenBy_eq]

theorem Mach.takeOwn_of_bare {m : Mach} {core ctx : Nat} {c : Ctx} (running : c.pending = none) (bare : m.bare core = true) :
    m.takeOwn core ctx c = none := by
  simp only [Mach.bare, Bool.and_eq_true, List.isEmpty_iff] at bare
  obtain ⟨⟨empty, -⟩, -⟩ := bare
  simp only [Mach.takeOwn, running, empty, Option.isSome_none, Bool.false_eq_true, if_false, List.getLast?_nil, ite_self]

theorem Mach.takeOwn_of_last {m : Mach} {core ctx n : Nat} {c : Ctx} {e : Entry} {l : List Seat} (running : c.pending = none)
    (still : (m.core core).refilling = false) (last : (m.core core).deque.getLast? = some e) (seated : (m.admission core ctx c e []).1 = .seats l n) :
    m.takeOwn core ctx c = some (takenBy (m.modCore core fun k => { k with deque := k.deque.dropLast }) core ctx e 0) := by
  obtain ⟨m', admitted⟩ : ∃ m', m.admission core ctx c e [] = (.seats l n, m') := ⟨_, Prod.ext seated rfl⟩
  simp only [Mach.takeOwn, running, still, last, admitted, Option.isSome_none, Bool.false_eq_true, if_false, Mach.modCore, beq_self_eq_true, if_true,
    takenBy_eq]

theorem Mach.inDieRequest_of_victim {m : Mach} {core ctx v : Nat} {c : Ctx} (idle : (m.core core).request = none)
    (within : m.crossDue c ctx (dieOf core) = false ∨ (m.die (dieOf core)).crossRequest ≠ none)
    (victim : let others := ((List.range m.logCores).map fun l => coreNo (dieOf core) l).filter (· != core)
      others[Config.victim m.nextId % others.length]? = some v) :
    m.inDieRequest core ctx c = some (m.fresh.2.modCore core fun k => { k with request := some v }) := by
  have notCross : (m.crossDue c ctx (dieOf core) && (m.die (dieOf core)).crossRequest.isNone) = false := by
    simpa only [Bool.and_eq_false_iff, Option.isNone_eq_false_iff, Option.isSome_iff_ne_none] using within
  simp only at victim
  simp only [Mach.inDieRequest, idle, notCross, Option.isSome_none, Bool.false_eq_true, if_false, Mach.stealInDie, victim]

/-! ### Refills -/

theorem Mach.refill_of_onCore {m : Mach} {core ctx : Nat} {c : Ctx} (on : OnCore m core ctx c) (spilled : (m.core core).overflow ≠ 0) :
    m.refill core =
      let k := m.core core
      let base := c.ovfBlock core (k.overflow - 1)
      if k.refilling then some (m.setCore core { k with
        refilling := false
        overflow := k.overflow - 1
        deque := ((List.range 256).map fun n => m.readEntry (base + 128 * n) (base + 0x8000 + 16 * n)) ++ k.deque })
      else if k.deque.isEmpty then some (m.setCore core { k with refilling := true })
      else none := by
  obtain ⟨hctx, hc⟩ := on
  simp only [Mach.refill, hctx, hc, Option.bind_some, beq_eq_false_iff_ne.mpr spilled, Bool.false_eq_true, if_false]

/-- Settles O32: a take is the first of its sources that gives something (MayTake.take_eq), and each clause names one source after the empty ones before it;
a refill of a spilled core begins or ends by its state. -/
theorem takesAndRefills : Obligations.TakesAndRefills := by
  unfold Obligations.TakesAndRefills
  refine ⟨?inbox, ?own, ?steal, ?refill⟩
  case inbox =>
    intro s core ctx c e addr carried may next turn mine allowed
    have ⟨live, _, _, running, untaken⟩ := may
    have taken := Mach.takeInbox_of_next next mine allowed
    refine gives_of_due rfl live (Mach.onceACycle_of_untaken untaken ?_)
    have haged := Mach.headAged_of_next next
    cases aged : s.m.aged c e with
    | true => simp only [may.take_eq, haged, aged, taken, if_true, Option.some_or]
    | false =>
      have bare : s.m.bare core = true := turn.resolve_left (Bool.eq_false_iff.mp aged)
      simp only [may.take_eq, haged, aged, Mach.takeOwn_of_bare running bare, bare, taken, Bool.false_eq_true, if_false, if_true, Option.none_or,
        Option.some_or]
  case own =>
    intro s core ctx c e l n may young still last seated
    have ⟨live, _, _, running, untaken⟩ := may
    refine gives_of_due rfl live (Mach.onceACycle_of_untaken untaken ?_)
    simp only [may.take_eq, Mach.headAged_of_young young, Mach.takeOwn_of_last running still last seated, Bool.false_eq_true, if_false,
      Option.none_or, Option.some_or]
  case steal =>
    intro s core ctx c v may bare empty idle within others victim
    have ⟨live, _, _, running, untaken⟩ := may
    refine gives_of_due rfl live (Mach.onceACycle_of_untaken untaken ?_)
    simp only [may.take_eq, Mach.takeInbox_of_none empty, Mach.takeOwn_of_bare running bare, bare, ite_self, if_true, Option.none_or,
      Mach.inDieRequest_of_victim idle within victim]
  case refill =>
    intro s core ctx c live on
    refine ⟨fun spilled still empty => gives_of_due rfl live ?_, fun spilled reading => gives_of_due rfl live ?_⟩
    · simp only [refillDue, Mach.refill_of_onCore on spilled, still, empty, Bool.false_eq_true, if_false, List.isEmpty_nil, if_true]
    · simp only [refillDue, Mach.refill_of_onCore on spilled, reading, if_true]

end Sys2Proof.Machine
end

section
/-! PROOFS. Steals (R252, R258 to R260), write-backs on request (R294) and what a die publishes (R257). -/

namespace Sys2Proof.Machine

/-! ### Requests as they are served -/

/-- The core whose deque a request is for: the one it names, or the one that its die passes it on to; none when that die looks in its inbox (R259). -/
def Mach.askedCore (m : Mach) (c : Ctx) (ctx v : Nat) : Option Nat := if v < 2 ^ 16 then some v else m.bridge c ctx (v - 2 ^ 16)

/-- The reply to a thief from the inbox of a die. -/
def inboxReplied (m : Mach) (thief die ctx : Nat) (c : Ctx) : Mach :=
  match m.inboxNext c ctx die with
  | some (e, addr, carried) =>
    if e.pin ∨ c.permits e (dieOf thief) = false then m.modCore thief fun k => { k with reply := some none }
    else if e.lost then ((m.inboxTake ctx die carried).loseEntry thief ctx e addr).modCore thief fun k => { k with reply := some none }
    else (m.inboxTake ctx die carried).modCore thief fun k => { k with reply := some (some e) }
  | none => m.modCore thief fun k => { k with reply := some none }

theorem some_replied (m : Mach) (thief victim ctx : Nat) (c : Ctx) :
    some (replied m thief victim ctx c) =
      match m.stealable c victim (dieOf thief) with
      | some e =>
        let given := m.modCore victim fun k => { k with deque := k.deque.erase e, gaveAt := some m.clk }
        if e.lost then some ((given.loseEntry thief ctx e 0).modCore thief fun k => { k with reply := some none })
        else some (given.modCore thief fun k => { k with reply := some (some e) })
      | none => some (m.modCore thief fun k => { k with reply := some none }) := by
  unfold replied
  cases m.stealable c victim (dieOf thief) with
  | none => rfl
  | some e => exact apply_ite some ..

/-- A deque may give an entry to a thief in this cycle: no other thief's request comes first, its owner makes no pop, and it has
given none (R252; DEDUCED, log 28). -/
def MayGive (m : Mach) (c : Ctx) (ctx thief victim : Nat) : Prop :=
  m.servedBefore c ctx thief victim = false ∧ m.popsNow victim = false ∧ (m.core victim).gaveAt ≠ some m.clk

theorem Mach.askedCore_of_core (m : Mach) (c : Ctx) (ctx : Nat) {v : Nat} (isCore : v < 2 ^ 16) : m.askedCore c ctx v = some v := if_pos isCore

theorem Mach.askedCore_of_die (m : Mach) (c : Ctx) (ctx die : Nat) : m.askedCore c ctx (2 ^ 16 + die) = m.bridge c ctx die := by
  rw [Mach.askedCore, if_neg (by omega), Nat.add_sub_cancel_left]

theorem MayServe.serveSteal_of_core {m : Mach} {thief ctx v k : Nat} {c : Ctx} (may : MayServe m thief ctx c) (asks : (m.core thief).request = some v)
    (asked : m.askedCore c ctx v = some k) (gives : MayGive m c ctx thief k) : m.serveSteal thief = some (replied m thief k ctx c) := by
  obtain ⟨⟨hctx, hc⟩, unanswered, untaken⟩ := may
  obtain ⟨first, unpopped, ungiven⟩ := gives
  by_cases isCore : v < 2 ^ 16
  · obtain rfl : v = k := Option.some.inj ((m.askedCore_of_core c ctx isCore).symm.trans asked)
    simp only [Mach.serveSteal, asks, hctx, hc, unanswered, beq_eq_false_iff_ne.mpr untaken, isCore, first, unpopped,
      beq_eq_false_iff_ne.mpr ungiven, Bool.or_self, Bool.false_eq_true, if_true, if_false]
    exact (some_replied ..).symm
  · have bridged : m.bridge c ctx (v - 2 ^ 16) = some k := (if_neg isCore).symm.trans asked
    simp only [Mach.serveSteal, asks, hctx, hc, unanswered, beq_eq_false_iff_ne.mpr untaken, isCore, bridged, first, unpopped,
      beq_eq_false_iff_ne.mpr ungiven, Bool.or_self, Bool.false_eq_true, if_false]
    exact (some_replied ..).symm

theorem MayServe.serveSteal_of_inbox {m : Mach} {thief ctx v : Nat} {c : Ctx} (may : MayServe m thief ctx c) (asks : (m.core thief).request = some v)
    (unasked : m.askedCore c ctx v = none) : m.serveSteal thief = some (inboxReplied m thief (v - 2 ^ 16) ctx c) := by
  obtain ⟨⟨hctx, hc⟩, unanswered, untaken⟩ := may
  have isDie : ¬ v < 2 ^ 16 := fun isCore => nomatch (m.askedCore_of_core c ctx isCore).symm.trans unasked
  have unbridged : m.bridge c ctx (v - 2 ^ 16) = none := (if_neg isDie).symm.trans unasked
  simp only [Mach.serveSteal, asks, hctx, hc, unanswered, beq_eq_false_iff_ne.mpr untaken, isDie, unbridged, Bool.false_eq_true, if_false]
  unfold inboxReplied
  cases m.inboxNext c ctx (v - 2 ^ 16) with
  | none => rfl
  | some y => simp only [apply_ite some, Bool.or_eq_true, Bool.not_eq_true']

/-! ### Requests across dies, and replies -/

theorem MayTake.crossDieStealDue_of_victim {s : State} {core ctx v : Nat} {c : Ctx} (may : MayTake s core ctx c) (bare : s.m.bare core = true)
    (idle : (s.m.core core).request = none) (quiet : (s.m.die (dieOf core)).crossRequest = none) (empty : s.m.inboxNext c ctx (dieOf core) = none)
    (due : s.m.crossDue c ctx (dieOf core) = true) (victim : s.m.crossVictim c ctx (dieOf core) = some v) :
    crossDieStealDue core s = some (tookNow ((s.m.modCore core fun k => { k with request := some (2 ^ 16 + v) }).modDie (dieOf core) fun d =>
      { d with crossRequest := some core }) s.m.clk core) := by
  obtain ⟨-, ⟨hctx, hc⟩, seeks, running, untaken⟩ := may
  refine Mach.onceACycle_of_untaken untaken ?_
  simp only [hctx, hc, seeks, bare, running, idle, quiet, empty, due, victim, Option.isSome_none, Bool.not_true, Bool.or_self, Bool.false_eq_true,
    if_false]

/-- The machine once a core has got the reply to its request to v, and a reply across dies leaves its die free to ask again (R258, R259). -/
def replyRead (m : Mach) (core v : Nat) : Mach :=
  let m := m.setCore core { m.core core with request := none, reply := none, tookAt := some m.clk }
  if 2 ^ 16 ≤ v then m.modDie (dieOf core) fun d => { d with crossRequest := none } else m

/-- The machine once a core has got the reply r to its request to v: an entry from its own die counts as a take of the die (R258 to R260). -/
def replyTaken (m : Mach) (core ctx v : Nat) : Option Entry → Mach
  | none => replyRead m core v
  | some e => if 2 ^ 16 ≤ v then (replyRead m core v).takeInHand core ctx e 0 else takenBy (replyRead m core v) core ctx e 0

theorem stealReplyDue_of_reply {s : State} {core ctx v : Nat} {c : Ctx} {r : Option Entry} (on : OnCore s.m core ctx c)
    (replies : (s.m.core core).reply = some r) (asks : (s.m.core core).request = some v) (handFree : r ≠ none → (s.m.core core).hand = none) :
    stealReplyDue core s = some (replyTaken s.m core ctx v r) := by
  obtain ⟨hctx, -⟩ := on
  cases r with
  | none => simp only [stealReplyDue, replies, hctx, asks, replyTaken, replyRead, decide_eq_true_eq]
  | some e =>
    simp only [stealReplyDue, replies, hctx, asks, handFree (Option.some_ne_none e), replyTaken, replyRead, takenBy_eq, decide_eq_true_eq,
      Option.isSome_none, Bool.false_eq_true, if_false]

/-! ### Write-backs and publication -/

theorem execWritebackRequest_of_dirty {s : State} {core n : Nat} {gen g : BitVec 16} {x : Sector} (held : (n, x) ∈ (s.m.core core).l1)
    (dirty : x.state = .dirty g) (upTo : g.toNat ≤ gen.toNat) : execWritebackRequest core gen s = event s (some (s.m.writeback core gen)) := by
  have due : ((s.m.core core).l1.any fun (_, x) => match x.state with
      | .dirty e => decide (e.toNat ≤ gen.toNat)
      | _ => false) = true := List.any_eq_true.mpr ⟨(n, x), held, by simp only [dirty, upTo, decide_true]⟩
  exact congrArg (event s) (if_pos due)

theorem meridianPublishDue_of_change {s : State} (now : s.m.xclk.toNat % 256 = 0) (changes : s.m.publish ≠ s.m) :
    meridianPublishDue s = some s.m.publish := by
  simp only [meridianPublishDue, now, bne_iff_ne.mpr changes, beq_self_eq_true, Bool.and_self, if_true]

/-- Settles O33: a request is served by the core that it is for (Mach.askedCore), or by the inbox of its die; a lost entry leaves an empty reply (log 50). -/
theorem stealEvents : Obligations.StealEvents := by
  unfold Obligations.StealEvents
  refine ⟨?inDie, ?bridged, ?fromInbox, ?crossDie, ?reply, ?writeback, ?publish⟩
  case inDie =>
    intro s thief ctx v c live may asks isCore first unpopped ungiven
    exact gives_of_due rfl live (may.serveSteal_of_core asks (s.m.askedCore_of_core c ctx isCore) ⟨first, unpopped, ungiven⟩)
  case bridged =>
    intro s thief ctx die k c live may asks bridge first unpopped ungiven
    exact gives_of_due rfl live (may.serveSteal_of_core asks ((s.m.askedCore_of_die c ctx die).trans bridge) ⟨first, unpopped, ungiven⟩)
  case fromInbox =>
    intro s thief ctx die c live may asks unbridged
    have served := may.serveSteal_of_inbox asks ((s.m.askedCore_of_die c ctx die).trans unbridged)
    rw [Nat.add_sub_cancel_left] at served
    exact gives_of_due rfl live served
  case crossDie =>
    intro s core ctx v c may bare idle quiet empty due victim
    exact gives_of_due rfl may.1 (may.crossDieStealDue_of_victim bare idle quiet empty due victim)
  case reply =>
    intro s core ctx v c r live on replies asks handFree
    exact gives_of_due rfl live (stealReplyDue_of_reply on replies asks handFree)
  case writeback =>
    intro s core gen g n x live held dirty upTo
    exact gives_of_due (execWritebackRequest_of_dirty held dirty upTo) live rfl
  case publish =>
    intro s live now changes
    exact gives_of_due rfl live (meridianPublishDue_of_change now changes)

end Sys2Proof.Machine
end

section
/-! PROOFS. The entry in a core's hand: its admission as a team (R254), its resumption (R268), and the staging of its operands (R255). -/

namespace Sys2Proof.Machine

/-! ### Admission and resumption -/

theorem Mach.inHand_of_hand {m : Mach} {core ctx : Nat} {c : Ctx} {e : Entry} (on : OnCore m core ctx c) (holds : (m.core core).hand = some e) :
    m.inHand core e.isResume = some (ctx, c, e) := by
  obtain ⟨hctx, hc⟩ := on
  simp only [Mach.inHand, holds, hctx, hc, beq_self_eq_true, if_true, Option.map_some]

/-- What ADMIT_ENTRY makes of the closure entry in a core's hand, by what its admission says (R254). -/
theorem Mach.enter_of_closure {m : Mach} {core ctx : Nat} {c : Ctx} {e : Entry} (on : OnCore m core ctx c) (holds : (m.core core).hand = some e)
    (closure : e.isResume = false) :
    m.enter core = match m.admission core ctx c e [] with
      | (.seats l n, m') => some (((handEmpty m' core).formTeam core ctx c e l n).countReaders m'.nextId (m'.readersOf core ctx e))
      | (.killed a b d, m') => some ((handEmpty m' core).killEntry core ctx e a b d)
      | (.room, m') => some ((handEmpty m' core).pushBack core ctx e)
      | (.hold, m') => if m' == m then none else some m' := by
  have inHand := m.inHand_of_hand on holds
  rw [closure] at inHand
  simp only [Mach.enter, inHand] <;> rfl

theorem Mach.resume_of_sound {m m₁ m₂ : Mach} {core ctx n : Nat} {c : Ctx} {e : Entry} {l : List Seat} (on : OnCore m core ctx c)
    (holds : (m.core core).hand = some e) (resumes : e.isResume = true) (admitted : m.admission core ctx c e [] = (.seats l n, m₁))
    (present : m₁.mtilePage core ctx (l.filterMap (·.frame)) = (false, m₂))
    (sound : ∀ p ∈ c.resumed e.frame, ∃ q ∈ l.filterMap (·.frame), q.tid = p.tid) :
    m.resume core = some ((m₂.modCore core fun k => { k with hand := none }).restoreAll core ctx c l n) := by
  have inHand := m.inHand_of_hand on holds
  rw [resumes] at inHand
  have noneBad : ((c.resumed e.frame).filter fun p => !(l.filterMap (·.frame)).any fun q => q.tid == p.tid) = [] :=
    List.filter_eq_nil_iff.mpr fun p hp => by
      simpa only [Bool.not_eq_true', Bool.not_eq_false, List.any_eq_true, beq_iff_eq] using sound p hp
  simp only [Mach.resume, inHand, admitted, present, noneBad, List.foldl_nil]

/-! ### Staging -/

theorem Mach.staged_of_gathered {m m' : Mach} {team len : Nat} {g : Team} {bytes : List (Nat × List (Byte × Bool))}
    (staging : m.stagingTeam team = some g) (gathered : m.stage g = (len, ⟨bytes, none, false⟩, m')) :
    m.staged team =
      let filled := (m'.modCore g.core fun k => { k with
        spad := bytes.foldl (fun (mem : Memory) y => mem.storeBytes (g.spadBase + y.1) y.2) (k.spad.clear g.spadBase len) }).dropAgent (stagingAgent g.core)
      some ((filled.dropReaders team).modMembers team fun t =>
        { t with state := .ready, splits := [some (startSplit t.entry (filled.dropReaders team).clk), none, none, none] }) := by
  simp only [Mach.staged, staging, gathered, Option.isSome_none, Bool.false_eq_true, if_false]

theorem Mach.stagingFails_of_fault {m m' : Mach} {team len c r d h a : Nat} {g : Team} {bytes : List (Nat × List (Byte × Bool))} {w : Bool}
    (staging : m.stagingTeam team = some g) (faulted : m.stage g = (len, ⟨bytes, some (c, r, d, h, a), w⟩, m')) :
    m.stagingFails team =
      let recorded := m'.errorRecord g.ctx [recordHead 6 c r d (unitOf g.core 0 5) m'.xdev.toNat, m'.xclk, g.leader, BitVec.ofNat 64 a, 0, 0, g.future, 0]
      let failed := recorded.modTeam team fun g => { g with poison := g.poison || c == 8, killed := g.killed || c != 8, unsettled := true }
      some (((failed.modMembers team fun t => t.finish (.staging (c == 8))).dropAgent (stagingAgent g.core)).dropReaders team) := by
  simp only [Mach.stagingFails, staging, faulted]

/-- Settles O34: what the admission says of the entry in hand decides what ADMIT_ENTRY makes of it; no task of a resume entry whose frames are
sound is killed; staging ends with what it has gathered or with its fault. -/
theorem admissionEvents : Obligations.AdmissionEvents := by
  unfold Obligations.AdmissionEvents
  refine ⟨?admission, ?resume, ?complete, ?fault⟩
  case admission =>
    intro s core ctx c e m live on holds closure
    have entered := Mach.enter_of_closure on holds closure
    refine ⟨fun l n seated => gives_of_due rfl live ?_, fun a b d killed => gives_of_due rfl live ?_, fun crowded => gives_of_due rfl live ?_⟩
    · simp only [admitEntryDue, entered, seated]
    · simp only [admitEntryDue, entered, killed]
    · simp only [admitEntryDue, entered, crowded]
  case resume =>
    intro s core ctx c e l n m m' live on holds resumes admitted present sound
    exact gives_of_due rfl live (Mach.resume_of_sound on holds resumes admitted present sound)
  case complete =>
    intro s team len g bytes m live staging gathered
    exact gives_of_due rfl live (Mach.staged_of_gathered staging gathered)
  case fault =>
    intro s team len c r d h a g bytes w m live staging faulted
    exact gives_of_due rfl live (Mach.stagingFails_of_fault staging faulted)

end Sys2Proof.Machine
end

section
/-! PROOFS. Evictions, fills and errors of the arrays (R295, R403, R404, R406, R407, R425), and the die-to-die links (R422, R423). -/

namespace Sys2Proof.Machine

/-! ### Sectors between L1, L2 and HBM4E -/

theorem execL1Eviction_of_held {s : State} {core n : Nat} {x : Sector} (held : s.m.l1 core (32 * n) = some x) :
    execL1Eviction core n s = event s (some (s.m.evict core (32 * n))) := by
  simp only [execL1Eviction, held, Option.isNone_some, Bool.false_eq_true, if_false]

theorem Mach.l2Evict_of_resident {m : Mach} {n : Nat} (held : n ∈ m.resident) :
    m.l2Evict n =
      let noted := if m.foundUpsets n = [] then m else m.logReason 4 0 (32 * n) 0
      let gone := { noted with resident := noted.resident.filter (· != n), upsets := noted.upsets.filter fun w => w.1 / 8 != n }
      some (if gone.mem.anyPoison (32 * n) 32 then { gone with mem := gone.mem.poisonSector n } else gone) := by
  simp only [Mach.l2Evict, List.contains_iff_mem.mpr held, List.isEmpty_iff, Bool.not_true, Bool.false_eq_true, if_false]

/-- The machine that has sector n in L2, once the ECC and, in a carve-out, the tag have been read (R403, R406, R407). -/
def Mach.decoded (m : Mach) (n : Nat) (ctx : Option Nat) : Ecc → Bool → Mach
  | .good, false => m
  | .corrected, false => m.logReason 3 0 (32 * n) 0
  | .corrected, true => (m.upsetWords (32 * n) 8).logReason 4 1 (32 * n) 0
  | .bad, bad => (m.upsetWords (32 * n) 8).logReason 4 (if bad then 2 else 0) (32 * n) 0
  | .good, true => (m.upsetWords (32 * n) 8).integrity n ctx

/-- A sector that L2 does not hold: the poison codeword is recognised first (R404). -/
theorem Mach.hbmFill_of_absent {m : Mach} {n : Nat} {ctx : Option Nat} (ecc : Ecc) {tagBad : Bool} (low : n < 2 ^ 35) (absent : n ∉ m.resident)
    (tagged : tagBad = true → 32 * n / 2 ^ 29 ∈ m.carveOuts) (known : ∀ c, ctx = some c → (m.ctx c).isSome = true) :
    m.hbmFill n ctx ecc tagBad =
      let filled := { m with resident := insertNat m.resident n }
      some (if m.mem.anyPoison (32 * n) 32 then { filled with mem := m.mem.poisonSector n }
        else filled.decoded n ctx ecc tagBad) := by
  have fillable : (decide (2 ^ 35 ≤ n) || m.resident.contains n || (tagBad && !m.carveOuts.contains (32 * n / 2 ^ 29)) ||
      ctx.any fun c => (m.ctx c).isNone) = false := by
    simp only [Bool.or_eq_false_iff, decide_eq_false_iff_not, Nat.not_le, Bool.and_eq_false_imp, Bool.not_eq_false', List.contains_iff_mem]
    refine ⟨⟨⟨low, by simpa using absent⟩, tagged⟩, ?_⟩
    cases ctx with
    | none => rfl
    | some c => simpa using known c rfl
  unfold Mach.hbmFill
  simp only [fillable, Bool.false_eq_true, if_false]
  split
  · rfl
  · cases ecc <;> cases tagBad <;> rfl

/-! ### Control arrays and soft errors -/

theorem Mach.killControl_of_running {m : Mach} {tid : Nat} {t : Task} (ht : m.task tid = some t) (running : t.ending = none) :
    m.killControl tid =
      let future := ((m.team t.team).map (·.future)).getD 0
      some ((m.errorRecord t.ctx [recordHead 1 0 0 0 (unitOf t.core t.part 0) m.xdev.toNat, m.xclk, t.xtask, 0, t.xepc, t.xsyn, future, 0]).modTask
        tid fun t => t.finish .killed) := by
  simp only [Mach.killControl, ht, running, Option.isSome_none, Bool.false_eq_true, if_false]
  cases m.team t.team <;> rfl

theorem execSoftError_of_upset {s : State} {site : Site} {m : Mach} (upset : s.m.upset site = some m) :
    execSoftError site 1 s = event s (some (s.m.logReason 3 0 0 0)) ∧ ∀ bits, 2 ≤ bits → execSoftError site bits s = event s (some m) := by
  refine ⟨by rw [execSoftError, upset]; rfl, fun bits several => ?_⟩
  have notNone : (bits == 0) = false := by simp; omega
  have notOne : (bits == 1) = false := by simp; omega
  simp only [execSoftError, notNone, notOne, upset, Bool.false_eq_true, if_false]

/-! ### Die-to-die links -/

theorem firmEvent_of_due {s t : State} {r : Option State} (live : s.live = true) (due : r = some t) : firmEvent s r = .next t := by
  simp only [firmEvent, due, live, Bool.not_true, Bool.false_eq_true, if_false]

theorem State.replayFlit_of_module {s : State} {link : Nat} (seq : Nat) (low : link < 256) (valid : validDomain (domainNo 2 0 link) = true) :
    s.replayFlit link seq =
      let n := match tabGet s.fw.unacked link with
        | some (q, n) => if q = seq then n + 1 else 1
        | none => 1
      some { s with
        fw := { s.fw with linkReplays := tabSet s.fw.linkReplays link (s.replays link ++ [s.m.clk]), unacked := tabSet s.fw.unacked link (seq, n) }
        m := if 16 ≤ n then (s.m.logReason 6 0 link seq).faultAll 4 else s.m.logReason 6 0 link seq } := by
  have known : (!validDomain (domainNo 2 0 link) || decide (256 ≤ link)) = false := by simp [valid, low]
  unfold State.replayFlit
  simp only [known, Bool.false_eq_true, if_false, beq_iff_eq] <;> rfl

theorem State.repairLink_of_due {s : State} {link : Nat} {bad : List Nat} (low : link < 256) (valid : validDomain (domainNo 2 0 link) = true)
    (nonempty : bad ≠ []) (lanes : ∀ b ∈ bad, b < 68) :
    let marked := (s.fw.wearOf (domainNo 2 0 link)).marked && !s.fw.noSpareLane link
    64 < (s.replays link).length ∨ marked = true →
    s.repairLink link bad =
      let lanes := bad.foldl insertNat (tabGetD s.fw.linkLanes link [])
      let fw := { s.fw with linkLanes := tabSet s.fw.linkLanes link lanes, linkReplays := tabErase s.fw.linkReplays link,
                            unacked := tabErase s.fw.unacked link }
      let fw := if marked then fw.modWear (domainNo 2 0 link) fun w => { w with marked := false, stopped := false } else fw
      let m := s.m.logReason 8 0 link lanes.length
      some { s with fw := fw.serviced, m := if (boundaryModules link).all fw.linkDead then m.faultAll 4 else m } := by
  intro marked due
  have fits : (bad.any fun b => decide (68 ≤ b)) = false := List.any_eq_false.mpr fun b hb => by simpa using lanes b hb
  have dueNow : (!(decide (64 < (s.replays link).length) || marked)) = false := by
    simpa only [Bool.not_eq_false', Bool.or_eq_true, decide_eq_true_eq] using due
  have anyBad : bad.isEmpty = false := List.isEmpty_eq_false_iff.mpr nonempty
  have high : decide (256 ≤ link) = false := by simpa using low
  unfold State.repairLink
  simp only [valid, high, anyBad, fits, Bool.not_true, Bool.false_or]
  exact if_neg (ne_true_of_eq_false dueNow)

/-- Settles O39: each event is due where its statement says so, and its equation gives what it makes of the machine; the fields of the records and log entries and
the lanes that a module can lose are the model's (DESIGN CHOICE and DEDUCED, logs 30, 31, 32 and 77). -/
theorem arrayAndLinkEvents : Obligations.ArrayAndLinkEvents := by
  unfold Obligations.ArrayAndLinkEvents
  refine ⟨?l1, ?l2, ?fill, ?control, ?soft, ?replay, ?repair⟩
  case l1 =>
    intro s core n x live held
    exact gives_of_due (execL1Eviction_of_held held) live rfl
  case l2 =>
    intro s n live held
    exact gives_of_due rfl live (Mach.l2Evict_of_resident held)
  case fill =>
    intro s n ctx ecc tagBad live low absent tagged known
    exact gives_of_due rfl live (Mach.hbmFill_of_absent ecc low absent tagged known)
  case control =>
    intro s live
    refine ⟨fun core idx there => gives_of_due rfl live (if_neg (Nat.not_le.mpr there)), fun die idx there => gives_of_due rfl live (if_neg (Nat.not_le.mpr there)),
      fun tid t ht running => gives_of_due rfl live (Mach.killControl_of_running ht running), fun ctx c known => gives_of_due rfl live ?_⟩
    simp only [Mach.controlError, known, Option.isNone_some, Bool.false_eq_true, if_false]
  case soft =>
    intro s site m live upset
    obtain ⟨corrected, uncorrected⟩ := execSoftError_of_upset upset
    exact ⟨gives_of_due corrected live rfl, fun bits several => gives_of_due (uncorrected bits several) live rfl⟩
  case replay =>
    intro s link seq live low valid
    exact firmEvent_of_due live (State.replayFlit_of_module seq low valid)
  case repair =>
    intro s link bad live low valid lanes fit marked due
    exact firmEvent_of_due live (State.repairLink_of_due low valid lanes fit due)

end Sys2Proof.Machine
end

section
/-! PROOFS. The frame of STS (R153) fails at a scratchpad that is not in canonical form (Memory.wf), which its statement does not ask for: a store of 0 takes
the cell of its byte out of the list, and a cell behind it that no read found is found. -/

namespace Sys2Proof.Machine

/-- STS of the low byte of s0 at the offset in s0 plus 1. -/
def zeroStore : FM := ⟨plainGuard, 0, 0, 0, true, true, .b8, .rlx, .team, .none, false, 0, 1⟩

/-- A scratchpad whose cells fall: a read of byte 0 stops at the cell of byte 1 and finds 0. -/
def fallingSpad : Memory := ⟨[(1, 9), (0, 7)], []⟩

/-- The state after reset with a task that is to issue zeroStore, a scratchpad of 4 bytes for its team, and fallingSpad for its core. -/
def fallingState : State :=
  let s := State.reset.placeInstr ((encode (.sts zeroStore)).getD 0 0) 0
  { s with m := (s.m.modTeam 0 fun g => { g with spadLen := 4 }).modCore 0 fun k => { k with spad := fallingSpad } }

/-- The split that issues it. -/
def fallingIssuer : Issuer := ⟨0, 0, placedTask, { startSplit (BitVec.ofNat 64 placedClause) 0 with pa := some placedClause, readyAt := 0 }, 0xFFFFFFFF⟩

theorem byte_fallingSpad : fallingSpad.byte 0 = 0 := rfl

theorem issuer_fallingState : fallingState.issuer (.sts zeroStore) = some fallingIssuer := rfl

theorem elements_fallingState :
    (fallingIssuer.iss fallingState.m (.sts zeroStore)).elements zeroStore.dk (fallingIssuer.t.offLanes zeroStore) = [(0, 1)] := rfl

/-- The store reaches byte 1 of the scratchpad. -/
theorem spadReached_fallingState : SpadReached fallingState fallingIssuer (.sts zeroStore) zeroStore true (· + ·) := by
  refine ⟨rfl, rfl, fun el hel => ?_, rfl⟩
  rw [elements_fallingState, List.mem_singleton] at hel
  obtain rfl := hel
  rfl

/-- Once it has stored 0 to byte 1, byte 0 reads 7. -/
theorem exec_fallingState : ∃ t, exec (.sts zeroStore) fallingState = .next t ∧ (t.m.core 0).spad.byte 0 = 7 :=
  ⟨_, issue_issuer issuer_fallingState, rfl⟩

/-- Refutes O52: in fallingState STS stores 0 to byte 1 alone, and byte 0 reads 0 before and 7 after; the clause for the scratchpad lacks the hypothesis that its
memory is in canonical form, as CoreSeesItsStores has it for the home slices. -/
theorem not_accessesChangeOnlyWhatTheyStore : ¬ Obligations.AccessesChangeOnlyWhatTheyStore := by
  unfold Obligations.AccessesChangeOnlyWhatTheyStore
  rintro ⟨-, -, scratchpad⟩
  obtain ⟨t, runs, uncovered⟩ := exec_fallingState
  obtain ⟨-, -, others, -⟩ := scratchpad (.sts, true) (by simp) fallingState t fallingIssuer zeroStore (· + ·) issuer_fallingState
    spadReached_fallingState runs
  have kept : (t.m.core 0).spad.byte 0 = fallingSpad.byte 0 := by
    refine others 0 0 fun _ _ el hel j _ stored => ?_
    rw [elements_fallingState, List.mem_singleton] at hel
    obtain rfl := hel
    omega
  have same : (7 : Byte) = 0 := uncovered.symm.trans (kept.trans byte_fallingSpad)
  exact absurd same (by decide)

end Sys2Proof.Machine
end

section
/-! PROOFS. The end of teams: discards (R346), the completion of their futures (R190), the watchdog (R416) and the end of a grace period (R349). -/

namespace Sys2Proof.Machine

theorem Ctx.isNone_pending {c : Ctx} (pending : c.pending ≠ none) : c.pending.isNone = false := by
  simpa only [Option.isNone_eq_false_iff, Option.isSome_iff_ne_none] using pending

/-! ### Futures -/

theorem Mach.completeFuture_of_no_future {m : Mach} {team : Nat} {g : Team} (hg : m.team team = some g) (noFuture : g.future = 0) :
    m.completeFuture team = (true, m) := by
  simp only [Mach.completeFuture, hg, noFuture, beq_self_eq_true, if_true]

/-- A team without a value leaves its status alone in its future. -/
theorem Mach.completeFuture_of_no_value {m : Mach} {team : Nat} {g : Team} (hg : m.team team = some g) (future : g.future ≠ 0) (value : g.value = none) :
    m.completeFuture team = m.writeFuture g (teamStatus g) := by
  have written : m.writeValue team = (true, m) := by simp only [Mach.writeValue, hg, value]
  simp only [Mach.completeFuture, hg, beq_eq_false_iff_ne.mpr future, written, teamStatus, Bool.false_eq_true, if_false]

/-- The completion of a future of this device is a release at `.dev`. -/
theorem Mach.writeFuture_of_here {m m₁ : Mach} {g : Team} {u : FutUpdate} {e : Elt} {pa : Nat} (completes : u.isValue = false)
    (found : m.engineSpot (dieOf g.core) g.ctx g.future.toNat .store acceptUpdate = (.found e (.here pa), m₁)) :
    m.writeFuture g u =
      (true, ((m₁.bump g.core .dev).setRecord pa ((m₁.bump g.core .dev).recordOf g.core .dev)).updateAt g.core pa fun mem => mem.updateFuture pa u) := by
  simp only [Mach.writeFuture, found, completes, Bool.false_eq_true, if_false]

/-- That of another device's is a release at `.fab`, and goes there in a frame. -/
theorem Mach.writeFuture_of_away {m m₁ : Mach} {g : Team} {u : FutUpdate} {e : Elt} {d a : Nat} (completes : u.isValue = false)
    (found : m.engineSpot (dieOf g.core) g.ctx g.future.toNat .store acceptUpdate = (.found e (.away d a), m₁)) :
    m.writeFuture g u = (true, ((m₁.bump g.core .fab).request .free g.ctx (futureFrame d a e.secure .fab u)).2) := by
  simp only [Mach.writeFuture, found, completes, Bool.false_eq_true, if_false]

/-- A team whose members have all departed is gone once its future is complete. -/
theorem Mach.endTeam_of_completed {m m₁ : Mach} {team : Nat} {g : Team} (hg : m.team team = some g) (departed : g.isOver = true)
    (unwritten : m.written g = false) (completed : m.completeFuture team = (true, m₁)) : m.endTeam team = some (teamGone m₁ team g) := by
  simp only [Mach.endTeam, hg, departed, unwritten, completed, Bool.not_true, Bool.or_self, Bool.false_eq_true, if_false]
  cases hl : g.launch <;> simp only [teamGone, hl, Mach.launchTeamEnded]

/-! ### The watchdog -/

theorem Mach.timedOut_of_limit {m : Mach} {t : Task} {c : Ctx} (hc : m.ctx t.ctx = some c) (isTask : t.onComplex = false)
    (limit : fieldOf (c.word 7) 0 48 ≤ t.wdog) : m.timedOut t = true := by
  simp only [Mach.timedOut, Mach.wdogLimit, isTask, hc, Bool.false_eq_true, if_false, Option.map_some, limit, decide_true]

theorem Mach.watchdog_of_timedOut {m : Mach} {tid : Nat} {t : Task} (ht : m.task tid = some t) (alive : t.ending = none) (late : m.timedOut t = true)
    (kept : m.discard t.team = none) (unparked : m.parkEnds tid = false) :
    m.watchdog tid =
      let future := ((m.team t.team).map (·.future)).getD 0
      let recorded := m.errorRecord t.ctx [recordHead 2 0x0D 0 0 (unitOf t.core t.part 0) m.xdev.toNat, m.xclk, t.xtask, 0, t.stoppedAt, 0, future, 0]
      some ((recorded.modTask tid fun t => t.finish .timeout).errorCount t.ctx 48 1) := by
  simp only [Mach.watchdog, ht, alive, late, kept, unparked, Option.isSome_none, Bool.not_true, Bool.or_self, Bool.false_eq_true, if_false]
  cases m.team t.team <;> rfl

/-! ### The grace period -/

theorem Mach.graceOver_of_late {m : Mach} {ctx k : Nat} {c : Ctx} (hc : m.ctx ctx = some c) (pending : c.pending = some k)
    (late : k + fieldOf (c.word 6) 0 40 ≤ m.clk) (sound : c.faulted = false) (stays : ∃ x ∈ m.tasks, x.2.ctx = ctx ∧ x.2.onComplex = false) :
    m.graceOver ctx = some (m.faultContext ctx 1) := by
  have resident : (m.tasks.any fun (_, t) => t.ctx == ctx && !t.onComplex) = true := by
    simpa only [List.any_eq_true, Bool.and_eq_true, beq_iff_eq, Bool.not_eq_true'] using stays
  simp only [Mach.graceOver, hc, pending, Nat.not_lt.mpr late, decide_false, sound, resident, Bool.not_true, Bool.or_self, Bool.false_eq_true, if_false]

end Sys2Proof.Machine

/-! Machine.teamEvents is a list of events of the model, so the theorem stands among the laws. -/

namespace Sys2Proof.Laws

open Machine

/-- Settles O36: each event is due where its statement says so; a future takes the status of its team at its place, here or on another device. XEPC
and CAUSE of the watchdog's record are the model's (DEDUCED, log 30), and so is the frame to another device (DESIGN CHOICE, log 18). -/
theorem teamEvents : Obligations.TeamEvents := by
  unfold Obligations.TeamEvents
  refine ⟨?discard, ?future, ?watchdog, ?grace⟩
  case discard =>
    intro s team g c live ungranted hg hc pending discardable
    refine gives_of_due rfl live ?_
    simp only [discardTeamDue, ungranted, Mach.discard, hg, hc, Ctx.isNone_pending pending, discardable, Bool.not_true, Bool.or_self, Bool.false_eq_true,
      if_false]
  case future =>
    intro s team g live hg departed unwritten
    have ends {m : Mach} (completed : s.m.completeFuture team = (true, m)) : Gives (.teamFutureCompletion team) s (teamGone m team g) :=
      gives_of_due rfl live (Mach.endTeam_of_completed hg departed unwritten completed)
    refine ⟨fun noFuture => ends (Mach.completeFuture_of_no_future hg noFuture), fun future value e m => ?_⟩
    have status := Mach.completeFuture_of_no_value hg future value
    exact ⟨fun pa found => ends (status.trans (Mach.writeFuture_of_here rfl found)),
      fun d a found => ends (status.trans (Mach.writeFuture_of_away rfl found))⟩
  case watchdog =>
    intro s tid t c live ht hc alive isTask limit kept unparked
    exact gives_of_due rfl live (Mach.watchdog_of_timedOut ht alive (Mach.timedOut_of_limit hc isTask limit) kept unparked)
  case grace =>
    intro s ctx k c live hc pending late sound stays
    exact gives_of_due rfl live (Mach.graceOver_of_late hc pending late sound stays)

end Sys2Proof.Laws
end

section
/-! PROOFS. Contexts in time: pre-emption (R342), switch-out (R350, R352) and switch-in (R340, R353). -/

namespace Sys2Proof.Machine

/-- A change of a context is told by what it makes of the context as it stands. -/
theorem Mach.modCtx_eq {m : Mach} {ctx : Nat} {c : Ctx} (hc : m.ctx ctx = some c) (f : Ctx → Ctx) :
    m.modCtx ctx f = { m with ctxs := tabSet m.ctxs ctx (f c) } := by
  simp only [Mach.modCtx, tabMod_some hc]

/-- A runnable resident context becomes pending pre-emption for the contexts that cause it. -/
theorem Mach.setPending_of_causes {m : Mach} {ctx : Nat} {c : Ctx} {causes : Ctx → List Nat} (hc : m.ctx ctx = some c) (resident : c.resident = true)
    (running : c.pending = none) (runnable : m.runnable ctx c = true) (caused : causes c ≠ []) :
    m.setPending ctx causes = some (m.modCtx ctx fun x => { x with pending := some m.clk, causes := causes c }) := by
  simp only [Mach.setPending, hc, resident, running, runnable, List.isEmpty_eq_false_iff.mpr caused, Mach.modCtx_eq hc, Option.isSome_none, Bool.not_true,
    Bool.or_self, Bool.false_eq_true, if_false]

theorem preemptWithdrawDue_of_ceased {s : State} {ctx : Nat} {c : Ctx} (hc : s.m.ctx ctx = some c) (pending : c.pending ≠ none)
    (whole : c.repair = false) (sound : c.faulted = false) (ceased : ∀ x ∈ c.causes, ∀ cx, s.m.ctx x = some cx → s.m.runnable x cx = false) :
    preemptWithdrawDue ctx s = some (s.m.modCtx ctx fun c => { c with pending := none, causes := [] }) := by
  have noCause : (c.causes.any fun x => (s.m.ctx x).any (s.m.runnable x)) = false := by
    simpa only [List.any_eq_false, Bool.not_eq_true, Option.any_eq_false] using ceased
  simp only [preemptWithdrawDue, hc, Ctx.isNone_pending pending, whole, sound, noCause, Bool.or_self, Bool.false_eq_true, if_false]

theorem switchInDue_of_serving {s : State} {dies : List Nat} (ctx : Nat) (serving : s.serving = true) (settled : s.stepDue = false)
    (fit : ∀ d ∈ dies, s.dieUnfit d = false) : switchInDue ctx dies s = s.m.switchedIn ctx dies := by
  have noneUnfit : dies.any s.dieUnfit = false := List.any_eq_false.mpr fun d hd => Bool.not_eq_true _ ▸ fit d hd
  simp only [switchInDue, serving, settled, noneUnfit, Bool.not_true, Bool.or_self, Bool.false_eq_true, if_false]

/-- Settles O37: a context waits for others where one of the two lists of R342 is not empty; what leaves or enters the dies is the model's function of the same
state, once its conditions hold. When a context leaves, what becomes of its packets, its place in the run lists (DEDUCED, logs 41, 42 and 65) and the tiles and
seals that a switch-in knows (DESIGN CHOICE, log 76) are the model's. -/
theorem contextEvents : Obligations.ContextEvents := by
  unfold Obligations.ContextEvents
  refine ⟨?pending, ?withdraw, ?leave, ?enter⟩
  case pending =>
    simp only [List.forall_mem_cons, List.not_mem_nil, false_implies, implies_true, and_true]
    refine ⟨?slice, ?rank⟩
    all_goals exact fun s ctx c live hc resident running runnable caused =>
      gives_of_due rfl live (Mach.setPending_of_causes (causes := fun c => _) hc resident running runnable caused)
  case withdraw =>
    intro s ctx c live hc pending whole sound ceased
    exact gives_of_due rfl live (preemptWithdrawDue_of_ceased hc pending whole sound ceased)
  case leave =>
    intro s ctx lost c m carryn live hc resident leaving vacant before carried
    refine gives_of_due rfl live ?_
    simp only [switchOutDue, Mach.switchedOut, hc, resident, leaving, vacant, Bool.not_true, Bool.or_self, Bool.false_eq_true, if_false]
    rw [show (Mach.saveSeals _ ctx c).writeCarry c _ 0 _ = (m, carryn, lost) from carried]
    simp only [beq_iff_eq]
    rfl
  case enter =>
    intro s ctx dies c live serving settled fit hc entering
    have enters := switchInDue_of_serving ctx serving settled fit
    refine ⟨fun bad => gives_of_due rfl live (enters.trans ?_), fun good => gives_of_due rfl live (enters.trans ?_)⟩
    · simp only [Mach.switchedIn, hc, entering, bad, Bool.not_true, Bool.not_false, Bool.false_eq_true, if_false, if_true]
    · simp only [Mach.switchedIn, hc, entering, good, Mach.modCtx_eq hc, Bool.not_true, Bool.false_eq_true, if_false]

end Sys2Proof.Machine
end

section
/-! PROOFS. Portals (R323, R324), queue records (R322) and the registers of the device (R13). -/

namespace Sys2Proof.Machine

/-- A device that has not failed answers a request from outside (R433). -/
theorem answering_of_standing {s : State} (standing : s.fw.state ≠ .failed) (r : Option Mach) : answering s r = event s r := by
  simp only [answering, beq_eq_false_iff_ne.mpr standing, Bool.false_eq_true, if_false]

/-! ### Portals -/

/-- The portal of a queue takes a DMWr, if the ring has room for it (R324). -/
def HwQueue.Takes (h : HwQueue) (offset : Nat) (words : List Word) (req : HostReq) : Prop :=
  offset = 0 ∧ words.length = 8 ∧ h.enabled = true ∧ h.faulted = false ∧ req ≠ .pf1Open ∧ (h.world = true ↔ req = .pf1)

theorem HwQueue.takes_iff (h : HwQueue) (offset : Nat) (words : List Word) (req : HostReq) :
    h.Takes offset words req ↔
      ¬ (offset != 0 || words.length != 8 || !h.enabled || h.faulted || req == .pf1Open || h.world != (req == .pf1)) = true := by
  have world : (h.world = true ↔ req = .pf1) ↔ h.world = (req == .pf1) := by
    rw [Bool.eq_iff_iff (b := req == .pf1), beq_iff_eq]
  simp only [HwQueue.Takes, world, Bool.or_eq_true, not_or, bne_iff_ne, ne_eq, Decidable.not_not, Bool.not_eq_true', Bool.not_eq_false, Bool.not_eq_true, beq_iff_eq,
    and_assoc]

theorem Mach.portal_of_takes {m : Mach} {q offset : Nat} {words : List Word} {req : HostReq} {h : HwQueue} (hq : m.queue q = some h)
    (takes : h.Takes offset words req) :
    m.portal q offset words req =
      let answered := fun (m : Mach) (st : Nat) => { m with out := m.out ++ [.dmwr st] }
      if h.size ≤ h.accepted - h.started then answered m 2
      else
        let mem := words.zipIdx.foldl (fun (mem : Memory) (y : Word × Nat) => mem.setWord64 (h.slot h.accepted + 8 * y.2) y.1) m.mem
        answered ({ m with mem := mem }.modQueue q fun h => { h with accepted := h.accepted + 1 }) 0 := by
  simp only [Mach.portal, hq, (h.takes_iff offset words req).mp takes, Bool.false_eq_true, if_false]

/-- No queue, or one that does not take the DMWr: Unsupported Request. -/
theorem Mach.portal_of_not_takes {m : Mach} {q offset : Nat} {words : List Word} {req : HostReq}
    (refused : ∀ h, m.queue q = some h → ¬ h.Takes offset words req) : m.portal q offset words req = { m with out := m.out ++ [.dmwr 1] } := by
  cases hq : m.queue q with
  | none => simp only [Mach.portal, hq]
  | some h =>
    have bad := Decidable.not_not.mp (mt (h.takes_iff offset words req).mpr (refused h hq))
    simp only [Mach.portal, hq, bad, if_true]

/-! ### Queue records -/

/-- The owner of a rewritten record is that of its new word 0, OWNER being no reserved field. -/
theorem HwQueue.owner_rewrite (h : HwQueue) (w0 w1 : Word) : (h.rewrite w0 w1).owner = fieldOf (w0 &&& ~~~(BitVec.ofNat 64 (2 ^ 40 - 2 ^ 8))) 0 8 := by
  unfold HwQueue.rewrite
  simp only
  split <;> rfl

/-! ### Registers -/

theorem Ctx.starts_iff (c : Ctx) (i : Nat) (v : Word) :
    c.starts i v = true ↔ i = 0 ∧ v.getLsbD 63 = true ∧ (c.word 0).getLsbD 63 = false := by
  simp only [Ctx.starts, Bool.and_eq_true, beq_iff_eq, Bool.not_eq_true', and_assoc]

theorem Mach.writeRegister_context {m : Mach} {x i : Nat} (v : Word) (hx : x < 256) (hi : i < 32)
    (away : ((m.ctx x).getD (Ctx.blank x)).resident = false) :
    m.writeRegister v (.context x i) =
      let c := (m.ctx x).getD (Ctx.blank x)
      some { m with
        ctxs := tabSet m.ctxs x (c.writeWord i v)
        dies := if i = 0 ∧ v.getLsbD 63 = true ∧ (c.word 0).getLsbD 63 = false then
            m.dies.map fun d => (d.1, { d.2 with serial := tabErase d.2.serial x }) else m.dies } := by
  simp only [Mach.writeRegister, Nat.not_le.mpr hx, Nat.not_le.mpr hi, away, decide_false, Bool.or_self, Bool.false_eq_true, if_false, Ctx.starts_iff]

theorem Mach.writeRegister_group {m : Mach} {n k : Nat} (v : Word) (hn : n < 256) (hk : k < 4100) :
    m.writeRegister v (.group n k) =
      let l := tabGetD m.groups n []
      some { m with groups := tabSet m.groups n ((l ++ List.replicate (k + 1 - l.length) 0).set k v.toNat), collNext := tabErase m.collNext n } := by
  simp only [Mach.writeRegister, Nat.not_le.mpr hn, Nat.not_le.mpr hk, decide_false, Bool.or_self, Bool.false_eq_true, if_false]

/-- Settles O41: a portal answers a DMWr by what its queue takes and by the room in its ring, and a register in range takes its value. That a read of
a portal page is an access of PORTAL_POSTED_WRITE, and the words of a record without a reset value, are the model's (DESIGN CHOICE, logs 80 and 13). -/
theorem portalAndRegisterEvents : Obligations.PortalAndRegisterEvents := by
  unfold Obligations.PortalAndRegisterEvents
  refine ⟨?dmwr, ?page, ?record, ?register⟩
  case dmwr =>
    intro s q offset words req live standing hq4096 answer ok
    have answers {m : Mach} (h : s.m.portal q offset words req = m) : Gives (.portalDmwr q offset words req) s m :=
      gives_of_due (answering_of_standing standing _) live ((if_neg (Nat.not_le.mpr hq4096)).trans (congrArg some h))
    refine ⟨fun h hq takes room => answers ?_, fun h hq takes full => answers ?_, fun refused => answers (Mach.portal_of_not_takes refused)⟩
    · exact (Mach.portal_of_takes hq takes).trans (if_neg (Nat.not_le.mpr room))
    · exact (Mach.portal_of_takes hq takes).trans (if_pos full)
  case page =>
    intro s q live standing hq4096
    have reads (offset : Nat) : Gives (.portalPostedWrite (.read q offset)) s
        { s.m with out := s.m.out ++ [.readAnswer (toBytes 8 (s.m.portalValue q offset).toNat) false] } :=
      gives_of_due (answering_of_standing standing _) live (if_neg (Nat.not_le.mpr hq4096))
    refine ⟨gives_of_due (answering_of_standing standing _) live (if_neg (Nat.not_le.mpr hq4096)), fun h hq row listed => ?_⟩
    have value : s.m.portalValue q row.1 = row.2 := by
      simp only [List.mem_cons, List.not_mem_nil, or_false] at listed
      rcases listed with rfl | rfl | rfl | rfl | rfl | rfl <;> simp only [Mach.portalValue, hq, Option.getD_some]
    exact value ▸ reads row.1
  case record =>
    intro s q w0 w1 live hq4096 w0' h h' owner
    refine gives_of_due rfl live ((if_neg (Nat.not_le.mpr hq4096)).trans ?_)
    simp only [HwQueue.owner_rewrite, Option.isNone_iff_eq_none]
    rfl
  case register =>
    intro s v live
    refine ⟨fun x i hx hi away => gives_of_due rfl live (Mach.writeRegister_context v hx hi away), gives_of_due rfl live rfl, gives_of_due rfl live rfl,
      fun w d hd => gives_of_due rfl live (if_neg (Nat.not_le.mpr hd)), fun d hd => gives_of_due rfl live (if_neg (Nat.not_le.mpr hd)),
      fun g hg => gives_of_due rfl live (if_neg (Nat.not_le.mpr hg)), fun w g hg => gives_of_due rfl live (if_neg (Nat.not_le.mpr hg)),
      fun n k hn hk => gives_of_due rfl live (Mach.writeRegister_group v hn hk), gives_of_due rfl live rfl⟩

end Sys2Proof.Machine
end

section
/-! PROOFS. Packets: the dependences, the check and the start of a packet (R328), its completion (R330), and what each type does (R331, R332). -/

namespace Sys2Proof.Machine

/-! ### Accesses of the front end (R329) -/

theorem feSpot_of_found {m m₁ : Mach} {ctx va : Nat} {use : Use} {accepts : Accepts} {e : Elt} {x : Spot}
    (found : m.engineSpot feDie ctx va use accepts = (.found e x, m₁)) (go : Mach → Elt → Spot → PkRes) :
    feSpot m ctx va use accepts go = go m₁ e x := by
  simp only [feSpot, found]

theorem feHost_of_known {m : Mach} {x : Spot} (known : HostKnown m x) (e : Elt) (go : Mach → PkRes) : feHost m e x go = go m := by
  cases x with
  | host pa => simp only [feHost, known pa rfl, if_true]
  | _ => rfl

/-- Only an address that is found goes on. -/
theorem feSpot_eq_go {m m' : Mach} {ctx va : Nat} {use : Use} {accepts : Accepts} {go : Mach → Elt → Spot → PkRes} {a : Option Packet}
    (runs : feSpot m ctx va use accepts go = .go m' a) :
    ∃ e x m₁, m.engineSpot feDie ctx va use accepts = (.found e x, m₁) ∧ go m₁ e x = .go m' a := by
  unfold feSpot at runs
  split at runs
  next e x m₁ found => exact ⟨e, x, m₁, found, runs⟩
  all_goals cases runs

/-- A wait that is met goes on with the same machine, whatever follows it: here once the word holds and has been acquired, on another device once
its answer has come. -/
theorem feWait_of_met {m m' : Mach} {q ctx va cond : Nat} {v : Word} {after : Mach → Mach}
    (met : feWait m q ctx va cond v (fun m => .go (after m) none) = .go m' none) (go : Mach → PkRes) :
    feWait m q ctx va cond v (fun m => go (after m)) = go m' := by
  unfold feWait at met ⊢
  split at met
  · cases met
  next aligned =>
    obtain ⟨e, x, m₁, found, reads⟩ := feSpot_eq_go met
    rw [if_neg aligned, feSpot_of_found found]
    cases x with
    | here pa =>
      simp only at reads ⊢
      split at reads
      · cases reads
      next clean =>
        rw [if_neg clean]
        split at reads
        next holds =>
          rw [if_pos holds]
          split at reads <;> cases reads
          rfl
        · cases reads
    | away dev a =>
      simp only at reads ⊢
      split at reads
      next answer given =>
        split at reads
        · cases reads
        next accepted =>
          split at reads
          · cases reads
          next clean =>
            cases reads
            rw [if_neg clean]
      all_goals cases reads
    | _ => cases reads

/-! ### Dependences and the check (R328) -/

/-- Dependence i of a packet, then what follows it. -/
def Pk.dependence (p : Pk) (i : Nat) (m : Mach) (go : Mach → PkRes) : PkRes :=
  if i ≤ p.waited || fieldOf (p.word 0) (8 + i) 1 == 0 then go m
  else feWait m p.q p.ctx (p.word i).toNat 0 0 fun m => go (m.modQueue p.q fun h => { h with waited := i })

/-- The check of a packet and of the address of its completion signal, then its start. -/
def Pk.check (p : Pk) (start : Pk → Mach → PkRes) (m : Mach) : PkRes :=
  if pkReserved p.w then .fail 1
  else if pkMisaligned p.w then .fail 2
  else if fieldOf (p.word 0) 11 1 == 1 then feSpot m p.ctx (p.word 3).toNat .store acceptUpdate fun m _ _ => start p m
  else start p m

theorem Pk.run_eq (p : Pk) (m : Mach) (start : Pk → Mach → PkRes) :
    p.run m start = if fieldOf (p.word 0) 8 1 == 1 && !p.idle then .wait m else p.dependence 1 m fun m => p.dependence 2 m (p.check start) := rfl

theorem Pk.dependence_of_met {p : Pk} {i : Nat} {m m' : Mach} (met : DepMet p i m m') (go : Mach → PkRes) : p.dependence i m go = go m' := by
  unfold Pk.dependence
  simp only [Bool.or_eq_true, decide_eq_true_eq, beq_iff_eq]
  unfold DepMet at met
  split at met
  next absent => rw [if_pos absent, met]
  next present => rw [if_neg present]; exact feWait_of_met met go

/-- A packet that need not wait for the ones before it, and whose dependences are met, comes to its check. -/
theorem Pk.run_of_met {p : Pk} {m m₁ m₂ : Mach} (alone : fieldOf (p.word 0) 8 1 = 1 → p.idle = true) (met₁ : DepMet p 1 m m₁)
    (met₂ : DepMet p 2 m₁ m₂) (start : Pk → Mach → PkRes) : p.run m start = p.check start m₂ := by
  have unblocked : ¬ (fieldOf (p.word 0) 8 1 == 1 && !p.idle) = true := by
    simpa only [Bool.and_eq_true, beq_iff_eq, Bool.not_eq_true', not_and, Bool.not_eq_false] using alone
  rw [p.run_eq, if_neg unblocked, Pk.dependence_of_met met₁, Pk.dependence_of_met met₂]

theorem Starts.run_eq {s : State} {q t : Nat} {p : Pk} {m : Mach} (starts : Starts s q t p m) (start : Pk → Mach → PkRes) :
    p.run s.m start = start p m := by
  obtain ⟨-, -, -, -, -, -, -, -, alone, m₁, m₂, met₁, met₂, unreserved, aligned, signal⟩ := starts
  rw [Pk.run_of_met alone met₁ met₂]
  simp only [Pk.check, unreserved, aligned, Bool.false_eq_true, if_false, beq_iff_eq]
  split at signal
  next asks =>
    obtain ⟨e, x, found⟩ := signal
    rw [if_pos asks, feSpot_of_found found]
  next unsignalled => rw [if_neg unsignalled, signal]

/-! ### The start of a packet -/

theorem Mach.inProgress_eq_none {m : Mach} {q : Nat} {f : Packet → Bool} (unlike : ∀ h a, m.queue q = some h → a ∈ h.active → f a = false) :
    m.inProgress q f = none := by
  cases hq : m.queue q with
  | none => simp only [Mach.inProgress, hq]
  | some h =>
    have unfound : h.active.find? f = none := List.find?_eq_none.mpr fun a ha => Bool.not_eq_true _ ▸ unlike h a hq ha
    simp only [Mach.inProgress, hq, unfound, Option.map_none]

theorem Mach.completionSignal_of_unsignalled {m : Mach} {ctx : Nat} {w : List Word} (unsignalled : fieldOf (w.getD 0 0) 11 1 = 0) :
    m.completionSignal ctx w = (true, m) := by
  simp only [Mach.completionSignal, Mach.csigSpot, unsignalled, beq_self_eq_true, if_true]

theorem Mach.completionSignal_of_found {m m₁ : Mach} {ctx : Nat} {w : List Word} {e : Elt} {x : Spot} (signals : fieldOf (w.getD 0 0) 11 1 ≠ 0)
    (found : m.engineSpot feDie ctx (w.getD 3 0).toNat .store acceptUpdate = (.found e x, m₁)) :
    m.completionSignal ctx w = (true, m₁.feSignal ctx (0 - 1) e x) := by
  simp only [Mach.completionSignal, Mach.csigSpot, beq_eq_false_iff_ne.mpr signals, found, Bool.false_eq_true, if_false]

theorem Mach.complete_of_completes {m m' : Mach} {q ctx : Nat} {a : Packet} (completes : Completes m q ctx a m') : m.complete q ctx a = some m' := by
  unfold Completes at completes
  split at completes
  next unsignalled => simp only [Mach.complete, Mach.completionSignal_of_unsignalled unsignalled, completes]
  next signals =>
    obtain ⟨e, x, m₁, found, rfl⟩ := completes
    simp only [Mach.complete, Mach.completionSignal_of_found signals found]

/-- An event of some packet types meets packet p at the head of queue q, and nothing keeps it from starting but its dependences and its check (R328, R430, R433,
R437). -/
def MayStart (s : State) (q : Nat) (types : Nat → Bool) (p : Pk) : Prop :=
  (∀ h a, s.m.queue q = some h → a ∈ h.active → types a.type = true → a.type ∉ [1, 5, 6, 8, 0x0B]) ∧ s.fw.updating < 2 ∧ s.fw.state ≠ .failed ∧
  s.m.nextPacket q = some (.ok p) ∧ types p.type = true ∧ ((p.type = 2 ∨ p.type = 3) → s.stepDue = false)

section
variable {s : State} {q : Nat} {types : Nat → Bool} {p : Pk} {start : Pk → Mach → PkRes} {tell : Pk → Mach → Nat → Mach}

/-- What startPacket looks at before it runs the packet. -/
theorem MayStart.conditions (may : MayStart s q types p) :
    (s.m.inProgress q fun a => types a.type && [1, 5, 6, 8, 0x0B].contains a.type) = none ∧
    (decide (2 ≤ s.fw.updating) || s.fw.state == .failed) = false ∧ s.m.nextPacket q = some (.ok p) ∧
    (!types p.type || (p.type == 2 || p.type == 3) && s.stepDue) = false := by
  obtain ⟨others, unfrozen, standing, next, own, room⟩ := may
  refine ⟨Mach.inProgress_eq_none fun h a hq ha => ?_, ?_, next, ?_⟩
  · simpa only [Bool.and_eq_false_imp, List.contains_eq_mem, decide_eq_false_iff_not] using others h a hq ha
  · simpa only [Bool.or_eq_false_iff, decide_eq_false_iff_not, Nat.not_le, beq_eq_false_iff_ne] using And.intro unfrozen standing
  · simpa only [own, Bool.not_true, Bool.false_or, Bool.and_eq_false_imp, Bool.or_eq_true, beq_iff_eq] using room

theorem MayStart.startPacket_of_fail (may : MayStart s q types p) {code : Nat} (runs : p.run s.m start = .fail code) :
    startPacket s q types start tell = some ((tell p s.m code).failPacket q code) := by
  obtain ⟨noneWaits, opens, next, meets⟩ := may.conditions
  simp only [startPacket, noneWaits, opens, next, meets, runs, Bool.false_eq_true, if_false]

theorem MayStart.startPacket_of_active (may : MayStart s q types p) {m : Mach} {a : Packet} (runs : p.run s.m start = .go m (some a)) :
    startPacket s q types start tell = some (started m q a) := by
  obtain ⟨noneWaits, opens, next, meets⟩ := may.conditions
  simp only [startPacket, noneWaits, opens, next, meets, runs, Bool.false_eq_true, if_false, Option.isSome_some, if_true, Option.getD_some, started]

theorem MayStart.startPacket_of_completes (may : MayStart s q types p) {m m' : Mach} (runs : p.run s.m start = .go m none)
    (completes : Completes (started m q p.inProgress) q p.ctx p.inProgress m') : startPacket s q types start tell = some m' := by
  obtain ⟨noneWaits, opens, next, meets⟩ := may.conditions
  have completed := Mach.complete_of_completes completes
  simp only [started] at completed
  simp only [startPacket, noneWaits, opens, next, meets, runs, Bool.false_eq_true, if_false, Option.isSome_none, Option.getD_none, completed]

/-! ### A packet that starts (R328) -/

variable {t : Nat} {m m₁ : Mach} {i : Nat → Instr}

theorem Starts.live (starts : Starts s q t p m) : s.live = true := starts.1

/-- An event of its type meets it; of a type that can wait for its completion signal, no other packet is in progress. -/
theorem Starts.mayStart (starts : Starts s q t p m) (own : types t = true) (sole : ∀ k, types k = true → k ∈ [1, 5, 6, 8, 0x0B] → k = t) :
    MayStart s q types p := by
  obtain ⟨-, unfrozen, standing, others, next, -, rfl, room, -⟩ := starts
  exact ⟨fun h a hq ha typed listed => others h a hq ha (sole _ typed listed), unfrozen, standing, next, own, room⟩

theorem Starts.startPacket_of_active (starts : Starts s q t p m) {a : Packet} (goes : start p m = .go m₁ (some a)) :
    startPacket s q (· == t) start tell = some (started m₁ q a) :=
  (starts.mayStart (types := (· == t)) (beq_self_eq_true t) fun _ same _ => eq_of_beq same).startPacket_of_active ((starts.run_eq start).trans goes)

theorem Starts.startPacket_of_completes (starts : Starts s q t p m) {m' : Mach} (goes : start p m = .go m₁ none)
    (completes : Completes (started m₁ q p.inProgress) q p.ctx p.inProgress m') : startPacket s q (· == t) start tell = some m' :=
  (starts.mayStart (types := (· == t)) (beq_self_eq_true t) fun _ same _ => eq_of_beq same).startPacket_of_completes ((starts.run_eq start).trans goes) completes

theorem Starts.inProgress_eq_none (starts : Starts s q t p m) {f : Packet → Bool} (typed : ∀ a, f a = true → a.type = t) :
    s.m.inProgress q f = none := by
  obtain ⟨-, -, -, others, -⟩ := starts
  exact Mach.inProgress_eq_none fun h a hq ha => Bool.eq_false_iff.mpr fun holds => others h a hq ha (typed a holds)

/-- A packet whose event is that of its type, and whose effect leaves the machine m₁, starts and ends. -/
theorem Starts.ends (starts : Starts s q t p m) (runs : exec (i q) s = event s (startPacket s q (· == t) start tell))
    (goes : start p m = .go m₁ none) : StartsAndEnds i s q p m₁ :=
  fun _ completes => gives_of_due runs starts.live (starts.startPacket_of_completes goes completes)

/-- One that goes on after its start. -/
theorem Starts.goesOn (starts : Starts s q t p m) (runs : exec (i q) s = event s (startPacket s q (· == t) start tell)) {a : Packet}
    (goes : start p m = .go m₁ (some a)) : Gives (i q) s (started m₁ q a) :=
  gives_of_due runs starts.live (starts.startPacket_of_active goes)

end

end Sys2Proof.Machine
end

section
/-! PROOFS. What the packets do (R331), and the packets that fail their check (R332). -/

namespace Sys2Proof.Machine

/-! ### A packet that fails its check -/

/-- The types that the event NOP_PACKET meets: NOP and the reserved ones (R331, R332; DEDUCED, log 51). -/
def isNopType (k : Nat) : Bool := k == 1 || k == 0 || 0x0C ≤ k

theorem isNopType_iff (k : Nat) : isNopType k = true ↔ k = 1 ∨ k = 0 ∨ 0x0C ≤ k := by
  simp only [isNopType, Bool.or_eq_true, beq_iff_eq, decide_eq_true_eq, or_assoc]

/-- A packet that is next in its queue knows whether it is the only one. -/
theorem Mach.idle_of_nextPacket {m : Mach} {q : Nat} {p : Pk} (next : m.nextPacket q = some (.ok p)) :
    ∃ h, m.queue q = some h ∧ p.idle = h.active.isEmpty := by
  unfold Mach.nextPacket at next
  split at next
  · cases next
  next h hq =>
    refine ⟨h, hq, ?_⟩
    repeat' split at next
    all_goals cases next
    rfl

/-- DEP1_EN and DEP2_EN are bits 9 and 10. -/
theorem depMet_of_none {p : Pk} (free : fieldOf (p.word 0) 9 2 = 0) (m : Mach) : DepMet p 1 m m ∧ DepMet p 2 m m := by
  have absent : fieldOf (p.word 0) 9 1 = 0 ∧ fieldOf (p.word 0) 10 1 = 0 := by
    unfold fieldOf at *
    omega
  exact ⟨if_pos (.inr absent.1) |>.mpr rfl, if_pos (.inr absent.2) |>.mpr rfl⟩

/-- The only packet of its queue, without dependences, comes to its check at once. -/
theorem Pk.run_of_alone {m : Mach} {q : Nat} {p : Pk} (next : m.nextPacket q = some (.ok p)) (alone : ∀ h, m.queue q = some h → h.active = [])
    (free : fieldOf (p.word 0) 9 2 = 0) (start : Pk → Mach → PkRes) : p.run m start = p.check start m := by
  obtain ⟨h, hq, idle⟩ := Mach.idle_of_nextPacket next
  obtain ⟨met₁, met₂⟩ := depMet_of_none free m
  exact Pk.run_of_met (fun _ => by rw [idle, alone h hq]; rfl) met₁ met₂ start

/-! ### COPY -/

theorem fePlaces_of_placed {p : Pk} {use : Use} {l : List (Nat × Nat)} {m m' : Mach} {places : List (Elt × Spot)}
    (placed : FePlaced p use l m places m') (acc : List (Elt × Spot)) (go : Mach → List (Elt × Spot) → PkRes) :
    fePlaces p use l m acc go = go m' (acc ++ places) := by
  induction l generalizing m acc places with
  | nil =>
    obtain ⟨rfl, rfl⟩ := placed
    simp only [fePlaces, List.append_nil]
  | cons y rest ih =>
    obtain ⟨e, x, m₁, k, found, known, restPlaced, rfl⟩ := placed
    simp only [fePlaces, feSpot_of_found found, feHost_of_known known, ih restPlaced, List.append_assoc, List.singleton_append]

/-- The moves of a COPY packet between the places of its two ranges. -/
def Pk.copyMoves (p : Pk) (m : Mach) (src dst : List (Elt × Spot)) : List Move :=
  (cuts (p.word 4).toNat (p.word 5).toNat (p.word 6).toNat).map fun y =>
    ⟨spotAt m src ((p.word 4).toNat + y.1), [spotAt m dst ((p.word 5).toNat + y.1)], y.2, none⟩

/-- A copy without a completion writes the destinations of its moves. -/
theorem CopyPlan.mem_targets_of_moves {moves : List Move} {t : Place} {k : Nat} (target : (t, k) ∈ CopyPlan.targets ⟨moves, .none, false, false⟩) :
    ∃ v ∈ moves, t ∈ v.dsts ∧ v.len = k := by
  simp only [CopyPlan.targets, Completion.place, List.append_nil, List.mem_flatMap, List.mem_map] at target
  obtain ⟨v, hv, d, hd, same⟩ := target
  cases same
  exact ⟨v, hv, hd, rfl⟩

section
variable {p : Pk} {m m₁ m₂ : Mach} {src dst : List (Elt × Spot)}

theorem startCopyPacket_of_placed (srcPlaced : FePlaced p .load (pageCuts (p.word 4).toNat (p.word 6).toNat) m src m₁)
    (dstPlaced : FePlaced p .store (pageCuts (p.word 5).toNat (p.word 6).toNat) m₁ dst m₂)
    (unsealed : ∀ r ∈ m₂.seals, ∀ v ∈ p.copyMoves m₂ src dst, ∀ k, Place.mem k ∈ v.dsts → piecesMeet r.2.pieces [(k, v.len)] = false)
    (apart : CopyPlan.overlaps ⟨p.copyMoves m₂ src dst, .none, false, false⟩ = false) :
    startCopyPacket p m =
      if (p.copyMoves m₂ src dst).isEmpty then .go m₂ none
      else .go (copyPacketStarted m₂ p (p.copyMoves m₂ src dst)) (some { p.inProgress with copy := some m₂.nextId }) := by
  simp only [startCopyPacket, fePlaces_of_placed srcPlaced, fePlaces_of_placed dstPlaced, List.nil_append]
  change (if _ then _ else if CopyPlan.overlaps ⟨p.copyMoves m₂ src dst, .none, false, false⟩ = true then _ else _) = _
  rw [if_neg, apart]
  · rfl
  · rw [List.any_eq_true]
    rintro ⟨⟨t, k⟩, target, met⟩
    obtain ⟨v, hv, ht, rfl⟩ := CopyPlan.mem_targets_of_moves (moves := p.copyMoves m₂ src dst) target
    cases t with
    | mem x =>
      obtain ⟨r, hr, meets⟩ := List.any_eq_true.mp met
      exact absurd meets (Bool.eq_false_iff.mp (unsealed r hr v hv x ht))
    | _ => cases met

end

/-! ### Packets in progress -/

/-- A WRITE_THEN_SIGNAL whose write has been performed signals and completes: neither the answer to its write (`performed`) nor the page of its completion
signal (`there`) is waited for. -/
theorem writeThenSignalDue_of_performed {s : State} {q ctx : Nat} {a : Packet} {m m₁ m' : Mach} {e : Elt} {x : Spot} {y : EngineAt}
    (active : s.m.inProgress q (fun a => a.type == 7) = some (ctx, a))
    (performed : s.m.agentAnswer (queueAgent q + 2 ^ 20 * (a.index + 1)) (a.words.getD 4 0).toNat ≠ some none)
    (found : s.m.engineSpot feDie ctx (a.words.getD 6 0).toNat .store acceptUpdate = (.found e x, m)) (signal : m.csigSpot ctx a.words = (y, m₁))
    (there : y ≠ .waiting) (completes : Completes (m₁.feSignal ctx (a.words.getD 7 0) e x) q ctx a m') : writeThenSignalDue q s = some m' := by
  simp only [writeThenSignalDue, active, found, signal, Mach.complete_of_completes completes, Bool.not_true, Bool.false_eq_true, if_false]

/-! ### QUEUE_INIT -/

/-- The packet that starts tells what QUEUE_INIT is to do. -/
theorem Starts.queueInitOp_eq {s : State} {q : Nat} {p : Pk} {m : Mach} (starts : Starts s q 0x0A p m) : s.m.queueInitOp q = some (p.word 5).toNat := by
  obtain ⟨-, -, -, -, next, -, typed, -⟩ := starts
  simp only [Mach.queueInitOp, next, typed, beq_self_eq_true, if_true]

/-- Settles O42: a packet that starts comes to its effect (Starts.run_eq), which ends it at once or leaves it in progress; one that fails its check
stops its queue. That a reserved TYPE fails through NOP_PACKET, and its code, are the model's (DEDUCED, log 51), and so are the layouts of the frames
to other devices (DESIGN CHOICE, log 18). -/
theorem packetEvents : Obligations.PacketEvents := by
  unfold Obligations.PacketEvents
  refine ⟨?nop, ?bad, ?signal, ?wait, ?write, ?performed, ?fence, ?timestamp, ?copy, ?copied, ?enable, ?disable, ?disabled⟩
  case nop =>
    intro s q p m starts m' completes
    have sole (k : Nat) (typed : isNopType k = true) (listed : k ∈ [1, 5, 6, 8, 0x0B]) : k = 1 := by
      simp only [isNopType_iff, List.mem_cons, List.not_mem_nil, or_false] at typed listed
      omega
    have may := starts.mayStart rfl sole
    exact gives_of_due rfl starts.live (may.startPacket_of_completes (starts.run_eq fun _ m => .go m none) completes)
  case bad =>
    intro s q p live unfrozen standing alone next typed free
    have own : isNopType p.type = true := (isNopType_iff _).mpr (by omega)
    have may : MayStart s q isNopType p :=
      ⟨fun h a hq ha => absurd (alone h hq ▸ ha) List.not_mem_nil, unfrozen, standing, next, own, by omega⟩
    have fails {code : Nat} (check : p.check (fun _ m => .go m none) s.m = .fail code) : Gives (.nopPacket q) s (s.m.failPacket q code) :=
      gives_of_due rfl live (may.startPacket_of_fail ((Pk.run_of_alone next alone free _).trans check))
    refine ⟨fun reserved => fails ?_, fun unreserved misaligned => fails ?_⟩
    · simp only [Pk.check, reserved, if_true]
    · simp only [Pk.check, unreserved, misaligned, Bool.false_eq_true, if_false, if_true]
  case signal =>
    intro s q p m m₁ e x starts found
    exact starts.ends rfl (feSpot_of_found found _)
  case wait =>
    intro s q p m m₁ starts met
    exact starts.ends rfl met
  case write =>
    intro s q p m m₁ m₂ e e' x x' starts signalFound found known
    have idle : s.m.inProgress q (fun a => a.type == 7) = none := starts.inProgress_eq_none fun _ => eq_of_beq
    refine ⟨fun here m' completes => gives_of_due rfl starts.live ?_, fun d a away => gives_of_due rfl starts.live ?_⟩
    all_goals simp only [writeThenSignalDue, idle]
    · refine starts.startPacket_of_completes ?_ completes
      simp only [feSpot_of_found signalFound, feSpot_of_found found, feHost_of_known known]
    · subst away
      refine starts.startPacket_of_active ?_
      simp only [feSpot_of_found signalFound, feSpot_of_found found, feHost_of_known known]
  case performed =>
    intro s q ctx a m m₁ m' e x y live active performed found signal there completes
    exact gives_of_due rfl live (writeThenSignalDue_of_performed active performed found signal there completes)
  case fence =>
    intro s q p m starts idle
    exact starts.ends rfl (if_pos idle)
  case timestamp =>
    intro s q p m m₁ e x starts found known
    exact starts.ends rfl ((feSpot_of_found found _).trans (feHost_of_known known e _))
  case copy =>
    intro s q p m m₁ m₂ src dst starts a b n srcPlaced dstPlaced moves unsealed apart
    have runs : exec (.copy q) s = event s (startPacket s q (· == 4) startCopyPacket) := by
      have idle : (s.m.inProgress q fun a => a.type == 4 && a.copy.any fun n => (s.m.copy n).isNone) = none :=
        starts.inProgress_eq_none fun a h => eq_of_beq (Bool.and_eq_true_iff.mp h).1
      exact congrArg (event s) (by simp only [copyDue, idle])
    have goes := startCopyPacket_of_placed srcPlaced dstPlaced unsealed apart
    exact ⟨fun empty => starts.ends runs (goes.trans (if_pos (List.isEmpty_iff.mpr empty))),
      fun nonempty => starts.goesOn runs (goes.trans (if_neg (mt List.isEmpty_iff.mp nonempty)))⟩
  case copied =>
    intro s q ctx a m' live active completes
    refine gives_of_due rfl live ?_
    simp only [copyDue, active, Mach.complete_of_completes completes]
  case enable =>
    intro s q p m m₁ e pa starts op found clean good room
    have runs : exec (.queueInitEnable q) s = event s (startPacket s q (· == 0x0A) startEnable) := by
      have enables : (s.m.queueInitOp q == some 1) = false := by simp only [starts.queueInitOp_eq, op]; rfl
      exact congrArg (event s) (by simp only [queueInitEnableDue, enables, Bool.false_eq_true, if_false])
    refine starts.ends runs ?_
    simp only [startEnable, feSpot_of_found found, clean, good, Nat.not_le.mpr room, decide_false, Bool.not_true, Bool.or_self, Bool.false_eq_true, if_false]
    rfl
  case disable =>
    intro s q p m m₁ e pa starts op found clean st m₂
    have runs : exec (.queueInitDisable q) s = event s (startPacket s q (· == 0x0A) startDisable) := by
      have disables : (s.m.queueInitOp q == some 1) = true := by simp only [starts.queueInitOp_eq, op, beq_self_eq_true]
      have idle : (s.m.inProgress q fun a => a.type == 0x0A) = none := starts.inProgress_eq_none fun _ => eq_of_beq
      exact congrArg (event s) (by simp only [queueInitDisableDue, idle, disables, if_true])
    have goes : startDisable p m = .go m₂ (if fieldOf st 32 16 == 0 then none else some p.inProgress) := by
      simp only [startDisable, feSpot_of_found found, clean, Bool.false_eq_true, if_false]
      rfl
    exact ⟨fun quiet => starts.ends runs (goes.trans (by rw [if_pos (beq_iff_eq.mpr quiet)])),
      fun busy => starts.goesOn runs (goes.trans (by rw [if_neg (mt beq_iff_eq.mp busy)]))⟩
  case disabled =>
    intro s q ctx a m m' e pa live active found quiet completes
    refine gives_of_due rfl live ?_
    simp only [queueInitDisableDue, active, found, quiet, beq_self_eq_true, if_true, Mach.complete_of_completes completes]

end Sys2Proof.Machine
end

section
/-! PROOFS. Launches (R334 to R337): the reads of a launch's closure and sizes, and its completion. -/

namespace Sys2Proof.Machine

theorem feRead_of_read {m m₁ : Mach} {p : Pk} {va n : Nat} {d : Datum} (read : FeRead m p va n d m₁) (go : Mach → Datum → PkRes) :
    feRead m p.q p.ctx va n go = go m₁ d := by
  obtain ⟨e, x, m', found, data⟩ := read
  simp only [feRead, feSpot_of_found found, data]

/-- LAUNCH_ROOT starts with its entry in the inbox of the die that takes it. -/
theorem startRoot_of_read {p : Pk} {m m₁ : Mach} {d : Datum} {die target n : Nat} (read : FeRead m p (p.word 4).toNat 128 d m₁)
    (closed : closureCode (imageOf d) = none) (placed : p.c.dies[(p.word 5).toNat]? = some die) (free : p.c.freeLaunch = some n)
    (allowed : (if p.c.permits (launchEntry (imageOf d) m₁.xclk n none) die then some die
      else nearestDie die (p.c.dies.filter fun d' => p.c.permits (launchEntry (imageOf d) m₁.xclk n none) d')) = some target)
    (room : m₁.inboxFull target p.ctx = false) :
    startRoot p m = .go ((m₁.addLaunch p.ctx n 2 ⟨p.q, p.index, p.word 4, p.word 3, none, 1⟩).inboxPush target p.ctx
      (launchEntry (imageOf d) m₁.xclk n none)) (some { p.inProgress with launch := some n }) := by
  simp only [startRoot, feRead_of_read read, closed, placed, free, allowed, room, Bool.false_eq_true, if_false]

theorem fieldOf_ofNat_16 (v low : Nat) (fits : low + 16 ≤ 64) : fieldOf (BitVec.ofNat 64 v) low 16 = v / 2 ^ low % 2 ^ 16 := by
  refine Nat.eq_of_testBit_eq fun i => ?_
  simp only [fieldOf, BitVec.toNat_ofNat, Nat.testBit_mod_two_pow, Nat.testBit_div_two_pow]
  by_cases low16 : i < 16
  · have low64 : i + low < 64 := by omega
    simp only [low16, low64, decide_true, Bool.true_and]
  · simp only [low16, decide_false, Bool.false_and]

/-- Where the sizes of a LAUNCH_TILE stand (R337). -/
def TileSizes (p : Pk) (m : Mach) (size : Nat × Nat × Nat) (m' : Mach) : Prop :=
  if fieldOf (p.word 6) 48 1 = 0 then
    m' = m ∧ size = (fieldOf (p.word 5) 0 16 + 1, fieldOf (p.word 5) 16 16 + 1, fieldOf (p.word 5) 32 16 + 1)
  else ∃ v, FeRead m p (p.word 7).toNat 8 (v, 0) m' ∧ size = (v % 2 ^ 16, v / 2 ^ 16 % 2 ^ 16, v / 2 ^ 32 % 2 ^ 16)

theorem tileSizes_of_sizes {p : Pk} {m m' : Mach} {size : Nat × Nat × Nat} (sizes : TileSizes p m size m') (go : Mach → Nat × Nat × Nat → PkRes) :
    tileSizes p m go = go m' size := by
  unfold TileSizes at sizes
  unfold tileSizes
  simp only [beq_iff_eq]
  split at sizes
  next inPacket =>
    obtain ⟨rfl, rfl⟩ := sizes
    rw [if_pos inPacket]
  next inMemory =>
    obtain ⟨v, read, rfl⟩ := sizes
    rw [if_neg inMemory, feRead_of_read read]
    simp only [fieldOf_ofNat_16 v 0 (by decide), fieldOf_ofNat_16 v 16 (by decide), fieldOf_ofNat_16 v 32 (by decide), bne_self_eq_false,
      Bool.false_eq_true, if_false, Nat.add_zero, Nat.pow_zero, Nat.div_one]

theorem startTiles_of_sizes {p : Pk} {m m₁ m₂ : Mach} {d : Datum} {size : Nat × Nat × Nat} {n : Nat} (read : FeRead m p (p.word 4).toNat 128 d m₁)
    (closed : closureCode (imageOf d) = none) (sizes : TileSizes p m₁ size m₂) (free : p.c.freeLaunch = some n) :
    let tiles := size.1 * size.2.1 * size.2.2
    let t : Tiles := ⟨size.1, size.2.1, size.2.2, fieldOf (p.word 6) 0 16, fieldOf (p.word 6) 16 16, fieldOf (p.word 6) 32 16,
      fieldOf (p.word 5) 48 5, List.range tiles, [], []⟩
    let cores := m₂.placementCores p.c
    startTiles p m =
      if tiles == 0 then .go (m₂.launchWriteback p.c) none
      else if cores.any fun k => !m₂.dequeRoom k p.ctx then .wait m₂
      else .go (cores.foldl (fun (m : Mach) k => m.pushDeque k p.ctx (launchEntry (imageOf d) m.xclk n (some k)))
        (m₂.addLaunch p.ctx n 3 ⟨p.q, p.index, p.word 4, p.word 3, some t, cores.length⟩)) (some { p.inProgress with launch := some n }) := by
  obtain ⟨nx, ny, nz⟩ := size
  simp only [startTiles, feRead_of_read read, closed, tileSizes_of_sizes sizes, free]

/-! ### The end of a launch -/

/-- The words of a packet whose completion signal is the launch's. -/
def Launch.signalWords (l : Launch) : List Word := [if l.csig == 0 then 0 else BitVec.ofNat 64 (2 ^ 11), 0, 0, l.csig]

theorem Launch.asks_signalWords (l : Launch) : fieldOf (l.signalWords.getD 0 0) 11 1 = if l.csig = 0 then 0 else 1 := by
  unfold Launch.signalWords
  simp only [beq_iff_eq]
  split <;> (simp only [List.getD_cons_zero]; decide)

/-- A launch record that says DONE is free (R333; DESIGN CHOICE, log 76). -/
def launchEnded (c : Ctx) (l : Launch) (ctx n : Nat) (m : Mach) : Mach :=
  ({ m with mem := m.mem.setWord64 (c.launchAddr n) (((m.mem.word64 (c.launchAddr n)).1 &&& ~~~((1 : Word) <<< 63)) ||| 0x100) }.modCtx ctx fun c =>
    { c with launches := tabErase c.launches n }).completed l.queue l.packet

section
variable {m : Mach} {ctx n : Nat} {c : Ctx} {l : Launch}

theorem Mach.launchDone_of_signalled {m' : Mach} (hc : m.ctx ctx = some c) (hl : tabGet c.launches n = some l) (done : l.isOver = true)
    (signalled : (m.launchWriteback c).completionSignal ctx l.signalWords = (true, m')) :
    m.launchDone ctx n = some (launchEnded c l ctx n m') := by
  unfold Launch.signalWords at signalled
  simp only [Mach.launchDone, hc, hl, done, signalled, Bool.not_true, Bool.false_eq_true, if_false, launchEnded]

end

end Sys2Proof.Machine
end

section
/-! PROOFS. Collectives (R393, R395, R396): the start of a packet, and the steps of the collective that it takes part in. -/

namespace Sys2Proof.Machine

/-! ### The start of a packet -/

theorem collPieces_of_placed {p : Pk} {use : Use} {l : List (Nat × Nat)} {m m' : Mach} {pieces : List (Nat × Nat)}
    (placed : CollPlaced p use l m pieces m') (acc : List (Nat × Nat)) (go : Mach → List (Nat × Nat) → PkRes) :
    collPieces p use l m acc go = go m' (acc ++ pieces) := by
  induction l generalizing m acc pieces with
  | nil =>
    obtain ⟨rfl, rfl⟩ := placed
    simp only [collPieces, List.append_nil]
  | cons y rest ih =>
    obtain ⟨e, pa, m₁, k, found, restPlaced, rfl⟩ := placed
    simp only [collPieces, feSpot_of_found found, ih restPlaced, List.append_assoc, List.singleton_append]

/-- What a device keeps of a collective that its packet joins: what has arrived of it, or nothing where it is new or an earlier one has ended. -/
def Mach.collJoined (m : Mach) (group cseq : Nat) : Collective := match m.coll group cseq with
  | some e => if e.ended then Collective.blank group cseq else e
  | none => Collective.blank group cseq

/-- The collective once the packet of this rank has joined it. -/
def Collective.joinedBy (e : Collective) (p : Pk) (g : Group) (src dst : List (Nat × Nat)) : Collective :=
  { e with packet := some (p.q, p.index), ctx := p.ctx, words := [p.word 4, p.word 7], src := src, dst := dst,
           params := e.params ++ [(g.rank, [p.word 4, p.word 7])] }

theorem startCollective_of_placed {p : Pk} {m m₁ m₂ : Mach} {g : Group} {src dst : List (Nat × Nat)}
    (unreserved : collReserved (p.word 4) (p.word 7) = false) (srcAligned : (p.word 5).toNat % 32 = 0) (dstAligned : (p.word 6).toNat % 32 = 0)
    (hg : m.group (collGroup (p.word 4)) = some g) (own : g.ctx = p.ctx) (world : g.world = p.c.world) (root : collRoot (p.word 4) < g.devs.length)
    (srcPlaced : CollPlaced p .load (pageCuts (p.word 5).toNat (collBlock (p.word 4) (p.word 7) * collSources (p.word 4) g.devs.length g.rank)) m src m₁)
    (dstPlaced : CollPlaced p .store (pageCuts (p.word 6).toNat (collBlock (p.word 4) (p.word 7) * collDests (p.word 4) g.devs.length)) m₁ dst m₂)
    (apart : ∀ x ∈ src, ∀ y ∈ dst, ¬ (x.1 < y.1 + y.2 ∧ y.1 < x.1 + x.2))
    (lives : (m₂.collJoined (collGroup (p.word 4)) (collSeq (p.word 4))).aborted = none) :
    let e := (m₂.collJoined (collGroup (p.word 4)) (collSeq (p.word 4))).joinedBy p g src dst
    startCollective p m = .go ((m₂.setColl e).sendParams g e.group e.cseq [p.word 4, p.word 7] none)
      (some { p.inProgress with collective := some (2 ^ 16 * e.group + e.cseq) }) := by
  have disjoint : (src.any fun (a, x) => dst.any fun (b, y) => a < b + y && b < a + x) = false := by
    simpa only [List.any_eq_false, List.any_eq_true, Bool.and_eq_true, decide_eq_true_eq, not_exists, not_and] using apart
  have aligned : ((p.word 5).toNat % 32 != 0 || (p.word 6).toNat % 32 != 0) = false := by rw [srcAligned, dstAligned]; rfl
  have ours : (g.ctx != p.ctx || g.world != p.c.world) = false := by rw [own, world, bne_self_eq_false, bne_self_eq_false]; rfl
  simp only [startCollective, unreserved, aligned, hg, ours, Nat.not_le.mpr root, collPieces_of_placed srcPlaced, collPieces_of_placed dstPlaced,
    List.nil_append, disjoint, Bool.false_eq_true, if_false]
  change (match (m₂.collJoined (collGroup (p.word 4)) (collSeq (p.word 4))).aborted with
    | some code => PkRes.fail code
    | none => PkRes.go _ _) = _
  rw [lives]
  rfl

/-! ### The steps of a collective -/

/-- A packet of a collective that has not ended does not complete (R396). -/
theorem Mach.inProgress_eq_none_of_collective {m : Mach} {q : Nat} {c : Collective}
    (others : ∀ h a, m.queue q = some h → a ∈ h.active → a.type ≠ 9 ∨ a.collective = some (2 ^ 16 * c.group + c.cseq))
    (hc : m.coll c.group c.cseq = some c) (small : c.cseq < 2 ^ 16) (going : c.ended = false) :
    (m.inProgress q fun a => a.type == 9 && a.collective.any fun k => (m.coll (k / 2 ^ 16) (k % 2 ^ 16)).all (·.ended)) = none := by
  have group : (2 ^ 16 * c.group + c.cseq) / 2 ^ 16 = c.group := by omega
  have cseq : (2 ^ 16 * c.group + c.cseq) % 2 ^ 16 = c.cseq := by omega
  refine Mach.inProgress_eq_none fun h a hq ha => ?_
  rcases others h a hq ha with untyped | known
  · rw [beq_eq_false_iff_ne.mpr untyped, Bool.false_and]
  · rw [known, Option.any_some, group, cseq, hc, Option.all_some, going, Bool.and_false]

/-- The search of a list for what one element alone gives. -/
theorem findSome?_eq_of_sole {α β : Type} {l : List α} {f : α → Option β} {a : α} {b : β} (ha : a ∈ l) (gives : f a = some b)
    (sole : ∀ x ∈ l, f x ≠ none → x = a) : l.findSome? f = some b := by
  cases found : l.findSome? f with
  | none => exact absurd (List.findSome?_eq_none_iff.mp found a ha) (by rw [gives]; exact Option.some_ne_none b)
  | some b' =>
    obtain ⟨x, hx, hfx⟩ := List.exists_of_findSome?_eq_some found
    obtain rfl := sole x hx (by rw [hfx]; exact Option.some_ne_none b')
    exact hfx.symm.trans gives

/-- The one collective that queue q has a packet in takes its step. -/
theorem collectiveDue_of_step {s : State} {q : Nat} {c : Collective} {m : Mach}
    (others : ∀ h a, s.m.queue q = some h → a ∈ h.active → a.type ≠ 9 ∨ a.collective = some (2 ^ 16 * c.group + c.cseq))
    (hc : s.m.coll c.group c.cseq = some c) (small : c.cseq < 2 ^ 16) (going : c.ended = false) (lives : c.aborted = none) (timely : s.m.collLate c = false)
    (ours : c.packet.any (·.1 == q) = true) (sole : ∀ x ∈ s.m.collectives, x.packet.any (·.1 == q) = true → x = c) (steps : s.m.collStep c = some m) :
    collectiveDue q s = some m := by
  have idle := Mach.inProgress_eq_none_of_collective others hc small going
  have found : (s.m.collectives.findSome? fun c =>
      if c.packet.any (·.1 == q) && c.aborted.isNone && !s.m.collLate c then s.m.collStep c else none) = some m := by
    refine findSome?_eq_of_sole (List.mem_of_find?_eq_some hc) ?_ fun x hx steps => sole x hx ?_
    · simp only [ours, lives, timely, steps, Option.isNone_none, Bool.not_false, Bool.and_self, if_true]
    · cases packet : x.packet.any (·.1 == q) with
      | true => rfl
      | false => exact absurd (by simp only [packet, Bool.false_and, Bool.false_eq_true, if_false]) steps
  simp only [collectiveDue, idle, found]

section
variable {m : Mach} {c : Collective} {g : Group}

theorem any_params_eq_false (agree : ∀ y ∈ c.params, y.2 = c.words) : (c.params.any fun y => y.2 != c.words) = false :=
  List.any_eq_false.mpr fun y hy => by rw [agree y hy, bne_self_eq_false]; exact Bool.false_ne_true

theorem Mach.collStep_of_send (hg : m.group c.group = some g) (agree : ∀ y ∈ c.params, y.2 = c.words) (unsent : c.sent g = false)
    (all : ∀ r < g.devs.length, ∃ y ∈ c.params, y.1 = r) (turn : m.collTurn c = true) : m.collStep c = some (m.collSend c g) := by
  have complete : ((List.range g.devs.length).all fun r => c.params.any fun y => y.1 == r) = true := by
    simpa only [List.all_eq_true, List.mem_range, List.any_eq_true, beq_iff_eq] using all
  simp only [Mach.collStep, hg, any_params_eq_false agree, unsent, complete, turn, Bool.not_false, Bool.and_self, Bool.false_eq_true, if_false, if_true]

theorem Mach.collStep_of_finish (hg : m.group c.group = some g) (agree : ∀ y ∈ c.params, y.2 = c.words) (sent : c.sent g = true)
    (known : ∀ w ∈ c.result g, w.isSome = true) : m.collStep c = some (m.collFinish c g) := by
  simp only [Mach.collStep, hg, any_params_eq_false agree, sent, List.all_eq_true.mpr known, Bool.not_true, Bool.false_eq_true, if_false, if_true]

end

/-- Settles O43: a launch or a collective starts with its packet (Starts.goesOn), and its later steps are due once nothing of it is left to wait for.
The DONE bit of a launch record and the frames of collectives (DESIGN CHOICE, logs 76 and 18), the order of the checks of a collective and its turn
(DEDUCED, logs 47 and 79) are the model's. -/
theorem launchAndCollectiveEvents : Obligations.LaunchAndCollectiveEvents := by
  unfold Obligations.LaunchAndCollectiveEvents
  refine ⟨?root, ?tiles, ?complete, ?start, ?step, ?ended⟩
  case root =>
    intro s q n die target p m m₁ d starts read closed placed free e allowed room
    exact starts.goesOn rfl (startRoot_of_read read closed placed free allowed room)
  case tiles =>
    intro s q n p m m₁ m₂ d size starts read closed sizes free tiles t cores
    have goes := startTiles_of_sizes read closed sizes free
    refine ⟨fun empty => starts.ends rfl (goes.trans (if_pos (beq_iff_eq.mpr empty))), fun nonempty room => ?_⟩
    refine starts.goesOn rfl (goes.trans ((if_neg (mt beq_iff_eq.mp nonempty)).trans (if_neg ?_)))
    simpa only [List.any_eq_true, Bool.not_eq_true', not_exists, not_and, Bool.not_eq_false] using room
  case complete =>
    intro s ctx n c l live hc hl done m ended
    have ends {m' : Mach} (signalled : m.completionSignal ctx l.signalWords = (true, m')) : Gives (.launchComplete ctx n) s (ended m') :=
      gives_of_due rfl live (Mach.launchDone_of_signalled hc hl done signalled)
    refine ⟨fun unasked => ends (Mach.completionSignal_of_unsignalled ?_), fun asks e x m' found => ends (Mach.completionSignal_of_found ?_ found)⟩
    · rw [l.asks_signalWords, if_pos unasked]
    · rw [l.asks_signalWords, if_neg asks]; decide
  case start =>
    intro s q p m m₁ m₂ g src dst e starts unjoined w4 w7 unreserved srcAligned dstAligned hg own world root srcPlaced dstPlaced apart joined lives e'
    obtain rfl : e = m₂.collJoined (collGroup (p.word 4)) (collSeq (p.word 4)) := joined
    have idle : (s.m.inProgress q fun a => a.type == 9 && a.collective.any fun k => (s.m.coll (k / 2 ^ 16) (k % 2 ^ 16)).all (·.ended)) = none :=
      starts.inProgress_eq_none fun a h => eq_of_beq (Bool.and_eq_true_iff.mp h).1
    have noStep : (s.m.collectives.findSome? fun c =>
        if c.packet.any (·.1 == q) && c.aborted.isNone && !s.m.collLate c then s.m.collStep c else none) = none :=
      List.findSome?_eq_none_iff.mpr fun c hc => by simp only [unjoined c hc, Bool.false_and, Bool.false_eq_true, if_false]
    have runs : exec (.collective q) s = event s (startPacket s q (· == 9) startCollective abortStart) :=
      congrArg (event s) (by simp only [collectiveDue, idle, noStep])
    exact starts.goesOn runs (startCollective_of_placed unreserved srcAligned dstAligned hg own world root srcPlaced dstPlaced apart lives)
  case step =>
    intro s q c g live others hc small going lives timely ours sole hg agree
    have steps {m : Mach} (step : s.m.collStep c = some m) : Gives (.collective q) s m :=
      gives_of_due rfl live (collectiveDue_of_step others hc small going lives timely ours sole step)
    exact ⟨fun unsent all turn => steps (Mach.collStep_of_send hg agree unsent all turn), fun sent known => steps (Mach.collStep_of_finish hg agree sent known)⟩
  case ended =>
    intro s q ctx a m' live active completes
    refine gives_of_due rfl live ?_
    simp only [collectiveDue, active, Mach.complete_of_completes completes]

end Sys2Proof.Machine
end

section
/-! PROOFS. Frames of other devices: the order of their streams (R377), the checks of requests (R379, R433), and what noting and answering a frame leave unchanged. -/

namespace Sys2Proof.Machine

/-! ### The order of a stream -/

section
variable {s : State} {code : BitVec 8} {f : Frame} {i : Instr}

/-- The next frame of its stream is applied. -/
theorem Arrives.onFrame_eq (arrives : Arrives s code f) (apply : Mach → Option Mach) : s.m.onFrame code f apply = apply s.m := by
  obtain ⟨-, rfl, dst, seq⟩ := arrives
  simp only [Mach.onFrame, isPassed, ← seq, dst, bne_self_eq_false, beq_self_eq_true, Bool.or_self, Bool.false_and, Bool.false_eq_true, if_false, if_true]

theorem Arrives.gives {apply : Mach → Option Mach} {m : Mach} (arrives : Arrives s code f) (runs : exec i s = event s (s.m.onFrame code f apply))
    (applied : apply s.m = some m) : Gives i s m :=
  gives_of_due runs arrives.1 ((arrives.onFrame_eq apply).trans applied)

end

/-! ### Requests that pass their checks -/

theorem Mach.refuseFrame_of_exported {m : Mach} {f : Frame} (exported : Exported m f) : m.refuseFrame f = none := by
  have exports : ((frameGranules f).any fun g => !m.exports.contains (f.world, g)) = false := by
    simpa only [List.any_eq_false, Bool.not_eq_true, Bool.not_eq_false', List.contains_iff_mem] using fun g hg => (exported g hg).1
  have uncarved : (!f.world && (frameGranules f).any fun g => m.carveOuts.contains g) = false := by
    simpa only [Bool.and_eq_false_imp, Bool.not_eq_true', List.any_eq_false, List.contains_iff_mem] using fun normal g hg => (exported g hg).2 normal
  unfold frameGranules at exports uncarved
  simp only [Mach.refuseFrame, exports, uncarved, Bool.false_eq_true, if_false]

section
variable {s : State} {code : BitVec 8} {f : Frame} {i : Instr} {m : Mach} {home : Nat} {go : Mach → Option Mach}

theorem Asks.gives (asks : Asks s code f) (runs : exec i s = answering s (s.m.onFrame code f go)) (applied : go s.m = some m) : Gives i s m :=
  asks.1.gives (runs.trans (answering_of_standing asks.2 _)) applied

theorem Admitted.gives (admitted : Admitted s code f) (runs : exec i s = answering s (s.m.serve code f go)) (applied : go (s.m.noteFrame f) = some m) :
    Gives i s m :=
  admitted.1.gives runs (by simp only [Mach.refuseFrame_of_exported admitted.2, applied])

/-- A frame that names an address of its home is checked there only. -/
theorem AsksAt.gives (asks : AsksAt s code home f) (runs : exec i s = answering s (s.m.onFrame code f fun m => m.serveAt home f go))
    (applied : go s.m = some m) : Gives i s m := by
  refine asks.1.gives runs ?_
  by_cases here : home = s.m.xdev.toNat
  · simp only [Mach.serveAt, here, Mach.refuseFrame_of_exported (asks.2 here), applied, beq_self_eq_true, if_true]
  · simp only [Mach.serveAt, beq_eq_false_iff_ne.mpr here, applied, Bool.false_eq_true, if_false]

end

/-- One bit of a field. -/
theorem fieldOf_one_beq_one (w : Word) (k : Nat) : (fieldOf w k 1 == 1) = w.getLsbD k := by
  rw [fieldOf, BitVec.getLsbD, Nat.testBit_eq_decide_div_mod_eq]
  rfl

/-! ### What a frame leaves unchanged -/

@[simp] theorem Mach.setStream_xdev (m : Mach) (x : Stream) : (m.setStream x).xdev = m.xdev := by
  unfold Mach.setStream; split <;> rfl

@[simp] theorem Mach.noteFrame_xdev (m : Mach) (f : Frame) : (m.noteFrame f).xdev = m.xdev := m.setStream_xdev _

@[simp] theorem Mach.setStream_collectives (m : Mach) (x : Stream) : (m.setStream x).collectives = m.collectives := by
  unfold Mach.setStream; split <;> rfl

@[simp] theorem Mach.emit_collectives (m : Mach) (f : Frame) : (m.emit f).collectives = m.collectives := by
  cases port : m.port f with
  | none => simp only [Mach.emit, port]
  | some p => simp only [Mach.emit, port]; exact (apply_ite Mach.collectives _ _ _).trans (ite_self _)

theorem Mach.answer_collectives (m : Mach) (f : Frame) (opc : BitVec 8) (arg : Word) (bs : List Byte) (p : Nat → Bool) :
    (m.answer f opc arg bs p).collectives = m.collectives :=
  (Mach.emit_collectives _ _).trans (Mach.setStream_collectives _ _)

/-- An acknowledgement changes no collective. -/
@[simp] theorem Mach.coll_acked (m : Mach) (f : Frame) (group cseq : Nat) : (acked m f).coll group cseq = m.coll group cseq := by
  rw [Mach.coll, acked, Mach.answer_collectives, Mach.coll]

@[simp] theorem Mach.setPage_clk (m : Mach) (p : Page) : (m.setPage p).clk = m.clk := by
  unfold Mach.setPage; split <;> rfl

end Sys2Proof.Machine
end

section
/-! PROOFS. Answers (R377, R379), unknown frames (R376) and retransmission (R377). -/

namespace Sys2Proof.Machine

/-! ### Answers -/

section
variable {s : State} {code : BitVec 8} {f : Frame} {i : Instr} {a : Answer} {n : Nat} {r : Request} (arrives : Arrives s code f)
  (runs : exec i s = event s (s.m.onAnswer code f a))
include arrives runs

/-- A frame that answers no request is only noted. -/
theorem Arrives.gives_noted (unasked : (s.m.noteFrame f).requestOf f = none) : Gives i s (s.m.noteFrame f) :=
  arrives.gives runs (by simp only [unasked])

theorem Arrives.gives_delivered (asked : (s.m.noteFrame f).requestOf f = some n) (request : tabGet (s.m.noteFrame f).requests n = some r)
    (taken : a.nack = none) : Gives i s ((s.m.noteFrame f).deliver n r a) :=
  arrives.gives runs (by simp only [asked, request, taken])

/-- A refusal is recorded for the context of the request before it is delivered (R379). -/
theorem Arrives.gives_refused {g : Frame} {reason : Nat} (asked : (s.m.noteFrame f).requestOf f = some n)
    (request : tabGet (s.m.noteFrame f).requests n = some r) (refused : a.nack = some reason) (frame : r.frame = some g) :
    let m := s.m.noteFrame f
    Gives i s ((m.nackRecord r.ctx (m.requestUnit r.kind) g reason).deliver n r a) :=
  arrives.gives runs (by simp only [asked, request, refused, frame])

end

/-! ### Retransmission -/

section
variable {m : Mach} {n : Nat} {r : Request} {f : Frame} (request : tabGet m.requests n = some r) (frame : r.frame = some f) (unanswered : r.answer = none)
  (late : r.since + 2 ^ 20 ≤ m.clk)
include request frame unanswered late

theorem Mach.resend_of_few (few : r.resends < 8) :
    m.resend n = some ({ m with requests := tabSet m.requests n { r with resends := r.resends + 1, since := m.clk } }.emit f) := by
  simp only [Mach.resend, request, frame, unanswered, Nat.not_lt.mpr late, few, if_false, if_true]

theorem Mach.resend_of_many (many : 8 ≤ r.resends) :
    m.resend n = some ((m.nackRecord r.ctx (m.requestUnit r.kind) f 3).deliver n r ⟨some 3, [], 0, 0⟩) := by
  simp only [Mach.resend, request, frame, unanswered, Nat.not_lt.mpr late, Nat.not_lt.mpr many, if_false]

end

/-- Settles O45: an answer that is the next of its stream is delivered to the request that it answers, a frame of no known type is counted, and a late
request is sent again or counts as refused. -/
theorem answerFrames : Obligations.AnswerFrames := by
  unfold Obligations.AnswerFrames
  refine ⟨?answers, ?unasked, ?unknown, ?late⟩
  case answers =>
    intro s f n r m asked request
    exact ⟨fun arrives => arrives.gives_delivered rfl asked request rfl, fun arrives => arrives.gives_delivered rfl asked request rfl,
      fun arrives g frame => arrives.gives_refused rfl asked request rfl frame⟩
  case unasked =>
    intro s f unasked
    exact ⟨fun arrives => arrives.gives_noted rfl unasked, fun arrives => arrives.gives_noted rfl unasked, fun arrives => arrives.gives_noted rfl unasked⟩
  case unknown =>
    intro s f untyped arrives
    have unknown : knownFrame f.opc = false := by
      simpa only [knownFrame, List.contains_eq_mem, decide_eq_false_iff_not] using fun known => untyped _ known rfl
    exact arrives.gives (congrArg (event s) (if_neg (ne_true_of_eq_false unknown))) rfl
  case late =>
    intro s n r f live request frame unanswered late
    exact ⟨fun few => gives_of_due rfl live (Mach.resend_of_few request frame unanswered late few),
      fun many => gives_of_due rfl live (Mach.resend_of_many request frame unanswered late many)⟩

end Sys2Proof.Machine
end

section
/-! PROOFS. Frames of pages and of ordered and loose updates (R386 to R391), and the eviction of a page (R389). -/

namespace Sys2Proof.Machine

/-! ### The parts of a page (R388, R389) -/

/-- Page p once frame f has brought the last of its parts. -/
def Page.filledBy (p : Page) (f : Frame) (clk : Nat) : Page :=
  { p with parts := [], valid := true, owned := f.oparg.getLsbD 12, shared := false, applied := fieldOf f.oparg 32 32, asked := none, installed := clk }

/-- A device keeps a page that it has been sent. At the home, to which the page comes back, the home is its owner, and asks for it where there are replicas. -/
def Mach.keepPage (m : Mach) (p : Page) (home : Nat) : Bool → Mach
  | true =>
    let kept := m.setPage { p with owner := home, ownerFrame := p.addr }
    if p.serving.isNone && !p.replicas.isEmpty then kept.queuePage p.addr p.world ⟨home, true, 0, p.addr, false, m.clk⟩ else kept
  | false => m.setPage p

section
variable (m : Mach) {p : Page} (home : Nat)

theorem Mach.keepPage_of_away : m.keepPage p home false = m.setPage p := rfl

theorem Mach.keepPage_of_served (served : p.serving.isSome = true ∨ p.replicas = []) :
    m.keepPage p home true = m.setPage { p with owner := home, ownerFrame := p.addr } := by
  rw [Mach.keepPage]
  refine if_neg ?_
  rw [Bool.and_eq_true, Option.isNone_iff_eq_none, Bool.not_eq_true', List.isEmpty_eq_false_iff]
  rintro ⟨unserved, replicas⟩
  rcases served with served | empty
  · rw [unserved] at served; cases served
  · exact replicas empty

theorem Mach.keepPage_of_replicas (unserved : p.serving = none) (replicas : p.replicas ≠ []) :
    m.keepPage p home true =
      (m.setPage { p with owner := home, ownerFrame := p.addr }).queuePage p.addr p.world ⟨home, true, 0, p.addr, false, m.clk⟩ := by
  rw [Mach.keepPage]
  refine if_pos ?_
  rw [unserved, List.isEmpty_eq_false_iff.mpr replicas]
  rfl

end

/-- The machine in whose memory frame f has written its part of a page held at a frame. -/
def Mach.storePart (m : Mach) (f : Frame) (frame : Nat) : Mach :=
  { m with mem := m.mem.store (frame + f.addr.toNat % 65536) (f.payload.take 4096) fun w => chunkPoisoned f.pmask (4 * w) }

theorem AsksAt.gives_pageData_unheld {s : State} {f : Frame} (asks : AsksAt s 0x14 (fieldOf f.oparg 0 12) f)
    (unheld : (framePage s.m (fieldOf f.oparg 0 12) f).frame = none) : Gives (.pageData f) s ((s.m.noteFrame f).nackFrame f 4) := by
  refine asks.gives rfl ?_
  dsimp only
  split
  next => rfl
  next frame held => cases unheld.symm.trans held

/-- A part reaches the frame that holds its page; the last of the 16 fills it. -/
theorem AsksAt.gives_pageData {s : State} {f : Frame} {frame : Nat} (asks : AsksAt s 0x14 (fieldOf f.oparg 0 12) f)
    (held : (framePage s.m (fieldOf f.oparg 0 12) f).frame = some frame) :
    let m := (s.m.noteFrame f).storePart f frame
    let p := framePage s.m (fieldOf f.oparg 0 12) f
    let parts := insertNat p.parts (f.addr.toNat % 65536 / 4096)
    Gives (.pageData f) s (acked (if parts.length < 16 then m.setPage { p with parts := parts }
      else m.keepPage (p.filledBy f m.clk) (fieldOf f.oparg 0 12) (f.oparg.getLsbD 12 && fieldOf f.oparg 0 12 == s.m.xdev.toNat)) f) := by
  intro m p parts
  refine asks.gives rfl ?_
  dsimp only
  split
  next unheld => cases unheld.symm.trans held
  next frame' held' =>
    cases held'.symm.trans held
    rw [apply_ite (acked · f), apply_ite some]
    refine ite_congr rfl (fun _ => rfl) fun _ => congrArg (some <| acked · f) ?_
    rw [← Mach.noteFrame_xdev s.m f]
    simp only [Mach.setPage_clk, fieldOf_one_beq_one]
    cases f.oparg.getLsbD 12 && fieldOf f.oparg 0 12 == (s.m.noteFrame f).xdev.toNat with
    | true => simp only [Bool.true_and, if_true]; rfl
    | false => simp only [Bool.false_and, Bool.false_eq_true, if_false]; rfl

/-! ### Updates (R390, R391) -/

section
variable {s : State} {f : Frame} (asks : Asks s 0x19 f)
include asks

theorem Asks.gives_ordUpdate_unheld (unheld : (framePage s.m f.src.toNat f).frame = none) : Gives (.ordUpdate f) s (acked (s.m.noteFrame f) f) := by
  refine asks.gives rfl ?_
  dsimp only
  split
  next => rfl
  next frame held => cases unheld.symm.trans held

/-- A replica applies the update that is its next, and only answers one that it has applied. -/
theorem Asks.gives_ordUpdate {p : Page} (page : framePage s.m f.src.toNat f = p) {frame : Nat} (held : p.frame = some frame) (valid : p.valid = true)
    (reached : fieldOf f.oparg 0 32 ≤ p.applied % 2 ^ 32) :
    Gives (.ordUpdate f) s (acked (if fieldOf f.oparg 0 32 < p.applied % 2 ^ 32 then s.m.noteFrame f
      else ((s.m.applyUpdate (frame + f.addr.toNat % 65536) (f.payload.take (fieldOf f.oparg 32 16))
        fun w => chunkPoisoned f.pmask (4 * w)).setPage { p with applied := p.applied + 1 }).noteFrame f) f) := by
  subst page
  refine asks.gives rfl ?_
  dsimp only
  split
  next unheld => cases unheld.symm.trans held
  next frame' held' =>
    cases held'.symm.trans held
    rw [apply_ite (acked · f), apply_ite some]
    refine if_neg ?_
    rw [Bool.or_eq_true, Bool.not_eq_true', decide_eq_true_eq, not_or, Nat.not_lt]
    exact ⟨ne_false_of_eq_true valid, reached⟩

end

/-- An update is sent on to the devices of the first list, and logged for those of the second. -/
def Mach.sendOn (m : Mach) (f : Frame) (p : Page) (x : List Nat × List Nat) : Mach :=
  let m := x.2.foldl (fun (m : Mach) d => m.logEvent 7 f.addr.toNat d) m
  let m := x.1.foldl (fun (m : Mach) d => (m.request (.update p.addr p.nextUpdate) 0 { f with dst := BitVec.ofNat 12 d, rseq := 0 }).2) m
  (m.setPage { p with nextUpdate := p.nextUpdate + 1, updates := p.updates ++ [⟨p.nextUpdate, x.1, f.src.toNat, f.seq, none⟩] }).finishUpdates p.addr

theorem AsksAt.gives_looseUpdate {s : State} {f : Frame} (asks : AsksAt s 0x1A (fieldOf f.oparg 48 12) f) :
    let p := framePage s.m (fieldOf f.oparg 48 12) f
    let others := if p.home = s.m.xdev.toNat then p.replicas.filter (· != f.src.toNat) else []
    let m := match p.frame with
      | some frame => s.m.applyUpdate (frame + f.addr.toNat % 65536) (f.payload.take (fieldOf f.oparg 16 13)) fun w => chunkPoisoned f.pmask (4 * w)
      | none => s.m
    let m := m.noteFrame f
    Gives (.looseUpdate f) s (if others.isEmpty then acked m f else m.sendOn f p (others.partition fun d => m.pdom d || f.pmask == 0)) := by
  intro p others m m'
  refine asks.gives rfl ?_
  simp only [beq_iff_eq]
  exact (apply_ite some ..).symm

theorem partition_of_all {α : Type} {l : List α} {p : α → Bool} (all : ∀ x ∈ l, p x = true) : l.partition p = (l, []) := by
  have none : l.filter (not ∘ p) = [] := List.filter_eq_nil_iff.mpr fun x hx => by rw [Function.comp_apply, all x hx]; decide
  rw [List.partition_eq_filter_filter, List.filter_eq_self.mpr all, none]

/-! ### Eviction (R389) -/

/-- The only element of a list that a test accepts is found. -/
theorem find?_eq_of_sole {α : Type} {l : List α} {p : α → Bool} {a : α} (ha : a ∈ l) (accepted : p a = true) (sole : ∀ x ∈ l, p x = true → x = a) :
    l.find? p = some a := by
  cases found : l.find? p with
  | none => exact absurd accepted (List.find?_eq_none.mp found a ha)
  | some b => rw [sole b (List.mem_of_find?_eq_some found) (List.find?_some found)]

/-- A page of another device that the page cache of context c holds, with no request for it under way. -/
def Mach.Cached (m : Mach) (c : Ctx) (q : Page) : Prop :=
  q.home ≠ m.xdev.toNat ∧ q.valid = true ∧ q.asked = none ∧
    ∃ f, q.frame = some f ∧ c.pageCache.1 ≤ f ∧ f < c.pageCache.1 + 65536 * c.pageCache.2

def Mach.isCached (m : Mach) (c : Ctx) (q : Page) : Bool :=
  q.home != m.xdev.toNat && q.valid && q.asked.isNone && (match q.frame with
    | some f => decide (c.pageCache.1 ≤ f) && decide (f < c.pageCache.1 + 65536 * c.pageCache.2)
    | none => false)

theorem Mach.isCached_iff (m : Mach) (c : Ctx) (q : Page) : m.isCached c q = true ↔ m.Cached c q := by
  unfold Mach.isCached Mach.Cached
  cases q.frame <;> simp [and_assoc]

/-- The page installed longest ago leaves a full page cache. -/
theorem Mach.evictPage_of_oldest {m : Mach} {ctx : Nat} {c : Ctx} {p : Page} (hc : m.ctx ctx = some c) (wanted : ctx ∈ m.wanted)
    (full : m.freeFrame ctx = none) (hp : p ∈ m.pages) (cached : m.Cached c p)
    (oldest : ∀ q ∈ m.pages, m.Cached c q → q ≠ p → p.installed < q.installed) :
    m.evictPage ctx =
      let m' := { m with wanted := m.wanted.filter (· != ctx) }
      if p.owned then some (m'.handOver p p.home true false)
      else some (((m'.releasePage p).request .free ctx { blankFrame 0x12 p.home p.addr p.world with oparg := BitVec.ofNat 64 p.home }).2) := by
  have mine (q : Page) : q ∈ m.pages.filter (m.isCached c) ↔ q ∈ m.pages ∧ m.Cached c q := by rw [List.mem_filter, Mach.isCached_iff]
  have found : (m.pages.filter (m.isCached c)).find? (fun p => (m.pages.filter (m.isCached c)).all fun q => p.installed ≤ q.installed) = some p := by
    refine find?_eq_of_sole ((mine p).mpr ⟨hp, cached⟩) (List.all_eq_true.mpr fun q hq => decide_eq_true ?_) fun x hx least => ?_
    · obtain ⟨held, cachedToo⟩ := (mine q).mp hq
      by_cases same : q = p
      · exact Nat.le_of_eq (congrArg Page.installed same.symm)
      · exact Nat.le_of_lt (oldest q held cachedToo same)
    · obtain ⟨held, cachedToo⟩ := (mine x).mp hx
      refine Decidable.byContradiction fun other => absurd (of_decide_eq_true (List.all_eq_true.mp least p ((mine p).mpr ⟨hp, cached⟩))) (Nat.not_le.mpr (oldest x held cachedToo other))
  simp only [Mach.evictPage, hc, List.contains_iff_mem.mpr wanted, full, Option.isSome_none, Bool.not_true, Bool.or_self, Bool.false_eq_true, if_false]
  split
  next unfound => cases unfound.symm.trans found
  next q found' => cases found'.symm.trans found; rfl

end Sys2Proof.Machine
end

section
/-! PROOFS. Frames of collectives (R395 to R397), and the settling of the frames of pages, updates and collectives. -/

namespace Sys2Proof.Machine

/-! ### Frames of collectives -/

/-- A frame of a collective comes from a device of the group, in its world. -/
theorem Group.foreign_eq_false {g : Group} {f : Frame} (world : g.world = f.world) (member : f.src.toNat ∈ g.devs) :
    (g.world != f.world || !g.devs.contains f.src.toNat) = false := by
  rw [world, List.contains_iff_mem.mpr member, bne_self_eq_false, Bool.not_true, Bool.or_self]

theorem Mach.collJoined_of_none {m : Mach} {group cseq : Nat} (unknown : m.coll group cseq = none) :
    m.collJoined group cseq = Collective.blank group cseq := by
  rw [Mach.collJoined, unknown]

theorem Mach.collJoined_of_some {m : Mach} {group cseq : Nat} {e : Collective} (known : m.coll group cseq = some e) :
    m.collJoined group cseq = if e.ended then Collective.blank group cseq else e := by
  rw [Mach.collJoined, known]

section
variable {s : State} {f : Frame} {g : Group}

theorem Asks.gives_collParam_refused (asks : Asks s 0x20 f) (hg : (s.m.noteFrame f).group (fieldOf f.oparg 0 8) = some g)
    (foreign : g.world ≠ f.world ∨ f.src.toNat ∉ g.devs) : Gives (.collParam f) s ((s.m.noteFrame f).nackFrame f 4) := by
  refine asks.gives rfl ?_
  have refused : (g.world != f.world || !g.devs.contains f.src.toNat) = true := by
    simpa only [Bool.or_eq_true, bne_iff_ne, Bool.not_eq_true', List.contains_eq_mem, decide_eq_false_iff_not] using foreign
  simp only [hg, refused, if_true]

/-- Parameters, or an abort, of another rank reach a collective that has not ended, or begin it. -/
theorem Asks.gives_collParam (asks : Asks s 0x20 f) (hg : (s.m.noteFrame f).group (fieldOf f.oparg 0 8) = some g)
    (world : g.world = f.world) (member : f.src.toNat ∈ g.devs)
    (going : f.oparg.getLsbD 24 = true → ∀ e, (s.m.noteFrame f).coll (fieldOf f.oparg 0 8) (fieldOf f.oparg 8 16) = some e → e.ended = false) :
    let m := s.m.noteFrame f
    let e := m.collJoined (fieldOf f.oparg 0 8) (fieldOf f.oparg 8 16)
    let words := [BitVec.ofNat 64 (ofBytes (f.payload.take 8)), BitVec.ofNat 64 (ofBytes ((f.payload.drop 8).take 8))]
    Gives (.collParam f) s ((acked m f).setColl (if f.oparg.getLsbD 24 then { e with aborted := some (if f.oparg.getLsbD 25 then 9 else 0x0A) }
      else { e with params := e.params ++ [(g.devs.idxOf f.src.toNat, words)] })) := by
  intro m e words
  refine asks.gives rfl ?_
  have kept : ((s.m.noteFrame f).answer f 0x81 0 [] fun _ => false).coll (fieldOf f.oparg 0 8) (fieldOf f.oparg 8 16) =
      m.coll (fieldOf f.oparg 0 8) (fieldOf f.oparg 8 16) := Mach.coll_acked m f _ _
  simp only [hg, Group.foreign_eq_false world member, fieldOf_one_beq_one, kept, Bool.false_eq_true, if_false]
  cases known : m.coll (fieldOf f.oparg 0 8) (fieldOf f.oparg 8 16) with
  | none =>
    rw [show e = _ from Mach.collJoined_of_none known]
    cases f.oparg.getLsbD 24 <;> rfl
  | some e' =>
    have joined : e = _ := Mach.collJoined_of_some known
    cases aborts : f.oparg.getLsbD 24 with
    | true =>
      have lives := ne_true_of_eq_false (going aborts e' known)
      rw [joined.trans (if_neg lives)]
      exact congrArg some (if_neg lives)
    | false => rw [joined]; rfl

end

/-- Settles O46: a frame that is the next of its stream and passes its checks does what its type says. The codes of refusals and the poison of payload chunks (DEDUCED,
log 44), the way of a loose update over its home (DEDUCED, log 46; DESIGN CHOICE, log 78) and the layouts of OPARG (DESIGN CHOICE, log 18) are the model's. -/
theorem pageAndCollectiveFrames : Obligations.PageAndCollectiveFrames := by
  unfold Obligations.PageAndCollectiveFrames
  refine ⟨?request, ?inval, ?fetch, ?data, ?grant, ?evict, ?ordered, ?update, ?loose, ?param, ?block, ?ended⟩
  case request =>
    intro s f m request
    have queued (own : Bool) : m.queuePage (pageBase f.addr.toNat) f.world
        ⟨f.src.toNat, own, f.seq, fieldOf f.oparg 1 39 * 2, fieldOf f.oparg 0 1 == 1, m.clk⟩ = request own := by
      rw [fieldOf_one_beq_one]; rfl
    exact ⟨fun admitted => admitted.gives rfl (congrArg some (queued false)), fun admitted => admitted.gives rfl (congrArg some (queued true))⟩
  case inval =>
    intro s f asks m home p
    refine ⟨fun here other => asks.gives rfl ?_, fun away replica => asks.gives rfl ?_⟩
    · have told : (home == m.xdev.toNat && f.src.toNat != home) = true := by rw [← here, beq_self_eq_true, bne_iff_ne.mpr other]; rfl
      exact congrArg (some <| acked · f) (if_pos told)
    · have untold : (home == m.xdev.toNat && f.src.toNat != home) = false := by rw [beq_eq_false_iff_ne.mpr away, Bool.false_and]
      exact congrArg (some <| acked · f) ((if_neg (ne_true_of_eq_false untold)).trans (if_neg (ne_true_of_eq_false replica)))
  case fetch =>
    intro s f asks m p
    have answers {m₁ : Mach} (applied : (if !p.owned && s.m.returning p then none else
        some (acked (if p.owned then m.handOver p (fieldOf f.oparg 0 12) (fieldOf f.oparg 12 1 == 1) (fieldOf f.oparg 13 1 == 1) else m) f)) = some m₁) :
        Gives (.fetch f) s m₁ := asks.gives rfl applied
    simp only [fieldOf_one_beq_one] at answers
    refine ⟨fun owned => answers ?_, fun replica settled => answers ?_⟩
    · simp only [owned, Bool.not_true, Bool.false_and, Bool.false_eq_true, if_false, if_true]
    · simp only [replica, settled, Bool.and_false, Bool.false_eq_true, if_false]
  case data =>
    intro s f asks m home own p parts
    refine ⟨fun unheld => asks.gives_pageData_unheld unheld, fun frame held => ?_⟩
    intro m' p' back
    have answers : Gives (.pageData f) s (acked (if parts.length < 16 then m'.setPage { p with parts := parts }
      else m'.keepPage p' home (own && home == s.m.xdev.toNat)) f) := asks.gives_pageData held
    have filled (all : parts.length = 16) : Gives (.pageData f) s (acked (m'.keepPage p' home (own && home == s.m.xdev.toNat)) f) := by
      rwa [if_neg (Nat.not_lt.mpr (Nat.le_of_eq all.symm))] at answers
    have returned (owns : own = true) (here : home = s.m.xdev.toNat) : (own && home == s.m.xdev.toNat) = true := by rw [owns, beq_iff_eq.mpr here]; rfl
    refine ⟨fun more => by rwa [if_pos more] at answers, fun all stays => ?_, fun all owns here served => ?_, fun all owns here unserved replicas => ?_⟩
    · have away : (own && home == s.m.xdev.toNat) = false := by
        rwa [Bool.and_eq_false_iff, beq_eq_false_iff_ne]
      rw [← m'.keepPage_of_away home, ← away]
      exact filled all
    · have kept : m'.keepPage p' home true = back := m'.keepPage_of_served home served
      rw [← kept, ← returned owns here]
      exact filled all
    · have kept : m'.keepPage p' home true = back.queuePage p.addr p.world ⟨home, true, 0, p.addr, false, m'.clk⟩ :=
        m'.keepPage_of_replicas home unserved replicas
      rw [← kept, ← returned owns here]
      exact filled all
  case grant =>
    intro s f asks m p
    exact asks.gives rfl rfl
  case evict =>
    intro s ctx c p live hc wanted full cached hp hcached oldest m
    have evicts := Mach.evictPage_of_oldest hc wanted full hp hcached oldest
    exact ⟨fun owned => gives_of_due rfl live (evicts.trans (if_pos owned)),
      fun replica => gives_of_due rfl live (evicts.trans (if_neg (ne_true_of_eq_false replica)))⟩
  case ordered =>
    intro s f admitted
    exact admitted.gives rfl rfl
  case update =>
    intro s f asks p num
    refine ⟨fun unheld => asks.gives_ordUpdate_unheld unheld, fun frame held valid => ⟨fun applied => ?_, fun next => ?_⟩⟩
    · have answers := asks.gives_ordUpdate (p := p) rfl held valid (Nat.le_of_lt applied)
      rwa [if_pos applied] at answers
    · have answers := asks.gives_ordUpdate (p := p) rfl held valid (Nat.le_of_eq next)
      rwa [if_neg (Nat.not_lt.mpr (Nat.le_of_eq next.symm))] at answers
  case loose =>
    intro s f asks p others m m'
    have answers : Gives (.looseUpdate f) s (if others.isEmpty then acked m' f else m'.sendOn f p (others.partition fun d => m'.pdom d || f.pmask == 0)) :=
      asks.gives_looseUpdate
    refine ⟨fun alone => by rwa [if_pos (List.isEmpty_iff.mpr alone)] at answers, fun holders reaches => ?_⟩
    have all : others.partition (fun d => m'.pdom d || f.pmask == 0) = (others, []) :=
      partition_of_all fun d hd => by simpa using reaches d hd
    rwa [if_neg (mt List.isEmpty_iff.mp holders), all] at answers
  case param =>
    intro s f g asks m n cseq words hg entry
    refine ⟨fun foreign => asks.gives_collParam_refused hg foreign, fun world member joins => ?_, fun world member aborts going => ?_⟩
    · have answers := asks.gives_collParam hg world member fun aborts => by rw [aborts] at joins; cases joins
      simp only [joins] at answers
      exact answers
    · have answers := asks.gives_collParam hg world member fun _ => going
      simp only [aborts] at answers
      exact answers
  case block =>
    intro s f g e asks m n hg he going world member bytes
    refine asks.gives rfl ?_
    replace hg : (s.m.noteFrame f).group (fieldOf f.oparg 0 8) = some g := hg
    replace he : (s.m.noteFrame f).coll (fieldOf f.oparg 0 8) (fieldOf f.oparg 8 16) = some e := he
    simp only [hg, he, Group.foreign_eq_false world member, going, Bool.false_eq_true, if_false]
    rfl
  case ended =>
    intro s n cseq c g live hc hg going started ends unsent
    refine gives_of_due rfl live ?_
    have due : (c.ended || c.packet.isNone || !(c.aborted.isSome || s.m.collLate c)) = false := by
      have late : (c.aborted.isSome || s.m.collLate c) = true := by rwa [Bool.or_eq_true, Option.isSome_iff_ne_none]
      rw [going, Option.isNone_eq_false_iff.mpr started, late]; rfl
    simp only [collectiveEndEarlyDue, Mach.collEnd, hc, hg, due, unsent, Bool.not_false, Bool.false_eq_true, if_false, if_true]

end Sys2Proof.Machine
end

section
/-! PROOFS. Walks and page requests (R363 to R366), and the host link (R370 to R373). -/

namespace Sys2Proof.Machine

/-! ### Walks and page requests -/

section
variable {m : Mach} {die n : Nat} {w : Walk}

theorem Mach.startWalk_of_room (next : (m.die die).walks.find? (fun x => !x.2.started) = some (n, w))
    (room : ((m.die die).walks.filter fun x => x.2.started).length < 64) :
    m.startWalk die = some (m.modDie die fun d => { d with walks := tabSet d.walks n { w with started := true } }) := by
  simp only [Mach.startWalk, next, Nat.not_le.mpr room, if_false]

section
variable (walk : tabGet (m.die die).walks n = some w)
include walk

/-- A walk ends at a leaf, and every queued miss that the leaf's block satisfies ends with it (R364). -/
theorem Mach.walkDone_of_leaf {e : TlbEntry} (started : w.started = true) (leaf : m.walkTable w.ctx w.va = .leaf e) :
    m.walkDone die n =
      let m := (m.installDie die e).endWalk die n []
      some ((m.die die).walks.foldl (fun (m : Mach) x =>
        if !x.2.started && e.covers x.2.ctx x.2.world x.2.va then m.endWalk die x.1 [] else m) m) := by
  simp only [Mach.walkDone, walk, started, leaf, Bool.not_true, Bool.false_eq_true, if_false]

theorem Mach.walkDone_of_fault {c r d : Nat} (started : w.started = true) (fault : m.walkTable w.ctx w.va = .fault c r d) :
    m.walkDone die n = some (m.endWalk die n [(w.va / 2 ^ 16, c, r, d)]) := by
  simp only [Mach.walkDone, walk, started, fault, Bool.not_true, Bool.false_eq_true, if_false]

theorem Mach.walkDone_of_absent {level : Nat} (started : w.started = true) (absent : m.walkTable w.ctx w.va = .absent level)
    (changes : m.walkAbsent die n w level ≠ m) : m.walkDone die n = some (m.walkAbsent die n w level) := by
  simp only [Mach.walkDone, walk, started, absent, beq_eq_false_iff_ne.mpr changes, Bool.not_true, Bool.false_eq_true, if_false]

/-- 4,096 ck after its miss, or that of an instruction that has joined it, a walk is overdue (R364). -/
theorem Mach.walkOverdue_of_late :
    let late := fun (x : Wait) => x.onWalk die n && !x.overdue && decide (x.since + 4096 ≤ m.clk)
    let first := !w.overdue && decide (w.since + 4096 ≤ m.clk)
    first = true ∨ (∃ k ∈ m.tasks, ∃ x ∈ k.2.waits, late x.2 = true) →
    m.walkOverdue die n = some ((m.modWaits (fun _ x => late x) fun x => { x with overdue := true }).modDie die fun d =>
      { d with walks := tabSet d.walks n { w with overdue := w.overdue || first } }) := by
  intro late first due
  have overdue : (first || m.tasks.any fun k => k.2.waits.any fun x => late x.2) = true := by
    simpa only [Bool.or_eq_true, List.any_eq_true] using due
  unfold Mach.walkOverdue
  simp only [walk]
  exact if_pos overdue

end

end

/-- The firmware serves page requests while it has not failed and no takeover is under way (R437). -/
theorem pageRequestResponseDue_of_serving {s : State} (ctx slot : Nat) (settled : s.fw.updating < 2) (standing : s.fw.state ≠ .failed) :
    pageRequestResponseDue ctx slot s = s.m.pageResponse ctx slot := by
  simp only [pageRequestResponseDue, Nat.not_le.mpr settled, beq_eq_false_iff_ne.mpr standing, decide_false, Bool.or_self, Bool.false_eq_true, if_false]

/-! ### The host link -/

section
variable {m : Mach} {offset : Nat} {req : HostReq}

/-- A host write of 1 to 512 bytes in BAR 4 is made where the function may reach it (R370, R371). -/
theorem Mach.barWrite_of_size {bytes : List Byte} (poisoned : Bool) (nonempty : bytes ≠ []) (short : bytes.length ≤ 512)
    (inBar : offset + bytes.length ≤ 2 ^ 40) :
    m.barWrite offset bytes req poisoned = some (if m.barOpen req offset bytes.length then
      (sectorsAt (.mem offset) bytes.length).foldl (fun (m : Mach) a => m.touch a) { m with mem := m.mem.store offset bytes fun _ => poisoned }
      else { m with out := m.out ++ [.unsupported] }) := by
  simp only [Mach.barWrite, List.isEmpty_eq_false_iff.mpr nonempty, Nat.not_lt.mpr short, Nat.not_lt.mpr inBar, decide_false, Bool.or_self,
    Bool.false_eq_true, if_false]
  cases m.barOpen req offset bytes.length <;> rfl

theorem Mach.barRead_of_size {n : Nat} (nonempty : 0 < n) (short : n ≤ 4096) (inBar : offset + n ≤ 2 ^ 40) :
    m.barRead offset n req =
      let m' := (sectorsAt (.mem offset) n).foldl (fun (m : Mach) a => m.touch a) m
      some (if m.barOpen req offset n then { m' with out := m'.out ++ [.readAnswer (m'.mem.bytes offset n) (m'.mem.anyPoison offset n)] }
        else { m with out := m.out ++ [.unsupported] }) := by
  simp only [Mach.barRead, beq_eq_false_iff_ne.mpr (Nat.ne_of_gt nonempty), Nat.not_lt.mpr short, Nat.not_lt.mpr inBar, decide_false, Bool.or_self,
    Bool.false_eq_true, if_false]
  cases m.barOpen req offset n <;> rfl

end

/-- Settles O40: each event is due where its statement says so, and the model's function of the same state tells what it makes of the machine. That a refused
translation of the host traps with cause 4, reason 4, is the model's (DEDUCED, log 38). -/
theorem walkAndHostEvents : Obligations.WalkAndHostEvents := by
  unfold Obligations.WalkAndHostEvents
  refine ⟨?start, ?complete, ?bound, ?response, ?completion, ?ats, ?invalidation, ?write, ?read, ?flow⟩
  case start =>
    intro s die n w live next room
    exact gives_of_due rfl live (Mach.startWalk_of_room next room)
  case complete =>
    intro s die n w live walk started
    exact ⟨fun e leaf => gives_of_due rfl live (Mach.walkDone_of_leaf walk started leaf),
      fun c r d fault => gives_of_due rfl live (Mach.walkDone_of_fault walk started fault),
      fun level absent changes => gives_of_due rfl live (Mach.walkDone_of_absent walk started absent changes)⟩
  case bound =>
    intro s die n w live walk late first due
    exact gives_of_due rfl live (Mach.walkOverdue_of_late walk due)
  case response =>
    intro s ctx slot page access c live settled standing hc posted a resp answered level found go m
    refine gives_of_due rfl live ((pageRequestResponseDue_of_serving ctx slot settled standing).trans ?_)
    have known : (resp != 1 && resp != 2) = false := by
      rwa [Bool.and_eq_false_iff, bne_eq_false_iff_eq, bne_eq_false_iff_eq]
    simp only [Mach.pageResponse, hc, posted]
    refine (if_neg (ne_true_of_eq_false known)).trans ?_
    simp only [Bool.and_eq_true, beq_iff_eq, List.contains_iff_mem]
    rfl
  case completion =>
    intro s tag bytes poisoned r live request host unanswered
    refine gives_of_due rfl live ?_
    simp only [Mach.hostCompleted, request, host, unanswered, beq_self_eq_true, Option.isNone_none, Bool.and_self, if_true]
  case ats =>
    intro s page engine secure live asked rest
    refine ⟨gives_of_due rfl live ?_, fun o => gives_of_due rfl live ?_, gives_of_due rfl live ?_, fun code refused => gives_of_due rfl live ?_⟩
    · simp only [Mach.atsAnswered, asked]
    · simp only [Mach.atsAnswered, asked]; rfl
    · simp only [Mach.priAnswered, asked, beq_self_eq_true, if_true]
    · simp only [Mach.priAnswered, asked, beq_eq_false_iff_ne.mpr refused, Bool.false_eq_true, if_false]; rfl
  case invalidation =>
    intro s page n live
    exact gives_of_due rfl live rfl
  case write =>
    intro s offset bytes req poisoned live standing nonempty short inBar
    exact gives_of_due (answering_of_standing standing _) live (Mach.barWrite_of_size poisoned nonempty short inBar)
  case read =>
    intro s offset n req live standing nonempty short inBar m
    exact gives_of_due (answering_of_standing standing _) live (Mach.barRead_of_size nonempty short inBar)
  case flow =>
    intro s port priority live hport hpriority
    have known : (decide (16 ≤ port) || decide (2 ≤ priority)) = false := by
      rw [decide_eq_false (Nat.not_le.mpr hport), decide_eq_false (Nat.not_le.mpr hpriority)]; rfl
    refine ⟨gives_of_due rfl live ?_, gives_of_due rfl live ?_⟩
    all_goals simp only [Mach.flowControl, known, Bool.false_eq_true, if_false, if_true]

end Sys2Proof.Machine
end

section
/-! PROOFS. The wear records (R427, R428): keyed lists with rising keys, what a change of records keeps, and what a sample does to a domain. -/

namespace Sys2Proof.Machine

/-! ### Keyed lists and rising numbers -/

section
variable {α : Type}

/-- An entry is put in where its key stands among the keys. -/
theorem map_fst_tabSet (t : Tab α) (k : Nat) (a : α) : (tabSet t k a).map (·.1) = insertNat (t.map (·.1)) k := by
  induction t with
  | nil => rfl
  | cons p rest ih =>
    simp only [tabSet, List.map_cons, insertNat, beq_iff_eq]
    by_cases same : p.1 = k
    · simp only [same, if_true, List.map_cons]
    · by_cases low : k < p.1
      · simp only [if_neg same, if_neg (Ne.symm same), if_pos low, List.map_cons]
      · simp only [if_neg same, if_neg (Ne.symm same), if_neg low, List.map_cons, ih]

theorem mem_of_mem_tabSet {t : Tab α} {k : Nat} {a : α} {y : Nat × α} (h : y ∈ tabSet t k a) : y = (k, a) ∨ y ∈ t := by
  induction t with
  | nil => simpa [tabSet] using h
  | cons p rest ih =>
    simp only [tabSet] at h
    split at h
    · exact (List.mem_cons.mp h).imp_right (List.mem_cons_of_mem p)
    · split at h
      · simpa only [List.mem_cons] using h
      · simp only [List.mem_cons] at h ⊢
        rcases h with first | later
        · exact .inr (.inl first)
        · rcases ih later with new | old
          · exact .inl new
          · exact .inr (.inr old)

theorem mem_of_tabGet_eq_some {t : Tab α} {k : Nat} {a : α} (h : tabGet t k = some a) : (k, a) ∈ t := by
  induction t with
  | nil => cases h
  | cons p rest ih =>
    simp only [tabGet, beq_iff_eq] at h
    split at h
    · next same => obtain rfl := same; cases h; exact List.mem_cons_self
    · exact List.mem_cons_of_mem _ (ih h)

theorem tabGet_isSome_iff (t : Tab α) (k : Nat) : (tabGet t k).isSome = true ↔ k ∈ t.map (·.1) := by
  induction t with
  | nil => simp [tabGet]
  | cons p rest ih =>
    simp only [tabGet, beq_iff_eq, List.map_cons, List.mem_cons]
    split
    · next same => simp [same]
    · next other => rw [ih]; exact (or_iff_right (Ne.symm other)).symm

end

theorem mem_insertNat {l : List Nat} {a b : Nat} : a ∈ insertNat l b ↔ a = b ∨ a ∈ l := by
  induction l with
  | nil => simp [insertNat]
  | cons c rest ih =>
    simp only [insertNat, beq_iff_eq]
    split
    · next same => simp [same]
    · split
      · simp only [List.mem_cons]
      · rw [List.mem_cons, ih, List.mem_cons, or_left_comm]

theorem mem_foldl_insertNat {l : List Nat} {a : Nat} (ns : List Nat) : a ∈ ns.foldl insertNat l ↔ a ∈ ns ∨ a ∈ l := by
  induction ns generalizing l with
  | nil => simp
  | cons n rest ih => rw [List.foldl_cons, ih, mem_insertNat, List.mem_cons, or_left_comm, or_assoc]

theorem foldl_insertNat_wf {l : List Nat} (ns : List Nat) (h : numsAbove none l = true) : numsAbove none (ns.foldl insertNat l) = true := by
  induction ns generalizing l with
  | nil => exact h
  | cons n rest ih => exact ih (insertNat_wf l n h)

theorem lt_of_mem_of_numsAbove {l : List Nat} {b a : Nat} (h : numsAbove (some b) l = true) (ha : a ∈ l) : b < a := by
  induction l generalizing b with
  | nil => cases ha
  | cons c rest ih =>
    simp only [numsAbove, Bool.and_eq_true, decide_eq_true_eq] at h
    obtain ⟨low, above⟩ := h
    rcases List.mem_cons.mp ha with rfl | later
    · exact low
    · exact Nat.lt_trans low (ih above later)

theorem nodup_of_numsAbove {l : List Nat} (h : numsAbove none l = true) : l.Nodup := by
  induction l with
  | nil => exact .nil
  | cons c rest ih =>
    have fresh : c ∉ rest := fun there => Nat.lt_irrefl c (lt_of_mem_of_numsAbove h there)
    exact List.nodup_cons.mpr ⟨fresh, ih (numsAbove_none rest _ h)⟩

/-! ### Changes of wear records -/

/-- Wear records in ascending order, every marked domain at the highest VOFF (R428). -/
def WearOrdered (t : Tab Wear) : Prop := numsAbove none (t.map (·.1)) = true ∧ ∀ y ∈ t, y.2.marked = true → y.2.voff.val = 24

/-- The record w' may follow w: a domain is marked only at the highest VOFF, and VOFF does not fall (R428). -/
structure Wear.Ages (w w' : Wear) : Prop where
  top : (w.marked = true → w.voff.val = 24) → w'.marked = true → w'.voff.val = 24
  voff : w.voff.val ≤ w'.voff.val

/-- The records u may follow t: they keep their order and their marks, and the VOFF of no domain falls. -/
structure WearFollows (t u : Tab Wear) : Prop where
  ordered : WearOrdered t → WearOrdered u
  voff : ∀ d, (tabGetD t d Wear.fresh).voff.val ≤ (tabGetD u d Wear.fresh).voff.val

theorem WearFollows.refl (t : Tab Wear) : WearFollows t t := ⟨id, fun _ => Nat.le_refl _⟩

theorem WearFollows.trans {t u v : Tab Wear} (first : WearFollows t u) (second : WearFollows u v) : WearFollows t v :=
  ⟨fun h => second.ordered (first.ordered h), fun d => Nat.le_trans (first.voff d) (second.voff d)⟩

/-- A domain without a record is not marked. -/
theorem WearOrdered.marked_top {t : Tab Wear} (h : WearOrdered t) (d : Nat) (marked : (tabGetD t d Wear.fresh).marked = true) :
    (tabGetD t d Wear.fresh).voff.val = 24 := by
  cases record : tabGet t d with
  | none => simp [tabGetD, record, Wear.fresh] at marked
  | some w =>
    simp only [tabGetD, record, Option.getD_some] at marked ⊢
    exact h.2 _ (mem_of_tabGet_eq_some record) marked

theorem WearFollows.tabSet {t : Tab Wear} {d : Nat} {w : Wear} (ages : (tabGetD t d Wear.fresh).Ages w) : WearFollows t (tabSet t d w) := by
  refine ⟨fun h => ⟨?rising, fun y hy marked => ?top⟩, fun e => ?voff⟩
  case rising => rw [map_fst_tabSet]; exact insertNat_wf _ _ h.1
  case top =>
    rcases mem_of_mem_tabSet hy with rfl | old
    · exact ages.top (h.marked_top d) marked
    · exact h.2 y old marked
  case voff =>
    by_cases same : e = d
    · obtain rfl := same
      rw [tabGetD_tabSet_same]
      exact ages.voff
    · exact Nat.le_of_eq (congrArg (fun x : Wear => x.voff.val) (tabGetD_tabSet_other _ _ _ same).symm)

/-! ### Changes of the record of one domain -/

theorem Firm.wearOf_modWear_same (fw : Firm) (d : Nat) (f : Wear → Wear) : (fw.modWear d f).wearOf d = f (fw.wearOf d) :=
  tabGetD_tabSet_same ..

theorem Firm.modWear_follows {fw : Firm} {d : Nat} {f : Wear → Wear} (ages : (fw.wearOf d).Ages (f (fw.wearOf d))) :
    WearFollows fw.wear (fw.modWear d f).wear := .tabSet ages

/-- Retiring, stopping and a repair of a domain leave its VOFF, and mark nothing. -/
theorem Wear.Ages.of_same {w w' : Wear} (voff : w'.voff = w.voff) (marked : w'.marked = true → w.marked = true) : w.Ages w' :=
  ⟨fun top h => voff ▸ top (marked h), Nat.le_of_eq (congrArg Fin.val voff.symm)⟩

/-! ### Samples (R428) -/

theorem Wear.sample_of_room {w : Wear} {margin : Nat} (low : margin < 20) (room : w.voff.val < 24) :
    w.sample margin = { w with margin := margin, stopped := false, voff := ⟨w.voff.val + 1, Nat.succ_lt_succ room⟩ } :=
  dif_pos ⟨low, room⟩

theorem Wear.sample_of_full {w : Wear} {margin : Nat} (low : margin < 20) (full : ¬ w.voff.val < 24) :
    w.sample margin = { w with margin := margin, stopped := false, marked := true } :=
  (dif_neg fun h => full h.2).trans (if_pos low)

theorem Wear.sample_of_high {w : Wear} {margin : Nat} (high : ¬ margin < 20) : w.sample margin = { w with margin := margin, stopped := false } :=
  (dif_neg fun h => high h.1).trans (if_neg high)

theorem Wear.sample_sampledWear (w : Wear) (margin : Nat) : sampledWear w margin (w.sample margin) := by
  by_cases low : margin < 20
  · by_cases room : w.voff.val < 24
    · rw [Wear.sample_of_room low room]
      exact ⟨rfl, rfl, rfl, fun high => absurd low (Nat.not_lt.mpr high), fun _ _ => ⟨rfl, rfl⟩, fun _ full => absurd room (by omega)⟩
    · rw [Wear.sample_of_full low room]
      exact ⟨rfl, rfl, rfl, fun high => absurd low (Nat.not_lt.mpr high), fun _ below => absurd below room, fun _ _ => ⟨rfl, rfl⟩⟩
  · rw [Wear.sample_of_high low]
    exact ⟨rfl, rfl, rfl, fun _ => ⟨rfl, rfl⟩, fun below => absurd below low, fun below => absurd below low⟩

theorem sampledWear.ages {w w' : Wear} {margin : Nat} (sampled : sampledWear w margin w') : w.Ages w' := by
  obtain ⟨-, -, -, high, raised, atTop⟩ := sampled
  have bound := w.voff.isLt
  by_cases low : margin < 20
  · by_cases room : w.voff.val < 24
    · obtain ⟨up, same⟩ := raised low room
      exact ⟨fun top h => by have := top (same ▸ h); omega, by omega⟩
    · have full : w.voff.val = 24 := by omega
      obtain ⟨same, -⟩ := atTop low full
      exact ⟨fun _ _ => same ▸ full, Nat.le_of_eq (congrArg Fin.val same.symm)⟩
  · obtain ⟨same, mark⟩ := high (Nat.not_lt.mp low)
    exact .of_same same fun h => mark ▸ h

/-- The records once domains l have been sampled. -/
def sampleAll (margins : List (Nat × Nat)) (l : List Nat) (t : Tab Wear) : Tab Wear :=
  l.foldl (fun t d => let w := tabGetD t d Wear.fresh; tabSet t d (w.sample (tabGetD margins d w.margin))) t

theorem foldl_modWear_sample (margins : List (Nat × Nat)) (l : List Nat) (fw : Firm) :
    l.foldl (fun (fw : Firm) d => fw.modWear d fun w => w.sample (tabGetD margins d w.margin)) fw = { fw with wear := sampleAll margins l fw.wear } := by
  induction l generalizing fw with
  | nil => rfl
  | cons d rest ih => exact ih _

theorem sampleAll_follows (margins : List (Nat × Nat)) (l : List Nat) (t : Tab Wear) : WearFollows t (sampleAll margins l t) := by
  induction l generalizing t with
  | nil => exact .refl t
  | cons d rest ih => exact (WearFollows.tabSet (Wear.sample_sampledWear ..).ages).trans (ih _)

theorem tabGet_sampleAll_of_not_mem {margins : List (Nat × Nat)} {l : List Nat} {t : Tab Wear} {d : Nat} (h : d ∉ l) :
    tabGet (sampleAll margins l t) d = tabGet t d := by
  induction l generalizing t with
  | nil => rfl
  | cons e rest ih =>
    obtain ⟨other, later⟩ := not_or.mp (mt List.mem_cons.mpr h)
    exact (ih later).trans (tabGet_tabSet_other _ _ other)

/-- A domain that is listed once is sampled once. -/
theorem tabGetD_sampleAll_of_mem {margins : List (Nat × Nat)} {l : List Nat} {t : Tab Wear} {d : Nat} (once : l.Nodup) (h : d ∈ l) :
    let w := tabGetD t d Wear.fresh
    tabGetD (sampleAll margins l t) d Wear.fresh = w.sample (tabGetD margins d w.margin) := by
  induction l generalizing t with
  | nil => cases h
  | cons e rest ih =>
    obtain ⟨fresh, once⟩ := List.nodup_cons.mp once
    by_cases same : d = e
    · obtain rfl := same
      have kept := tabGet_sampleAll_of_not_mem (margins := margins)
        (t := tabSet t d ((tabGetD t d Wear.fresh).sample (tabGetD margins d (tabGetD t d Wear.fresh).margin))) fresh
      rw [tabGet_tabSet_same] at kept
      exact congrArg (·.getD Wear.fresh) kept
    · have kept := ih (t := tabSet t e ((tabGetD t e Wear.fresh).sample (tabGetD margins e (tabGetD t e Wear.fresh).margin))) once
        ((List.mem_cons.mp h).resolve_left same)
      rwa [tabGetD_tabSet_other _ _ _ same] at kept

end Sys2Proof.Machine
end

section
/-! PROOFS. What a step can do to the firmware's state: every instruction and event is followed by a state that keeps its invariant, and no VOFF falls (R427 to R442). -/

namespace Sys2Proof.Machine

/-- What the invariant says of the firmware's state beside the wear records. -/
structure Firm.Sound (fw : Firm) : Prop where
  cap : fw.cap ≤ 8
  trip : fw.tripped = true → fw.cap = 8
  phase : fw.updating ≤ 3
  standby : fw.updating ≠ 0 → fw.standby = true
  mails : fw.updating < 2 → fw.mails = []
  boot : fw.powered = false → fw.state = .boot

theorem Firm.inv_iff (fw : Firm) : fw.Inv ↔ WearOrdered fw.wear ∧ fw.Sound :=
  ⟨fun ⟨rising, top, cap, trip, phase, standby, mails, boot⟩ => ⟨⟨rising, top⟩, ⟨cap, trip, phase, standby, mails, boot⟩⟩,
    fun ⟨⟨rising, top⟩, ⟨cap, trip, phase, standby, mails, boot⟩⟩ => ⟨rising, top, cap, trip, phase, standby, mails, boot⟩⟩

/-- The firmware's state fw' may follow fw. -/
structure Firm.Follows (fw fw' : Firm) : Prop where
  wear : WearFollows fw.wear fw'.wear
  sound : fw.Sound → fw'.Sound

theorem Firm.Follows.inv {fw fw' : Firm} (follows : fw.Follows fw') (h : fw.Inv) : fw'.Inv := by
  obtain ⟨ordered, sound⟩ := fw.inv_iff.mp h
  exact fw'.inv_iff.mpr ⟨follows.wear.ordered ordered, follows.sound sound⟩

theorem Firm.Follows.refl (fw : Firm) : fw.Follows fw := ⟨.refl _, id⟩

theorem Firm.Follows.of_eq {fw fw' : Firm} (h : fw' = fw) : fw.Follows fw' := h ▸ .refl fw

theorem Firm.Follows.trans {fw fw' fw'' : Firm} (first : fw.Follows fw') (second : fw'.Follows fw'') : fw.Follows fw'' :=
  ⟨first.wear.trans second.wear, fun h => second.sound (first.sound h)⟩

/-- A change that leaves the wear records. -/
theorem Firm.Follows.of_wear_eq {fw fw' : Firm} (wear : fw'.wear = fw.wear) (sound : fw.Sound → fw'.Sound) : fw.Follows fw' :=
  ⟨wear ▸ .refl _, sound⟩

theorem Firm.follows_modWear {fw : Firm} {d : Nat} {f : Wear → Wear} (ages : (fw.wearOf d).Ages (f (fw.wearOf d))) : fw.Follows (fw.modWear d f) :=
  ⟨fw.modWear_follows ages, fun h => { h with }⟩

theorem Firm.follows_retired (fw : Firm) (d : Nat) : fw.Follows (fw.modWear d fun w => { w with retired := true }) :=
  Firm.follows_modWear (.of_same rfl id)

theorem Firm.follows_stopped (fw : Firm) (d : Nat) : fw.Follows (fw.modWear d fun w => { w with stopped := true }) :=
  Firm.follows_modWear (.of_same rfl id)

/-- SERVICE is set in NORMAL only (R431). -/
theorem Firm.serviced_eq (fw : Firm) : fw.serviced = fw ∨ fw.state = .normal ∧ fw.serviced = { fw with state := .service } := by
  unfold Firm.serviced
  split
  · next due => exact .inr ⟨by simpa using (Bool.and_eq_true_iff.mp due).1, rfl⟩
  · exact .inl rfl

theorem Firm.Follows.serviced {fw fw' : Firm} (follows : fw.Follows fw') : fw.Follows fw'.serviced := by
  rcases fw'.serviced_eq with same | ⟨normal, serviced⟩
  · rwa [same]
  · rw [serviced]
    exact follows.trans (.of_wear_eq rfl fun h => { h with boot := fun off => absurd (normal.symm.trans (h.boot off)) (by decide) })

/-! ### Ageing and repair (R423, R428 to R433) -/

section
variable {s t : State}

theorem State.replayFlit_follows {link seq : Nat} (h : s.replayFlit link seq = some t) : s.fw.Follows t.fw := by
  unfold State.replayFlit at h
  split at h
  · cases h
  · cases h; exact .of_wear_eq rfl fun h => { h with }

theorem State.repairLink_follows {link : Nat} {bad : List Nat} (h : s.repairLink link bad = some t) : s.fw.Follows t.fw := by
  unfold State.repairLink at h
  dsimp only at h
  split at h
  · cases h
  · cases h
    refine Firm.Follows.serviced ?_
    have lanes : s.fw.Follows { s.fw with
        linkLanes := tabSet s.fw.linkLanes link (bad.foldl insertNat (tabGetD s.fw.linkLanes link []))
        linkReplays := tabErase s.fw.linkReplays link, unacked := tabErase s.fw.unacked link } := .of_wear_eq rfl fun h => { h with }
    split
    · exact lanes.trans (Firm.follows_modWear (.of_same rfl nofun))
    · exact lanes

theorem State.sampled_follows {margins : List (Nat × Nat)} (h : s.sampled margins = some t) : s.fw.Follows t.fw := by
  unfold State.sampled at h
  split at h
  · cases h
  · simp only [foldl_modWear_sample, Option.some.injEq] at h
    obtain rfl := h
    exact Firm.Follows.serviced ⟨sampleAll_follows margins _ _, fun h => { h with }⟩

theorem State.spareFor_follows {die core : Nat} (h : s.spareFor die core = some t) : s.fw.Follows t.fw := by
  unfold State.spareFor at h
  split at h
  · cases h
  · split at h
    · split at h
      · split at h
        · cases h
        · cases h; exact .refl _
      · cases h
        exact (s.fw.follows_retired _).trans (.of_wear_eq rfl fun h => { h with })
    · cases h

theorem State.stepped_follows (h : s.stepped = some t) : s.fw.Follows t.fw := by
  unfold State.stepped at h
  split at h
  · cases h
  · dsimp only at h
    split at h
    · cases h; exact .refl _
    · split at h
      · cases h
      · split at h
        · cases h
        · cases h; exact .of_wear_eq rfl fun h => { h with }

theorem State.remapChannel_follows {d : Nat} (h : s.remapChannel d = some t) : s.fw.Follows t.fw := by
  unfold State.remapChannel at h
  split at h
  · cases h
    exact (s.fw.follows_retired _).trans (.of_wear_eq rfl fun h => { h with })
  · cases h

theorem channelSpareDue_follows {d : Nat} (h : channelSpareDue d s = some t) : s.fw.Follows t.fw := by
  unfold channelSpareDue at h
  split at h
  · cases h
  · exact State.remapChannel_follows h

theorem State.live_iff (s : State) : s.live = true ↔ s.fw.powered = true ∧ s.fw.tripped = false := by
  simp [State.live]

/-- While the clocks run their cap may rise to eight steps. -/
theorem State.stopDomain_follows {d : Nat} (live : s.live = true) (h : s.stopDomain d = some t) : s.fw.Follows t.fw := by
  have running := (s.live_iff.mp live).2
  unfold State.stopDomain at h
  dsimp only at h
  split at h
  · cases h
  · split at h
    · cases h; exact Firm.follows_modWear (f := fun w => { w with retired := true, stopped := true }) (.of_same rfl id)
    · split at h
      · exact State.remapChannel_follows h
      · cases h
        refine Firm.Follows.serviced ((s.fw.follows_stopped d).trans (.of_wear_eq rfl fun h => ?_))
        refine { h with cap := ?_, trip := fun stopped => absurd (running.symm.trans stopped) (by decide) }
        dsimp only
        split
        · exact Nat.min_le_left ..
        · exact h.cap

theorem deviceFailDue_follows {die : Nat} (h : deviceFailDue die s = some t) : s.fw.Follows t.fw := by
  unfold deviceFailDue at h
  split at h
  · cases h
  · next due =>
    have up : s.fw.state ≠ .boot := fun boot => due (by rw [beq_iff_eq.mpr boot, Bool.or_true])
    cases h
    exact .of_wear_eq rfl fun h => { h with boot := fun off => absurd (h.boot off) up }

end

/-! ### Mailbox and live update (R434 to R438) -/

section
variable {s t : State}

theorem State.mail_follows {r : Mail} (h : s.mail r = some t) : s.fw.Follows t.fw := by
  unfold State.mail at h
  split at h
  · cases h; exact .refl _
  · split at h
    · cases h
    · split at h
      · next frozen =>
        cases h
        exact .of_wear_eq rfl fun h => { h with mails := fun early => absurd frozen (Nat.not_le.mpr early) }
      · cases h; exact .refl _

theorem State.spdm_fw {kind index : Nat} {input : List Byte} (h : s.spdm kind index input = some t) : t.fw = s.fw := by
  unfold State.spdm at h
  split at h <;> cases h
  rfl

/-- A live update ends, and the requests that have waited are answered. -/
theorem Firm.Sound.settled {fw fw' : Firm} (h : fw.Sound) (cap : fw'.cap = fw.cap) (tripped : fw'.tripped = fw.tripped) (powered : fw'.powered = fw.powered)
    (state : fw'.state = fw.state) (updating : fw'.updating = 0) (mails : fw'.mails = []) : fw'.Sound where
  cap := cap ▸ h.cap
  trip := by rw [cap, tripped]; exact h.trip
  phase := by omega
  standby := fun busy => absurd updating busy
  mails := fun _ => mails
  boot := by rw [powered, state]; exact h.boot

theorem State.abandon_follows (s : State) : s.fw.Follows (s.withFw { s.fw with updating := 0 }).serveMails.fw :=
  .of_wear_eq rfl fun h => h.settled rfl rfl rfl rfl rfl rfl

theorem State.flip_follows (s : State) (standby newTable : Bool) : s.fw.Follows (s.flip standby newTable).fw :=
  .of_wear_eq rfl fun h => h.settled rfl rfl rfl rfl rfl rfl

end

/-! ### Reset (R427, R441) -/

theorem State.lost_follows (s : State) : s.fw.Follows s.lost.fw :=
  .of_wear_eq rfl fun _ => ⟨Nat.zero_le _, nofun, Nat.zero_le _, fun busy => absurd rfl busy, fun _ => rfl, nofun⟩

theorem State.bringUp_follows {s : State} (powered : s.fw.powered = true) : s.fw.Follows s.bringUp.fw := by
  have on {P : Prop} (off : s.fw.powered = false) : P := absurd (powered.symm.trans off) (by decide)
  have normal : s.fw.Follows { s.fw with standby := true, state := .normal } :=
    .of_wear_eq rfl fun h => { h with standby := fun _ => rfl, boot := on }
  unfold State.bringUp
  dsimp only
  split
  · exact .of_wear_eq rfl fun h => { h with standby := fun _ => rfl, boot := on }
  · refine Firm.Follows.serviced ?_
    split
    · exact normal
    · exact normal.trans (.of_wear_eq rfl fun h => { h with })

theorem State.resetStep_follows (s : State) : s.fw.Follows s.resetStep.fw := by
  unfold State.resetStep
  split
  · next up =>
    simp only [Bool.and_eq_true] at up
    exact State.bringUp_follows up.1.1
  · exact s.lost_follows

/-! ### Instructions and events -/

theorem issue_fw {i : Instr} {body : Mach → Iss → Res} {s t : State} (h : issue i body s = .next t) : t.fw = s.fw := by
  unfold issue at h
  repeat' split at h
  all_goals cases h
  rfl

theorem event_fw {s t : State} {r : Option Mach} (h : event s r = .next t) : t.fw = s.fw := by
  unfold event at h
  split at h
  · cases h
  · split at h <;> cases h <;> rfl

theorem firmEvent_follows {s t : State} {r : Option State} (h : firmEvent s r = .next t)
    (due : ∀ u, s.live = true → r = some u → s.fw.Follows u.fw) : s.fw.Follows t.fw := by
  unfold firmEvent at h
  split at h
  · cases h
  · next live =>
    split at h
    · cases h; exact due _ (by simpa using live) rfl
    · cases h; exact .refl _

theorem State.tick_fw (s : State) : s.tick.fw = s.fw := by rw [State.tick]

theorem execIssueGrant_fw {s t : State} (h : execIssueGrant s = .next t) : t.fw = s.fw := by
  unfold execIssueGrant at h
  split at h
  · cases h
  · split at h
    · cases h; rfl
    · cases h
      dsimp only
      split
      · exact s.tick_fw
      · rfl

end Sys2Proof.Machine
end

section
/-! PROOFS. The invariant of the firmware's state, which every step keeps (R427 to R442): the events of the firmware by rules of their own, the rest because they leave that state. -/

namespace Sys2Proof.Machine

/-! ### Power, attestation, heartbeat and live update (R434, R437, R440, R442) -/

section
variable {s t : State}

theorem execPowerCap_follows {steps : Nat} (h : execPowerCap steps s = .next t) : s.fw.Follows t.fw :=
  firmEvent_follows h fun u live due => by
    split at due
    · cases due
    · next low =>
      cases due
      exact .of_wear_eq rfl fun h => { h with
        cap := Nat.not_lt.mp low, trip := fun stopped => absurd ((s.live_iff.mp live).2.symm.trans stopped) (by decide) }

theorem execThermalTrip_follows {celsius : Nat} (h : execThermalTrip celsius s = .next t) : s.fw.Follows t.fw :=
  firmEvent_follows h fun u _ due => by
    split at due
    · cases due
    · next hot =>
      simp only [Bool.or_eq_true, not_or, bne_iff_ne, ne_eq, Decidable.not_not] at hot
      have lowest : s.fw.cap = 8 := hot.2
      cases due
      exact .of_wear_eq rfl fun h => { h with trip := fun _ => lowest }

theorem execNegotiateAlgorithms_follows {hashes signatures : List Nat} (h : execNegotiateAlgorithms hashes signatures s = .next t) : s.fw.Follows t.fw :=
  firmEvent_follows h fun u _ due => by
    obtain ⟨v, answered, rfl⟩ := Option.map_eq_some_iff.mp due
    exact (Firm.Follows.of_eq (State.spdm_fw answered)).trans (.of_wear_eq rfl fun h => { h with })

/-- The other requests of attestation are answered (R440). -/
theorem firmEvent_spdm_follows {kind index : Nat} {input : List Byte} (h : firmEvent s (s.spdm kind index input) = .next t) : s.fw.Follows t.fw :=
  firmEvent_follows h fun _ _ answered => .of_eq (State.spdm_fw answered)

theorem execGetMeasurements_follows {index : Nat} {nonce : List Byte} (h : execGetMeasurements index nonce s = .next t) : s.fw.Follows t.fw :=
  firmEvent_follows h fun u _ due => by
    split at due
    · cases due
    · exact .of_eq (State.spdm_fw due)

theorem execHeartbeatMiss_follows (h : execHeartbeatMiss s = .next t) : s.fw.Follows t.fw :=
  firmEvent_follows h fun u _ due => by
    split at due
    · cases due
    · split at due
      · cases due; exact s.abandon_follows
      · cases due; exact s.flip_follows ..

theorem Firm.setStandbyImage_follows (fw : Firm) (i : FwImage) : fw.Follows (fw.setStandbyImage i) := by
  unfold Firm.setStandbyImage
  split
  all_goals exact .of_wear_eq rfl fun h => { h with }

theorem Firm.setStandbyImage_standby (fw : Firm) (i : FwImage) : (fw.setStandbyImage i).standby = fw.standby := by
  unfold Firm.setStandbyImage
  split <;> rfl

theorem Firm.setStandbyImage_updating (fw : Firm) (i : FwImage) : (fw.setStandbyImage i).updating = fw.updating := by
  unfold Firm.setStandbyImage
  split <;> rfl

/-- A live update goes on to a further step; it began with a standby. -/
theorem Firm.follows_updating {fw : Firm} {n : Nat} (low : n ≤ 3) (standby : fw.standby = true ∨ fw.updating ≠ 0) (requests : fw.updating < 2 ∨ 2 ≤ n) :
    fw.Follows { fw with updating := n } :=
  .of_wear_eq rfl fun h => { h with
    phase := low
    standby := fun _ => standby.elim id h.standby
    mails := fun early => h.mails (requests.resolve_right (Nat.not_le.mpr early)) }

theorem execLiveUpdateLoad_follows {lo hi major minor version : Nat} {signed : Bool} (h : execLiveUpdateLoad lo hi major minor version signed s = .next t) :
    s.fw.Follows t.fw :=
  firmEvent_follows h fun u _ due => by
    split at due
    · cases due
    · next ready =>
      have started : s.fw.standby = true ∧ s.fw.updating = 0 := by
        simp only [Bool.or_eq_true, not_or, Bool.not_eq_true', Bool.not_eq_false, bne_iff_ne, ne_eq, Decidable.not_not] at ready
        exact ⟨ready.1.2, ready.2⟩
      split at due
      · cases due; exact .refl _
      · cases due
        refine (s.fw.setStandbyImage_follows _).trans (Firm.follows_updating (by decide) (.inl ?_) (.inl ?_))
        · rw [Firm.setStandbyImage_standby]; exact started.1
        · rw [Firm.setStandbyImage_updating, started.2]; decide

theorem execLiveUpdateFreeze_follows (h : execLiveUpdateFreeze s = .next t) : s.fw.Follows t.fw :=
  firmEvent_follows h fun u _ due => by
    split at due
    · cases due
    · next ready =>
      have loaded : s.fw.updating = 1 := by simpa using ready
      cases due
      exact Firm.follows_updating (by decide) (.inr (by omega)) (.inr (by decide))

theorem execStateTableImport_follows {converts : Bool} (h : execStateTableImport converts s = .next t) : s.fw.Follows t.fw :=
  firmEvent_follows h fun u _ due => by
    split at due
    · cases due
    · next ready =>
      have frozen : s.fw.updating = 2 := by simpa using ready
      split at due
      · cases due; exact Firm.follows_updating (by decide) (.inr (by omega)) (.inr (by decide))
      · cases due; exact s.abandon_follows

theorem execTakeover_follows (h : execTakeover s = .next t) : s.fw.Follows t.fw :=
  firmEvent_follows h fun u _ due => by
    split at due
    · cases due
    · cases due; exact s.flip_follows ..

/-! ### Resets (R427, R441) -/

theorem execWarmReset_follows (h : execWarmReset s = .next t) : s.fw.Follows t.fw := by
  unfold execWarmReset at h
  split at h
  · cases h
  · cases h; exact s.resetStep_follows

theorem execModuleUnpowered_follows (h : execModuleUnpowered s = .next t) : s.fw.Follows t.fw := by
  unfold execModuleUnpowered at h
  split at h
  · cases h
  · cases h
    exact s.lost_follows.trans (.of_wear_eq rfl fun h => { h with boot := fun _ => rfl })

/-! ### Every instruction and event -/

theorem exec_follows {i : Instr} (h : exec i s = .next t) : s.fw.Follows t.fw := by
  cases i with
  | flitReplay => exact firmEvent_follows h fun _ _ due => State.replayFlit_follows due
  | linkRepair => exact firmEvent_follows h fun _ _ due => State.repairLink_follows due
  | almanacSample => exact firmEvent_follows h fun _ _ due => State.sampled_follows due
  | coreSpare => exact firmEvent_follows h fun _ _ due => State.spareFor_follows due
  | stepDown => exact firmEvent_follows h fun _ _ due => State.stepped_follows due
  | channelSpare => exact firmEvent_follows h fun _ _ due => channelSpareDue_follows due
  | domainStop => exact firmEvent_follows h fun _ live due => State.stopDomain_follows live due
  | deviceFail => exact firmEvent_follows h fun _ _ due => deviceFailDue_follows due
  | powerCap => exact execPowerCap_follows h
  | thermalTrip => exact execThermalTrip_follows h
  | heartbeatMiss => exact execHeartbeatMiss_follows h
  | liveUpdateLoad => exact execLiveUpdateLoad_follows h
  | liveUpdateFreeze => exact execLiveUpdateFreeze_follows h
  | stateTableImport => exact execStateTableImport_follows h
  | takeover => exact execTakeover_follows h
  | mailboxRequest => exact firmEvent_follows h fun _ _ due => State.mail_follows due
  | negotiateAlgorithms => exact execNegotiateAlgorithms_follows h
  | getMeasurements => exact execGetMeasurements_follows h
  | getVersion | getCapabilities | getDigests | getCertificate | challenge => exact firmEvent_spdm_follows h
  | coldReset => cases h; exact s.resetStep_follows
  | warmReset => exact execWarmReset_follows h
  | moduleUnpowered => exact execModuleUnpowered_follows h
  | issueGrant => exact .of_eq (execIssueGrant_fw h)
  | flagCompletion | mtileStepRetire | waitSatisfied | joinComplete | splitPlacement | splitMerge | promotion | refill | takeEntry | admitEntry
  | stagingComplete | stagingFault | meridianPublish | stealRequestServed | crossDieSteal | stealReply | writebackRequest | park | resumeEntryCreate
  | resume | teamFutureCompletion | barrierCredit | copyCompletion | queueSpawn | flushTimerExpiry | queueTileEnd | watchdogStop | haltTimeout
  | l1Eviction | l2Eviction | hbmFill | controlArrayError | tlbMissWalk | walkComplete | walkBoundExceeded | pageRequestResponse | portalDmwr
  | portalPostedWrite | nopPacket | launchRoot | launchTile | copy | signal | wait | writeThenSignal | fencePacket | collective | queueInitEnable
  | queueInitDisable | timestamp | launchComplete | queueRecordWrite | registerWrite | sliceExpiry | preemptPending | preemptWithdraw | discardTeam
  | quiescencePark | graceExpiry | switchOut | switchIn | hostBar4Write | hostBar4Read | hostCompletion | priResponse | write | read
  | atomic | qpushFrame | waitreg | qctl | replReq | ownReq | inval | fetch | pageData | grant | fpcEviction | ordWrite | ordUpdate | looseUpdate
  | collParam | collData | collectiveEndEarly | resp | ack | nack | frameDiscard | frameRetransmit | atsTranslationCompletion | softError
  | priorityFlowControl => exact .of_eq (event_fw h)
  | atsInvalidation => exact .of_eq (event_fw (r := some _) h)
  | configurationRequest => exact .of_eq (event_fw (r := some _) h)
  | _ => exact .of_eq (issue_fw h)

/-! ### Every step -/

theorem exists_of_firstDue {l : List Event} (h : firstDue s l = some t) : ∃ f ∈ l, f s = some t := by
  induction l with
  | nil => cases h
  | cons f rest ih =>
    unfold firstDue at h
    split at h
    · next due => cases h; exact ⟨f, List.mem_cons_self, due⟩
    · obtain ⟨g, hg, due⟩ := ih h
      exact ⟨g, List.mem_cons_of_mem _ hg, due⟩

theorem repairEvents_follows {f : Event} (live : s.live = true) (hf : f ∈ repairEvents s) (due : f s = some t) : s.fw.Follows t.fw := by
  simp only [repairEvents, List.mem_append, List.mem_flatMap, List.mem_singleton] at hf
  rcases hf with ⟨⟨d, w⟩, -, hf⟩ | rfl
  · dsimp only at hf
    split at hf
    · cases hf
    · simp only [List.mem_append, List.mem_singleton] at hf
      rcases hf with hf | rfl
      · split at hf
        · simp only [List.mem_cons, List.not_mem_nil, or_false] at hf
          rcases hf with rfl | rfl
          · exact State.spareFor_follows due
          · exact deviceFailDue_follows due
        · split at hf
          · obtain rfl := List.mem_singleton.mp hf
            exact channelSpareDue_follows due
          · cases hf
      · exact State.stopDomain_follows live due
  · exact State.stepped_follows due

theorem machEvents_fw {l : List (State → Option Mach)} {f : Event} (hf : f ∈ machEvents l) (due : f s = some t) : t.fw = s.fw := by
  obtain ⟨g, -, rfl⟩ := List.mem_map.mp hf
  obtain ⟨m, -, rfl⟩ := Option.map_eq_some_iff.mp due
  rfl

theorem dueEvents_follows {f : Event} (live : s.live = true) (hf : f ∈ dueEvents s) (due : f s = some t) : s.fw.Follows t.fw := by
  unfold dueEvents at hf
  split at hf
  · obtain rfl := List.mem_singleton.mp hf
    cases due
    exact s.resetStep_follows
  · rcases List.mem_append.mp hf with repair | machine
    · exact repairEvents_follows live repair due
    · exact .of_eq (machEvents_fw machine due)

theorem stepGrant_follows {g : Nat × Nat} {rest : List (Nat × Nat)} (h : stepGrant s g rest = .next t) : s.fw.Follows t.fw := by
  unfold stepGrant at h
  split at h
  · cases h; exact .refl _
  · cases h; exact .refl _
  · exact exec_follows h

theorem stepCycle_follows (h : stepCycle s = .next t) : s.fw.Follows t.fw := by
  unfold stepCycle at h
  split at h
  · cases h
  · next on =>
    have live : s.live = true := by simpa using on
    split at h
    · exact .of_eq (Host.Outcome.next.inj h ▸ s.tick_fw)
    · split at h
      · next first =>
        cases h
        obtain ⟨f, hf, due⟩ := exists_of_firstDue first
        exact dueEvents_follows live hf due
      · exact .of_eq (execIssueGrant_fw h)

theorem stepRaw_follows (h : stepRaw s = .next t) : s.fw.Follows t.fw := by
  unfold stepRaw at h
  split at h
  · exact stepGrant_follows h
  · split at h
    · next i rest _ => exact exec_follows (s := { s with sched := rest }) h
    · exact stepCycle_follows h

theorem step_follows (h : step s = .next t) : s.fw.Follows t.fw := by
  unfold step at h
  cases raw : stepRaw s with
  | next u =>
    rw [raw] at h
    cases h
    exact stepRaw_follows (t := u) raw
  | fault r => rw [raw] at h; cases h
  | refused r => rw [raw] at h; cases h

end

/-- Settles O57: a step is an instruction or event, one that is due, or the end of a cycle (step_follows), and each is followed by a state of the firmware
that keeps the invariant (Firm.Follows.inv). -/
theorem stepsKeepTheFirmwareInvariant : Obligations.StepsKeepTheFirmwareInvariant := by
  unfold Obligations.StepsKeepTheFirmwareInvariant
  exact fun s t inv h => (step_follows h).inv inv

end Sys2Proof.Machine
end

section
/-! PROOFS. Samples, stops of marked domains, and what resets keep of the wear records (R428, R432, R441). -/

namespace Sys2Proof.Machine

/-! ### SERVICE is all that Firm.serviced changes (R431) -/

theorem Firm.serviced_withState (fw : Firm) : fw.serviced = { fw with state := fw.serviced.state } := by
  rcases fw.serviced_eq with same | ⟨-, serviced⟩
  · rw [same]
  · rw [serviced]

@[simp] theorem Firm.serviced_wear (fw : Firm) : fw.serviced.wear = fw.wear := by rw [serviced_withState]
@[simp] theorem Firm.serviced_sparing (fw : Firm) : fw.serviced.sparing = fw.sparing := by rw [serviced_withState]
@[simp] theorem Firm.serviced_channels (fw : Firm) : fw.serviced.channels = fw.channels := by rw [serviced_withState]
@[simp] theorem Firm.serviced_seconds (fw : Firm) : fw.serviced.seconds = fw.seconds := by rw [serviced_withState]
@[simp] theorem Firm.serviced_cap (fw : Firm) : fw.serviced.cap = fw.cap := by rw [serviced_withState]

@[simp] theorem Firm.wearOf_serviced (fw : Firm) (d : Nat) : fw.serviced.wearOf d = fw.wearOf d := by
  rw [Firm.wearOf, Firm.wearOf, serviced_wear]

theorem Firm.serviced_state (fw : Firm) : fw.serviced.state = fw.state ∨ fw.state = .normal ∧ fw.serviced.state = .service := by
  rcases fw.serviced_eq with same | ⟨normal, serviced⟩
  · exact .inl (by rw [same])
  · exact .inr ⟨normal, by rw [serviced]⟩

/-! ### Samples (R428) -/

/-- The domains that a sample reaches: those that it lists and those with a record. -/
def sampledDomains (margins : List (Nat × Nat)) (t : Tab Wear) : List Nat := (margins.map (·.1)).foldl insertNat (t.map (·.1))

theorem mem_sampledDomains {margins : List (Nat × Nat)} {t : Tab Wear} {d : Nat} :
    d ∈ sampledDomains margins t ↔ (∃ y ∈ margins, y.1 = d) ∨ (tabGet t d).isSome = true := by
  rw [sampledDomains, mem_foldl_insertNat, tabGet_isSome_iff, List.mem_map]

/-- The firmware's state once every domain has been sampled. -/
def Firm.sample (fw : Firm) (margins : List (Nat × Nat)) : Firm :=
  { fw with wear := sampleAll margins (sampledDomains margins fw.wear) fw.wear, seconds := fw.seconds + 1 }

theorem Firm.tabGet_sample_of_unreached {fw : Firm} {margins : List (Nat × Nat)} {d : Nat} (unlisted : ∀ y ∈ margins, y.1 ≠ d)
    (unrecorded : tabGet fw.wear d = none) : tabGet (fw.sample margins).wear d = none := by
  refine (tabGet_sampleAll_of_not_mem fun reached => ?_).trans unrecorded
  rcases mem_sampledDomains.mp reached with ⟨y, hy, same⟩ | record
  · exact unlisted y hy same
  · rw [unrecorded] at record; cases record

/-- Where the records ascend, each domain is sampled once. -/
theorem Firm.wearOf_sample_of_reached {fw : Firm} {margins : List (Nat × Nat)} {d : Nat} (rising : numsAbove none (fw.wear.map (·.1)) = true)
    (reached : (∃ y ∈ margins, y.1 = d) ∨ (tabGet fw.wear d).isSome = true) :
    (fw.sample margins).wearOf d = (fw.wearOf d).sample (tabGetD margins d (fw.wearOf d).margin) :=
  tabGetD_sampleAll_of_mem (nodup_of_numsAbove (foldl_insertNat_wf _ rising)) (mem_sampledDomains.mpr reached)

theorem State.sampled_of_valid {s : State} {margins : List (Nat × Nat)} (valid : ∀ y ∈ margins, validDomain y.1 = true ∧ y.2 < 4096) :
    s.sampled margins = some (s.withFw (s.fw.sample margins).serviced) := by
  have known : (margins.any fun (d, g) => !validDomain d || decide (4096 ≤ g)) = false := by
    refine List.any_eq_false.mpr fun y hy => ?_
    obtain ⟨domain, small⟩ := valid y hy
    simpa [domain] using small
  unfold State.sampled
  simp only [foldl_modWear_sample]
  exact if_neg (ne_true_of_eq_false known)

theorem samplesReachEveryDomain : SamplesReachEveryDomain := by
  intro s margins live rising valid
  refine ⟨_, firmEvent_of_due live (State.sampled_of_valid valid), ?seconds, ?sparing, ?channels, ?unreached, ?reached, ?service⟩
  case seconds => exact (s.fw.sample margins).serviced_seconds
  case sparing => exact (s.fw.sample margins).serviced_sparing
  case channels => exact (s.fw.sample margins).serviced_channels
  case unreached =>
    intro d unlisted unrecorded
    rw [Firm.serviced_wear, Firm.tabGet_sample_of_unreached unlisted unrecorded]
  case reached =>
    intro d reached
    rw [Firm.wearOf_serviced, Firm.wearOf_sample_of_reached rising reached]
    exact Wear.sample_sampledWear ..
  case service => exact (s.fw.sample margins).serviced_state

/-! ### Stops (R428, R432) -/

theorem firmEvent_of_none {s : State} {r : Option State} (live : s.live = true) (none : r = none) : firmEvent s r = .next s := by
  simp only [firmEvent, none, live, Bool.not_true, Bool.false_eq_true, if_false]

theorem State.stopDomain_of_margin {s : State} {d : Nat} (high : 4 ≤ (s.fw.wearOf d).margin) : s.stopDomain d = none := by
  unfold State.stopDomain
  exact if_pos (by simp only [high, decide_true, Bool.or_true])

section
variable {s : State} {d : Nat} (valid : validDomain d = true) (marked : (s.fw.wearOf d).marked = true) (unretired : (s.fw.wearOf d).retired = false)
  (running : (s.fw.wearOf d).stopped = false) (low : (s.fw.wearOf d).margin < 4)
include valid marked unretired running low

/-- A marked domain of a MARGIN below 4 stops. -/
theorem State.stopDomain_due :
    ¬ (!validDomain d || !(s.fw.wearOf d).marked || (s.fw.wearOf d).retired || (s.fw.wearOf d).stopped || decide (4 ≤ (s.fw.wearOf d).margin)) = true := by
  simp only [valid, marked, unretired, running, Nat.not_le.mpr low, decide_false, Bool.not_true, Bool.or_self, Bool.false_eq_true, not_false_eq_true]

/-- A core is retired, and the context of its die faults (R432). -/
theorem State.stopDomain_of_core (core : domKind d = 0) :
    s.stopDomain d = some { s with
      fw := s.fw.modWear d fun w => { w with retired := true, stopped := true }
      m := if s.enabled d then (match s.m.ctxOn (domDie d) with
        | some x => if (s.m.ctx x).any (·.faulted) then s.m else s.m.faultContext x 5
        | none => s.m) else s.m } := by
  unfold State.stopDomain
  refine (if_neg (State.stopDomain_due valid marked unretired running low)).trans ?_
  rw [core]
  rfl

/-- A domain that is no core's and has no spare keeps running; beyond its repair it caps the clock one step further (R432; DEDUCED, log 33). -/
theorem State.stopDomain_of_unspared (other : domKind d ≠ 0) (unspared : domKind d ≠ 3) :
    let cap := if s.fw.beyondRepair d then min 8 (s.fw.cap + 1) else s.fw.cap
    s.stopDomain d = some { s with
      fw := { s.fw.modWear d fun w => { w with stopped := true } with cap := cap }.serviced
      m := if cap == s.fw.cap then s.m else s.m.logReason 10 0 cap d } := by
  unfold State.stopDomain
  refine (if_neg (State.stopDomain_due valid marked unretired running low)).trans ?_
  split
  · next core => exact absurd core other
  · simp only [beq_eq_false_iff_ne.mpr unspared, Bool.false_and, Bool.false_eq_true, if_false]
    rfl

end

/-! ### Resets (R427, R441) -/

theorem State.bringUp_wear (s : State) : s.bringUp.fw.wear = s.fw.wear := by
  unfold State.bringUp
  dsimp only
  split
  · rfl
  · rw [Firm.serviced_wear]
    split <;> rfl

theorem State.resetStep_wear (s : State) : s.resetStep.fw.wear = s.fw.wear := by
  unfold State.resetStep
  split
  · exact s.bringUp_wear
  · rfl

theorem execWarmReset_wear {s t : State} (h : execWarmReset s = .next t) : t.fw.wear = s.fw.wear := by
  unfold execWarmReset at h
  split at h
  · cases h
  · cases h; exact s.resetStep_wear

theorem execModuleUnpowered_wear {s t : State} (h : execModuleUnpowered s = .next t) : t.fw.wear = s.fw.wear := by
  unfold execModuleUnpowered at h
  split at h <;> cases h
  rfl

/-- Settles O59: a sample reaches each domain once (tabGetD_sampleAll_of_mem), a stop is due below a MARGIN of 4 (State.stopDomain_due), and every step is followed by
records in which no VOFF has fallen (step_follows). That a domain which a sample does not list keeps its margin is the model's (DESIGN CHOICE, log 14). -/
theorem voffNeverFalls : Obligations.VoffNeverFalls := by
  unfold Obligations.VoffNeverFalls
  refine ⟨samplesReachEveryDomain, ?stops, fun s t d h => (step_follows h).wear.voff d, ?resets⟩
  case stops =>
    intro s d live valid marked unretired running
    refine ⟨fun low => ?_, fun high => firmEvent_of_none live (State.stopDomain_of_margin high)⟩
    by_cases core : domKind d = 0
    · refine ⟨_, firmEvent_of_due live (State.stopDomain_of_core valid marked unretired running low core), fun _ => ?_⟩
      rw [Firm.wearOf_modWear_same]
    · cases due : s.stopDomain d with
      | some t => exact ⟨t, firmEvent_of_due live due, fun h => absurd h core⟩
      | none => exact ⟨s, firmEvent_of_none live due, fun h => absurd h core⟩
  case resets =>
    intro i hi s t h
    simp only [List.mem_cons, List.not_mem_nil, or_false] at hi
    rcases hi with rfl | rfl | rfl
    · cases h; exact s.resetStep_wear
    · exact execWarmReset_wear h
    · exact execModuleUnpowered_wear h

end Sys2Proof.Machine
end

section
/-! PROOFS. Repairs, power and temperature (R429 to R433, R442): where each event is due, and what it makes of the firmware's state. -/

namespace Sys2Proof.Machine

/-- The number of a core's domain (R427). -/
theorem domainNo_core (die core : Nat) : domainNo 0 die core = 256 * die + core := by
  rw [domainNo, Nat.mul_zero, Nat.zero_add]

/-! ### Spares for cores (R429, R438) -/

section
variable {s : State} {die core l p : Nat} (low : die < 8) (settled : s.fw.updating = 0) (legal : s.fw.legalCores = some s.m.logCores)
  (worn : (s.fw.wearOf (256 * die + core)).healthy = false)
include low settled legal worn

theorem State.spareFor_due :
    ¬ (decide (8 ≤ die) || s.fw.updating != 0 || s.fw.legalCores != some s.m.logCores || (s.fw.wearOf (256 * die + core)).healthy) = true := by
  simp only [Nat.not_le.mpr low, settled, legal, worn, decide_false, bne_self_eq_false, Bool.or_self, Bool.false_eq_true, not_false_eq_true]

variable (logical : s.fw.logicalOf s.m.logCores die core = some l) (spare : s.fw.spareCore s.m.logCores die = some p)
include logical spare

theorem State.spareFor_of_resident {x : Nat} {c : Ctx} (on : s.m.ctxOn die = some x) (hc : s.m.ctx x = some c) (unasked : c.repair = false) :
    s.spareFor die core = some { s with m := s.m.repairPreempt x } := by
  unfold State.spareFor
  rw [domainNo_core]
  refine (if_neg (State.spareFor_due low settled legal worn)).trans ?_
  simp only [logical, spare, on, hc, Option.any_some, unasked, Bool.false_eq_true, if_false]

theorem State.spareFor_of_free (free : s.m.ctxOn die = none) :
    s.spareFor die core = some { s with
      fw := { s.fw.modWear (256 * die + core) fun w => { w with retired := true } with sparing := tabSet s.fw.sparing (coreNo die l) p }
      m := (s.m.replaceCore (coreNo die l)).logReason 9 0 (coreNo die l) p } := by
  unfold State.spareFor
  rw [domainNo_core]
  refine (if_neg (State.spareFor_due low settled legal worn)).trans ?_
  simp only [logical, spare, free]

end

/-! ### Steps to a lower configuration (R430) -/

section
variable {s : State} {n : Nat} (due : s.stepDue = true) (idle : ∀ y ∈ s.m.ctxs, y.2.launches = [])
include due idle

theorem State.stepped_due : ¬ (!s.stepDue || s.m.ctxs.any fun (_, c) => !c.launches.isEmpty) = true := by
  have none : (s.m.ctxs.any fun (_, c) => !c.launches.isEmpty) = false :=
    List.any_eq_false.mpr fun y hy => by simp [idle y hy]
  rw [due, none]
  decide

theorem State.stepped_of_resident (there : ∃ y ∈ s.m.ctxs, y.2.resident = true ∧ y.2.repair = false) :
    s.stepped = some { s with m := (s.m.ctxs.filter fun y => y.2.resident).foldl (fun (m : Mach) y => m.repairPreempt y.1) s.m } := by
  obtain ⟨y, hy, resident, unasked⟩ := there
  have unready : ((s.m.ctxs.filter fun (_, c) => c.resident).any fun (_, c) => !c.repair) = true :=
    List.any_eq_true.mpr ⟨y, List.mem_filter.mpr ⟨hy, resident⟩, by simp [unasked]⟩
  unfold State.stepped
  exact (if_neg (State.stepped_due due idle)).trans (if_pos unready)

theorem State.stepped_of_free (legal : s.fw.legalCores = some n) (free : ∀ y ∈ s.m.ctxs, y.2.resident = false) :
    s.stepped = some { s with
      fw := s.fw.enable n
      m := { ((List.range 8).flatMap fun d => s.m.dieCores d).foldl (fun (m : Mach) k => m.replaceCore k) s.m with logCores := n }.logReason 9 1 n 0 } := by
  have there : (s.m.ctxs.filter fun (_, c) => c.resident) = [] :=
    List.filter_eq_nil_iff.mpr fun y hy => by simp [free y hy]
  unfold State.stepped
  refine (if_neg (State.stepped_due due idle)).trans ?_
  simp only [there, List.any_nil, List.isEmpty_nil, Bool.not_true, Bool.false_eq_true, if_false, legal]

end

/-! ### Spares for channels (R431) -/

theorem channelSpareDue_of_marked {s : State} {d c p : Nat} (valid : validDomain d = true) (channel : domKind d = 3)
    (marked : (s.fw.wearOf d).marked = true) (unretired : (s.fw.wearOf d).retired = false) (serves : s.fw.servesChannel d = some c)
    (spare : s.fw.spareChannel d = some p) :
    channelSpareDue d s = some { s with
      fw := { s.fw.modWear d fun w => { w with retired := true } with channels := tabSet s.fw.channels c p }
      m := s.m.logReason 9 2 c p } := by
  simp only [channelSpareDue, valid, channel, marked, unretired, bne_self_eq_false, Bool.not_true, Bool.or_self, Bool.false_eq_true, if_false,
    State.remapChannel, serves, spare]

/-! ### The end of repairable life (R432, R433) -/

/-- A marked link or PHY has no spare. -/
theorem Firm.beyondRepair_of_kind_one {fw : Firm} {d : Nat} (marked : (fw.wearOf d).marked = true) (unretired : (fw.wearOf d).retired = false)
    (kind : domKind d = 1) : fw.beyondRepair d = true := by
  simp only [Firm.beyondRepair, marked, unretired, kind, Bool.not_false, Bool.and_self]

theorem deviceFailDue_of_few {s : State} {die : Nat} (low : die < 8) (few : s.fw.healthOf die < 64)
    (serving : s.fw.state = .normal ∨ s.fw.state = .service) :
    deviceFailDue die s = some { s with fw := { s.fw with state := .failed }, m := s.m.faultAll 5 } := by
  have due : ¬ (decide (8 ≤ die) || decide (64 ≤ s.fw.healthOf die) || s.fw.state == .failed || s.fw.state == .boot) = true := by
    rcases serving with state | state <;> simp [low, few, state]
  unfold deviceFailDue
  exact if_neg due

/-- Settles O47: each event is due where its statement says so (the lemmas above), and a change of one domain's record leaves the others (tabGetD_tabSet_other).
That a domain which a sample does not list keeps its margin, and that a lost domain which is no core's caps the clock one step further, are the model's
(DESIGN CHOICE, logs 14 and 65; DEDUCED, log 33). -/
theorem ageingAndPowerEvents : Obligations.AgeingAndPowerEvents := by
  unfold Obligations.AgeingAndPowerEvents
  refine ⟨samplesReachEveryDomain, ?core, ?step, ?channel, ?stop, ?fail, ?cap, ?trip⟩
  case core =>
    intro s die core l p live low settled legal worn logical spare
    refine ⟨fun x c on hc unasked => ?_, fun free => ?_⟩
    · exact firmEvent_of_due live (State.spareFor_of_resident low settled legal worn logical spare on hc unasked)
    · refine ⟨_, firmEvent_of_due live (State.spareFor_of_free low settled legal worn logical spare free), tabGetD_tabSet_same .., ?_, fun d other => ?_⟩
      · simp only [Firm.wearOf, Firm.modWear, tabGetD_tabSet_same]
      · exact tabGetD_tabSet_other _ _ _ other
  case step =>
    intro s n live due legal idle
    refine ⟨fun there => ?_, fun free => ?_⟩
    · exact firmEvent_of_due live (State.stepped_of_resident due idle there)
    · exact ⟨_, firmEvent_of_due live (State.stepped_of_free due idle legal free), rfl⟩
  case channel =>
    intro s d c p live valid channel marked unretired serves spare
    refine ⟨_, firmEvent_of_due live (channelSpareDue_of_marked valid channel marked unretired serves spare), tabGetD_tabSet_same .., ?_⟩
    simp only [Firm.wearOf, Firm.modWear, tabGetD_tabSet_same]
  case stop =>
    intro s d live valid marked unretired running low
    refine ⟨fun core => ?_, fun kind => ?_⟩
    · refine ⟨_, _, firmEvent_of_due live (State.stopDomain_of_core valid marked unretired running low core), ?_, ?_, ?_⟩
      · rw [Firm.wearOf_modWear_same]
      · intro enabled x on unfaulted
        simp only [enabled, on, unfaulted, Bool.false_eq_true, if_false, if_true]
      · intro disabled
        simp only [disabled, Bool.false_eq_true, if_false]
    · refine ⟨_, _, firmEvent_of_due live (State.stopDomain_of_unspared valid marked unretired running low (by omega) (by omega)), ?_, ?_⟩
      · rw [Firm.wearOf_serviced]
        simp only [Firm.wearOf, Firm.modWear, tabGetD_tabSet_same]
      · rw [Firm.serviced_cap, Firm.beyondRepair_of_kind_one marked unretired kind, if_pos rfl]
  case fail =>
    intro s die live low few serving
    exact firmEvent_of_due live (deviceFailDue_of_few low few serving)
  case cap =>
    intro s steps live low
    exact firmEvent_of_due live (if_neg (Nat.not_lt.mpr low))
  case trip =>
    intro s celsius live hot lowest
    have due : ¬ (decide (celsius < 115) || s.fw.cap != 8) = true := by simp [lowest, hot]
    refine ⟨_, firmEvent_of_due live (if_neg due), ?_, rfl, rfl, rfl⟩
    simp [State.live]

end Sys2Proof.Machine
end

section
/-! PROOFS. What a reset keeps of memory (R427, R441) fails at a memory that is not in canonical form (Memory.wf), which the statement does not ask for: the carve-out's
cell goes, and a cell behind it that no read found is found. -/

namespace Sys2Proof.Machine

/-- A memory whose cells fall: a read of byte 0 stops at the cell of granule 1 and finds 0. -/
def fallingMemory : Memory := ⟨[(2 ^ 29, 9), (0, 7)], []⟩

/-- The device without power, with fallingMemory and granule 1 in a secure carve-out. -/
def fallingDevice : State :=
  { State.reset with m := { Mach.empty with mem := fallingMemory, carveOuts := [1] }, fw := { Firm.shipped with powered := false } }

theorem byte_fallingMemory : fallingMemory.byte 0 = 0 := rfl

/-- The carve-out's cell is gone, and byte 0 reads 7. -/
theorem byte_fallingMemory_without : (fallingMemory.without [1]).byte 0 = 7 := by decide

/-- With no error record to write and no future waited on, a reset leaves the memory without its carve-outs. -/
theorem State.lost_mem {s : State} (posted : s.m.posted = []) (links : s.m.links = []) : s.lost.m.mem = s.m.mem.without s.m.carveOuts := by
  have records : s.m.writeRecords = { s.m with posted := [] } := by
    simp only [Mach.writeRecords, posted, List.isEmpty_nil, if_true, sortBy, List.foldr_nil, List.foldl_nil]
  simp only [State.lost, records, Mach.unlinkWhere, links, List.filter_nil, List.foldl_nil]

/-- Refutes O48: when power returns to fallingDevice, byte 0, which lies in no carve-out, reads 0 before and 7 after; ResetLoses lacks the hypothesis that the memory is in
canonical form, as CoreSeesItsStores has it for the home slices. -/
theorem not_firmwareEvents : ¬ Obligations.FirmwareEvents := by
  unfold Obligations.FirmwareEvents
  rintro ⟨-, -, -, -, -, -, powerReturns, -⟩
  obtain ⟨t, reset, -, loses⟩ := powerReturns fallingDevice rfl
  have lost : t = fallingDevice.lost := (Host.Outcome.next.inj reset).symm
  obtain ⟨-, -, -, -, -, -, -, -, -, keeps⟩ := loses
  have kept : t.m.mem.byte 0 = fallingMemory.byte 0 := (keeps rfl rfl 0 (by decide)).1
  rw [lost, State.lost_mem rfl rfl] at kept
  have same : (7 : Byte) = 0 := byte_fallingMemory_without.symm.trans (kept.trans byte_fallingMemory)
  exact absurd same (by decide)

end Sys2Proof.Machine
end
